-- ==== Sys2Proof/Word.lean ====
section
/-! DEFINITION. The word types of the region: the 32-bit register word (R6), bytes, 64-byte rows and tokens (R116, R149), the 32-lane vector of a CU (R83). -/

namespace Sys2Proof

/-- A management-window register, a micro-operation, an FP32 value: 32 bits (R6, R100). -/
abbrev Word := BitVec 32
/-- The smallest addressable unit of the memories. -/
abbrev Byte := BitVec 8
/-- 64 bytes, little-endian (byte k is bits 8k+7..8k): an SRAM row, a stack row, a token payload, a flit (R116, R149, R221). -/
abbrev Row := BitVec 512
/-- 32 FP32 lanes, lane i at bits 32i+31..32i (Table 3-5). -/
abbrev Vec := BitVec 1024
/-- A 2,048-byte unit configuration, byte k at bits 8k+7..8k (R103, R144). -/
abbrev UnitCfg := BitVec 16384

end Sys2Proof
end

