-- ==== Sys2Proof/Syntax.lean ====
section
/-! DEFINITION. The commands of the region: one constructor per row of spec/opcode_table.json. Each is one event, whole and indivisible (95_what_each_step_holds.md); what the region cannot know by itself (a value written, a frame, a reading, whether an outside part answered) is an operand. -/

namespace Sys2Proof

/-- The two ports of the management window (R435): the Mbao ring and WIN packets of the fabric. -/
inductive WinPort | ring | fabric
  deriving DecidableEq, Repr

/-- What the check codes of the 64-bit words that one access reads show (R85, R88, R117): how many were corrected, and the first with a double-bit error. -/
structure Ecc where
  corrected : Nat
  double : Option Nat
  deriving DecidableEq, Repr
/-- No word in error. -/
def Ecc.good : Ecc := ⟨0, none⟩
/-- One word corrected. -/
def Ecc.single : Ecc := ⟨1, none⟩

/-- What the check code of a flit shows (R221). -/
inductive FlitEcc | good | single | double
  deriving DecidableEq, Repr

/-- What a stack read shows: `corrected n` needed n corrected bits; above the code's reach it is uncorrectable (R183, R184, R186). -/
inductive ReadErr | clean | corrected (bits : Nat) | uncorrectable
  deriving DecidableEq, Repr

/-- What the reads of a long transfer from a work stack showed: how many were corrected and how many uncorrectable (R186). -/
structure Reads where
  corrected : Nat
  uncorrectable : Nat
  deriving DecidableEq, Repr

/-- The rails of Table 11-2 in their order of starting. -/
inductive Rail | vInt | vIo | vSram | vStack | vCore (q : Fin 4)
  deriving DecidableEq, Repr

/-- An injector: a unit at its port 8 output, or a local injector at a hub, numbered as FUNC of Table 7-7: 0 stack port, 1 command front end, 2-5 control cores, 6 configuration streamer, 7 piton engine (R224, Table 7-2). -/
inductive Injector | unit (lu : Fin 9216) | hub (q : Fin 4) (f : Fin 8)
  deriving DecidableEq, Repr

/-- What only the outside of the region decides during bring-up: store words found uncorrectable (R426), work stacks that fail training (R391), a store or a firmware check that takes longer than step 3 may, and quarters whose stacks take longer than step 7 may (R389). -/
structure BootEnv where
  pstBad : List (Fin 4096)
  ksFail : BitVec 4
  pstLate : Bool
  fwLate : Bool
  stkLate : BitVec 4
  deriving DecidableEq, Repr

/-- Nothing amiss. -/
def BootEnv.good : BootEnv := ⟨[], 0, false, false, 0⟩

/-- The outcome of a full training (Table 7-13): UP or not, the partner's SITE, failed lanes mapped per direction, and the 32 calibration words. -/
structure TrainResult where
  ok : Bool
  site : BitVec 8
  sparesTx : BitVec 5
  sparesRx : BitVec 5
  calib : List Word
  deriving DecidableEq, Repr

/-- One frame of an edge link (R248): 256 data bytes, the control word of Table 7-12, the CRC. -/
structure LinkFrame where
  data : BitVec 2048
  ctl : BitVec 64
  crc : BitVec 32
  deriving DecidableEq, Repr

/-- The uncalibrated activity estimate of one 10 µs (R353), in nJ, per quarter and shared. -/
structure EnergyEst where
  q0 : Nat
  q1 : Nat
  q2 : Nat
  q3 : Nat
  shared : Nat
  deriving DecidableEq, Repr

/-- A report to a zone's fault collector (R408): what a unit has detected (R113, R146), or a zone code of Table 14-2. -/
inductive FaultReport
  | unit (u : Fin 9792)
  | zone (z : Fin 48) (code : BitVec 8) (detail : BitVec 64)
  deriving DecidableEq, Repr

/-- The commands. Units are physical: 204 × zone + 12 × column + row (Table 2-16); `lu` is a logical unit x + 96 y (R18); `Option (Fin 4)` names an alignment's set, none for all 48 zones at bring-up (R314). -/
inductive Instr
  -- window accesses
  | registerWrite (p : WinPort) (off : BitVec 24) (size : Nat) (v : Word)
  | wpWrite (p : WinPort) (off : BitVec 24) (v : Word)
  | persistAck (w : Fin 4096)
  | latchedLoRead (p : WinPort) (off : BitVec 24)
  | zoneArithDataRead (p : WinPort) (z : Fin 48)
  | unrouteCountRead (p : WinPort)
  | pitErrRead (p : WinPort) (q : Fin 4)
  -- pins, supply, bring-up, reset
  | vinRise
  | thermTripValid
  | thermTrip (sensor : Fin 64) (reading : BitVec 16)
  | rstRegionLow (ns : Nat)
  | bringupStart (env : BootEnv)
  | bringupStepTimeout (step : Fin 11)
  | vinGood
  | railStartTimeout (r : Rail)
  | qreset (p : WinPort) (q : Fin 4)
  | qresetChanterStart (q : Fin 4)
  | warm (p : WinPort) (env : BootEnv)
  -- compute unit, stages 0 to 2
  | ldb (u : Fin 9792) (ecc : Ecc)
  | ldv (u : Fin 9792) (ecc : Ecc)
  | dot (u : Fin 9792) (upset : Option (Fin 32 × Fin 24))
  | acc (u : Fin 9792) (upset : Option (Fin 32 × Fin 40))
  | slotResultReady (u : Fin 9792) (slot : Fin 4)
  -- stage 3
  | fadd (u : Fin 9792) (ecc : Ecc)
  | fmul (u : Fin 9792) (ecc : Ecc)
  | fmin (u : Fin 9792) (ecc : Ecc)
  | fmax (u : Fin 9792) (ecc : Ecc)
  | cmplt (u : Fin 9792) (ecc : Ecc)
  | cmpeq (u : Fin 9792) (ecc : Ecc)
  | sel (u : Fin 9792) (ecc : Ecc)
  | mov (u : Fin 9792) (ecc : Ecc)
  | rot (u : Fin 9792) (ecc : Ecc)
  | bfr (u : Fin 9792) (ecc : Ecc)
  | scl (u : Fin 9792) (ecc : Ecc)
  -- stage 4
  | exp (u : Fin 9792)
  | exp2 (u : Fin 9792)
  | log (u : Fin 9792)
  | rsqrt (u : Fin 9792)
  | rcp (u : Fin 9792)
  | tanh (u : Fin 9792)
  | sigm (u : Fin 9792)
  | gelut (u : Fin 9792)
  | gelue (u : Fin 9792)
  | silu (u : Fin 9792)
  | sqrt (u : Fin 9792)
  | pass (u : Fin 9792)
  -- stage 5
  | qnt (u : Fin 9792)
  | pkb (u : Fin 9792)
  | pkf (u : Fin 9792)
  -- every stage
  | nop (u : Fin 9792) (stage : Fin 6)
  | wrap (u : Fin 9792) (stage : Fin 6)
  -- firing and micro-schedule
  | unitFire (u : Fin 9792) (ecc : Ecc)
  | schedStep (u : Fin 9792)
  | schedLoop (u : Fin 9792)
  | schedEnd (u : Fin 9792)
  -- channels
  | tokenArrival (lu : Fin 9216) (port : Fin 9) (flip : Option (Fin 516))
  | creditReturn (lu : Fin 9216) (port : Fin 9)
  -- memory unit
  | send (u : Fin 9792) (ag : Fin 4) (ecc : Ecc)
  | recv (u : Fin 9792) (ag : Fin 4)
  | fetch (u : Fin 9792) (ag : Fin 4)
  | store (u : Fin 9792) (ag : Fin 4) (ecc : Ecc) (rmw : ReadErr)
  | gather (u : Fin 9792) (ag : Fin 4)
  | sgather (u : Fin 9792) (ag : Fin 4) (ecc : Ecc)
  | stackRunLanding (u : Fin 9792) (run : Nat) (own partner : ReadErr)
  | storeAck (u : Fin 9792) (ag : Fin 4)
  | sramScrub (u : Fin 9792) (ecc : Ecc)
  | contextSwitch (u : Fin 9792)
  | boreWrite (lu : Fin 9216) (port : Fin 9)
  | boreReadback (lu : Fin 9216) (port : Fin 9) (ecc : Ecc)
  -- generations and the streamer
  | configTokenAbsorb (lu : Fin 9216) (port : Fin 9)
  | generationSwitch (u : Fin 9792)
  | deadlock (z : Fin 48)
  | start (p : WinPort) (q : Fin 4)
  | abort (p : WinPort) (q : Fin 4)
  | planEntry (q : Fin 4) (read : ReadErr)
  | sequenceInject (q : Fin 4) (lu : Fin 9216) (port : Fin 9)
  | fabricBarrierInject (q : Fin 4) (lu : Fin 9216)
  | stagingCarrier (q : Fin 4) (lu : Fin 9216)
  -- weight and work stacks
  | ageUpdate
  | wearTableWrite (s : Fin 8)
  | refreshCopyDone (s : Fin 8) (own partner : List (Fin 16384 × ReadErr))
  | refreshRemap (s : Fin 8)
  | oldBlockRelease (s : Fin 8)
  | ksRefresh (k : Fin 4)
  | ksScrub (k : Fin 4) (corrected : Nat)
  | full (s : Fin 8)
  | delta (s : Fin 8) (source : Bool) (ks : Reads)
  | resume (s : Fin 8) (copy partner : List (Fin 16384 × ReadErr))
  | journalRecord (s : Fin 8) (source : Bool) (ks : Reads)
  | commitSeal (s : Fin 8) (source : Bool) (ks : Reads)
  | deltaSwitch (s : Fin 8)
  -- packet fabric
  | packetInject (i : Injector)
  | routerHop (pid : Nat) (ecc : FlitEcc)
  | bucketRecovery (i : Injector)
  | spreadEscape (pid : Nat)
  | token (pid : Nat)
  | resp (pid : Nat)
  | stkRd (pid : Nat) (own partner : List ReadErr)
  | stkWr (pid : Nat) (rmw : List ReadErr)
  | winWr (pid : Nat)
  | winRd (pid : Nat)
  | hostWr (link : Fin 32)
  | hostRd (link : Fin 32)
  | fabCtlWrite (p : WinPort) (v : Word)
  | tblWrite (p : WinPort) (v : Word)
  | tblRead (p : WinPort) (v : Word)
  | tblDelete (p : WinPort) (v : Word)
  | tblCmdComplete
  -- edge links
  | linkFrameReceive (n : Fin 32) (f : LinkFrame)
  | linkResendTimeout (n : Fin 32)
  | quickRetrain (n : Fin 32)
  | quick (p : WinPort) (n : Fin 32)
  | train (p : WinPort) (n : Fin 32)
  | enable (p : WinPort) (n : Fin 32) (v : Word)
  | quickRetrainEnd (n : Fin 32) (ok : Bool)
  | partnerDetect (n : Fin 32)
  | trainingEnd (n : Fin 32) (r : TrainResult)
  | noPartner (n : Fin 32)
  -- pitons
  | arrive (q : Fin 4)
  | setTarget (q : Fin 4)
  | wait (q : Fin 4)
  | chain (q : Fin 4)
  | proxyArrive (q : Fin 4)
  | pitonRead (q : Fin 4)
  | clearAll (p : WinPort) (q : Fin 4)
  -- drone loop
  | droneLockAcquired
  | lockAPatternBoundary
  | clkDroneConfirmWrite (p : WinPort) (v : Word)
  | refLoss
  | refReturn (offsetPs : Int)
  | walkComplete
  -- chanters and moves
  | alignmentBeat
  | lockWindowEnd (z : Fin 48) (count : Nat)
  | coastTimeout (z : Fin 48)
  | chanterStart (p : WinPort) (z : Fin 48) (v : Word)
  | chanterReset (p : WinPort) (z : Fin 48) (v : Word)
  | chanterFail (z : Fin 48)
  | stepIssue
  | railSettled
  -- stretch, slip, alignment
  | droopAssert (z : Fin 48) (d : Fin 16) (reading : Nat)
  | droopDeassert (z : Fin 48) (d : Fin 16) (reading : Nat)
  | zoneCycleEnd (z : Fin 48)
  | stretch (z : Fin 48)
  | slipReport (z : Fin 48)
  | reconcile
  | alignBegin (set : Option (Fin 4))
  | alignCrossingsSet (set : Option (Fin 4))
  | alignRelease (set : Option (Fin 4))
  | align (p : WinPort) (q : Fin 4)
  -- drone time
  | arm (p : WinPort) (v : Word)
  | droneSyncLoad
  | stampTick
  -- power, energy, thermal
  | overvoltage
  | marginReport (z : Fin 48) (monitor : Fin 24) (slack : Int)
  | trimLower (q : Fin 4)
  | governorSample (e : EnergyEst)
  | pwrAllotWrite (p : WinPort) (v : Word)
  | pwrModeWrite (p : WinPort) (v : Word)
  | hintExpire (i : Fin 16)
  | needIndexSample
  | vinWarning
  | vinWarningEnd
  | powerFailReset
  | powerFailRelease (env : BootEnv)
  | calibrationUpdate (vinMv iinMa : BitVec 16) (measNj : Nat)
  | thermalSample (readings : List (BitVec 16))
  | thermalResume (q : Fin 4)
  -- command queues and descriptors
  | dbSqTail (p : WinPort) (n : Fin 64) (v : Word)
  | dbCqHead (p : WinPort) (n : Fin 64) (v : Word)
  | descriptorArrival (n : Fin 64) (ok : Bool)
  | irqDelayExpire (n : Fin 64)
  | nopDescriptor (n : Fin 64)
  | runGraph (n : Fin 64)
  | runGraphTimeout (n : Fin 64)
  | loadConfig (n : Fin 64)
  | serve (n : Fin 64)
  | pitonOp (n : Fin 64)
  | copy (n : Fin 64) (ok : Bool) (ks : Reads) (rmw : List ReadErr)
  | queueFence (n : Fin 64)
  | queueFenceDone (n : Fin 64)
  | timeMark (n : Fin 64)
  | timeMarkReached (n : Fin 64)
  | regionEvtHeadWrite (p : WinPort) (v : Word)
  | queueReset (p : WinPort) (n : Fin 64)
  | queueEnable (p : WinPort) (n : Fin 64) (v : Word)
  | cmdQCfgWrite (p : WinPort) (n : Fin 64) (v : Word)
  -- service
  | seqStart (p : WinPort) (q : Fin 4)
  | stop (p : WinPort) (q : Fin 4)
  | stepBoundary (q : Fin 4)
  | stepTimeout (q : Fin 4)
  | drain (p : WinPort) (q : Fin 4)
  -- firmware, keys
  | update (p : WinPort)
  | fwUpdateComplete (ok : Bool)
  | install (p : WinPort) (slot : Fin 4)
  | revoke (p : WinPort) (slot : Fin 4)
  -- Mbao ring
  | mbaoForward (f : BitVec 128)
  | rd (f : BitVec 128)
  | wr (f : BitVec 128)
  | tap (f : BitVec 128)
  | idle (f : BitVec 128)
  | mbaoResp (f : BitVec 128)
  | need (f : BitVec 128)
  | mbaoReservedOp (f : BitVec 128)
  -- TAP instruments
  | idcode
  | bypass
  | thermScan
  | railScan
  | linkEye (n : Fin 32) (eyes : List (BitVec 16))
  | pstRead
  | fieldRecord
  -- faults
  | unitFaultReport (r : FaultReport)
  | faultHalt (q : Fin 4)
  | steeringComplete (z : Fin 48)
  | stepReplay (q : Fin 4)
  | rearm (p : WinPort) (q : Fin 4)
  | capture (p : WinPort)
  | release (p : WinPort)
  | stackDeadTimeout (st : Fin 12)
  | lifetimeCounterWrite
  -- V_AUX
  | vAuxOn
  | vAuxLost
  deriving DecidableEq, Repr

end Sys2Proof
end

