-- ==== Sys2Proof/Config.lean ====
section
/-! DEFINITION. What a part, a free value or a standard outside the spec fixes: uninterpreted constants, of which nothing can be proved. -/

namespace Sys2Proof.Config

/-- REGION_SITE.SITE, fixed at wafer test (R38). -/
opaque site : BitVec 8
/-- REGION_SITE.ENABLED, fixed at wafer test (R38). -/
opaque enabled : Bool
/-- The 64-bit region serial, fixed at wafer test (R38). -/
opaque serial : BitVec 64
/-- Identity block of weight stack s (R191). -/
opaque wsIdentity : Nat → Row
/-- Identity block of work stack k (R191). -/
opaque ksIdentity : Nat → Row
/-- VERSION of the firmware image in slot A (false) or B (true) as shipped (R395). -/
opaque fwPartVersion : Bool → BitVec 16
/-- Endpoint identifiers under which the configuration streamer and the control cores of a quarter send, which no text gives (R232). -/
opaque streamerId : Nat → BitVec 24
opaque coreId : Nat → BitVec 24
/-- Stamp path delay of a zone before it is bounded to 2-12 ticks (R319). -/
opaque stampDelay : Nat → Nat
/-- The unfiltered lock detector of the drone loop in a drone tick of acquisition or of a walk (R280). -/
opaque lockAdv : Nat → Bool
/-- What QNT's token holds above its two records: a function of the records, since stage 5 outputs are bit-identical for the same inputs (R68, log 16). -/
opaque qntPad : Row → Row
/-- Payload of a push whose stage 5 result is not valid, by unit and output binding (R84, log 17). -/
opaque invalidRow : Nat → Nat → Row
/-- The TAP's instruction register, which the spec does not give: its bits, what Capture-IR loads, and the instrument of Table 13-3 that an instruction names, in the table's order; any other number is a locked instruction (R400, log 34). -/
opaque irWidth : Nat
opaque irCapture : Nat
opaque irCode : Nat → Nat
/-- A free value of w bits, for the n-th time one is taken. -/
opaque freeValue : (w : Nat) → Nat → BitVec w
/-- What an undefined row holds, by epoch and row number (R190, R415). -/
opaque freeRow : Nat → Nat → Row
/-- The stage 4 functions on FP32 (R101): op code of Table 3-7 and input; published outside the spec. -/
opaque stage4 : Nat → Word → Word
/-- LENGTH, VERSION and the verdict on a firmware image (R395, R396). -/
opaque fwLength : List (Nat × BitVec 8) → Nat
opaque fwVersion : List (Nat × BitVec 8) → BitVec 16
opaque fwVerify : List (Nat × BitVec 8) → Bool
/-- Whether a shipped firmware slot verifies (R395). -/
opaque fwPartGood : Bool → Bool
/-- Address and entries of the first layer plan that a PLAN_ROW row of a service table names; the spec does not give the list's layout (R377). -/
opaque firstPlan : Row → BitVec 48 × BitVec 16
/-- KS byte addresses of the token ID and the logit of candidate i of the k-th request of a group, from CAND_ROW and C; the spec does not give the layout (R384). -/
opaque candAddr : (row c k i : Nat) → Nat × Nat

end Sys2Proof.Config
end

