-- ==== Sys2Proof/Machine/State.lean ====
section
/-! DEFINITION. The state of the region: every register, table, buffer, queue, counter, mode and pin the spec gives it, as plain data, and State.reset, the region right after a cold reset (R12, R404): V_AUX up, RST_REGION_N low, rails shed, persistent store as wafer test left it (R441). Times are drone clock edges counted in `tick`. -/

namespace Sys2Proof.Machine

/-- A table of values by number, in one canonical form: numbers strictly rising, no entry equal to the default (Machine/Ops.lean). -/
abbrev Sparse (α : Type) := List (Nat × α)

/-- A byte memory: (address, byte), addresses strictly rising, no entry 0, which an unlisted address reads as. -/
abbrev Memory := List Host.Cell

/-- Rows of 64 bytes whose contents may be undefined (R190, R415): while `undef` names an epoch, a row not written since reads as a free value. -/
structure RowMem where
  mem : Memory
  undef : Option Nat
  since : List Nat
  deriving DecidableEq, Repr

/-- Where the region stands between a reset and READY (R389, R394, R399). -/
inductive BootPhase | unpowered | held | bringup | ready | failed
  deriving DecidableEq, Repr

/-- Drone loop states (Table 9-2). -/
inductive DroneState | off | acquiring | locked | holdover | walking
  deriving DecidableEq, Repr

/-- Chanter states (Table 9-16). -/
inductive ChanterState | reset | acquiring | locked | coasting | failed
  deriving DecidableEq, Repr

/-- What the present zone cycle is (R303): it advances the schedule, or is a slip breath, a governor breath, or a hold. -/
inductive CycleKind | advance | slip | govBreath | hold
  deriving DecidableEq, Repr

/-- Link states (Table 7-25). -/
inductive LinkState | down | training | up | retraining | noPartner | disabled
  deriving DecidableEq, Repr

/-- Service states (Table 12-9). -/
inductive SvcState | off | starting | serving | draining | halted
  deriving DecidableEq, Repr

/-- Fault actions (Table 14-3), in code order. -/
inductive Action | count | replay | steer | degrade | stop | reset
  deriving DecidableEq, Repr

/-- A token: payload and tag (R149, R150). -/
structure Token where
  payload : Row
  gen : BitVec 2
  last : Bool
  par : Bool
  deriving DecidableEq, Repr

/-- A token on its way to an input port: schedule cycles left before it is poppable or enters its belay slot (R153); `crossing` while it must still pass a belay buffer. -/
structure Transit where
  token : Token
  left : Nat
  crossing : Bool
  deriving DecidableEq, Repr

/-- An input port of a logical unit and its channel (R152, R157, R163, R169). -/
structure Chan where
  /-- producer-end generation; 2 bits; 05_dataflow R157; reset 0 -/
  gen : BitVec 2
  /-- credits the producer has spent; at most 16, or 17 + LEN with a bore; 05_dataflow R152, R169; reset 0 -/
  spent : Nat
  /-- credits on their way back: schedule cycles left; 05_dataflow R153; reset none -/
  back : List Nat
  /-- credits of a crossing on their way to its belay buffer: schedule cycles left of the consumer's zone; 05_dataflow R153; reset none -/
  credOut : List Nat
  /-- tokens in transit, oldest first; 05_dataflow R153; reset none -/
  flight : List Transit
  /-- tokens past transit, waiting for their TOKEN_ARRIVAL; 05_dataflow R153; reset none -/
  landed : List Token
  /-- the 16-token queue, oldest first; 05_dataflow R152; reset empty -/
  queue : List Token
  /-- tokens at the port, to be written to the bore; 05_dataflow R169; reset none -/
  spill : List Token
  /-- rows of the bore that hold tokens, oldest first, with the schedule cycle of writing; 05_dataflow R169; reset none -/
  boreRows : List (Nat × Nat × BitVec 4)
  /-- next bore row to write, from BASE; 05_dataflow R169; reset 0 -/
  boreNext : Nat
  /-- bore (BASE, LEN + 1) that still drains after a switch; 05_dataflow R171; reset none -/
  oldBore : Option (Nat × Nat)
  /-- tokens of a configuration sequence already absorbed at this port; 05_dataflow R158, R160; reset 0 -/
  absorbing : Nat
  /-- marked by a running plan, with the producer's generation then; 05_dataflow R163; reset no -/
  marked : Option (BitVec 2)
  /-- the producer of the marked channel has pushed its last; 05_dataflow R163; reset no -/
  closed : Bool
  /-- schedule cycle of the last configuration token absorbed; 05_dataflow R160; reset none -/
  absorbCyc : Option Nat
  /-- schedule cycle of the producer's zone in which the channel last took a token; 00_scope R14; reset none -/
  sent : Option Nat
  /-- schedule cycle of the consumer's zone in which a token last arrived; 00_scope R14; reset none -/
  arrived : Option Nat
  deriving DecidableEq, Repr

/-- One element of an unpacked block: an exact integer times a power of two (R46). -/
structure Elem where
  s : Int
  e : Int
  /-- mod-7 residue of s from the operand code (R80) -/
  r : Nat
  deriving DecidableEq, Repr

/-- One unpacked block of a lane or an activation: 16 elements, its scale exponent, outliers (position, value). -/
structure Blk where
  elems : List Elem
  scale : Int
  outs : List (Nat × Elem)
  deriving DecidableEq, Repr

/-- What stage 0 presents for one lane: the blocks of an LDB and the group's fine scale (f, ef) (R57, R66, R90). -/
structure LaneOp where
  blks : List Blk
  f : Nat
  ef : Int
  deriving DecidableEq, Repr

/-- A term of stage 1: s × 2^e with its residue (R63, R80). -/
structure Term where
  s : Int
  e : Int
  r : Nat
  deriving DecidableEq, Repr

/-- A lane's terms of one DOT with the group's fine scale (f, ef). -/
structure LaneTerms where
  terms : List Term
  f : Nat
  ef : Int
  deriving DecidableEq, Repr

/-- What stage 1 hands to stage 2: the lanes' terms, and how many blocks (or elements) they complete (R94, R95). -/
structure TermOp where
  lanes : List LaneTerms
  units : Nat
  deriving DecidableEq, Repr

/-- A lane's accumulation in one slot (R65 to R67, R95). -/
structure LaneAcc where
  terms : List Term
  node : List (Option Word)
  f : Nat
  ef : Int
  deriving DecidableEq, Repr

/-- One accumulation slot (R95, R96): 32 lanes, blocks (or elements) and groups taken, whether any operand was invalid. -/
structure Slot where
  lanes : List LaneAcc
  units : Nat
  groups : Nat
  /-- accumulations that close: cycle of the last term, cycle in which the result is ready, result; oldest first; 03_compute_unit R96; reset none -/
  closing : List (Nat × Nat × Vec)
  /-- S s; 32 × FP32 and a valid bit; 03_compute_unit R95, R96; reset not valid -/
  result : Option Vec
  deriving DecidableEq, Repr

/-- A micro-operation that the micro-schedule has advanced: stage and schedule cycle in which it executes (R108). -/
structure Due where
  stage : Nat
  at_ : Nat
  deriving DecidableEq, Repr

/-- A push the micro-schedule has issued (R108, R111): the cycle it is due, the latest cycle of the stage 5 micro-operation it pushes, the output binding, the firing's last push to it. -/
structure PushDue where
  at_ : Nat
  src : Nat
  binding : Nat
  last : Bool
  deriving DecidableEq, Repr

/-- A ring of a CU binding (R89): whole tokens held, byte read position, tokens released and written so far, native blocks of the MX block at the read position already taken (R92). -/
structure Ring where
  held : Nat
  rdByte : Nat
  wrTok : Nat
  half : Nat
  deriving DecidableEq, Repr

/-- A timed pipeline register: values with the schedule cycle from which each is seen, oldest first (R83, R108). -/
abbrev Timed (α : Type) := List (Nat × α)

/-- The CU part of a unit (03_compute_unit). -/
structure Cu where
  /-- stage program counters; 6 × 6 bits; R109; reset 0 -/
  pcs : Sparse Nat
  /-- micro-schedule entry; R106, R107; reset 0 -/
  entry : Nat
  /-- cycles of the present STEP already run; R107; reset 0 -/
  rep : Nat
  /-- LOOP entries in progress with the times the body has run; R107; reset none -/
  loops : List (Nat × Nat)
  /-- schedule cycles the unit has run; R108; reset 0 -/
  cyc : Nat
  /-- advanced micro-operations not yet executed; R108; reset none -/
  due : List Due
  /-- the zone's schedule cycle that the last SCHED_STEP took; 10_stretch_and_time R303; reset none -/
  stepped : Option Nat
  /-- pushes not yet made; R108; reset none -/
  pushes : List PushDue
  /-- pocket accesses not yet accounted: zone schedule cycle, rank of R87 (0 token write, 1 stage 3 write, 2 stage 3 read, 3 stage 0 read), banks; R86, R87; reset none -/
  banks : List (Nat × Nat × List Nat)
  /-- deferred pocket accesses, each of which holds the micro-schedule for a cycle: rank, banks; R87; reset none -/
  waiting : List (Nat × List Nat)
  /-- stage 3 results on their way to the pocket: cycle of completion, address, value; R98; reset none -/
  pk : List (Nat × Nat × Vec)
  /-- pocket; 64 KiB; R85; reset DESIGN CHOICE 0 (log 2) -/
  pocket : Memory
  /-- ring bindings; R89; reset empty -/
  rings : Sparse Ring
  /-- block index within the weight group record, of the next LDB; R90; reset 0 -/
  wBlock : Nat
  /-- weight operands to stage 1; R90; reset not valid -/
  wOp : Timed (Option (List LaneOp))
  /-- activation operands to stage 1; R91; reset not valid -/
  aOp : Timed (Option (List LaneOp))
  /-- outliers of the group in progress, per lane (block, position, value); R59, R90; reset none -/
  outs : List (List (Nat × Nat × Word))
  /-- part of a block stage 1 has covered in earlier cycles; R94; reset 0 -/
  dotPart : Nat
  /-- stage 1's partial sums of the block in progress, a lane each; R94; reset none -/
  partials : List Term
  /-- terms to stage 2, per lane, with the fine scales and the blocks or elements they complete; R94; reset not valid -/
  terms : Timed (Option TermOp)
  /-- accumulation slots 0-3; R95; reset empty -/
  slots : Sparse Slot
  /-- vector registers V0-V15 (0-15), IN (20), OUT (22), stage 4 result (32); 32 × FP32 and a valid bit; R98, Table 3-5; reset V0-V15 DESIGN CHOICE +0 and valid (log 3), the others not valid -/
  regs : Sparse (Timed (Option Vec))
  /-- stage 5 results for pushes, by the cycle of their micro-operation: the rows still to push, none where the operand was not valid; R102, R108; reset none -/
  outq : List (Nat × List (Option Row))
  /-- seed tokens of firings whose first QNT is still to come: cycle from which each holds, SEED, STEP; R102; reset none -/
  seeds : List (Nat × BitVec 64 × BitVec 32)
  /-- SEED; 64 bits; 02_formats R75; reset DESIGN CHOICE 0 (log 3) -/
  seed : BitVec 64
  /-- STEP; 32 bits; 02_formats R75; reset DESIGN CHOICE 0 (log 3) -/
  step : BitVec 32
  /-- BLK; 18 bits; 02_formats R75; reset 0 -/
  blk : BitVec 18
  /-- arithmetic items 0-36; 32 bits each; 02_formats R78; reset 0 -/
  items : Sparse Word
  /-- sticky flags, item 37; 5 bits; 02_formats R78; reset 0 -/
  flags : BitVec 5
  deriving DecidableEq, Repr

/-- One address generator of the active context (R122 to R132). -/
structure AgSt where
  /-- accesses issued in this firing -/
  issued : Nat
  /-- completed count: leading accesses completed (R128) -/
  lead : Nat
  /-- completed accesses beyond the leading ones -/
  late : List Nat
  /-- position within the present nest -/
  pos : Nat
  /-- present index entry (GATHER, SGATHER) -/
  idx : Option Word
  /-- entries of the present index token still to take -/
  entries : List Word
  /-- the present index token had last-of-firing -/
  lastTok : Bool
  /-- the nest is done -/
  done : Bool
  /-- index entries, or passes after a GATHER leader, begun -/
  passes : Nat
  /-- stopped at an access out of bounds; R147 -/
  stuck : Bool
  deriving DecidableEq, Repr

/-- An outstanding run request (R127): accesses first .. first + len - 1 of AG `ag`. -/
structure StkRun where
  id : Nat
  ag : Nat
  first : Nat
  len : Nat
  stk : BitVec 2
  row : Nat
  sram : Nat
  /-- physical block of the page when the run was requested, 0 where it was not mapped (R197, R208) -/
  blk : Nat
  /-- the same of the partner stack, which serves the run where this one cannot (R184, R202) -/
  pblk : Nat
  /-- tick of the request (R421) -/
  since : Nat
  deriving DecidableEq, Repr

/-- A STORE that KS[q] has not acknowledged (R126): its AG, access, stack row, the tick of the request (R421) and the row. -/
structure StkStore where
  ag : Nat
  acc : Nat
  row : Nat
  since : Nat
  data : Row
  deriving DecidableEq, Repr

/-- A row of a stack run on its way into the SRAM (R121, R126): its run, AG, access, SRAM row and data. -/
structure Landing where
  run : Nat
  ag : Nat
  acc : Nat
  sram : Nat
  row : Row
  deriving DecidableEq, Repr

/-- The MU part of a unit (04_memory_unit). -/
structure Mu where
  /-- SRAM; 8,192 rows of 64 bytes; R116; reset DESIGN CHOICE 0 (log 2) -/
  sram : RowMem
  /-- active context; 2 bits; R134; reset 0 -/
  ctx : BitVec 2
  /-- firings since the context was selected; R138; reset 0 -/
  ctxFirings : Nat
  /-- address generators; R125; reset idle -/
  ags : Sparse AgSt
  /-- outstanding runs; at most 16 an AG; R127; reset none -/
  runs : List StkRun
  /-- next run number (the model's own) -/
  nextRun : Nat
  /-- STORE accesses not yet acknowledged; R126; reset none -/
  stores : List StkStore
  /-- banks served in this schedule cycle; R119; reset none -/
  banks : List Nat
  /-- schedule cycle of the last access, to clear `banks`; R119; reset 0 -/
  bankCyc : Nat
  /-- schedule cycles since the firing began; R125; reset 0 -/
  fireCyc : Nat
  /-- AGs that have issued in this schedule cycle; R125; reset none -/
  used : List Nat
  /-- RECV rows to be written: (due cycle, AG, access, row, payload); R126; reset none -/
  recvs : List (Nat × Nat × Nat × Nat × Row)
  /-- SENDs on their way to the channel: (due cycle, port, payload, last of the firing once that is known); R126, R130; reset none -/
  sends : List (Nat × Nat × Row × Option Bool)
  /-- rows of landing runs that the stack crossbar has still to deliver, in order; R121; reset none -/
  arriving : List Landing
  /-- the landing buffer, at most 8 rows; R121; reset empty -/
  landing : List Landing
  /-- next row to scrub; R118; reset 0 -/
  scrubRow : Nat
  /-- schedule cycle of the last scrub; R118; reset 0 -/
  scrubCyc : Nat
  /-- no AG issues in this schedule cycle, after a context switch; R135; reset no -/
  switching : Bool
  /-- AGs whose access of rank 2 was deferred; R120; reset none -/
  late : List Nat
  /-- the active context holds in this schedule cycle; R119, R120; reset no -/
  holding : Bool
  deriving DecidableEq, Repr

/-- The shadow configuration of a unit (R158, R160, R161). -/
structure Shadow where
  /-- configuration received; 2 KiB; 05_dataflow R158; reset 0 -/
  cfg : UnitCfg
  /-- carrier tokens received; 05_dataflow R160; reset 0 -/
  count : Nat
  /-- carriers completed; 05_dataflow R161, R162; reset 0 -/
  carriers : Nat
  /-- port of the carrier, 15 for the staging path -/
  carrierPort : Nat
  /-- ports whose sequence is absorbed; 9 bits; 05_dataflow R159; reset 0 -/
  absorbed : BitVec 9
  deriving DecidableEq, Repr

/-- A physical unit (R83, R134, R161). -/
structure UnitSt where
  /-- active configuration; 2 KiB; 03_compute_unit R103; reset blank (log 4) -/
  cfg : UnitCfg
  /-- a configuration is loaded: the unit is not blank; 05_dataflow R163; reset no -/
  loaded : Bool
  /-- generation; 2 bits; 05_dataflow R157, R161; reset 0 -/
  gen : BitVec 2
  /-- a firing is in progress; 03_compute_unit R106; reset no -/
  firing : Bool
  /-- stopped by a CONFIG or BOUNDS fault; 03_compute_unit R114; reset no -/
  stopped : Bool
  /-- firings completed; 24 bits; 03_compute_unit R115; reset 0 -/
  firings : BitVec 24
  /-- unit items 1-6: STATIC_MISS, ELASTIC_WAIT, CREDIT_WAIT, BANK_STALL, SLOT_WAIT or FOLLOW_WAIT, POCKET_CORR or SRAM_CORR; 32 bits each; 03_compute_unit R115, 04_memory_unit R148; reset 0 -/
  ctr : Sparse Word
  /-- BORE_PEAK; 16 bits; 04_memory_unit R140; reset 0 -/
  borePeak : BitVec 16
  /-- CTX_SWITCHES; 16 bits; 04_memory_unit R148; reset 0 -/
  ctxSwitches : BitVec 16
  shadow : Shadow
  cu : Cu
  mu : Mu
  /-- schedule cycle in which a condition of the generation switch came about last: a sequence or a carrier in, a firing over; 05_dataflow R161; reset none -/
  settled : Option Nat
  /-- schedule cycle of the last generation switch; 05_dataflow R161; reset none -/
  switched : Option Nat
  /-- the unit waits on a fabric input, a stack landing, a STORE acknowledgement or a parked crossing; 05_dataflow R173 -/
  elasticHold : Bool
  deriving DecidableEq, Repr

/-- A zone's page registers and its deadlock watch (Table 15-15). -/
structure ZonePage where
  /-- ZONE_ARITH_SEL.UNIT; 8 bits; 02_formats R78; reset 0 -/
  arithUnit : BitVec 8
  /-- ZONE_ARITH_SEL.ITEM; 6 bits; 02_formats R78; reset 0 -/
  arithItem : BitVec 6
  /-- ZONE_ARITH_SUMMARY; 5 bits; 02_formats R79; reset 0 -/
  summary : BitVec 5
  /-- ZONE_UNIT_SEL.UNIT; 8 bits; 03_compute_unit R115; reset 0 -/
  unitUnit : BitVec 8
  /-- ZONE_UNIT_SEL.ITEM; 3 bits; 03_compute_unit R115; reset 0 -/
  unitItem : BitVec 3
  /-- ZONE_DLW_COUNT; 17 bits; 05_dataflow R173; reset 0 -/
  dlwCount : BitVec 17
  /-- ZONE_DLW_STATUS.TRIPPED; 1 bit; 05_dataflow R174; reset 0 -/
  tripped : Bool
  /-- stall records; up to 16 words; 05_dataflow R175; reset none -/
  recs : List Word
  /-- ZONE_DLW_SEL; 4 bits; 05_dataflow R175; reset 0 -/
  dlwSel : BitVec 4
  /-- a token moved in the zone since its last schedule cycle; 05_dataflow R173; reset no -/
  moved : Bool
  deriving DecidableEq, Repr

/-- An entry of a load plan being delivered (R163 to R167). -/
structure PlanItem where
  idx : Nat
  lu : Nat
  carrier : Nat
  piton : BitVec 17
  fabg : Bool
  cfg : UnitCfg
  /-- ports whose sequence is still to be injected, with the tokens of it injected so far -/
  ports : List (Nat × Nat)
  /-- the fabric barrier is still to be injected -/
  fabricWait : Bool
  /-- TAG of the WAIT for the guarding piton, whether that WAIT stands, and whether it has been answered COMPLETE; 05_dataflow R164 -/
  tag : Word
  asked : Bool
  ready : Bool
  /-- the staging carrier is still to be written -/
  staging : Bool
  deriving DecidableEq, Repr

/-- A configuration streamer and its registers (Tables 5-4 to 5-9). -/
structure CfgQ where
  /-- CFG_PLAN_LO.ADDR_LO; 26 bits; 05_dataflow R168; reset 0 -/
  planLo : BitVec 26
  /-- CFG_PLAN_HI.SRC; 1 bit; 05_dataflow R168; reset 0 -/
  src : Bool
  /-- CFG_PLAN_HI.ADDR_HI; 16 bits; 05_dataflow R168; reset 0 -/
  planHi : BitVec 16
  /-- CFG_PLAN_COUNT.ENTRIES; 16 bits; 05_dataflow R168; reset 0 -/
  entries : BitVec 16
  /-- CFG_CTL.START; 1 bit; 05_dataflow R168; reset 0 -/
  start : Bool
  /-- CFG_CTL.ABORT; 1 bit; 05_dataflow R168; reset 0 -/
  abort : Bool
  /-- CFG_STATUS.STATE; 2 bits; 05_dataflow R168; reset 0 -/
  state : BitVec 2
  /-- CFG_STATUS.ERROR; 6 bits; 05_dataflow R168; reset 0 -/
  error : BitVec 6
  /-- CFG_STATUS.ENTRY; 16 bits; 05_dataflow R168; reset 0 -/
  entry : BitVec 16
  /-- the plan in progress: address, source, entries in all -/
  planAddr : Nat
  planSrc : Bool
  planLen : Nat
  /-- entries read and not yet wholly delivered; 05_dataflow R167 -/
  items : List PlanItem
  /-- entries read so far -/
  taken : Nat
  /-- tick at which the streamer asked for its next entry; 14_faults R421; reset 0 (the model's own) -/
  asked : Nat
  /-- TAG of the streamer's next WAIT; 05_dataflow R164; reset 0 (the model's own) -/
  waitTag : Word
  /-- FENCED has been released to the streamer in the step in progress; 08_pitons R268; reset no -/
  fenced : Bool
  /-- quarters in reset whose fences it tells of; 14_faults R422; reset none (the MODEL's own) -/
  fencedBy : BitVec 4
  /-- an ABORT has stopped a plan and the quarter has not been reset since; 05_dataflow R168; reset no -/
  aborted : Bool
  /-- registered descriptor or sequencer that waits for the plan: queue number, 64 + q for a sequencer, none for firmware -/
  owner : Option Nat
  /-- channels that got a token in zone 12q's schedule cycle `injCyc`, each 16 lu + port; R167; reset none -/
  inj : List Nat
  /-- schedule cycle of the last injected token; R167; reset 0 -/
  injCyc : Nat
  deriving DecidableEq, Repr

/-- A SHA-384 hash state: the hash value, the bytes of the block not yet full, the bytes taken (FIPS 180-4; R211). -/
structure HashSt where
  h : List (BitVec 64)
  rest : List Byte
  len : Nat
  deriving DecidableEq, Repr

/-- A manifest (Table 6-4). -/
structure Manifest where
  format : BitVec 32
  seq : BitVec 32
  imageId : BitVec 64
  rows : BitVec 64
  pages : BitVec 16
  layout : BitVec 8
  keySlot : BitVec 8
  /-- bytes 0-127, what the signature covers besides the digests -/
  head : BitVec 1024
  /-- the 96-byte signature; 06_stacks R200 -/
  sig : BitVec 768
  /-- bytes 224-255 -/
  tail : BitVec 256
  /-- page digests, 48 bytes each; 06_stacks R199 -/
  digests : List (BitVec 384)
  deriving DecidableEq, Repr

/-- A copy of the page table and manifest, as block 3 or 4 holds it (R201). -/
structure ImgCopy where
  manifest : Option Manifest
  /-- logical page to physical block -/
  table : Sparse Nat
  /-- the closing check word is there and right -/
  check : Bool
  /-- SEALED -/
  sealed : Bool
  deriving DecidableEq, Repr

/-- A journal record (R211): k, the digest of the manifest, the hash state of the page in progress, whether its check word holds. -/
structure JournalRec where
  k : Nat
  digest : BitVec 384
  hash : HashSt
  check : Bool
  deriving DecidableEq, Repr

/-- A physical block of a weight stack (R193, Table 6-18). -/
structure Block where
  /-- PROGRAMS; 12 bits; 06_stacks R193; reset 0 (per part, DESIGN CHOICE, log 5) -/
  programs : BitVec 12
  /-- USE; 2 bits; 06_stacks R217; reset free -/
  use : BitVec 2
  /-- MAX_CORR; 5 bits; 06_stacks R183; reset 0 -/
  maxCorr : BitVec 5
  /-- CORR_GRANULES; 13 bits; 06_stacks R183; reset 0 -/
  corr : BitVec 13
  /-- weighted hours of the stack, in 2^-64, at the block's last program: AGE counts from there; 06_stacks R195; reset 0 -/
  born : Nat
  /-- to be retired when it is next unmapped; 06_stacks R193 -/
  condemned : Bool
  deriving DecidableEq, Repr

/-- A commit in progress (R205 to R215). -/
structure Commit where
  /-- 0 FULL, 1 DELTA, 2 RESUME -/
  kind : BitVec 2
  /-- the manifest being committed; 06_stacks R205 -/
  manifest : Manifest
  /-- page table a delta builds -/
  table : Sparse Nat
  /-- blocks a delta has taken -/
  taken : List Nat
  /-- data source: KS or host, its byte address, and the image row the data start with -/
  src : Bool
  addr : Nat
  base : Nat
  /-- GB programmed (full, resume) -/
  pos : Nat
  /-- hash state of the page in progress (full, resume); 06_stacks R211 -/
  hash : HashSt
  /-- pages of a delta's list -/
  list : List Nat
  /-- queue and number of its descriptor, for the completion; queue 64 in the partner of a mirrored commit -/
  queue : Nat
  seq : Nat
  deriving DecidableEq, Repr

/-- A retention refresh in progress (R197). -/
structure Refresh where
  page : Nat
  old : Nat
  new : Nat
  copied : Bool
  deriving DecidableEq, Repr

/-- A weight stack and its registers (06_stacks). -/
structure Ws where
  /-- identity block; 64 bytes; 06_stacks R191; fixed at wafer test (Config.wsIdentity, log 1) -/
  ident : Row
  /-- STK_WS_SERIAL; 32 bits; 06_stacks R217; reset 0 -/
  serial : Word
  /-- IMAGE; 3 bits; 06_stacks R202; reset 0 -/
  image : BitVec 3
  /-- page table and manifest as blocks 3 and 4 hold them, copy A and copy B; 06_stacks R178, R201; reset none written -/
  copyA : ImgCopy
  copyB : ImgCopy
  /-- active manifest, which bring-up reads from the active copy; 06_stacks R201; reset none -/
  manifest : Option Manifest
  /-- page table in force: the active copy's, or that of a full commit not yet sealed; 06_stacks R178; reset empty -/
  table : Sparse Nat
  /-- OP; 2 bits; 06_stacks R217; reset 0 -/
  op : BitVec 2
  /-- REFRESH in progress; 06_stacks R197; reset none -/
  refresh : Option Refresh
  /-- SWITCH_WAIT; 1 bit; 06_stacks R208; reset 0 -/
  switchWait : Bool
  /-- blocks of Table 6-1; 2,432; 06_stacks R178 -/
  blocks : Sparse Block
  /-- contents of the data blocks, byte 2^26 × block + offset; 06_stacks R178; reset DESIGN CHOICE 0 (log 2) -/
  mem : Memory
  /-- STK_WS_JOURNAL.VALID; 1 bit; 06_stacks R217; reset 0 -/
  jValid : Bool
  /-- records of the commit journal in block 5; 06_stacks R211; reset none -/
  journal : List JournalRec
  /-- STK_WS_JOURNAL.ERROR; 8 bits; 06_stacks R205; reset 0 -/
  jError : BitVec 8
  /-- STK_WS_ERR: UNCORR, RESCUE, UNMAPPED; 16, 8, 8 bits; 06_stacks R217; reset 0 -/
  uncorr : BitVec 16
  rescue : BitVec 8
  unmapped : BitVec 8
  /-- STK_WS_BLK_SEL; 12 bits; 06_stacks R217; reset 0 -/
  blkSel : BitVec 12
  commit : Option Commit
  /-- blocks unmapped but still read under an old mapping; 06_stacks R197, R208; reset none -/
  releasing : List Nat
  /-- weighted hours, in 2^-64, that the stack has stood; 06_stacks R195; reset 0 -/
  ageSum : Nat
  /-- wear table: the block written last and the drone time of its record; 06_stacks R196; reset DESIGN CHOICE block 2, time 0 (log 5) -/
  wearBlock : Nat
  wearTime : BitVec 64
  /-- ageSum as the wear table holds it; 06_stacks R196; reset 0 -/
  wearAge : Nat
  /-- tick of the last wear-table write; 06_stacks R196 -/
  wearTick : Nat
  /-- blocks that returned uncorrectable granules, with the tick; 06_stacks R421 of 14_faults; reset none -/
  media : List (Nat × Nat)
  /-- STK words loaded at bring-up step 7; 06_stacks R217 -/
  loaded : Bool
  deriving DecidableEq, Repr

/-- A work stack and its registers (06_stacks). -/
structure Ks where
  /-- identity block; 64 bytes; 06_stacks R191; fixed at wafer test (Config.ksIdentity, log 1) -/
  ident : Row
  /-- STK_KS_SERIAL; 32 bits; 06_stacks R217; reset 0 -/
  serial : Word
  /-- TRAINED, FAILED, HOT_REFRESH; 1 bit each; 06_stacks R217; reset 0 -/
  trained : Bool
  failed : Bool
  hot : Bool
  /-- STK_KS_CORR; 32 bits; 06_stacks R186; reset 0 -/
  corr : Word
  /-- STK_KS_UNCORR: UNCORR, RMW_FAIL; 16 bits each; 06_stacks R186, R187; reset 0 -/
  uncorr : BitVec 16
  rmwFail : BitVec 16
  /-- contents, 96 GB; 06_stacks R181, R190; reset undefined (free) -/
  mem : RowMem
  /-- ticks of uncorrectable lines within the hour; 14_faults R421; reset none -/
  media : List Nat
  /-- ticks of the last refresh and scrub passes; 06_stacks R188, R189 -/
  refreshTick : Nat
  scrubTick : Nat
  deriving DecidableEq, Repr

/-- Where a packet is: at a router (0-47 zone routers, 48-51 hubs) having come by an input port, or accepted by its handler. -/
inductive Loc
  | router (r : Nat) (inPort : Nat)
  | unit (lu : Nat)
  | func (q : Nat) (f : Nat)
  deriving DecidableEq, Repr

/-- A packet in the region (R222, R223). -/
structure Packet where
  id : Nat
  /-- header flit of Table 7-3 -/
  hdr : Row
  /-- data flits with TLAST -/
  data : List (Row × Bool)
  /-- where the packet is -/
  loc : Loc
  /-- virtual channel of the input buffer it stands in; 07_fabric R228, R249 -/
  inVc : Nat
  /-- moved to VC 2 and bound to the ORDERED route (R230) -/
  escape : Bool
  /-- tick at which it last found a credit on a permitted output, or arrived (R230) -/
  since : Nat
  /-- it has come over an edge link (R239, R271) -/
  fromLink : Bool
  /-- quarter of the unit that injected it, if one did (R417; the MODEL's own field) -/
  by_ : Option Nat := none
  /-- an arrival or proxy that a router or handler has issued, as a PITON packet to SELF (R227, R258) -/
  issued : Bool := false
  /-- a PITON packet that a FUNC 7 entry has put on the fixed path to its hub (R227) -/
  fixed : Bool := false
  /-- of a proxy: the quarters in reset whose fences it tells of (R422; the MODEL's own) -/
  fenceBy : BitVec 4 := 0
  deriving DecidableEq, Repr

/-- An injector's token bucket (R245). -/
structure Bucket where
  /-- r as a fraction of r_max; 07_fabric R245; reset 1 -/
  rate : Rat
  /-- flits in the bucket; depth 16; 07_fabric R245; reset 16 -/
  fill : Rat
  /-- ticks of the last halving, of the start of the recovery, of the last fill -/
  halved : Option Nat
  rising : Option (Nat × Rat)
  filled : Nat
  /-- first-hop queues used: (router, port, VC, tick) -/
  used : List (Nat × Nat × Nat × Nat)
  deriving DecidableEq, Repr

/-- A unit's packet that its zone router is taking in (R224, R225): data tokens still to come, and whether it is being discarded. -/
structure Asm where
  hdr : Row
  data : List (Row × Bool)
  left : Nat
  drop : Bool
  deriving DecidableEq, Repr

/-- A table operation in progress (R442). -/
structure TblOp where
  router : Nat
  table : Nat
  version : Nat
  key : Nat
  data : BitVec 64
  bits : BitVec 3
  deriving DecidableEq, Repr

/-- The packet fabric (07_fabric). -/
structure Fab where
  /-- FAB_CTL.INJ_CAIRN; 1 bit; R239; reset 0 -/
  injCairn : Bool
  /-- FAB_CTL.SHADOW; 2 bits; R238; reset 0b11 -/
  shadow : BitVec 2
  /-- FAB_DRAIN.SEEN; 1 bit per version; R240; reset 0 -/
  seen : BitVec 2
  /-- FAB_TBL_SEL: TABLE, VERSION, ROUTER; 2, 1, 6 bits; R255; reset 0 -/
  selTable : BitVec 2
  selVersion : BitVec 1
  selRouter : BitVec 6
  /-- FAB_TBL_KEY; 24 bits; R255; reset 0 -/
  key : BitVec 24
  /-- FAB_TBL_DATA; 64 bits; R255; reset 0 -/
  data : BitVec 64
  /-- FAB_TBL_CMD.STATUS; 2 bits; R442; reset 0 -/
  status : BitVec 2
  /-- operation in progress (BUSY); R442; reset none -/
  op : Option TblOp
  /-- FAB_UNROUTE_COUNT; 32 bits; R235; reset 0 -/
  unroute : Word
  /-- FAB_UNROUTE_FIRST; 32 bits; R235; reset 0 -/
  first : Word
  /-- the capture is armed; R235; reset yes -/
  armed : Bool
  /-- FAB_THR_COUNT; 32 bits per router; R245; reset 0 -/
  thr : Sparse Word
  /-- endpoint entries; 64 bits at ((2 router + version) 2^24 + identifier); R233; reset DESIGN CHOICE invalid (log 6) -/
  ep : Sparse (BitVec 64)
  /-- rope entries; 64 bits at (2 router + version) 4096 + rope; R242; reset invalid (log 6) -/
  rope : Sparse (BitVec 64)
  /-- rope list; 8 bits at (2 router + version) 4096 + index; R242; reset 0 (log 6) -/
  list : Sparse (BitVec 8)
  /-- packets present, in injection order; R222, R240; reset none -/
  pkts : List Packet
  /-- next packet number (the model's own) -/
  nextId : Nat
  /-- injection queues of units, 16 tokens, each with whether it is a header, stamped as it was accepted; R224, R239; reset empty -/
  injq : Sparse (List (Bool × Token))
  /-- data tokens that a unit's last header has still to be followed by in its queue; R224; reset 0 -/
  injLeft : Sparse Nat
  /-- packets of units being taken in, by logical unit; R224; reset none -/
  asm : Sparse (Option Asm)
  /-- packets waiting at the local injectors, by 8 hub + FUNC of Table 7-7; R224, R245; reset none -/
  localq : Sparse (List (Row × List (Row × Bool)))
  /-- injectors' buckets, units by logical number, local injectors at 9216 + 8 hub + FUNC; R245; reset full -/
  buckets : Sparse Bucket
  deriving DecidableEq, Repr

/-- A packet partly received on a link (R253). -/
structure Partial where
  hdr : Row
  data : List (Row × Bool)
  deriving DecidableEq, Repr

/-- A DATA frame in a replay buffer (R250): SEQ, data bytes, the four MARKs, the packet whose last flit it carries, whether it has left yet. -/
structure TxFrame where
  seq : BitVec 12
  data : BitVec 2048
  marks : BitVec 24
  tail : Option Packet
  sent : Bool
  deriving DecidableEq, Repr

/-- An edge link (R246 to R254). -/
structure Link where
  /-- LNK_CTL.ENABLE; 1 bit; 07_fabric R255; reset 1 -/
  enable : Bool
  /-- LNK_CTL.TRAIN, QUICK; 1 bit each; 07_fabric R255; reset 0 -/
  train : Bool
  quick : Bool
  /-- LNK_STATUS.STATE; 3 bits; 07_fabric R255; reset DOWN -/
  state : LinkState
  /-- SPARES_TX, SPARES_RX; 5 bits each; 07_fabric R255; reset 0 -/
  sparesTx : BitVec 5
  sparesRx : BitVec 5
  /-- PARTNER_SITE; 8 bits; 07_fabric R255; reset 0xFF -/
  partner : BitVec 8
  /-- TRAINS; 8 bits; 07_fabric R255; reset 0 -/
  trains : BitVec 8
  /-- CRC_ERR, RETRAINS, LOST; 16, 8, 8 bits; 07_fabric R255; reset 0 -/
  crcErr : BitVec 16
  retrains : BitVec 8
  lost : BitVec 8
  /-- SEQ of the next DATA frame; 12 bits; 07_fabric R250; reset 0 -/
  txSeq : BitVec 12
  /-- SEQ expected from the partner; 12 bits; 07_fabric R250; reset 0 -/
  rxSeq : BitVec 12
  /-- replay buffer, 512 frames, oldest first; 07_fabric R250; reset empty -/
  replay : List TxFrame
  /-- consecutive resends of the oldest unacknowledged SEQ; 07_fabric R251; reset 0 -/
  resends : Nat
  /-- tick at which ACK last advanced; 07_fabric R250 -/
  ackTick : Nat
  /-- NAK, ACK to send; 07_fabric R250; reset no -/
  nak : Bool
  ackOwed : Bool
  /-- frames are discarded until the expected SEQ; 07_fabric R250; reset no -/
  gap : Bool
  /-- failed quick retrains in a row; 07_fabric R251; reset 0 -/
  quickFails : Nat
  /-- transmit credits spent, per VC; 1,024 flits; 07_fabric R249; reset 0 -/
  spent : Sparse Nat
  /-- receive credits to return, per VC; 07_fabric R249; reset 0 -/
  owed : Sparse Nat
  /-- flits held in the receiving hub's buffer, per VC, at most 1,024; 07_fabric R249; reset 0 -/
  held : Sparse Nat
  /-- partly received packets, per VC; 07_fabric R253; reset none -/
  rx : Sparse (Option Partial)
  /-- frames that have left in the present drone tick, oldest first; 07_fabric R248 -/
  out : List LinkFrame
  /-- HOST_WR and HOST_RD packets that have left and that the wafer host bridge has not handled, oldest first (Table 7-4) -/
  wire : List Packet
  /-- tick at which the present training began; 07_fabric R252 -/
  trainTick : Nat
  /-- the partner's forwarded clocks are detected; 07_fabric R252; reset no -/
  detected : Bool
  /-- the link has not been UP since it was last DOWN; 07_fabric R253; reset yes -/
  downed : Bool
  deriving DecidableEq, Repr

/-- A registered WAIT (R264, R267, R271). -/
structure Waiter where
  mode : BitVec 2
  dest : BitVec 24
  src : BitVec 24
  self : BitVec 24
  cls : Bool
  tag : Word
  addr : BitVec 64
  fromLink : Bool
  deriving DecidableEq, Repr

/-- A piton (Table 8-1). -/
structure Piton where
  /-- COUNT; 32 bits; 08_pitons R257; reset 0 -/
  count : Word
  /-- TARGET; 32 bits; 08_pitons R257; reset 0 -/
  target : Word
  /-- TGT_VALID, DONE, FENCED_SEEN, OVERRUN; 1 bit each; 08_pitons R257; reset 0 -/
  tgtValid : Bool
  done : Bool
  fenced : Bool
  overrun : Bool
  /-- quarters in reset whose fences FENCED_SEEN tells of; 14_faults R422; reset none (the MODEL's own) -/
  fencedBy : BitVec 4
  /-- CAUSE; 2 bits; 08_pitons R257; reset 0 -/
  cause : BitVec 2
  /-- CHAINED, CHAIN_PITON, CHAIN_N; 1, 17, 15 bits; 08_pitons R257; reset 0 -/
  chained : Bool
  chainPiton : BitVec 17
  chainN : BitVec 15
  /-- the chain has fired since the last CLEAR; 08_pitons R265; reset no -/
  fired : Bool
  /-- REMOTE; 1 bit; 08_pitons R257; reset 0 -/
  remote : Bool
  /-- waiters; at most 4; 08_pitons R257; reset none -/
  waiters : List Waiter
  /-- by quarter, the tick of the last arrival or proxy that the quarter's streams have had counted since it was cleared; 14_faults R417; reset none (the model's own) -/
  counted : Sparse (Option Nat)
  deriving DecidableEq, Repr

/-- An operation that has reached a hub's piton engine (R258, R260), and the quarter whose unit made the packet it came with, if one did (R417; the MODEL's own field). -/
structure PitMsg where
  /-- hub input port, 0-23 (R260) -/
  port : Nat
  /-- fields of the PITON packet (R259) -/
  piton : BitVec 17
  pv : Bool
  len : Nat
  op : BitVec 4
  arg : BitVec 28
  /-- INLINE bytes 0-31 -/
  inl : BitVec 256
  /-- the arrival ended a packet with LAST, and its total; source, destination and class of the packet (R258, R259) -/
  last : Bool
  total : Word
  src : BitVec 24
  dest : BitVec 24
  cls : Bool
  fromLink : Bool
  by_ : Option Nat := none
  /-- of a proxy: the quarters in reset whose fences it tells of (R422; the MODEL's own) -/
  fenceBy : BitVec 4 := 0
  deriving DecidableEq, Repr

/-- A piton engine's registers (Table 8-4). -/
structure PitQ where
  /-- PIT_SEL; 15 bits; 08_pitons R272; reset 0 -/
  sel : BitVec 15
  /-- PIT_ERR: OVERRUNS, REFUSED_WAITS, BAD_OP; 16, 8, 8 bits; 08_pitons R272; reset 0 -/
  overruns : BitVec 16
  refused : BitVec 8
  badOp : BitVec 8
  /-- PIT_ERR_FIRST: CAUSE and PITON; 2, 17 bits; 08_pitons R269; reset 0 -/
  errCause : BitVec 2
  errPiton : BitVec 17
  /-- the overrun capture is armed; 08_pitons R269; reset yes -/
  armed : Bool
  /-- PIT_CTL.CLEAR_ALL; 1 bit; 08_pitons R272; reads 0 once done; reset 0 -/
  clearAll : Bool
  /-- WAIT_OUT, WAIT_IN; 64 bits; 08_pitons R271; reset 0 -/
  waitOut : BitVec 64
  waitIn : BitVec 64
  /-- operations waiting, in arrival order; 08_pitons R260; reset none -/
  inbox : List PitMsg
  deriving DecidableEq, Repr

/-- The drone loop, its counter and the moves (09_clocks, 10_stretch_and_time). -/
structure Clk where
  /-- CLK_DRONE_STATUS.STATE; 3 bits; 09_clocks R276; reset OFF -/
  drone : DroneState
  /-- LOCK_ADV; 1 bit; 09_clocks R280; reset 0 -/
  lockAdv : Bool
  /-- REF_PRESENT; 1 bit; 09_clocks R440; reset 0 -/
  refPresent : Bool
  /-- LOSSES; 16 bits; 09_clocks R283; reset 0 -/
  losses : BitVec 16
  /-- CLK_DRONE_CONFIRM.LOCKED; 1 bit; 09_clocks R281; reset 0 -/
  confirm : Bool
  /-- CLK_DRONE_SLEW_LOG: WALKS, LAST; 8, 24 bits; 09_clocks R285; reset 0 -/
  walks : BitVec 8
  lastWalk : BitVec 24
  /-- CLK_DRONE_HOLDOVER; 32 bits; 09_clocks R283; reset 0 -/
  holdover : Word
  /-- tick at which the loop was started, and first entered LOCKED; 09_clocks R277, R288 -/
  started : Option Nat
  firstLock : Option Nat
  /-- walk in progress: signed offset in ps still to close at its start, and the tick it began; 09_clocks R285 -/
  walk : Option (Int × Nat)
  /-- LOCK_A density in sixteenths; 5 bits; 09_clocks R277; reset 0 -/
  lockA : BitVec 5
  /-- CLK_EVENTS; 5 bits; 09_clocks R297; reset 0 -/
  events : BitVec 5
  /-- CLK_MOVE_STATUS: MOVING, POINT, TARGET, CODE; 1, 3, 3, 11 bits; 09_clocks R296; reset 0, 2, 2, 768 -/
  moving : Bool
  point : BitVec 3
  target : BitVec 3
  code : BitVec 11
  /-- an up-move waits for its rails; 09_clocks R296; reset no -/
  railWait : Bool
  /-- the voltage of a down-move is still to be lowered; 09_clocks R296; reset no -/
  lowerAfter : Bool
  /-- tick of the last step; 09_clocks R294; reset none -/
  lastStep : Option Nat
  /-- drone counter; 64 bits; 10_stretch R316; reset 0 -/
  count : BitVec 64
  /-- CLK_DRONE_LOAD; 64 bits; 10_stretch R322; reset 0 -/
  load : BitVec 64
  /-- CLK_DRONE_SYNC_CTL: FORCE, ARM; 1 bit each; 10_stretch R317; reset 0 -/
  force : Bool
  arm : Bool
  /-- REQUEST, LOADED; 1 bit each; 10_stretch R317; reset 0 -/
  request : Bool
  loaded : Bool
  /-- CLK_DRONE_OFFSET: E of the last load; 10_stretch R318; reset 0 -/
  offset : Int
  /-- slew still to apply; 10_stretch R318; reset 0 -/
  slewLeft : Int
  /-- ticks of the last beat and of the last stamp tick acted on; 09_clocks R288, 10_stretch R319; reset none -/
  lastBeat : Option Nat
  lastStamp : Option Nat
  deriving DecidableEq, Repr

/-- A chanter (09_clocks). -/
structure Chanter where
  /-- STATE; 3 bits; R291; reset RESET -/
  state : ChanterState
  /-- CLK_CHANTER_CTL.CODE; 11 bits; R297; reset 768 -/
  ctlCode : BitVec 11
  /-- running CODE; 11 bits; R297; reset 0 -/
  code : BitVec 11
  /-- STEP_TOO_LARGE; 1 bit; R292; reset 0 -/
  tooLarge : Bool
  /-- pending steps: new code, tick of issue, beats since it fell due, held at one of them by a chanter not LOCKED; R293, R294; reset none -/
  pend : List (BitVec 11 × Nat × Nat × Bool)
  /-- LOSSES; 8 bits; R295; reset 0 -/
  losses : BitVec 8
  /-- consecutive windows within C ± 1; R290; reset 0 -/
  good : Nat
  /-- |Δ| of the step that took effect in the present window; R290; reset 0 -/
  widen : Nat
  /-- ticks of START and of the loss of lock; R291, R295 -/
  startTick : Nat
  coastTick : Nat
  /-- the 200 µs of R295 have passed: halt, restart, realign, replay follow -/
  expired : Bool
  /-- STARTs that failed in this bring-up or reset; R391 -/
  fails : Nat
  /-- tick of the last window end acted on; R290; reset none -/
  windowTick : Option Nat
  /-- tick in which the chanter entered LOCKED again, having been COASTING; R294; reset none -/
  lockTick : Option Nat
  /-- it was COASTING when it was reset and started, and has not locked since; R294, R295; reset no -/
  relock : Bool
  deriving DecidableEq, Repr

/-- A zone's stretcher, schedule, deficit and local time (10_stretch_and_time). -/
structure ZoneClk where
  /-- detectors asserting L1, L2, L3; 16 bits each; R298; reset 0 -/
  d1 : BitVec 16
  d2 : BitVec 16
  d3 : BitVec 16
  /-- LEVEL of the present zone cycle; 2 bits; R299; reset 0 -/
  level : BitVec 2
  /-- what the present zone cycle is; R303; reset advance -/
  kind : CycleKind
  /-- CONS: the conservative set is active; 1 bit; R300; reset 0 -/
  cons : Bool
  /-- consecutive L3 zone cycles; R301; reset 0 -/
  l3run : Nat
  /-- DEF; 32 bits; R304; reset 0 -/
  deficit : Word
  /-- schedule counting runs; R308, R314; reset no -/
  running : Bool
  /-- schedule cycles; R303; reset 0 -/
  sched : Nat
  /-- zone cycles; R309; reset 0 -/
  cycles : Nat
  /-- L1, L2, L3, BREATHS, HOLDS; 32 bits each; R302, R306, R310; reset 0 -/
  l1 : Word
  l2 : Word
  l3 : Word
  breaths : Word
  holds : Word
  /-- HOLD_SIDE: sides asserting a hard hold, [3] north, [2] east, [1] south, [0] west; 4 bits; R306; reset 0 -/
  side : BitVec 4
  /-- sides whose reading buffer asserts its hold, as in HOLD_SIDE; R306; reset 0 -/
  sideIn : BitVec 4
  /-- the STRETCH fault of the present L3 run is reported; R301; reset no -/
  l3seen : Bool
  /-- phase of the chanter's output within a drone tick, in 1/512 of a chanter cycle; R320; reset 0 -/
  phase : Nat
  /-- schedule cycle of the last slip breath; R310; reset none -/
  lastSlip : Option Nat
  /-- position among 8 zone cycles of the governor's pattern; R312; reset 0 -/
  govPos : Nat
  /-- local time, 64 integer and 16 fractional bits; 80 bits; R320; reset 0 -/
  time : BitVec 80
  /-- TIME_VALID; 1 bit; R321; reset 0 -/
  timeValid : Bool
  /-- D_z; 8 bits; R319; reset 0 -/
  delay : BitVec 8
  /-- CORR; 16 bits; R320; reset 0 -/
  corr : BitVec 16
  /-- a stamp on its way: its value and the tick in which it arrives; R319; reset none -/
  stamp : Option (BitVec 64 × Nat)
  /-- governor breaths; R312; reset 0 -/
  govBreaths : Nat
  deriving DecidableEq, Repr

/-- The belay buffers of one ordered pair of adjacent zones (R305): one slot a schedule cycle, oldest first, each holding the tokens of every channel between them (channel number, token). -/
structure Belay where
  slots : List (List (Nat × Option Token))
  /-- parked (R308) -/
  parked : Bool
  /-- fenced by a reset (R24) -/
  fenced : Bool
  deriving DecidableEq, Repr

/-- An alignment in progress (R314, R315). -/
structure AlignRec where
  /-- 0 none, 1 requested, 2 begun at beat `a`, 3 checking from beat b -/
  phase : Nat
  /-- tick of a -/
  begun : Nat
  /-- failed attempts -/
  fails : Nat
  /-- crossings (writer × 4 + direction) whose check failed in this attempt -/
  bad : List Nat
  /-- started by STR_ALIGN_CTL: the quarter stays halted -/
  firmware : Bool
  deriving DecidableEq, Repr

/-- The STR block's shared part (10_stretch_and_time). -/
structure Str where
  /-- STR_CTL.CONS_FORCE; 1 bit; R323; reset 0 -/
  consForce : Bool
  /-- STR_ALIGN_CTL.ALIGN; 4 bits; R315; reset 0 -/
  alignCtl : BitVec 4
  /-- ALIGNED; 4 bits; R315; reset 0 -/
  aligned : BitVec 4
  /-- STR_EVENTS; 3 bits; R323; reset 0 -/
  events : BitVec 3
  /-- T_R; 32 bits; R311; reset 0 -/
  tR : Word
  /-- seen DEF of each zone; 32 bits each; R310; reset 0 -/
  seen : Sparse Word
  /-- T broadcast in each quarter; 32 bits each; R310; reset 0 -/
  tq : Sparse Word
  /-- STR_TIME_SEL; 6 bits; R323; reset 0 -/
  timeSel : BitVec 6
  /-- alignments by quarter, 4 for all zones; R314 -/
  al : Sparse AlignRec
  deriving DecidableEq, Repr

/-- A registered pitch hint (R340). -/
structure Hint where
  cls : BitVec 3
  quarter : Nat
  /-- tick at which the heavy phase begins; none until a SERVE request is admitted (R371) -/
  from_ : Option Nat
  /-- point that the descent for this hint goes to, until the region has reached it (R342) -/
  goal : Option (BitVec 3)
  /-- queue and number of the descriptor that registered it -/
  queue : Nat
  seq : Nat
  deriving DecidableEq, Repr

/-- A guard-band trim (Table 11-14). -/
structure Trim where
  /-- GUARD; 8 bits; 11_power R328; reset PST, 60 in a new part -/
  guard_ : BitVec 8
  /-- AGE_ADDED; 8 bits; 11_power R331; reset PST, 0 -/
  ageAdded : BitVec 8
  /-- RAISED, AGE_LIMIT; 1 bit each; 11_power R331; reset PST, 0 -/
  raised : Bool
  ageLimit : Bool
  /-- LIMIT_POINT; 3 bits; 11_power R331; reset PST, 7 -/
  limit : BitVec 3
  /-- a lowering waits for its acknowledgement; 11_power R332; reset no -/
  lowering : Bool
  /-- a raise, or an acknowledged lowering, waits for a move or a pause of stepping to end; 11_power R332; reset no -/
  raiseDue : Bool
  lowerDue : Bool
  /-- a write was rejected WORN: the trim stays; 11_power R332; reset no -/
  worn : Bool
  /-- lowest slack of the hour at each point, in 0.01 %, and the 10 µs samples the region held the point; 11_power R330; reset none -/
  slack : Sparse (Option Int)
  held : Sparse Nat
  /-- ticks of the last raise and of the start of the hour; 11_power R330, R331 -/
  raiseTick : Option Nat
  hourTick : Nat
  deriving DecidableEq, Repr

/-- The power stage and governor (11_power). -/
structure Pwr where
  /-- V_IN_40 has exceeded 36 V, the hold-up capacitor is within 1 V (R325), V_INT, V_IO, V_SRAM, V_STACK and each V_CORE are up; 1 bit each; R325, R326; reset shed -/
  vinHigh : Bool
  vinGood : Bool
  /-- tick at which V_IN_40 exceeded 36 V; 01_region R36; reset none -/
  vinTick : Option Nat
  vInt : Bool
  vIo : Bool
  vSram : Bool
  vStack : Bool
  coreGood : BitVec 4
  /-- soft-start in progress: tick of its start; R325; reset none -/
  softStart : Option Nat
  /-- V_CORE of each quarter, mV, and its target; R296, R328; reset 0 -/
  vcore : Sparse Nat
  vtarget : Sparse Nat
  /-- PWR_MODE.NORMAL; 1 bit; R345; reset 0 -/
  normal : Bool
  /-- PWR_CTL: MAX_POINT, HINTS; 3, 1 bits; R361; reset 7, 1 -/
  maxPoint : BitVec 3
  hints : Bool
  /-- PWR_ALLOT.WATTS; 16 bits; R333; reset 1,250 -/
  allot : BitVec 16
  /-- allotment in effect, taken at the last sample; R333; reset 1,250 -/
  allotNow : BitVec 16
  /-- CAP_FLOOR; 1 bit; R337; reset 0 -/
  capFloor : Bool
  /-- VIN_WARN; 1 bit; R348; reset 0 -/
  vinWarn : Bool
  /-- DUTY; 4 bits; R336; reset 8 -/
  duty : BitVec 4
  /-- QUIESCED; 4 bits; R359; reset 0 -/
  quiesced : BitVec 4
  /-- quarters due to quiesce at their next step boundary; R359; reset 0 -/
  quiesceDue : BitVec 4
  /-- since when every sensor of the quarter has read 95 °C or less; R359; reset none -/
  coolSince : Sparse (Option Nat)
  /-- p, U in W, and the last 200 values of p, newest first; R333, R334; reset 0 -/
  p : Rat
  u : Rat
  win : List Rat
  /-- VIN_MV, IIN_MA; 16 bits each; R361; reset 0 -/
  vinMv : BitVec 16
  iinMa : BitVec 16
  /-- PWR_VIN_WARN_COUNT; 32 bits; R348; reset 0 -/
  warnCount : Word
  /-- PWR_NEED; 16 bits; R343; reset 0 -/
  need : BitVec 16
  /-- WAIT sums of the last need sample; R343; reset 0 -/
  needOut : Nat
  needIn : Nat
  /-- PWR_CAL_ERR; 16 bits; R354; reset 0 -/
  calErr : BitVec 16
  /-- K; R354; reset 1 -/
  k : Rat
  /-- estimates of the present 1 ms, nJ; R354; reset 0 -/
  estMs : Rat
  /-- PWR_DESCENTS: SUMMIT, ALLOT, THERMAL, VIN; 8 bits each; R361; reset 0 -/
  dSummit : BitVec 8
  dAllot : BitVec 8
  dThermal : BitVec 8
  dVin : BitVec 8
  /-- PWR_THROTTLE_US; 32 bits; R361; reset 0 -/
  throttle : Word
  /-- 10 µs samples spent at each point; PWR_POINT_MS counts hundreds; R361; reset 0 -/
  pointTens : Sparse Nat
  /-- PWR_PITCH[k]; 16 bits each; R361; reset 0, 80, 120, 160, 200, 240, 300, 360 -/
  pitch : Sparse (BitVec 16)
  /-- PWR_THERM_SEL; 6 bits; R361; reset 0 -/
  thermSel : BitVec 6
  /-- registered hints, at most 16; R340; reset none -/
  hintq : List Hint
  /-- ticks of the last summit halving, duty change, descent, end of a move; R339; reset none -/
  halveTick : Option Nat
  dutyTick : Option Nat
  descTick : Option Nat
  moveTick : Option Nat
  /-- last tick at which H was above 97 °C; R339; reset none -/
  warmTick : Option Nat
  /-- RECOVERED, and the point and duty saved at the start of a warning; R352; reset no -/
  recovered : Bool
  savedPoint : BitVec 3
  savedDuty : BitVec 4
  /-- energy counters in µJ: quarters 0-3, shared 4, queue n at 8 + n; R356; reset 0 -/
  energy : Sparse Rat
  /-- sensor readings in 1/16 °C; 16 bits each; R357; reset DESIGN CHOICE 0 (log 7) -/
  temp : Sparse (BitVec 16)
  /-- each quarter's share of p at the last sample; R341; reset 0 -/
  share : Sparse Rat
  /-- ticks of the last governor and need samples; R339, R343; reset none -/
  sampleTick : Option Nat
  needTick : Option Nat
  /-- highest reading of each quarter in the present hour; 06_stacks R195; reset 0 -/
  hourMax : Sparse (BitVec 16)
  /-- tick of the last AGE update; R195; reset 0 -/
  ageTick : Nat
  deriving DecidableEq, Repr

/-- A descriptor fetched and not yet completed (R364, R369). -/
structure Desc where
  seq : Nat
  row : Row
  deriving DecidableEq, Repr

/-- A fetch in progress (R364): first slot, count, and its descriptors once the RESP has arrived. -/
structure Fetch where
  slot : Nat
  count : Nat
  data : Option (List Row)
  deriving DecidableEq, Repr

/-- A descriptor that is executing (R366, R370). -/
structure Exec where
  desc : Desc
  /-- drone time it started -/
  tStart : BitVec 64
  /-- tick it started -/
  tick : Nat
  /-- phase within its type's actions -/
  phase : Nat
  /-- QUEUE_FENCE: descriptors awaited (queue, number) -/
  awaits : List (Nat × Nat)
  /-- µJ credited (R374) -/
  energy : Rat
  /-- a replay has run it again (R417) -/
  replayed : Bool
  /-- larger than that of every descriptor that held a queue when this one started: the MODEL's own field, by which answers on one piton go to the descriptors in the order they asked (R370); no reset -/
  order : Nat
  deriving DecidableEq, Repr

/-- A completion entry without slot and phase (Table 12-4). -/
structure Compl where
  tag : Word
  status : BitVec 8
  isPartial : Bool
  replayed : Bool
  tStart : BitVec 64
  tEnd : BitVec 64
  energy : Word
  result : Word
  irq : Bool
  /-- request a partial entry belongs to (R367) -/
  seq : Nat
  deriving DecidableEq, Repr

/-- A command queue (12_commands_and_service). -/
structure CmdQ where
  /-- SQ and CQ base; 42 bits each, 64-byte units; R362; reset 0 -/
  sqBase : BitVec 42
  cqBase : BitVec 42
  /-- SQ_LOG2, CQ_LOG2; 5 bits each; R388; reset 6 -/
  sqLog2 : BitVec 5
  cqLog2 : BitVec 5
  /-- IRQ_COUNT, IRQ_DELAY; 8 bits each; R368; reset 1, 0 -/
  irqCount : BitVec 8
  irqDelay : BitVec 8
  /-- CMD_Q_CTL: RESET, ENABLE; 1 bit each; R383; reset 0 -/
  resetting : Bool
  enable : Bool
  /-- in ERROR, and CMD_Q_STATUS.ERROR; 1, 6 bits; R365; reset 0 -/
  inError : Bool
  error : BitVec 6
  /-- SQ_HEAD; 16 bits; R364; reset 0 -/
  sqHead : BitVec 16
  /-- TAIL, PHASE of the CQ; 16, 1 bits; R367; reset 0, 1 -/
  cqTail : BitVec 16
  phase : Bool
  /-- DB_SQ_TAIL, DB_CQ_HEAD; 16 bits each; R363; reset 0 -/
  dbTail : BitVec 16
  dbHead : BitVec 16
  /-- CMD_MSI_ADDR, CMD_MSI_DATA; 62, 32 bits; R368; reset 0 -/
  msiAddr : BitVec 62
  msiData : Word
  /-- fetches in progress, at most 2; R364; reset none -/
  fetches : List Fetch
  /-- next slot to fetch; R364; reset 0 -/
  fetchHead : BitVec 16
  /-- descriptors fetched and not started, at most 128; R364; reset none -/
  ready : List Desc
  /-- the descriptor that holds the queue; R366; reset none -/
  run : Option Exec
  /-- STACK_COMMIT descriptors in progress, which do not hold the queue; R366; reset none -/
  commits : List Exec
  /-- numbers of fetched descriptors not completed; R370; reset none -/
  open_ : List Nat
  /-- next descriptor number (the model's own) -/
  nextSeq : Nat
  /-- completions held while the CQ is full; R367; reset none -/
  held : List Compl
  /-- pending interrupts and the tick of the oldest; R368; reset none -/
  irqPend : Nat
  irqTick : Nat
  deriving DecidableEq, Repr

/-- A SERVE request (R380 to R386). -/
structure Req where
  queue : Nat
  seq : Nat
  tag : Word
  flags : BitVec 8
  promptLen : Nat
  prompt : BitVec 64
  out : BitVec 64
  params : BitVec 1024
  deadline : BitVec 64
  seed : BitVec 64
  maxNew : Nat
  streamEvery : Nat
  pitch : BitVec 3
  lead : BitVec 8
  /-- group it was admitted to last, none until it is first admitted -/
  group : Option Nat
  /-- drone time of its first admission; 12_commands R367 -/
  tStart : BitVec 64
  /-- prompt positions fed -/
  fed : Nat
  /-- tokens generated, oldest first -/
  gen : List Word
  /-- tokens appended to the prompt by REQUEUE (R382) -/
  extra : Nat
  /-- seats and positions of the step in progress -/
  feeding : Nat
  /-- page sets held, as (quarter, first page) -/
  sets : List (Nat × Nat)
  /-- energy credited in µJ, and whether a step of it was replayed; R374, R417 -/
  energy : Rat
  replayed : Bool
  /-- gives up its seat at the next step boundary: its queue was reset (R383) -/
  dropped : Bool
  deriving DecidableEq, Repr

/-- A service (R376 to R381). -/
structure Svc where
  state : SvcState
  table : BitVec 1536
  qmask : BitVec 4
  /-- the step in progress, of which the registers and events show the low 32 bits, whether one runs, the tick it started, and the tick from which STEP_LIMIT runs, its replay's if it has one (R381) -/
  stepNo : Nat
  stepping : Bool
  stepStart : Nat
  stepTick : Nat
  /-- STOP or DRAIN asked for -/
  stopping : Bool
  /-- pending requests in fetch order, and admitted requests -/
  pending : List Req
  seated : List Req
  /-- page sets free in each quarter: first pages -/
  free : Sparse (List Nat)
  /-- layer plans still loading at START -/
  plansLeft : List Nat
  /-- the halt of R381: its replay is the last -/
  timedOut : Bool
  deriving DecidableEq, Repr

/-- SEQ registers of a quarter (Table 12-14). -/
structure SeqQ where
  /-- SEQ_TABLE_LO.ADDR_LO, SEQ_TABLE_HI.SRC and ADDR_HI; 26, 1, 16 bits; 12_commands R388; reset 0 -/
  tableLo : BitVec 26
  src : Bool
  tableHi : BitVec 16
  /-- SEQ_CTL: START, STOP, DRAIN; 1 bit each; 12_commands R388; reset 0 -/
  start : Bool
  stop : Bool
  drain : Bool
  /-- MEMBER of the service of another lead; LEAD; 2 bits; 12_commands R376; reset none -/
  lead : Option Nat
  /-- SEQ_KV_FREE; 32 bits; 12_commands R388; reset 0 -/
  kvFree : Word
  /-- SEQ_STEPS; 32 bits; 12_commands R388; reset 0 -/
  steps : Word
  /-- SEQ_TIMEOUTS; 32 bits; 12_commands R381; reset 0 -/
  timeouts : Word
  deriving DecidableEq, Repr

/-- An event of the ring (Table 12-6). -/
structure Event where
  code : BitVec 16
  quarter : Option (BitVec 2)
  arg : Word
  time : BitVec 64
  data : BitVec 128
  deriving DecidableEq, Repr

/-- The region event ring (R375). -/
structure Evt where
  /-- REGION_EVT_BASE; 42 bits, 64-byte units; 12_commands R388; reset 0 -/
  base : BitVec 42
  /-- ENABLE, IRQ_EN, LOG2; 1, 16, 5 bits; 12_commands R388; reset 0, 0, 6 -/
  enable : Bool
  irqEn : BitVec 16
  log2 : BitVec 5
  /-- HEAD, TAIL, PHASE; 16, 16, 1 bits; 12_commands R388; reset 0, 0, 1 -/
  head : BitVec 16
  tail : BitVec 16
  phase : Bool
  /-- REGION_EVT_MSI_ADDR, MSI_DATA; 62, 32 bits; 12_commands R388; reset 0 -/
  msiAddr : BitVec 62
  msiData : Word
  /-- REGION_EVT_LOST; 32 bits; 12_commands R375; reset 0 -/
  lost : Word
  /-- events dropped since the last EVT_OVERFLOW; 12_commands R375; reset 0 -/
  overflow : Word
  /-- the last 512 events, newest first; 14_faults R428; reset none -/
  history : List Event
  deriving DecidableEq, Repr

/-- A fault record of Table 14-1, before packing. -/
structure FaultRec where
  kind : BitVec 2
  zone : BitVec 6
  unit : BitVec 8
  cause : BitVec 8
  action : BitVec 8
  time : BitVec 64
  x : BitVec 8
  y : BitVec 8
  gen : BitVec 2
  strikes : BitVec 8
  step : BitVec 32
  detail : BitVec 64
  seq : BitVec 32
  deriving DecidableEq, Repr

/-- A fault waiting for the step boundary (R412): zone, physical unit if a unit fault, action, cause. -/
structure PendFault where
  zone : Nat
  unit : Option Nat
  action : Action
  cause : BitVec 8
  /-- the code is of a zone fault -/
  isZone : Bool
  deriving DecidableEq, Repr

/-- A unit fault detected and not yet reported (R113, R146): physical unit, zone schedule cycle, causes met in that cycle, detail, zone local time and generation then. -/
structure Detected where
  unit : Nat
  cyc : Nat
  causes : BitVec 8
  detail : BitVec 64
  time : BitVec 64
  gen : BitVec 2
  deriving DecidableEq, Repr

/-- What a quarter does (R308, R401, R410). -/
structure Quarter where
  /-- in reset (REGION_STATUS.QRESET); 1 bit; 13_bringup R402; reset yes: the region is held in reset -/
  inReset : Bool
  /-- stage of a quarter reset: 0 none, 1 waits for the end of a move, 2 chanters start, 3 aligning -/
  stage : Nat
  /-- halted by a fault, which alignment and replay or only a reset end; 14_faults R410 -/
  halted : Bool
  /-- only a quarter reset ends the halt (STOP, RESET, DEGRADE); 14_faults R410 -/
  lockHalt : Bool
  /-- faults of the step; 14_faults R412; reset none -/
  faults : List PendFault
  /-- replays of the present step, for whatever reason; 14_faults R412; reset 0 -/
  replays : Nat
  /-- a replay waits for the alignment; reason of Table 14-5; 14_faults R417; reset none -/
  replay : Option (BitVec 8)
  /-- DEGRADED, UNBACKED; 1 bit each; 14_faults R418; reset 0 -/
  degraded : Bool
  unbacked : Bool
  /-- zones under spare steering, with the tick of its start; 14_faults R415; reset none -/
  steering : List (Nat × Nat)
  /-- zones whose CHANTER fault this reset follows; 14_faults R420; reset none -/
  chFault : List Nat
  /-- MUs whose replay windows hold the inputs of the replay that started last; 01_region R43, 04_memory_unit R142; reset none -/
  replayFrom : List Nat
  /-- a crossing that the quarter's program binds has been fenced: the zone of the unit, until the halt at the next step boundary; 01_region R24; reset none -/
  crossDue : Option Nat
  /-- STACK_DATA is among the faults of the step that its replays follow; 14_faults R410; reset no -/
  dataLost : Bool
  /-- FLT_AVAIL; 32 bits; 14_faults R430; reset 0 -/
  avail : Word
  deriving DecidableEq, Repr

/-- Faults and records (14_faults_and_persistence). -/
structure Flt where
  /-- FLT_SUMMARY; 10 bits; R423; reset 0 -/
  summary : BitVec 10
  /-- FLT_ALERT_MASK; 10 bits; R423; reset 0 -/
  mask : BitVec 10
  /-- FLT_CTL.STRIKES; 2 bits; R411; reset 2 -/
  strikes : BitVec 2
  /-- FLT_FENCE; 32 bits per zone, held as the difference (xor) from 0x07C0_0000; R413; reset PST -/
  fence : Sparse Word
  /-- FLT_FENCE_STK; 12 bits; R421; reset PST -/
  fenceStk : BitVec 12
  /-- FLT_REC_SEL: INDEX, WORD; 7, 3 bits; R430; reset 0 -/
  recIndex : BitVec 7
  recWord : BitVec 3
  /-- record ring, newest first, at most 128; R408; reset none -/
  recs : List FaultRec
  /-- records since cold reset; 32 bits; R408; reset 0 -/
  seq : BitVec 32
  /-- strikes of physical units; R411; reset 0 -/
  struck : Sparse Nat
  /-- unit faults detected and not yet reported; 03_compute_unit R113; reset none -/
  detected : List Detected
  /-- FLT_FIELD_SEL; 14 bits; R430; reset 0 -/
  fieldSel : BitVec 14
  /-- field record, 16,384 words, while HELD; R428; reset none -/
  field : Option (List Word)
  deriving DecidableEq, Repr

/-- The persistent store (14_faults_and_persistence). -/
structure Pst where
  /-- 4,096 words of 32 bits; R424; reset as R441 -/
  words : Sparse Word
  /-- accepted writes of each word; R425; reset 0 -/
  writes : Sparse Nat
  /-- writes persisting: word, value; R11; reset none -/
  busy : List (Nat × Word)
  /-- writes held: word, value; R11; reset none -/
  held : List (Nat × Word)
  /-- WORN, BAD, WORN_WORD; 1, 1, 12 bits; R425, R426; reset 0 -/
  worn : Bool
  bad : Bool
  wornWord : BitVec 12
  /-- PST_WEAR_SEL; 12 bits; R431; reset 0 -/
  wearSel : BitVec 12
  /-- uncorrectable words, which read 0; R426; reset none -/
  badWords : List Nat
  /-- lifetime counters as counted since their last write; R427; reset 0 -/
  life : Sparse Nat
  /-- kWh of the energy counters already counted into ENERGY_KWH; R427; reset 0 -/
  kwh : Nat
  /-- tick of the last hourly write; a sensor has read above 95 °C since; R427; reset 0, no -/
  lifeTick : Nat
  hot : Bool
  deriving DecidableEq, Repr

/-- A firmware slot (R395, R396). -/
structure FwSlot where
  image : Memory
  length : Nat
  verified : Bool
  version : BitVec 16
  updates : Nat
  deriving DecidableEq, Repr

/-- Firmware and keys (13_bringup_and_reset). -/
structure Fw where
  /-- PENDING, ACTIVE; 1 bit each; R396; reset 0 -/
  pending : Bool
  active : Bool
  /-- UPDATE, ERROR; 2, 4 bits; R407; reset 0 -/
  update : BitVec 2
  error : BitVec 4
  /-- VERSION; 16 bits; R407; reset 0 -/
  version : BitVec 16
  /-- REGION_FW_ADDR; 42 bits, 64-byte units; R407; reset 0 -/
  addr : BitVec 42
  /-- the update in progress: the image's host address at UPDATE, in 64-byte units, what has been read of it, and how many bytes; R396; reset none -/
  updAddr : BitVec 42
  img : Memory
  got : Nat
  slotA : FwSlot
  slotB : FwSlot
  /-- REGION_AUTH_KEY; 13 words; R407; reset 0 -/
  key : Sparse Word
  /-- REGION_AUTH_CTL: SLOT, REVOKE, INSTALL; 2, 1, 1 bits; R407; reset 0 -/
  slot : BitVec 2
  revoke : Bool
  install : Bool
  /-- the INSTALL in progress: its slot, its key, and how far it is: 0 to 12 the key word that persists, 13 all persisted, 14 the word of ENABLED persists; R397, R406; reset none -/
  instSlot : BitVec 2
  instKey : Sparse Word
  instPos : Nat
  /-- the REVOKE in progress: its slot, and whether its word persists; R397, R406; reset none -/
  revSlot : BitVec 2
  revoking : Bool
  /-- REGION_AUTH_STATUS: RESULT, REVOKED, ENABLED; 3, 4, 4 bits; R407; reset 0, PST, PST -/
  result : BitVec 3
  revoked : BitVec 4
  enabled : BitVec 4
  deriving DecidableEq, Repr

/-- Bring-up and reset (13_bringup_and_reset). -/
structure Boot where
  phase : BootPhase
  /-- REGION_STATUS.STEP, FAIL, QFAILED, BOOT_MS; 4, 6, 4, 12 bits; R407; reset 0 -/
  step : BitVec 4
  fail : BitVec 6
  qfailed : BitVec 4
  bootMs : BitVec 12
  /-- REGION_CTL.QRESET; 4 bits; R402; reset 0 -/
  qreset : BitVec 4
  /-- REGION_RESET_CAUSE: CAUSE, WARM_COUNT, QRESETS; 3, 8, 8 bits; R404; reset 0 -/
  cause : BitVec 3
  warmCount : BitVec 8
  qresets : BitVec 8
  /-- tick of RST_REGION_N rising or of the warm request; R390 -/
  startTick : Nat
  /-- tick at which the bring-up step in progress began; R389 -/
  stepTick : Nat
  /-- bring-up of a warm reset: steps 1, 2 and 6 are not repeated; R403 -/
  isWarm : Bool
  /-- the region holds itself in reset after a power-fail; R351 -/
  powerFail : Bool
  /-- what the environment shows at the bring-up steps; R389 -/
  env : BootEnv
  deriving DecidableEq, Repr

/-- Boundary pins (Table 1-3) and the management port. -/
structure Pins where
  /-- RST_REGION_N level; 01_region R33; reset low -/
  rstN : Bool
  /-- V_AUX is up; 11_power R324; reset yes -/
  vAux : Bool
  /-- ALERT_N is asserted; 01_region R34; reset released (log 8) -/
  alert : Bool
  /-- THERM_TRIP_N is valid (not high-impedance), asserted; 01_region R35, R36; reset high-impedance (log 8) -/
  thermValid : Bool
  thermTrip : Bool
  /-- frames the region has put on MBAO_DATA_OUT, oldest first; 13_bringup R398; reset none -/
  mbaoOut : List (BitVec 128)
  deriving DecidableEq, Repr

/-- TAP controller states (IEEE 1149.1, R400). -/
inductive TapState
  | testLogicReset | runTestIdle
  | selectDr | captureDr | shiftDr | exit1Dr | pauseDr | exit2Dr | updateDr
  | selectIr | captureIr | shiftIr | exit1Ir | pauseIr | exit2Ir | updateIr
  deriving DecidableEq, Repr

/-- Instruments (Table 13-3). -/
inductive Instrument | idcode | bypass | thermScan | railScan | linkEye | pstRead | fieldRecord
  deriving DecidableEq, Repr

/-- The test access port (R400). -/
structure Tap where
  /-- controller state; IEEE 1149.1; 13_bringup R400; reset Test-Logic-Reset -/
  fsm : TapState
  /-- selected instrument; 13_bringup R400; reset IDCODE -/
  inst : Instrument
  /-- eyes of the lanes of the link that LINK_EYE has selected; 13_bringup R400; reset 0 -/
  eyes : Nat
  /-- data register in the scan path, least significant bit first out; 13_bringup R400; reset 0 -/
  shift : Nat
  /-- instruction register in the scan path; IEEE 1149.1; 13_bringup R400; reset 0 -/
  ir : Nat
  deriving DecidableEq, Repr

/-- Identity fixed at wafer test (R38). -/
structure Ident where
  /-- REGION_SITE.SITE; 8 bits; 01_region R38; part (Config.site) -/
  site : BitVec 8
  /-- REGION_SITE.ENABLED; 1 bit; 01_region R38; part (Config.enabled) -/
  enabled : Bool
  /-- REGION_SERIAL; 64 bits; 01_region R38; part (Config.serial) -/
  serial : BitVec 64
  deriving DecidableEq, Repr

/-- The region: all that the spec gives it, and its clock. -/
structure Body where
  /-- drone clock edges so far (the model's own clock); 00_scope R13; reset 0 -/
  tick : Nat
  ident : Ident
  pins : Pins
  boot : Boot
  fw : Fw
  tap : Tap
  pst : Pst
  flt : Flt
  /-- the four quarters -/
  quarters : Sparse Quarter
  clk : Clk
  /-- the 48 chanters -/
  chanters : Sparse Chanter
  /-- the 48 zones' clocks -/
  zones : Sparse ZoneClk
  str : Str
  /-- belay buffers by 4 × writing zone + direction (0 north, 1 east, 2 south, 3 west) -/
  belays : Sparse Belay
  pwr : Pwr
  /-- guard-band trims of the quarters -/
  trims : Sparse Trim
  /-- _HI latches by 2 × offset of _LO + port (0 ring, 1 fabric); 15_register_map R436; reset 0 -/
  latch : Sparse Word
  evt : Evt
  /-- the 64 command queues -/
  cmdq : Sparse CmdQ
  seqs : Sparse SeqQ
  /-- services by lead quarter -/
  svc : Sparse Svc
  fab : Fab
  links : Sparse Link
  /-- pitons by identifier; 131,072; 08_pitons R256; reset clear -/
  pitons : Sparse Piton
  pitq : Sparse PitQ
  ws : Sparse Ws
  ks : Sparse Ks
  /-- host memory behind the wafer host bridge (outside the region); reset DESIGN CHOICE 0 (log 2) -/
  host : Memory
  cfgq : Sparse CfgQ
  /-- input ports by 16 × logical unit + port -/
  chans : Sparse Chan
  /-- physical units by 204 × zone + 12 × column + row -/
  units : Sparse UnitSt
  /-- configurations as their plan entries delivered them, by logical unit; 14_faults R415 -/
  cfgOf : Sparse UnitCfg
  /-- plan entries that gave the units their current generations, by logical unit: host memory or KS[q], and byte address; 14_faults R415; reset none -/
  entryOf : Sparse (Option (Bool × Nat))
  /-- plan entries taken up for generations to come, oldest first, by logical unit; 14_faults R415; reset none -/
  entryDue : Sparse (List (Bool × Nat))
  /-- ticks since which work whose requests the state does not hold one by one has stood at a stack, numbered as in Table 14-1; 14_faults R421; reset none (the MODEL's own) -/
  askSince : Sparse (Option Nat)
  zpages : Sparse ZonePage
  deriving DecidableEq, Repr

/-- A fabric write of a register with bits W1C or W1S in this tick: the register's offset, and the region before and after the write, so that a ring write of the register that comes later in the tick can go first (R435; the MODEL's own). -/
structure Undo where
  off : Nat
  before : Body
  after : Body
  deriving DecidableEq, Repr
/-- The state of the model: the region, the commands that wait, and what has happened in the present drone tick, which R10 and R435 look back on. -/
structure State extends Body where
  /-- commands waiting, first in, first out (the model's own); reset empty -/
  pending : List Instr
  /-- free values taken so far, and epochs of undefined rows (the model's own); reset DESIGN CHOICE 4 (log 9) -/
  free : Nat
  /-- the region as the present drone tick found it: what RO and RC fields read in this tick; 00_scope R10; reset as the region -/
  found : Body
  /-- bits that hardware has set in this tick, by register offset, the sticky flags of unit u at 2^24 + u; 00_scope R10; reset none -/
  raised : Sparse Word
  /-- what a first-capture register would take in this tick if it were armed, by its offset; 00_scope R10; reset none -/
  caught : Sparse (Option Word)
  /-- updates of this tick that an RC counter at its limit has not shown, by `rcKey`; 00_scope R10; reset none -/
  full : Sparse Nat
  /-- RC fields that a port has read in this tick; 15_register_map R435; reset none -/
  rcSeen : List Nat
  /-- registers that a port has written in this tick, by 2 × offset + port (0 ring, 1 fabric), with the value; 15_register_map R435; reset none -/
  wrote : Sparse (Option Word)
  /-- the last fabric write of this tick that a ring write of the same register would go before; 15_register_map R435; reset none -/
  undo : Option Undo
  deriving DecidableEq, Repr

/-- Why the region's model stops. -/
inductive Fault where
  /-- Raised by RST_REGION_LOW with a pulse from 0.8 µs to 1.2 µs, which R33 says the wafer must not drive and for which it gives no effect. Safe: no claim is made of what follows. -/
  | forbiddenPulse
  deriving DecidableEq, Repr

/-- Commands without a meaning. -/
inductive Refusal where
  /-- Raised by no meaning: it would stand in the arm of a row not yet modelled. Safe: the model says nothing of such a command. -/
  | notModelled (mnemonic : String)
  deriving DecidableEq, Repr

/-! Each part of the state as a cold reset leaves it; a table that lists nothing holds this value at every number. -/

def RowMem.zero : RowMem := ⟨[], none, []⟩
def Token.zero : Token := ⟨0, 0, false, false⟩
def Chan.init : Chan :=
  { gen := 0, spent := 0, back := [], credOut := [], flight := [], landed := [], queue := [], spill := [], boreRows := [], boreNext := 0,
    oldBore := none, absorbing := 0, marked := none, closed := false, absorbCyc := none, sent := none,
    arrived := none }
def Slot.init : Slot := ⟨[], 0, 0, [], none⟩
def Ring.init : Ring := ⟨0, 0, 0, 0⟩
def Cu.init : Cu :=
  { pcs := [], entry := 0, rep := 0, loops := [], cyc := 0, due := [], stepped := none, pushes := [], banks := [], waiting := [], pk := [],
    pocket := [], rings := [], wBlock := 0, wOp := [], aOp := [], outs := [], dotPart := 0, partials := [], terms := [],
    slots := [], regs := [], outq := [], seeds := [], seed := 0, step := 0, blk := 0, items := [], flags := 0 }
def AgSt.init : AgSt := ⟨0, 0, [], 0, none, [], false, false, 0, false⟩
def Mu.init : Mu :=
  { sram := .zero, ctx := 0, ctxFirings := 0, ags := [], runs := [], nextRun := 0, stores := [], banks := [],
    bankCyc := 0, fireCyc := 0, used := [], recvs := [], sends := [], arriving := [], landing := [], scrubRow := 0, scrubCyc := 0, switching := false,
    late := [], holding := false }
def Shadow.init : Shadow := ⟨0, 0, 0, 15, 0⟩
/-- A blank unit at generation 0 (R402). -/
def UnitSt.blank : UnitSt :=
  { cfg := 0, loaded := false, gen := 0, firing := false, stopped := false, firings := 0, ctr := [],
    borePeak := 0, ctxSwitches := 0, shadow := .init, cu := .init, mu := .init, settled := none, switched := none, elasticHold := false }
def ZonePage.init : ZonePage := ⟨0, 0, 0, 0, 0, 0, false, [], 0, false⟩
def CfgQ.init : CfgQ :=
  { planLo := 0, src := false, planHi := 0, entries := 0, start := false, abort := false, state := 0, error := 0,
    entry := 0, planAddr := 0, planSrc := false, planLen := 0, items := [], taken := 0, asked := 0, waitTag := 0, fenced := false, fencedBy := 0, aborted := false,
    owner := none, inj := [], injCyc := 0 }
/-- A data block as wafer test leaves it: free, unworn. -/
def Block.init : Block := ⟨0, 0, 0, 0, 0, false⟩
def ImgCopy.init : ImgCopy := ⟨none, [], false, false⟩
def Ws.init (s : Nat) : Ws :=
  { ident := Config.wsIdentity s, serial := 0, image := 0, copyA := .init, copyB := .init, manifest := none, table := [],
    op := 0, refresh := none, switchWait := false, blocks := [], mem := [], jValid := false, journal := [], jError := 0, uncorr := 0, rescue := 0, unmapped := 0, blkSel := 0,
    commit := none, releasing := [], ageSum := 0, wearBlock := 2, wearTime := 0, wearAge := 0, wearTick := 0, media := [],
    loaded := false }
def Ks.init (k : Nat) : Ks :=
  { ident := Config.ksIdentity k, serial := 0, trained := false, failed := false, hot := false, corr := 0,
    uncorr := 0, rmwFail := 0, mem := ⟨[], some k, []⟩, media := [], refreshTick := 0, scrubTick := 0 }
def Bucket.init : Bucket := ⟨1, 16, none, none, 0, []⟩
def Fab.init : Fab :=
  { injCairn := false, shadow := 3, seen := 0, selTable := 0, selVersion := 0, selRouter := 0, key := 0,
    data := 0, status := 0, op := none, unroute := 0, first := 0, armed := true, thr := [], ep := [],
    rope := [], list := [], pkts := [], nextId := 0, injq := [], injLeft := [], asm := [], localq := [], buckets := [] }
def Link.init : Link :=
  { enable := true, train := false, quick := false, state := .down, sparesTx := 0, sparesRx := 0,
    partner := 0xFF, trains := 0, crcErr := 0, retrains := 0, lost := 0, txSeq := 0, rxSeq := 0, replay := [],
    resends := 0, ackTick := 0, nak := false, ackOwed := false, gap := false, quickFails := 0, spent := [], owed := [],
    held := [], rx := [], out := [], wire := [], trainTick := 0, detected := false, downed := true }
def Piton.init : Piton :=
  { count := 0, target := 0, tgtValid := false, done := false, fenced := false, overrun := false, fencedBy := 0, cause := 0,
    chained := false, chainPiton := 0, chainN := 0, fired := false, remote := false, waiters := [], counted := [] }
def PitQ.init : PitQ :=
  { sel := 0, overruns := 0, refused := 0, badOp := 0, errCause := 0, errPiton := 0, armed := true,
    clearAll := false, waitOut := 0, waitIn := 0, inbox := [] }
def Clk.init : Clk :=
  { drone := .off, lockAdv := false, refPresent := false, losses := 0, confirm := false, walks := 0,
    lastWalk := 0, holdover := 0, started := none, firstLock := none, walk := none, lockA := 0, events := 0,
    moving := false, point := 2, target := 2, code := 768, railWait := false, lowerAfter := false,
    lastStep := none, count := 0, load := 0, force := false, arm := false, request := false, loaded := false,
    offset := 0, slewLeft := 0, lastBeat := none, lastStamp := none }
def Chanter.init : Chanter :=
  { state := .reset, ctlCode := 768, code := 0, tooLarge := false, pend := [], losses := 0, good := 0,
    widen := 0, startTick := 0, coastTick := 0, expired := false, fails := 0, windowTick := none, lockTick := none, relock := false }
def ZoneClk.init : ZoneClk :=
  { d1 := 0, d2 := 0, d3 := 0, level := 0, kind := .advance, cons := false, l3run := 0, deficit := 0,
    running := false, sched := 0, cycles := 0, l1 := 0, l2 := 0, l3 := 0, breaths := 0, holds := 0, side := 0, sideIn := 0, l3seen := false, phase := 0,
    lastSlip := none, govPos := 0, time := 0, timeValid := false, delay := 0, corr := 0, stamp := none,
    govBreaths := 0 }
/-- A crossing of a region in reset: empty, parked and fenced (R24, R308). -/
def Belay.init : Belay := ⟨[], true, true⟩
def AlignRec.init : AlignRec := ⟨0, 0, 0, [], false⟩
def Str.init : Str :=
  { consForce := false, alignCtl := 0, aligned := 0, events := 0, tR := 0, seen := [], tq := [], timeSel := 0,
    al := [] }
/-- The trim of a new part (R441). -/
def Trim.init : Trim :=
  { guard_ := 60, ageAdded := 0, raised := false, ageLimit := false, limit := 7, lowering := false, raiseDue := false, lowerDue := false,
    worn := false, slack := [], held := [], raiseTick := none, hourTick := 0 }
def Pwr.init : Pwr :=
  { vinHigh := false, vinGood := false, vinTick := none, vInt := false, vIo := false, vSram := false, vStack := false,
    coreGood := 0, softStart := none, vcore := [], vtarget := [], normal := false, maxPoint := 7, hints := true,
    allot := 1250, allotNow := 1250, capFloor := false, vinWarn := false, duty := 8, quiesced := 0,
    quiesceDue := 0, coolSince := [], p := 0, u := 0, win := [], vinMv := 0, iinMa := 0, warnCount := 0,
    need := 0, needOut := 0, needIn := 0, calErr := 0, k := 1, estMs := 0, dSummit := 0, dAllot := 0,
    dThermal := 0, dVin := 0, throttle := 0, pointTens := [],
    pitch := [(1, 80), (2, 120), (3, 160), (4, 200), (5, 240), (6, 300), (7, 360)], thermSel := 0, hintq := [],
    halveTick := none, dutyTick := none, descTick := none, moveTick := none,
    warmTick := none, recovered := false, savedPoint := 0, savedDuty := 8, energy := [], temp := [],
    hourMax := [], ageTick := 0, share := [], sampleTick := none, needTick := none }
def CmdQ.init : CmdQ :=
  { sqBase := 0, cqBase := 0, sqLog2 := 6, cqLog2 := 6, irqCount := 1, irqDelay := 0, resetting := false,
    enable := false, inError := false, error := 0, sqHead := 0, cqTail := 0, phase := true, dbTail := 0,
    dbHead := 0, msiAddr := 0, msiData := 0, fetches := [], fetchHead := 0, ready := [], run := none,
    commits := [], open_ := [], nextSeq := 0, held := [], irqPend := 0, irqTick := 0 }
def Svc.init : Svc :=
  { state := .off, table := 0, qmask := 0, stepNo := 0, stepping := false, stepStart := 0, stepTick := 0,
    stopping := false, pending := [], seated := [], free := [], plansLeft := [], timedOut := false }
def SeqQ.init : SeqQ :=
  { tableLo := 0, src := false, tableHi := 0, start := false, stop := false, drain := false, lead := none,
    kvFree := 0, steps := 0, timeouts := 0 }
def Evt.init : Evt :=
  { base := 0, enable := false, irqEn := 0, log2 := 6, head := 0, tail := 0, phase := true, msiAddr := 0,
    msiData := 0, lost := 0, overflow := 0, history := [] }
/-- A quarter of a region held in reset. -/
def Quarter.init : Quarter :=
  { inReset := true, stage := 0, halted := false, lockHalt := false, faults := [], replays := 0, replay := none,
    degraded := false, unbacked := false, steering := [], chFault := [], replayFrom := [], crossDue := none, dataLost := false, avail := 0 }
def Flt.init : Flt :=
  { summary := 0, mask := 0, strikes := 2, fence := [], fenceStk := 0, recIndex := 0, recWord := 0, recs := [],
    seq := 0, struck := [], detected := [], fieldSel := 0, field := none }
/-- The 48 fence words of R441: ZONE_OUT 0, SHIFT 31, COLS 0. -/
def fenceWords : Nat → Sparse Word
  | 0 => []
  | n + 1 => fenceWords n ++ [(n, 0x07C00000)]
/-- The persistent store as wafer test leaves it (R441). -/
def Pst.init : Pst :=
  { words := fenceWords 48 ++
      [(0x040, 0x0700003C), (0x041, 0x0700003C), (0x042, 0x0700003C), (0x043, 0x0700003C),
       (0x044, 0x00FFFFFF), (0x045, 0x00FFFFFF)],
    writes := [], busy := [], held := [], worn := false, bad := false, wornWord := 0, wearSel := 0,
    badWords := [], life := [], kwh := 0, lifeTick := 0, hot := false }
def FwSlot.init (b : Bool) : FwSlot :=
  { image := [], length := 0, verified := false, version := Config.fwPartVersion b, updates := 0 }
def Fw.init : Fw :=
  { pending := false, active := false, update := 0, error := 0, version := 0, addr := 0,
    updAddr := 0, img := [], got := 0, slotA := FwSlot.init false, slotB := FwSlot.init true, key := [], slot := 0, revoke := false,
    install := false, instSlot := 0, instKey := [], instPos := 0, revSlot := 0, revoking := false, result := 0, revoked := 0, enabled := 0 }
def Boot.init : Boot :=
  { phase := .held, step := 0, fail := 0, qfailed := 0, bootMs := 0, qreset := 0, cause := 0, warmCount := 0,
    qresets := 0, startTick := 0, stepTick := 0, isWarm := false, powerFail := false, env := .good }
def Pins.init : Pins :=
  { rstN := false, vAux := true, alert := false, thermValid := false, thermTrip := false,
    mbaoOut := [] }
/-- IDCODE of stepping B0 (Table 13-3): stepping number plus 1, 0x4E57, 0x0EF, 1. -/
def idcodeValue : Nat := 0x14E571DF
def Tap.init : Tap := ⟨.testLogicReset, .idcode, 0, 0, 0⟩
def Ident.init : Ident := ⟨Config.site, Config.enabled, Config.serial⟩

/-- The region right after a cold reset, held in reset with V_AUX up (R12, R399, R404). -/
def Body.reset : Body :=
  { tick := 0, ident := .init, pins := .init, boot := .init, fw := .init, tap := .init,
    pst := .init, flt := .init, quarters := [], clk := .init, chanters := [], zones := [], str := .init,
    belays := [], pwr := .init, trims := [], latch := [], evt := .init, cmdq := [], seqs := [], svc := [],
    fab := .init, links := [], pitons := [], pitq := [], ws := [], ks := [], host := [], cfgq := [], chans := [],
    units := [], cfgOf := [], entryOf := [], entryDue := [], askSince := [], zpages := [] }
/-- The state right after a cold reset: nothing waits, nothing has happened in the tick. -/
def State.reset : State :=
  { toBody := .reset, pending := [], free := 4, found := .reset, raised := [], caught := [], full := [], rcSeen := [], wrote := [], undo := none }

end Sys2Proof.Machine
end

