-- ==== Sys2Proof/Machine/Ops.lean ====
section
/-! DEFINITION. The named operations over the region's state: tables, memories, bit fields, counters, the parts of State by index, free values. -/

namespace Sys2Proof.Machine

/-! Tables and memories. -/

/-- Value at number k; a number not listed holds `d`. -/
def sget {α : Type} (d : α) : Sparse α → Nat → α
  | [], _ => d
  | (j, v) :: m, k => if j = k then v else sget d m k

/-- Insert before the first greater number. -/
def sinsert {α : Type} (k : Nat) (v : α) : Sparse α → Sparse α
  | [] => [(k, v)]
  | (j, w) :: m => if k < j then (k, v) :: (j, w) :: m else (j, w) :: sinsert k v m

/-- Every entry at another number than k. -/
def serase {α : Type} (m : Sparse α) (k : Nat) : Sparse α := m.filter (fun c => c.1 != k)

/-- Store v at k, keeping the canonical form: the default is not listed. -/
def sset {α : Type} [DecidableEq α] (d : α) (m : Sparse α) (k : Nat) (v : α) : Sparse α :=
  if v = d then serase m k else sinsert k v (serase m k)

/-- Change the value at k by f. -/
def smod {α : Type} [DecidableEq α] (d : α) (m : Sparse α) (k : Nat) (f : α → α) : Sparse α :=
  sset d m k (f (sget d m k))

/-- Rebuild a table entry by entry, keeping its canonical form. -/
def smap {α : Type} [DecidableEq α] (d : α) (m : Sparse α) (f : Nat → α → α) : Sparse α :=
  (m.map fun e => (e.1, f e.1 e.2)).filter fun e => decide (e.2 ≠ d)
/-- The canonical form: numbers strictly rising, no default listed. -/
def Sparse.wf {α : Type} [DecidableEq α] (d : α) : Sparse α → Bool
  | [] => true
  | (j, v) :: m => decide (v ≠ d) && m.all (fun c => decide (j < c.1)) && Sparse.wf d m

/-- The canonical form of a byte memory; an unlisted byte reads 0 (log 2). -/
abbrev Memory.wf (m : Memory) : Bool := Sparse.wf (0 : Byte) m

/-- One byte of a memory. -/
def readByte (m : Memory) (a : Nat) : Byte := sget 0 m a
/-- Store one byte. -/
def writeByte (m : Memory) (a : Nat) (b : Byte) : Memory := sset 0 m a b

/-- n bytes from a, little-endian, as a number. -/
def readNat (m : Memory) (a : Nat) : Nat → Nat
  | 0 => 0
  | n + 1 => readNat m a n + (readByte m (a + n)).toNat * 256 ^ n

/-- Store the n low bytes of v at a, little-endian. -/
def writeNat (m : Memory) (a v : Nat) : Nat → Memory
  | 0 => m
  | n + 1 => writeByte (writeNat m a v n) (a + n) (BitVec.ofNat 8 (v / 256 ^ n))

/-- A 64-byte row at byte address a. -/
def readRowAt (m : Memory) (a : Nat) : Row := BitVec.ofNat 512 (readNat m a 64)
/-- Store a 64-byte row at byte address a. -/
def writeRowAt (m : Memory) (a : Nat) (r : Row) : Memory := writeNat m a r.toNat 64

/-- Drop every listed byte of [a, a + len). -/
def clearRange (m : Memory) (a len : Nat) : Memory := m.filter (fun c => decide (c.1 < a ∨ a + len ≤ c.1))
/-- The listed bytes of [a, a + len), moved to start at b. -/
def sliceTo (m : Memory) (a len b : Nat) : Memory :=
  (m.filter (fun c => decide (a ≤ c.1 ∧ c.1 < a + len))).map (fun c => (c.1 - a + b, c.2))
/-- Copy len bytes at a of `src` to b of `dst`. -/
def copyRange (src : Memory) (a len : Nat) (dst : Memory) (b : Nat) : Memory :=
  let d := clearRange dst b len
  d.filter (fun c => decide (c.1 < b)) ++ sliceTo src a len b ++ d.filter (fun c => decide (b ≤ c.1))

/-- Row r of a row memory: a row of undefined content not written since is a free value (R190, R415). -/
def RowMem.read (m : RowMem) (r : Nat) : Row :=
  match m.undef with
  | some e => if r ∈ m.since then readRowAt m.mem (64 * r) else Config.freeRow e r
  | none => readRowAt m.mem (64 * r)
/-- Store row r. -/
def RowMem.write (m : RowMem) (r : Nat) (v : Row) : RowMem :=
  { m with mem := writeRowAt m.mem (64 * r) v,
           since := if m.undef.isSome && !(r ∈ m.since) then r :: m.since else m.since }
/-- Contents become undefined. -/
def RowMem.lose (epoch : Nat) : RowMem := ⟨[], some epoch, []⟩

/-! Bit fields and counters. -/

/-- Bits [lo + len - 1 : lo] as a number. -/
def fld {w : Nat} (v : BitVec w) (lo len : Nat) : Nat := (v.extractLsb' lo len).toNat
/-- One bit. -/
def bit {w : Nat} (v : BitVec w) (i : Nat) : Bool := v.getLsbD i
/-- A 0/1 number from a Bool. -/
def b2n (b : Bool) : Nat := if b then 1 else 0
/-- v with bit i set to b. -/
def setBit {w : Nat} (v : BitVec w) (i : Nat) (b : Bool) : BitVec w :=
  let m := (1#w) <<< i
  if b then v ||| m else v &&& ~~~m
/-- Add n, stopping at the largest value (the "stops at" counters). -/
def satAdd {w : Nat} (v : BitVec w) (n : Nat) : BitVec w :=
  if v.toNat + n < 2 ^ w then BitVec.ofNat w (v.toNat + n) else BitVec.allOnes w
/-- Add 1, stopping at the largest value. -/
def satInc {w : Nat} (v : BitVec w) : BitVec w := satAdd v 1
/-- A signed number as w bits of two's complement, saturating. -/
def satInt (w : Nat) (i : Int) : BitVec w :=
  if i < -(2 ^ (w - 1) : Int) then BitVec.ofInt w (-(2 ^ (w - 1) : Int))
  else if (2 ^ (w - 1) : Int) ≤ i then BitVec.ofInt w (2 ^ (w - 1) - 1) else BitVec.ofInt w i
/-- The numbers 0 to n - 1. -/
def upto (n : Nat) : List Nat := List.range n
/-- Element i of a list, or d. -/
def nth {α : Type} (d : α) (l : List α) (i : Nat) : α := l.getD i d
/-- l with element i replaced, if it has one. -/
def setNth {α : Type} (l : List α) (i : Nat) (v : α) : List α := l.set i v
/-- Lane i of a vector (Table 3-5). -/
def lane (v : Vec) (i : Nat) : Word := v.extractLsb' (32 * i) 32
/-- The number whose 2^k-sized digits are f 0, f 1, .. f (n - 1). -/
def packNat (k : Nat) (f : Nat → Nat) : Nat → Nat
  | 0 => 0
  | n + 1 => packNat k f n + (f n) * 2 ^ (k * n)
/-- A vector from its lanes. -/
def mkVec (f : Nat → Word) : Vec := BitVec.ofNat 1024 (packNat 32 (fun i => (f i).toNat) 32)
/-- A token payload or row from 16-bit or other equal parts. -/
def mkRow (k n : Nat) (f : Nat → Nat) : Row := BitVec.ofNat 512 (packNat k f n)
/-- Whether the bits of v hold an even number of ones. -/
def parityNat : Nat → Nat → Bool
  | 0, _ => false
  | n + 1, v => xor (v % 2 == 1) (parityNat n (v / 2))

/-! Geometry (R17 to R20). -/

/-- Zone of a logical unit x + 96 y. -/
def zoneOf (lu : Nat) : Nat :=
  let x := lu % 96
  let y := lu / 96
  12 * (2 * (y / 48) + x / 48) + 3 * (y % 48 / 12) + x % 48 / 16
/-- Logical column of a unit within its zone. -/
def colOf (lu : Nat) : Nat := lu % 96 % 16
/-- Row of a unit within its zone. -/
def rowOf (lu : Nat) : Nat := lu / 96 % 12
/-- The logical unit at column k, row j of zone z. -/
def luAt (z k j : Nat) : Nat :=
  let q := z / 12
  let r := z % 12 / 3
  let c := z % 3
  (48 * (q % 2) + 16 * c + k) + 96 * (48 * (q / 2) + 12 * r + j)
/-- Whether a row of a zone holds MUs (R19). -/
def isMuRow (j : Nat) : Bool := j % 4 == 1
/-- Zone of a physical unit. -/
def physZone (u : Nat) : Nat := u / 204
/-- Physical column and row of a physical unit. -/
def physCol (u : Nat) : Nat := u % 204 / 12
def physRow (u : Nat) : Nat := u % 12
/-- A physical unit is an MU (R19, R20). -/
def isMu (u : Nat) : Bool := isMuRow (physRow u)
/-- The zone next to z in direction 0 north, 1 east, 2 south, 3 west, across quarter boundaries too (R17). -/
def zoneNext (z dir : Nat) : Option Nat :=
  let gx := 3 * (z / 12 % 2) + z % 3
  let gy := 4 * (z / 24) + z % 12 / 3
  let at_ (x y : Nat) : Nat := 12 * (2 * (y / 4) + x / 3) + 3 * (y % 4) + x % 3
  match dir with
  | 0 => if gy = 0 then none else some (at_ gx (gy - 1))
  | 1 => if gx = 5 then none else some (at_ (gx + 1) gy)
  | 2 => if gy = 7 then none else some (at_ gx (gy + 1))
  | 3 => if gx = 0 then none else some (at_ (gx - 1) gy)
  | _ => none
/-- The opposite direction. -/
def oppDir (d : Nat) : Nat := (d + 2) % 4
/-- The logical unit at the far end of port p (0-3 grid, 4-7 express) of lu (R151 to R154); none outside the array. -/
def neighbour (lu p : Nat) : Option Nat :=
  let x := lu % 96
  let y := lu / 96
  let n := if p < 4 then 1 else 4
  match p % 4 with
  | 0 => if y < n then none else some (x + 96 * (y - n))
  | 1 => if 96 ≤ x + n then none else some (x + n + 96 * y)
  | 2 => if 96 ≤ y + n then none else some (x + 96 * (y + n))
  | _ => if x < n then none else some (x - n + 96 * y)
/-- The far unit's port that faces port p of this unit. -/
def facing (p : Nat) : Nat := if p < 4 then oppDir p else 4 + oppDir (p - 4)

/-! The parts of State by index. -/

def State.quarter (s : State) (q : Nat) : Quarter := sget .init s.quarters q
def State.modQuarter (s : State) (q : Nat) (f : Quarter → Quarter) : State :=
  { s with quarters := smod .init s.quarters q f }
def State.chanter (s : State) (z : Nat) : Chanter := sget .init s.chanters z
def State.modChanter (s : State) (z : Nat) (f : Chanter → Chanter) : State :=
  { s with chanters := smod .init s.chanters z f }
def State.zone (s : State) (z : Nat) : ZoneClk := sget .init s.zones z
def State.modZone (s : State) (z : Nat) (f : ZoneClk → ZoneClk) : State :=
  { s with zones := smod .init s.zones z f }
def State.belay (s : State) (k : Nat) : Belay := sget .init s.belays k
def State.modBelay (s : State) (k : Nat) (f : Belay → Belay) : State :=
  { s with belays := smod .init s.belays k f }
def State.trim (s : State) (q : Nat) : Trim := sget .init s.trims q
def State.modTrim (s : State) (q : Nat) (f : Trim → Trim) : State := { s with trims := smod .init s.trims q f }
def State.queue (s : State) (n : Nat) : CmdQ := sget .init s.cmdq n
def State.modQueue (s : State) (n : Nat) (f : CmdQ → CmdQ) : State := { s with cmdq := smod .init s.cmdq n f }
def State.seqq (s : State) (q : Nat) : SeqQ := sget .init s.seqs q
def State.modSeqq (s : State) (q : Nat) (f : SeqQ → SeqQ) : State := { s with seqs := smod .init s.seqs q f }
def State.service (s : State) (q : Nat) : Svc := sget .init s.svc q
def State.modSvc (s : State) (q : Nat) (f : Svc → Svc) : State := { s with svc := smod .init s.svc q f }
def State.link (s : State) (n : Nat) : Link := sget .init s.links n
def State.modLink (s : State) (n : Nat) (f : Link → Link) : State := { s with links := smod .init s.links n f }
def State.piton (s : State) (i : Nat) : Piton := sget .init s.pitons i
def State.modPiton (s : State) (i : Nat) (f : Piton → Piton) : State :=
  { s with pitons := smod .init s.pitons i f }
def State.pitQ (s : State) (q : Nat) : PitQ := sget .init s.pitq q
def State.modPitQ (s : State) (q : Nat) (f : PitQ → PitQ) : State := { s with pitq := smod .init s.pitq q f }
def State.wst (s : State) (i : Nat) : Ws := sget (.init i) s.ws i
def State.modWs (s : State) (i : Nat) (f : Ws → Ws) : State := { s with ws := smod (.init i) s.ws i f }
def State.kst (s : State) (k : Nat) : Ks := sget (.init k) s.ks k
def State.modKs (s : State) (k : Nat) (f : Ks → Ks) : State := { s with ks := smod (.init k) s.ks k f }
def State.cfgQ (s : State) (q : Nat) : CfgQ := sget .init s.cfgq q
def State.modCfg (s : State) (q : Nat) (f : CfgQ → CfgQ) : State := { s with cfgq := smod .init s.cfgq q f }
def State.chan (s : State) (lu p : Nat) : Chan := sget .init s.chans (16 * lu + p)
def State.modChan (s : State) (lu p : Nat) (f : Chan → Chan) : State :=
  { s with chans := smod .init s.chans (16 * lu + p) f }
def State.unit (s : State) (u : Nat) : UnitSt := sget .blank s.units u
def State.modUnit (s : State) (u : Nat) (f : UnitSt → UnitSt) : State :=
  { s with units := smod .blank s.units u f }
def State.modCu (s : State) (u : Nat) (f : Cu → Cu) : State := s.modUnit u fun x => { x with cu := f x.cu }
def State.modMu (s : State) (u : Nat) (f : Mu → Mu) : State := s.modUnit u fun x => { x with mu := f x.mu }
def State.zpage (s : State) (z : Nat) : ZonePage := sget .init s.zpages z
def State.modZpage (s : State) (z : Nat) (f : ZonePage → ZonePage) : State :=
  { s with zpages := smod .init s.zpages z f }

def State.modFab (s : State) (f : Fab → Fab) : State := { s with fab := f s.fab }
def State.modClk (s : State) (f : Clk → Clk) : State := { s with clk := f s.clk }
def State.modPwr (s : State) (f : Pwr → Pwr) : State := { s with pwr := f s.pwr }
def State.modStr (s : State) (f : Str → Str) : State := { s with str := f s.str }
def State.modFlt (s : State) (f : Flt → Flt) : State := { s with flt := f s.flt }
def State.modPst (s : State) (f : Pst → Pst) : State := { s with pst := f s.pst }
def State.modBoot (s : State) (f : Boot → Boot) : State := { s with boot := f s.boot }
def State.modFw (s : State) (f : Fw → Fw) : State := { s with fw := f s.fw }
def State.modEvt (s : State) (f : Evt → Evt) : State := { s with evt := f s.evt }
def State.modPins (s : State) (f : Pins → Pins) : State := { s with pins := f s.pins }
def State.modTap (s : State) (f : Tap → Tap) : State := { s with tap := f s.tap }

/-- Hardware sets bits of the W1C register at an offset, which a write in the same tick does not clear (R10). -/
def State.raise (s : State) (off : Nat) (m : Word) : State := { s with raised := smod 0 s.raised off (· ||| m) }
/-- A first-capture register would take v, as the first of this tick (R10). -/
def State.catchFirst (s : State) (off : Nat) (v : Word) : State :=
  { s with caught := smod none s.caught off fun c => match c with | some w => some w | none => some v }

/-- Number of the i-th counter of the RC register at an offset. -/
def rcKey (off i : Nat) : Nat := 4 * off + i
/-- Of n updates of an RC counter that holds v, what passes its limit is noted: a read in the same tick leaves them all (R10). -/
def State.spill {w : Nat} (s : State) (key : Nat) (v : BitVec w) (n : Nat := 1) : State :=
  { s with full := smod 0 s.full key (· + (v.toNat + n - (2 ^ w - 1))) }
/-- A word with one bit. -/
def oneBit (i : Nat) : Word := (1 : Word) <<< i
/-- Number of a port among what is kept per port. -/
def portNo : WinPort → Nat
  | .ring => 0 | .fabric => 1
/-- A port has written a register in this tick with bit i of the value set. -/
def State.wroteBit (s : State) (off i : Nat) : Bool :=
  let has (p : WinPort) : Bool := match sget none s.wrote (2 * off + portNo p) with | some v => bit v i | none => false
  has .ring || has .fabric
/-- A port has written a register in this tick. -/
def State.wroteTo (s : State) (off : Nat) : Bool :=
  (sget none s.wrote (2 * off)).isSome || (sget none s.wrote (2 * off + 1)).isSome
/-- Where the sticky flags of unit u are among the raised bits. -/
def flagsKey (u : Nat) : Nat := 2 ^ 24 + u
/-- Where arithmetic item i of unit u is among the RC counters. -/
def itemKey (u i : Nat) : Nat := rcKey (2 ^ 24 + u) 0 + 2 ^ 32 * (i + 1)
/-- CLK_EVENTS bit i is set (R297). -/
def clkEvent (s : State) (i : Nat) : State := (s.modClk fun c => { c with events := setBit c.events i true }).raise 0x10044 (oneBit i)
/-- STR_EVENTS bit i is set (R323). -/
def strEvent (s : State) (i : Nat) : State := (s.modStr fun r => { r with events := setBit r.events i true }).raise 0x2000C (oneBit i)

/-- Apply f for each element in order. -/
def forEach {α σ : Type} (l : List α) (s : σ) (f : σ → α → σ) : σ := l.foldl f s

/-- Take a free value of w bits (log 9). -/
def State.takeFree (s : State) (w : Nat) : BitVec w × State :=
  (Config.freeValue w s.free, { s with free := s.free + 1 })

/-- Whether READY has been reached (R394). -/
def State.ready (s : State) : Bool := decide (s.boot.phase = .ready)
/-- A quarter runs: it is neither halted, nor quiesced, nor in reset (R308). -/
def State.quarterRuns (s : State) (q : Nat) : Bool :=
  !(s.quarter q).inReset && !(s.quarter q).halted && !bit s.pwr.quiesced q
/-- A quarter is halted or in reset. -/
def State.quarterStopped (s : State) (q : Nat) : Bool := !s.quarterRuns q
/-- Ticks in 1 µs. -/
def us (n : Nat) : Nat := 800 * n
/-- At least n ticks have passed since t, or t never came. -/
def passed (s : State) (t : Option Nat) (n : Nat) : Bool :=
  match t with
  | none => true
  | some a => decide (a + n ≤ s.tick)

/-! The fence map (R413). -/

/-- Fence word of zone z. -/
def State.fenceWord (s : State) (z : Nat) : Word := sget 0 s.flt.fence z ^^^ 0x07C00000
/-- Store the fence word of zone z. -/
def State.setFence (s : State) (z : Nat) (w : Word) : State :=
  s.modFlt fun f => { f with fence := sset 0 f.fence z (w ^^^ 0x07C00000) }
def fenceShift (w : Word) : Nat := fld w 22 5
def fenceCol (w : Word) (c : Nat) : Bool := bit w c
def fenceOut (w : Word) : Bool := bit w 31
/-- Physical column that serves logical column k (R413). -/
def servedBy (w : Word) (k : Nat) : Nat := if fenceShift w = 31 ∨ k < fenceShift w then k else k + 1
/-- Logical column that physical column c serves, if any (R413). -/
def serves (w : Word) (c : Nat) : Option Nat :=
  (upto 16).find? (fun k => servedBy w k == c)
/-- A logical column of a zone is backed (R413). -/
def backedCol (w : Word) (k : Nat) : Bool := !fenceOut w && !fenceCol w (servedBy w k)
/-- The physical unit behind logical unit lu, if it is backed. -/
def State.phys (s : State) (lu : Nat) : Option Nat :=
  let z := zoneOf lu
  let w := s.fenceWord z
  if backedCol w (colOf lu) then some (204 * z + 12 * servedBy w (colOf lu) + rowOf lu) else none
/-- The logical unit that physical unit u serves, if any. -/
def State.logical (s : State) (u : Nat) : Option Nat :=
  let z := physZone u
  let w := s.fenceWord z
  if fenceOut w || fenceCol w (physCol u) then none
  else (serves w (physCol u)).map fun k => luAt z k (physRow u)

end Sys2Proof.Machine
end

