-- ==== Sys2Proof/Machine/Fp.lean ====
section
/-! DEFINITION. FP32 and BF16 arithmetic: exact dyadic numbers, one rounding to nearest even, saturation, and the input policy (R46, R52, R76, R77). -/

namespace Sys2Proof.Machine

/-- A result with the NaN and saturation events it counts (R76, R77). -/
structure Fp where
  v : Word
  nan : Nat := 0
  sat : Nat := 0
  deriving DecidableEq, Repr

def fpSign (w : Word) : Bool := bit w 31
def fpExp (w : Word) : Nat := fld w 23 8
def fpMan (w : Word) : Nat := fld w 0 23
def fpIsNan (w : Word) : Bool := fpExp w == 255 && fpMan w != 0
def fpIsInf (w : Word) : Bool := fpExp w == 255 && fpMan w == 0
/-- Largest finite magnitude with the given sign. -/
def fpMax (neg : Bool) : Word := if neg then 0xFF7FFFFF else 0x7F7FFFFF
/-- Zero with the given sign. -/
def fpZero (neg : Bool) : Word := if neg then 0x80000000 else 0
def fpOne : Word := 0x3F800000

/-- Input policy on an FP32 value (Table 2-14). -/
def fpIn (w : Word) : Fp :=
  if fpIsNan w then ⟨0, 1, 0⟩ else if fpIsInf w then ⟨fpMax (fpSign w), 0, 1⟩ else ⟨w, 0, 0⟩

/-- Magnitude and exponent of a finite FP32: |w| = m × 2^e. -/
def fpMag (w : Word) : Nat := if fpExp w = 0 then fpMan w else fpMan w + 2 ^ 23
def fpE (w : Word) : Int := if fpExp w = 0 then -149 else (fpExp w : Int) - 150
/-- Signed significand. -/
def fpSig (w : Word) : Int := if fpSign w then -(fpMag w : Int) else fpMag w

/-- n / 2^k rounded to nearest, ties to even. -/
def rneShift (n k : Nat) : Nat :=
  let d := n / 2 ^ k
  let r := n % 2 ^ k
  if 2 * r > 2 ^ k ∨ (2 * r = 2 ^ k ∧ d % 2 = 1) then d + 1 else d

/-- n × 2^e rounded to an encoding with p fraction bits and least exponent qmin: exponent and fraction bits as a number. -/
def roundBits (p : Nat) (qmin : Int) (n : Nat) (e : Int) : Nat :=
  if n = 0 then 0
  else
    let q := max (e + Nat.log2 n - p) qmin
    let m := if q ≤ e then n * 2 ^ (e - q).toNat else rneShift n (q - e).toNat
    (q - qmin).toNat * 2 ^ p + m

/-- n × 2^e as FP32, rounded once and saturated (R52, R77); a zero keeps the sign given. -/
def fpRound (neg : Bool) (n : Nat) (e : Int) : Fp :=
  let b := roundBits 23 (-149) n e
  if b < 0x7F800000 then ⟨BitVec.ofNat 32 (b + b2n neg * 2 ^ 31), 0, 0⟩ else ⟨fpMax neg, 0, 1⟩
/-- A signed integer times 2^e as FP32; a zero result is +0. -/
def fpOfInt (i : Int) (e : Int) : Fp := fpRound (decide (i < 0)) i.natAbs e

/-- FP32 addition of two finite values (R52). -/
def fpAddCore (a b : Word) : Fp :=
  let e := min (fpE a) (fpE b)
  let x := fpSig a * 2 ^ (fpE a - e).toNat + fpSig b * 2 ^ (fpE b - e).toNat
  if x = 0 then ⟨fpZero (fpSign a && fpSign b), 0, 0⟩ else fpOfInt x e
/-- FP32 multiplication of two finite values. -/
def fpMulCore (a b : Word) : Fp := fpRound (xor (fpSign a) (fpSign b)) (fpMag a * fpMag b) (fpE a + fpE b)
/-- FP32 quotient of two finite values, the divisor nonzero: 64 more bits and a sticky bit decide the rounding. -/
def fpDivCore (a b : Word) : Fp :=
  let n := fpMag a * 2 ^ 64
  let q := 2 * (n / fpMag b) + b2n (n % fpMag b != 0)
  fpRound (xor (fpSign a) (fpSign b)) q (fpE a - fpE b - 65)

/-- A result whose counts gain those of its inputs. -/
def Fp.withIn (r a b : Fp) : Fp := ⟨r.v, r.nan + a.nan + b.nan, r.sat + a.sat + b.sat⟩
/-- Apply a two-operand function after the input policy (R76). -/
def fpOp2 (f : Word → Word → Fp) (a b : Word) : Fp :=
  let x := fpIn a
  let y := fpIn b
  (f x.v y.v).withIn x y
/-- Apply a one-operand function after the input policy. -/
def fpOp1 (f : Word → Fp) (a : Word) : Fp :=
  let x := fpIn a
  (f x.v).withIn x ⟨0, 0, 0⟩

/-- Order in which -0 lies below +0 (R77). -/
def fpKey (w : Word) : Int := if fpSign w then -(fld w 0 31 : Int) - 1 else fld w 0 31
/-- Numeric order: the two zeros are equal. -/
def fpNum (w : Word) : Int := if fpSign w then -(fld w 0 31 : Int) else fld w 0 31

def fpAdd (a b : Word) : Fp := fpOp2 fpAddCore a b
def fpMul (a b : Word) : Fp := fpOp2 fpMulCore a b
def fpMin (a b : Word) : Fp := fpOp2 (fun x y => ⟨if fpKey x ≤ fpKey y then x else y, 0, 0⟩) a b
def fpMaxOp (a b : Word) : Fp := fpOp2 (fun x y => ⟨if fpKey x ≤ fpKey y then y else x, 0, 0⟩) a b
def fpLt (a b : Word) : Fp := fpOp2 (fun x y => ⟨if fpNum x < fpNum y then fpOne else 0, 0, 0⟩) a b
def fpEq (a b : Word) : Fp := fpOp2 (fun x y => ⟨if fpNum x = fpNum y then fpOne else 0, 0, 0⟩) a b
/-- A value to BF16 precision (BFR). -/
def fpToBf16 (a : Word) : Fp :=
  let b := roundBits 7 (-133) (fpMag a) (fpE a)
  if b < 0x7F80 then ⟨BitVec.ofNat 32 ((b + b2n (fpSign a) * 2 ^ 15) * 2 ^ 16), 0, 0⟩
  else ⟨if fpSign a then 0xFF7F0000 else 0x7F7F0000, 0, 1⟩
/-- a × 2^k. -/
def fpScale (k : Int) (a : Word) : Fp := fpRound (fpSign a) (fpMag a) (fpE a + k)

end Sys2Proof.Machine
end

