-- ==== Sys2Proof/Machine/Special.lean ====
section
/-! DEFINITION. The special functions of stage 4 (R101, Table 3-7): each function's correctly rounded value, worked out in fixed point with 320 fraction bits, the results within the table's error of it, and the boundary results. -/

namespace Sys2Proof.Machine

/-! Fixed point: an integer counts units of 2^-320. -/

def fxP : Nat := 320
def fxOne : Int := 2 ^ 320
def fxMul (a b : Int) : Int := a * b / 2 ^ 320
def fxDiv (a b : Int) : Int := a * 2 ^ 320 / b
/-- ln 2. -/
def fxLn2 : Int := 1480553391661173448385607439722553250922680800745876974795605978609098082859138712941075737848984
/-- √(2/π). -/
def fxSqrt2Pi : Int := 1704271078036369527640793026491347494927463643304879350637741155034799905963359738391626168040302
/-- 1/√(2π). -/
def fxInvSqrt2Pi : Int := 852135539018184763820396513245673747463731821652439675318870577517399952981679869195813084020151
/-- A finite FP32's value: exact, since its least bit is 2^-149. -/
def fxOf (w : Word) : Int := fpSig w * 2 ^ (fpE w + 320).toNat
/-- e^r by n terms of its series from the k-th on: 1 + r/k (1 + r/(k+1) (…)). -/
def fxExpSeries (r : Int) : Nat → Nat → Int
  | 0, _ => fxOne
  | n + 1, k => fxOne + fxMul r (fxExpSeries r n (k + 1)) / k
/-- e^a as m × 2^e, m with 320 fraction bits. -/
def fxExpParts (a : Int) : Nat × Int :=
  let k := a / fxLn2
  ((fxExpSeries (a - k * fxLn2) 72 1).toNat, k - 320)
/-- e^a for a ≤ 0 in fixed point; 0 where it lies below every result's last place. -/
def fxExpNeg (a : Int) : Int :=
  if a < -1000 * fxOne then 0
  else
    let p := fxExpParts a
    (p.1 / 2 ^ (-320 - p.2).toNat : Nat)
/-- 1 / (1 + e^-a) in fixed point. -/
def fxSigm (a : Int) : Int :=
  let t := fxExpNeg (-(a.natAbs : Int))
  if 0 ≤ a then fxDiv fxOne (fxOne + t) else fxDiv t (fxOne + t)
/-- Σ z^(2i) / (k + 2i), n terms. -/
def fxAtanhSeries (z2 : Int) : Nat → Nat → Int
  | 0, _ => 0
  | n + 1, k => fxOne / k + fxMul z2 (fxAtanhSeries z2 n (k + 2))
/-- ln of m × 2^e, m > 0 with its highest bit at position l: the significand is taken in [3/4, 3/2). -/
def fxLn (m : Nat) (e : Int) : Int :=
  let l := Nat.log2 m
  let x := (m : Int) * 2 ^ (320 - l)
  let up := decide (3 * fxOne ≤ 2 * x)
  let x := if up then x / 2 else x
  let z := fxDiv (x - fxOne) (x + fxOne)
  2 * fxMul z (fxAtanhSeries (fxMul z z) 80 1) + (e + l + b2n up) * fxLn2
/-- x (1 + x²/k (1 + x²/(k+2) (…))), n terms, less the factor x. -/
def fxPhiSeries (x2 : Int) : Nat → Nat → Int
  | 0, _ => fxOne
  | n + 1, k => fxOne + fxMul x2 (fxPhiSeries x2 n (k + 2)) / k
/-- The normal distribution function Φ(x), for |x| ≤ 16. -/
def fxPhi (x : Int) : Int :=
  let a : Int := x.natAbs
  let x2 := fxMul a a
  let p := fxExpParts (-(x2 / 2))
  let d := fxMul fxInvSqrt2Pi (fxMul a (fxPhiSeries x2 480 3)) * p.1 / 2 ^ (-p.2).toNat
  if 0 ≤ x then fxOne / 2 + d else fxOne / 2 - d

/-! The correctly rounded values. -/

/-- A fixed-point value as FP32. -/
def fxRound (a : Int) : Word := (fpRound (decide (a < 0)) a.natAbs (-320)).v
/-- x times a fixed-point factor in [0, 1]. -/
def fxScaled (x : Word) (f : Int) : Word := (fpRound (fpSign x) (fpMag x * f.toNat) (fpE x - 320)).v
/-- The correctly rounded square root of a positive value: integer root with a sticky bit. -/
def fpSqrtCore (a : Word) : Word :=
  let e := fpE a
  let k : Nat := if e % 2 = 0 then 64 else 65
  let n := fpMag a * 2 ^ k
  let r := Nat.sqrt n
  (fpRound false (2 * r + b2n (r * r != n)) ((e - k) / 2 - 1)).v
/-- The correctly rounded reciprocal square root of a positive value: 2^(160+k) / n under the root, with a sticky bit. -/
def fpRsqrtCore (a : Word) : Word :=
  let e := fpE a
  let k : Nat := if e % 2 = 0 then 0 else 1
  let n := fpMag a * 2 ^ k
  let d := 2 ^ 160 / n
  let r := Nat.sqrt d
  (fpRound false (2 * r + b2n (r * r * n != 2 ^ 160)) (-(e - k) / 2 - 81)).v
/-- The value of function op of Table 3-7 at finite x, correctly rounded, and whether it overflows; outside the boundary cases. GELU's tanh form is taken as x/2 (1 + tanh(√(2/π) (x + 0.044715 x³))) and its erf form as x Φ(x) (log 14). -/
def stage4Exact (op : Nat) (x : Word) : Fp :=
  let a := fxOf x
  let far := decide (64 * fxOne ≤ (a.natAbs : Int))
  match op with
  | 1 => if a < -1000 * fxOne then ⟨0, 0, 0⟩ else let p := fxExpParts a; fpRound false p.1 p.2
  | 2 => if a < -1000 * fxOne then ⟨0, 0, 0⟩ else
      let k := a / fxOne
      fpRound false (fxExpSeries (fxMul (a - k * fxOne) fxLn2) 72 1).toNat (k - 320)
  | 3 => ⟨fxRound (fxLn (fpMag x) (fpE x)), 0, 0⟩
  | 4 => ⟨fpRsqrtCore x, 0, 0⟩
  | 5 => fpDivCore fpOne x
  | 6 =>
    let t := fxExpNeg (-(2 * (a.natAbs : Int)))
    fpRound (fpSign x) (fxDiv (fxOne - t) (fxOne + t)).toNat (-320)
  | 7 => ⟨fxRound (fxSigm a), 0, 0⟩
  | 8 =>
    let f := if far then (if 0 ≤ a then fxOne else 0)
      else fxSigm (2 * fxMul fxSqrt2Pi (a + fxMul (fxMul (fxMul a a) a) (44715 * fxOne / 1000000)))
    ⟨fxScaled x f, 0, 0⟩
  | 9 => ⟨fxScaled x (if 16 * fxOne ≤ a then fxOne else if a ≤ -16 * fxOne then 0 else fxPhi a), 0, 0⟩
  | 10 => ⟨fxScaled x (fxSigm a), 0, 0⟩
  | _ => ⟨if fld x 0 31 = 0 then x else fpSqrtCore x, 0, 0⟩

/-! What a function may return. -/

/-- Error of Table 3-7, in ulps. -/
def stage4Ulps : Nat → Nat
  | 1 | 3 => 2 | 6 | 7 => 3 | 8 | 9 | 10 => 4 | _ => 1
/-- The FP32 whose number in the signed order is n; 0 takes the sign given. -/
def fpAt (neg : Bool) (n : Int) : Word :=
  if n = 0 then fpZero neg else BitVec.ofNat 32 (n.natAbs + b2n (decide (n < 0)) * 2 ^ 31)
/-- The value of a finite FP32 in units of 2^-149. -/
def fpUnits (w : Word) : Int := fpSig w * 2 ^ (fpE w + 149).toNat
/-- The finite FP32 values within k ulps of c, the ulp of a subnormal c being that of 2^-126 (R101). -/
def ulpBall (c : Word) (k : Nat) : List Word :=
  ((upto (4 * k + 1)).map fun (i : Nat) => fpAt (fpSign c) (fpNum c + i - 2 * k)).filter fun y =>
    decide (fld y 0 31 < 0x7F800000) && decide ((fpUnits y - fpUnits c).natAbs ≤ k * 2 ^ (fpE c + 149).toNat)
/-- The boundary results of Table 3-7, where there is one: value, NaN, saturation. -/
def stage4Bound (op : Nat) (x : Word) : Option Fp :=
  let zero := fld x 0 31 = 0
  let neg := fpSign x && !decide zero
  match op with
  | 1 => if fpNum x ≥ 0x42B170A4 then some ⟨fpMax false, 0, 1⟩ else none
  | 2 => if fpNum x ≥ 0x43000000 then some ⟨fpMax false, 0, 1⟩ else none
  | 3 => if zero then some ⟨fpMax true, 0, 1⟩ else if neg then some ⟨0, 1, 0⟩ else none
  | 4 => if zero then some ⟨fpMax false, 0, 1⟩ else if neg then some ⟨0, 1, 0⟩ else none
  | 5 => if zero then some ⟨fpMax (fpSign x), 0, 1⟩ else none
  | 11 => if neg then some ⟨0, 1, 0⟩ else none
  | _ => none
/-- A stage 4 function. Its bits are published outside the spec: a fixed function of the input (Config.stage4, log 14) picks one of the values within the error of Table 3-7; a reciprocal that overflows is the largest finite (R77). -/
def stage4Fn (op : Nat) (a : Word) : Fp :=
  let x := fpIn a
  match stage4Bound op x.v with
  | some r => r.withIn x ⟨0, 0, 0⟩
  | none =>
    let c := stage4Exact op x.v
    let near := ulpBall c.v (stage4Ulps op)
    let r : Fp := if c.sat = 0 then ⟨nth c.v near ((Config.stage4 op x.v).toNat % near.length), 0, 0⟩ else c
    r.withIn x ⟨0, 0, 0⟩

end Sys2Proof.Machine
end

