-- ==== Sys2Proof/Machine/Formats.lean ====
section
/-! DEFINITION. Number formats: element codes, blocks, groups and outliers (R46 to R62), terms and exact accumulation (R63 to R67), quantisation and the generator (R69 to R75). Format numbers are those of Table 1-11. -/

namespace Sys2Proof.Machine

/-! Element codes (Tables 2-1 to 2-4, 2-10). -/

/-- A decoded element: integer, unit exponent, and the NaN and saturation events of Table 2-14. -/
structure ElemIn where
  s : Int
  e : Int
  nan : Nat := 0
  sat : Nat := 0
  deriving DecidableEq, Repr

def signed (neg : Bool) (n : Nat) : Int := if neg then -(n : Int) else n
/-- Two's complement of b bits. -/
def twos (b n : Nat) : Int := if n < 2 ^ (b - 1) then n else (n : Int) - 2 ^ b
/-- Magnitude in units of 0.5 of an N4 or A4 code's low bits (Table 2-2). -/
def n4Mag : Nat → Nat
  | 0 => 0 | 1 => 1 | 2 => 2 | 3 => 3 | 4 => 4 | 5 => 6 | 6 => 8 | _ => 12
def n4Elem (c : Nat) : ElemIn := { s := signed (c / 8 % 2 == 1) (n4Mag (c % 8)), e := -1 }
def n3Elem (c : Nat) : ElemIn := { s := signed (c / 4 % 2 == 1) (n4Mag (c % 4)), e := -1 }
def i4Elem (c : Nat) : ElemIn := { s := twos 4 c, e := 0 }
/-- T2 (Table 2-4): the code 10 reads 0 and counts as a NaN input (R50). -/
def t2Elem : Nat → ElemIn
  | 0 => { s := 0, e := 0 } | 1 => { s := 1, e := 0 } | 3 => { s := -1, e := 0 } | _ => { s := 0, e := 0, nan := 1 }
def e4m3Elem (c : Nat) : ElemIn :=
  let x := c / 8 % 16
  let m := c % 8
  let neg := c / 128 % 2 == 1
  if x = 15 ∧ m = 7 then { s := 0, e := -9, nan := 1 }
  else if x = 0 then { s := signed neg m, e := -9 }
  else { s := signed neg (8 + m), e := (x : Int) - 10 }
def e5m2Elem (c : Nat) : ElemIn :=
  let x := c / 4 % 32
  let m := c % 4
  let neg := c / 128 % 2 == 1
  if x = 31 then if m = 0 then { s := signed neg 7, e := 13, sat := 1 } else { s := 0, e := -16, nan := 1 }
  else if x = 0 then { s := signed neg m, e := -16 }
  else { s := signed neg (4 + m), e := (x : Int) - 17 }
def int8Elem (c : Nat) : ElemIn := { s := twos 8 c, e := 0 }
/-- BF16: significand 128 to 255 for normal values (R46); NaN and infinity by Table 2-14. -/
def bf16Elem (c : Nat) : ElemIn :=
  let x := c / 128 % 256
  let m := c % 128
  let neg := c / 32768 % 2 == 1
  if x = 255 then if m = 0 then { s := signed neg 255, e := 120, sat := 1 } else { s := 0, e := -133, nan := 1 }
  else if x = 0 then { s := signed neg m, e := -133 }
  else { s := signed neg (128 + m), e := (x : Int) - 134 }
/-- An MXFP6 value as the E4M3 code of the same value has it: significand 8 to 15 (R61). -/
def normE4m3 (neg : Bool) (n : Nat) (e : Int) : ElemIn :=
  if n = 0 then { s := 0, e := -9 }
  else
    let k := 3 - Nat.log2 n
    { s := signed neg (n * 2 ^ k), e := e - k }
def e2m3Elem (c : Nat) : ElemIn :=
  let x := c / 8 % 4
  let m := c % 8
  normE4m3 (c / 32 % 2 == 1) (if x = 0 then m else 8 + m) (if x = 0 then -3 else (x : Int) - 4)
def e3m2Elem (c : Nat) : ElemIn :=
  let x := c / 4 % 8
  let m := c % 4
  normE4m3 (c / 32 % 2 == 1) (if x = 0 then m else 4 + m) (if x = 0 then -4 else (x : Int) - 5)

/-- Native format of a WFMT or AFMT value after MX conversion (Table 2-10); `act` for an activation, `mxe` the MXEW or MXEA bit. -/
def nativeFmt (fmt : Nat) (act mxe : Bool) : Nat :=
  match fmt with
  | 11 => if act then 5 else 0
  | 12 => 6
  | 13 => if mxe then 7 else 6
  | 14 => 8
  | f => f
def isMx (fmt : Nat) : Bool := 11 ≤ fmt && fmt ≤ 14
/-- Bits of a code as stored (Table 2-5, R61). -/
def codeBits (fmt : Nat) : Nat :=
  match fmt with
  | 0 | 1 | 5 | 11 => 4
  | 2 => 3
  | 3 | 4 => 2
  | 12 => 6
  | 9 => 16
  | _ => 8
/-- A stored code of a format, with the N2 table of header word 2 (R46 to R52, R92). -/
def elemOf (fmt : Nat) (mxe : Bool) (n2tab c : Nat) : ElemIn :=
  match fmt with
  | 0 | 5 | 11 => n4Elem c
  | 1 => i4Elem c
  | 2 => n3Elem c
  | 3 => n4Elem (n2tab / 16 ^ c % 16)
  | 4 => t2Elem c
  | 6 => e4m3Elem c
  | 7 => e5m2Elem c
  | 8 | 14 => int8Elem c
  | 9 => bf16Elem c
  | 12 => if mxe then e3m2Elem c else e2m3Elem c
  | 13 => if mxe then e5m2Elem c else e4m3Elem c
  | _ => { s := 0, e := 0 }

/-- The (weight, activation) pairs of Table 2-11 on native formats: mode 1 to 7, 0 for none (R63, R64, R104). -/
def dotMode (w a : Nat) : Nat :=
  if (w = 0 ∨ w = 1) ∧ a = 5 then 1
  else if (w = 2 ∨ w = 3 ∨ w = 4) ∧ a = 5 then 2
  else if w ≤ 4 ∧ (a = 6 ∨ a = 7) then 3
  else if w ≤ 4 ∧ a = 8 then 4
  else if (w = 6 ∨ w = 7) ∧ (a = 6 ∨ a = 7) then 5
  else if w = 8 ∧ a = 8 then 6
  else if w = 9 ∧ a = 9 then 7
  else 0
/-- DOTs per block in a mode (Table 3-4). -/
def modeParts : Nat → Nat
  | 1 | 2 => 1 | 3 | 4 => 2 | 5 | 6 => 4 | 7 => 16 | _ => 1
/-- Terms of the mode are element products. -/
def modeElem (m : Nat) : Bool := m == 3 || m == 5 || m == 7
/-- c of Table 2-11. -/
def modeC : Nat → Nat
  | 1 | 2 | 4 => 5 | 3 => 8 | 6 => 3 | _ => 7
/-- Blocks (elements in per-element modes) that close a group (R95). -/
def modeClose (m : Nat) : Nat := if modeElem m then 128 else 8

/-! Blocks. -/

/-- Bytes of a 16-element block's code field (Table 2-5). -/
def blockBytes (fmt : Nat) : Nat := 2 * codeBits fmt
/-- Bytes of an activation block: code field and scale byte; BF16 carries no scale (R55, R60). An MX block is 32 codes and its scale (log 15). -/
def actBytes (fmt : Nat) : Nat := if fmt = 9 then 32 else if isMx fmt then 4 * codeBits fmt + 1 else blockBytes fmt + 1
/-- Scales of a weight group record: one per block, one per MX block of 32, none for BF16 (R55, R56, log 15). -/
def groupScales (fmt : Nat) : Nat := if fmt = 9 then 0 else if isMx fmt then 4 else 8
/-- Bytes of a weight group record (Table 2-6). -/
def recBytes (fmt : Nat) (fine : Bool) : Nat := 8 * blockBytes fmt + groupScales fmt + b2n fine

/-- A block being read, with the events it counts. -/
structure BlkIn where
  blk : Blk
  nan : Nat
  sat : Nat
  deriving DecidableEq, Repr

/-- Residue modulo 7 of an integer (R80). -/
def mod7 (i : Int) : Nat := (i % 7).toNat
/-- Bits of `codes` holding element i of a block of format fmt (R54). -/
def codeAt (fmt codes i : Nat) : Nat := codes / 2 ^ (codeBits fmt * i) % 2 ^ codeBits fmt
/-- A block from its code bits and scale byte; positions in `skip` carry outliers and their codes are ignored (R59); the scale 0xFF makes every element 0 and counts once (Table 2-14). `part` selects the half of an MX block. -/
def blkOf (fmt : Nat) (mxe : Bool) (n2tab codes scale part : Nat) (skip : List Nat) : BlkIn :=
  let bad := scale == 255 && fmt != 9
  let raw := (upto 16).map fun i =>
    if bad || skip.contains i then ({ s := 0, e := (elemOf fmt mxe n2tab 0).e } : ElemIn) else elemOf fmt mxe n2tab (codeAt fmt codes (16 * part + i))
  { blk := { elems := raw.map fun x => ⟨x.s, x.e, mod7 x.s⟩,
             scale := if fmt = 9 then 0 else (scale : Int) - 127 - (if fmt = 14 then 6 else 0), outs := [] },
    nan := b2n bad + (raw.map ElemIn.nan).sum, sat := (raw.map ElemIn.sat).sum }
/-- The fine scale of a block header byte (R57, R66): significand and exponent; 0x7F reads as 0 and counts a NaN. -/
def fineOf (h : Nat) : Nat × Int × Nat :=
  let x := h % 128
  if x = 127 then (0, -9, 1)
  else if x / 8 = 0 then (x % 8, -9, 0) else (8 + x % 8, (x / 8 : Int) - 10, 0)
/-- Outliers of block k in a side record (R59): entries by block order, then slot order; a count of 3 gives none. -/
def outliersOf (counts k : Nat) : Nat := if counts / 4 ^ k % 4 = 3 then 0 else counts / 4 ^ k % 4
/-- Entries before block k. -/
def outliersBefore (counts : Nat) : Nat → Nat
  | 0 => 0
  | k + 1 => outliersBefore counts k + outliersOf counts k
/-- Bytes of a side record (Table 2-8). DESIGN CHOICE: the spec does not say whether a count field of 3 takes up entries in the record; it takes up none here (log 116). -/
def outRecBytes (counts : Nat) : Nat := (2 + 3 * outliersBefore counts 8 + 3) / 4 * 4

/-! Terms (R63, R80). -/

/-- The outlier terms of positions in [lo, hi): significand of the BF16 value times the activation integer. -/
def outTerms (w a : Blk) (lo hi : Nat) : List Term :=
  (w.outs.filter fun o => decide (lo ≤ o.1 ∧ o.1 < hi)).map fun o =>
    let x := nth ⟨0, 0, 0⟩ a.elems o.1
    ⟨o.2.s * x.s, o.2.e + x.e + a.scale, o.2.r * x.r % 7⟩
/-- Position i carries an outlier, and takes no part in the products. -/
def isOut (w : Blk) (i : Nat) : Bool := w.outs.any fun o => o.1 == i
/-- The block product over [lo, hi), exact. -/
def blockTerm (w a : Blk) (lo hi : Nat) : Term :=
  let ix := (upto 16).filter fun i => decide (lo ≤ i ∧ i < hi) && !isOut w i
  let we (i : Nat) := nth ⟨0, 0, 0⟩ w.elems i
  let ae (i : Nat) := nth ⟨0, 0, 0⟩ a.elems i
  let u := (w.elems.headD ⟨0, 0, 0⟩).e + (a.elems.headD ⟨0, 0, 0⟩).e
  ⟨(ix.map fun i => (we i).s * (ae i).s).sum, w.scale + a.scale + u,
   (ix.map fun i => (we i).r * (ae i).r).sum % 7⟩
/-- The element products over [lo, hi). -/
def elemTerms (w a : Blk) (lo hi : Nat) : List Term :=
  ((upto 16).filter fun i => decide (lo ≤ i ∧ i < hi) && !isOut w i).map fun i =>
    let x := nth ⟨0, 0, 0⟩ w.elems i
    let y := nth ⟨0, 0, 0⟩ a.elems i
    ⟨x.s * y.s, x.e + y.e + w.scale + a.scale, x.r * y.r % 7⟩

/-- Bit length of a magnitude. -/
def bitLen (n : Nat) : Nat := if n = 0 then 0 else Nat.log2 n + 1
/-- A partial of R65: I, Ep, terms rounded, and the residue the terms predict. -/
structure Partial40 where
  i : Int
  ep : Int
  rounded : Nat
  r : Nat
  deriving DecidableEq, Repr
/-- Signed rounding of s / 2^k to nearest even. -/
def rneInt (s : Int) (k : Nat) : Int := if s < 0 then -(rneShift s.natAbs k : Int) else rneShift s.natAbs k
def minList (d : Int) (l : List Int) : Int := l.foldl min (l.headD d)
def maxList (d : Int) (l : List Int) : Int := l.foldl max (l.headD d)
/-- 2^k modulo 7. -/
def pow2mod7 (k : Nat) : Nat := match k % 3 with | 0 => 1 | 1 => 2 | _ => 4
/-- Combine a group's terms (R65, R81). -/
def alignTerms (c : Nat) (ts : List Term) : Partial40 :=
  let nz := ts.filter fun t => decide (t.s ≠ 0)
  match nz with
  | [] => ⟨0, 0, 0, 0⟩
  | _ =>
    let h := maxList 0 (nz.map fun t => t.e + bitLen t.s.natAbs) + c
    let ep := max (minList 0 (nz.map Term.e)) (h - 38)
    ⟨(nz.map fun t => if ep ≤ t.e then t.s * 2 ^ (t.e - ep).toNat else rneInt t.s (ep - t.e).toNat).sum, ep,
     (nz.filter fun t => decide (t.e < ep)).length,
     (nz.map fun t => if ep ≤ t.e then t.r * pow2mod7 (t.e - ep).toNat else 0).sum % 7⟩
/-- A group's FP32 value, rounded once; a zero result is +0, also where a negative value underflows (R66). -/
def groupValue (p : Partial40) (f : Nat) (ef : Int) : Fp :=
  let g := fpOfInt (p.i * f) (p.ep + ef)
  if fld g.v 0 31 = 0 then { g with v := 0 } else g

/-- The tree of R67 takes group value v: carries through the full levels. -/
def treePush (v : Word) (sat : Nat) : List (Option Word) → List (Option Word) × Nat
  | [] => ([some v], sat)
  | none :: r => (some v :: r, sat)
  | some n :: r =>
    let x := fpAddCore n v
    let (l, k) := treePush x.v (sat + x.sat) r
    (none :: l, k)
/-- The final fold of R67. -/
def treeFold : List (Option Word) → Option Word → Nat → Fp
  | [], acc, sat => ⟨acc.getD 0, 0, sat⟩
  | none :: r, acc, sat => treeFold r acc sat
  | some n :: r, none, sat => treeFold r (some n) sat
  | some n :: r, some a, sat =>
    let x := fpAddCore n a
    treeFold r (some x.v) (sat + x.sat)
/-- Trailing ones and population count, for the latency of R96. -/
def trailingOnes : Nat → Nat → Nat
  | 0, _ => 0
  | k + 1, n => if n % 2 = 1 then 1 + trailingOnes k (n / 2) else 0
def popCount : Nat → Nat → Nat
  | 0, _ => 0
  | k + 1, n => n % 2 + popCount k (n / 2)
/-- Schedule cycles from the last term of an accumulation of G groups to its result (R96). -/
def slotLatency (g : Nat) : Nat := 4 + 3 * (trailingOnes 17 (g - 1) + popCount 18 g - 1)

/-! Quantisation (R69 to R75). OFMT: 5 A4, 6 E4M3, 7 E5M2, 8 INT8, 9 BF16, 10 FP32. -/

/-- emax (Table 2-12). -/
def quantEmax : Nat → Int
  | 5 => 2 | 6 => 8 | 7 => 15 | _ => 6
/-- Largest finite magnitude (Table 2-12). -/
def quantMax : Nat → Nat
  | 5 => 6 | 6 => 448 | 7 => 57344 | _ => 127
/-- Fraction bits of the output grid, and exponent of its least spacing. -/
def quantP : Nat → Nat
  | 5 => 1 | 6 => 3 | 7 => 2 | _ => 6
def quantQmin : Nat → Int
  | 5 => -1 | 6 => -9 | 7 => -16 | _ => 0
/-- Codes are numbered along the grid; that of maxfinite. -/
def quantTop : Nat → Nat
  | 5 => 7 | 6 => 126 | 7 => 123 | _ => 127
/-- Grid spacing exponent at magnitude m × 2^e: INT8's grid is uniform. -/
def quantQ (ofmt m : Nat) (e : Int) : Int :=
  if ofmt = 8 then 0 else max (e + Nat.log2 m - quantP ofmt) (quantQmin ofmt)
/-- The number along the grid of lo, the grid point at or below m × 2^e, and the fraction above it in 2^-k units (R71, R73). -/
def quantLo (ofmt m : Nat) (e : Int) : Nat × Nat × Nat :=
  let q := quantQ ofmt m e
  let n := if q ≤ e then m * 2 ^ (e - q).toNat else m / 2 ^ (q - e).toNat
  let k := (q - e).toNat
  (if ofmt = 8 then n else (q - quantQmin ofmt).toNat * 2 ^ quantP ofmt + n, if q ≤ e then 0 else m % 2 ^ k, k)
/-- Code number of magnitude m × 2^e (already divided by 2^S): RNE, or stochastic with u (R71, R73). -/
def quantMag (ofmt : Nat) (u : Option Nat) (m : Nat) (e : Int) : Nat :=
  if m = 0 then 0
  else
    let (lo, r, k) := quantLo ofmt m e
    let up :=
      match u with
      | none => decide (2 ^ k < 2 * r ∨ (2 * r = 2 ^ k ∧ k ≠ 0 ∧ lo % 2 = 1))
      | some u => decide (u < 65536 * r / 2 ^ k)
    if up then lo + 1 else lo
/-- The block's scale exponent S (R69): floor rule, or the smallest S with m ≤ maxfinite × 2^S. -/
def quantScale (ofmt : Nat) (noClip : Bool) (m : Nat) (e : Int) : Int :=
  let fl := e + Nat.log2 m - quantEmax ofmt
  if !noClip then fl
  else
    let fits (t : Int) : Bool :=
      let d := e - t
      if 0 ≤ d then decide (m * 2 ^ d.toNat ≤ quantMax ofmt) else decide (m ≤ quantMax ofmt * 2 ^ (-d).toNat)
    if fits fl then fl else fl + 1
/-- The generator of R74: 64 bits for 4 elements. -/
def genWord (seed ctr : BitVec 64) : BitVec 64 :=
  let x := seed ^^^ (ctr * 0xA3C59E17D2B46F8B)
  let x := (x ^^^ (x >>> 29)) * 0xE7F13A955C0B8D27
  let x := (x ^^^ (x >>> 32)) * 0x8B4FD6A129E3C75D
  x ^^^ (x >>> 31)
/-- u of element i of a block (R74): STEP, QID, BLK, SUB. -/
def genU (seed : BitVec 64) (step : BitVec 32) (qid blk i : Nat) : Nat :=
  let ctr := BitVec.ofNat 64 (step.toNat * 2 ^ 32 + qid % 2 ^ 12 * 2 ^ 20 + blk % 2 ^ 18 * 4 + i / 4)
  fld (genWord seed ctr) (16 * (i % 4)) 16

/-- A quantised block: code numbers with sign, scale byte, which elements clipped, whether the scale was clamped. -/
structure QBlock where
  codes : List Nat
  scale : Nat
  clips : List Bool
  range : Bool
  deriving DecidableEq, Repr
/-- A code's bits: sign and magnitude, or two's complement for INT8; never a negative zero in A4 (R48, R51). DESIGN CHOICE: of the FP8 formats the spec does not say so, and a negative element that rounds to 0 keeps its sign, 0x80 (log 116). -/
def quantCode (ofmt : Nat) (neg : Bool) (n : Nat) : Nat :=
  match ofmt with
  | 5 => n + b2n (neg && n != 0) * 8
  | 8 => if neg && n != 0 then 256 - n else n
  | _ => n + b2n neg * 128
/-- Quantise 16 finite FP32 values (R69 to R73); `u` gives the generator's value of each element under stochastic rounding. DESIGN CHOICE: where the scale byte is clamped, the elements are divided by 2^S of the byte written, which the spec leaves open (R70, log 116). -/
def quantBlock (ofmt : Nat) (noClip : Bool) (u : Nat → Option Nat) (xs : List Word) : QBlock :=
  let m := xs.foldl (fun a x => max a (fld x 0 31)) 0
  if m = 0 then ⟨List.replicate 16 0, 0x7F, List.replicate 16 false, false⟩
  else
    let top : Word := BitVec.ofNat 32 m
    let s0 := quantScale ofmt noClip (fpMag top) (fpE top)
    let s := max (-127) (min 127 s0)
    let ns := (upto 16).map fun i =>
      let x := nth 0 xs i
      (fpSign x, quantMag ofmt (u i) (fpMag x) (fpE x - s))
    ⟨ns.map fun p => quantCode ofmt p.1 (min p.2 (quantTop ofmt)), (s + 127).toNat,
     ns.map fun p => decide (quantTop ofmt < p.2), decide (s ≠ s0)⟩

end Sys2Proof.Machine
end

