-- ==== Sys2Proof/Machine/Sha.lean ====
section
/-! DEFINITION. SHA-384 (FIPS 180-4, R199, R200): a running hash state over bytes, and the digest it ends in. A digest is held as the bytes of Table 6-4 lie in memory, the first byte in bits 7-0. -/

namespace Sys2Proof.Machine

/-- n 64-bit words of a number, the most significant first. -/
def words64 (v n : Nat) : List (BitVec 64) := ((upto n).map fun i => BitVec.ofNat 64 (v / 2 ^ (64 * i))).reverse
/-- The 80 round constants of FIPS 180-4, 4.2.3, written one after another as one number. -/
def shaKs : Nat := 0x428a2f98d728ae227137449123ef65cdb5c0fbcfec4d3b2fe9b5dba58189dbbc3956c25bf348b53859f111f1b605d019923f82a4af194f9bab1c5ed5da6d8118d807aa98a303024212835b0145706fbe243185be4ee4b28c550c7dc3d5ffb4e272be5d74f27b896f80deb1fe3b1696b19bdc06a725c71235c19bf174cf692694e49b69c19ef14ad2efbe4786384f25e30fc19dc68b8cd5b5240ca1cc77ac9c652de92c6f592b02754a7484aa6ea6e4835cb0a9dcbd41fbd476f988da831153b5983e5152ee66dfaba831c66d2db43210b00327c898fb213fbf597fc7beef0ee4c6e00bf33da88fc2d5a79147930aa72506ca6351e003826f142929670a0e6e7027b70a8546d22ffc2e1b21385c26c9264d2c6dfc5ac42aed53380d139d95b3df650a73548baf63de766a0abb3c77b2a881c2c92e47edaee692722c851482353ba2bfe8a14cf10364a81a664bbc423001c24b8b70d0f89791c76c51a30654be30d192e819d6ef5218d69906245565a910f40e35855771202a106aa07032bbd1b819a4c116b8d2d0c81e376c085141ab532748774cdf8eeb9934b0bcb5e19b48a8391c0cb3c5c95a634ed8aa4ae3418acb5b9cca4f7763e373682e6ff3d6b2b8a3748f82ee5defb2fc78a5636f43172f6084c87814a1f0ab728cc702081a6439ec90befffa23631e28a4506cebde82bde9bef9a3f7b2c67915c67178f2e372532bca273eceea26619cd186b8c721c0c207eada7dd6cde0eb1ef57d4f7fee6ed17806f067aa72176fba0a637dc5a2c898a6113f9804bef90dae1b710b35131c471b28db77f523047d8432caab7b40c724933c9ebe0a15c9bebc431d67c49c100d4c4cc5d4becb3e42b6597f299cfc657e2a5fcb6fab3ad6faec6c44198c4a475817
def shaK : List (BitVec 64) := words64 shaKs 80
/-- The initial hash value of SHA-384 (FIPS 180-4, 5.3.4). -/
def shaInit : List (BitVec 64) := words64 0xcbbb9d5dc1059ed8629a292a367cd5079159015a3070dd17152fecd8f70e593967332667ffc00b318eb44a8768581511db0c2e0d64f98fa747b5481dbefa4fa4 8
/-- A word turned right by each of the given amounts, the turns added without carry: the sums of FIPS 180-4, 4.1.3. -/
def turns (x : BitVec 64) (ns : List Nat) : BitVec 64 := ns.foldl (fun t n => t ^^^ x.rotateRight n) 0
/-- One round (FIPS 180-4, 6.4.2). The working words stand in two halves, `x` for a to d and `y` for e to h: each half takes one new word in front and gives its last one up. -/
def shaRound (x y : List (BitVec 64)) (k w : BitVec 64) : List (BitVec 64) × List (BitVec 64) :=
  let at_ := nth (0 : BitVec 64)
  let pick := at_ y 2 ^^^ (at_ y 0 &&& (at_ y 1 ^^^ at_ y 2))
  let most := (at_ x 2 &&& (at_ x 0 ||| at_ x 1)) ||| (at_ x 0 &&& at_ x 1)
  let t := k + w + at_ y 3 + pick + turns (at_ y 0) [14, 18, 41]
  ((t + most + turns (at_ x 0) [28, 34, 39]) :: x.take 3, (at_ x 3 + t) :: y.take 3)
/-- The rounds, over the two halves of the working words and the next 16 message words. -/
def shaRounds : List (BitVec 64) → List (BitVec 64) × List (BitVec 64) → List (BitVec 64) → List (BitVec 64) × List (BitVec 64)
  | [], r, _ => r
  | k :: ks, (x, y), w =>
    let far := nth 0 w 1
    let near := nth 0 w 14
    let new := nth 0 w 0 + nth 0 w 9 + (turns far [1, 8] ^^^ far >>> 7) + (turns near [19, 61] ^^^ near >>> 6)
    shaRounds ks (shaRound x y k (nth 0 w 0)) (w.drop 1 ++ [new])
/-- The number that bytes spell, the first the most significant. -/
def beNat (bs : List Byte) : Nat := bs.foldl (fun n b => 256 * n + b.toNat) 0
/-- The n bytes of a number, the least significant first. -/
def leBytes (v n : Nat) : List Byte := (upto n).map fun i => BitVec.ofNat 8 (v / 2 ^ (8 * i))
/-- The n bytes of a number, the most significant first. -/
def beBytes (v n : Nat) : List Byte := (leBytes v n).reverse
/-- The hash value after one block of 128 bytes. -/
def shaBlock (h : List (BitVec 64)) (blk : List Byte) : List (BitVec 64) :=
  let w := (upto 16).map fun i => BitVec.ofNat 64 (beNat ((blk.drop (8 * i)).take 8))
  let r := shaRounds shaK (h.take 4, h.drop 4) w
  List.zipWith (· + ·) h (r.1 ++ r.2)
/-- The hash value after n blocks of a byte string. -/
def shaBlocks : Nat → List (BitVec 64) → List Byte → List (BitVec 64)
  | 0, h, _ => h
  | n + 1, h, bs => shaBlocks n (shaBlock h (bs.take 128)) (bs.drop 128)
/-- The hash state takes further bytes. -/
def HashSt.absorb (x : HashSt) (bs : List Byte) : HashSt :=
  let all := x.rest ++ bs
  let n := all.length / 128
  { h := shaBlocks n x.h all, rest := all.drop (128 * n), len := x.len + bs.length }
/-- The hash state of no byte. -/
def HashSt.start : HashSt := ⟨shaInit, [], 0⟩
/-- The digest: the padding of FIPS 180-4, 5.1.2, and the first six words. -/
def HashSt.finish (x : HashSt) : BitVec 384 :=
  let zeros := (239 - x.len % 128) % 128
  let y := x.absorb ([(0x80 : Byte)] ++ List.replicate zeros 0 ++ beBytes (8 * x.len) 16)
  BitVec.ofNat 384 (packNat 8 (fun i => (nth 0 ((y.h.take 6).flatMap fun w => beBytes w.toNat 8) i).toNat) 48)
/-- SHA-384 of a byte string. -/
def sha384 (bs : List Byte) : BitVec 384 := (HashSt.start.absorb bs).finish
/-- len bytes of a memory from a. -/
def memBytes (m : Memory) (a len : Nat) : List Byte := (upto len).map fun i => readByte m (a + i)

end Sys2Proof.Machine
end

