-- ==== Sys2Proof/Machine/P384.lean ====
section
/-! DEFINITION. ECDSA verification over P-384 (FIPS 186-5, R200) and the compressed points of SEC 1 (R397). -/

namespace Sys2Proof.Machine

/-- The field prime, the constant b, the order and the base point of P-384 (FIPS 186-5). -/
def p384 : Nat := 2 ^ 384 - 2 ^ 128 - 2 ^ 96 + 2 ^ 32 - 1
def p384b : Nat := 0xb3312fa7e23ee7e4988e056be3f82d19181d9c6efe8141120314088f5013875ac656398d8a2ed19d2a85c8edd3ec2aef
def p384n : Nat := 0xffffffffffffffffffffffffffffffffffffffffffffffffc7634d81f4372ddf581a0db248b0a77aecec196accc52973
def p384g : Nat × Nat :=
  (0xaa87ca22be8b05378eb1c71ef320ad746e1d3b628ba79b9859f741e082542a385502f25dbf55296c3a545e3872760ab7,
   0x3617de4a96262c6f5d9e98bf9292dc29f8f41dbd289a147ce9da3113b5f0b8c00a60b1ce1d7e819d7a431d7c90ea0e5f)
/-- a^e mod m for e below 2^k. -/
def powMod (m : Nat) : Nat → Nat → Nat → Nat
  | 0, _, _ => 1 % m
  | k + 1, a, e => (if e % 2 = 1 then a else 1) * powMod m k (a * a % m) (e / 2) % m
/-- The inverse modulo a prime of at most 384 bits (0 for 0). -/
def invMod (m a : Nat) : Nat := powMod m 384 (a % m) (m - 2)
/-- The sum of two points; none is the point at infinity. -/
def ecAdd (x y : Option (Nat × Nat)) : Option (Nat × Nat) :=
  match x, y with
  | none, y => y
  | x, none => x
  | some (x1, y1), some (x2, y2) =>
    if x1 = x2 ∧ (y1 + y2) % p384 = 0 then none
    else
      let l := (if x1 = x2 then (3 * x1 * x1 + (p384 - 3)) * invMod p384 (2 * y1)
        else (y2 + (p384 - y1)) * invMod p384 (x2 + (p384 - x1))) % p384
      let x3 := (l * l + (p384 - x1) + (p384 - x2)) % p384
      some (x3, (l * (x1 + (p384 - x3)) + (p384 - y1)) % p384)
/-- k times a point, for k below 2^n. -/
def ecMul : Nat → Nat → Option (Nat × Nat) → Option (Nat × Nat)
  | 0, _, _ => none
  | n + 1, k, x => ecAdd (if k % 2 = 1 then x else none) (ecMul n (k / 2) (ecAdd x x))
/-- The point of 49 bytes in compressed form, the first byte in bits 7-0; none where they are no point of the curve (R397). -/
def keyPoint (key : BitVec 392) : Option (Nat × Nat) :=
  let x := beNat (leBytes (key.toNat / 256) 48)
  let y2 := (x * x * x + (p384 - 3) * x + p384b) % p384
  let y := powMod p384 384 y2 ((p384 + 1) / 4)
  let sign := fld key 0 8
  if (sign = 2 ∨ sign = 3) ∧ x < p384 ∧ y * y % p384 = y2 then
    some (x, if y % 2 = sign % 2 then y else (p384 - y) % p384)
  else none
/-- Whether 49 bytes are the compressed form of a point of P-384. -/
def onCurve (key : BitVec 392) : Bool := (keyPoint key).isSome
/-- The signature, r then s, 48 bytes each and big-endian, is one of the digest under the key. -/
def ecdsaVerify (key : BitVec 392) (digest : BitVec 384) (sig : BitVec 768) : Bool :=
  let e := beNat (leBytes digest.toNat 48)
  let bytes := leBytes sig.toNat 96
  let r := beNat (bytes.take 48)
  let s := beNat (bytes.drop 48)
  match keyPoint key with
  | none => false
  | some q =>
    if 0 < r ∧ r < p384n ∧ 0 < s ∧ s < p384n then
      let w := invMod p384n s
      match ecAdd (ecMul 384 (e * w % p384n) (some p384g)) (ecMul 384 (r * w % p384n) (some q)) with
      | some (x, _) => x % p384n == r
      | none => false
    else false

end Sys2Proof.Machine
end

