-- ==== Sys2Proof/Machine/Operands.lean ====
section
/-! DEFINITION. Operand forms: the fields of the packet header, table entries and piton operands (Tables 7-3 to 7-9, 8-2, 8-3). -/

namespace Sys2Proof.Machine

/-! Header flit (Table 7-3). -/

def hDest (h : Row) : Nat := fld h 0 24
def hSrc (h : Row) : Nat := fld h 24 24
def hKind (h : Row) : Nat := fld h 48 4
def hLast (h : Row) : Bool := bit h 52
def hRope (h : Row) : Bool := bit h 53
/-- CLASS: false ORDERED, true SPREAD. -/
def hClass (h : Row) : Bool := bit h 54
def hCairn (h : Row) : Bool := bit h 55
def hLen (h : Row) : Nat := fld h 56 7
def hPv (h : Row) : Bool := bit h 63
def hPiton (h : Row) : Nat := fld h 64 17
def hTotal (h : Row) : Nat := fld h 96 32
def hHops (h : Row) : Nat := fld h 128 8
def hZone (h : Row) : Nat := fld h 136 4
def hSet (h : Row) : Bool := bit h 143
def hAddr (h : Row) : Nat := fld h 160 64
def hArg (h : Row) : Nat := fld h 224 32
def hInline (h : Row) : BitVec 256 := h.extractLsb' 256 256

/-- The fields an endpoint writes in a header (R223). -/
structure HdrF where
  dest : Nat
  src : Nat
  cls : Bool := false
  rope : Bool := false
  last : Bool := false
  kind : Nat
  pv : Bool := false
  len : Nat := 0
  piton : Nat := 0
  total : Nat := 0
  addr : Nat := 0
  arg : Nat := 0
  inl : Nat := 0

/-- A header flit with CAIRN, HOPS and ROUTE 0 (R223). -/
def mkHdr (f : HdrF) : Row :=
  BitVec.ofNat 512
    (f.dest % 2 ^ 24 + f.src % 2 ^ 24 * 2 ^ 24 + f.kind % 16 * 2 ^ 48 + b2n f.last * 2 ^ 52 + b2n f.rope * 2 ^ 53 +
      b2n f.cls * 2 ^ 54 + f.len % 128 * 2 ^ 56 + b2n f.pv * 2 ^ 63 + f.piton % 2 ^ 17 * 2 ^ 64 +
      f.total % 2 ^ 32 * 2 ^ 96 + f.addr % 2 ^ 64 * 2 ^ 160 + f.arg % 2 ^ 32 * 2 ^ 224 + f.inl % 2 ^ 256 * 2 ^ 256)

/-- v with the len bits from lo replaced by those of x. -/
def setFld {w : Nat} (v : BitVec w) (lo len x : Nat) : BitVec w :=
  let m := BitVec.ofNat w ((2 ^ len - 1) * 2 ^ lo)
  (v &&& ~~~m) ||| BitVec.ofNat w (x % 2 ^ len * 2 ^ lo)

/-- A header as the point of injection leaves it: CAIRN stamped, HOPS and ROUTE 0 (R223, R239). -/
def stampHdr (h : Row) (cairn : Bool) : Row := setFld (setFld h 55 1 (b2n cairn)) 128 16 0

/-- A reserved field of the header is nonzero, HOPS and ROUTE excepted (R225). -/
def hReserved (h : Row) : Bool := fld h 81 15 != 0 || fld h 144 16 != 0

/-! Endpoint and rope entries (Tables 7-6 to 7-9). -/

def eValid (e : BitVec 64) : Bool := bit e 63
def eOut (e : BitVec 64) : Nat := fld e 61 2
def eZone (e : BitVec 64) : Nat := fld e 57 4
def eK (e : BitVec 64) : Nat := fld e 53 4
def eJ (e : BitVec 64) : Nat := fld e 49 4
def eHub (e : BitVec 64) : Nat := fld e 55 2
def eLinks (e : BitVec 64) : Nat := fld e 47 8
def eFunc (e : BitVec 64) : Nat := fld e 43 4
/-- Zone-router rope entry: OUT (4 north, 3 east, 2 south, 1 west, 0 hub), LIST_BASE, LIST_LEN. -/
def rOut (e : BitVec 64) : Nat := fld e 58 5
def rBase (e : BitVec 64) : Nat := fld e 46 12
def rLen (e : BitVec 64) : Nat := fld e 38 8
/-- Hub rope entry: ZONES, HUBS, LINKS. -/
def rZones (e : BitVec 64) : Nat := fld e 51 12
def rHubs (e : BitVec 64) : Nat := fld e 47 4
def rLinks (e : BitVec 64) : Nat := fld e 39 8

/-- The links of hub q, in the order of Table 7-1. -/
def hubLinks : Nat → List Nat
  | 0 => [0, 1, 2, 3, 28, 29, 30, 31]
  | 1 => [4, 5, 6, 7, 8, 9, 10, 11]
  | 2 => [20, 21, 22, 23, 24, 25, 26, 27]
  | _ => [12, 13, 14, 15, 16, 17, 18, 19]
/-- The hub that serves link n (Table 7-1). -/
def linkHub (n : Nat) : Nat := ((upto 4).find? (fun q => (hubLinks q).contains n)).getD 0
/-- A link's index i among its hub's links. -/
def linkIndex (n : Nat) : Nat := ((upto 8).find? (fun i => nth 99 (hubLinks (linkHub n)) i == n)).getD 0

/-- The other three hubs, in ascending number (R260). -/
def otherHubs (q : Nat) : List Nat := (upto 4).filter (fun h => h != q)
/-- Input port of hub q on which traffic from hub h arrives (R260). -/
def hubPortOfHub (q h : Nat) : Nat := 12 + ((upto 3).find? (fun i => nth 9 (otherHubs q) i == h)).getD 0
/-- Input port of its hub on which link n arrives (R260). -/
def hubPortOfLink (n : Nat) : Nat := 15 + linkIndex n
/-- The hub of router r (0-47 zone routers, 48-51 hubs). -/
def routerHub (r : Nat) : Nat := if r < 48 then r / 12 else r - 48

/-! Notification record (Table 8-3). -/

/-- Flags byte of Table 8-3. -/
def pitonFlags (p : Piton) : Nat :=
  b2n p.tgtValid + 2 * b2n p.done + 4 * b2n p.fenced + 8 * b2n p.overrun + 16 * b2n p.chained + 32 * b2n p.remote
/-- The record of piton i with the given status and tag. -/
def pitonRecord (i : Nat) (p : Piton) (status tag time : Nat) : Nat :=
  i % 2 ^ 17 + status * 2 ^ 24 + tag % 2 ^ 32 * 2 ^ 32 + p.count.toNat * 2 ^ 64 +
    (if p.tgtValid then p.target.toNat else 0) * 2 ^ 96 + time % 2 ^ 64 * 2 ^ 128 + pitonFlags p * 2 ^ 192 +
    p.cause.toNat * 2 ^ 200

/-! CRC-32 of IEEE 802.3 (R248). -/

/-- One bit into the reflected CRC register. -/
def crc32Bit (c : BitVec 32) (b : Bool) : BitVec 32 :=
  if xor (bit c 0) b then (c >>> 1) ^^^ 0xEDB88320 else c >>> 1
/-- n bits of v from bit lo, least significant first. -/
def crc32Bits (v : Nat) : Nat → BitVec 32 → BitVec 32
  | 0, c => c
  | n + 1, c => crc32Bits (v / 2) n (crc32Bit c (v % 2 == 1))
/-- The CRC of a frame: its data bytes, then the control word, little-endian. -/
def frameCrc (f : LinkFrame) : BitVec 32 :=
  ~~~ crc32Bits (f.data.toNat + f.ctl.toNat * 2 ^ 2048) 2112 0xFFFFFFFF

/-- A header the injecting zone router discards (R225). -/
def hdrBad (h : Row) : Bool :=
  decide (9 ≤ hKind h) || decide (64 < hLen h) || hReserved h || (hRope h && decide (4096 ≤ hDest h))
/-- SEEN of the version of a packet that is present (R240). -/
def setSeen (s : State) (v : Bool) : State :=
  (s.modFab fun f => { f with seen := setBit f.seen (b2n v) true }).raise (0x60004 + 4 * b2n v) (oneBit 31)
end Sys2Proof.Machine
end

