-- ==== Sys2Proof/Machine/Flags.lean ====
section
/-! DEFINITION. Status and fault flags shared by every family: FLT_SUMMARY and ALERT_N (R34, R423), the persistent store (R11, R424, R425), host writes of the command front end, the event ring (R375), fault records and strikes (R408, R411), the field record (R428). -/

namespace Sys2Proof.Machine

/-! FLT_SUMMARY and ALERT_N. -/

/-- ALERT_N as R34 has it: before READY while V_IN_40 has exceeded 36 V, after it while an unmasked summary bit is set. -/
def alertOf (s : State) : Bool :=
  if s.ready then decide (s.flt.summary &&& ~~~s.flt.mask ≠ 0) else s.pwr.vinHigh
/-- Drive ALERT_N from the present state (R34). -/
def updAlert (s : State) : State := s.modPins fun p => { p with alert := alertOf s }
/-- Set bit i of FLT_SUMMARY (R423). -/
def setSummary (s : State) (i : Nat) : State :=
  updAlert ((s.modFlt fun f => { f with summary := setBit f.summary i true }).raise 0xB0000 (oneBit i))

def sumQueue : Nat := 0
def sumUnit : Nat := 1
def sumZone : Nat := 2
def sumFence : Nat := 3
def sumDegraded : Nat := 4
def sumStack : Nat := 5
def sumLink : Nat := 6
def sumThermal : Nat := 7
def sumRef : Nat := 8
def sumPst : Nat := 9

/-! Persistent store. -/

/-- A word as the management port reads it: the last accepted value; an uncorrectable word reads 0 until a later write is acknowledged (R11, R426). -/
def pstRead (s : State) (w : Nat) : Word :=
  if s.pst.badWords.contains w && !(s.pst.busy.any fun b => b.1 == w) then 0 else sget 0 s.pst.words w
/-- A write of word w is persisting (R11). -/
def pstBusy (s : State) (w : Nat) : Bool := s.pst.busy.any fun b => b.1 == w
/-- Accept a write of word w (R425): rejected at 100,000 accepted writes; held while an earlier write of the word persists. -/
def pstWrite (s : State) (w : Nat) (v : Word) : State :=
  if 100000 ≤ sget 0 s.pst.writes w then
    setSummary ((s.modPst fun p => { p with worn := true, wornWord := BitVec.ofNat 12 w }).raise 0xC4000 (oneBit 30)) sumPst
  else
    s.modPst fun p =>
      let p := { p with words := sset 0 p.words w v, writes := smod 0 p.writes w (· + 1) }
      if p.busy.any (fun b => b.1 == w) then { p with held := p.held ++ [(w, v)] }
      else { p with busy := p.busy ++ [(w, v)] }
/-- Whether pstWrite would accept a write of w. -/
def pstAccepts (s : State) (w : Nat) : Bool := decide (sget 0 s.pst.writes w < 100000)

/-! The front end's writes to the host. -/

/-- FE_ID and HOST_ID (R393, Table 13-12). -/
def feId (s : State) : Nat := fld (sget 0 s.pst.words 0x044) 0 24
def hostId (s : State) : Nat := fld (sget 0 s.pst.words 0x045) 0 24
/-- Put a packet before local injector f of hub q, numbered as FUNC of Table 7-7 (R224). -/
def localSend (s : State) (q f : Nat) (h : Row) (data : List (Row × Bool)) : State :=
  s.modFab fun x => { x with localq := smod [] x.localq (8 * q + f) (· ++ [(h, data)]) }
/-- Write n bytes (1 to 32, value v) at a host address by HOST_WR with LEN = 0 (Table 7-4). -/
def hostWrite (s : State) (addr n v : Nat) : State :=
  localSend s 0 1 (mkHdr { dest := hostId s, src := feId s, kind := 7, addr := addr, arg := n, inl := v }) []
/-- Write whole 64-byte rows at a host address by HOST_WR packets of at most 64 rows. -/
def hostWriteRows (s : State) (addr : Nat) : List Row → State
  | [] => s
  | r :: rs =>
    hostWriteRows
      (localSend s 0 1 (mkHdr { dest := hostId s, src := feId s, kind := 7, len := 1, addr := addr }) [(r, false)])
      (addr + 64) rs

/-! Time stamps. -/

/-- Zone local time in drone ticks while it is valid, else the drone counter (R321). -/
def zoneStamp (s : State) (z : Nat) : BitVec 64 :=
  if (s.zone z).timeValid then (s.zone z).time.extractLsb' 16 64 else s.clk.count

/-! Events (R375, Tables 12-6, 12-7). -/

/-- Slots of the event ring. -/
def evtSize (e : Evt) : Nat := 2 ^ e.log2.toNat
/-- The ring is full: TAIL + 1 equals HEAD modulo the size (R367, R375). -/
def evtFull (e : Evt) : Bool := (e.tail.toNat + 1) % evtSize e == e.head.toNat % evtSize e
/-- The 32 bytes of an event entry (Table 12-6). -/
def evtBytes (e : Event) (phase : Bool) : Nat :=
  e.code.toNat + (b2n phase * 128 + match e.quarter with | none => 0 | some q => 64 + q.toNat) * 2 ^ 16 +
    e.arg.toNat * 2 ^ 32 + e.time.toNat * 2 ^ 64 + e.data.toNat * 2 ^ 128
/-- Class of an event: bits 7:4 of its code (R375). -/
def evtClass (code : BitVec 16) : Nat := fld code 4 4
/-- Write an entry at TAIL with the present phase and send its class's interrupt behind it. -/
def evtWrite (s : State) (e : Event) : State :=
  let r := s.evt
  let s := hostWrite s (r.base.toNat * 64 + 32 * r.tail.toNat) 32 (evtBytes e r.phase)
  let s := s.modEvt fun r =>
    if r.tail.toNat + 1 < evtSize r then { r with tail := r.tail + 1 } else { r with tail := 0, phase := !r.phase }
  if bit r.irqEn (evtClass e.code) then hostWrite s (r.msiAddr.toNat * 4) 4 r.msiData.toNat else s
/-- An event: kept in the history; written, or dropped and counted while the ring is full (R375). -/
def postEvent (s : State) (e : Event) : State :=
  let s := s.modEvt fun r => { r with history := (e :: r.history).take 512 }
  if !s.evt.enable then s
  else if evtFull s.evt then (s.spill (rcKey 0x220 0) s.evt.lost).modEvt fun r => { r with lost := satInc r.lost, overflow := satInc r.overflow }
  else evtWrite s e
/-- An event of the given code, quarter, argument and data at the present drone time. -/
def event (s : State) (code : Nat) (q : Option Nat) (arg : Nat) (data : BitVec 128 := 0) : State :=
  postEvent s ⟨BitVec.ofNat 16 code, q.map (BitVec.ofNat 2), BitVec.ofNat 32 arg, s.clk.count, data⟩
/-- EVT_OVERFLOW before any newer event, once room has returned (R375). -/
def evtRoom (s : State) : State :=
  if s.evt.enable && s.evt.overflow != 0 && !evtFull s.evt then
    let n := s.evt.overflow
    postEvent (s.modEvt fun r => { r with overflow := 0 }) ⟨0x00FF, none, n, s.clk.count, 0⟩
  else s

/-! Fault records. -/

/-- Word i of a record (Table 14-1). -/
def recWord (r : FaultRec) (i : Nat) : Word :=
  match i with
  | 0 => BitVec.ofNat 32 (r.kind.toNat * 2 ^ 30 + r.zone.toNat * 2 ^ 24 + r.unit.toNat * 2 ^ 16 +
      r.cause.toNat * 2 ^ 8 + r.action.toNat)
  | 1 => r.time.extractLsb' 0 32
  | 2 => r.time.extractLsb' 32 32
  | 3 => BitVec.ofNat 32 (r.x.toNat * 2 ^ 24 + r.y.toNat * 2 ^ 16 + r.gen.toNat * 2 ^ 14 + r.strikes.toNat)
  | 4 => r.step
  | 5 => r.detail.extractLsb' 0 32
  | 6 => r.detail.extractLsb' 32 32
  | 7 => r.seq
  | _ => 0
/-- Words 3 to 6 of a record, the DATA of its event (R408). -/
def recData (r : FaultRec) : BitVec 128 :=
  BitVec.ofNat 128 (packNat 32 (fun i => (recWord r (3 + i)).toNat) 4)
/-- Append a record, numbered, to the ring of 128 (R408; the first record is number 1, log 11). -/
def addRec (s : State) (r : FaultRec) : State :=
  s.modFlt fun f => { f with seq := f.seq + 1, recs := ({ r with seq := f.seq + 1 } :: f.recs).take 128 }

/-- Action codes (Table 14-3). -/
def actionCode : Action → Nat
  | .count => 0 | .replay => 1 | .steer => 2 | .degrade => 3 | .stop => 4 | .reset => 5
/-- Severity order of R412: RESET, STOP, DEGRADE, STEER, REPLAY; COUNT below all. -/
def worse (a b : Action) : Action := if actionCode a < actionCode b then b else a

/-- The service that quarter q belongs to: its lead (R376). -/
def serviceOf (s : State) (q : Nat) : Option Nat :=
  (upto 4).find? fun l => decide ((s.service l).state ≠ .off) && bit (s.service l).qmask q
/-- Low 32 bits of the step number of the quarter's service, all ones outside service (Table 14-1). -/
def stepOf (s : State) (q : Nat) : BitVec 32 :=
  match serviceOf s q with
  | some l => BitVec.ofNat 32 (s.service l).stepNo
  | none => 0xFFFFFFFF

end Sys2Proof.Machine
end

