-- ==== Sys2Proof/Machine/CuCfg.lean ====
section
/-! DEFINITION. Operand forms of a CU: the configuration (Tables 3-8 to 3-11), micro-operations (R100, Table 3-6), and the checks at loading (R64, R98, R104, R105). -/

namespace Sys2Proof.Machine

/-- Word i of a unit configuration. -/
def cfgWord (c : UnitCfg) (i : Nat) : Word := c.extractLsb' (32 * i) 32

/-! Header (Table 3-9). -/

def cfgGen (c : UnitCfg) : BitVec 2 := (cfgWord c 0).extractLsb' 30 2
def cfgFireCount (c : UnitCfg) : Nat := fld (cfgWord c 0) 0 24
def cuWfmt (c : UnitCfg) : Nat := fld (cfgWord c 1) 20 4
def cuAfmt (c : UnitCfg) : Nat := fld (cfgWord c 1) 16 4
def cuFine (c : UnitCfg) : Bool := bit (cfgWord c 1) 15
def cuOutl (c : UnitCfg) : Bool := bit (cfgWord c 1) 14
def cuMxew (c : UnitCfg) : Bool := bit (cfgWord c 1) 13
def cuMxea (c : UnitCfg) : Bool := bit (cfgWord c 1) 12
def cuSlots (c : UnitCfg) : Nat := fld (cfgWord c 1) 8 2 + 1
def cuN2tab (c : UnitCfg) : Nat := fld (cfgWord c 2) 0 16
def cuQid (c : UnitCfg) : Nat := fld (cfgWord c 3) 20 12
def cuOfmt (c : UnitCfg) : Nat := fld (cfgWord c 3) 16 4
def cuRnd (c : UnitCfg) : Bool := bit (cfgWord c 3) 15
def cuNoClip (c : UnitCfg) : Bool := bit (cfgWord c 3) 14
def cuGroups (c : UnitCfg) : Nat := fld (cfgWord c 4) 0 16 + 1
/-- OFF(s) of R108. -/
def cuOff (c : UnitCfg) : Nat → Nat
  | 0 => 0 | 1 => 2 | 2 => 5 | 3 => fld (cfgWord c 5) 0 16 | 4 => fld (cfgWord c 5) 16 16 | _ => fld (cfgWord c 6) 0 16
/-- Native formats after MX conversion. -/
def cuNatW (c : UnitCfg) : Nat := nativeFmt (cuWfmt c) false (cuMxew c)
def cuNatA (c : UnitCfg) : Nat := nativeFmt (cuAfmt c) true (cuMxea c)
/-- The mode of Table 2-11 the header sets. -/
def cuMode (c : UnitCfg) : Nat := dotMode (cuNatW c) (cuNatA c)

/-! Channel bindings (Table 3-10); a CU has 16, an MU its own table of the same entries. -/

def bindWord (c : UnitCfg) (b : Nat) : BitVec 64 := c.extractLsb' (512 + 64 * b) 64
def bValid (w : BitVec 64) : Bool := bit w 63
/-- DIR: true output. -/
def bOut (w : BitVec 64) : Bool := bit w 62
def bPort (w : BitVec 64) : Nat := fld w 58 4
def bElastic (w : BitVec 64) : Bool := bit w 57
def bSeed (w : BitVec 64) : Bool := bit w 56
def bKeep (w : BitVec 64) : Bool := bit w 55
def bRingLen (w : BitVec 64) : Nat := fld w 38 10
def bRingBase (w : BitVec 64) : Nat := fld w 28 10
def bNeed (w : BitVec 64) : Nat := fld w 0 16
/-- The bindings in use, with their numbers. -/
def bindings (c : UnitCfg) : List (Nat × BitVec 64) :=
  ((upto 16).map fun b => (b, bindWord c b)).filter fun b => bValid b.2
/-- The input (or output) binding of a port. -/
def bindOfPort (c : UnitCfg) (out : Bool) (p : Nat) : Option (Nat × BitVec 64) :=
  (bindings c).find? fun b => bOut b.2 == out && bPort b.2 == p

/-! Micro-schedule (Table 3-11). -/

/-- Entry i. DESIGN CHOICE: a micro-schedule without an END entry ends after entry 79; no rule says what it does (log 138). -/
def schedWord (c : UnitCfg) (i : Nat) : Word := if i < 80 then cfgWord c (48 + i) else 0x80000000
/-- Kind: 0 STEP, 1 LOOP, 2 END, 3 CONFIG fault. -/
def schKind (w : Word) : Nat := fld w 30 2
def schRepeat (w : Word) : Nat := fld w 24 6
def schPopA (w : Word) : Option Nat := if bit w 19 then some (fld w 20 4) else none
def schPopB (w : Word) : Option Nat := if bit w 14 then some (fld w 15 4) else none
def schPush (w : Word) : Option Nat := if bit w 9 then some (fld w 10 4) else none
def schAdv (w : Word) (s : Nat) : Bool := bit w (3 + s)
def schTarget (w : Word) : Nat := fld w 23 7
def schCount (w : Word) : Nat := fld w 7 16

/-! Micro-operations (R100, Table 3-6). -/

def uopWord (c : UnitCfg) (stage pc : Nat) : Word := cfgWord c (128 + 64 * stage + pc % 64)
def uOp (w : Word) : Nat := fld w 26 6
def uSA (w : Word) : Nat := fld w 21 5
def uSB (w : Word) : Nat := fld w 16 5
def uSD (w : Word) : Nat := fld w 11 5
def uImm (w : Word) : Nat := fld w 0 11
def uLdbW (w : Word) : Bool := bit w 25
def uLdbA (w : Word) : Bool := bit w 24
def uLdbPer (w : Word) : Bool := bit w 23
/-- LDV's BF16 bit. -/
def uLdvBf16 (w : Word) : Bool := bit w 25
def uWRing (w : Word) : Nat := fld w 19 4
def uARing (w : Word) : Nat := fld w 15 4
def uORing (w : Word) : Nat := fld w 11 4
def uSlot (w : Word) : Nat := fld w 0 2

/-- Latency of a micro-operation (Tables 3-6, 3-7); stage 2's is the slot's own (R96). DESIGN CHOICE: NOP of stage 5, to which Table 3-6 gives none, adds 2 to a PUSH (R108, log 138). -/
def uopLatency (stage op : Nat) : Nat :=
  match stage with
  | 0 => 2
  | 1 => 3
  | 3 => if op = 1 ∨ op = 2 then 3 else if op = 0x0A then 2 else 1
  | 4 => match op with
    | 1 => 8 | 2 => 6 | 3 => 8 | 4 => 6 | 5 => 6 | 6 => 8 | 7 => 8 | 8 => 10 | 9 => 10 | 10 => 10 | 11 => 6 | _ => 1
  | 5 => if op = 1 then 3 else 2
  | _ => 0
/-- Codes listed in Table 3-6 for a stage (NOP and WRAP in every stage). -/
def uopListed (stage op : Nat) : Bool :=
  op == 0 || op == 0x3F ||
    match stage with
    | 0 => op == 1 || op == 2
    | 1 | 2 => op == 1
    | 3 => 1 ≤ op && op ≤ 0x0B
    | 4 => (1 ≤ op && op ≤ 0x0B) || op == 0x10
    | _ => 1 ≤ op && op ≤ 3
/-- Stage 3 operations read SB (Table 3-6). -/
def uopUsesB (op : Nat) : Bool := 1 ≤ op && op ≤ 7
/-- Stage 3 operand codes that may be read (Table 3-5). DESIGN CHOICE: the spec names no consequence of reading OUT, which is write only; it is a CONFIG fault here (log 117). -/
def selReadable (c : Nat) : Bool := c ≤ 21
/-- Stage 3 operand codes that may be written (Table 3-5), IN among them. DESIGN CHOICE: the spec names no consequence of writing a slot result, which is read only; it is a CONFIG fault here (log 117). -/
def selWritable (c : Nat) : Bool := c ≤ 15 || (20 ≤ c && c ≤ 22)
/-- Bits of IMM that Table 3-6 gives a stage 3 operation: all of them where PK is an operand, [4:0] for ROT, [8:0] for SCL, else none. -/
def immWidth (w : Word) : Nat :=
  if uSA w == 21 || (uopUsesB (uOp w) && uSB w == 21) || uSD w == 21 then 11
  else if uOp w = 9 then 5 else if uOp w = 0x0B then 9 else 0
/-- Operand bits that Table 3-6 gives no meaning for an operation are 0 (R100, R104). DESIGN CHOICE: only Table 3-9 says that bits it does not list are reserved; the model takes those of Tables 3-6, 3-10 and 3-11 so too (log 117). -/
def uopReservedOk (stage : Nat) (w : Word) : Bool :=
  let op := uOp w
  match stage, op with
  | _, 0 | _, 0x3F => fld w 0 26 == 0
  | 0, 1 => fld w 0 11 == 0
  | 0, 2 => fld w 0 19 == 0 && fld w 23 2 == 0
  | 2, 1 => fld w 2 24 == 0
  | 3, _ =>
    (uopUsesB op || uSB w == 0) && decide (uImm w < 2 ^ immWidth w)
  | _, _ => fld w 0 26 == 0
/-- A micro-operation is legal in its stage (R98, R100). An ACC of a slot that is not active is no CONFIG fault: no rule of the chapter names it one (log 117). DESIGN CHOICE: a SEL whose SD is OUT loads, and reads the OUT that stands there, though Table 3-5 marks OUT write only (log 117). -/
def uopOk (stage : Nat) (w : Word) : Bool :=
  let op := uOp w
  uopListed stage op && uopReservedOk stage w &&
    (if stage == 3 && op != 0 && op != 0x3F then
      selReadable (uSA w) && (!uopUsesB op || selReadable (uSB w)) && selWritable (uSD w)
     else true)

/-- A loop nesting deeper than 4 (Table 3-11): entry i lies in the bodies of more than four LOOP entries. -/
def loopsOver (c : UnitCfg) (i : Nat) : Nat :=
  ((upto 80).filter fun j => schKind (schedWord c j) == 1 && decide (i ≤ j) && decide (schTarget (schedWord c j) ≤ i)).length
/-- Entries up to the first END. -/
def schedLen (c : UnitCfg) : Nat := ((upto 80).find? fun i => schKind (schedWord c i) == 2).getD 80
/-- A micro-schedule entry is legal (R107), also behind an END, its bits that Table 3-11 does not list 0 (log 117). DESIGN CHOICE: Table 3-11 says that TARGET must be lower than the entry's index and names no consequence; another TARGET is a CONFIG fault here (log 117). -/
def schedOk (c : UnitCfg) (i : Nat) : Bool :=
  let w := schedWord c i
  match schKind w with
  | 0 => fld w 0 3 == 0
  | 1 => decide (schTarget w < i) && fld w 0 7 == 0 && decide (loopsOver c i ≤ 4)
  | 2 => fld w 0 30 == 0
  | _ => false
/-- The binding table is legal (R105, Table 3-10): ports 0 to 8, one binding a direction a port, ELASTIC on inputs only, NEED at least 1 (log 80), the bits that Table 3-10 does not list 0 in every entry, also one that is not VALID (log 117). -/
def bindingsOk (c : UnitCfg) (n : Nat) : Bool :=
  let all := (upto n).map fun b => (b, bindWord c b)
  let bs := all.filter fun b => bValid b.2
  all.all (fun b => fld b.2 48 7 == 0 && fld b.2 16 12 == 0) &&
    bs.all fun b =>
      let w := b.2
      decide (bPort w ≤ 8) && (!bOut w || !bElastic w) && decide (1 ≤ bNeed w) &&
        decide ((bs.filter fun d => bOut d.2 == bOut w && bPort d.2 == bPort w).length = 1)
/-- Header bits that Table 3-9 does not list are 0. -/
def headerOk (c : UnitCfg) : Bool :=
  fld (cfgWord c 0) 24 6 == 0 && fld (cfgWord c 1) 24 8 == 0 && fld (cfgWord c 1) 10 2 == 0 &&
    fld (cfgWord c 1) 0 8 == 0 && fld (cfgWord c 2) 16 16 == 0 && fld (cfgWord c 3) 0 14 == 0 &&
    fld (cfgWord c 4) 16 16 == 0 && fld (cfgWord c 6) 16 16 == 0 && (upto 9).all fun i => cfgWord c (7 + i) == 0

/-- Operations of stage 3's program before its first WRAP: the n-th advance executes the operation of index n modulo this length (R100, R109). -/
def stage3Len (c : UnitCfg) : Nat := ((upto 64).find? fun k => uOp (uopWord c 3 k) == 0x3F).getD 64
/-- How often a body that runs q times is followed: the operations of a pass depend on the advances so far modulo the program's length alone, so passes beyond two such periods show nothing new. -/
def passes (len q : Nat) : Nat := if q ≤ 3 * len then q else q % len + 2 * len
/-- k advancing cycles of stage 3 from cycle t and advance n on: a result that completes with one of the two before it in one destination, and the latest two (R98). -/
def clashCycles (c : UnitCfg) (len : Nat) : Nat → Nat → Nat → List (Nat × Nat) → Bool × List (Nat × Nat)
  | 0, _, _, recent => (false, recent)
  | k + 1, t, n, recent =>
    let w := uopWord c 3 (n % len)
    let d := (t + uopLatency 3 (uOp w), uSD w)
    if uOp w = 0 then clashCycles c len k (t + 1) (n + 1) recent
    else if recent.contains d then (true, recent) else clashCycles c len k (t + 1) (n + 1) ((d :: recent).take 2)
/-- Follow the micro-schedule from entry i, firing after firing without a pause, `fires` more to come: whether two stage 3 results meet (R98). -/
def clashFrom (c : UnitCfg) (len : Nat) : (fuel i : Nat) → (loops : List (Nat × Nat)) → (fires t n : Nat) → List (Nat × Nat) → Bool
  | 0, _, _, _, _, _, _ => false
  | fuel + 1, i, loops, fires, t, n, recent =>
    let w := schedWord c i
    match schKind w with
    | 0 =>
      let k := schRepeat w + 1
      if schAdv w 3 then
        let r := clashCycles c len k t n recent
        r.1 || clashFrom c len fuel (i + 1) loops fires (t + k) (n + k) r.2
      else clashFrom c len fuel (i + 1) loops fires (t + k) n recent
    | 1 =>
      let k := ((loops.find? fun l => l.1 == i).map Prod.snd).getD 0 + 1
      let rest := loops.filter fun l => l.1 != i
      if k < passes len (schCount w + 1) then clashFrom c len fuel (schTarget w) ((i, k) :: rest) fires t n recent
      else clashFrom c len fuel (i + 1) rest fires t n recent
    | _ => if fires = 0 then false else clashFrom c len fuel 0 [] (fires - 1) t n recent
/-- Two stage 3 results complete in one schedule cycle into one destination (R98), in some pass of the loops or from one firing to the next where it follows at once (log 118). Results of one latency never meet. -/
def stage3Clash (c : UnitCfg) : Bool :=
  let len := stage3Len c
  let lats := (((upto len).map fun k => uOp (uopWord c 3 k)).filter (· != 0)).map (uopLatency 3)
  decide (1 < lats.dedup.length) &&
    clashFrom c len (10 ^ 14) 0 [] ((if cfgFireCount c = 0 then 2 * len else passes len (cfgFireCount c)) - 1) 0 0 []

/-- The checks on a CU configuration when it is loaded (R64, R98, R100, R104, R105, R107); true: no CONFIG fault. -/
def cuCfgOk (c : UnitCfg) : Bool :=
  headerOk c && cuMode c != 0 && decide (5 ≤ cuOfmt c ∧ cuOfmt c ≤ 10) && bindingsOk c 16 &&
    (upto 80).all (schedOk c) &&
    (upto 6).all (fun st => (upto 64).all fun k => uopOk st (uopWord c st k)) && !stage3Clash c

end Sys2Proof.Machine
end

