-- ==== Sys2Proof/Machine/MuCfg.lean ====
section
/-! DEFINITION. Operand forms of an MU: the configuration (Tables 4-3 to 4-6) and the checks at loading (R122, R124, R129, R140, R144, R145, R170). -/

namespace Sys2Proof.Machine

/-! Header (Table 4-4). -/

def muCtxselEn (c : UnitCfg) : Bool := bit (cfgWord c 0) 23
def muCtxsel (c : UnitCfg) : Nat := fld (cfgWord c 0) 16 4
def muCtxValid (c : UnitCfg) (k : Nat) : Bool := bit (cfgWord c 0) k
/-- Bore d, or replay window d - 4: EN, PORT, LEN + 1, BASE. -/
def muBoreEn (c : UnitCfg) (d : Nat) : Bool := bit (cfgWord c (1 + d)) 31
def muBorePort (c : UnitCfg) (d : Nat) : Nat := fld (cfgWord c (1 + d)) 27 4
def muBoreRows (c : UnitCfg) (d : Nat) : Nat := fld (cfgWord c (1 + d)) 13 13 + 1
def muBoreBase (c : UnitCfg) (d : Nat) : Nat := fld (cfgWord c (1 + d)) 0 13
/-- The enabled bore of an input port: base and rows. -/
def boreOf (c : UnitCfg) (p : Nat) : Option (Nat × Nat) :=
  ((upto 4).find? fun d => muBoreEn c d && muBorePort c d == p).map fun d => (muBoreBase c d, muBoreRows c d)
/-- Row r lies in an enabled bore (0-3) or replay window (4-7). -/
def inRegion (c : UnitCfg) (d r : Nat) : Bool :=
  muBoreEn c d && decide (muBoreBase c d ≤ r ∧ r < muBoreBase c d + muBoreRows c d)
def inBore (c : UnitCfg) (r : Nat) : Bool := (upto 4).any fun d => inRegion c d r
def inReplay (c : UnitCfg) (r : Nat) : Bool := (upto 4).any fun d => inRegion c (4 + d) r

/-! Contexts (Tables 4-3, 4-5, 4-6). -/

/-- Word i of context k's 480 bytes. -/
def ctxWord (c : UnitCfg) (k i : Nat) : Word := cfgWord c (32 + 120 * k + i)
def muBindWord (c : UnitCfg) (k b : Nat) : BitVec 64 := c.extractLsb' (1024 + 3840 * k + 64 * b) 64
def muBindings (c : UnitCfg) (k : Nat) : List (Nat × BitVec 64) :=
  ((upto 16).map fun b => (b, muBindWord c k b)).filter fun b => bValid b.2
/-- Word i of AG a of context k. -/
def agWord (c : UnitCfg) (k a i : Nat) : Word := ctxWord c k (32 + 16 * a + i)
def muFireCount (c : UnitCfg) (k : Nat) : Nat := fld (ctxWord c k 96) 0 24

/-- An AG descriptor (Table 4-5). -/
structure Ag where
  kind : Nat
  replayW : Bool
  bind : Nat
  depth : Nat
  stk : Nat
  leader : Nat
  follow : Bool
  start : Nat
  sbase : Nat
  wlen : Nat
  wbase : Nat
  hi : Nat
  lo : Nat
  tbase : Nat
  sstride : List Int
  count : List Nat
  tstride : List Int
  istride : Nat
  ilimit : Nat
  ibind : Nat
  lag : Nat
  deriving DecidableEq, Repr

/-- AG a of context k. -/
def agOf (c : UnitCfg) (k a : Nat) : Ag :=
  let w (i : Nat) := agWord c k a i
  { kind := fld (w 0) 29 3, replayW := bit (w 0) 28, bind := fld (w 0) 24 4, depth := fld (w 0) 22 2 + 1,
    stk := fld (w 0) 20 2, leader := fld (w 0) 18 2, follow := bit (w 0) 17, start := fld (w 0) 0 16,
    sbase := fld (w 1) 0 13, wlen := fld (w 2) 13 13, wbase := fld (w 2) 0 13, hi := fld (w 3) 13 13,
    lo := fld (w 3) 0 13, tbase := (w 4).toNat,
    sstride := (upto 4).map fun l => ((w (5 + 2 * l)).extractLsb' 16 16).toInt,
    count := (upto 4).map fun l => fld (w (5 + 2 * l)) 0 16,
    tstride := (upto 4).map fun l => (w (6 + 2 * l)).toInt,
    istride := (w 13).toNat, ilimit := (w 14).toNat, ibind := fld (w 15) 16 4, lag := fld (w 15) 0 16 }

def agOff : Nat := 0
def agSend : Nat := 1
def agRecv : Nat := 2
def agFetch : Nat := 3
def agStore : Nat := 4
def agGather : Nat := 5
def agSgather : Nat := 6

/-- Iterations of one pass of an AG's nest. -/
def agTotal (a : Ag) : Nat := ((upto a.depth).map fun l => nth 0 a.count l + 1).prod
/-- Loop index of level l at iteration n of a pass, level 0 innermost (R123). -/
def agIndex (a : Ag) (n l : Nat) : Nat :=
  if a.depth ≤ l then 0
  else n / ((upto l).map fun j => nth 0 a.count j + 1).prod % (nth 0 a.count l + 1)
def agSum (st : List Int) (a : Ag) (n : Nat) : Int :=
  ((upto 4).map fun l => (agIndex a n l : Int) * nth 0 st l).sum
/-- SRAM row of iteration n with index entry idx, before the LO-HI check (R123). -/
def agSram (a : Ag) (n idx : Nat) : Int :=
  let s := (a.sbase : Int) + agSum a.sstride a n + (if a.kind = 6 then (idx * a.istride : Int) else 0)
  if a.wlen = 0 then s else a.wbase + (s - a.wbase) % a.wlen
/-- Stack row of iteration n with index entry idx (R123). -/
def agStack (a : Ag) (n idx : Nat) : Int :=
  (a.tbase : Int) + agSum a.tstride a n + (if a.kind = 5 then (idx * a.istride : Int) else 0)
/-- Rows of a stack as STK names it (R124). -/
def stackRows (stk : Nat) : Nat := if stk = 2 then 1500000000 else 2500000000

/-! Checks at loading. -/

/-- The AGs of a context are legal: KIND, STK (3 in no descriptor), LEADER, their bindings, reserved bits (R122, R124, R129, R144). -/
def agOk (c : UnitCfg) (k a : Nat) : Bool :=
  let g := agOf c k a
  let w (i : Nat) := agWord c k a i
  let b (n : Nat) := muBindWord c k n
  let outOk (n : Nat) := bValid (b n) && bOut (b n)
  let inOk (n : Nat) := bValid (b n) && !bOut (b n)
  g.kind != 7 && g.stk != 3 && !bit (w 0) 16 && fld (w 1) 13 19 == 0 && fld (w 2) 26 6 == 0 && fld (w 3) 26 6 == 0 &&
    fld (w 15) 20 12 == 0 &&
    (!g.follow || (g.leader != a && (agOf c k g.leader).kind != 0)) &&
    (g.kind == 0 ||
      (g.kind != 4 || g.stk == 2) &&
      (!(g.kind == 1 || g.kind == 6) || outOk g.bind) && (g.kind != 2 || inOk g.bind) &&
      (!(g.kind == 5 || g.kind == 6) || inOk g.ibind))
/-- The bindings of a context are legal (R105, R145, Table 4-4): no ring, KEEP or SEED, ELASTIC on inputs only, none on the context-select port, reserved bits 0 in every entry. DESIGN CHOICE: an output binding on the context-select port is one that binds it too (Table 4-4, log 148). -/
def muBindingsOk (c : UnitCfg) (k : Nat) : Bool :=
  let bs := muBindings c k
  (upto 16).all (fun b => fld (muBindWord c k b) 48 7 == 0 && fld (muBindWord c k b) 16 12 == 0) && bs.all fun b =>
    let w := b.2
    decide (bPort w ≤ 8) && fld w 48 9 == 0 && fld w 16 32 == 0 && (!bOut w || !bElastic w) && decide (1 ≤ bNeed w) &&
      !(muCtxselEn c && bPort w == muCtxsel c) &&
      decide ((bs.filter fun d => bOut d.2 == bOut w && bPort d.2 == bPort w).length = 1)
/-- A bore or window is legal: within the SRAM, no two bores overlap (R140, Table 4-4), and no bore on a port bound as a static input in any context (R170). -/
def muRegionOk (c : UnitCfg) (d : Nat) : Bool :=
  fld (cfgWord c (1 + d)) 26 (if d < 4 then 1 else 5) == 0 &&
    (!muBoreEn c d ||
      (decide (muBoreBase c d + muBoreRows c d ≤ 8192) &&
        (4 ≤ d ||
          (decide (muBorePort c d ≤ 8) &&
            (upto 4).all (fun e => e == d || !muBoreEn c e ||
              decide (muBoreBase c d + muBoreRows c d ≤ muBoreBase c e ∨ muBoreBase c e + muBoreRows c e ≤ muBoreBase c d)) &&
            (upto 4).all (fun k =>
              (muBindings c k).all fun b => bOut b.2 || bElastic b.2 || bPort b.2 != muBorePort c d)))))
/-- The checks on an MU configuration when it is loaded (R144 and those above), over all four contexts, also one whose CTX_VALID is 0 (log 123); true: no CONFIG fault. -/
def muCfgOk (c : UnitCfg) : Bool :=
  muCtxValid c 0 && fld (cfgWord c 0) 24 6 == 0 && fld (cfgWord c 0) 20 3 == 0 && fld (cfgWord c 0) 4 12 == 0 &&
    (!muCtxselEn c || decide (muCtxsel c ≤ 8)) &&
    (upto 8).all (muRegionOk c) && ((upto 23).all fun i => cfgWord c (9 + i) == 0) &&
    (upto 4).all fun k =>
      (upto 16).all (fun i => ctxWord c k (104 + i) == 0) && (upto 7).all (fun i => ctxWord c k (97 + i) == 0) &&
        fld (ctxWord c k 96) 24 8 == 0 &&
        muBindingsOk c k && (upto 4).all (agOk c k)

/-! Ports of a configuration of either kind. -/

/-- Input (or output) bindings in use, over every valid context of an MU. -/
def allBindings (mu : Bool) (c : UnitCfg) : List (BitVec 64) :=
  if mu then (upto 4).flatMap fun k => if muCtxValid c k then (muBindings c k).map Prod.snd else []
  else (bindings c).map Prod.snd
/-- Input ports bound in a configuration, the context-select port included (R135, R159). -/
def inputPorts (mu : Bool) (c : UnitCfg) : List Nat :=
  (upto 9).filter fun p =>
    (allBindings mu c).any (fun w => !bOut w && bPort w == p) || (mu && muCtxselEn c && muCtxsel c == p)
/-- Every grid and express port bound in any of an MU's four contexts or in a CU, the context-select port among them, has its neighbour inside the 96 × 96 grid (R154, log 123). -/
def neighboursOk (mu : Bool) (lu : Nat) (c : UnitCfg) : Bool :=
  let inside (p : Nat) : Bool := p == 8 || (neighbour lu p).isSome
  let bs := if mu then (upto 4).flatMap (muBindings c) else bindings c
  bs.all (fun b => inside (bPort b.2)) && (!(mu && muCtxselEn c) || inside (muCtxsel c))
/-- The shadow configuration's checks (R162): R104 or R144, R154, and GEN. -/
def unitCfgOk (mu : Bool) (lu : Nat) (gen : BitVec 2) (c : UnitCfg) : Bool :=
  (if mu then muCfgOk c else cuCfgOk c) && neighboursOk mu lu c && cfgGen c == gen

end Sys2Proof.Machine
end

