-- ==== Sys2Proof/Machine/RegRead.lean ====
section
/-! DEFINITION. What every register of the management window reads (R432 to R438, Tables 15-2 to 15-16), by its offset, with the quantities that registers show. Reading has no effect here; RC fields and latches are in Machine/Window.lean. -/

namespace Sys2Proof.Machine

/-! Quantities that registers show. -/

/-- Data blocks of Table 6-1. -/
def isData (b : Nat) : Bool := 6 ≤ b && b ≤ 2431
def dataBlocks : List Nat := (upto 2426).map (6 + ·)
/-- Ticks in 1 hour and in 1 ms. -/
def hourTicks : Nat := 3600 * 800000000
def msTicks : Nat := 800000
/-- AGE of a block in 2^-64 weighted hours (R195). -/
def blockAge (w : Ws) (b : Nat) : Nat := w.ageSum - (sget .init w.blocks b).born
/-- Blocks mapped in the active page table. -/
def mappedBlocks (w : Ws) : List Nat := w.table.map Prod.snd
/-- A mapped block is due for refresh: AGE has reached 70,000 or MAX_CORR 10 (R197). -/
def blockDue (w : Ws) (b : Nat) : Bool :=
  decide (70000 * 2 ^ 64 ≤ blockAge w b) || decide (10 ≤ (sget .init w.blocks b).maxCorr.toNat)
/-- Free data blocks. -/
def freeBlocks (w : Ws) : List Nat := dataBlocks.filter fun b => (sget .init w.blocks b).use == 0
/-- Retired data blocks. -/
def retiredBlocks (w : Ws) : Nat := (w.blocks.filter fun b => b.2.use == 3).length
/-- PAUSED: a chanter coasts, or has coasted and is on its way to its re-LOCK, or holds a step that was due before it (R294, Table 9-5). -/
def clkPaused (s : State) : Bool :=
  s.chanters.any fun c => c.2.state == .coasting || c.2.relock || c.2.pend.any fun p => p.2.2.2
/-- S: the sum of the last 200 values of p, divided by 200 (R334). -/
def summitS (w : Pwr) : Rat := w.win.sum / 200
/-- A whole number of W as 16 bits. -/
def watts (r : Rat) : BitVec 16 := satInt 17 r.floor |>.setWidth 16
/-- Reading of sensor i in 1/16 °C. -/
def sensor (s : State) (i : Nat) : Int := (sget 0 s.pwr.temp i).toInt
/-- The hottest of sensors a to a + n - 1, the lowest number among equals. -/
def hottest (s : State) (a n : Nat) : Nat :=
  (upto n).foldl (fun h i => if sensor s h < sensor s (a + i) then a + i else h) a
/-- H (R339, R357). -/
def hottestAll (s : State) : Int := sensor s (hottest s 0 64)
/-- 100 °C in 1/16 °C. -/
def t100 : Int := 1600
/-- PWR_TRIM word of a trim (Table 11-14). -/
def trimWord (t : Trim) : Word :=
  BitVec.ofNat 32 (b2n t.ageLimit * 2 ^ 31 + b2n t.raised * 2 ^ 30 + t.limit.toNat * 2 ^ 24 + t.ageAdded.toNat * 2 ^ 16 + t.guard_.toNat)
/-- A hinted phase is active at tick t (R340). -/
def hintActive (h : Hint) (t : Nat) : Bool :=
  match h.from_ with | some a => decide (a ≤ t ∧ t < a + 10 * msTicks) | none => false
/-- Pitch hints are honoured: normal service with PWR_CTL.HINTS 1 (R340). -/
def hintsOn (w : Pwr) : Bool := w.normal && w.hints
/-- The summit guard g at tick t (R334). -/
def summitG (w : Pwr) (t : Nat) : Rat := if hintsOn w && w.hintq.any fun h => hintActive h t then 1496 else 1615
/-- Packets with CAIRN v present in the region: in routers, accepted into a unit's injection queue, being taken in, partly received, or unacknowledged on a link (R239, R240); arrivals and proxies that routers issue are none (R258, log 150). -/
def fabCount (s : State) (v : Bool) : Nat :=
  (s.fab.pkts.filter fun p => hCairn p.hdr == v && !p.issued).length +
    (s.fab.asm.filter fun a => match a.2 with | some x => hCairn x.hdr == v && !x.drop | none => false).length +
    (s.fab.injq.map fun a => (a.2.filter fun t => t.1 && !hdrBad t.2.payload && hCairn t.2.payload == v).length).sum +
    (s.links.map fun l => (l.2.replay.filter fun e => match e.tail with | some p => hCairn p.hdr == v | none => false).length +
      (l.2.rx.filter fun e => match e.2 with | some x => hCairn x.hdr == v | none => false).length).sum
/-- PIT_ERR_FIRST (Table 8-10). -/
def pitErrFirst (p : PitQ) : Word := BitVec.ofNat 32 (p.errCause.toNat * 2 ^ 24 + p.errPiton.toNat)
/-- Number of a service state (SEQ_STATUS.STATE). -/
def svcCode : SvcState → Nat
  | .off => 0 | .starting => 1 | .serving => 2 | .draining => 3 | .halted => 4
/-- The 12 zones of a quarter. -/
def zonesOf (q : Nat) : List Nat := (upto 12).map (12 * q + ·)
/-- Belay buffers on the boundary of quarter q, both directions (R24). -/
def boundaryBelays (q : Nat) : List Nat :=
  (zonesOf q).flatMap fun z => (upto 4).flatMap fun d =>
    match zoneNext z d with
    | some w => if w / 12 == q then [] else [4 * z + d, 4 * w + oppDir d]
    | none => []
/-- FIRE_COUNT is reached (R112, R138). -/
def fireDone (x : UnitSt) (mu : Bool) : Bool :=
  if mu then muFireCount x.cfg x.mu.ctx.toNat != 0 && decide (muFireCount x.cfg x.mu.ctx.toNat ≤ x.mu.ctxFirings)
  else cfgFireCount x.cfg != 0 && decide (cfgFireCount x.cfg ≤ x.firings.toNat)

/-! Offsets. -/

/-- Index of a register that lies at base + stride × i, i < n (R434). -/
def regIdx (base stride n off : Nat) : Option Nat :=
  if base ≤ off ∧ (off - base) % stride = 0 ∧ (off - base) / stride < n then some ((off - base) / stride) else none
/-- A number as a word. -/
def w32 (n : Nat) : Word := BitVec.ofNat 32 n
/-- A 64-bit quantity behind a latched _LO register at this offset (R436). -/
def live64 (s : State) (off : Nat) : Option (BitVec 64) :=
  if off = 0x10020 then some s.clk.count
  else if off = 0x20024 then
    let z := s.str.timeSel.toNat
    some (if z < 48 ∧ (s.zone z).timeValid then (s.zone z).time.extractLsb' 16 64 else 0)
  else match regIdx 0xA0020 0x40 4 off with
  | some q => some (s.pitQ q).waitOut
  | none => match regIdx 0xA0028 0x40 4 off with
    | some q => some (s.pitQ q).waitIn
    | none => match regIdx 0x30100 8 5 off with
      | some q => some (BitVec.ofInt 64 (sget 0 s.pwr.energy q).floor)
      | none => (regIdx 0x30200 8 64 off).map fun n => BitVec.ofInt 64 (sget 0 s.pwr.energy (8 + n)).floor
/-- The word a latched pair shows at an offset: _LO live, _HI as the port's last read of _LO latched it (R436). -/
def latchedWord (s : State) (p : WinPort) (off : Nat) : Option Word :=
  match live64 s off with
  | some v => some (v.extractLsb' 0 32)
  | none => if 4 ≤ off ∧ (live64 s (off - 4)).isSome then some (sget 0 s.latch (2 * (off - 4) + portNo p)) else none

/-! Blocks. -/

/-- ZELNY_SIZE word i (Table 1-10, R39). -/
def zelny (i : Nat) : Nat :=
  [0x00010000, 4, 12, 16, 12, 144, 48, 32, 6, 65536, 2048, 64, 524288, 16, 4, 4, 16, 4, 3, 32768, 4096, 16, 2, 1, 160, 96,
   0x7FFF, 512, 1024, 65536, 24, 0xFFF3DF55].getD i 0
/-- REGION_STATUS (Table 13-10); QRESET counts the quarters that R391 holds in reset. STEP is 0 from the start of a warm reset's bring-up, which begins with step 3, to the end of that step (Table 13-5). -/
def regionStatus (b : Boot) : Word :=
  let st := match b.phase with | .ready => 1 | .failed => 2 | _ => 0
  let step := if b.isWarm && b.step == 2 then 0 else b.step.toNat
  w32 (st * 2 ^ 30 + step * 2 ^ 26 + b.fail.toNat * 2 ^ 20 + b.qfailed.toNat * 2 ^ 16 + (b.qreset ||| b.qfailed).toNat * 2 ^ 12 + b.bootMs.toNat)
/-- Table 15-2; PENDING and ACTIVE come in bring-up step 3 and read 0 until then (Table 13-13, R433). -/
def readRegion (s : State) (o : Nat) : Word :=
  let b := s.boot
  let f := s.fw
  let e := s.evt
  match o with
  | 0x00 => 0x0EF14E57
  | 0x04 => 0x00004200
  | 0x08 => w32 (b2n s.ident.enabled * 256 + s.ident.site.toNat)
  | 0x0C => s.ident.serial.extractLsb' 0 32
  | 0x10 => s.ident.serial.extractLsb' 32 32
  | 0x40 => w32 b.qreset.toNat
  | 0x44 => regionStatus b
  | 0x48 => w32 (b.cause.toNat * 2 ^ 29 + b.warmCount.toNat * 256 + b.qresets.toNat)
  | 0x4C => w32 (fld (pstRead s 0x044) 0 24)
  | 0x50 => pstRead s 0x045
  | 0x54 => w32 (b2n (f.pending && decide (3 ≤ b.step.toNat)) * 2 ^ 31 + b2n (f.active && decide (3 ≤ b.step.toNat)) * 2 ^ 30 + f.update.toNat * 2 ^ 28 + f.error.toNat * 2 ^ 24 + f.version.toNat)
  | 0x58 => w32 (f.addr.toNat % 2 ^ 26 * 64)
  | 0x5C => w32 (f.addr.toNat / 2 ^ 26)
  | 0x60 => w32 (b2n (f.update == 1))
  | 0x200 => w32 (e.base.toNat % 2 ^ 26 * 64)
  | 0x204 => w32 (e.base.toNat / 2 ^ 26)
  | 0x208 => w32 (b2n e.enable * 2 ^ 31 + e.irqEn.toNat * 256 + e.log2.toNat)
  | 0x20C => w32 e.head.toNat
  | 0x210 => w32 (b2n e.phase * 2 ^ 16 + e.tail.toNat)
  | 0x214 => w32 (e.msiAddr.toNat % 2 ^ 30 * 4)
  | 0x218 => w32 (e.msiAddr.toNat / 2 ^ 30)
  | 0x21C => e.msiData
  | 0x220 => e.lost
  | 0x340 => w32 (f.slot.toNat * 16 + b2n f.revoke * 2 + b2n f.install)
  | 0x344 => w32 (b2n (f.install || f.revoke) * 2 ^ 31 + f.result.toNat * 2 ^ 28 + f.revoked.toNat * 16 + f.enabled.toNat)
  | _ => match regIdx 0x100 4 32 o, regIdx 0x300 4 13 o with
    | some i, _ => w32 (zelny i)
    | none, some i => sget 0 f.key i
    | none, none => 0
/-- Number of a chanter's state (Table 9-16). -/
def chanterCode : ChanterState → Nat
  | .reset => 0 | .acquiring => 1 | .locked => 2 | .coasting => 3 | .failed => 4
/-- Number of a drone loop state (Table 9-9). -/
def droneCode : DroneState → Nat
  | .off => 0 | .acquiring => 1 | .locked => 2 | .holdover => 3 | .walking => 4
/-- Table 15-3, but for the latched pair. -/
def readClk (s : State) (o : Nat) : Word :=
  let c := s.clk
  match o with
  | 0x00 => w32 (droneCode c.drone * 2 ^ 29 + b2n c.lockAdv * 2 ^ 28 + b2n c.refPresent * 2 ^ 27 + c.losses.toNat)
  | 0x04 => w32 (b2n c.confirm)
  | 0x08 => w32 (c.walks.toNat * 2 ^ 24 + c.lastWalk.toNat)
  | 0x0C => c.holdover
  | 0x28 => c.load.extractLsb' 0 32
  | 0x2C => c.load.extractLsb' 32 32
  | 0x30 => w32 (b2n c.force * 2 + b2n c.arm)
  | 0x34 => w32 (b2n c.request * 2 ^ 31 + b2n (c.slewLeft != 0) * 2 ^ 30 + b2n c.loaded * 2 ^ 29)
  | 0x38 => satInt 32 c.offset
  | 0x3C => satInt 32 c.slewLeft
  | 0x40 => w32 (b2n c.moving * 2 ^ 31 + b2n (clkPaused s) * 2 ^ 30 + c.point.toNat * 2 ^ 24 + c.target.toNat * 2 ^ 16 + c.code.toNat)
  | 0x44 => w32 c.events.toNat
  | _ => match regIdx 0x100 8 48 o, regIdx 0x104 8 48 o with
    | some z, _ => w32 (s.chanter z).ctlCode.toNat
    | none, some z =>
      let h := s.chanter z
      w32 (chanterCode h.state * 2 ^ 29 + b2n h.tooLarge * 2 ^ 28 + b2n (!h.pend.isEmpty) * 2 ^ 27 + h.losses.toNat * 2 ^ 16 +
        if h.state = .reset then 0 else h.code.toNat)
    | none, none => 0
/-- PARKED[q]: quarter q's boundary crossings are parked (R308). -/
def quarterParked (s : State) (q : Nat) : Bool := (boundaryBelays q).all fun k => (s.belay k).parked
/-- Register i of zone z's STR registers (Table 15-4). -/
def strZone (s : State) (z i : Nat) : Word :=
  let c := s.zone z
  match i with
  | 0 => w32 (c.level.toNat * 2 ^ 30 + b2n c.cons * 2 ^ 29 + b2n (c.kind == .hold) * 2 ^ 28 + (c.side ||| c.sideIn).toNat * 2 ^ 24 +
      b2n c.timeValid * 2 ^ 23)
  | 1 => c.deficit
  | 2 => c.l1
  | 3 => c.l2
  | 4 => c.l3
  | 5 => c.breaths
  | 6 => c.holds
  | 7 => w32 (c.delay.toNat * 2 ^ 24 + c.corr.toNat)
  | _ => 0
/-- A crossing is parked between a quarter that is stopped and one that runs (R308): past READY, or while some quarter runs. -/
def someRuns (s : State) : Bool := s.ready || (upto 4).any s.quarterRuns
/-- Table 15-4, but for the latched pair. -/
def readStr (s : State) (o : Nat) : Word :=
  let r := s.str
  match o with
  | 0x00 => w32 (b2n r.consForce)
  | 0x04 => w32 r.alignCtl.toNat
  | 0x08 => w32 (packNat 1 (fun q => b2n (someRuns s && quarterParked s q)) 4 * 16 + r.aligned.toNat)
  | 0x0C => w32 r.events.toNat
  | 0x10 => r.tR
  | 0x20 => w32 r.timeSel.toNat
  | _ => match regIdx 0x100 4 384 o with
    | some i => strZone s (i / 8) (i % 8)
    | none => 0
/-- Table 15-5, but for the latched pairs. -/
def readPwr (s : State) (o : Nat) : Word :=
  let w := s.pwr
  match o with
  | 0x00 => w32 (b2n w.normal)
  | 0x04 => w32 (w.maxPoint.toNat * 256 + b2n w.hints)
  | 0x08 => w32 w.allot.toNat
  | 0x0C =>
    w32 (b2n w.capFloor * 2 ^ 31 + b2n w.vinWarn * 2 ^ 30 + b2n (decide (t100 ≤ hottestAll s)) * 2 ^ 29 +
      b2n (decide (summitG w s.tick ≤ summitS w)) * 2 ^ 28 + b2n (decide ((w.allotNow.toNat : Rat) < w.u)) * 2 ^ 27 +
      b2n (!w.hintq.isEmpty) * 2 ^ 26 + w.quiesced.toNat * 2 ^ 22 + w.duty.toNat)
  | 0x10 => w32 (w.vinMv.toNat * 2 ^ 16 + w.iinMa.toNat)
  | 0x14 => w32 ((watts (summitS w)).toNat * 2 ^ 16 + (watts w.u).toNat)
  | 0x18 => w.warnCount
  | 0x1C => w32 w.need.toNat
  | 0x20 => w32 w.calErr.toNat
  | 0x24 => w32 (w.dSummit.toNat * 2 ^ 24 + w.dAllot.toNat * 2 ^ 16 + w.dThermal.toNat * 2 ^ 8 + w.dVin.toNat)
  | 0x28 => w.throttle
  | 0x90 => w32 w.thermSel.toNat
  | 0x94 => w32 (sget 0 w.temp w.thermSel.toNat).toNat
  | 0x98 => w32 (hottest s 0 64 * 2 ^ 16 + (sget 0 w.temp (hottest s 0 64)).toNat)
  | _ =>
    match regIdx 0x30 4 4 o with
    | some q => trimWord (s.trim q)
    | none => match regIdx 0x40 4 8 o with
      | some k => w32 (sget 0 w.pitch k).toNat
      | none => match regIdx 0x60 4 8 o with
        | some p => w32 (sget 0 w.pointTens p / 100)
        | none => match regIdx 0x80 4 4 o with
          | some q => w32 ((s.zone (12 * q)).govBreaths / 1024)
          | none => 0
/-- State of a queue (CMD_Q_STATUS.STATE). -/
def queueState (q : CmdQ) : Nat := if q.resetting then 3 else if q.inError then 2 else if q.enable then 1 else 0
/-- Table 15-6. -/
def readCmd (s : State) (o : Nat) : Word :=
  let q := s.queue (o / 0x40)
  if 64 ≤ o / 0x40 then 0
  else match o % 0x40 with
    | 0x00 => w32 (q.sqBase.toNat % 2 ^ 26 * 64)
    | 0x04 => w32 (q.sqBase.toNat / 2 ^ 26)
    | 0x08 => w32 (q.cqBase.toNat % 2 ^ 26 * 64)
    | 0x0C => w32 (q.cqBase.toNat / 2 ^ 26)
    | 0x10 => w32 (q.sqLog2.toNat * 2 ^ 27 + q.cqLog2.toNat * 2 ^ 22 + q.irqCount.toNat * 256 + q.irqDelay.toNat)
    | 0x14 => w32 (b2n q.resetting * 2 + b2n q.enable)
    | 0x18 => w32 (queueState q * 2 ^ 30 + q.error.toNat * 2 ^ 24 + q.sqHead.toNat)
    | 0x1C => w32 (b2n q.phase * 2 ^ 16 + q.cqTail.toNat)
    | 0x20 => w32 (q.msiAddr.toNat % 2 ^ 30 * 4)
    | 0x24 => w32 (q.msiAddr.toNat / 2 ^ 30)
    | 0x28 => q.msiData
    | _ => 0
/-- Prompt positions to feed, with the tokens that REQUEUE appended (R382). -/
def promptTotal (r : Req) : Nat := r.promptLen + r.extra
/-- A request decodes once its prompt is fed (R380). -/
def decoding (r : Req) : Bool := decide (promptTotal r ≤ r.fed)
/-- Seats a request uses in its group's step: one a token fed, and one for a decoding request in any case (R380, R382). -/
def reqSeats (r : Req) : Nat := if r.feeding ≠ 0 then r.feeding else b2n (decoding r)
/-- SEQ_STATUS (Table 12-14). -/
def seqStatus (s : State) (q : Nat) : Word :=
  let v := s.service q
  let x := s.seqq q
  if v.state ≠ .off then
    w32 (svcCode v.state * 2 ^ 29 + q * 2 ^ 24 + min 255 v.pending.length * 2 ^ 16 + (v.seated.map reqSeats).sum % 2 ^ 16)
  else match x.lead with
    | some l => w32 (5 * 2 ^ 29 + l * 2 ^ 24)
    | none => 0
/-- Table 15-7. -/
def readSeq (s : State) (o : Nat) : Word :=
  let q := o / 0x40
  let x := s.seqq q
  if 4 ≤ q then 0
  else match o % 0x40 with
    | 0x00 => w32 (x.tableLo.toNat * 64)
    | 0x04 => w32 (b2n x.src * 2 ^ 31 + x.tableHi.toNat)
    | 0x08 => w32 (b2n x.drain * 4 + b2n x.stop * 2 + b2n x.start)
    | 0x0C => seqStatus s q
    | 0x10 => x.kvFree
    | 0x14 => x.steps
    | 0x18 => x.timeouts
    | _ => 0
/-- FAB of Table 15-8. -/
def readFab (s : State) (o : Nat) : Word :=
  let f := s.fab
  match o with
  | 0x00 => w32 (b2n f.injCairn * 256 + f.shadow.toNat)
  | 0x04 => w32 (b2n (bit f.seen 0) * 2 ^ 31 + fabCount s false % 2 ^ 20)
  | 0x08 => w32 (b2n (bit f.seen 1) * 2 ^ 31 + fabCount s true % 2 ^ 20)
  | 0x10 => w32 (f.selTable.toNat * 2 ^ 14 + f.selVersion.toNat * 2 ^ 13 + f.selRouter.toNat)
  | 0x14 => w32 f.key.toNat
  | 0x18 => f.data.extractLsb' 0 32
  | 0x1C => f.data.extractLsb' 32 32
  | 0x20 => w32 (f.status.toNat * 2 ^ 30 + match f.op with | some x => 2 ^ 29 + x.bits.toNat | none => 0)
  | 0x30 => f.unroute
  | 0x34 => f.first
  | _ => match regIdx 0x100 4 52 o with
    | some r => sget 0 f.thr r
    | none => 0
/-- Number of a link state (Table 7-25). -/
def linkCode : LinkState → Nat
  | .down => 0 | .training => 1 | .up => 2 | .retraining => 3 | .noPartner => 4 | .disabled => 5
/-- LNK of Table 15-8. -/
def readLnk (s : State) (o : Nat) : Word :=
  let l := s.link (o / 0x10)
  if 32 ≤ o / 0x10 then 0
  else match o % 0x10 with
    | 0x0 => w32 (b2n l.quick * 4 + b2n l.train * 2 + b2n l.enable)
    | 0x4 => w32 (linkCode l.state * 2 ^ 29 + l.sparesTx.toNat * 2 ^ 24 + l.sparesRx.toNat * 2 ^ 19 + l.partner.toNat * 256 + l.trains.toNat)
    | 0x8 => w32 (l.crcErr.toNat * 2 ^ 16 + l.retrains.toNat * 256 + l.lost.toNat)
    | _ => 0
/-- JOURNAL_POS: k of the valid journal record with the largest (R211). -/
def journalPos (w : Ws) : Nat := (w.journal.filter (·.check)).foldl (fun a r => max a r.k) 0
/-- A weight stack's registers (Table 15-9), which read 0 until bring-up step 7 has loaded them. -/
def readWs (w : Ws) (i : Nat) : Word :=
  let m := w.manifest
  let b := sget .init w.blocks w.blkSel.toNat
  let sel := decide (w.blkSel.toNat ≤ 2431)
  match i with
  | 0x00 => w.serial
  | 0x04 =>
    w32 (w.image.toNat * 2 ^ 29 + (match m with | some m => b2n (m.layout == 1) * 2 ^ 28 + m.keySlot.toNat % 4 * 2 ^ 16 + m.seq.toNat % 2 ^ 16 | none => 0) +
      w.op.toNat * 2 ^ 26 + b2n (w.refresh.any fun r => !r.copied) * 2 ^ 25 + b2n w.switchWait * 2 ^ 24)
  | 0x08 => w32 ((freeBlocks w).length % 2 ^ 12 * 2 ^ 20 + (mappedBlocks w).length % 2 ^ 12 * 2 ^ 8 + min 255 (retiredBlocks w))
  | 0x0C =>
    w32 ((w.blocks.filter fun e => isData e.1).foldl (fun a e => max a e.2.programs.toNat) 0 * 2 ^ 20 +
      ((mappedBlocks w).filter (blockDue w)).length % 2 ^ 12)
  | 0x10 => w32 (b2n w.jValid * 2 ^ 31 + w.jError.toNat * 2 ^ 16 + journalPos w % 256)
  | 0x14 => w32 (w.uncorr.toNat * 2 ^ 16 + w.rescue.toNat * 256 + w.unmapped.toNat)
  | 0x18 => w32 w.blkSel.toNat
  | 0x1C =>
    if sel then
      w32 (b.programs.toNat * 2 ^ 20 + (if isData w.blkSel.toNat then b.use.toNat else 2) * 2 ^ 18 + b.maxCorr.toNat * 2 ^ 13 + b.corr.toNat)
    else 0
  | 0x20 => if sel then w32 (blockAge w w.blkSel.toNat / 2 ^ 64) else 0
  | _ => 0
/-- Table 15-9. -/
def readStk (s : State) (o : Nat) : Word :=
  if o < 0x200 then
    let w := s.wst (o / 0x40)
    if w.loaded || o % 0x40 == 0x18 then readWs w (o % 0x40) else 0
  else
    let k := (o - 0x200) / 0x40
    let x := s.kst k
    if 4 ≤ k then 0
    else match o % 0x40 with
      | 0x0 => x.serial
      | 0x4 => w32 (b2n x.trained * 2 ^ 31 + b2n x.failed * 2 ^ 30 + b2n x.hot * 2 ^ 29)
      | 0x8 => x.corr
      | 0xC => w32 (x.uncorr.toNat * 2 ^ 16 + x.rmwFail.toNat)
      | _ => 0
/-- Table 15-10, but for the latched pairs. -/
def readPit (s : State) (o : Nat) : Word :=
  let q := o / 0x40
  let x := s.pitQ q
  let p := s.piton (32768 * q + x.sel.toNat)
  if 4 ≤ q then 0
  else match o % 0x40 with
    | 0x00 => w32 x.sel.toNat
    | 0x04 => p.count
    | 0x08 => p.target
    | 0x0C =>
      w32 (b2n p.tgtValid * 2 ^ 31 + b2n p.done * 2 ^ 30 + b2n p.fenced * 2 ^ 29 + b2n p.overrun * 2 ^ 28 + b2n p.chained * 2 ^ 27 +
        b2n p.remote * 2 ^ 26 + p.cause.toNat * 2 ^ 24 + p.waiters.length % 8)
    | 0x10 => w32 (p.chainN.toNat * 2 ^ 17 + p.chainPiton.toNat)
    | 0x14 => w32 (x.overruns.toNat * 2 ^ 16 + x.refused.toNat * 256 + x.badOp.toNat)
    | 0x18 => pitErrFirst x
    | 0x1C => w32 (b2n x.clearAll)
    | _ => 0
/-- Table 15-11. -/
def readFlt (s : State) (o : Nat) : Word :=
  let f := s.flt
  match o with
  | 0x00 => w32 f.summary.toNat
  | 0x04 => w32 f.mask.toNat
  | 0x08 => w32 (f.strikes.toNat * 16)
  | 0x0C =>
    w32 (packNat 1 (fun q => b2n (s.quarter q).halted) 4 * 256 + packNat 1 (fun q => b2n (s.quarter q).unbacked) 4 * 16 +
      packNat 1 (fun q => b2n (s.quarter q).degraded) 4)
  | 0x20 => w32 f.fenceStk.toNat
  | 0x24 => w32 (f.recIndex.toNat * 8 + f.recWord.toNat)
  | 0x28 => match f.recs[f.recIndex.toNat]? with
    | some r => recWord r f.recWord.toNat
    | none => 0
  | 0x2C => w32 f.recs.length
  | 0x30 => w32 f.fieldSel.toNat
  | 0x34 => match f.field with
    | some l => l.getD f.fieldSel.toNat 0
    | none => 0
  | 0x38 => w32 (b2n f.field.isSome * 2 ^ 31)
  | _ => match regIdx 0x10 4 4 o, regIdx 0x100 4 48 o with
    | some q, _ => (s.quarter q).avail
    | none, some z => s.fenceWord z
    | none, none => 0
/-- Table 15-12. -/
def readPst (s : State) (o : Nat) : Word :=
  let p := s.pst
  match o with
  | 0x4000 => w32 (b2n (!p.busy.isEmpty) * 2 ^ 31 + b2n p.worn * 2 ^ 30 + b2n p.bad * 2 ^ 29 + p.wornWord.toNat)
  | 0x4004 => w32 p.wearSel.toNat
  | 0x4008 => w32 (sget 0 p.writes p.wearSel.toNat)
  | _ => match regIdx 0 4 4096 o with
    | some i => pstRead s i
    | none => 0
/-- Table 15-13. -/
def readCfg (s : State) (o : Nat) : Word :=
  let c := s.cfgQ (o / 0x40)
  if 4 ≤ o / 0x40 then 0
  else match o % 0x40 with
    | 0x00 => w32 (c.planLo.toNat * 64)
    | 0x04 => w32 (b2n c.src * 2 ^ 31 + c.planHi.toNat)
    | 0x08 => w32 c.entries.toNat
    | 0x0C => w32 (b2n c.abort * 2 + b2n c.start)
    | 0x10 => w32 (c.state.toNat * 2 ^ 30 + c.error.toNat * 2 ^ 24 + c.entry.toNat)
    | _ => 0
/-- Unit item i of physical unit u (Tables 3-13, 4-7). -/
def unitItem (s : State) (u i : Nat) : Word :=
  let x := s.unit u
  let w := s.fenceWord (physZone u)
  let mu := isMu u
  match i with
  | 0 =>
    let st := if fenceOut w || fenceCol w (physCol u) then 3 else if x.firing then 1 else if fireDone x mu then 2 else 0
    w32 (x.gen.toNat * 2 ^ 30 + st * 2 ^ 28 + if mu then x.mu.ctx.toNat * 2 ^ 26 + x.mu.ctxFirings % 2 ^ 24 else x.firings.toNat)
  | 7 => if mu then w32 (x.borePeak.toNat * 2 ^ 16 + x.ctxSwitches.toNat) else 0
  | _ => if 1 ≤ i ∧ i ≤ 6 then sget 0 x.ctr i else 0
/-- Arithmetic item i of unit n of zone z; an MU or a number above 203 has none (Tables 2-15, 2-16). -/
def arithItem (s : State) (z n i : Nat) : Word :=
  let c := (s.unit (204 * z + n)).cu
  if 203 < n ∨ isMu (204 * z + n) then 0 else if i = 37 then w32 c.flags.toNat else if i < 37 then sget 0 c.items i else 0
/-- A zone page (Table 15-15): the Reset column, 0, while its quarter is in reset (R438). -/
def readZone (s : State) (z o : Nat) : Word :=
  let p := s.zpage z
  if (s.quarter (z / 12)).inReset then 0
  else match o with
    | 0x800 => w32 (p.arithUnit.toNat * 256 + p.arithItem.toNat)
    | 0x804 => arithItem s z p.arithUnit.toNat p.arithItem.toNat
    | 0x808 => w32 p.summary.toNat
    | 0x810 => w32 (p.unitUnit.toNat * 256 + p.unitItem.toNat)
    | 0x814 => if 203 < p.unitUnit.toNat then 0 else unitItem s (204 * z + p.unitUnit.toNat) p.unitItem.toNat
    | 0x820 => w32 p.dlwCount.toNat
    | 0x824 => w32 (b2n p.tripped * 2 ^ 31 + p.recs.length)
    | 0x828 => w32 p.dlwSel.toNat
    | 0x82C => p.recs.getD p.dlwSel.toNat 0
    | _ => 0
/-- A doorbell page (Table 15-16, R363). -/
def readDoorbell (q : CmdQ) (o : Nat) : Word :=
  match o with
  | 0 => w32 q.dbTail.toNat
  | 4 => w32 q.dbHead.toNat
  | _ => 0
/-- What a register shows at an offset of the window (Table 15-1), 0 where there is none (R8). -/
def regValue (s : State) (p : WinPort) (off : Nat) : Word :=
  match latchedWord s p off with
  | some w => w
  | none =>
    let o := off % 0x10000
    match off / 0x10000 with
    | 0x0 => readRegion s o
    | 0x1 => readClk s o
    | 0x2 => readStr s o
    | 0x3 => readPwr s o
    | 0x4 => readCmd s o
    | 0x5 => readSeq s o
    | 0x6 => readFab s o
    | 0x8 => readLnk s o
    | 0x9 => readStk s o
    | 0xA => readPit s o
    | 0xB => readFlt s o
    | 0xC => readPst s o
    | 0xD => readCfg s o
    | b =>
      if 0x10 ≤ b ∧ b < 0x1C then readZone s ((off - 0x100000) / 0x4000) (off % 0x4000)
      else if 0x40 ≤ b ∧ b < 0x44 then readDoorbell (s.queue ((off - 0x400000) / 0x1000)) (off % 0x1000)
      else 0

end Sys2Proof.Machine
end

