-- ==== Sys2Proof/Machine/FieldRec.lean ====
section
/-! DEFINITION. The field record (R428, Table 14-11). -/

namespace Sys2Proof.Machine

/-- The header of a field record: 16 words (R428, Table 14-11); the order within the 64 bytes is DEDUCED (log 13). -/
def fieldHead (s : State) (trigger : Word) : List Word :=
  [1, s.ident.serial.extractLsb' 0 32, s.ident.serial.extractLsb' 32 32,
   BitVec.ofNat 32 (s.ident.site.toNat + b2n s.ident.enabled * 256), 0x00004200, s.fw.version.zeroExtend 32,
   s.clk.count.extractLsb' 0 32, s.clk.count.extractLsb' 32 32, trigger] ++ List.replicate 7 0
/-- The 128 records, newest first, absent ones 0. -/
def fieldRecs (s : State) : List Word :=
  (upto 128).flatMap fun i => (upto 8).map fun w =>
    match s.flt.recs[i]? with
    | some r => recWord r w
    | none => 0
/-- The last 512 events as entries with PHASE 0. -/
def fieldEvents (s : State) : List Word :=
  (upto 512).flatMap fun i => (upto 8).map fun w =>
    match s.evt.history[i]? with
    | some e => BitVec.ofNat 32 (evtBytes e false / 2 ^ (32 * w))
    | none => 0
/-- Persistent-store words 0x000 to 0x7FF, then their write counts. -/
def fieldPst (s : State) : List Word :=
  (upto 2048).map (pstRead s) ++ (upto 2048).map fun w => BitVec.ofNat 32 (sget 0 s.pst.writes w)

/-- n words in 4-byte steps from an offset of the window, as the ring port shows them. -/
def regsFrom (s : State) (base n : Nat) : List Word := (upto n).map fun i => regValue s .ring (base + 4 * i)
/-- A list of words, 0 up to n of them. -/
def padTo (n : Nat) (l : List Word) : List Word := (l ++ List.replicate n 0).take n
/-- Registers of the REGION, CLK, STR, PWR, FLT, STK, PIT_ERR, FAB and LNK blocks, 1,008 words; the spec does not give their order, the tables' own is taken (log 13). -/
def fieldRegs (s : State) : List Word :=
  padTo 1008 (regsFrom s 0x00000 5 ++ regsFrom s 0x00040 9 ++ regsFrom s 0x00100 32 ++ regsFrom s 0x00200 9 ++ regsFrom s 0x00300 13 ++
    regsFrom s 0x00340 2 ++ regsFrom s 0x10000 4 ++ regsFrom s 0x10020 10 ++ regsFrom s 0x10100 96 ++ regsFrom s 0x20000 5 ++
    regsFrom s 0x20020 3 ++ regsFrom s 0x30000 11 ++ regsFrom s 0x30030 27 ++ regsFrom s 0x30100 10 ++ regsFrom s 0x30200 128 ++
    regsFrom s 0xB0000 15 ++ regsFrom s 0xB0100 48 ++ (upto 8).flatMap (fun k => regsFrom s (0x90000 + 0x40 * k) 9) ++
    (upto 4).flatMap (fun k => regsFrom s (0x90200 + 0x40 * k) 4) ++ (upto 4).flatMap (fun q => regsFrom s (0xA0014 + 0x40 * q) 1) ++
    regsFrom s 0x60000 3 ++ regsFrom s 0x60010 5 ++ regsFrom s 0x60030 2 ++ regsFrom s 0x60100 52 ++
    (upto 32).flatMap (fun n => regsFrom s (0x80000 + 0x10 * n) 3))
/-- The trigger zone: unit items of its 204 units, deadlock records, STR_ZONE registers of all zones, 6,144 words (log 13). -/
def fieldZone (s : State) (z : Nat) : List Word :=
  padTo 6144 ((upto 204).flatMap (fun u => (upto 8).map (unitItem s (204 * z + u))) ++ padTo 16 (s.zpage z).recs ++
    (upto 48).flatMap fun k => (upto 8).map (strZone s k))
/-- Capture the field record while none is held (R428). -/
def captureField (s : State) (trigger : Word) (z : Nat) : State :=
  if s.flt.field.isSome then s
  else s.modFlt fun f => { f with field := some (fieldHead s trigger ++ fieldRecs s ++ fieldRegs s ++ fieldZone s z ++
    fieldEvents s ++ fieldPst s) }

end Sys2Proof.Machine
end

