-- ==== Sys2Proof/Machine/Halt.lean ====
section
/-! DEFINITION. Halting a quarter and reporting a fault: crossings of a stopped quarter (R24, R308), service states (R379), the fault collector (R408 to R411). -/

namespace Sys2Proof.Machine

/-! Services. -/

/-- SERVICE_STATE for lead l with the present state; the spec gives no code for its reason, which is a free value (log 12). -/
def postSvcState (s : State) (l : Nat) : State :=
  let (r, s) := s.takeFree 8
  event s 0x0051 (some l) (svcCode (s.service l).state + 256 * r.toNat)
/-- Change a service's state and post SERVICE_STATE (R379). -/
def setSvcState (s : State) (l : Nat) (st : SvcState) : State :=
  if (s.service l).state = st then s
  else postSvcState (s.modSvc l fun v => { v with state := st }) l

/-- Service l becomes OFF: SERVICE_STATE, its state gone, no member of it left, and SEQ_CTL's bits 0 (R378, R379, Table 12-14). -/
def svcClear (s : State) (l : Nat) : State :=
  let s := (setSvcState s l .off).modSvc l fun _ => .init
  let s := forEach (upto 4) s fun s q => s.modSeqq q fun x => if x.lead = some l then { x with lead := none } else x
  s.modSeqq l fun x => { x with start := false, stop := false, drain := false }

/-! Quarters. -/

/-- Stop a quarter's schedule counters and park its crossings to other quarters (R308). -/
def stopZones (s : State) (q : Nat) : State :=
  let s := forEach (zonesOf q) s fun s z => s.modZone z fun c => { c with running := false }
  forEach (boundaryBelays q) s fun s k => s.modBelay k fun b => { b with parked := true }
/-- Halt quarter q (R308, R410): its schedule stops, a service that is SERVING on it becomes HALTED (Table 12-9). -/
def haltQuarter (s : State) (q : Nat) : State :=
  if (s.quarter q).halted then s
  else
    let s := stopZones (s.modQuarter q fun x => { x with halted := true }) q
    let s := s.modStr fun r => { r with aligned := setBit r.aligned q false }
    match serviceOf s q with
    | some l => if (s.service l).state = .serving then setSvcState s l .halted else s
    | none => s

/-! DEGRADED quarters. -/

/-- Quarter q becomes DEGRADED: FLT_SUMMARY.DEGRADED and QUARTER_DEGRADED, reason 1 a second column, 2 a zone, 3 KS[q] (R418). -/
def degrade (s : State) (q reason : Nat) : State :=
  if (s.quarter q).degraded then s
  else
    let s := setSummary (s.modQuarter q fun x => { x with degraded := true }) sumDegraded
    event s 0x0006 (some q) (q + 256 * reason) (BitVec.ofNat 128 (s.quarter q).avail.toNat)

/-! Fencing (R413, R414). -/

/-- The fence word after physical column c is fenced, and whether a logical column became unbacked. -/
def fenceOne (w : Word) (c : Nat) : Word × Bool :=
  let spare := fenceShift w = 31 && !fenceCol w 16 && decide (c < 16)
  let w := setBit w c true
  if spare then (setFld w 22 5 c, false) else (w, true)
/-- Fence columns in ascending order. -/
def fenceMany (w : Word) (cols : List Nat) : Word × Bool :=
  cols.foldl (fun (w, d) c => let r := fenceOne w c; (r.1, d || r.2)) (w, false)
/-- Columns of zone z to be fenced for a step's faults (R414). -/
def steerCols (fs : List PendFault) (z : Nat) : List Nat :=
  (upto 17).filter fun c => fs.any fun f => (f.action == .steer || f.action == .degrade) && match f.unit with
    | some u => physZone u == z && physCol u == c
    | none => false

/-! Fault collector. -/

/-- Action of a unit cause mask before strikes (Table 14-2): the most severe of its causes. -/
def unitAction (causes : BitVec 8) : Action :=
  if bit causes 5 || bit causes 6 then .stop
  else if bit causes 2 || bit causes 3 then .steer
  else .replay
/-- Action of a zone code (Table 14-2); `twice` for BELAY after an alignment that failed twice. -/
def zoneAction (code : Nat) (twice : Bool) : Action :=
  match code with
  | 1 => .reset | 2 => .replay | 3 => if twice then .reset else .replay | 4 => .replay | 5 => .reset
  | 6 => .count | _ => .stop
/-- A lifetime counter gains 1 (R427). -/
def lifeInc (s : State) (w : Nat) : State := s.modPst fun p => { p with life := smod 0 p.life w (· + 1) }
def lifeQuarterResets : Nat := 0x083
def lifeUnitFaults : Nat := 0x084
def lifeZoneFaults : Nat := 0x085
def lifeReplays : Nat := 0x086
def lifeVinWarnings : Nat := 0x087

/-- The strike limit (Table 14-13): 0 acts as 1. -/
def strikeLimit (s : State) : Nat := if s.flt.strikes = 0 then 1 else s.flt.strikes.toNat
/-- A unit fault is detected: causes that the unit meets in one schedule cycle of its zone make one report (R113, R146). -/
def detect (s : State) (u : Nat) (causes : BitVec 8) (detail : BitVec 64) : State :=
  let t := (s.zone (physZone u)).sched
  let here (d : Detected) : Bool := d.unit == u && d.cyc == t
  s.modFlt fun f =>
    { f with detected :=
        if f.detected.any here then f.detected.map fun d =>
          if here d then { d with causes := d.causes ||| causes, detail := if d.detail = 0 then detail else d.detail } else d
        else f.detected ++ [⟨u, t, causes, detail, zoneStamp s (physZone u), (s.unit u).gen⟩] }
/-- A report of zone z is due: 4 schedule cycles have passed since a detection (R113, R146). -/
def reportDue (s : State) (z : Nat) : Bool :=
  s.flt.detected.any fun d => physZone d.unit == z && decide (d.cyc + 4 ≤ (s.zone z).sched)
/-- A unit of quarter q has a fault that is not reported yet. -/
def unreported (s : State) (q : Nat) : Bool := s.flt.detected.any fun d => physZone d.unit / 12 == q
/-- A reset of quarter q leaves no detection of its units. -/
def dropDetected (s : State) (q : Nat) : State :=
  s.modFlt fun f => { f with detected := f.detected.filter fun d => physZone d.unit / 12 != q }
/-- A step of quarter q has faults: reported, or detected and on their way to the collector. -/
def quarterFaulty (s : State) (q : Nat) : Bool := !(s.quarter q).faults.isEmpty || unreported s q
/-- The action of a unit fault whose causes are the unit's n-th strike (R410 to R412, R414): STACK_DATA in a replay that follows such a fault is STOP; a column that cannot be steered is DEGRADE, which needs no replay; what needs a third replay is STOP. -/
def faultAction (s : State) (u n : Nat) (causes : BitVec 8) : Action :=
  let z := physZone u
  let x := s.quarter (z / 12)
  let base := unitAction causes
  let act := if base = .replay && (bit causes 0 || bit causes 1) && decide (strikeLimit s ≤ n) then .steer else base
  if act = .stop || (bit causes 4 && x.dataLost) then .stop
  else if act = .steer &&
      (fenceMany (s.fenceWord z) ((upto 17).filter fun c => c == physCol u || (steerCols x.faults z).contains c)).2 then .degrade
  else if 2 ≤ x.replays then .stop
  else act
/-- Record what a unit detected (R408 to R411): strike, record, FLT_SUMMARY, UNIT_FAULT, and the fault waits for the step boundary. -/
def recordUnit (s : State) (d : Detected) : State :=
  let u := d.unit
  let causes := d.causes
  let z := physZone u
  let q := z / 12
  let strike := bit causes 0 || bit causes 1
  let s := if strike then s.modFlt fun f => { f with struck := smod 0 f.struck u fun n => if n < 255 then n + 1 else n } else s
  let n := sget 0 s.flt.struck u
  let act := faultAction s u n causes
  let lu := s.logical u
  let r : FaultRec :=
    { kind := 0, zone := BitVec.ofNat 6 z, unit := BitVec.ofNat 8 (u % 204), cause := causes,
      action := BitVec.ofNat 8 (actionCode act), time := d.time,
      x := match lu with | some l => BitVec.ofNat 8 (l % 96) | none => 0xFF,
      y := match lu with | some l => BitVec.ofNat 8 (l / 96) | none => 0xFF,
      gen := d.gen, strikes := BitVec.ofNat 8 n, step := stepOf s q, detail := d.detail, seq := 0 }
  let s := addRec s r
  let r := s.flt.recs.headD r
  let s := setSummary s sumUnit
  let s := postEvent s ⟨0x0001, some (BitVec.ofNat 2 q), recWord r 0, r.time, recData r⟩
  let s := captureField (lifeInc s lifeUnitFaults) (recWord r 0) z
  s.modQuarter q fun x => { x with faults := x.faults ++ [⟨z, some u, act, causes, false⟩] }
/-- Record a zone fault (R408, R410): RESET, and BELAY, halt the quarter at once; one that needs a third replay is STOP (R412); X and Y name the unit of a FAB_INJECT (R225, log 28). -/
def recordZone (s : State) (z code : Nat) (twice : Bool) (detail : BitVec 64) (named : Option Nat := none) : State :=
  let q := z / 12
  let act := match zoneAction code twice with
    | .replay => if 2 ≤ (s.quarter q).replays then .stop else .replay
    | a => a
  let r : FaultRec :=
    { kind := 1, zone := BitVec.ofNat 6 z, unit := 0xFF, cause := BitVec.ofNat 8 code,
      action := BitVec.ofNat 8 (actionCode act), time := zoneStamp s z,
      x := match named with | some l => BitVec.ofNat 8 (l % 96) | none => 0xFF,
      y := match named with | some l => BitVec.ofNat 8 (l / 96) | none => 0xFF, gen := 0,
      strikes := 0, step := stepOf s q, detail := detail, seq := 0 }
  let s := addRec s r
  let r := s.flt.recs.headD r
  let s := setSummary s sumZone
  let s := postEvent s ⟨0x0002, some (BitVec.ofNat 2 q), recWord r 0, r.time, recData r⟩
  let s := captureField (lifeInc s lifeZoneFaults) (recWord r 0) z
  let s := if act = .count then s else s.modQuarter q fun x =>
    { x with faults := x.faults ++ [⟨z, none, act, BitVec.ofNat 8 code, true⟩] }
  if act = .reset || code == 3 then haltQuarter s q else s
/-- Record a stack failure, code k (0-7 WS, 8-11 KS), cause 1 DEAD or 2 MEDIA (R408, Table 14-1). -/
def recordStack (s : State) (k cause : Nat) (act : Action) : State :=
  let q := if k < 8 then k / 2 else k - 8
  let r : FaultRec :=
    { kind := 2, zone := BitVec.ofNat 6 k, unit := 0xFF, cause := BitVec.ofNat 8 cause,
      action := BitVec.ofNat 8 (actionCode act), time := s.clk.count, x := 0xFF, y := 0xFF, gen := 0,
      strikes := 0, step := stepOf s q, detail := 0, seq := 0 }
  let s := addRec s r
  let r := s.flt.recs.headD r
  let s := setSummary s sumStack
  let s := postEvent s ⟨0x0003, some (BitVec.ofNat 2 q), recWord r 0, r.time, recData r⟩
  if act = .count then s else s.modQuarter q fun x =>
    { x with faults := x.faults ++ [⟨12 * q, none, act, BitVec.ofNat 8 cause, true⟩] }

end Sys2Proof.Machine
end

