-- ==== Sys2Proof/Machine/Channels.lean ====
section
/-! DEFINITION. Tokens, channels and credits (R149 to R157), ring bindings' filling (R86, R89), bores (R169 to R172), and the rows TOKEN_ARRIVAL, CREDIT_RETURN, BORE_WRITE, BORE_READBACK. -/

namespace Sys2Proof.Machine

/-! Units. -/

/-- Cause bits of a unit fault (Table 14-1). -/
def cResidue : BitVec 8 := 1
def cParity : BitVec 8 := 2
def cPocket : BitVec 8 := 4
def cSram : BitVec 8 := 8
def cStack : BitVec 8 := 16
def cBounds : BitVec 8 := 32
def cConfig : BitVec 8 := 64

/-- A unit meets a fault (R113, R146); after BOUNDS or CONFIG it fires no more (R114, R147). -/
def unitFault (s : State) (u : Nat) (causes : BitVec 8) (detail : BitVec 64) : State :=
  let s := detect s u causes detail
  if bit causes 5 || bit causes 6 then s.modUnit u fun x => { x with stopped := true } else s
/-- A unit counter of Table 3-13 or 4-7 gains n (R115). -/
def bumpBy (s : State) (u i n : Nat) : State := if n = 0 then s else s.modUnit u fun x => { x with ctr := smod 0 x.ctr i fun v => satAdd v n }
/-- A unit counter gains 1. -/
def bump (s : State) (u i : Nat) : State := s.modUnit u fun x => { x with ctr := smod 0 x.ctr i satInc }
def itStatic : Nat := 1
def itElastic : Nat := 2
def itCredit : Nat := 3
def itBank : Nat := 4
/-- SLOT_WAIT of a CU, FOLLOW_WAIT of an MU. -/
def itWait : Nat := 5
/-- POCKET_CORR of a CU, SRAM_CORR of an MU. -/
def itCorr : Nat := 6

/-- Binding table in force: a CU's, or the active context's of an MU (R134). -/
def curBindings (x : UnitSt) (mu : Bool) : List (Nat × BitVec 64) :=
  if !x.loaded then [] else if mu then muBindings x.cfg x.mu.ctx.toNat else bindings x.cfg
/-- The input (output) binding of a port in force. -/
def curBind (x : UnitSt) (mu out : Bool) (p : Nat) : Option (Nat × BitVec 64) :=
  (curBindings x mu).find? fun b => bOut b.2 == out && bPort b.2 == p

/-- A zone sees a push, pop, absorption or bore transfer, which resets its watch (R173). -/
def noteMove (s : State) (z : Nat) : State := s.modZpage z fun p => { p with moved := true }

/-! Tokens. -/

/-- PAR of a payload and tag (R150). -/
def tokenPar (payload : Row) (gen : BitVec 2) (last : Bool) : Bool :=
  xor (parityNat 512 payload.toNat) (xor (xor (bit gen 0) (bit gen 1)) last)
/-- A token with its PAR set (R150). -/
def mkToken (payload : Row) (gen : BitVec 2) (last : Bool) : Token := ⟨payload, gen, last, tokenPar payload gen last⟩
/-- The parity check of R150. -/
def parOk (t : Token) : Bool := t.par == tokenPar t.payload t.gen t.last
/-- A token with one bit flipped: 0 to 511 payload, 512 PAR, 513 LAST, 514 and 515 GEN. -/
def flipToken (t : Token) (i : Nat) : Token :=
  if i < 512 then { t with payload := t.payload ^^^ (1#512 <<< i) }
  else if i = 512 then { t with par := !t.par }
  else if i = 513 then { t with last := !t.last }
  else { t with gen := t.gen ^^^ (1#2 <<< (i - 514)) }

/-! Channels, named by their consumer's logical unit and input port. -/

/-- The belay buffer a channel passes, if it crosses a zone boundary (R153): 4 × writing zone + direction. -/
def chanBelay (lu p : Nat) : Option Nat :=
  if 8 ≤ p then none
  else match neighbour lu p with
    | some w => if zoneOf w = zoneOf lu then none else some (4 * zoneOf w + oppDir (p % 4))
    | none => none
/-- Schedule cycles of transit besides a belay buffer's 4 (Table 5-2). -/
def chanLocal (p : Nat) : Nat := if p < 4 then 1 else 2
/-- The belay buffer by which a channel's freed credits go back, if it crosses a zone boundary (R153): 4 × consumer's zone + direction. -/
def creditBelay (lu p : Nat) : Option Nat := (chanBelay lu p).map fun _ => 4 * zoneOf lu + p % 4
/-- A channel's crossing is parked or fenced (R24, R308). -/
def chanParked (s : State) (lu p : Nat) : Bool :=
  match chanBelay lu p with
  | some k => (s.belay k).parked || (s.belay k).fenced
  | none => false
/-- Credits an input port offers (R152, R169): 16, and the rows of an enabled bore. -/
def capacity (s : State) (lu p : Nat) : Nat :=
  match s.phys lu with
  | some u =>
    let x := s.unit u
    if isMu u && x.loaded then 16 + ((boreOf x.cfg p).map Prod.snd).getD 0 else 16
  | none => 16
/-- A unit that is blank, has completed FIRE_COUNT firings and pushed what they left, or has switched since generation g: nothing more of g is to be pushed by it (R163). -/
def producerDone (s : State) (lu : Nat) (g : BitVec 2) : Bool :=
  match s.phys lu with
  | none => true
  | some u =>
    let x := s.unit u
    let fc := if isMu u then muFireCount x.cfg x.mu.ctx.toNat else cfgFireCount x.cfg
    let n := if isMu u then x.mu.ctxFirings else x.firings.toNat
    !x.loaded || x.gen != g || (fc != 0 && decide (fc ≤ n) && !x.firing && x.cu.pushes.isEmpty && x.mu.sends.isEmpty)
/-- On a marked channel whose producer has pushed its last, nothing is pushed until the sequence is injected (R163). -/
def chanBlocked (s : State) (lu p : Nat) : Bool :=
  match (s.chan lu p).marked, neighbour lu p with
  | some g, some w => (s.chan lu p).closed || producerDone s w g
  | _, _ => false
/-- Unit lu's output channels whose sequence it may no longer delay stay closed, whatever it selects next (R163). -/
def closeMarked (s : State) (lu : Nat) : State :=
  forEach (upto 8) s fun s p =>
    match neighbour lu p with
    | some w => if chanBlocked s w (facing p) then s.modChan w (facing p) fun c => { c with closed := true } else s
    | none => s
/-- Credits the producer of input port p of lu holds; none while the crossing is parked (R308). -/
def creditsIn (s : State) (lu p : Nat) : Nat :=
  if chanParked s lu p then 0 else capacity s lu p - (s.chan lu p).spent
/-- Credits unit lu holds for its output port p; port 8 has the 16 places of the injection queue (R224). -/
def creditsOut (s : State) (lu p : Nat) : Nat :=
  if p = 8 then 16 - (sget [] s.fab.injq lu).length
  else match neighbour lu p with
    | some w => if chanBlocked s w (facing p) then 0 else creditsIn s w (facing p)
    | none => 0
/-- Schedule cycle at the producer's end of input port p of lu. -/
def sendCycle (s : State) (lu p : Nat) : Nat := (s.zone (zoneOf ((neighbour lu p).getD lu))).sched
/-- Put a token on its way into input port p of lu, spending a credit (R152, R153). -/
def sendInto (s : State) (lu p : Nat) (t : Token) : State :=
  noteMove (s.modChan lu p fun c =>
    { c with spent := c.spent + 1, flight := c.flight ++ [⟨t, chanLocal p, (chanBelay lu p).isSome⟩], sent := some (sendCycle s lu p) })
    (zoneOf ((neighbour lu p).getD lu))
/-- The zone router accepts a token into lu's injection queue: a header is stamped with INJ_CAIRN, its HOPS and ROUTE cleared, and its packet counts from here (R224, R239, R240). -/
def injAccept (s : State) (lu : Nat) (payload : Row) (last : Bool) : State :=
  let left := sget 0 s.fab.injLeft lu
  if left = 0 then
    let h := stampHdr payload s.fab.injCairn
    let s := s.modFab fun f =>
      { f with injq := smod [] f.injq lu (· ++ [(true, mkToken h 0 last)]), injLeft := sset 0 f.injLeft lu (hLen h) }
    if hdrBad h then s else setSeen s (hCairn h)
  else s.modFab fun f =>
    { f with injq := smod [] f.injq lu (· ++ [(false, mkToken payload 0 last)]), injLeft := sset 0 f.injLeft lu (left - 1) }
/-- Unit lu pushes a payload on its output port p, GEN stamped from the channel (R157). -/
def pushOut (s : State) (lu p : Nat) (payload : Row) (last : Bool) : State :=
  if p = 8 then
    noteMove (injAccept s lu payload last) (zoneOf lu)
  else match neighbour lu p with
    | some w => sendInto s w (facing p) (mkToken payload (s.chan w (facing p)).gen last)
    | none => s

/-- The head of an input port's queue opens or continues a configuration sequence (R158). -/
def headIsCfg (x : UnitSt) (c : Chan) (p : Nat) : Bool :=
  match c.queue with
  | t :: _ => t.gen == x.gen + 1 && !bit x.shadow.absorbed p
  | [] => false
/-- Tokens of the current generation at the head of a queue. -/
def curTokens (x : UnitSt) (c : Chan) : Nat := (c.queue.takeWhile fun t => t.gen == x.gen).length
/-- Tokens a binding holds for NEED: the queue's, and the ring's (R106). -/
def available (s : State) (lu : Nat) (x : UnitSt) (b : Nat × BitVec 64) : Nat :=
  curTokens x (s.chan lu (bPort b.2)) + if bRingLen b.2 = 0 then 0 else (sget .init x.cu.rings b.1).held

/-- Take the head token of a queue; its credit starts back (R152, R153). -/
def dropHead (s : State) (lu p : Nat) : State :=
  noteMove (s.modChan lu p fun c =>
    let c := { c with queue := c.queue.tail }
    if 8 ≤ p then c
    else if (creditBelay lu p).isSome then { c with credOut := c.credOut ++ [chanLocal p] }
    else { c with back := c.back ++ [chanLocal p] }) (zoneOf lu)
/-- The head token of a queue, which a unit is to use, has a bad parity (R150). -/
def badHead (s : State) (lu p : Nat) : Bool := match (s.chan lu p).queue with | t :: _ => !parOk t | [] => false
/-- Pop a current-generation token: none where there is none. One of bad parity is a PARITY fault and is not used (R150); the unit fires on (R409), with a free payload and LAST in its place (log 145). -/
def popToken (s : State) (lu u p : Nat) : Option Token × State :=
  match (s.chan lu p).queue with
  | t :: _ =>
    if t.gen == (s.unit u).gen then
      let s := dropHead s lu p
      if parOk t then (some t, s)
      else
        let (v, s) := (unitFault s u cParity 0).takeFree 513
        (some { t with payload := v.extractLsb' 0 512, last := v.getLsbD 512 }, s)
    else (none, s)
  | [] => (none, s)

/-! Ring bindings (R86, R89). -/

/-- Pocket rows of n bytes at byte address a (R85). -/
def rowSpan (a n : Nat) : List Nat := (upto ((a % 32 + n + 31) / 32)).map fun i => (a / 32 + i) % 2048
/-- Pocket banks of n bytes at byte address a (R85). -/
def bankSpan (a n : Nat) : List Nat := ((rowSpan a n).map (· % 16)).dedup
/-- Accesses of one schedule cycle, in the order in which the banks serve them: those that meet a bank in use are deferred (R87). -/
def deferred : List (Nat × List Nat) → List Nat → List (Nat × List Nat)
  | [], _ => []
  | a :: l, used => if a.2.any used.contains then a :: deferred l used else deferred l (used ++ a.2)
/-- The accesses of cycle t among those kept, by the priority of R87. -/
def accessesOf (l : List (Nat × Nat × List Nat)) (t : Nat) : List (Nat × List Nat) :=
  (upto 4).flatMap fun r => (l.filter fun a => a.1 == t && a.2.1 == r).map Prod.snd
/-- A unit's micro-schedule or what it has advanced is in progress. -/
def cuBusy (x : UnitSt) : Bool := x.firing || !x.cu.due.isEmpty || !x.cu.pushes.isEmpty
/-- The pocket accesses of the schedule cycles that are over, all but those in `open_`: each deferred one counts in BANK_STALL and holds the micro-schedule, if one is in progress, for a cycle (R87). -/
def closeBanks (s : State) (u : Nat) (open_ : List Nat) : State :=
  let c := (s.unit u).cu
  let past := (c.banks.map Prod.fst).dedup.filter fun t => !open_.contains t
  let d := past.flatMap fun t => deferred (accessesOf c.banks t) []
  let wait := cuBusy (s.unit u)
  let s := s.modCu u fun c =>
    { c with banks := c.banks.filter fun a => open_.contains a.1, waiting := if wait then c.waiting ++ d else c.waiting }
  forEach d s fun s _ => bump s u itBank
/-- An access of the given rank to pocket banks in cycle t (R86, R87). -/
def useBanksAt (s : State) (u t rank : Nat) (bs : List Nat) : State :=
  if bs.isEmpty then s
  else (closeBanks s u ((s.zone (physZone u)).sched :: (s.unit u).cu.stepped.toList)).modCu u fun c => { c with banks := c.banks ++ [(t, rank, bs)] }
/-- An access that a micro-operation makes: in the schedule cycle its unit has stepped into. -/
def useBanks (s : State) (u rank : Nat) (bs : List Nat) : State :=
  useBanksAt s u ((s.unit u).cu.stepped.getD (s.zone (physZone u)).sched) rank bs
/-- Move tokens from a port's queue into its ring binding while it has room, at most n. -/
def ringFill (s : State) (lu u p : Nat) : Nat → State
  | 0 => s
  | n + 1 =>
    match curBind (s.unit u) (isMu u) false p with
    | some (b, w) =>
      let x := s.unit u
      let r := sget .init x.cu.rings b
      if isMu u || bRingLen w = 0 || bRingLen w ≤ r.held || curTokens x (s.chan lu p) = 0 then s
      else
        match popToken s lu u p with
        | (some t, s) =>
          let a := 64 * (bRingBase w + r.wrTok % bRingLen w) % 65536
          let s := useBanksAt s u (s.zone (physZone u)).sched 0 (bankSpan a 64)
          let s := s.modCu u fun c =>
            { c with pocket := writeRowAt c.pocket a t.payload,
                     rings := sset .init c.rings b { r with held := r.held + 1, wrTok := (r.wrTok + 1) % bRingLen w } }
          ringFill s lu u p n
        | (none, s) => ringFill s lu u p n
    | none => s

/-! Arrival. -/

/-- An input port has come to its sequence: the head is a configuration token, or all of it is absorbed (R158, R162). -/
def atSequence (s : State) (lu : Nat) (x : UnitSt) (p : Nat) : Bool := headIsCfg x (s.chan lu p) p || bit x.shadow.absorbed p
/-- No context select can come in this generation: the MU has no CTXSEL port, or that port has come to its sequence (R135, R162). -/
def ctxFixed (s : State) (lu : Nat) (x : UnitSt) : Bool :=
  !muCtxselEn x.cfg || (atSequence s lu x (muCtxsel x.cfg) && curTokens x (s.chan lu (muCtxsel x.cfg)) == 0)
/-- STRANDED (R162): with no firing in progress and no context select waiting, an input that has come to its sequence short of NEED, or a CTXSEL port that has, leaves a current-generation token on another input, in the active context or, where no context select can come, in any. -/
def stranded (s : State) (lu u : Nat) : Bool :=
  let x := s.unit u
  let mu := isMu u
  let ins := (curBindings x mu).filter fun b => !bOut b.2
  let holds (p : Nat) : Bool := decide (0 < curTokens x (s.chan lu p))
  let others := (inputPorts mu x.cfg).filter fun p => !ins.any fun b => bPort b.2 == p
  !x.firing && x.loaded && !x.stopped &&
    !(mu && muCtxselEn x.cfg && holds (muCtxsel x.cfg)) &&
    ((ins.any fun b =>
      atSequence s lu x (bPort b.2) && decide (available s lu x b < bNeed b.2) &&
        ins.any fun d => bPort d.2 != bPort b.2 && holds (bPort d.2)) ||
     (mu && ctxFixed s lu x && others.any fun d => holds d && (inputPorts mu x.cfg).any fun p => p != d && atSequence s lu x p))
/-- Raise CONFIG for a stranded token (R162). -/
def checkStranded (s : State) (lu u : Nat) : State := if stranded s lu u then unitFault s u cConfig 0 else s
/-- A token reaches input port p of lu: behind a bore that holds tokens, or a full queue, it waits for the bore (R169); GEN_SKEW is a CONFIG fault (R162). -/
def enqueue (s : State) (lu u p : Nat) (t : Token) : State :=
  let x := s.unit u
  let c := s.chan lu p
  let spill := !c.boreRows.isEmpty || !c.spill.isEmpty || decide (16 ≤ c.queue.length)
  let s := s.modChan lu p fun c =>
    if spill then { c with spill := c.spill ++ [t] } else { c with queue := c.queue ++ [t] }
  let s := if t.gen == x.gen || t.gen == x.gen + 1 || x.stopped then s else unitFault s u cConfig 0
  checkStranded (ringFill s lu u p 16) lu u

/-- A grid channel has delivered a token in the present schedule cycle of its consumer, its one of that cycle (R14). -/
def arrivedNow (s : State) (lu p : Nat) : Bool :=
  decide (p < 8) && (s.chan lu p).arrived == some (s.zone (zoneOf lu)).sched
/-- TOKEN_ARRIVAL: the oldest token past its transit becomes poppable, one a schedule cycle (R14, R153); `flip` is an upset on the way, which the parity check meets when the token is popped (R150). A parked crossing delivers none (R308). -/
def execTokenArrival (lu : Fin 9216) (port : Fin 9) (flip : Option (Fin 516)) (s : State) :
    Host.Outcome State Fault Refusal :=
  .next <|
    match s.phys lu, (s.chan lu port).landed with
    | some u, t :: ts =>
      if chanParked s lu port || arrivedNow s lu port then s
      else
        let t := match flip with | some i => flipToken t i | none => t
        enqueue (s.modChan lu port fun c => { c with landed := ts, arrived := some (s.zone (zoneOf lu)).sched }) lu u port t
    | _, _ => s

/-- CREDIT_RETURN: a freed credit whose transit is over reaches the producer (R152, R153). -/
def execCreditReturn (lu : Fin 9216) (port : Fin 9) (s : State) : Host.Outcome State Fault Refusal :=
  .next <|
    if (s.chan lu port).back.contains 0 && !chanParked s lu port then
      s.modChan lu port fun c => { c with back := c.back.erase 0, spent := c.spent - 1 }
    else s

/-! Bores (R169 to R172). -/

/-- Access to SRAM bank of row r in the zone's present schedule cycle: whether the bank serves it (R119); a deferral counts in BANK_STALL. -/
def muBank (s : State) (u r : Nat) : Bool × State :=
  let t := (s.zone (physZone u)).sched
  let m := (s.unit u).mu
  let served := if m.bankCyc = t then m.banks else []
  if served.contains (r % 16) then (false, bump s u itBank)
  else (true, s.modMu u fun m => { m with bankCyc := t, banks := served ++ [r % 16] })
/-- The bore a port writes to: the enabled one, while no older bore drains of the same port, nor one of another port from any of its rows (R169, R171, R172). -/
def boreNow (s : State) (lu u p : Nat) : Option (Nat × Nat) :=
  let x := s.unit u
  if isMu u && x.loaded && (s.chan lu p).oldBore.isNone then
    (boreOf x.cfg p).filter fun b => (upto 9).all fun e => match (s.chan lu e).oldBore with
      | some o => decide (b.1 + b.2 ≤ o.1 ∨ o.1 + o.2 ≤ b.1)
      | none => true
  else none
/-- A token's tag as the bore keeps it beside the row. -/
def tagBits (t : Token) : BitVec 4 := BitVec.ofNat 4 (t.gen.toNat * 4 + 2 * b2n t.last + b2n t.par)
def ofTag (payload : Row) (g : BitVec 4) : Token := ⟨payload, g.extractLsb' 2 2, bit g 1, bit g 0⟩

end Sys2Proof.Machine
end

