-- ==== Sys2Proof/Machine/StackOps.lean ====
section
/-! DEFINITION. Reading and writing stacks (R177 to R187, R202) and the failure of a stack (R421). Stacks are numbered as in Table 14-1: 0-7 WS[s], 8-11 KS[k - 8]. -/

namespace Sys2Proof.Machine

/-- Number of the stack that STK names in quarter q (R124). -/
def stackOf (q stk : Nat) : Nat := if stk = 2 then 8 + q else 2 * q + stk
/-- Quarter of a stack. -/
def stackQuarter (st : Nat) : Nat := if st < 8 then st / 2 else st - 8
/-- The other weight stack of a quarter, its partner in the mirrored layout. -/
def partner (ws : Nat) : Nat := if ws % 2 = 0 then ws + 1 else ws - 1
/-- LAYOUT of a stack's active manifest is mirrored. -/
def mirrored (w : Ws) : Bool := match w.manifest with | some m => m.layout == 1 | none => false
/-- Stack ws is in the mirrored layout: by its own active manifest, or, where it has none, by its partner's (R184, R202, log 125). -/
def layoutMirrored (s : State) (ws : Nat) : Bool :=
  if (s.wst ws).manifest.isSome then mirrored (s.wst ws) else mirrored (s.wst (partner ws))
/-- The partner can serve stack ws: the layout is mirrored and the partner SEALED (R184, R202). -/
def partnerServes (s : State) (ws : Nat) : Bool := layoutMirrored s ws && (s.wst (partner ws)).image == 1

/-! The copies of the page table and manifest in blocks 3 and 4 (R201). -/

/-- A copy is valid: it holds a manifest and its check word is right. -/
def ImgCopy.valid (c : ImgCopy) : Bool := c.check && c.manifest.isSome
/-- SEQ of a copy's manifest. -/
def ImgCopy.seq (c : ImgCopy) : Nat := match c.manifest with | some m => m.seq.toNat | none => 0
/-- The copy in block 3 or 4. -/
def copyAt (w : Ws) (b : Nat) : ImgCopy := if b = 4 then w.copyB else w.copyA
/-- Set the copy in block 3 or 4. -/
def setCopy (w : Ws) (b : Nat) (c : ImgCopy) : Ws := if b = 4 then { w with copyB := c } else { w with copyA := c }
/-- The block of the active copy: the valid one with the larger SEQ; 0 where none is valid (R201). -/
def activeCopy (w : Ws) : Nat :=
  if w.copyA.valid && (!w.copyB.valid || decide (w.copyB.seq ≤ w.copyA.seq)) then 3 else if w.copyB.valid then 4 else 0
/-- The block of the other copy, which is written next. -/
def inactiveCopy (w : Ws) : Nat := if activeCopy w = 3 then 4 else 3
/-- Block b is erased for programming, which counts one program (R193). -/
def countProgram (w : Ws) (b : Nat) : Ws :=
  { w with blocks := smod .init w.blocks b fun k => { k with programs := satInc k.programs, born := w.ageSum } }
/-- A copy is written to the inactive block, clear of the active one (R201, R208). -/
def writeCopy (w : Ws) (c : ImgCopy) : Ws := setCopy (countProgram w (inactiveCopy w)) (inactiveCopy w) c
/-- The page table of a SEALED stack has changed under the same manifest (R197): the table is written to the inactive copy, which is closed, and the copy that was active is valid no more (log 124). -/
def rewriteCopy (w : Ws) : Ws :=
  if w.image = 1 then
    let old := activeCopy w
    let w := writeCopy w ⟨w.manifest, w.table, true, true⟩
    if old = 0 then w else setCopy w old { copyAt w old with check := false }
  else w

/-- Bytes of row r of a page in physical block b. -/
def blockAddr (b r : Nat) : Nat := 2 ^ 26 * b + 64 * (r % 1048576)
/-- Row r of a weight stack read from block b; an unmapped page reads zero rows (R179). -/
def wsRow (w : Ws) (b r : Nat) : Row := if b = 0 then 0 else readRowAt w.mem (blockAddr b r)
/-- Physical block of the page of row r, 0 where it is not mapped (R178). -/
def wsBlock (w : Ws) (r : Nat) : Nat := sget 0 w.table (r / 1048576)

/-- The stack fence word gains stack st (R421, Table 14-8). -/
def fenceStack (s : State) (st : Nat) : State :=
  let s := s.modFlt fun f => { f with fenceStk := setBit f.fenceStk st true }
  pstWrite s 0x030 (s.flt.fenceStk.zeroExtend 32)
/-- A stack is set FAILED, recorded and fenced; FENCE_CHANGE is posted (R202, R421). In the mirrored layout a weight stack's partner serves and the action is COUNT; else the quarter takes STOP, and without its work stack it is DEGRADED. -/
def failStack (s : State) (st cause : Nat) : State :=
  if bit s.flt.fenceStk st then s
  else
    let q := stackQuarter st
    let serves := decide (st < 8) && partnerServes s st
    let s := if st < 8 then s.modWs st fun w => { w with image := 3 } else s.modKs (st - 8) fun k => { k with failed := true }
    let s := fenceStack s st
    let s := recordStack s st cause (if serves then .count else .stop)
    if 8 ≤ st then degrade s q 3 else s

/-- Offsets of STK_WS_ERR of weight stack w (UNCORR, RESCUE, UNMAPPED), STK_KS_CORR and STK_KS_UNCORR (UNCORR, RMW_FAIL) of work stack k (R217). -/
def wsErrOff (w : Nat) : Nat := 0x90014 + 0x40 * w
def ksCorrOff (k : Nat) : Nat := 0x90208 + 0x40 * k
def ksUncorrOff (k : Nat) : Nat := 0x9020C + 0x40 * k
/-- Corrected lines of a work stack count in CORR (R186). -/
def ksCorrected (s : State) (k n : Nat) : State :=
  (s.spill (rcKey (ksCorrOff k) 0) (s.kst k).corr n).modKs k fun x => { x with corr := satAdd x.corr n }
/-- A block returned an uncorrectable granule: UNCORR, the block retires when next unmapped (R184, R193), and 16 distinct blocks within 24 hours fail the stack (R421). -/
def wsUncorr (s : State) (ws b : Nat) : State :=
  let s := (s.spill (rcKey (wsErrOff ws) 0) (s.wst ws).uncorr).modWs ws fun w =>
    let m := (w.media.filter fun e => decide (s.tick < e.2 + 24 * hourTicks) && e.1 != b) ++ [(b, s.tick)]
    { w with uncorr := satInc w.uncorr, media := m,
             blocks := if isData b then smod .init w.blocks b fun k => { k with condemned := true } else w.blocks }
  if 16 ≤ (s.wst ws).media.length then failStack s ws 2 else s
/-! Blocks (R193, R194). -/

/-- The free block with the fewest programs, the lowest among equals (R194). -/
def bestFree (w : Ws) : Option Nat :=
  (freeBlocks w).foldl (fun a b =>
    match a with
    | none => some b
    | some c => if (sget .init w.blocks b).programs.toNat < (sget .init w.blocks c).programs.toNat then some b else some c) none
/-- Take and erase a block for programming, leaving at least `keep` blocks free (R193, R194). -/
def takeBlock (w : Ws) (keep : Nat) : Option (Nat × Ws) :=
  if (freeBlocks w).length ≤ keep then none
  else (bestFree w).map fun b =>
    (b, { w with blocks := smod .init w.blocks b fun k =>
                   { k with programs := satInc k.programs, use := 1, maxCorr := 0, corr := 0, born := w.ageSum, condemned := false },
                 mem := clearRange w.mem (2 ^ 26 * b) (2 ^ 26) })
/-- A block that is no longer mapped: free again, or retired (R193). -/
def freeBlock (w : Ws) (b : Nat) : Ws :=
  { w with blocks := smod .init w.blocks b fun k =>
      { k with use := if k.condemned || decide (3000 ≤ k.programs.toNat) then 3 else 0 } }
/-- The due block that is refreshed next: oldest AGE, the lowest among equals (R197). -/
def nextDueBlock (w : Ws) : Option (Nat × Nat) :=
  (w.table.filter fun e => blockDue w e.2 && (sget .init w.blocks e.2).use == 1).foldl (fun a e =>
    match a with
    | none => some e
    | some c => if blockAge w c.2 < blockAge w e.2 || (blockAge w c.2 == blockAge w e.2 && e.2 < c.2) then some e else some c) none
/-- Begin the refresh of the next due block of a stack that has not failed; it waits while a commit or another refresh is in progress (R197, R216). -/
def refreshKick (s : State) (ws : Nat) : State :=
  s.modWs ws fun w =>
    if w.refresh.isSome || w.commit.isSome || w.image == 3 then w
    else match nextDueBlock w with
      | some (p, b) =>
        match takeBlock w 0 with
        | some (n, w) => { w with refresh := some ⟨p, b, n, false⟩ }
        | none => w
      | none => w

/-- A granule needed n corrected bits (R183); MAX_CORR 10 makes a mapped block due for refresh (R197). -/
def wsCorrected (s : State) (ws b n : Nat) : State :=
  refreshKick (s.modWs ws fun w =>
    { w with blocks := smod .init w.blocks b fun k =>
        { k with corr := satInc k.corr, maxCorr := if k.maxCorr.toNat < n then BitVec.ofNat 5 (min n 16) else k.maxCorr } }) ws
/-- An uncorrectable line of a work stack: UNCORR; more than 1,000 within an hour fail it (R186, R421). -/
def ksUncorr (s : State) (k : Nat) : State :=
  let s := (s.spill (rcKey (ksUncorrOff k) 0) (s.kst k).uncorr).modKs k fun x =>
    { x with uncorr := satInc x.uncorr, media := (x.media.filter fun t => decide (s.tick < t + hourTicks)) ++ [s.tick] }
  if 1000 < (s.kst k).media.length then failStack s (8 + k) 2 else s

/-- Read rows row .. row + n - 1, all of one granule, from block b of weight stack ws itself: zero rows and UNMAPPED where the page is not mapped (b = 0), none where the granule is uncorrectable (R179, R183, R184). -/
def wsReadOwn (s : State) (ws b row n : Nat) (err : ReadErr) : Option (List Row) × State :=
  let rows := (upto n).map fun i => wsRow (s.wst ws) b (row + i)
  if b = 0 then (some rows, (s.spill (rcKey (wsErrOff ws) 2) (s.wst ws).unmapped).modWs ws fun w => { w with unmapped := satInc w.unmapped })
  else match err with
    | .clean => (some rows, s)
    | .corrected k => (some rows, wsCorrected s ws b k)
    | .uncorrectable => (none, wsUncorr s ws b)
/-- Read rows of weight stack ws as its controller serves them, from its block b or, for a FAILED stack or after an uncorrectable granule in the mirrored layout, from block pb of its SEALED partner: the rows, or none where none land (R179, R183, R184, R202). -/
def wsRead (s : State) (ws b pb row n : Nat) (own part : ReadErr) : Option (List Row) × State :=
  let w := s.wst ws
  if w.image == 1 then
    match wsReadOwn s ws b row n own with
    | (some r, s) => (some r, s)
    | (none, s) =>
      if partnerServes s ws then
        match wsReadOwn s (partner ws) pb row n part with
        | (some r, s) => (some r, (s.spill (rcKey (wsErrOff ws) 1) (s.wst ws).rescue).modWs ws fun w => { w with rescue := satInc w.rescue })
        | (none, s) => (none, s)
      else (none, s)
  else if w.image == 3 && partnerServes s ws then wsReadOwn s (partner ws) pb row n part
  else (none, s)
/-- Read rows of work stack k (R186). -/
def ksRead (s : State) (k row n : Nat) (own : ReadErr) : Option (List Row) × State :=
  let x := s.kst k
  if x.failed || !x.trained then (none, s)
  else
    let rows := (upto n).map fun i => x.mem.read (row + i)
    match own with
    | .clean => (some rows, s)
    | .corrected _ => (some rows, ksCorrected s k 1)
    | .uncorrectable => (none, ksUncorr s k)
/-- Read rows of a stack of quarter q as STK names it; weight stacks through block b, or pb of the partner. -/
def stackRead (s : State) (q stk b pb row n : Nat) (own part : ReadErr) : Option (List Row) × State :=
  if stk = 2 then ksRead s q row n own else wsRead s (2 * q + stk) b pb row n own part
/-- Blocks that hold the page of a row now: the stack's and its partner's (R178). -/
def readBlocks (s : State) (q stk row : Nat) : Nat × Nat :=
  if stk = 2 then (0, 0) else (wsBlock (s.wst (2 * q + stk)) row, wsBlock (s.wst (partner (2 * q + stk))) row)
/-- What the reads of a long transfer from work stack k showed: corrected ones count in CORR, uncorrectable ones in UNCORR (R186). -/
def ksCount (s : State) (k : Nat) (x : Reads) : State :=
  (upto x.uncorrectable).foldl (fun s _ => ksUncorr s k) (ksCorrected s k x.corrected)
/-- What the code of a stack shows to a sequencer's own read: a free value (R186). -/
def freeRead (s : State) : ReadErr × State :=
  let (v, s) := s.takeFree 2
  (if v = 1 then .corrected 1 else if v = 2 then .uncorrectable else .clean, s)

/-- Write rows from `row` to work stack k; `whole` says that whole lines are written, else the line is read first: an uncorrectable read leaves it unwritten (R187). Answers whether the rows were written. -/
def ksWrite (s : State) (k row : Nat) (rows : List Row) (whole : Bool) (rmw : ReadErr) : Bool × State :=
  let put (s : State) : State := s.modKs k fun x =>
    { x with mem := (upto rows.length).foldl (fun m i => m.write (row + i) (nth 0 rows i)) x.mem }
  let x := s.kst k
  if x.failed || !x.trained then (false, s)
  else if whole then (true, put s)
  else match rmw with
    | .clean => (true, put s)
    | .corrected _ => (true, put (ksCorrected s k 1))
    | .uncorrectable => (false, ((ksUncorr s k).spill (rcKey (ksUncorrOff k) 1) (s.kst k).rmwFail).modKs k fun x => { x with rmwFail := satInc x.rmwFail })
/-- The pieces of n rows from `row` that lie in one line of 4 rows each: (row, rows) (R181). -/
def lineParts (row : Nat) : Nat → Nat → List (Nat × Nat)
  | 0, _ => []
  | k + 1, n => if n = 0 then [] else
      let m := min n (4 - row % 4)
      (row, m) :: lineParts (row + m) k (n - m)
/-- Write rows to work stack k from `row`, line by line: a line written in part is read first, and rmw says what the reads show, in order (R187). -/
def ksWriteRows (s : State) (k row : Nat) (rows : List Row) (rmw : List ReadErr) : State :=
  (forEach (lineParts row (rows.length + 1) rows.length) ((rows, rmw), s) fun ((left, errs), s) (r, m) =>
    let whole := m == 4
    ((left.drop m, if whole then errs else errs.drop 1), (ksWrite s k r (left.take m) whole (nth .clean errs 0)).2)).2

end Sys2Proof.Machine
end

