-- ==== Sys2Proof/Machine/Complete.lean ====
section
/-! DEFINITION. Completions and their interrupts (R366 to R368, R372 to R374), the descriptor fields of Tables 12-1 and 12-2, and the end of the descriptor that holds a queue. -/

namespace Sys2Proof.Machine

/-! Descriptor fields (Tables 12-1, 12-2). -/

/-- Byte k (k + n - 1 down to k, little-endian) of a descriptor. -/
def dBytes (r : Row) (k n : Nat) : Nat := fld r (8 * k) (8 * n)
def dType (r : Row) : Nat := dBytes r 0 1
def dIrq (r : Row) : Bool := bit r 8
def dIrqPartial (r : Row) : Bool := bit r 9
def dPitch (r : Row) : Nat := fld r 48 3
def dLead (r : Row) : Nat := dBytes r 7 1
def dTag (r : Row) : Word := r.extractLsb' 64 32
/-- Quarter of queue n (R362). -/
def queueQuarter (n : Nat) : Nat := n / 16

/-! Checking descriptors (R369, Tables 12-1, 12-2). -/

/-- Bytes a to b of a descriptor are not all 0. -/
def dNonzero (r : Row) (a b : Nat) : Bool := dBytes r a (b + 1 - a) != 0
/-- QSRC has a nonzero reserved bit. -/
def qsrcBad (r : Row) (k : Nat) : Bool := fld r (8 * k + 2) 5 != 0
/-- Whether a KS row range leaves the stack. -/
def ksRangeBad (row len : Nat) : Bool := decide (stackRows 2 < row + len / 64)
/-- BAD_DESCRIPTOR (R369): a reserved TYPE, a nonzero reserved field, or a field outside its stated range. -/
def descBad (r : Row) : Bool :=
  let nz := dNonzero r
  decide (8 < dType r) || fld r 10 6 != 0 || nz 2 5 || fld r 51 5 != 0 ||
    match dType r with
    | 0 => nz 12 63
    | 1 => qsrcBad r 26 || nz 27 27 || nz 31 31 || fld r (8 * 32 + 17) 15 != 0
    | 2 => qsrcBad r 12 || nz 13 15 || dBytes r 24 2 == 0 || nz 26 63
    | 3 => dBytes r 12 4 == 0 || dBytes r 56 4 == 0 || nz 62 63
    | 4 => fld r (8 * 12 + 17) 15 != 0 || decide (5 < fld r 128 4) || fld r 132 3 != 0 || nz 17 19 || fld r 188 4 != 0 ||
        (fld r 128 4 == 2 && fld r 160 2 == 3) || nz 60 63
    | 5 =>
      let len := dBytes r 32 8
      let src := fld r 96 4
      let dst := fld r 100 4
      decide (1 < src) || decide (2 < dst) || fld r 108 4 != 0 || nz 14 15 || len == 0 || decide (2 ^ 32 < len) ||
        ((src != 0 || dst != 0) && len % 64 != 0) || fld r (8 * 40 + 17) 14 != 0 || nz 44 63 ||
        (src == 1 && ksRangeBad (dBytes r 16 8) len) || (dst == 1 && ksRangeBad (dBytes r 24 8) len) ||
        (dst == 2 && nz 27 31)
    | 6 =>
      let n := dBytes r 40 2
      decide (7 < dBytes r 12 1) || decide (2 < dBytes r 13 1) || decide (1 < dBytes r 14 1) || nz 15 15 || nz 42 63 ||
        (if dBytes r 13 1 = 1 then n == 0 || decide (372 < n) else n != 0)
    | _ => nz 12 15 || nz 24 63

/-! Completion status (Table 12-5). -/

def stOk : Nat := 0x00
def stPartial : Nat := 0x08
def stBad : Nat := 0x10
def stHostError : Nat := 0x11
def stRefused : Nat := 0x12
def stDeadline : Nat := 0x13
def stKvFull : Nat := 0x14
def stStepTimeout : Nat := 0x15
def stPitonError : Nat := 0x16
def stPlanError : Nat := 0x17
def stCommitFailed : Nat := 0x18
def stFlushed : Nat := 0x19
def stFault : Nat := 0x1A

/-! The completion ring. -/

def sqSize (q : CmdQ) : Nat := 2 ^ q.sqLog2.toNat
def cqSize (q : CmdQ) : Nat := 2 ^ q.cqLog2.toNat
/-- The CQ is full: CQ_TAIL + 1 equals DB_CQ_HEAD modulo the size (R367). -/
def cqFull (q : CmdQ) : Bool := (q.cqTail.toNat + 1) % cqSize q == q.dbHead.toNat % cqSize q
/-- The 32 bytes of a completion entry (Table 12-4). -/
def complBytes (c : Compl) (sqHead : BitVec 16) (phase : Bool) : Nat :=
  c.tag.toNat + c.status.toNat * 2 ^ 32 + (b2n c.replayed + 2 * b2n c.isPartial + 128 * b2n phase) * 2 ^ 40 +
    sqHead.toNat * 2 ^ 48 + c.tStart.toNat * 2 ^ 64 + c.tEnd.toNat * 2 ^ 128 + c.energy.toNat * 2 ^ 192 +
    c.result.toNat * 2 ^ 224
/-- Send the queue's interrupt (R368). -/
def sendMsi (s : State) (n : Nat) : State :=
  let q := s.queue n
  (hostWrite s (q.msiAddr.toNat * 4) 4 q.msiData.toNat).modQueue n fun q => { q with irqPend := 0 }
/-- Send the interrupt if IRQ_COUNT are pending or the oldest has waited IRQ_DELAY µs (R368; a delay of 0 has passed at once, log 19). -/
def checkMsi (s : State) (n : Nat) : State :=
  let q := s.queue n
  let due := decide (max 1 q.irqCount.toNat ≤ q.irqPend) || decide (q.irqTick + us q.irqDelay.toNat ≤ s.tick)
  if q.irqPend ≠ 0 && due then sendMsi s n else s
/-- Write a completion entry at CQ_TAIL and make its interrupt pending (R367, R368). -/
def writeCompl (s : State) (n : Nat) (c : Compl) : State :=
  let q := s.queue n
  let s := hostWrite s (q.cqBase.toNat * 64 + 32 * q.cqTail.toNat) 32 (complBytes c q.sqHead q.phase)
  let s := s.modQueue n fun q =>
    if q.cqTail.toNat + 1 < cqSize q then { q with cqTail := q.cqTail + 1 } else { q with cqTail := 0, phase := !q.phase }
  if c.irq then
    checkMsi (s.modQueue n fun q =>
      { q with irqTick := if q.irqPend = 0 then s.tick else q.irqTick, irqPend := q.irqPend + 1 }) n
  else s
/-- Post a completion: written, or held while the CQ is full, of a request's held partial entries only the latest (R367); a queue being reset writes none (R383). -/
def postCompl (s : State) (n : Nat) (c : Compl) : State :=
  let q := s.queue n
  if q.resetting then s
  else if q.held.isEmpty && !cqFull q then writeCompl s n c
  else s.modQueue n fun q =>
    { q with held := (if c.isPartial then q.held.filter (fun h => !(h.isPartial && h.seq == c.seq)) else q.held) ++ [c] }
/-- Write held completions in finish order while there is room (R367). -/
def flushHeld (s : State) (n : Nat) : Nat → State
  | 0 => s
  | k + 1 =>
    let q := s.queue n
    match q.held with
    | c :: cs => if cqFull q then s else flushHeld (writeCompl (s.modQueue n fun q => { q with held := cs }) n c) n k
    | [] => s

/-- µJ as ENERGY of Table 12-4. -/
def energyWord (r : Rat) : Word := if 2 ^ 32 ≤ r.floor then 0xFFFFFFFF else BitVec.ofInt 32 r.floor
/-- The hint of a descriptor that completes ends (R340). -/
def dropHint (s : State) (n seq : Nat) : State :=
  s.modPwr fun w => { w with hintq := w.hintq.filter fun h => !(h.queue == n && h.seq == seq) }
/-- Complete a descriptor: its entry is posted and it is open no more. -/
def completeDesc (s : State) (n : Nat) (x : Exec) (status result : Nat) : State :=
  let r := x.desc.row
  let s := (dropHint s n x.desc.seq).modQueue n fun q => { q with open_ := q.open_.erase x.desc.seq }
  postCompl s n
    { tag := dTag r, status := BitVec.ofNat 8 status, isPartial := false, replayed := x.replayed, tStart := x.tStart,
      tEnd := s.clk.count, energy := energyWord x.energy, result := BitVec.ofNat 32 result, irq := dIrq r, seq := x.desc.seq }
/-- A descriptor that starts now. -/
def startExec (s : State) (d : Desc) : Exec :=
  ⟨d, s.clk.count, s.tick, 0, [], 0, false, ((s.cmdq.filterMap fun c => c.2.run.map Exec.order).foldl max 0) + 1⟩
/-- A queue whose reset has nothing left to wait for reads DISABLED, its indexes 0 and its phase 1 (R383); an ENABLE that software has written in this tick stands (R10). -/
def resetDone (s : State) (n : Nat) : State :=
  let q := s.queue n
  if q.resetting && q.run.isNone && !(s.svc.any fun v => v.2.seated.any fun r => r.queue == n) then
    s.modQueue n fun q =>
      { q with resetting := false, enable := q.enable && s.wroteTo (0x40014 + 0x40 * n), inError := false, error := 0, sqHead := 0, cqTail := 0, phase := true,
               dbTail := 0, dbHead := 0, fetchHead := 0, open_ := [] }
  else s

/-! Fetching (R364) and turns (R366). -/

/-- A fetch of queue n asks for these host bytes (R364). -/
def fetchAddr (q : CmdQ) (f : Fetch) : Nat := q.sqBase.toNat * 64 + 64 * f.slot
/-- Issue one fetch, if the queue may (R364). -/
def fetchOne (s : State) (n : Nat) : State :=
  let q := s.queue n
  let head := q.fetchHead.toNat
  let tail := q.dbTail.toNat
  let room := 128 - q.ready.length - (q.fetches.map Fetch.count).sum
  if !q.enable || q.inError || q.resetting || head == tail || decide (2 ≤ q.fetches.length) || room == 0 then s
  else
    let count := min (min 64 room) (if head < tail then tail - head else sqSize q - head)
    let f : Fetch := ⟨head, count, none⟩
    let s := localSend s 0 1 (mkHdr { dest := hostId s, src := feId s, kind := 8, addr := fetchAddr q f, arg := 64 * count }) []
    s.modQueue n fun q => { q with fetches := q.fetches ++ [f], fetchHead := BitVec.ofNat 16 ((head + count) % sqSize q) }
/-- Issue the fetches there is room for, at most two (R364). -/
def fetchKick (s : State) (n : Nat) : State := fetchOne (fetchOne s n) n
/-- A STACK_COMMIT for a stack of a quarter in reset waits with the commit manager, where it holds up nothing of its queue (R366). -/
def commitWaits (s : State) (r : Row) : Bool :=
  dType r == 6 && !descBad r && (s.quarter (dBytes r 12 1 / 2 % 4)).inReset
/-- The descriptor of queue n whose turn it is once none holds the queue (R366). -/
def turnOf (s : State) (n : Nat) : Option Desc := (s.queue n).ready.find? fun d => !commitWaits s d.row
/-- Malformed descriptors whose turn has come complete BAD_DESCRIPTOR and do nothing else (R366, R369). -/
def endBad (s : State) (n : Nat) : State :=
  let q := s.queue n
  let first := q.ready.takeWhile fun d => descBad d.row || commitWaits s d.row
  if q.run.isSome then s
  else forEach (first.filter fun d => descBad d.row)
    (s.modQueue n fun q => { q with ready := (first.filter fun d => !descBad d.row) ++ q.ready.drop first.length })
    fun s d => completeDesc s n (startExec s d) stBad 0
/-- A turn has come: malformed descriptors end, and the room that leaves is fetched for (R364, R366). -/
def badTurn (s : State) (n : Nat) : State := fetchKick (endBad s n) n
/-- The descriptor that holds queue n ends (R366). -/
def finishRun (s : State) (n status result : Nat) : State :=
  match (s.queue n).run with
  | some x => badTurn (resetDone (completeDesc (s.modQueue n fun q => { q with run := none }) n x status result) n) n
  | none => s
/-- A queue in reset does not wait for the answer to what its descriptor has set going (R383). -/
def dropWait (s : State) (n : Nat) : State :=
  if (s.queue n).resetting then resetDone (s.modQueue n fun q => { q with run := none }) n else s
/-- Move the descriptor that holds queue n to a later phase of its actions. -/
def setPhase (s : State) (n k : Nat) : State :=
  s.modQueue n fun q => { q with run := q.run.map fun x => { x with phase := k } }

/-! Packets of the command front end. -/

/-- The endpoint identifier of the piton engine of hub q (R258). -/
def pitonEid (i : Nat) : Nat := i
/-- TAG of a request the front end makes for queue n; `k` says what for: 2 a RUN_GRAPH answer. -/
def feTag (n k : Nat) : Nat := 4 * n + k
/-- Find the queue of a front end tag. -/
def feTagQueue (t : Nat) : Nat := t / 4 % 64

end Sys2Proof.Machine
end

