-- ==== Sys2Proof/Machine/Pitons.lean ====
section
/-! DEFINITION. The piton engines (08_pitons): operations, completion, notifications, chains, errors, and the rows ARRIVE, SET_TARGET, WAIT, CHAIN, PROXY_ARRIVE, PITON_READ. An engine takes its waiting operations in ascending hub input port, in arrival order within a port (R260). -/

namespace Sys2Proof.Machine

/-- Quarter whose hub holds piton i (R256). -/
def pitonQuarter (i : Nat) : Nat := i / 32768 % 4

/-! Operations on their way to an engine. -/

/-- An operation reaches the engine of hub q; it is discarded while the quarter is in reset (R236, R270). -/
def pitDeposit (s : State) (q : Nat) (m : PitMsg) : State :=
  if (s.quarter q).inReset then s else s.modPitQ q fun p => { p with inbox := p.inbox ++ [m] }
/-- An arrival or proxy of n, with LAST and TOTAL, as an operation on piton i that enters on the given port. -/
def arrivalMsg (port i n : Nat) (proxy last : Bool) (total : Word) (by_ : Option Nat) (fq : BitVec 4) : PitMsg :=
  { port := port, piton := BitVec.ofNat 17 i, pv := true, len := 0, op := if proxy then 4 else 0, arg := 0,
    inl := BitVec.ofNat 256 n, last := last, total := if last then total else 0, src := 0, dest := 0xFFFFFF,
    cls := false, fromLink := false, by_ := by_, fenceBy := fq }
/-- An arrival or proxy sets out from a place, as a PITON packet to SELF on VC 3 (R227, log 150). -/
def sendArrival (s : State) (loc : Loc) (i n : Nat) (proxy last : Bool) (total : Word) (fromLink : Bool) (by_ : Option Nat) (fq : BitVec 4) : State :=
  let h := mkHdr { dest := 0xFFFFFF, src := 0, kind := 4, pv := true, last := last, total := if last then total.toNat else 0, piton := i,
                   arg := if proxy then 4 * 2 ^ 28 else 0, inl := n }
  s.modFab fun f =>
    { f with nextId := f.nextId + 1,
             pkts := f.pkts ++ [{ id := f.nextId, hdr := h, data := [], loc := loc, inVc := 3, escape := false, since := s.tick,
                                  fromLink := fromLink, by_ := by_, issued := true, fenceBy := fq }] }
/-- Router r (48 + q for a hub) issues an arrival or proxy to piton i, for a packet of a unit of quarter by_, if it is one's: the hub of the piton's own quarter at once, another router along the path of R227, from where it stands in no input buffer (port 24). A proxy to a piton in a quarter in reset is dropped (R236). -/
def issueArrival (s : State) (r i n : Nat) (proxy last : Bool) (total : Word) (by_ : Option Nat) (fq : BitVec 4) : State :=
  let q := pitonQuarter i
  if proxy && (s.quarter q).inReset then s
  else if r = 48 + q then pitDeposit s q (arrivalMsg 23 i n proxy last total by_ fq)
  else sendArrival s (.router r 24) i n proxy last total false by_ fq

/-! Notifications (R267). -/

/-- Send the notification of a waiter of piton i, status st of Table 8-3; whether a notification's token has TLAST is a free value (log 22). -/
def sendNote (s : State) (i : Nat) (w : Waiter) (st : Nat) : State :=
  let q := pitonQuarter i
  let rec_ := pitonRecord i (s.piton i) st w.tag.toNat s.clk.count.toNat
  if w.mode = 0 then
    localSend s q 7 (mkHdr
      { dest := w.src.toNat, src := w.self.toNat, cls := w.cls, kind := 3, piton := i,
        arg := if st = 4 then 5 * 2 ^ 28 else 2 * 2 ^ 28, inl := rec_ }) []
  else if w.mode = 1 then
    let (l, s) := s.takeFree 1
    localSend s q 7 (mkHdr { dest := w.dest.toNat, src := w.self.toNat, kind := 0, len := 1 }) [(BitVec.ofNat 512 rec_, l == 1)]
  else if w.mode = 2 then
    localSend s q 7 (mkHdr { dest := w.dest.toNat, src := w.self.toNat, kind := 7, addr := w.addr.toNat, arg := 32, inl := rec_ }) []
  else s
/-- Send a notification to every waiter and remove them all. -/
def release (s : State) (i st : Nat) : State :=
  (forEach (s.piton i).waiters s fun s w => sendNote s i w st).modPiton i fun p => { p with waiters := [] }

/-! The engine's procedure (R261). -/

/-- fire_chain; the chained arrival counts for the streams of the quarter, if any, whose packet has fired it. -/
def fireChain (s : State) (i : Nat) (by_ : Option Nat) : State :=
  let p := s.piton i
  if p.chained && !p.fired then
    issueArrival (s.modPiton i fun p => { p with fired := true }) (48 + pitonQuarter i) p.chainPiton.toNat p.chainN.toNat p.fenced false 0 by_ p.fencedBy
  else s
/-- Offset of PIT_ERR of quarter q, whose counters are OVERRUNS, REFUSED_WAITS and BAD_OP (R272). -/
def pitErrOff (q : Nat) : Nat := 0xA0014 + 0x40 * q
/-- error(c): OVERRUN, its count, and the first one's capture and PITON_OVERRUN (R269). -/
def pitError (s : State) (i : Nat) (c : BitVec 2) : State :=
  if (s.piton i).overrun then s
  else
    let q := pitonQuarter i
    let s := release (s.modPiton i fun p => { p with overrun := true, cause := c }) i 2
    let first := (s.pitQ q).armed
    let s := (s.spill (rcKey (pitErrOff q) 0) (s.pitQ q).overruns).modPitQ q fun p =>
      { p with overruns := satInc p.overruns, armed := false, errCause := if p.armed then c else p.errCause,
               errPiton := if p.armed then BitVec.ofNat 17 i else p.errPiton }
    let s := s.catchFirst (0xA0018 + 0x40 * q) (BitVec.ofNat 32 (c.toNat * 2 ^ 24 + i % 2 ^ 17))
    if first then event s 0x0011 (some q) (pitErrFirst (s.pitQ q)).toNat else s
/-- check(): completion (R262). -/
def pitCheck (s : State) (i : Nat) (by_ : Option Nat) : State :=
  let p := s.piton i
  if p.tgtValid && !p.done && !p.overrun then
    if p.count = p.target then fireChain (release (s.modPiton i fun p => { p with done := true }) i 0) i by_
    else if p.target.toNat < p.count.toNat then pitError s i 1
    else s
  else s
/-- ARRIVE(n) and PROXY_ARRIVE(n), with the header's LAST and TOTAL; for the streams of quarter by_, if of any, it is noted that they count here (R417), and of a proxy the quarters in reset whose fences it tells of (R422). -/
def pitArrive (s : State) (i n : Nat) (proxy last : Bool) (total : Word) (by_ : Option Nat) (fq : BitVec 4) : State :=
  let s := match by_ with
    | some q => s.modPiton i fun p => { p with counted := sset none p.counted q (some s.tick) }
    | none => s
  let s := if proxy then s.modPiton i fun p => { p with fencedBy := p.fencedBy ||| fq } else s
  let p := s.piton i
  let s := if proxy && !p.fenced then
      let s := s.modPiton i fun p => { p with fenced := true }
      if !p.done && !p.overrun then fireChain (release s i 1) i by_ else s
    else s
  let s := if 2 ^ 32 - 1 < p.count.toNat + n then pitError (s.modPiton i fun p => { p with count := 0xFFFFFFFF }) i 1
    else s.modPiton i fun p => { p with count := BitVec.ofNat 32 (p.count.toNat + n) }
  let s := if p.done && decide (0 < n) then pitError s i 1 else s
  let s := if last then
      if !p.tgtValid then s.modPiton i fun p => { p with target := total, tgtValid := true }
      else if total = p.target then s else pitError s i 2
    else s
  pitCheck s i by_
/-- SET_TARGET(T, CLEAR, NO_TARGET, REMOTE); waiters are kept, NO_TARGET counts only with CLEAR (log 20). -/
def pitSetTarget (s : State) (i : Nat) (t : Word) (clear noTarget remote : Bool) (by_ : Option Nat) : State :=
  let s := s.modPiton i fun p => { p with remote := remote }
  let p := s.piton i
  let s := if clear then
      s.modPiton i fun p => { p with count := 0, done := false, fenced := false, overrun := false, fencedBy := 0, cause := 0,
                                     tgtValid := !noTarget, target := t, fired := false, counted := [] }
    else if p.tgtValid && t != p.target then pitError s i 3
    else s.modPiton i fun p => { p with target := t, tgtValid := true }
  pitCheck s i by_
/-- WAIT: one notification, at once or later (R264). -/
def pitWait (s : State) (i : Nat) (w : Waiter) : State :=
  let p := s.piton i
  if p.overrun then sendNote s i w 2
  else if p.done then sendNote s i w 0
  else if p.fenced then sendNote s i w 1
  else if 4 ≤ p.waiters.length then
    let k := pitonQuarter i
    ((sendNote s i w 3).spill (rcKey (pitErrOff k) 1) (s.pitQ k).refused).modPitQ k fun q => { q with refused := satInc q.refused }
  else s.modPiton i fun p => { p with waiters := p.waiters ++ [w] }
/-- CHAIN: N = 0 removes it; a new chain is armed, and fires at once on a piton that is DONE or fenced and not in error (R265, R269, log 21). -/
def pitChain (s : State) (i to_ n : Nat) (by_ : Option Nat) : State :=
  if n = 0 then s.modPiton i fun p => { p with chained := false, chainPiton := 0, chainN := 0 }
  else
    let s := s.modPiton i fun p =>
      { p with chained := true, chainPiton := BitVec.ofNat 17 to_, chainN := BitVec.ofNat 15 n, fired := false }
    let p := s.piton i
    if (p.done || p.fenced) && !p.overrun then fireChain s i by_ else s
/-- READ: a RESP to the sender with STATUS 4 (Table 8-2). -/
def pitRead (s : State) (i : Nat) (m : PitMsg) : State :=
  sendNote s i ⟨0, 0, m.src, m.dest, m.cls, 0, 0, false⟩ 4

/-! Operations taken from the inbox. -/

/-- The waiting operation the engine takes next (R260). -/
def firstOp : List PitMsg → Option PitMsg
  | [] => none
  | m :: ms =>
    match firstOp ms with
    | some n => if n.port < m.port then some n else some m
    | none => some m
/-- Malformed: a reserved OP, PV = 0, LEN above 0, or a nonzero reserved operand (R259). -/
def pitBad (m : PitMsg) : Bool :=
  !m.pv || m.len != 0 || decide (6 ≤ m.op.toNat) ||
    match m.op.toNat with
    | 0 | 3 | 4 => m.arg != 0 || fld m.inl 32 224 != 0
    | 1 => fld m.arg 3 25 != 0 || fld m.inl 32 224 != 0
    | 2 => fld m.arg 2 26 != 0 || fld m.arg 0 2 == 3 || fld m.inl 24 8 != 0 || fld m.inl 128 128 != 0
    | _ => m.arg != 0 || m.inl != 0
/-- Take the next operation if its OP is op (reserved OPs count as ARRIVE's): malformed, it is discarded and counted (R259); else it is applied by f. -/
def takeOp (s : State) (q op : Nat) (f : State → Nat → PitMsg → State) : State :=
  match firstOp (s.pitQ q).inbox with
  | none => s
  | some m =>
    if m.op.toNat = op || (op = 0 && decide (6 ≤ m.op.toNat)) then
      let s := s.modPitQ q fun p => { p with inbox := p.inbox.erase m }
      if pitBad m then (s.spill (rcKey (pitErrOff q) 2) (s.pitQ q).badOp).modPitQ q fun p => { p with badOp := satInc p.badOp }
      else f s m.piton.toNat m
    else s
/-- Operand n, T: INLINE bytes 0-3. -/
def opN (m : PitMsg) : Nat := fld m.inl 0 32

/-- ARRIVE (R261). -/
def execArrive (q : Fin 4) (s : State) : Host.Outcome State Fault Refusal :=
  .next (takeOp s q 0 fun s i m => pitArrive s i (opN m) false m.last m.total m.by_ 0)
/-! The configuration streamer's wait (R164). -/

/-- A PITON packet on piton i, to SELF, from local injector f of hub q (R227, R258). -/
def sendPitonOp (s : State) (q f src i op arg inl : Nat) : State :=
  localSend s q f (mkHdr { dest := 0xFFFFFF, src := src, kind := 4, pv := true, piton := i, arg := op * 2 ^ 28 + arg, inl := inl }) []
/-- The streamer of quarter q waits for piton i: a WAIT in mode RESP with the given TAG. -/
def streamerWait (s : State) (q i : Nat) (tag : Word) : State :=
  sendPitonOp s q 6 (Config.streamerId q).toNat i 2 0 (tag.toNat * 2 ^ 32)
/-- Items of quarter q's plan that still need piton i and whose WAIT has been answered without completion wait anew once the piton is restarted (R268, log 126). -/
def waitAnew (s : State) (i q : Nat) : State :=
  forEach (s.cfgQ q).items s fun s it =>
    if it.fabricWait && !it.asked && !it.ready && it.piton.toNat == i then
      streamerWait (s.modCfg q fun c => { c with items := c.items.map fun j => if j.idx = it.idx then { j with asked := true } else j }) q i it.tag
    else s
/-- SET_TARGET (R261). -/
def execSetTarget (q : Fin 4) (s : State) : Host.Outcome State Fault Refusal :=
  .next (takeOp s q 1 fun s i m =>
    let s := pitSetTarget s i (BitVec.ofNat 32 (opN m)) (bit m.arg 0) (bit m.arg 2) (bit m.arg 1) m.by_
    if bit m.arg 0 then forEach (upto 4) s fun s k => waitAnew s i k else s)
/-- WAIT (R264). -/
def execWait (q : Fin 4) (s : State) : Host.Outcome State Fault Refusal :=
  .next (takeOp s q 2 fun s i m => pitWait s i
    { mode := m.arg.extractLsb' 0 2, dest := m.inl.extractLsb' 0 24, src := m.src, self := m.dest, cls := m.cls,
      tag := m.inl.extractLsb' 32 32, addr := m.inl.extractLsb' 64 64, fromLink := m.fromLink })
/-- CHAIN (R265). -/
def execChain (q : Fin 4) (s : State) : Host.Outcome State Fault Refusal :=
  .next (takeOp s q 3 fun s i m => pitChain s i (fld m.inl 0 17) (fld m.inl 17 15) m.by_)
/-- PROXY_ARRIVE (R261). -/
def execProxyArrive (q : Fin 4) (s : State) : Host.Outcome State Fault Refusal :=
  .next (takeOp s q 4 fun s i m => pitArrive s i (opN m) true m.last m.total m.by_ m.fenceBy)
/-- READ (Table 8-2). -/
def execPitonRead (q : Fin 4) (s : State) : Host.Outcome State Fault Refusal :=
  .next (takeOp s q 5 fun s i m => pitRead s i m)

/-- A quarter is halted: by a fault, or quiesced (R359, R410). -/
def quarterHalted (s : State) (q : Nat) : Bool := (s.quarter q).halted || bit s.pwr.quiesced q
/-- CLEARED to every waiter of quarter q, then every piton of the quarter as R257 has it. -/
def clearPitons (s : State) (q : Nat) : State :=
  let s := forEach ((s.pitons.filter fun p => pitonQuarter p.1 == q).map Prod.fst) s fun s i => release s i 5
  { s with pitons := s.pitons.filter fun p => pitonQuarter p.1 != q }

end Sys2Proof.Machine
end

