-- ==== Sys2Proof/Machine/Steps.lean ====
section
/-! DEFINITION. The service table (Table 12-8) and when a quarter runs a step: a service's step, or a RUN_GRAPH (log 24). -/

namespace Sys2Proof.Machine

/-- n bytes of a service table from byte k. -/
def tbl (t : BitVec 1536) (k n : Nat) : Nat := fld t (8 * k) (8 * n)
def tQmask (t : BitVec 1536) : BitVec 4 := t.extractLsb' 32 4
def tGroups (t : BitVec 1536) : Nat := tbl t 5 1
def tSeats (t : BitVec 1536) : Nat := tbl t 6 2
def tStepLimit (t : BitVec 1536) : Nat := tbl t 8 4
def tChunk (t : BitVec 1536) : Nat := tbl t 12 4
def tMaxContext (t : BitVec 1536) : Nat := tbl t 16 4
def tEndToken (t : BitVec 1536) : Nat := tbl t 20 4
def tEndStop (t : BitVec 1536) : Bool := bit t 192
/-- KV_POLICY: 0 HOLD, 1 REQUEUE, 2 TERMINATE. -/
def tKvPolicy (t : BitVec 1536) : Nat := fld t 193 2
def tPageTokens (t : BitVec 1536) : Nat := tbl t 26 2
def tPagesPerSet (t : BitVec 1536) : Nat := tbl t 28 4
def tKvBase (t : BitVec 1536) : Nat := tbl t 32 8
def tKvPages (t : BitVec 1536) : Nat := tbl t 40 8
def tCandidates (t : BitVec 1536) : Nat := tbl t 48 2
def tPlanRow (t : BitVec 1536) (q : Nat) : Nat := tbl t (64 + 32 * q) 8
def tStepRow (t : BitVec 1536) (q : Nat) : Nat := tbl t (72 + 32 * q) 8
def tPitonBase (t : BitVec 1536) (q : Nat) : Nat := fld t (8 * (80 + 32 * q)) 17
def tPitonCount (t : BitVec 1536) (q : Nat) : Nat := tbl t (84 + 32 * q) 4
def tCandRow (t : BitVec 1536) (q : Nat) : Nat := tbl t (88 + 32 * q) 8
/-- The quarters of a mask, ascending. -/
def maskQuarters (m : BitVec 4) : List Nat := (upto 4).filter fun q => bit m q

/-- The step pitons of quarter q (R377). -/
def stepPitons (t : BitVec 1536) (q : Nat) : List Nat := (upto (tPitonCount t q)).map fun i => (tPitonBase t q + i) % 2 ^ 17
/-- A SET_TARGET for piton i is on its way to it. -/
def restartComing (s : State) (i : Nat) : Bool :=
  let is (h : Row) : Bool := hKind h == 4 && hArg h / 2 ^ 28 == 1 && hPiton h == i
  (s.fab.localq.any fun l => l.2.any fun x => is x.1) || (s.fab.pkts.any fun p => is p.hdr) ||
    (s.pitQ (pitonQuarter i)).inbox.any fun m => m.op == 1 && m.piton.toNat == i
/-- The step has ended on quarter q: every one of its step pitons, restarted for it, is complete, or has released its waiters FENCED (R268, log 25). -/
def stepEnded (s : State) (v : Svc) (q : Nat) : Bool :=
  (stepPitons v.table q).all fun i => ((s.piton i).done || (s.piton i).fenced) && !restartComing s i
/-- A RUN_GRAPH runs on quarter q: of queue n. -/
def graphOn (s : State) (q : Nat) : Option Nat :=
  (upto 64).find? fun n => match (s.queue n).run with
    | some x => dType x.desc.row == 1 && fld x.desc.row (8 * 26) 2 == q
    | none => false
/-- The RUN_GRAPH of queue n has come to its DONE on a quarter with faults, which its completion waits on (R409, log 24). -/
def graphEnded (s : State) (n : Nat) : Bool := match (s.queue n).run with | some x => x.phase == 4 | none => false
/-- Quarter q is running a step (R197, R208, R210). -/
def quarterSteps (s : State) (q : Nat) : Bool :=
  (match serviceOf s q with | some l => (s.service l).stepping | none => false) || (graphOn s q).isSome
/-- Quarter q stands at a step boundary, or runs no step at all. -/
def atBoundary (s : State) (q : Nat) : Bool :=
  (match serviceOf s q with
    | some l => !(s.service l).stepping || stepEnded s (s.service l) q
    | none => true) && match graphOn s q with | some n => graphEnded s n | none => true
/-- A commit of kind FULL or RESUME runs on quarter q (Table 6-7). -/
def fullCommitOn (s : State) (q : Nat) : Bool :=
  [2 * q, 2 * q + 1].any fun w => match (s.wst w).commit with | some c => c.kind != 1 | none => false
/-- SERVE may use quarter q's weight stacks (R203): both SEALED with one IMAGE_ID and LAYOUT, or one FAILED in the mirrored layout while its partner is SEALED. -/
def imagesOk (s : State) (q : Nat) : Bool :=
  let a := s.wst (2 * q)
  let b := s.wst (2 * q + 1)
  let same := match a.manifest, b.manifest with
    | some m, some n => m.imageId == n.imageId && m.layout == n.layout
    | _, _ => false
  (a.image == 1 && b.image == 1 && same) || (a.image == 3 && partnerServes s (2 * q)) || (b.image == 3 && partnerServes s (2 * q + 1))

end Sys2Proof.Machine
end

