-- ==== Sys2Proof/Machine/Commit.lean ====
section
/-! DEFINITION. Weight stacks' wear, refresh and commits (R193 to R216), work stacks' refresh and scrub (R188, R189), and their rows. -/

namespace Sys2Proof.Machine

/-! Manifests (R199, R200). -/

/-- The manifest at a host address; a length above 2,385 pages reads no digests. -/
def readManifest (s : State) (a : Nat) : Manifest :=
  let n (k len : Nat) := readNat s.host (a + k) len
  { format := BitVec.ofNat 32 (n 0 4), seq := BitVec.ofNat 32 (n 4 4), imageId := BitVec.ofNat 64 (n 8 8),
    rows := BitVec.ofNat 64 (n 16 8), pages := BitVec.ofNat 16 (n 24 2), layout := BitVec.ofNat 8 (n 26 1),
    keySlot := BitVec.ofNat 8 (n 27 1), head := BitVec.ofNat 1024 (n 0 128), sig := BitVec.ofNat 768 (n 128 96),
    tail := BitVec.ofNat 256 (n 224 32),
    digests := if n 24 2 ≤ 2385 then (upto (n 24 2)).map fun p => BitVec.ofNat 384 (n (256 + 48 * p) 48) else [] }
/-- Pages of an image of n rows. -/
def pagesOf (n : Nat) : Nat := (n + 1048575) / 1048576
/-- The manifest is well formed (Table 6-4). -/
def manifestOk (m : Manifest) : Bool :=
  m.format == 1 && fld m.head 224 800 == 0 && m.tail == 0 && decide (1 ≤ m.rows.toNat ∧ m.rows.toNat ≤ 2500000000) &&
    m.pages.toNat == pagesOf m.rows.toNat && decide (m.layout.toNat ≤ 1) && decide (m.keySlot.toNat ≤ 3)
/-- Key slot k as the persistent store holds it: 49 bytes (R397). -/
def keyOf (s : State) (k : Nat) : BitVec 392 :=
  BitVec.ofNat 392 (packNat 32 (fun i => (pstRead s (0x048 + 13 * k + i)).toNat) 13)
/-- The bytes of a manifest's page digests. -/
def digestBytes (m : Manifest) : List Byte := m.digests.flatMap fun d => leBytes d.toNat 48
/-- SHA-384 of what the signature covers: bytes 0-127 and the digests (R200). -/
def signedDigest (m : Manifest) : BitVec 384 := sha384 (leBytes m.head.toNat 128 ++ digestBytes m)
/-- SHA-384 of the whole manifest, which a journal record holds (R211). -/
def manifestDigest (m : Manifest) : BitVec 384 :=
  sha384 (leBytes m.head.toNat 128 ++ leBytes m.sig.toNat 96 ++ leBytes m.tail.toNat 32 ++ digestBytes m)
/-- The signature verifies under an enabled slot (R200, R397). -/
def manifestVerifies (s : State) (m : Manifest) : Bool :=
  bit s.fw.enabled m.keySlot.toNat && ecdsaVerify (keyOf s m.keySlot.toNat) (signedDigest m) m.sig
/-- Rows of page p of an image. -/
def pageRows (m : Manifest) (p : Nat) : Nat := min 1048576 (m.rows.toNat - 1048576 * p)
/-- The page in block b has DIGEST[p] (R199). -/
def pageOk (w : Ws) (m : Manifest) (p b : Nat) : Bool :=
  sha384 (memBytes w.mem (2 ^ 26 * b) (64 * pageRows m p)) == nth 0 m.digests p
/-- The valid record with the largest k, as the journal gives it (R211). -/
def lastRecord (w : Ws) : JournalRec :=
  (w.journal.filter (·.check)).foldl (fun a r => if a.k < r.k then r else a) ⟨0, 0, HashSt.start, false⟩

/-! The commit in progress. -/

/-- The stacks that a commit named st under the given layout programs (R215). -/
def commitStacks (st : Nat) (layout : BitVec 8) : List Nat := if layout = 1 then [st, st + 1] else [st]
/-- The commit that stack st leads. -/
def leadCommit (s : State) (st : Nat) : Option Commit :=
  match (s.wst st).commit with
  | some c => if c.queue < 64 then some c else none
  | none => none
/-- len bytes of the data source of quarter q from byte a, as a memory that holds them at the same address. -/
def sourceMem (s : State) (q : Nat) (ks : Bool) (a len : Nat) : Memory :=
  if !ks then s.host
  else
    let m := (s.kst q).mem
    if m.undef.isNone then m.mem
    else (upto (len / 64 + 1)).foldl (fun x i => writeRowAt x (64 * (a / 64 + i)) (m.read (a / 64 + i))) []
/-- The data source of a commit on quarter q is read: whether it answered; a work stack's corrections and failures count, and an uncorrectable read is an error of the source (R186, Table 6-6). -/
def sourceRead (s : State) (q : Nat) (ks source : Bool) (x : Reads) : Bool × State :=
  if ks then (source && x.uncorrectable == 0 && (s.kst q).trained && !(s.kst q).failed, ksCount s q x) else (source, s)
/-- The wear table is written: to the other block, which is erased for it, with the drone time (R193, R196). -/
def wearWrite (s : State) (ws : Nat) : State :=
  s.modWs ws fun w =>
    { countProgram w (3 - w.wearBlock) with wearBlock := 3 - w.wearBlock, wearTime := s.clk.count, wearAge := w.ageSum, wearTick := s.tick }
/-- End the descriptor of a commit. -/
def commitCompl (s : State) (c : Commit) (status result : Nat) : State :=
  match (s.queue c.queue).commits.find? fun x => x.desc.seq = c.seq with
  | some x =>
    completeDesc (s.modQueue c.queue fun q => { q with commits := q.commits.filter fun y => y.desc.seq != c.seq }) c.queue x status result
  | none => s
/-- COMMIT_DONE, or COMMIT_FAILED with an error of Table 6-6 (Table 12-7). -/
def commitEvent (s : State) (st err : Nat) : State :=
  event s (if err = 0 then 0x0031 else 0x0032) (some (st / 2)) (st + err * 256)
/-- A commit ends without success (R209, R213): a delta returns its blocks; a full commit leaves the stack UNSEALED and keeps its journal for SOURCE, MEDIA and RESET. -/
def commitFail (s : State) (st err : Nat) : State :=
  match leadCommit s st with
  | none => s
  | some c =>
    let s := forEach (commitStacks st c.manifest.layout) s fun s k =>
      wearWrite (s.modWs k fun w =>
        let d := (w.commit.map fun c => c.taken).getD []
        let w := if c.kind = 1 then d.foldl freeBlock w else w
        { w with commit := none, op := 0, switchWait := false, jError := BitVec.ofNat 8 err,
                 jValid := w.jValid && (c.kind == 1 || !(err == 1 || err == 2 || err == 3)) }) k
    let s := commitEvent s st err
    let s := commitCompl s c stCommitFailed (err + (lastRecord (s.wst st)).k * 256)
    forEach (commitStacks st c.manifest.layout) s refreshKick
/-- Commits of quarter q that a reset stops (Table 6-7). -/
def commitsReset (s : State) (q : Nat) : State := forEach [2 * q, 2 * q + 1] s fun s k => commitFail s k 9
/-- A commit ends with success. -/
def commitDone (s : State) (st : Nat) : State :=
  match leadCommit s st with
  | none => s
  | some c =>
    let ks := commitStacks st c.manifest.layout
    let s := forEach ks s fun s k =>
      wearWrite (s.modWs k fun w => { w with commit := none, op := 0, switchWait := false, jError := 0, jValid := w.jValid && c.kind == 1 }) k
    forEach ks (commitCompl (commitEvent s st 0) c stOk 0) refreshKick

/-! Taking a STACK_COMMIT descriptor (R205, R366). -/

/-- The descriptors of queue n that may pass to the commit manager now: the one whose turn it is, or, beside one that holds the queue, those before it that waited for a quarter to leave its reset (R366). -/
def commitTurns (s : State) (n : Nat) : List Desc :=
  match (s.queue n).run with
  | none => (turnOf s n).toList
  | some x => (s.queue n).ready.filter fun d => decide (d.seq < x.desc.seq) && !commitWaits s d.row
/-- The STACK_COMMIT of the given kind for stack st whose turn has come, on the lowest queue; none for a stack of a quarter in reset. -/
def nextCommit (s : State) (st kind : Nat) : Option (Nat × Desc) :=
  ((upto 64).findSome? fun n =>
    if (s.queue n).resetting then none
    else ((commitTurns s n).find? fun d => dType d.row = 6 && dBytes d.row 12 1 = st && dBytes d.row 13 1 = kind).map fun d => (n, d))
/-- Why a commit is rejected before any block changes: 0 it is not (R205 to R207, R210, R214, Table 6-6). -/
def commitError (s : State) (st kind : Nat) (m : Manifest) (list : List Nat) : Nat :=
  let ks := commitStacks st m.layout
  let curs := ks.filterMap fun k => (s.wst k).manifest
  let old (k : Nat) := match (s.wst k).manifest with | some c => c.digests | none => []
  if ks.any fun k => (s.wst k).commit.isSome then 6
  else if !manifestOk m || (m.layout == 1 && st % 2 == 1) || (curs.any fun c => decide (m.seq.toNat ≤ c.seq.toNat)) ||
      (kind == 1 && curs.any fun c => c.layout != m.layout || c.imageId != m.imageId) then 0x0A
  else if !bit s.fw.enabled m.keySlot.toNat then 2
  else if !manifestVerifies s m then 1
  else if ks.any fun k => (s.wst k).image == 3 then 4
  else if kind = 0 then
    if quarterSteps s (st / 2) then 4
    else if ks.any fun k => 2418 - retiredBlocks (s.wst k) < m.pages.toNat then 5 else 0
  else if kind = 1 then
    if ks.any fun k => (s.wst k).image != 1 then 4
    else if ks.any fun k => min 372 ((freeBlocks (s.wst k)).length - 8) < list.length then 5
    else if list.any (fun p => m.pages.toNat ≤ p) || ((upto m.pages.toNat).any fun p =>
        !list.contains p && ks.any fun k => decide ((old k).length ≤ p) || nth 0 (old k) p != nth 0 m.digests p) then 3
    else 0
  else if ks.any fun k => !(s.wst k).jValid || (lastRecord (s.wst k)).digest != manifestDigest m then 4
  else if ks.any fun k => 2418 - retiredBlocks (s.wst k) < m.pages.toNat then 5 else 0
/-- Take a STACK_COMMIT off its queue: it no longer waits, and does not hold the queue (R366). -/
def takeCommit (s : State) (n : Nat) (d : Desc) : State :=
  badTurn (s.modQueue n fun q => { q with ready := q.ready.erase d, commits := q.commits ++ [startExec s d] }) n
/-- The commit record of a descriptor. -/
def commitOf (n : Nat) (d : Desc) (m : Manifest) (kind : Nat) (list : List Nat) (pos : Nat) : Commit :=
  let r := d.row
  let ks := dBytes r 14 1 = 1
  { kind := BitVec.ofNat 2 kind, manifest := m, table := [], taken := [], src := ks,
    addr := if ks then 64 * dBytes r 24 8 else dBytes r 24 8, base := 15625000 * pos, pos := pos, hash := HashSt.start, list := list,
    queue := n, seq := d.seq }
/-- Take and check the next STACK_COMMIT of a kind for stack st; reject it with its error, or go on with f. -/
def beginCommit (s : State) (st kind : Nat) (f : State → Nat → Desc → Manifest → List Nat → State) : State :=
  match nextCommit s st kind with
  | none => s
  | some (n, d) =>
    let m := readManifest s (dBytes d.row 16 8)
    let list := if kind = 1 then (upto (dBytes d.row 40 2)).map fun i => readNat s.host (dBytes d.row 32 8 + 2 * i) 2 else []
    let s := takeCommit s n d
    match commitError s st kind m list with
    | 0 => f s n d m list
    | e =>
      let s := s.modWs st fun w => { w with jError := BitVec.ofNat 8 e }
      commitCompl (commitEvent s st e) (commitOf n d m kind list 0) stCommitFailed (e + (lastRecord (s.wst st)).k * 256)
/-- Put the commit into its stacks; the partner of a mirrored commit holds it without the descriptor. -/
def setCommit (s : State) (st : Nat) (c : Commit) (op : BitVec 2) : State :=
  forEach (commitStacks st c.manifest.layout) s fun s k =>
    s.modWs k fun w => { w with op := op, commit := some (if k = st then c else { c with queue := 64 }) }

/-! Programming. -/

/-- Program rows [a, b) of the image into stack k, taking blocks for pages that have none; none where no block is left (R194, R210). -/
def programRows (s : State) (k : Nat) (c : Commit) (a b : Nat) : Option State :=
  if b ≤ a then some s
  else
    ((upto ((b - 1) / 1048576 - a / 1048576 + 1)).map (a / 1048576 + ·)).foldlM (fun s p => do
      let w := s.wst k
      let (blk, w) ← match sget 0 w.table p with
        | 0 => (takeBlock w 8).map fun x => (x.1, { x.2 with table := sset 0 x.2.table p x.1 })
        | blk => some (blk, w)
      let lo := max a (1048576 * p)
      let hi := min b (1048576 * (p + 1))
      let src := c.addr + 64 * (lo - c.base)
      let len := 64 * (hi - lo)
      some (s.modWs k fun _ =>
        { w with mem := copyRange (sourceMem s (k / 2) c.src src len) src len w.mem (2 ^ 26 * blk + 64 * (lo - 1048576 * p)) })) s
/-- The hash over rows [a, b) of the one data stream goes on from that of the page in progress; each page that ends in them is compared with its digest (R199, R211). -/
def hashRows (s : State) (st : Nat) (c : Commit) (a b : Nat) : Bool × HashSt :=
  let m := c.manifest
  ((upto (pagesOf b)).filter fun p => decide (a < b ∧ a / 1048576 ≤ p)).foldl (fun (ok, h) p =>
    let lo := max a (1048576 * p)
    let hi := min b (1048576 * (p + 1))
    let src := c.addr + 64 * (lo - c.base)
    let len := 64 * (hi - lo)
    let h := (if lo = 1048576 * p then HashSt.start else h).absorb (memBytes (sourceMem s (st / 2) c.src src len) src len)
    if 1048576 * p + pageRows m p ≤ hi then (ok && h.finish == nth 0 m.digests p, HashSt.start) else (ok, h)) (true, c.hash)
/-- Program and verify rows [a, b) on every stack of the commit: an error of Table 6-6, 0 none (R210, R211, R215). -/
def programAll (s : State) (st : Nat) (c : Commit) (a b : Nat) : Nat × State :=
  let ks := commitStacks st c.manifest.layout
  match ks.foldlM (fun s k => programRows s k c a b) s with
  | none => (5, s)
  | some t =>
    let r := hashRows s st c a b
    (if r.1 then 0 else 3, forEach ks t fun t k => t.modWs k fun w => { w with commit := w.commit.map fun x => { x with hash := r.2 } })

/-- A full commit begins in a stack: SEALED of the active copy is cleared, every block of the old image freed, the journal block erased, and the manifest written to the inactive copy, which stays open (R201, R210). -/
def beginFull (w : Ws) (m : Manifest) : Ws :=
  let w := (match w.refresh with | some r => freeBlock w r.new | none => w)
  let w := (mappedBlocks w ++ w.releasing).foldl freeBlock w
  let w := if activeCopy w = 0 then w else setCopy w (activeCopy w) { copyAt w (activeCopy w) with sealed := false }
  { countProgram (writeCopy w ⟨some m, [], false, false⟩) 5 with
    image := 2, table := [], releasing := [], refresh := none, jValid := false, journal := [] }
/-- FULL: a full commit is rejected, or verifies its manifest, clears SEALED, frees the old image and erases the journal (R205, R210). -/
def execFull (ws : Fin 8) (s : State) : Host.Outcome State Fault Refusal :=
  .next <| beginCommit s ws 0 fun s n d m list =>
    let s := forEach (commitStacks ws m.layout) s fun s k => s.modWs k fun w => beginFull w m
    setCommit s ws (commitOf n d m 0 list 0) 1

/-- Bytes, of image pages, written so far in a delta, at page i of its list. -/
def deltaBytes (m : Manifest) (list : List Nat) (i : Nat) : Nat := ((list.take i).map fun p => 64 * pageRows m p).sum
/-- COMMIT_PROGRESS at GB k (Table 12-7). -/
def commitProgress (s : State) (st k : Nat) : State := event s 0x0030 (some (st / 2)) (st + k * 256)

/-- The page table that a delta's pages make of the one in force. -/
def deltaTable (w : Ws) (m : Manifest) (new : Sparse Nat) : Sparse Nat :=
  new.foldl (fun t e => sset 0 t e.1 e.2) (w.table.filter fun e => decide (e.1 < m.pages.toNat))
/-- Page p of a delta, at byte src of the data source, goes into a free block of stack k: an error of Table 6-6, 0 none (R206). -/
def deltaPage (s : State) (k : Nat) (c : Commit) (p src : Nat) : Nat × State :=
  match takeBlock (s.wst k) 8 with
  | none => (5, s)
  | some (b, w) =>
    let len := 64 * pageRows c.manifest p
    (0, s.modWs k fun _ =>
      { w with mem := copyRange (sourceMem s (k / 2) c.src src len) src len w.mem (2 ^ 26 * b),
               commit := w.commit.map fun c => { c with table := sset 0 c.table p b, taken := c.taken ++ [b] } })
/-- Page p of a delta is verified in every stack that has it: an error of Table 6-6, 0 none (R206). -/
def deltaVerify (s : State) (ws : Nat) (c : Commit) (p : Nat) : Nat :=
  let good (k : Nat) := pageOk (s.wst k) c.manifest p (sget 0 (((s.wst k).commit.map fun c => c.table).getD []) p)
  if (commitStacks ws c.manifest.layout).all good then 0 else 3
/-- DELTA: the listed pages, one after another in the data source (log 26), go into free blocks and are verified; the stack then waits for the switch (R206 to R208). `source` says that the data source answered. -/
def execDelta (ws : Fin 8) (source : Bool) (ks : Reads) (s : State) : Host.Outcome State Fault Refusal :=
  .next <| beginCommit s ws 1 fun s n d m list =>
    let c := commitOf n d m 1 list 0
    let (ok, s) := sourceRead (setCommit s ws c 2) (ws / 2) c.src source ks
    if !ok then commitFail s ws 7
    else
      let r := (upto list.length).foldl (fun (r : Nat × State) i =>
        if r.1 ≠ 0 then r
        else
          let r := (commitStacks ws m.layout).foldl (fun (r : Nat × State) k =>
            if r.1 ≠ 0 then r else deltaPage r.2 k c (nth 0 list i) (c.addr + deltaBytes m list i)) (0, r.2)
          if r.1 ≠ 0 then r else (deltaVerify r.2 ws c (nth 0 list i), r.2)) (0, s)
      let s := forEach (upto (deltaBytes m list list.length / 1000000000)) r.2 fun s i => commitProgress s ws (i + 1)
      if r.1 ≠ 0 then commitFail s ws r.1
      else forEach (commitStacks ws m.layout) s fun s k => s.modWs k fun w =>
        { writeCopy w ⟨some m, deltaTable w m ((w.commit.map fun c => c.table).getD []), false, true⟩ with switchWait := true }

/-- The stack without the pages after `page`, whose blocks are free again. -/
def dropLater (w : Ws) (page : Nat) : Ws :=
  ((w.table.filter fun e => decide (page < e.1)).map Prod.snd).foldl freeBlock
    { w with table := w.table.filter fun e => decide (e.1 ≤ page) }
/-- A commit may take a block for the page that a RESUME at the journal's position begins with (R194, R214). -/
def resumeRoom (w : Ws) : Bool :=
  decide (8 < (freeBlocks (dropLater w (15625000 * (lastRecord w).k / 1048576))).length)
/-- What reading the first n granules of block b of a stack shows: corrected granules count, uncorrectable ones too; whether all could be read (R183, R184). -/
def readGranules (s : State) (ws b n : Nat) (errs : List (Fin 16384 × ReadErr)) : Bool × State :=
  forEach (errs.filter fun e => decide (e.1.val < n)) (true, s) fun (ok, s) e =>
    match e.2 with
    | .clean => (ok, s)
    | .corrected k => (ok, wsCorrected s ws b k)
    | .uncorrectable => (false, wsUncorr s ws b)

/-- RESUME: an interrupted full commit goes on from its journal: the page at the journal position takes a fresh block, into which its rows below the position are copied, and the hash state is restored (R214); `copy` and `partner` are what reading their granules shows in stack ws and, in a mirrored commit, in its partner. Where no block is left for that page it fails with SPACE. -/
def execResume (ws : Fin 8) (copy partner : List (Fin 16384 × ReadErr)) (s : State) : Host.Outcome State Fault Refusal :=
  .next <| beginCommit s ws 2 fun s n d m list =>
    let last := lastRecord (s.wst ws)
    let pos := last.k
    let row := 15625000 * pos
    let page := row / 1048576
    let ks := commitStacks ws m.layout
    let s := setCommit s ws { commitOf n d m 2 list pos with hash := last.hash } 1
    let (ok, s) := forEach ks (true, s) fun (ok, s) k =>
      let (good, s) := readGranules s k (sget 0 (s.wst k).table page) ((row - 1048576 * page + 63) / 64) (if k = ws.val then copy else partner)
      (ok && good, s)
    if !ok then commitFail s ws 8
    else if ks.any fun k => !resumeRoom (s.wst k) then commitFail s ws 5
    else
      let s := forEach ks s fun s k => s.modWs k fun w =>
        let old := sget 0 w.table page
        match takeBlock (dropLater w page) 8 with
        | none => w
        | some (b, w) =>
          let w := { w with mem := copyRange w.mem (2 ^ 26 * old) (64 * (row - 1048576 * page)) w.mem (2 ^ 26 * b),
                            table := sset 0 w.table page b }
          if old = 0 then w else freeBlock w old
      s

/-- JOURNAL_RECORD: the next 1 GB is programmed and its whole pages verified, a journal record is appended and COMMIT_PROGRESS posted (R211). -/
def execJournalRecord (ws : Fin 8) (source : Bool) (ks : Reads) (s : State) : Host.Outcome State Fault Refusal :=
  .next <|
    match leadCommit s ws with
    | none => s
    | some c =>
      let k := c.pos + 1
      if c.kind = 1 || c.manifest.rows.toNat < 15625000 * k then s
      else
      let (ok, s) := sourceRead s (ws / 2) c.src source ks
      if !ok then commitFail s ws 7
      else
        match programAll s ws c (15625000 * c.pos) (15625000 * k) with
        | (0, s) =>
          let s := forEach (commitStacks ws c.manifest.layout) s fun s j => s.modWs j fun w =>
            let h := match w.commit with | some c => c.hash | none => HashSt.start
            { w with jValid := true, journal := w.journal ++ [⟨k, manifestDigest c.manifest, h, true⟩], commit := w.commit.map fun c => { c with pos := k } }
          commitProgress s ws k
        | (e, s) => commitFail s ws e

/-- SEALED is set in the active copy, and the stack is SEALED with its image (R201, R212). -/
def sealCopy (w : Ws) : Ws :=
  let c := copyAt w (activeCopy w)
  { setCopy w (activeCopy w) { c with sealed := true } with image := 1, manifest := c.manifest, table := c.table }
/-- COMMIT_SEAL: the rest of the image is programmed and its pages verified; the manifest read back verifies again and SEALED is set, in a mirrored commit in both stacks (R212, R215). -/
def execCommitSeal (ws : Fin 8) (source : Bool) (ks : Reads) (s : State) : Host.Outcome State Fault Refusal :=
  .next <|
    match leadCommit s ws with
    | none => s
    | some c =>
      let a := 15625000 * c.pos
      let b := c.manifest.rows.toNat
      if c.kind = 1 || a + 15625000 ≤ b then s
      else
      let (ok, s) := if a < b then sourceRead s (ws / 2) c.src source ks else (true, s)
      if !ok then commitFail s ws 7
      else
        match programAll s ws c a b with
        | (0, s) =>
          if !manifestVerifies s c.manifest then commitFail s ws 1
          else
            let js := commitStacks ws c.manifest.layout
            let s := forEach js s fun s k => s.modWs k fun w => setCopy w (inactiveCopy w) ⟨some c.manifest, w.table, true, false⟩
            commitDone (forEach js s fun s k => s.modWs k sealCopy) ws
        | (e, s) => commitFail s ws e

/-- DELTA_SWITCH: at the step boundary the inactive copy is closed and its page table and manifest become active, in a mirrored commit in both stacks; the old blocks are released once reads under the old mapping have landed (R208, R215). -/
def execDeltaSwitch (ws : Fin 8) (s : State) : Host.Outcome State Fault Refusal :=
  .next <|
    match leadCommit s ws with
    | none => s
    | some c =>
      if c.kind ≠ 1 || !(s.wst ws).switchWait || !atBoundary s (ws / 2) then s
      else
        let s := forEach (commitStacks ws c.manifest.layout) s fun s k => s.modWs k fun w =>
          let new := copyAt w (inactiveCopy w)
          let gone := (w.table.filter fun e => !(new.table.contains e)).map Prod.snd
          { setCopy w (inactiveCopy w) { new with check := true } with
            table := new.table, manifest := new.manifest, releasing := w.releasing ++ gone }
        commitDone s ws

/-! Wear and refresh. -/

/-- The largest k with k^160 ≤ 2^m, by bits from 2^n downwards. -/
def root160 (m : Nat) : Nat → Nat → Nat
  | 0, k => k
  | n + 1, k => root160 m n (if (k + 2 ^ n) ^ 160 ≤ 2 ^ m then k + 2 ^ n else k)
/-- Weight of an hour at a reading in 1/16 °C, in 2^-64 hours: 2^((T - 85)/10), at least 1/16 (R195; rounded down, log 27). -/
def hourWeight (r : BitVec 16) : Nat :=
  let t := r.toInt
  if t < 720 then 2 ^ 60 else root160 (10240 - 1360 + t.toNat) 84 0

/-- AGE_UPDATE: an hour has passed; every data block's AGE gains its weight at the quarter's hottest sensor of the hour, and due blocks begin their refresh (R195, R197). -/
def execAgeUpdate (s : State) : Host.Outcome State Fault Refusal :=
  .next <|
    if s.tick < s.pwr.ageTick + hourTicks then s
    else
      let s := forEach (upto 8) s fun s k =>
        refreshKick (s.modWs k fun w => { w with ageSum := w.ageSum + hourWeight (sget 0 s.pwr.hourMax (k / 2)) }) k
      s.modPwr fun p => { p with hourMax := [], ageTick := s.tick }

/-- WEAR_TABLE_WRITE: every 168 hours of operation (R196). -/
def execWearTableWrite (ws : Fin 8) (s : State) : Host.Outcome State Fault Refusal :=
  .next (if (s.wst ws).wearTick + 168 * hourTicks ≤ s.tick then wearWrite s ws else s)

/-- A refresh ends without a remap: its new block is free again and the wear table is written (R196, R198). -/
def dropRefresh (s : State) (ws new : Nat) : State :=
  wearWrite (s.modWs ws fun w => freeBlock { w with refresh := none } new) ws
/-- The granules of a refresh that the own block cannot give, taken from the partner's block pb of the page: whether each could be, and the memory that the copy has then (R198). -/
def takeGranules (s : State) (ws pb new : Nat) (bad : List (Fin 16384)) (part : List (Fin 16384 × ReadErr)) : Bool × State :=
  if bad.isEmpty then (true, s)
  else if !partnerServes s ws || pb = 0 then (false, s)
  else
    let p := partner ws
    let (ok, s) := readGranules s p pb 16384 (part.filter fun e => bad.contains e.1)
    (ok, s.modWs ws fun w => { w with mem := bad.foldl (fun m g => copyRange (s.wst p).mem (2 ^ 26 * pb + 4096 * g.val) 4096 m (2 ^ 26 * new + 4096 * g.val)) w.mem })
/-- REFRESH_COPY_DONE: the block is copied, an uncorrectable granule from the partner in the mirrored layout; where it cannot be had the refresh is abandoned, the old block stays mapped and STACK_MEDIA is posted (R197, R198). The lists say what reading the granules of the block shows, and of the partner's block of the page. It waits while a commit is in progress (R216). -/
def execRefreshCopyDone (ws : Fin 8) (own part : List (Fin 16384 × ReadErr)) (s : State) : Host.Outcome State Fault Refusal :=
  .next <|
    match (s.wst ws).refresh with
    | none => s
    | some r =>
      if r.copied || (s.wst ws).commit.isSome then s
      else
        let (_, s) := readGranules s ws r.old 16384 own
        let s := s.modWs ws fun w => { w with mem := copyRange w.mem (2 ^ 26 * r.old) (2 ^ 26) w.mem (2 ^ 26 * r.new) }
        let bad := (own.filter fun e => decide (e.2 = .uncorrectable)).map Prod.fst
        let pb := sget 0 (s.wst (partner ws)).table r.page
        match takeGranules s ws pb r.new bad part with
        | (true, s) => s.modWs ws fun w => { w with refresh := some { r with copied := true } }
        | (false, s) => event (dropRefresh s ws r.new) 0x0033 (some (ws / 2)) (ws + r.old * 256)

/-- REFRESH_REMAP: at the step boundary the page goes to its new block, and the old one waits for reads under the old mapping; a page that has gone to another block since, by a delta, keeps that one. It waits while a commit is in progress (R197, R216). -/
def execRefreshRemap (ws : Fin 8) (s : State) : Host.Outcome State Fault Refusal :=
  .next <|
    match (s.wst ws).refresh with
    | none => s
    | some r =>
      if !r.copied || !atBoundary s (ws / 2) || (s.wst ws).commit.isSome then s
      else if sget 0 (s.wst ws).table r.page ≠ r.old then refreshKick (dropRefresh s ws r.new) ws
      else
        let s := s.modWs ws fun w =>
          rewriteCopy { w with table := sset 0 w.table r.page r.new, refresh := none, releasing := w.releasing ++ [r.old] }
        refreshKick (wearWrite s ws) ws

/-- A read issued under a mapping to block b of stack k is outstanding, be it of the stack itself or of its partner, for which it may serve (R184, R202). -/
def readsOn (s : State) (k b : Nat) : Bool :=
  s.units.any fun u => physZone u.1 / 12 == k / 2 && u.2.mu.runs.any fun r =>
    (r.blk == b && r.stk.toNat == k % 2) || (r.pblk == b && r.stk.toNat == 1 - k % 2)
/-- OLD_BLOCK_RELEASE: old blocks that no outstanding read names are free again, or retired (R193, R197, R208). -/
def execOldBlockRelease (ws : Fin 8) (s : State) : Host.Outcome State Fault Refusal :=
  .next <|
    let bs := (s.wst ws).releasing.filter fun b => !readsOn s ws b
    if bs.isEmpty then s
    else refreshKick (s.modWs ws fun w => bs.foldl freeBlock { w with releasing := w.releasing.filter fun b => !bs.contains b }) ws

/-- KS_REFRESH: the work stack has refreshed every row (R188). -/
def execKsRefresh (k : Fin 4) (s : State) : Host.Outcome State Fault Refusal :=
  .next (if (s.kst k).trained then s.modKs k fun x => { x with refreshTick := s.tick } else s)
/-- KS_SCRUB: every 24 hours the lines are scrubbed; each correction counts in STK_KS_CORR (R189). -/
def execKsScrub (k : Fin 4) (corrected : Nat) (s : State) : Host.Outcome State Fault Refusal :=
  .next <|
    let x := s.kst k
    if x.trained && decide (x.scrubTick + 24 * hourTicks ≤ s.tick) then
      ksCorrected (s.modKs k fun x => { x with scrubTick := s.tick }) k corrected
    else s

end Sys2Proof.Machine
end

