-- ==== Sys2Proof/Machine/Cu.lean ====
section
/-! DEFINITION. Stages 0 to 5 of a compute unit: one meaning per micro-operation (R83 to R102). A micro-operation of a command acts when it is the next that the micro-schedule has advanced in its unit (R108); otherwise the event does not occur and the state stays. -/

namespace Sys2Proof.Machine

/-! Timed pipeline registers. -/

/-- The value a register shows at schedule cycle t: the latest ready by then. -/
def timedGet {α : Type} (d : α) (l : Timed α) (t : Nat) : α :=
  ((l.filter fun p => decide (p.1 ≤ t)).getLast?.map Prod.snd).getD d
/-- Write a value that shows from cycle r on, dropping values that nothing after cycle t can see. -/
def timedPut {α : Type} (l : Timed α) (t r : Nat) (v : α) : Timed α :=
  let old := l.filter fun p => decide (p.1 ≤ t)
  (old.drop (old.length - 1)) ++ (l.filter fun p => decide (t < p.1 ∧ p.1 ≤ r)) ++ [(r, v)] ++ (l.filter fun p => decide (r < p.1))

/-! The advanced micro-operations of a unit. -/

/-- Order among advanced micro-operations: schedule cycle, then stage. -/
def dueBefore (a b : Due) : Bool := a.at_ < b.at_ || (a.at_ == b.at_ && a.stage ≤ b.stage)
/-- The next micro-operation to execute. -/
def nextDue (c : Cu) : Option Due :=
  match c.due with
  | [] => none
  | d :: ds => some (ds.foldl (fun a b => if dueBefore a b then a else b) d)
/-- The stage's program word at its counter; WRAP passes to index 0 (R100). -/
def stageWord (x : UnitSt) (st : Nat) : Word := uopWord x.cfg st (sget 0 x.cu.pcs st)
/-- A CU that can execute: its quarter and its zone's schedule running (R308). A CU with a CONFIG fault finishes its firing (R114). -/
def cuRuns (s : State) (u : Nat) : Bool :=
  !isMu u && s.quarterRuns (physZone u / 12) && (s.zone (physZone u)).running
/-- The word and schedule cycle of unit u's next micro-operation, if it is stage st's and its OP is op (R100). -/
def dueOp (s : State) (u st op : Nat) : Option (Word × Nat) :=
  if !cuRuns s u then none
  else match nextDue (s.unit u).cu with
    | some d =>
      let w := stageWord (s.unit u) st
      if d.stage == st && decide (d.at_ < (s.unit u).cu.cyc) && uOp w == op then some (w, d.at_) else none
    | none => none
/-- With no firing in progress, nothing that one has advanced is left to execute or to push. -/
def drained (x : UnitSt) : Bool := !x.firing && x.cu.due.isEmpty && x.cu.pushes.isEmpty
/-- Where a CU has just drained, this is the schedule cycle of it, after which a switch that waits for it comes (R161). -/
def settle (s : State) (u : Nat) : State :=
  if drained (s.unit u) then s.modUnit u fun x => { x with settled := some (s.zone (physZone u)).sched } else s
/-- The micro-operation has executed: its stage's counter moves on. DESIGN CHOICE: a counter that passes index 63 without a WRAP goes to 0 (log 138). -/
def retire (s : State) (u st t : Nat) : State :=
  settle (s.modCu u fun c =>
    { c with due := c.due.erase ⟨st, t⟩, pcs := sset 0 c.pcs st ((sget 0 c.pcs st + 1) % 64) }) u
/-- Raise a zone's summary bits with a CU's flags (R78, Table 2-18). -/
def setFlags (s : State) (u : Nat) (f : BitVec 5) : State :=
  if f = 0 then s
  else
    let s := s.modCu u fun c => { c with flags := c.flags ||| f }
    let z := physZone u
    ((s.modZpage z fun p => { p with summary := p.summary ||| f }).raise (flagsKey u) (f.setWidth 32)).raise
      (0x100808 + 0x4000 * z) (f.setWidth 32)
/-- Add n to an arithmetic item (R78). -/
def addItem (s : State) (u i n : Nat) : State :=
  if n = 0 then s
  else (s.spill (itemKey u i) (sget 0 (s.unit u).cu.items i) n).modCu u fun c => { c with items := smod 0 c.items i fun v => satAdd v n }
def itNan : Nat := 34
def itSat : Nat := 35
def itAlign : Nat := 36
/-- Count NaN and saturation events (R76, R77). -/
def countFp (s : State) (u nan sat : Nat) : State :=
  let s := addItem (addItem s u itNan nan) u itSat sat
  setFlags s u (BitVec.ofNat 5 (b2n (nan != 0) + 2 * b2n (sat != 0)))

/-! Stage 0 (R89 to R93). -/

/-- n bytes of a pocket from address a, little-endian; addresses wrap at 64 KiB (log 103). -/
def pocketRead (m : Memory) (a n : Nat) : Nat := packNat 8 (fun i => (readByte m ((a + i) % 65536)).toNat) n
/-- Store the n low bytes of v in a pocket from address a, which wraps at 64 KiB. -/
def pocketWrite (m : Memory) (a v : Nat) : Nat → Memory
  | 0 => m
  | n + 1 => writeByte (pocketWrite m a v n) ((a + n) % 65536) (BitVec.ofNat 8 (v / 256 ^ n))
/-- A byte at offset o of a ring binding's held data. -/
def ringByte (x : UnitSt) (w : BitVec 64) (r : Ring) (o : Nat) : Nat :=
  let first := (r.wrTok + bRingLen w - r.held % bRingLen w) % bRingLen w
  (readByte x.cu.pocket ((64 * bRingBase w + (64 * first + o) % (64 * bRingLen w)) % 65536)).toNat
/-- n bytes at offset o, little-endian. -/
def ringNat (x : UnitSt) (w : BitVec 64) (r : Ring) (o n : Nat) : Nat := packNat 8 (fun i => ringByte x w r (o + i)) n
/-- Binding b of a CU when it is an input ring. -/
def ringBind (x : UnitSt) (b : Nat) : Option (BitVec 64) :=
  let w := bindWord x.cfg b
  if x.loaded && bValid w && !bOut w && bRingLen w != 0 then some w else none
/-- Consume n bytes of a ring: whole tokens leave it (R90). -/
def ringTake (s : State) (u b n : Nat) : State :=
  s.modCu u fun c =>
    { c with rings := smod .init c.rings b fun r =>
        let d := min ((r.rdByte + n) / 64) r.held
        { r with held := r.held - d, rdByte := r.rdByte + n - 64 * d } }
/-- Move the read position of a KEEP ring, which releases nothing (R91). -/
def ringSkip (s : State) (u b n len : Nat) : State :=
  s.modCu u fun c => { c with rings := smod .init c.rings b fun r => { r with rdByte := (r.rdByte + n) % (64 * len) } }

/-- Bytes of the current weight group that the next block of lane 31 needs (Table 2-6). -/
def weightNeed (c : UnitCfg) (blk n : Nat) : Nat :=
  let rec_ := recBytes (cuWfmt c) (cuFine c)
  if cuFine c then 32 * rec_
  else if cuWfmt c = 9 then 31 * rec_ + (blk + n) * blockBytes 9
  else 31 * rec_ + 8 * blockBytes (cuWfmt c) + (if isMx (cuWfmt c) then (blk + n - 1) / 2 + 1 else blk + n)
/-- Blocks an LDB takes from each weight record, and activation blocks per lane (R90, R91). -/
def ldbBlocks (c : UnitCfg) : Nat := if cuMode c = 2 then 2 else 1
/-- Native activation blocks an LDB takes. -/
def actCount (c : UnitCfg) (per : Bool) : Nat := ldbBlocks c * (if per then 32 else 1)
/-- Activation bytes an LDB needs: an MX block gives two native blocks, of which `half` are already taken (R61, R91, R92). -/
def actNeed (c : UnitCfg) (per : Bool) (half : Nat) : Nat :=
  let n := actCount c per
  if isMx (cuAfmt c) then (half + n + 1) / 2 * actBytes (cuAfmt c) else n * actBytes (cuAfmt c)
/-- Activation bytes an LDB leaves behind: those of the MX blocks whose two native blocks are taken. -/
def actTake (c : UnitCfg) (per : Bool) (half : Nat) : Nat :=
  if isMx (cuAfmt c) then (half + actCount c per) / 2 * actBytes (cuAfmt c) else actNeed c per half
/-- Scale byte of block k of lane l's record at offset o. -/
def recScale (x : UnitSt) (w : BitVec 64) (r : Ring) (o k : Nat) : Nat :=
  let f := cuWfmt x.cfg
  if f = 9 then 127 else ringByte x w r (o + 8 * blockBytes f + (if isMx f then k / 2 else k))
/-- Header byte of a record with fine scales. -/
def recHead (x : UnitSt) (w : BitVec 64) (r : Ring) (o : Nat) : Nat :=
  if cuFine x.cfg then ringByte x w r (o + recBytes (cuWfmt x.cfg) true - 1) else 0x38
/-- Offset of lane l's record. -/
def recAt (x : UnitSt) (r : Ring) (l : Nat) : Nat := r.rdByte + l * recBytes (cuWfmt x.cfg) (cuFine x.cfg)
/-- Lanes of the current group whose header has OUT = 1 (R57). DESIGN CHOICE: with OUTL = 0 no outlier ring is bound, no record is read, and the bit is ignored (R57, R89, log 147). -/
def outLanes (x : UnitSt) (w : BitVec 64) (r : Ring) : List Nat :=
  if cuFine x.cfg && cuOutl x.cfg then (upto 32).filter fun l => recHead x w r (recAt x r l) / 128 % 2 == 1 else []
/-- Offsets and count words of the side records of the given lanes, in order, from offset o (R89, Table 2-8). -/
def outRecs (x : UnitSt) (w : BitVec 64) (r : Ring) : List Nat → Nat → List (Nat × Nat × Nat) × Nat
  | [], o => ([], o)
  | l :: ls, o =>
    let c := ringNat x w r o 2
    let (rest, e) := outRecs x w r ls (o + outRecBytes c)
    ((l, o, c) :: rest, e)
/-- Entries (block, position, BF16 value) of a side record at offset o with counts c. -/
def outEntries (x : UnitSt) (w : BitVec 64) (r : Ring) (o c : Nat) : List (Nat × Nat × Word) :=
  (upto 8).flatMap fun k => (upto (outliersOf c k)).map fun j =>
    let e := ringNat x w r (o + 2 + 3 * (outliersBefore c k + j)) 3
    (k, e / 2 ^ 20 % 16, BitVec.ofNat 32 (e % 65536))
/-- Whether the side records of the group are all in the outlier ring. -/
def outReady (x : UnitSt) (w : BitVec 64) (r : Ring) : List Nat → Nat → Bool
  | [], o => decide (o ≤ 64 * r.held)
  | _ :: ls, o =>
    decide (o + 2 ≤ 64 * r.held) && outReady x w r ls (o + outRecBytes (ringNat x w r o 2))

/-- The rings that do not yet hold what an LDB needs (R93); a KEEP ring that is full holds every byte (R91). -/
def ldbLacks (x : UnitSt) (op : Word) : List Nat :=
  let c := x.cfg
  let r (b : Nat) := sget Ring.init x.cu.rings b
  let ws := if !uLdbW op then [] else match ringBind x (uWRing op) with
    | none => [uWRing op]
    | some w =>
      let q := r (uWRing op)
      if 64 * q.held < q.rdByte + weightNeed c x.cu.wBlock (ldbBlocks c) then [uWRing op]
      else if x.cu.wBlock != 0 || (outLanes x w q).isEmpty then []
      else match ringBind x (uORing op) with
        | some wo => if outReady x wo (r (uORing op)) (outLanes x w q) (r (uORing op)).rdByte then [] else [uORing op]
        | none => [uORing op]
  let as_ := if !uLdbA op then [] else match ringBind x (uARing op) with
    | none => [uARing op]
    | some w =>
      let q := r (uARing op)
      if q.rdByte + actNeed c (uLdbPer op) q.half ≤ 64 * q.held ∨ (bKeep w ∧ q.held = bRingLen w) then [] else [uARing op]
  ws ++ as_
/-- The data an LDB needs are in their rings (R93). -/
def ldbReady (x : UnitSt) (op : Word) : Bool := (ldbLacks x op).isEmpty
/-- Bytes an LDV takes: 32 lanes of BF16 or FP32. -/
def ldvBytes (op : Word) : Nat := if uLdvBf16 op then 64 else 128
/-- The data an LDV needs are in its ring. -/
def ldvReady (x : UnitSt) (op : Word) : Bool :=
  match ringBind x (uWRing op) with
  | some _ =>
    let r := sget .init x.cu.rings (uWRing op)
    decide (r.rdByte + ldvBytes op ≤ 64 * r.held)
  | none => false

/-- Block k of lane l's weight record, its outliers taken from `outs` (R55 to R59). -/
def weightBlk (x : UnitSt) (w : BitVec 64) (r : Ring) (l k : Nat) (outs : List (Nat × Nat × Word)) : BlkIn :=
  let c := x.cfg
  let f := cuWfmt c
  let o := recAt x r l
  let mine := outs.filter fun e => e.1 == k
  let skip := mine.map fun e => e.2.1
  let codes :=
    if isMx f then ringNat x w r (o + k / 2 * (2 * blockBytes f)) (2 * blockBytes f)
    else ringNat x w r (o + k * blockBytes f) (blockBytes f)
  let b := blkOf f (cuMxew c) (cuN2tab c) codes (recScale x w r o k) (if isMx f then k % 2 else 0) skip
  let vals := mine.map fun e => (e.2.1, bf16Elem e.2.2.toNat)
  let fine := fineOf (recHead x w r o)
  let dead := cuFine c && fine.2.2 == 1
  { blk := { b.blk with
      elems := if dead then b.blk.elems.map fun e => { e with s := 0, r := 0 } else b.blk.elems
      outs := if dead then [] else vals.map fun v => (v.1, ⟨v.2.s, v.2.e, mod7 v.2.s⟩) },
    nan := if dead then 0 else b.nan + (vals.map fun v => v.2.nan).sum,
    sat := if dead then 0 else b.sat + (vals.map fun v => v.2.sat).sum }
/-- Native activation block i of an LDB whose data start at offset o (R60, R91). -/
def actBlk (x : UnitSt) (w : BitVec 64) (r : Ring) (o i : Nat) : BlkIn :=
  let c := x.cfg
  let f := cuAfmt c
  let at_ := if isMx f then o + i / 2 * actBytes f else o + i * actBytes f
  let n := if isMx f then 4 * codeBits f else blockBytes f
  blkOf f (cuMxea c) 0 (ringNat x w r at_ n) (if f = 9 then 127 else ringByte x w r (at_ + n)) (if isMx f then i % 2 else 0) []

/-- What the check codes of the pocket rows read show: each corrected word counts, a double-bit error is POCKET_ECC (R88). -/
def pocketEcc (s : State) (u : Nat) (e : Ecc) (rows : List Nat) : State :=
  let s := bumpBy s u itCorr (min e.corrected (4 * rows.length))
  match e.double with
  | some i => if i < 4 * rows.length then unitFault s u cPocket (BitVec.ofNat 64 (nth 0 rows (i / 4))) else s
  | none => s

/-- The outliers of each lane's group: read with block 0 from the side records, and held for the later blocks (R57, R89). -/
def ldbOuts (x : UnitSt) (op : Word) (w : BitVec 64) (r : Ring) : List (List (Nat × Nat × Word)) :=
  if x.cu.wBlock = 0 then
    let wo := bindWord x.cfg (uORing op)
    let ro := sget Ring.init x.cu.rings (uORing op)
    let recs := outRecs x wo ro (outLanes x w r) ro.rdByte
    (upto 32).map fun l =>
      match recs.1.find? fun e => e.1 == l with
      | some e => outEntries x wo ro e.2.1 e.2.2
      | none => []
  else x.cu.outs
/-- The weight side of an LDB: the lanes' next blocks, the group's outliers with block 0, release after block 7 (R90). DESIGN CHOICE: where specials of Table 2-14 overlap, a group whose FINE is 0x7F counts that and its bad count fields only, not the specials of the elements it makes 0; an MX block of scale 0xFF counts once for each native half (log 116). A ring with KEEP = 1 that is not the activation ring is consumed as one without (R91, log 147). -/
def ldbWeights (s : State) (u : Nat) (op : Word) (t : Nat) : State :=
  let x := s.unit u
  match ringBind x (uWRing op) with
  | none => s
  | some w =>
    let c := x.cfg
    let r := sget .init x.cu.rings (uWRing op)
    let wo := bindWord c (uORing op)
    let ro := sget .init x.cu.rings (uORing op)
    let recs := outRecs x wo ro (outLanes x w r) ro.rdByte
    let k := x.cu.wBlock
    let outs := ldbOuts x op w r
    let badCounts := if k = 0 then
      (recs.1.map fun e => ((upto 8).filter fun j => e.2.2 / 4 ^ j % 4 == 3).length).sum else 0
    let n := ldbBlocks c
    let blks := (upto 32).map fun l => (upto n).map fun j => weightBlk x w r l (k + j) (nth [] outs l)
    let fines := (upto 32).map fun l => if cuFine c then fineOf (recHead x w r (recAt x r l)) else (1, 0, 0)
    let lanes := (upto 32).map fun l =>
      (⟨(nth [] blks l).map BlkIn.blk, (nth (1, 0, 0) fines l).1, (nth (1, 0, 0) fines l).2.1⟩ : LaneOp)
    let all := blks.flatten
    let fineNan := if k = 0 then (fines.map fun f => f.2.2).sum else 0
    let s := countFp s u ((all.map BlkIn.nan).sum + fineNan + badCounts) ((all.map BlkIn.sat).sum)
    let s := s.modCu u fun q => { q with wOp := timedPut q.wOp t (t + 2) (some lanes), outs := outs, wBlock := (k + n) % 8 }
    if k + n < 8 then s
    else
      let s := ringTake s u (uWRing op) (32 * recBytes (cuWfmt c) (cuFine c))
      let s := if (outLanes x w r).isEmpty then s else ringTake s u (uORing op) (recs.2 - ro.rdByte)
      s
/-- The activation side of an LDB (R91). DESIGN CHOICE: the blocks that R91 counts are native ones, so that in per-lane mode with an MX AFMT lanes 2i and 2i + 1 take the two halves of one MX block (R61, log 139). -/
def ldbActs (s : State) (u : Nat) (op : Word) (t : Nat) : State :=
  let x := s.unit u
  match ringBind x (uARing op) with
  | none => s
  | some w =>
    let c := x.cfg
    let r := sget .init x.cu.rings (uARing op)
    let n := ldbBlocks c
    let h := if isMx (cuAfmt c) then r.half else 0
    let bs := (upto (actCount c (uLdbPer op))).map fun i => actBlk x w r r.rdByte (h + i)
    let lanes := (upto 32).map fun l =>
      (⟨(upto n).map fun j => (nth ⟨⟨[], 0, []⟩, 0, 0⟩ bs (if uLdbPer op then n * l + j else j)).blk, 1, 0⟩ : LaneOp)
    let s := countFp s u ((bs.map BlkIn.nan).sum) ((bs.map BlkIn.sat).sum)
    let s := s.modCu u fun q =>
      { q with aOp := timedPut q.aOp t (t + 2) (some lanes),
               rings := smod .init q.rings (uARing op) fun r => { r with half := (h + actCount c (uLdbPer op)) % 2 } }
    if bKeep w then ringSkip s u (uARing op) (actTake c (uLdbPer op) h) (bRingLen w)
    else ringTake s u (uARing op) (actTake c (uLdbPer op) h)
/-- Refill every ring of a unit from its port's queue. -/
def refill (s : State) (u : Nat) : State :=
  match s.logical u with
  | some lu => forEach (upto 9) s fun s p => ringFill s lu u p 16
  | none => s

/-- Pocket rows of n bytes at offset o of a ring's held data; the ring wraps at its end (R85). -/
def ringRows (w : BitVec 64) (r : Ring) (o n : Nat) : List Nat :=
  let first := (r.wrTok + bRingLen w - r.held % bRingLen w) % bRingLen w
  if n = 0 then []
  else (upto ((o % 32 + n + 31) / 32)).map fun i => (2 * bRingBase w + (2 * first + o / 32 + i) % (2 * bRingLen w)) % 2048
/-- The rows an LDB reads, ring by ring (R86). Stage 0 reads each byte of a group's 32 records once, in ring order, an eighth of them for each block; the side records of a group with block 0; the activation blocks as they stand. DEDUCED: the worked example of the chapter has an LDB of 32 records of 73 bytes meet no bank twice, which reading every lane's own row in one cycle cannot give (log 119). -/
def ldbRows (x : UnitSt) (op : Word) : List (List Nat) :=
  let c := x.cfg
  let r (b : Nat) := sget Ring.init x.cu.rings b
  let ws := if !uLdbW op then [] else match ringBind x (uWRing op) with
    | some w =>
      let q := r (uWRing op)
      let n := 32 * recBytes (cuWfmt c) (cuFine c)
      let k := x.cu.wBlock
      let lanes := if k = 0 then outLanes x w q else []
      let wo := bindWord c (uORing op)
      let ro := r (uORing op)
      [ringRows w q (q.rdByte + n * k / 8) (n * (k + ldbBlocks c) / 8 - n * k / 8),
       if lanes.isEmpty then [] else ringRows wo ro ro.rdByte ((outRecs x wo ro lanes ro.rdByte).2 - ro.rdByte)]
    | none => []
  let as_ := if !uLdbA op then [] else match ringBind x (uARing op) with
    | some w =>
      let q := r (uARing op)
      [ringRows w q q.rdByte (actNeed c (uLdbPer op) q.half)]
    | none => []
  ws ++ as_
/-- The rows of one stream cut into stage 0 reads: each takes at most one row of a bank (R86). -/
def cutReads : List Nat → List Nat → List (List Nat)
  | [], cur => if cur.isEmpty then [] else [cur]
  | r :: rs, cur => if cur.contains (r % 16) then cur :: cutReads rs [r % 16] else cutReads rs (cur ++ [r % 16])
/-- Stage 0 reads rows of the pocket (R86, R87). -/
def stage0Reads (s : State) (u : Nat) (rows : List (List Nat)) : State :=
  forEach (rows.flatMap fun l => cutReads l []) s fun s bs => useBanks s u 3 bs

/-- LDB: stage 0 takes the next weight and activation blocks (R89 to R92); what it reads is seen by stage 1 two schedule cycles later. -/
def execLdb (u : Fin 9792) (ecc : Ecc) (s : State) : Host.Outcome State Fault Refusal :=
  .next <|
    match dueOp s u 0 1 with
    | some (w, t) =>
      if !ldbReady (s.unit u) w then s
      else
        let rows := ldbRows (s.unit u) w
        let s := pocketEcc (stage0Reads s u rows) u ecc rows.flatten
        let s := if uLdbW w then ldbWeights s u w t else s
        let s := if uLdbA w then ldbActs s u w t else s
        refill (retire s u 0 t) u
    | none => s

/-- Lane i of an LDV under the input policy: a BF16 infinity becomes the largest finite of BF16 (Table 2-14). -/
def ldvLane (x : UnitSt) (w : Word) (b : BitVec 64) (r : Ring) (i : Nat) : Fp :=
  if uLdvBf16 w then
    let v := BitVec.ofNat 32 (ringNat x b r (r.rdByte + 2 * i) 2 * 65536)
    if fpIsInf v then ⟨if fpSign v then 0xFF7F0000 else 0x7F7F0000, 0, 1⟩ else fpIn v
  else fpIn (BitVec.ofNat 32 (ringNat x b r (r.rdByte + 4 * i) 4))
/-- LDV: 32 lanes into IN, BF16 widened to FP32, the input policy applied (Table 3-6, R76). -/
def execLdv (u : Fin 9792) (ecc : Ecc) (s : State) : Host.Outcome State Fault Refusal :=
  .next <|
    match dueOp s u 0 2 with
    | some (w, t) =>
      let x := s.unit u
      match ringBind x (uWRing w) with
      | some b =>
        if !ldvReady x w then s
        else
          let r := sget .init x.cu.rings (uWRing w)
          let v := (upto 32).map fun i => ldvLane x w b r i
          let rows := ringRows b r r.rdByte (ldvBytes w)
          let s := pocketEcc (stage0Reads s u [rows]) u ecc rows
          let s := countFp s u (v.map Fp.nan).sum (v.map Fp.sat).sum
          let s := s.modCu u fun c =>
            { c with regs := smod [] c.regs 20 fun l =>
                timedPut l t (t + 2) (some (mkVec fun i => (nth ⟨0, 0, 0⟩ v i).v)) }
          refill (retire (ringTake s u (uWRing w) (ldvBytes w)) u 0 t) u
      | none => s
    | none => s

/-! Stage 1 (R63, R80, R94). -/

/-- The exact sum of two terms. -/
def addTerm (a b : Term) : Term :=
  if a.s = 0 then b else if b.s = 0 then a
  else
    let e := min a.e b.e
    ⟨a.s * 2 ^ (a.e - e).toNat + b.s * 2 ^ (b.e - e).toNat, e,
     (a.r * pow2mod7 (a.e - e).toNat + b.r * pow2mod7 (b.e - e).toNat) % 7⟩
def Term.zero : Term := ⟨0, 0, 0⟩
/-- The terms of lane blocks (w, a) in part p of a mode (Table 3-4), and the partial sum held after it: a block that spans several cycles is summed exactly and gives its term with the last (R94). DESIGN CHOICE: outliers form terms in every mode; the spec does not say what OUTL = 1 does in a mode without outlier slots (log 116). -/
def laneTerms (mode p : Nat) (held : Term) (w a : Blk) : List Term × Term :=
  let n := 16 / modeParts mode
  let lo := n * p
  match mode with
  | 3 | 5 | 7 => (elemTerms w a lo (lo + n) ++ outTerms w a lo (lo + n), Term.zero)
  | 4 | 6 =>
    let sum := addTerm held (blockTerm w a lo (lo + n))
    if p + 1 = modeParts mode then (outTerms w a lo (lo + n) ++ [sum], Term.zero) else (outTerms w a lo (lo + n), sum)
  | _ => (blockTerm w a 0 16 :: outTerms w a 0 16, Term.zero)
/-- Upset of bit b of an integer. -/
def flipInt (i : Int) (b : Nat) : Int := if i / 2 ^ b % 2 = 1 then i - 2 ^ b else i + 2 ^ b
/-- One DOT on the operands of a lane: each pair of blocks in turn; with the partial sum held after it. -/
def dotLane (mode p : Nat) (held : Term) (w a : LaneOp) : LaneTerms × Term :=
  let ts := (upto (max w.blks.length 1)).map fun j =>
    laneTerms mode p held (nth ⟨[], 0, []⟩ w.blks j) (nth ⟨[], 0, []⟩ a.blks j)
  (⟨(ts.map Prod.fst).flatten, w.f, w.ef⟩, (ts.map Prod.snd).headD Term.zero)
/-- The first term of a lane with one bit upset. -/
def upsetTerms (ts : List Term) (b : Nat) : List Term :=
  match ts with
  | [] => []
  | t :: r => { t with s := flipInt t.s b } :: r
/-- Every term agrees with its residue (R80). -/
def residuesOk (ts : List Term) : Bool := ts.all fun t => mod7 t.s == t.r
/-- Blocks, or elements, that part p of a mode completes per lane (R95). -/
def partUnits (mode p nblk : Nat) : Nat :=
  if modeElem mode then 16 / modeParts mode else if p + 1 = modeParts mode then nblk else 0

/-- DOT: stage 1 forms each lane's exact terms in the mode of the header; `upset` flips one bit of one lane's first term, which the residue check finds (R63, R80, R82, R94). -/
def execDot (u : Fin 9792) (upset : Option (Fin 32 × Fin 24)) (s : State) : Host.Outcome State Fault Refusal :=
  .next <|
    match dueOp s u 1 1 with
    | some (_, t) =>
      let x := s.unit u
      let mode := cuMode x.cfg
      let p := x.cu.dotPart
      match timedGet none x.cu.wOp t, timedGet none x.cu.aOp t with
      | some ws, some as_ =>
        let dots := (upto 32).map fun l => dotLane mode p (nth Term.zero x.cu.partials l) (nth ⟨[], 1, 0⟩ ws l) (nth ⟨[], 1, 0⟩ as_ l)
        let lanes := dots.map Prod.fst
        let lanes := match upset with
          | some (l, b) => (upto 32).map fun i =>
              let k := nth ⟨[], 1, 0⟩ lanes i
              if i = l.val then { k with terms := upsetTerms k.terms b } else k
          | none => lanes
        let ok := lanes.all fun l => residuesOk l.terms
        let out : TermOp := ⟨lanes, partUnits mode p (ldbBlocks x.cfg)⟩
        let s := s.modCu u fun c =>
          { c with terms := timedPut c.terms t (t + 3) (some out), dotPart := (p + 1) % modeParts mode, partials := dots.map Prod.snd }
        let s := if ok then s else unitFault s u cResidue 0
        retire s u 1 t
      | _, _ =>
        retire (s.modCu u fun c => { c with terms := timedPut c.terms t (t + 3) none }) u 1 t
    | none => s

/-! Stage 2 (R65 to R67, R81, R95, R96). -/

/-- A lane of a slot takes terms. -/
def laneAdd (a : LaneAcc) (t : LaneTerms) : LaneAcc :=
  { a with terms := a.terms ++ t.terms, f := t.f, ef := t.ef }
/-- A lane closes its group: partial, FP32 value, tree (R65 to R67). Answers the lane, terms rounded, saturations, residue agreement. -/
def laneClose (mode : Nat) (flip : Option Nat) (a : LaneAcc) : LaneAcc × Nat × Nat × Bool :=
  let p := alignTerms (modeC mode) a.terms
  let p := match flip with | some b => { p with i := flipInt p.i b } | none => p
  let g := groupValue p a.f a.ef
  let (node, sat) := treePush g.v g.sat a.node
  ({ a with terms := [], node := node }, p.rounded, sat, p.rounded != 0 || mod7 p.i == p.r)
def LaneAcc.zero : LaneAcc := ⟨[], [], 1, 0⟩
/-- The 32 lanes of a slot. -/
def slotLanes (sl : Slot) : List LaneAcc := (upto 32).map fun l => nth LaneAcc.zero sl.lanes l
/-- A slot's accumulation has its last term: the fold of R67, ready after the latency of R96; until then the earlier result stays. -/
def slotFinish (sl : Slot) (g t : Nat) : Slot × Nat :=
  let rs := sl.lanes.map fun a => treeFold a.node none 0
  ({ sl with lanes := [], units := 0, groups := 0,
             closing := sl.closing ++ [(t, t + slotLatency g, mkVec fun i => (nth ⟨0, 0, 0⟩ rs i).v)] }, (rs.map Fp.sat).sum)

/-- ACC s: the lanes' terms join slot s; a full group is aligned, converted and given to the tree, and after G groups the accumulation closes; `upset` flips a bit of one lane's partial (R65 to R67, R81, R82, R95). DESIGN CHOICE: a slot that header word 1 does not make active takes no terms (log 117). -/
def execAcc (u : Fin 9792) (upset : Option (Fin 32 × Fin 40)) (s : State) : Host.Outcome State Fault Refusal :=
  .next <|
    match dueOp s u 2 1 with
    | some (w, t) =>
      let x := s.unit u
      let mode := cuMode x.cfg
      match timedGet none x.cu.terms t with
      | some op =>
        let k := uSlot w
        if cuSlots x.cfg ≤ k then retire s u 2 t else
        let sl := sget Slot.init x.cu.slots k
        let lanes := (upto 32).map fun l =>
          laneAdd (nth LaneAcc.zero (slotLanes sl) l) (nth ⟨[], 1, 0⟩ op.lanes l)
        let sl := { sl with lanes := lanes, units := sl.units + op.units }
        if sl.units < modeClose mode then
          retire (s.modCu u fun c => { c with slots := sset Slot.init c.slots k sl }) u 2 t
        else
          let cl := (upto 32).map fun l =>
            laneClose mode (match upset with | some (i, b) => if i.val = l then some b.val else none | none => none)
              (nth LaneAcc.zero lanes l)
          let rounded := (cl.map fun c => c.2.1).sum
          let sl := { sl with lanes := cl.map Prod.fst, units := 0, groups := sl.groups + 1 }
          let fin := decide (cuGroups x.cfg ≤ sl.groups)
          let (sl, fs) := if fin then slotFinish sl (cuGroups x.cfg) t else (sl, 0)
          let s := s.modCu u fun c => { c with slots := sset Slot.init c.slots k sl }
          let s := addItem s u itAlign rounded
          let s := setFlags s u (if rounded = 0 then 0 else 8)
          let s := countFp s u 0 ((cl.map fun c => c.2.2.1).sum + fs)
          let s := if cl.all fun c => c.2.2.2 then s else unitFault s u cResidue 0
          retire s u 2 t
      | none => retire s u 2 t
    | none => s

/-- SLOT_RESULT_READY: the closing latency of a slot's accumulation is over and its result stands in S s, in place of the one before (R96): from the cycle in which it is ready on. -/
def execSlotResultReady (u : Fin 9792) (slot : Fin 4) (s : State) : Host.Outcome State Fault Refusal :=
  .next <|
    let sl := sget Slot.init (s.unit u).cu.slots slot
    match sl.closing with
    | (_, r, v) :: rest =>
      if r < (s.unit u).cu.cyc && cuRuns s u then
        s.modCu u fun c => { c with slots := sset Slot.init c.slots slot { sl with closing := rest, result := some v } }
      else s
    | [] => s

/-! Stage 3 (R98 to R100). -/

/-- A register's value at cycle t: V0 to V15 start valid (log 3), the others not. -/
def regAtCycle (c : Cu) (r t : Nat) : Option Vec :=
  timedGet (if r < 16 then some 0 else none) (sget [] c.regs r) t
/-- A stage 3 operand (Table 3-5): whether it holds the unit (R99), and its value. A slot result holds it while none has become ready and while an accumulation whose last term came before cycle t still closes (log 120). -/
def selRead (c : Cu) (code imm t : Nat) : Bool × Option Vec :=
  if 16 ≤ code ∧ code ≤ 19 then
    let sl := sget Slot.init c.slots (code - 16)
    (sl.result.isNone || sl.closing.any fun p => decide (p.1 < t), sl.result)
  else if code = 21 then (false, some (BitVec.ofNat 1024 (pocketRead c.pocket (32 * imm) 128)))
  else (false, regAtCycle c code t)
/-- Whether the slot operands of a stage 3 operation are ready (R99). -/
def stage3Ready (c : Cu) (w : Word) (t : Nat) : Bool :=
  !(selRead c (uSA w) (uImm w) t).1 && !(uopUsesB (uOp w) && (selRead c (uSB w) (uImm w) t).1)
/-- Write a stage 3 result, seen after the operation's latency; PK takes its write to the pocket then (R86, R98, Table 3-5). -/
def selWrite (s : State) (u : Nat) (w : Word) (t : Nat) (v : Option Vec) : State :=
  let r := t + uopLatency 3 (uOp w)
  if uSD w = 21 then
    match v with
    | some x => s.modCu u fun c => { c with pk := c.pk ++ [(r, 32 * uImm w, x)] }
    | none => s
  else s.modCu u fun c => { c with regs := smod [] c.regs (uSD w) fun l => timedPut l t r v }
/-- The pocket rows a stage 3 operation reads: PK's 128 bytes, once (R86). -/
def stage3Rows (w : Word) : List Nat :=
  if uSA w = 21 ∨ (uopUsesB (uOp w) ∧ uSB w = 21) ∨ (uOp w = 7 ∧ uSD w = 21) then rowSpan (32 * uImm w) 128 else []
/-- Apply a lane function of the operands SA, SB and the destination's old value; an operand that is not valid gives a result that is not valid (R84). -/
def stage3 (s : State) (u : Nat) (op : Nat) (ecc : Ecc) (f : Word → Nat → Vec → Vec → Vec → Fp) : State :=
  match dueOp s u 3 op with
  | some (w, t) =>
    let c := (s.unit u).cu
    if !stage3Ready c w t then s
    else
      let a := (selRead c (uSA w) (uImm w) t).2
      let b := if uopUsesB op then (selRead c (uSB w) (uImm w) t).2 else some 0
      let d := if op = 7 then (selRead c (uSD w) (uImm w) t).2 else some 0
      let rows := stage3Rows w
      let s := pocketEcc (useBanks s u 2 (rows.map (· % 16))) u ecc rows
      match a, b, d with
      | some a, some b, some d =>
        let r := (upto 32).map fun i => f w i a b d
        let s := countFp s u (r.map Fp.nan).sum (r.map Fp.sat).sum
        retire (selWrite s u w t (some (mkVec fun i => (nth ⟨0, 0, 0⟩ r i).v))) u 3 t
      | _, _, _ => retire (selWrite s u w t none) u 3 t
  | none => s

/-- FADD: SD := SA + SB (R52). -/
def execFadd (u : Fin 9792) (ecc : Ecc) (s : State) : Host.Outcome State Fault Refusal :=
  .next (stage3 s u 1 ecc fun _ i a b _ => fpAdd (lane a i) (lane b i))
/-- FMUL: SD := SA × SB. -/
def execFmul (u : Fin 9792) (ecc : Ecc) (s : State) : Host.Outcome State Fault Refusal :=
  .next (stage3 s u 2 ecc fun _ i a b _ => fpMul (lane a i) (lane b i))
/-- FMIN: minimum, -0 below +0 (R77). -/
def execFmin (u : Fin 9792) (ecc : Ecc) (s : State) : Host.Outcome State Fault Refusal :=
  .next (stage3 s u 3 ecc fun _ i a b _ => fpMin (lane a i) (lane b i))
/-- FMAX: maximum, -0 below +0 (R77). -/
def execFmax (u : Fin 9792) (ecc : Ecc) (s : State) : Host.Outcome State Fault Refusal :=
  .next (stage3 s u 4 ecc fun _ i a b _ => fpMaxOp (lane a i) (lane b i))
/-- CMPLT: 1.0 where SA < SB, else +0. -/
def execCmplt (u : Fin 9792) (ecc : Ecc) (s : State) : Host.Outcome State Fault Refusal :=
  .next (stage3 s u 5 ecc fun _ i a b _ => fpLt (lane a i) (lane b i))
/-- CMPEQ: 1.0 where SA = SB, else +0. -/
def execCmpeq (u : Fin 9792) (ecc : Ecc) (s : State) : Host.Outcome State Fault Refusal :=
  .next (stage3 s u 6 ecc fun _ i a b _ => fpEq (lane a i) (lane b i))
/-- SEL: SA where the old SD is not 0, else SB. -/
def execSel (u : Fin 9792) (ecc : Ecc) (s : State) : Host.Outcome State Fault Refusal :=
  .next (stage3 s u 7 ecc fun _ i a b d =>
    let c := fpIn (lane d i)
    let x := fpIn (lane a i)
    let y := fpIn (lane b i)
    ⟨if fld c.v 0 31 ≠ 0 then x.v else y.v, c.nan + x.nan + y.nan, c.sat + x.sat + y.sat⟩)
/-- MOV: SD := SA, under the input policy (R76). -/
def execMov (u : Fin 9792) (ecc : Ecc) (s : State) : Host.Outcome State Fault Refusal :=
  .next (stage3 s u 8 ecc fun _ i a _ _ => fpIn (lane a i))
/-- ROT: lane i of SD := lane (i + IMM) mod 32 of SA. -/
def execRot (u : Fin 9792) (ecc : Ecc) (s : State) : Host.Outcome State Fault Refusal :=
  .next (stage3 s u 9 ecc fun w i a _ _ => fpIn (lane a ((i + uImm w % 32) % 32)))
/-- BFR: each lane to BF16 precision. -/
def execBfr (u : Fin 9792) (ecc : Ecc) (s : State) : Host.Outcome State Fault Refusal :=
  .next (stage3 s u 10 ecc fun _ i a _ _ => fpOp1 fpToBf16 (lane a i))
/-- SCL: SD := SA × 2^(IMM - 256). -/
def execScl (u : Fin 9792) (ecc : Ecc) (s : State) : Host.Outcome State Fault Refusal :=
  .next (stage3 s u 11 ecc fun w i a _ _ => fpOp1 (fpScale ((uImm w % 512 : Int) - 256)) (lane a i))

/-! Stage 4 (R101, Table 3-7). -/

/-- The register stage 4 writes, read by stage 5. -/
def regOut4 : Nat := 32
/-- Apply a stage 4 function to the OUT vector. -/
def stage4 (s : State) (u : Nat) (op : Nat) (f : Word → Fp) : State :=
  match dueOp s u 4 op with
  | some (_, t) =>
    let put (s : State) (v : Option Vec) : State := s.modCu u fun c =>
      { c with regs := smod [] c.regs regOut4 fun l => timedPut l t (t + uopLatency 4 op) v }
    match regAtCycle (s.unit u).cu 22 t with
    | some v =>
      let r := (upto 32).map fun i => f (lane v i)
      let s := countFp s u (r.map Fp.nan).sum (r.map Fp.sat).sum
      retire (put s (some (mkVec fun i => (nth ⟨0, 0, 0⟩ r i).v))) u 4 t
    | none => retire (put s none) u 4 t
  | none => s

/-- EXP: e to the x. -/
def execExp (u : Fin 9792) (s : State) : Host.Outcome State Fault Refusal := .next (stage4 s u 1 (stage4Fn 1))
/-- EXP2: 2 to the x. -/
def execExp2 (u : Fin 9792) (s : State) : Host.Outcome State Fault Refusal := .next (stage4 s u 2 (stage4Fn 2))
/-- LOG: natural logarithm. -/
def execLog (u : Fin 9792) (s : State) : Host.Outcome State Fault Refusal := .next (stage4 s u 3 (stage4Fn 3))
/-- RSQRT: reciprocal square root. -/
def execRsqrt (u : Fin 9792) (s : State) : Host.Outcome State Fault Refusal := .next (stage4 s u 4 (stage4Fn 4))
/-- RCP: reciprocal. -/
def execRcp (u : Fin 9792) (s : State) : Host.Outcome State Fault Refusal := .next (stage4 s u 5 (stage4Fn 5))
/-- TANH. -/
def execTanh (u : Fin 9792) (s : State) : Host.Outcome State Fault Refusal := .next (stage4 s u 6 (stage4Fn 6))
/-- SIGM: the logistic function. -/
def execSigm (u : Fin 9792) (s : State) : Host.Outcome State Fault Refusal := .next (stage4 s u 7 (stage4Fn 7))
/-- GELUT: GELU in its tanh form. -/
def execGelut (u : Fin 9792) (s : State) : Host.Outcome State Fault Refusal := .next (stage4 s u 8 (stage4Fn 8))
/-- GELUE: GELU in its erf form. -/
def execGelue (u : Fin 9792) (s : State) : Host.Outcome State Fault Refusal := .next (stage4 s u 9 (stage4Fn 9))
/-- SILU: x times the logistic function. -/
def execSilu (u : Fin 9792) (s : State) : Host.Outcome State Fault Refusal := .next (stage4 s u 10 (stage4Fn 10))
/-- SQRT: square root. -/
def execSqrt (u : Fin 9792) (s : State) : Host.Outcome State Fault Refusal := .next (stage4 s u 11 (stage4Fn 11))
/-- PASS: the OUT vector unchanged. -/
def execPass (u : Fin 9792) (s : State) : Host.Outcome State Fault Refusal := .next (stage4 s u 16 fun x => ⟨x, 0, 0⟩)

/-! Stage 5 (R69 to R75, R102). -/

/-- The stage 5 result that a push of source cycle t takes: the latest of a micro-operation up to then. -/
def outFor (q : List (Nat × List (Option Row))) (t : Nat) : Option (Nat × List (Option Row)) :=
  (q.filter fun e => decide (e.1 ≤ t)).getLast?
/-- Stage 5's result of cycle t, none where the operand was not valid (R84); earlier results stay while a push still takes them. -/
def outPut (s : State) (u t : Nat) (l : List (Option Row)) : State :=
  s.modCu u fun c =>
    { c with outq := (c.outq.filter fun e => c.pushes.any fun p => (outFor c.outq p.src).map Prod.fst == some e.1) ++ [(t, l)] }
/-- The seed tokens that hold from cycle t or before are loaded: SEED, STEP, and BLK restarts at 0 (R75, R102). -/
def loadSeeds (c : Cu) (t : Nat) : Cu :=
  (c.seeds.filter fun d => decide (d.1 ≤ t)).foldl (fun c d => { c with seed := d.2.1, step := d.2.2, blk := 0 })
    { c with seeds := c.seeds.filter fun d => decide (t < d.1) }
/-- A block's record: codes, then the scale byte (R54, R60). -/
def qRecord (ofmt : Nat) (q : QBlock) : Nat :=
  let b := if ofmt = 5 then 4 else 8
  packNat b (fun i => nth 0 q.codes i) 16 + q.scale * 2 ^ (16 * b)
/-- Quantise half h of a vector (R69 to R75). -/
def qHalf (x : UnitSt) (v : Vec) (h : Nat) : QBlock :=
  let c := x.cfg
  let ofmt := cuOfmt c
  let xs := (upto 16).map fun i => (fpIn (lane v (16 * h + i))).v
  let u (i : Nat) := if cuRnd c then some (genU x.cu.seed x.cu.step (cuQid c) ((x.cu.blk.toNat + h) % 2 ^ 18) i) else none
  quantBlock ofmt (cuNoClip c) u xs
/-- The 64-byte rows of a vector as FP32, lanes 0-15 first. -/
def fp32Rows (v : Vec) : List Row := [v.extractLsb' 0 512, v.extractLsb' 512 512]
/-- 32 BF16 lanes as 64 bytes. -/
def bf16Row (f : Nat → Word) : Row := mkRow 16 32 fun i => (f i).toNat / 65536

/-- QNT: quantises lanes 0-15 and 16-31 as header word 3 says (R69 to R75, R102); clips are counted by lane and by half (R72). BF16 output takes no scale and rounds to nearest even (R52, R69). DESIGN CHOICE: the two blocks lie back to back from byte 0 of the token, lanes 0-15 first; the token's bytes above them are free, but the same for the same records (R68, log 16). -/
def execQnt (u : Fin 9792) (s : State) : Host.Outcome State Fault Refusal :=
  .next <|
    match dueOp s u 5 1 with
    | some (_, t) =>
      let s := s.modCu u fun c => loadSeeds c t
      let x := s.unit u
      match regAtCycle x.cu regOut4 t with
      | none => retire (outPut s u t [none]) u 5 t
      | some v =>
        let ofmt := cuOfmt x.cfg
        let s := s.modCu u fun c => { c with blk := c.blk + 2 }
        if ofmt = 10 then retire (outPut s u t ((fp32Rows v).map some)) u 5 t
        else if ofmt = 9 then
          let r := (upto 32).map fun i => fpOp1 fpToBf16 (lane v i)
          let s := countFp s u (r.map Fp.nan).sum (r.map Fp.sat).sum
          retire (outPut s u t [some (bf16Row fun i => (nth ⟨0, 0, 0⟩ r i).v)]) u 5 t
        else
          let a := qHalf x v 0
          let b := qHalf x v 1
          let clips := a.clips ++ b.clips
          let s := forEach (upto 32) s fun s i => addItem s u i (b2n (nth false clips i))
          let s := addItem s u 32 (b2n (a.clips.any id))
          let s := addItem s u 33 (b2n (b.clips.any id))
          let s := setFlags s u (BitVec.ofNat 5 (4 * b2n (clips.any id) + 16 * b2n (a.range || b.range)))
          let n := if ofmt = 5 then 72 else 136
          let recs := qRecord ofmt a + qRecord ofmt b * 2 ^ n
          let pad := Config.qntPad (BitVec.ofNat 512 recs)
          retire (outPut s u t [some (BitVec.ofNat 512 (recs + pad.toNat / 2 ^ (2 * n) * 2 ^ (2 * n)))]) u 5 t
    | none => s

/-- PKB: packs 32 lanes as BF16 into 64 bytes, rounded to nearest even (R52). -/
def execPkb (u : Fin 9792) (s : State) : Host.Outcome State Fault Refusal :=
  .next <|
    match dueOp s u 5 2 with
    | some (_, t) =>
      match regAtCycle (s.unit u).cu regOut4 t with
      | none => retire (outPut s u t [none]) u 5 t
      | some v =>
        let r := (upto 32).map fun i => fpOp1 fpToBf16 (lane v i)
        let s := countFp s u (r.map Fp.nan).sum (r.map Fp.sat).sum
        retire (outPut s u t [some (bf16Row fun i => (nth ⟨0, 0, 0⟩ r i).v)]) u 5 t
    | none => s

/-- PKF: passes 32 FP32 lanes as 128 bytes in two pushes, lanes 0-15 first. -/
def execPkf (u : Fin 9792) (s : State) : Host.Outcome State Fault Refusal :=
  .next <|
    match dueOp s u 5 3 with
    | some (_, t) =>
      match regAtCycle (s.unit u).cu regOut4 t with
      | none => retire (outPut s u t [none, none]) u 5 t
      | some v => retire (outPut s u t ((fp32Rows v).map some)) u 5 t
    | none => s

/-! Every stage (R100). -/

/-- NOP: the stage's counter moves on. -/
def execNop (u : Fin 9792) (stage : Fin 6) (s : State) : Host.Outcome State Fault Refusal :=
  .next <|
    match dueOp s u stage 0 with
    | some (_, t) => retire s u stage t
    | none => s
/-- WRAP: the stage's counter returns to 0, in no schedule cycle; the operation at index 0 then executes in its place. DESIGN CHOICE: where index 0 is itself WRAP, the configuration loads, and WRAP stays the next operation for ever (R100, log 138). -/
def execWrap (u : Fin 9792) (stage : Fin 6) (s : State) : Host.Outcome State Fault Refusal :=
  .next <|
    match dueOp s u stage 0x3F with
    | some _ => s.modCu u fun c => { c with pcs := sset 0 c.pcs stage 0 }
    | none => s

end Sys2Proof.Machine
end

