-- ==== Sys2Proof/Machine/CuSched.lean ====
section
/-! DEFINITION. Firing and the micro-schedule (R106 to R112): UNIT_FIRE for units of both kinds, SCHED_STEP, SCHED_LOOP, SCHED_END. -/

namespace Sys2Proof.Machine

/-- A unit runs: its quarter and its zone's schedule are running (R308). -/
def unitRuns (s : State) (u : Nat) : Bool :=
  s.quarterRuns (physZone u / 12) && (s.zone (physZone u)).running
/-- A context-select token waits at an MU (R135). -/
def ctxWaiting (s : State) (lu : Nat) (x : UnitSt) : Bool :=
  muCtxselEn x.cfg && decide (0 < curTokens x (s.chan lu (muCtxsel x.cfg)))
/-- Every port that R159 names has delivered its sequence, one carrier is in and passed its checks, and no firing is in progress, nor anything that one has advanced and not yet executed or pushed (R161, log 122). -/
def switchReady (x : UnitSt) (mu : Bool) : Bool :=
  x.shadow.carriers == 1 && !x.stopped && !x.firing && x.cu.due.isEmpty && x.cu.pushes.isEmpty &&
    ((if x.loaded then inputPorts mu x.cfg else []) ++ inputPorts mu x.shadow.cfg).all fun p => bit x.shadow.absorbed p
/-- The conditions of R106, for a unit that no CONFIG or BOUNDS fault keeps from firing (R114, R147), nor a generation switch that is due or was taken in this schedule cycle (R161): NEED tokens on every valid input, NEED credits on every valid output, no firing in progress. -/
def canFire (s : State) (lu u : Nat) : Bool :=
  let x := s.unit u
  let mu := isMu u
  x.loaded && !x.stopped && !x.firing && !fireDone x mu && !switchReady x mu &&
    decide (x.switched ≠ some (s.zone (physZone u)).sched) &&
    !(mu && (ctxWaiting s lu x || x.mu.switching || !x.mu.used.isEmpty)) &&
    (curBindings x mu).all fun b =>
      if bOut b.2 then decide (bNeed b.2 ≤ creditsOut s lu (bPort b.2)) else decide (bNeed b.2 ≤ available s lu x b)

/-- The head token of a seed binding: read out of its ring in the pocket, where `ecc` is what the check codes show (R88), or popped from its port (R102). -/
def seedToken (s : State) (lu u : Nat) (b : Nat × BitVec 64) (ecc : Ecc) : Option Row × State :=
  match ringBind (s.unit u) b.1 with
  | some w =>
    let r := sget Ring.init (s.unit u).cu.rings b.1
    let rows := ringRows w r r.rdByte 64
    let s := pocketEcc s u ecc rows
    (some (BitVec.ofNat 512 (ringNat (s.unit u) w r r.rdByte 64)),
     if bKeep w then ringSkip s u b.1 64 (bRingLen w) else refill (ringTake s u b.1 64) u)
  | none =>
    let r := popToken s lu u (bPort b.2)
    (r.1.map (·.payload), r.2)
/-- The seed token of a firing is consumed when it starts; its SEED and STEP hold for the QNTs that this firing advances, from OFF5 cycles on, while those of the firing before draw with theirs (R75, R102). DESIGN CHOICE: the spec says only that it is consumed at each firing before its first QNT (log 121); with RND = 1 and no seed input bound the unit loads and draws with SEED and STEP as they stand (R102, log 121). -/
def takeSeed (s : State) (lu u : Nat) (ecc : Ecc) : State :=
  let x := s.unit u
  if isMu u || !cuRnd x.cfg then s
  else match (curBindings x false).find? fun b => bSeed b.2 && !bOut b.2 with
    | some b =>
      match seedToken s lu u b ecc with
      | (some p, s) => s.modCu u fun c =>
          { c with seeds := c.seeds ++ [(c.cyc + cuOff x.cfg 5, p.extractLsb' 0 64, p.extractLsb' 64 32)] }
      | (none, s) => s
    | none => s

/-- UNIT_FIRE: a unit whose inputs and outputs hold NEED starts its micro-schedule at entry 0, or an MU its context's AGs (R106, R125, R138); `ecc` is what a seed read from the pocket shows (R88). -/
def execUnitFire (u : Fin 9792) (ecc : Ecc) (s : State) : Host.Outcome State Fault Refusal :=
  .next <|
    match s.logical u with
    | some lu =>
      if unitRuns s u && canFire s lu u then
        let s := takeSeed s lu u ecc
        s.modUnit u fun x =>
          { x with firing := true, elasticHold := false,
                   cu := { x.cu with entry := 0, rep := 0, loops := [] },
                   mu := { x.mu with ags := [], fireCyc := 0, late := [], holding := false } }
      else s
    | none => s

/-! Micro-schedule. -/

/-- The word stage st executes after k more advances from counter pc, WRAP taking no cycle (R100). -/
def wordAfter (c : UnitCfg) (st pc : Nat) : Nat → Word
  | 0 => let w := uopWord c st pc; if uOp w = 0x3F then uopWord c st 0 else w
  | k + 1 => wordAfter c st (if uOp (uopWord c st pc) = 0x3F then 1 else (pc + 1) % 64) k
/-- Stage 5's latency for a push of this cycle (R108): that of the micro-operation this STEP advances, or of the one before. -/
def pushLatency (x : UnitSt) (adv : Bool) : Nat :=
  let n := (x.cu.due.filter fun d => d.stage == 5).length
  let w :=
    if adv then wordAfter x.cfg 5 (sget 0 x.cu.pcs 5) n
    else if n = 0 then uopWord x.cfg 5 (sget 0 x.cu.pcs 5 + 63) else wordAfter x.cfg 5 (sget 0 x.cu.pcs 5) (n - 1)
  uopLatency 5 (uOp w)
/-- Times the body of the LOOP at entry i has been completed. -/
def loopTimes (c : Cu) (i : Nat) : Nat := ((c.loops.find? fun l => l.1 == i).map Prod.snd).getD 0
/-- Some STEP among entries [lo, hi) pushes to output b. -/
def pushesIn (c : UnitCfg) (lo hi b : Nat) : Bool :=
  (upto 80).any fun i => decide (lo ≤ i ∧ i < hi) && schKind (schedWord c i) == 0 && schPush (schedWord c i) == some b
/-- A later push to output b follows in this firing (R111): in the same STEP's further cycles, in entries before END, or in a loop body that runs again. -/
def pushAhead (x : UnitSt) (b : Nat) : Bool :=
  let c := x.cfg
  let e := x.cu.entry
  let n := schedLen c
  (schPush (schedWord c e) == some b && decide (x.cu.rep < schRepeat (schedWord c e))) || pushesIn c (e + 1) n b ||
    (upto 80).any fun i =>
      decide (e < i ∧ i < n) && schKind (schedWord c i) == 1 &&
        decide (loopTimes x.cu i < schCount (schedWord c i)) && pushesIn c (schTarget (schedWord c i)) i b

/-- A schedule cycle in which the micro-schedule is held: slots go on closing (R96). -/
def heldCycle (c : Cu) : Cu :=
  { c with slots := c.slots.map fun sl => (sl.1, { sl.2 with closing := sl.2.closing.map fun p => (p.1, p.2.1 - 1, p.2.2) }) }
/-- A unit holds for one schedule cycle: each counter named gains 1 (R93, R99, R110); `ext` where it waits on the fabric or on a parked crossing (R173). -/
def holdCycle (s : State) (u : Nat) (is : List Nat) (ext : Bool) : State :=
  (forEach is s fun s i => bump s u i).modUnit u fun x => { x with elasticHold := ext, cu := heldCycle x.cu }
/-- A wait on input port p is a wait on the fabric or on a parked crossing (R173). -/
def waitsOutside (s : State) (lu p : Nat) : Bool := p == 8 || chanParked s lu p
/-- A wait for a credit of output port p is a wait on the fabric or on a parked crossing (R173). -/
def creditOutside (s : State) (lu p : Nat) : Bool :=
  p == 8 || match neighbour lu p with | some n => chanParked s n (facing p) | none => false
/-- Why the unit's oldest unexecuted micro-operation holds it: the counter, and the rings it waits for (R93, R99). DESIGN CHOICE: a cycle that two operations hold counts for the oldest, of the lowest stage, alone (log 138). -/
def stageHold (x : UnitSt) (d : Due) : Option (Nat × List Nat) :=
  let w := stageWord x d.stage
  if d.stage = 0 ∧ uOp w = 1 ∧ ¬ ldbReady x w then some (itElastic, ldbLacks x w)
  else if d.stage = 0 ∧ uOp w = 2 ∧ ¬ ldvReady x w then some (itElastic, [uWRing w])
  else if d.stage = 3 ∧ uOp w ≠ 0 ∧ uOp w ≠ 0x3F ∧ ¬ stage3Ready x.cu w d.at_ then some (itWait, [])
  else none
/-- The bindings a STEP pops that lack a token; two pops of one input need two (R110). DESIGN CHOICE: a POP or a PUSH acts on the port of the binding entry that it names, whether that entry is VALID, a ring or of the other direction or not (log 138). -/
def popLacks (s : State) (lu : Nat) (x : UnitSt) (w : Word) : List (BitVec 64) :=
  let held (b : Nat) : Nat := curTokens x (s.chan lu (bPort (bindWord x.cfg b)))
  let lack (b : Option Nat) (n : Nat) : List (BitVec 64) := match b with
    | some b => if n ≤ held b then [] else [bindWord x.cfg b]
    | none => []
  lack (schPopA w) 1 ++ lack (schPopB w) (if schPopB w = schPopA w then 2 else 1)
/-- The pushes due whose output holds no credit (R110). -/
def pushLacks (s : State) (lu : Nat) (x : UnitSt) : List (BitVec 64) :=
  ((x.cu.pushes.filter fun p => decide (p.at_ ≤ x.cu.cyc)).map fun p => bindWord x.cfg p.binding).filter fun w =>
    decide (creditsOut s lu (bPort w) = 0)
/-- The counters of a cycle held for missing tokens and credits: STATIC_MISS, ELASTIC_WAIT, CREDIT_WAIT, each at most once (R110). -/
def holdItems (pops pushes : List (BitVec 64)) : List Nat :=
  (if pops.any fun w => !bElastic w then [itStatic] else []) ++ (if pops.any fun w => bElastic w then [itElastic] else []) ++
    (if pushes.isEmpty then [] else [itCredit])
/-- Pop one token for each enabled POP of a STEP. -/
def doPops (s : State) (lu u : Nat) (w : Word) : State :=
  let x := s.unit u
  let pop (s : State) (b : Option Nat) : State :=
    match b with
    | some b => (popToken s lu u (bPort (bindWord x.cfg b))).2
    | none => s
  pop (pop s (schPopA w)) (schPopB w)
/-- Unit lu pushes a row on an output binding. -/
def pushBind (s : State) (lu u b : Nat) (row : Row) (last : Bool) : State :=
  pushOut s lu (bPort (bindWord (s.unit u).cfg b)) row last
/-- Make one due push from its stage 5 result, whose two rows go in two pushes; the last push of the firing to its output carries the tag (R108, R111). DESIGN CHOICE: a PUSH is no micro-operation, so it pushes a token also where its result is not valid, of a free payload (R84, R107, log 17). -/
def doPush (s : State) (lu u : Nat) (p : PushDue) : State :=
  let x := s.unit u
  let done (s : State) : State := s.modCu u fun c =>
    { c with pushes := c.pushes.erase p,
             outq := match outFor c.outq p.src with
               | some (t, _ :: r :: rs) => c.outq.map fun e => if e.1 = t then (t, r :: rs) else e
               | _ => c.outq }
  let row := ((outFor x.cu.outq p.src).bind fun e => e.2.head?).join.getD (Config.invalidRow u p.binding)
  pushBind (done s) lu u p.binding row p.last
/-- Unit lu's output port p has taken its token of the present schedule cycle, from the streamer (R14). -/
def sentNow (s : State) (lu p : Nat) : Bool :=
  match neighbour lu p with
  | some w => decide (p < 8) && (s.chan w (facing p)).sent == some (sendCycle s w (facing p))
  | none => false
/-- The pushes that leave in this schedule cycle: of those due, the oldest of each port that has taken no token in it, since a channel takes one token a cycle (R14). DESIGN CHOICE: one that finds its port taken leaves in the next (log 138). -/
def pushesNow (s : State) (lu : Nat) (x : UnitSt) : List PushDue :=
  let port (p : PushDue) := bPort (bindWord x.cfg p.binding)
  (x.cu.pushes.filter fun p => decide (p.at_ ≤ x.cu.cyc) && !sentNow s lu (port p)).foldl
    (fun l p => if l.any fun q => port q == port p then l else l ++ [p]) []
/-- Issue the present STEP: its advances and its push fall due at their offsets (R108). -/
def issueStep (s : State) (u : Nat) (w : Word) : State :=
  s.modUnit u fun x =>
    let c := x.cu
    let t := c.cyc
    let due := (upto 6).filterMap fun st => if schAdv w st then some ⟨st, t + cuOff x.cfg st⟩ else none
    let push := match schPush w with
      | some b => [⟨t + cuOff x.cfg 5 + pushLatency x (schAdv w 5), t + cuOff x.cfg 5, b, !pushAhead x b⟩]
      | none => []
    let last := schRepeat w ≤ c.rep
    { x with cu := { c with due := c.due ++ due, pushes := c.pushes ++ push, entry := if last then c.entry + 1 else c.entry,
                            rep := if last then 0 else c.rep + 1 } }
/-- The next schedule cycle begins: stage 3 results that complete in it reach the pocket (R86, R98). -/
def nextCycle (s : State) (u : Nat) : State :=
  let t := (s.unit u).cu.cyc
  let done := (s.unit u).cu.pk.filter fun p => decide (p.1 ≤ t)
  let s := s.modUnit u fun x =>
    { x with elasticHold := false, cu := { x.cu with cyc := t + 1, pk := x.cu.pk.filter fun p => decide (t < p.1) } }
  forEach done s fun s p =>
    useBanks (s.modCu u fun c => { c with pocket := pocketWrite c.pocket p.2.1 p.2.2.toNat 128 }) u 1 (bankSpan p.2.1 128)
/-- An accumulation's closing latency is over and SLOT_RESULT_READY has not come: it comes before the next schedule cycle. -/
def slotDue (x : UnitSt) : Bool := x.cu.slots.any fun sl => sl.2.closing.any fun p => decide (p.2.1 < x.cu.cyc)
/-- Every earlier micro-operation has executed. -/
def cycleFree (x : UnitSt) : Bool := x.cu.due.all fun d => decide (x.cu.cyc ≤ d.at_)

/-- The unit has not yet had the zone's present schedule cycle (R303). -/
def cycleOpen (s : State) (u : Nat) : Bool := (s.unit u).cu.stepped != some (s.zone (physZone u)).sched
/-- The unit takes the zone's present schedule cycle. -/
def takeCycle (s : State) (u : Nat) : State := s.modCu u fun c => { c with stepped := some (s.zone (physZone u)).sched }

/-- A cycle held for a deferred pocket access, which is served in it (R87). -/
def stallCycle (s : State) (u : Nat) : State :=
  match (s.unit u).cu.waiting with
  | a :: rest =>
    let s := s.modCu u fun c => { heldCycle c with waiting := rest }
    useBanks s u a.1 a.2
  | [] => s
/-- SCHED_STEP: one schedule cycle of a CU's micro-schedule, one for each of the zone's (R107, R108, R303): it holds for a deferred pocket access (R87), ring data (R93), a slot result (R99), a credit or a token (R110); else due pushes leave, the present STEP pops and issues, and after END the pipeline drains. -/
def execSchedStep (u : Fin 9792) (s : State) : Host.Outcome State Fault Refusal :=
  .next <|
    match s.logical u with
    | none => s
    | some lu =>
      if !cuRuns s u || !(s.unit u).loaded || slotDue (s.unit u) || !cycleOpen s u then s
      else
        let r := closeBanks s u [(s.zone (physZone u)).sched]
        let x := r.unit u
        if !x.cu.waiting.isEmpty then stallCycle (takeCycle r u) u
        else if !cycleFree x then
          match nextDue x.cu with
          | some d =>
            match stageHold x d with
            | none => s
            | some (i, rings) =>
              holdCycle (takeCycle r u) u [i] (rings.any fun b => waitsOutside s lu (bPort (bindWord x.cfg b)))
          | none => s
        else
          let w := schedWord x.cfg x.cu.entry
          let step := x.firing && schKind w == 0
          let pops := if step then popLacks s lu x w else []
          let pushes := pushLacks s lu x
          if !(pops.isEmpty && pushes.isEmpty) then
            holdCycle (takeCycle r u) u (holdItems pops pushes)
              ((pops.any fun b => waitsOutside s lu (bPort b)) || pushes.any fun b => creditOutside s lu (bPort b))
          else if x.firing && !step then s
          else
            let now := pushesNow s lu x
            let s := forEach now (takeCycle r u) fun s p => doPush s lu u p
            let s := nextCycle (if step then issueStep (doPops s lu u w) u w else s) u
            if now.isEmpty then s else settle s u

/-- SCHED_LOOP: a LOOP entry runs its body COUNT + 1 times in all and takes no schedule cycle (R107). -/
def execSchedLoop (u : Fin 9792) (s : State) : Host.Outcome State Fault Refusal :=
  .next <|
    let x := s.unit u
    let e := x.cu.entry
    let w := schedWord x.cfg e
    if cuRuns s u && x.firing && schKind w == 1 then
      s.modCu u fun c =>
        let n := loopTimes c e + 1
        let rest := c.loops.filter fun l => l.1 != e
        if n ≤ schCount w then { c with entry := schTarget w, loops := (e, n) :: rest } else { c with entry := e + 1, loops := rest }
    else s

/-- Release the KEEP rings of a unit whose firing has ended (R91). DESIGN CHOICE: a ring gives up every token it holds, also one that the firing has not read; the rule says only that nothing is released before (log 139). -/
def releaseKeep (s : State) (u : Nat) : State :=
  let x := s.unit u
  forEach (bindings x.cfg) s fun s b =>
    if bKeep b.2 && bRingLen b.2 != 0 then
      s.modCu u fun c => { c with rings := smod .init c.rings b.1 fun r => { r with held := 0, rdByte := 0, half := 0 } }
    else s

/-- SCHED_END: the firing ends once stage 0 has executed what the schedule advanced; the firing is counted, KEEP rings are released (R91, R107, R112). DESIGN CHOICE: FIRINGS, a field of 24 bits, wraps where FIRE_COUNT is 0; R115 speaks of 32-bit counters (log 138). -/
def execSchedEnd (u : Fin 9792) (s : State) : Host.Outcome State Fault Refusal :=
  .next <|
    let x := s.unit u
    if cuRuns s u && x.firing && schKind (schedWord x.cfg x.cu.entry) == 2 && !(x.cu.due.any fun d => d.stage == 0) then
      let s := s.modUnit u fun x =>
        { x with firing := false, firings := x.firings + 1, settled := some (s.zone (physZone u)).sched }
      let s := refill (releaseKeep s u) u
      match s.logical u with
      | some lu => checkStranded s lu u
      | none => s
    else s

end Sys2Proof.Machine
end

