-- ==== Sys2Proof/Machine/Mu.lean ====
section
/-! DEFINITION. The memory unit: its address generators (R116 to R133), contexts (R134 to R138), and the rows SEND, RECV, FETCH, STORE, GATHER, SGATHER, STACK_RUN_LANDING, STORE_ACK, SRAM_SCRUB, CONTEXT_SWITCH. An AG's command acts when that AG is of the kind named and its turn has come; an AG that must wait counts the schedule cycle it is held. -/

namespace Sys2Proof.Machine

/-- AG a of a unit's active context. -/
def curAg (x : UnitSt) (a : Nat) : Ag := agOf x.cfg x.mu.ctx.toNat a
def agSt (x : UnitSt) (a : Nat) : AgSt := sget .init x.mu.ags a
def modAg (s : State) (u a : Nat) (f : AgSt → AgSt) : State :=
  s.modMu u fun m => { m with ags := smod .init m.ags a f }
/-- The AG runs its nest once for each entry of a GATHER leader (R129). -/
def followsGather (x : UnitSt) (a : Nat) : Bool := (curAg x a).follow && (curAg x (curAg x a).leader).kind == agGather
/-- The AG takes its base from index entries (R131). -/
def isGather (g : Ag) : Bool := g.kind == agGather || g.kind == agSgather
/-- An AG has finished its nest (R125, R129, R131). -/
def agDone (x : UnitSt) (a : Nat) : Bool :=
  let st := agSt x a
  st.done || (followsGather x a && st.idx.isNone && (agSt x (curAg x a).leader).done &&
    st.passes == (agSt x (curAg x a).leader).passes)
/-- Every access of an AG has completed (R128). -/
def agComplete (x : UnitSt) (a : Nat) : Bool := agDone x a && (agSt x a).lead == (agSt x a).issued
/-- The access a numbers n completes (R128). -/
def completeAcc (st : AgSt) (n : Nat) : AgSt :=
  let late := n :: st.late
  let k := ((upto (late.length + 1)).find? fun i => !late.contains (st.lead + i)).getD 0
  { st with lead := st.lead + k, late := late.filter fun m => decide (st.lead + k ≤ m) }
/-- A firing is over: the youngest token on its way to each port carries the tag (R130). -/
def markLast : List (Nat × Nat × Row × Option Bool) → List (Nat × Nat × Row × Option Bool)
  | [] => []
  | d :: ds =>
    (if ds.any (fun e => e.2.1 == d.2.1) || d.2.2.2.isSome then d else (d.1, d.2.1, d.2.2.1, some true)) :: markLast ds
/-- The firing ends once every enabled AG has finished its nest and all its accesses have completed (R135, R138). -/
def muEnd (s : State) (u : Nat) : State :=
  let x := s.unit u
  let ags := (upto 4).filter fun a => (curAg x a).kind != 0
  if isMu u && x.firing && ags.all (agComplete x) then
    let s := s.modUnit u fun x =>
      { x with firing := false, firings := x.firings + 1, settled := some (s.zone (physZone u)).sched,
               mu := { x.mu with ctxFirings := x.mu.ctxFirings + 1, sends := markLast x.mu.sends } }
    match s.logical u with
    | some lu => checkStranded s lu u
    | none => s
  else s

/-- An AG of the given kind may act now: its unit runs and fires, and no BOUNDS or CONFIG fault has stopped it (R147), START has passed, it has not acted in this schedule cycle (R125), and in a hold of the context only the AGs whose access was deferred act (R120). -/
def agTurn (s : State) (u a kind : Nat) : Bool :=
  let x := s.unit u
  isMu u && unitRuns s u && x.firing && !x.stopped && !x.mu.switching && (curAg x a).kind == kind && !agDone x a && !(agSt x a).stuck &&
    decide ((curAg x a).start ≤ x.mu.fireCyc) && !x.mu.used.contains a && (!x.mu.holding || x.mu.late.contains a)
/-- The AG has had its access, or its hold, of this schedule cycle. -/
def useTurn (s : State) (u a : Nat) : State := s.modMu u fun m => { m with used := a :: m.used }
/-- The AG is held for one schedule cycle; the counter says why (R125). -/
def agHold (s : State) (u a i : Nat) : State := useTurn (bump s u i) u a
/-- The AG is held for a token or a credit of a binding; `ext` where it waits on the fabric or on a parked crossing (R125, R173). -/
def agHoldOn (s : State) (u a i : Nat) (ext : Bool) : State :=
  (agHold s u a i).modUnit u fun x => { x with elasticHold := x.elasticHold || ext }
/-- The AG's access is out of bounds: it makes none, and the AG stops (R123, R131, R140, R141, R147). -/
def agBounds (s : State) (u a : Nat) : State := modAg (unitFault (useTurn s u a) u cBounds 0) u a fun st => { st with stuck := true }
/-- Follow rule for access n (R129): the leader's done nest ends the wait. DEDUCED: also while accesses of it are still to complete, as the labelled rule has it (log 18). -/
def followOk (x : UnitSt) (a n : Nat) : Bool :=
  let g := curAg x a
  !g.follow || decide (n + 1 + g.lag ≤ (agSt x g.leader).lead) || agDone x g.leader
/-- Wrap rule for access n of a leader (R129). -/
def wrapOk (x : UnitSt) (a n : Nat) : Bool :=
  let g := curAg x a
  (upto 4).all fun f =>
    !((curAg x f).kind != 0 && (curAg x f).follow && (curAg x f).leader == a && g.wlen != 0) ||
      decide (n + 1 ≤ (agSt x f).lead + g.wlen)
/-- A row an AG may not touch: outside LO-HI, in a bore, or written without REPLAY_W in a replay window (R123, R140, R141, R171). -/
def rowBad (s : State) (u : Nat) (g : Ag) (r : Int) (write : Bool) : Bool :=
  let x := s.unit u
  let n := r.toNat
  let old := match s.logical u with
    | some lu => (upto 9).any fun p => match (s.chan lu p).oldBore with
      | some (b, k) => decide (b ≤ n ∧ n < b + k)
      | none => false
    | none => false
  decide (r < g.lo ∨ (g.hi : Int) < r) || inBore x.cfg n || old || (write && inReplay x.cfg n && !g.replayW)

/-! Index entries and passes (R129, R131, R132). -/

/-- Entries that name no run. -/
def emptyEntry (w : Word) : Bool := w == 0xFFFFFFFF
/-- The next entry of an index AG: 0 ready, 1 a token is missing, 2 the nest is done, 3 an entry is out of bounds. -/
def nextEntry (st : AgSt) : Nat × AgSt :=
  match st.entries.dropWhile emptyEntry with
  | e :: es => (0, { st with idx := some e, entries := es, pos := 0, passes := st.passes + 1 })
  | [] => if st.lastTok then (2, { st with entries := [], done := true }) else (1, { st with entries := [] })
/-- Make the AG's present entry known, popping at most one index token: answers the entry, or none with the hold counted (R131, R132). The free entries in place of a token of bad parity, which is not used (R150), lie below ILIMIT (log 145). -/
def agEntry (s : State) (lu u a : Nat) : Option Nat × State :=
  let x := s.unit u
  let g := curAg x a
  let st := agSt x a
  if isGather g then
    match st.idx with
    | some e => (some e.toNat, s)
    | none =>
      let bind := muBindWord x.cfg x.mu.ctx.toNat g.ibind
      let (s, st) :=
        if (st.entries.all emptyEntry) && !st.lastTok then
          let lim (e : Word) : Word := if badHead s lu (bPort bind) then BitVec.ofNat 32 (e.toNat % g.ilimit) else e
          match popToken s lu u (bPort bind) with
          | (some t, s) => (s, { st with entries := (upto 16).map fun k => lim (t.payload.extractLsb' (32 * k) 32), lastTok := t.last })
          | (none, s) => (s, st)
        else (s, st)
      match nextEntry st with
      | (0, st') =>
        let e := (st'.idx.getD 0).toNat
        if g.ilimit ≤ e then (none, agBounds s u a)
        else (some e, modAg s u a fun _ => st')
      | (2, st') => (none, muEnd (modAg s u a fun _ => st') u)
      | (_, st') => (none, agHoldOn (modAg s u a fun _ => st') u a itElastic (waitsOutside s lu (bPort bind)))
  else if followsGather x a then
    match st.idx with
    | some _ => (some 0, s)
    | none =>
      if st.passes < (agSt x g.leader).passes then
        (some 0, modAg s u a fun st => { st with idx := some 0, pos := 0, passes := st.passes + 1 })
      else (none, agHold s u a itWait)
  else (some 0, s)
/-- The AG has issued k accesses: its nest, and its entry, may be over (R123, R131). -/
def agAdvance (x : UnitSt) (a k : Nat) (st : AgSt) : AgSt :=
  let g := curAg x a
  let st := { st with issued := st.issued + k, pos := st.pos + k }
  if st.pos < agTotal g then st
  else if isGather g then
    { st with idx := none, pos := 0, done := st.lastTok && st.entries.all emptyEntry }
  else if followsGather x a then { st with idx := none, pos := 0 }
  else { st with done := true }

/-- What the check codes of an SRAM row's eight words show: each corrected word counts, a double-bit error is SRAM_ECC (R117). -/
def sramEcc (s : State) (u r : Nat) (e : Ecc) : State :=
  let s := bumpBy s u itCorr (min e.corrected 8)
  if e.double.isSome then unitFault s u cSram (BitVec.ofNat 64 (r % 8192)) else s
/-- An AG that sends on binding b is sure to send again in this firing: it is within a pass, or has another to run. -/
def sendsMore (x : UnitSt) (b a : Nat) : Bool :=
  let g := curAg x a
  let st := agSt x a
  (g.kind == agSend || g.kind == agSgather) && g.bind == b && !agDone x a &&
    (if g.kind == agSgather then st.idx.isSome || !(st.entries.all emptyEntry)
     else if followsGather x a then
       let l := agSt x g.leader
       st.idx.isSome || decide (st.passes < l.passes) || !(l.entries.all emptyEntry)
     else true)
/-- The tag of a due SEND: set on the last that the firing sends on its port; none where an index token still to come decides whether the firing sends there again (R130). -/
def sendTag (x : UnitSt) (d : Nat × Nat × Row × Option Bool) (later : Bool) : Option Bool :=
  match d.2.2.2 with
  | some b => some b
  | none =>
    let b := ((muBindings x.cfg x.mu.ctx.toNat).find? fun e => bOut e.2 && bPort e.2 == d.2.1).map Prod.fst
    let ags := (upto 4).filter fun a => ((curAg x a).kind == agSend || (curAg x a).kind == agSgather) && some (curAg x a).bind == b
    if later || ags.any fun a => sendsMore x (curAg x a).bind a then some false
    else if ags.all (agDone x) then some true else none

/-! Bank priority (Table 4-1, R119, R120). The writes of rank 1 come first in a cycle (`muCycle`), those of rank 5 last (`muLate`); what follows defers an access to the accesses of a higher rank that are ready for the same bank. -/

/-- AG c is a SEND or SGATHER ready to read a row of the bank of row r in this schedule cycle (rank 2). -/
def sendClaims (s : State) (lu u c r : Nat) : Bool :=
  let k := (curAg (s.unit u) c).kind
  (k == agSend || k == agSgather) && agTurn s u c k &&
    match agEntry s lu u c with
    | (none, _) => false
    | (some e, s) =>
      let x := s.unit u
      let g := curAg x c
      let st := agSt x c
      let port := bPort (muBindWord x.cfg x.mu.ctx.toNat g.bind)
      let w := agSram g st.pos e
      !rowBad s u g w false && followOk x c st.issued && wrapOk x c st.issued &&
        decide ((x.mu.sends.filter fun d => d.2.1 == port).length < creditsOut s lu port) && w.toNat % 16 == r % 16
/-- A bore write is ready for the bank of row r (rank 3). -/
def boreWriteClaims (s : State) (lu u r : Nat) : Bool :=
  (upto 9).any fun p =>
    let c := s.chan lu p
    match boreNow s lu u p with
    | some (base, rows) =>
      !c.spill.isEmpty && decide (c.boreRows.length < rows) && (base + c.boreNext % rows) % 16 == r % 16
    | none => false
/-- A bore read is ready for the bank of row r (rank 3, after the writes). -/
def boreReadClaims (s : State) (lu u r : Nat) : Bool :=
  (upto 9).any fun p =>
    let c := s.chan lu p
    match c.boreRows with
    | (b, t, _) :: _ =>
      decide (c.queue.length < 16) && decide (t + 2 ≤ (s.zone (physZone u)).sched) && b % 16 == r % 16
    | [] => false
/-- Rows the crossbar delivers in this schedule cycle: at most 2, while the landing buffer has room for its 8 (R121). -/
def delivers (m : Mu) : Nat := min 2 (8 - m.landing.length)
/-- A landing is ready for the bank of row r (rank 4). -/
def landingClaims (s : State) (u r : Nat) : Bool :=
  let m := (s.unit u).mu
  (m.landing ++ m.arriving.take (delivers m)).any fun l => l.sram % 16 == r % 16
/-- A STORE is ready to read a row of the bank of row r (rank 5). -/
def storeClaims (s : State) (lu u r : Nat) : Bool :=
  (upto 4).any fun c =>
    agTurn s u c agStore && match agEntry s lu u c with
      | (none, _) => false
      | (some e, s) =>
        let x := s.unit u
        let g := curAg x c
        let st := agSt x c
        let w := agSram g st.pos e
        let t := agStack g st.pos e
        !(rowBad s u g w false || decide (t < 0 ∨ (stackRows 2 : Int) ≤ t)) && followOk x c st.issued && wrapOk x c st.issued &&
          w.toNat % 16 == r % 16
/-- Who asks for a bank: a SEND or SGATHER by its AG, the bore write, the bore read, or a STORE or the scrub. -/
inductive BankUser where
  | send (ag : Nat)
  | boreWrite
  | boreRead
  | low
  deriving DecidableEq, Repr
/-- An access of higher rank is ready for the bank of row r (R119); of two of rank 2 the lower AG goes first (R120). -/
def outranked (s : State) (lu u : Nat) (w : BankUser) (r : Nat) : Bool :=
  match w with
  | .send a => (upto a).any fun c => sendClaims s lu u c r
  | .boreWrite => (upto 4).any fun c => sendClaims s lu u c r
  | .boreRead => ((upto 4).any fun c => sendClaims s lu u c r) || boreWriteClaims s lu u r
  | .low => ((upto 4).any fun c => sendClaims s lu u c r) || boreWriteClaims s lu u r || boreReadClaims s lu u r || landingClaims s u r
/-- Access to the bank of row r by rank (R119): deferred, and counted in BANK_STALL, where the bank has served another access or one of higher rank is ready. -/
def rankBank (s : State) (lu u : Nat) (w : BankUser) (r : Nat) : Bool × State :=
  if outranked s lu u w r then (false, bump s u itBank) else muBank s u r
/-- AG a's access of rank 2 was deferred: the context holds next schedule cycle, in which it is served (R120). -/
def deferSend (s : State) (u a : Nat) : State :=
  s.modMu u fun m => { m with late := if a ∈ m.late then m.late else a :: m.late }

/-- SEND and SGATHER: read a row and put it on the channel two schedule cycles later (R126). DESIGN CHOICE: a cycle held by the follow or the wrap rule counts in FOLLOW_WAIT alone, also where a token or a credit is missing too (R125, log 148). -/
def sendAccess (s : State) (u a kind : Nat) (ecc : Ecc) : State :=
  match s.logical u with
  | none => s
  | some lu =>
    if !agTurn s u a kind then s
    else
      match agEntry s lu u a with
      | (none, s) => s
      | (some e, s) =>
        let x := s.unit u
        let g := curAg x a
        let st := agSt x a
        let port := bPort (muBindWord x.cfg x.mu.ctx.toNat g.bind)
        let r := agSram g st.pos e
        if rowBad s u g r false then agBounds s u a
        else if !followOk x a st.issued || !wrapOk x a st.issued then agHold s u a itWait
        else if creditsOut s lu port ≤ (x.mu.sends.filter fun d => d.2.1 == port).length then
          agHoldOn s u a itCredit (creditOutside s lu port)
        else
          match rankBank s lu u (.send a) r.toNat with
          | (false, s) => deferSend (useTurn s u a) u a
          | (true, s) =>
            let row := (s.unit u).mu.sram.read r.toNat
            let s := sramEcc s u r.toNat ecc
            let s := modAg s u a fun st => completeAcc (agAdvance x a 1 st) st.issued
            let due := (s.zone (physZone u)).sched + 2
            muEnd ((useTurn s u a).modMu u fun m =>
              { m with sends := m.sends ++ [(due, port, row, none)], late := m.late.erase a }) u

/-- SEND: an SRAM row to a channel (R126). -/
def execSend (u : Fin 9792) (ag : Fin 4) (ecc : Ecc) (s : State) : Host.Outcome State Fault Refusal :=
  .next (sendAccess s u ag agSend ecc)
/-- SGATHER: SEND, with the SRAM base taken from index tokens (R131). -/
def execSgather (u : Fin 9792) (ag : Fin 4) (ecc : Ecc) (s : State) : Host.Outcome State Fault Refusal :=
  .next (sendAccess s u ag agSgather ecc)

/-- RECV: pops a token and writes it to a row in the next schedule cycle (R126). -/
def execRecv (u : Fin 9792) (ag : Fin 4) (s : State) : Host.Outcome State Fault Refusal :=
  .next <|
    match s.logical u with
    | none => s
    | some lu =>
      if !agTurn s u ag agRecv then s
      else
        match agEntry s lu u ag with
        | (none, s) => s
        | (some e, s) =>
          let x := s.unit u
          let g := curAg x ag
          let st := agSt x ag
          let bind := muBindWord x.cfg x.mu.ctx.toNat g.bind
          let r := agSram g st.pos e
          if rowBad s u g r true then agBounds s u ag
          else if !followOk x ag st.issued || !wrapOk x ag st.issued then agHold s u ag itWait
          else
            match popToken s lu u (bPort bind) with
            | (some t, s) =>
              let due := (s.zone (physZone u)).sched + 1
              let s := modAg s u ag (agAdvance x ag 1)
              (useTurn s u ag).modMu u fun m => { m with recvs := m.recvs ++ [(due, ag.val, st.issued, r.toNat, t.payload)] }
            | (none, s) => agHoldOn s u ag (if bElastic bind then itElastic else itStatic) (waitsOutside s lu (bPort bind))

/-- Accesses of the run that starts at position p (R127): stack and SRAM rows ascend by 1, up to 64, not across a 4 KiB boundary, the wrap point or the innermost level's restart. -/
def runLen (g : Ag) (e p : Nat) : Nat → Nat
  | 0 => 1
  | k + 1 =>
    let n := runLen g e p k
    if n = k + 1 ∧ p + n < agTotal g ∧ agIndex g (p + n) 0 ≠ 0 ∧ agSram g (p + n) e = agSram g (p + n - 1) e + 1 ∧
        agStack g (p + n) e = agStack g (p + n - 1) e + 1 ∧ agStack g (p + n) e % 64 ≠ 0 then n + 1
    else n
/-- FETCH and GATHER: one run request (R127), held while 16 are outstanding or the landing buffer is full (R125). An access out of bounds makes none and ends the run before it; its own turn is the BOUNDS fault (R123). DESIGN CHOICE: a stack row below 0 is out of bounds, as one above the stack's rows is (log 140). -/
def runRequest (s : State) (u a kind : Nat) : State :=
  match s.logical u with
  | none => s
  | some lu =>
    if !agTurn s u a kind then s
    else
      match agEntry s lu u a with
      | (none, s) => s
      | (some e, s) =>
        let x := s.unit u
        let g := curAg x a
        let st := agSt x a
        let n := runLen g e st.pos 63
        let q := physZone u / 12
        let bad (i : Nat) : Bool :=
          rowBad s u g (agSram g (st.pos + i) e) true ||
            decide (agStack g (st.pos + i) e < 0 ∨ (stackRows g.stk : Int) ≤ agStack g (st.pos + i) e)
        let n := ((upto n).find? bad).getD n
        if n = 0 then agBounds s u a
        else if !followOk x a (st.issued + n - 1) || !wrapOk x a (st.issued + n - 1) then agHold s u a itWait
        else if 16 ≤ (x.mu.runs.filter fun r => r.ag == a).length ∨ 8 ≤ x.mu.landing.length then agHold s u a itElastic
        else
          let row := (agStack g st.pos e).toNat
          let blk := readBlocks s q g.stk row
          let s := modAg s u a (agAdvance x a n)
          (useTurn s u a).modMu u fun m =>
            { m with nextRun := m.nextRun + 1,
                     runs := m.runs ++ [⟨m.nextRun, a, st.issued, n, BitVec.ofNat 2 g.stk, row,
                       (agSram g st.pos e).toNat, blk.1, blk.2, s.tick⟩] }

/-- FETCH: a run request for stack rows (R127). -/
def execFetch (u : Fin 9792) (ag : Fin 4) (s : State) : Host.Outcome State Fault Refusal :=
  .next (runRequest s u ag agFetch)
/-- GATHER: FETCH, with the stack base taken from index tokens (R131, R132). -/
def execGather (u : Fin 9792) (ag : Fin 4) (s : State) : Host.Outcome State Fault Refusal :=
  .next (runRequest s u ag agGather)

/-- A STORE's line is covered whole by this AG's accesses (R187). -/
def wholeLine (g : Ag) (p : Nat) : Bool :=
  let t := (agStack g p 0).toNat
  let k := t % 4
  decide (k ≤ p) && (upto 4).all fun i =>
    decide (p - k + i < agTotal g) && decide (agStack g (p - k + i) 0 = (t - k + i : Nat))
/-- STORE: reads an SRAM row and writes it to KS[q] (R126); an uncorrectable read of a partly covered line leaves the line unwritten and is a STACK_DATA fault (R187). -/
def execStore (u : Fin 9792) (ag : Fin 4) (ecc : Ecc) (rmw : ReadErr) (s : State) : Host.Outcome State Fault Refusal :=
  .next <|
    match s.logical u with
    | none => s
    | some lu =>
      if !agTurn s u ag agStore then s
      else
        match agEntry s lu u ag with
        | (none, s) => s
        | (some e, s) =>
          let x := s.unit u
          let g := curAg x ag
          let st := agSt x ag
          let q := physZone u / 12
          let r := agSram g st.pos e
          let t := agStack g st.pos e
          if rowBad s u g r false || decide (t < 0 ∨ (stackRows 2 : Int) ≤ t) then agBounds s u ag
          else if !followOk x ag st.issued || !wrapOk x ag st.issued then agHold s u ag itWait
          else
            match rankBank s lu u .low r.toNat with
            | (false, s) => useTurn s u ag
            | (true, s) =>
              let row := (s.unit u).mu.sram.read r.toNat
              let s := sramEcc s u r.toNat ecc
              let s := useTurn (modAg s u ag (agAdvance x ag 1)) u ag
              let dead := (s.kst q).failed || !(s.kst q).trained
              let req : StkStore := ⟨ag.val, st.issued, t.toNat, s.tick, row⟩
              match ksWrite s q t.toNat [row] (wholeLine g st.pos) rmw with
              | (true, s) => s.modMu u fun m => { m with stores := m.stores ++ [req] }
              | (false, s) =>
                if dead then
                  s.modMu u fun m => { m with stores := m.stores ++ [req] }
                else
                  let s := unitFault s u cStack (BitVec.ofNat 64 (2 ^ 63 + t.toNat))
                  muEnd (modAg s u ag fun st' => completeAcc st' st.issued) u

/-- STORE_ACK: KS[q] acknowledges the AG's oldest STORE, whose access completes (R126). -/
def execStoreAck (u : Fin 9792) (ag : Fin 4) (s : State) : Host.Outcome State Fault Refusal :=
  .next <|
    let k := s.kst (physZone u / 12)
    match (s.unit u).mu.stores.find? fun e => e.ag == ag.val with
    | some e =>
      if k.failed || !k.trained then s
      else
        let s := s.modMu u fun m => { m with stores := m.stores.erase e }
        muEnd (modAg s u ag fun st => completeAcc st e.acc) u
    | none => s

/-- STACK_RUN_LANDING: an outstanding run's rows, read from the block its page had at the request, come through the crossbar to the landing buffer, at most 2 a schedule cycle (R121, `muLate`); or it lands none and is a STACK_DATA fault (R126, R133, R179, R183, R184). DESIGN CHOICE: the accesses of a run that lands none count as completed (R133, log 148). -/
def execStackRunLanding (u : Fin 9792) (run : Nat) (own partner : ReadErr) (s : State) :
    Host.Outcome State Fault Refusal :=
  .next <|
    match (s.unit u).mu.runs.find? fun r => r.id == run && !(s.unit u).mu.arriving.any fun l => l.run == run with
    | none => s
    | some r =>
      if (s.unit u).mu.landing.any fun l => l.run == run then s
      else
        let q := physZone u / 12
        let (rows, s) := stackRead s q r.stk.toNat r.blk r.pblk r.row r.len own partner
        match rows with
        | some rows => s.modMu u fun m =>
            { m with arriving := m.arriving ++ (upto r.len).map fun i => ⟨r.id, r.ag, r.first + i, r.sram + i, nth 0 rows i⟩ }
        | none =>
          let s := unitFault (s.modMu u fun m => { m with runs := m.runs.erase r }) u cStack
            (BitVec.ofNat 64 (r.stk.toNat * 2 ^ 62 + r.row))
          muEnd (forEach ((upto r.len).map (r.first + ·)) s fun s n => modAg s u r.ag fun st => completeAcc st n) u

/-- A RECV write on an elastic binding is due for the bank of row r in this schedule cycle (rank 5). -/
def recvClaims (s : State) (u r : Nat) : Bool :=
  let x := s.unit u
  x.mu.recvs.any fun d => decide (d.1 ≤ (s.zone (physZone u)).sched) && d.2.2.2.1 % 16 == r % 16
/-- SRAM_SCRUB: every 256 schedule cycles the next row is checked, when its bank is otherwise idle; the bank stays free for an AG that becomes ready later in the cycle (R117, R118, R119). -/
def execSramScrub (u : Fin 9792) (ecc : Ecc) (s : State) : Host.Outcome State Fault Refusal :=
  .next <|
    let t := (s.zone (physZone u)).sched
    let m := (s.unit u).mu
    let busy := (decide (m.bankCyc = t) && m.banks.contains (m.scrubRow % 16)) || recvClaims s u m.scrubRow ||
      (match s.logical u with | some lu => outranked s lu u .low m.scrubRow || storeClaims s lu u m.scrubRow | none => false)
    if isMu u && t ≥ m.scrubCyc + 256 && !busy && (s.zone (physZone u)).running then
      let s := sramEcc s u m.scrubRow ecc
      s.modMu u fun m => { m with scrubRow := (m.scrubRow + 1) % 8192, scrubCyc := t }
    else s

/-- CONTEXT_SWITCH: with no firing in progress, an MU takes a context-select token and selects the context it names, in one schedule cycle in which no AG issues (R135 to R138); CTX_SWITCHES counts a change of context, and the firing count restarts also for the same one; an invalid context or a nonzero reserved byte is a CONFIG fault (R136), and a token of bad parity selects none (R150). DESIGN CHOICE: bits 7:2 of byte 0 count as reserved too (R136, log 148). -/
def execContextSwitch (u : Fin 9792) (s : State) : Host.Outcome State Fault Refusal :=
  .next <|
    match s.logical u with
    | none => s
    | some lu =>
      let x := s.unit u
      if isMu u && unitRuns s u && x.loaded && !x.stopped && !x.firing && !x.mu.switching && x.mu.used.isEmpty && ctxWaiting s lu x &&
          decide (x.switched ≠ some (s.zone (physZone u)).sched) then
        let bad := badHead s lu (muCtxsel x.cfg)
        match popToken s lu u (muCtxsel x.cfg) with
        | (none, s) => s
        | (some t, s) =>
          if bad then s else
          let k := fld t.payload 0 2
          if fld t.payload 2 510 != 0 || !muCtxValid x.cfg k then unitFault s u cConfig 0
          else
            let s := closeMarked s lu
            checkStranded (s.modUnit u fun x =>
              { x with ctxSwitches := if x.mu.ctx.toNat = k then x.ctxSwitches else satInc x.ctxSwitches,
                       mu := { x.mu with ctx := BitVec.ofNat 2 k, ctxFirings := 0, switching := true } }) lu u
      else s

/-- The RECV write of AG a is of rank 5: its binding is elastic (R119). -/
def recvLow (x : UnitSt) (a : Nat) : Bool := bElastic (muBindWord x.cfg x.mu.ctx.toNat (curAg x a).bind)
/-- A due RECV write takes its bank, if that is free, and completes; else it is counted in BANK_STALL and stays due (R119, R126). -/
def recvWrite (s : State) (u : Nat) (r : Nat × Nat × Nat × Nat × Row) : Bool × State :=
  match muBank s u r.2.2.2.1 with
  | (false, s) => (false, s)
  | (true, s) =>
    let s := s.modMu u fun m => { m with recvs := m.recvs.erase r, sram := m.sram.write r.2.2.2.1 r.2.2.2.2 }
    (true, modAg s u r.2.1 fun st => completeAcc st r.2.2.1)
/-- The RECV writes of a unit that are due, by AG index (R120). -/
def dueRecvs (s : State) (u : Nat) (low : Bool) : List (Nat × Nat × Nat × Nat × Row) :=
  let x := s.unit u
  (upto 4).flatMap fun a => x.mu.recvs.filter fun r =>
    r.2.1 == a && decide (r.1 ≤ (s.zone (physZone u)).sched) && recvLow x a == low
/-- A landing takes its row's bank, if that is free: the row is written and its access completes, and with its last row the run is over; else it stays in the landing buffer, which counts in BANK_STALL (R119, R126). -/
def landRow (s : State) (u : Nat) (l : Landing) : State :=
  match muBank s u l.sram with
  | (false, s) => s
  | (true, s) =>
    let s := s.modMu u fun m =>
      let left := m.landing.erase l
      { m with landing := left, sram := m.sram.write l.sram l.row,
               runs := if left.any (fun e => e.run == l.run) || m.arriving.any (fun e => e.run == l.run) then m.runs
                 else m.runs.filter fun r => r.id != l.run }
    modAg s u l.ag fun st => completeAcc st l.acc
/-- An MU as a schedule cycle ends: the crossbar delivers into the landing buffer and landings take the banks that are left (rank 4), then RECV writes on elastic bindings (rank 5); an AG whose write is deferred waits the next schedule cycle (R119, R121). -/
def muLate (s : State) (u : Nat) : State :=
  let s := s.modMu u fun m => { m with landing := m.landing ++ m.arriving.take (delivers m), arriving := m.arriving.drop (delivers m) }
  let s := forEach (s.unit u).mu.landing s fun s l => landRow s u l
  let (waits, s) := (dueRecvs s u true).foldl (fun (ws, s) r =>
    match recvWrite s u r with
    | (true, s) => (ws, s)
    | (false, s) => (r.2.1 :: ws, s)) ([], s)
  muEnd (s.modMu u fun m => { m with used := waits }) u
/-- The SENDs that enter their channels in this schedule cycle, with their tags: of those due, the oldest of each port that has taken no token in it (R14, R126). DESIGN CHOICE: one whose tag an index token still to come decides waits for that (R130, log 17). -/
def sendsNow (s : State) (lu : Nat) (x : UnitSt) (t : Nat) : List ((Nat × Nat × Row × Option Bool) × Bool) :=
  (upto 9).filterMap fun p =>
    match x.mu.sends.filter fun d => d.2.1 == p with
    | d :: ds => if d.1 ≤ t && !sentNow s lu p then (sendTag x d !ds.isEmpty).map (d, ·) else none
    | [] => none
/-- An MU as a schedule cycle begins: due SENDs enter their channels; due RECV rows of static bindings are written (rank 1), unless an AG of lower index is ready to read the same bank (R120); the AGs may act, unless the context holds for an access of rank 1 or 2 that was deferred (R119, R120, R125, R126). -/
def muCycle (s : State) (lu u : Nat) : State :=
  let t := (s.zone (physZone u)).sched
  let x := s.unit u
  let hold := x.firing && (!x.mu.late.isEmpty || (dueRecvs s u false).any fun r => decide (r.1 < t))
  let s := forEach (sendsNow s lu x t) s fun s d =>
    pushOut (s.modMu u fun m => { m with sends := m.sends.erase d.1 }) lu d.1.2.1 d.1.2.2.1 d.2
  let s := s.modUnit u fun x =>
    { x with elasticHold := false,
             mu := { x.mu with switching := false, holding := hold, fireCyc := if x.firing && !hold then x.mu.fireCyc + 1 else x.mu.fireCyc } }
  let s := forEach (dueRecvs s u false) s fun s r =>
    if (upto r.2.1).any fun c => sendClaims s lu u c r.2.2.2.1 then bump s u itBank else (recvWrite s u r).2
  muEnd s u

/-! Bores (R169 to R172): their accesses to the banks are of rank 3. -/

/-- BORE_WRITE: the oldest waiting token is written to the next bore row at rank 3 (R169, R119); a bore row in a replay window is a BOUNDS fault (R141). -/
def execBoreWrite (lu : Fin 9216) (port : Fin 9) (s : State) : Host.Outcome State Fault Refusal :=
  .next <|
    match s.phys lu, (s.chan lu port).spill with
    | some u, t :: ts =>
      match boreNow s lu u port with
      | some (base, rows) =>
        let c := s.chan lu port
        let r := base + c.boreNext % rows
        if rows ≤ c.boreRows.length || !s.quarterRuns (physZone u / 12) || (s.unit u).stopped then s
        else if inReplay (s.unit u).cfg r then unitFault s u cBounds 0
        else
          match rankBank s lu u .boreWrite r with
          | (false, s) => s
          | (true, s) =>
            let s := s.modMu u fun m => { m with sram := m.sram.write r t.payload }
            let s := s.modChan lu port fun c =>
              { c with spill := ts, boreRows := c.boreRows ++ [(r, (s.zone (physZone u)).sched, tagBits t)],
                       boreNext := (c.boreNext + 1) % rows }
            let n := (s.chan lu port).boreRows.length
            noteMove (s.modUnit u fun x => { x with borePeak := if x.borePeak.toNat < n then BitVec.ofNat 16 n else x.borePeak }) (zoneOf lu)
      | none => s
    | _, _ => s

/-- BORE_READBACK: with room in the queue, the oldest bore row goes back into it, at least 2 schedule cycles after it was written (R169); an older bore that has drained opens its rows (R171). -/
def execBoreReadback (lu : Fin 9216) (port : Fin 9) (ecc : Ecc) (s : State) : Host.Outcome State Fault Refusal :=
  .next <|
    match s.phys lu, (s.chan lu port).boreRows with
    | some u, (r, at_, tag) :: rest =>
      if 16 ≤ (s.chan lu port).queue.length || decide ((s.zone (physZone u)).sched < at_ + 2) ||
          !s.quarterRuns (physZone u / 12) then s
      else
        match rankBank s lu u .boreRead r with
        | (false, s) => s
        | (true, s) =>
          let t := ofTag ((s.unit u).mu.sram.read r) tag
          let s := sramEcc s u r ecc
          let s := s.modChan lu port fun c =>
            { c with queue := c.queue ++ [t], boreRows := rest,
                     oldBore := if rest.isEmpty then none else c.oldBore,
                     boreNext := if rest.isEmpty && c.oldBore.isSome then 0 else c.boreNext }
          checkStranded (noteMove s (zoneOf lu)) lu u
    | some u, [] =>
      -- with no row in the bore, a waiting token goes straight to a queue that has room
      match (s.chan lu port).spill with
      | t :: ts =>
        if 16 ≤ (s.chan lu port).queue.length then s
        else checkStranded (s.modChan lu port fun c => { c with queue := c.queue ++ [t], spill := ts, oldBore := none }) lu u
      | [] => s.modChan lu port fun c => { c with oldBore := none }
    | none, _ => s

end Sys2Proof.Machine
end

