-- ==== Sys2Proof/Machine/Dataflow.lean ====
section
/-! DEFINITION. Generations (R157 to R162), the configuration streamer (R163 to R168), the deadlock watch (R173 to R175), and the rows CONFIG_TOKEN_ABSORB, GENERATION_SWITCH, DEADLOCK, PLAN_ENTRY, SEQUENCE_INJECT, FABRIC_BARRIER_INJECT, STAGING_CARRIER. -/

namespace Sys2Proof.Machine

/-! Absorption. -/

/-- A whole carrier is in the shadow: counted and checked (R162). -/
def carrierIn (s : State) (lu u port : Nat) : State :=
  let x := s.unit u
  let s := s.modUnit u fun x =>
    { x with settled := some (s.zone (physZone u)).sched,
             shadow := { x.shadow with carriers := x.shadow.carriers + 1, carrierPort := port } }
  if x.shadow.carriers != 0 then unitFault s u cConfig 0
  else if unitCfgOk (isMu u) lu (x.gen + 1) x.shadow.cfg then s else unitFault s u cConfig 0
/-- The sequence of a port is complete (R159). -/
def portAbsorbed (s : State) (lu u p : Nat) : State :=
  (s.modChan lu p fun c => { c with absorbing := 0 }).modUnit u fun x =>
    { x with settled := some (s.zone (physZone u)).sched,
             shadow := { x.shadow with absorbed := setBit x.shadow.absorbed p true } }

/-- CONFIG_TOKEN_ABSORB: the configuration token at the head of a port goes into the shadow configuration, whether or not a firing is in progress, one a port in a schedule cycle (R158, R160); a bad parity or a sequence R162 forbids is a fault. -/
def execConfigTokenAbsorb (lu : Fin 9216) (port : Fin 9) (s : State) : Host.Outcome State Fault Refusal :=
  .next <|
    match s.phys lu with
    | none => s
    | some u =>
      let x := s.unit u
      let c := s.chan lu port
      match c.queue with
      | [] => s
      | t :: _ =>
        let now := (s.zone (physZone u)).sched
        if !headIsCfg x c port || !unitRuns s u || c.absorbCyc = some now then s
        else
          let s := (dropHead s lu port).modChan lu port fun c => { c with absorbCyc := some now }
          if !parOk t then unitFault s u cParity 0
          else
            let k := c.absorbing
            let s :=
              if k = 0 && t.last then
                let s := portAbsorbed s lu u port
                if t.payload = 0 then s else unitFault s u cConfig 0
              else if 32 ≤ k then
                let s := s.modChan lu port fun c => { c with absorbing := k + 1 }
                if t.last then portAbsorbed (unitFault s u cConfig 0) lu u port else s
              else
                let s := (s.modChan lu port fun c => { c with absorbing := k + 1 }).modUnit u fun x =>
                  { x with shadow := { x.shadow with cfg := setFld x.shadow.cfg (512 * k) 512 t.payload.toNat, count := k + 1 } }
                if t.last then
                  let s := portAbsorbed s lu u port
                  if k = 31 then carrierIn s lu u port else unitFault s u cConfig 0
                else s
            checkStranded (ringFill s lu u port 16) lu u

/-- The unit at the start of a generation: its configuration, stage counters, unit counters and context as R161 has them. DESIGN CHOICE: slots with what they have accumulated, slot results and operand registers stay; the place in a weight group, partial sums and outliers start anew (R95, R161, log 149). -/
def nextGen (x : UnitSt) (cfg : UnitCfg) : UnitSt :=
  { x with
    cfg := cfg, loaded := true, gen := x.gen + 1, settled := none, firings := 0, ctr := [], borePeak := 0, ctxSwitches := 0,
    shadow := .init, elasticHold := false,
    cu := { x.cu with pcs := [], entry := 0, rep := 0, loops := [], rings := [], wBlock := 0, dotPart := 0, partials := [],
                      outs := [], seeds := [] },
    mu := { x.mu with ctx := 0, ctxFirings := 0, ags := [], used := [], switching := false, late := [], holding := false } }

/-- A port of a logical unit has its channel over the boundary of another quarter that is in reset: the crossing is fenced (R24). -/
def overFence (s : State) (lu p : Nat) : Bool :=
  decide (p < 8) && match neighbour lu p with
    | some w => zoneOf w / 12 != zoneOf lu / 12 && (s.quarter (zoneOf w / 12)).inReset
    | none => false
/-- The zone of a unit of quarter q whose loaded program, in any of its contexts, binds a fenced crossing: of several, the zone of the lowest physical unit (R24, log 113). -/
def fencedCrossing (s : State) (q : Nat) : Option Nat :=
  (s.units.find? fun e => e.2.loaded && physZone e.1 / 12 == q && match s.logical e.1 with
    | some lu => (allBindings (isMu e.1) e.2.cfg).any (fun b => overFence s lu (bPort b)) || (inputPorts (isMu e.1) e.2.cfg).any (overFence s lu)
    | none => false).map fun e => physZone e.1
/-- A running quarter whose program binds a fenced crossing is to halt at its next step boundary, also if the crossing is fenced no more by then (R24). -/
def dueCrossing (s : State) (q : Nat) : State :=
  match fencedCrossing s q with
  | some z => if (s.quarter q).inReset then s else s.modQuarter q fun x => { x with crossDue := some (x.crossDue.getD z) }
  | none => s
/-- GENERATION_SWITCH (R161): in a schedule cycle after the last of its conditions came about, the shadow becomes the configuration, and the unit does not fire in that cycle; pocket accesses of earlier cycles count before the counters restart; a bore the new one removes or moves drains on (R171). -/
def execGenerationSwitch (u : Fin 9792) (s : State) : Host.Outcome State Fault Refusal :=
  .next <|
    match s.logical u with
    | none => s
    | some lu =>
      let x := s.unit u
      let mu := isMu u
      let now := (s.zone (physZone u)).sched
      if !unitRuns s u || !switchReady x mu || x.settled = some now then s
      else
        let cfg := x.shadow.cfg
        let s := forEach (upto 9) s fun s p =>
          let old := if mu && x.loaded then boreOf x.cfg p else none
          let new_ := if mu then boreOf cfg p else none
          if old = new_ then s
          else s.modChan lu p fun c =>
            if c.boreRows.isEmpty then { c with boreNext := 0 }
            else { c with oldBore := if c.oldBore.isSome then c.oldBore else old }
        let s := (closeBanks s u (now :: x.cu.stepped.toList)).modUnit u fun x => { nextGen x cfg with switched := some now }
        let due := sget [] s.entryDue lu
        let s := { s with entryOf := sset none s.entryOf lu due.head?, entryDue := sset [] s.entryDue lu due.tail }
        dueCrossing (refill { s with cfgOf := sset 0 s.cfgOf lu cfg } u) (physZone u / 12)

/-! Deadlock watch. -/

/-- Tokens at an input port, bore included. -/
def portOcc (c : Chan) : Nat := c.queue.length + c.boreRows.length + c.spill.length
/-- Stall record of port p of physical unit u, logical lu (Table 5-15). -/
def stallRec (s : State) (lu u p : Nat) : Word :=
  let x := s.unit u
  let c := s.chan lu p
  let full_ := match (if isMu u && x.loaded then boreOf x.cfg p else none) with
    | some (_, n) => decide (n ≤ c.boreRows.length)
    | none => false
  BitVec.ofNat 32 (u % 204 * 2 ^ 24 + p * 2 ^ 20 + b2n full_ * 2 ^ 19 +
    (match c.queue with | t :: _ => t.gen.toNat | [] => 0) * 2 ^ 17 + b2n (headIsCfg x c p) * 2 ^ 16 +
    min (portOcc c) 0xFFFF)
/-- The stalled channels of a zone, by physical unit and port (R175). -/
def stallRecs (s : State) (z : Nat) : List Word :=
  (upto 204).flatMap fun i =>
    let u := 204 * z + i
    match s.logical u with
    | some lu =>
      if (s.unit u).firing then []
      else ((upto 9).filter fun p => decide (0 < portOcc (s.chan lu p))).map fun p => stallRec s lu u p
    | none => []
/-- DEADLOCK: the watch has reached 65,536; TRIPPED, the records, and a zone fault with cause DEADLOCK that halts the quarter at once (R174, R175). -/
def execDeadlock (z : Fin 48) (s : State) : Host.Outcome State Fault Refusal :=
  .next <|
    let p := s.zpage z
    if 65536 ≤ p.dlwCount.toNat && !p.tripped then
      let recs := (stallRecs s z).take 16
      let s := s.modZpage z fun p => { p with tripped := true, recs := recs }
      recordZone (s.raise (0x100824 + 0x4000 * z.val) (oneBit 31)) z 1 false (BitVec.ofNat 64 recs.length)
    else s

/-! Load plans. -/

/-- The 33 rows of a plan entry at byte address a of the host or of quarter q's work stack (R166). -/
def planRows (s : State) (q : Nat) (host : Bool) (a : Nat) : List Row :=
  (upto 33).map fun k => if host then readRowAt s.host (a + 64 * k) else (s.kst q).mem.read (a / 64 + k)
/-- The 33 rows of entry i of a quarter's plan (R166). -/
def entryRows (s : State) (q i : Nat) : List Row := planRows s q (s.cfgQ q).planSrc ((s.cfgQ q).planAddr + 2112 * i)
/-- The configuration of an entry: bytes 64 to 2,111. -/
def entryCfg (rows : List Row) : UnitCfg := BitVec.ofNat 16384 (packNat 512 (fun k => (nth 0 rows (k + 1)).toNat) 32)
/-- Logical unit of an entry. -/
def entryLu (h : Row) : Nat := fld h 0 8 + 96 * fld h 8 8
/-- Mark the channels that feed lu through a port bound now or next, with the producer's generation (R163). -/
def markChans (s : State) (lu : Nat) (cfg : UnitCfg) : State :=
  match s.phys lu with
  | none => s
  | some u =>
    let x := s.unit u
    let mu := isMu u
    let ps := (upto 8).filter fun p =>
      (x.loaded && (inputPorts mu x.cfg).contains p) || (inputPorts mu cfg).contains p
    forEach ps s fun s p =>
      match (s.chan lu p).marked, neighbour lu p with
      | none, some w =>
        let g := match s.phys w with | some v => (s.unit v).gen | none => 0
        s.modChan lu p fun c => { c with marked := some g }
      | _, _ => s
/-- Take every mark off the channels of a quarter. -/
def unmarkAll (s : State) (q : Nat) : State :=
  { s with chans := (s.chans.filter fun c => zoneOf (c.1 / 16) / 12 != q || { c.2 with marked := none, closed := false } != Chan.init).map fun c =>
      if zoneOf (c.1 / 16) / 12 == q then (c.1, { c.2 with marked := none, closed := false }) else c }

/-- RUN_GRAPH after its plan: SET_TARGET with CLEAR on DONE, the start token, and a WAIT for DONE (R370); whether the start token has TLAST is a free value (log 22). -/
def runGraphStart (s : State) (n : Nat) : State :=
  match (s.queue n).run with
  | none => s
  | some x =>
    let r := x.desc.row
    let done := dBytes r 32 4 % 2 ^ 17
    let op (o arg inl : Nat) : HdrF :=
      { dest := 0xFFFFFF, src := feId s, kind := 4, pv := true, piton := done, arg := o * 2 ^ 28 + arg, inl := inl }
    let s := localSend s 0 1 (mkHdr (op 1 1 (dBytes r 36 4))) []
    let s := if dBytes r 28 3 = 0xFFFFFF then s
      else
        let (l, s) := s.takeFree 1
        localSend s 0 1 (mkHdr { dest := dBytes r 28 3, src := feId s, kind := 0, len := 1 })
          [(BitVec.ofNat 512 (dBytes r 40 24), l == 1)]
    let s := localSend s 0 1 (mkHdr (op 2 0 (feTag n 2 * 2 ^ 32))) []
    dropWait (s.modQueue n fun q => { q with run := q.run.map fun x => { x with phase := 2, tick := s.tick } }) n

/-- Clear one piton as CLEAR_ALL clears a quarter's: CLEARED to its waiters, then its reset value (R257, R270). -/
def clearOne (s : State) (i : Nat) : State := (release s i 5).modPiton i fun _ => Piton.init
/-- The step pitons of every quarter that service l spans are cleared (Table 12-9; how is DEDUCED, log 35). -/
def clearStepPitons (s : State) (l : Nat) : State :=
  let v := s.service l
  forEach ((maskQuarters v.qmask).flatMap (stepPitons v.table)) s clearOne
/-- A service that has loaded its first plans enters SERVING, its step pitons cleared (Table 12-9). -/
def planLoaded (s : State) (q : Nat) : State :=
  match serviceOf s q with
  | some l =>
    let s := s.modSvc l fun v => { v with plansLeft := v.plansLeft.filter (· != q) }
    if (s.service l).state = .starting && (s.service l).plansLeft.isEmpty then
      setSvcState (clearStepPitons (s.modSeqq l fun x => { x with start := false }) l) l .serving
    else s
  | none => s
/-- The entry of an item whose carrier has not been wholly injected gives no unit a generation (R167). -/
def dropEntry (s : State) (it : PlanItem) : State :=
  if it.staging || it.ports.any fun p => p.1 == it.carrier then { s with entryDue := smod [] s.entryDue it.lu List.dropLast } else s
/-- A plan ends: done (error 0) or with an error; who started it goes on. A plan that fails while a service starts leaves the service OFF (log 23). -/
def planEnd (s : State) (q error : Nat) : State :=
  let c := s.cfgQ q
  let s := forEach c.items.reverse (unmarkAll s q) dropEntry
  let s := s.modCfg q fun c =>
    { c with start := false, abort := false, state := if error = 0 then 2 else 3, error := BitVec.ofNat 6 error,
             items := [], owner := none, aborted := c.aborted || error = 4 }
  match c.owner with
  | none => s
  | some n =>
    if n < 64 then
      if error ≠ 0 then finishRun s n stPlanError (error * 2 ^ 24 + (s.cfgQ q).entry.toNat)
      else
        match (s.queue n).run with
        | some x => if dType x.desc.row = 1 then runGraphStart s n else finishRun s n stOk 0
        | none => s
    else if error = 0 then planLoaded s q
    else match serviceOf s q with
      | some l =>
        if (s.service l).state = .starting then svcClear s l else s
      | none => s
/-- Start the plan of n entries at a byte address of the host or of KS[q] on quarter q's streamer (R167, R168). A streamer that runs one, or has been aborted since the last reset, ignores it. -/
def cfgBeginPlan (s : State) (q addr : Nat) (host : Bool) (n : Nat) (owner : Option Nat) : State :=
  let c := s.cfgQ q
  if c.start || c.aborted || (s.quarter q).inReset then s
  else
    let s := s.modCfg q fun c =>
      { c with start := true, state := 1, error := 0, entry := 0, taken := 0, items := [], owner := owner, asked := s.tick,
               planAddr := addr, planSrc := host, planLen := n }
    if n = 0 then planEnd s q 1
    else forEach (upto n) s fun s i =>
      let rows := entryRows s q i
      markChans s (entryLu (nth 0 rows 0)) (entryCfg rows)
/-- Start the plan that the registers name (R168). -/
def cfgBegin (s : State) (q : Nat) (owner : Option Nat) : State :=
  let c := s.cfgQ q
  cfgBeginPlan s q (c.planLo.toNat * 64 + c.planHi.toNat * 2 ^ 32) c.src c.entries.toNat owner
/-- Start the plan at a byte address, as LOAD_CONFIG, RUN_GRAPH and the sequencers do; the registers show it, but for one that software writes in the same tick (R10). -/
def cfgBeginAt (s : State) (q addr : Nat) (host : Bool) (entries : Nat) (owner : Nat) : State :=
  let reg := 0xD0000 + 0x40 * q
  let t := s.modCfg q fun c =>
    let c := if s.wroteTo reg then c else { c with planLo := BitVec.ofNat 26 (addr / 64) }
    let c := if s.wroteTo (reg + 4) then c else { c with planHi := BitVec.ofNat 16 (addr / 2 ^ 32), src := host }
    if s.wroteTo (reg + 8) then c else { c with entries := BitVec.ofNat 16 entries }
  cfgBeginPlan t q (addr % 2 ^ 48 / 64 * 64) host (entries % 2 ^ 16) (some owner)
/-- CFG_CTL.ABORT: stops the plan of a halted quarter (R168). -/
def cfgAbort (s : State) (q : Nat) : State :=
  if (s.cfgQ q).start && quarterHalted s q then planEnd s q 4 else s

/-- Error of a plan entry (R167, Table 5-9): 0 none. -/
def entryError (s : State) (q : Nat) (h : Row) : Nat :=
  let lu := entryLu h
  let carrier := fld h 20 4
  if fld h 16 4 ≠ 0 ∨ fld h 24 7 ≠ 0 ∨ fld h 49 15 ≠ 0 ∨ fld h 64 448 ≠ 0 ∨ 96 ≤ fld h 0 8 ∨ 96 ≤ fld h 8 8 then 1
  else if zoneOf lu / 12 ≠ q then 1
  else match s.phys lu with
    | none => 1
    | some u =>
      let x := s.unit u
      if carrier = 15 then 0
      else if 8 ≤ carrier then 2
      else if x.loaded && (inputPorts (isMu u) x.cfg).contains carrier then 0 else 2
/-- PLAN_ENTRY: the streamer reads and checks the next entry, marks its channels and takes it up, or stops with an error (R163, R166, R167). -/
def execPlanEntry (q : Fin 4) (read : ReadErr) (s : State) : Host.Outcome State Fault Refusal :=
  .next <|
    let c := s.cfgQ q
    if !c.start || c.planLen ≤ c.taken then s
    else
      let i := c.taken
      let rows := entryRows s q i
      let (ok, s) :=
        if c.planSrc then (decide (read ≠ .uncorrectable), s)
        else match ksRead s q ((c.planAddr + 2112 * i) / 64) 33 read with
          | (some _, s) => (true, s)
          | (none, s) => (false, s)
      let h := nth 0 rows 0
      let e := if ok then entryError s q h else 3
      if e ≠ 0 then planEnd (s.modCfg q fun c => { c with entry := BitVec.ofNat 16 i }) q e
      else
        let lu := entryLu h
        let cfg := entryCfg rows
        let s := markChans s lu cfg
        let ps := match s.phys lu with
          | some u =>
            let x := s.unit u
            (upto 8).filter fun p => (x.loaded && (inputPorts (isMu u) x.cfg).contains p) || (inputPorts (isMu u) cfg).contains p
          | none => []
        let fabg := bit h 31
        let s := { s with entryDue := smod [] s.entryDue lu (· ++ [(c.planSrc, c.planAddr + 2112 * i)]) }
        let tag := (s.cfgQ q).waitTag
        let s := if fabg then streamerWait s q (fld h 32 17) tag else s
        s.modCfg q fun c =>
          { c with taken := i + 1, asked := s.tick, waitTag := if fabg then tag + 1 else tag,
                   items := c.items ++ [{ idx := i, lu := lu, carrier := fld h 20 4, piton := h.extractLsb' 32 17, fabg := fabg,
                                          cfg := cfg, ports := ps.map fun p => (p, 0), fabricWait := fabg, tag := tag, asked := fabg, ready := false,
                                          staging := decide (fld h 20 4 = 15) }] }

/-- Put back an item of a plan after a delivery; a plan whose entries are all delivered is done. -/
def putItem (s : State) (q : Nat) (it : PlanItem) : State :=
  let c := s.cfgQ q
  let done := it.ports.isEmpty && !it.fabricWait && !it.staging
  let items := if done then c.items.filter fun j => j.idx != it.idx else c.items.map fun j => if j.idx = it.idx then it else j
  let entry := match items with
    | j :: _ => j.idx
    | [] => if c.taken < c.planLen then c.taken else c.planLen - 1
  let s := s.modCfg q fun c => { c with items := items, entry := BitVec.ofNat 16 entry }
  if items.isEmpty && c.taken == c.planLen then planEnd s q 0 else s

/-- Channels that got a token of the streamer in the present schedule cycle of zone 12q (R167). -/
def injected (s : State) (q : Nat) : List Nat :=
  let c := s.cfgQ q
  if c.injCyc = (s.zone (12 * q)).sched then c.inj else []
/-- The streamer may put a token into input port p of lu: at most 8 a schedule cycle of zone 12q, one a channel (R167). -/
def injSlot (s : State) (q lu p : Nat) : Bool :=
  decide ((injected s q).length < 8) && !(injected s q).contains (16 * lu + p)
/-- Note that it has. -/
def useInjSlot (s : State) (q lu p : Nat) : State :=
  s.modCfg q fun c => { c with inj := injected s q ++ [16 * lu + p], injCyc := (s.zone (12 * q)).sched }
/-- A SEND of the producer is still on its way to the channel. -/
def sendPending (s : State) (lu p : Nat) : Bool :=
  match neighbour lu p with
  | some w => match s.phys w with
    | some v => (s.unit v).mu.sends.any fun d => d.2.1 == facing p
    | none => false
  | none => false

/-- SEQUENCE_INJECT: one token of a port's sequence, at the producer's end of its channel, in a schedule cycle in which it has taken none, once the producer has pushed its last (R14, R157, R163, R167); the first advances the channel's generation. -/
def execSequenceInject (q : Fin 4) (lu : Fin 9216) (port : Fin 9) (s : State) : Host.Outcome State Fault Refusal :=
  .next <|
    match (s.cfgQ q).items.find? fun j => j.lu == lu.val && j.ports.any fun p => p.1 == port.val with
    | none => s
    | some it =>
      let pos := ((it.ports.find? fun p => p.1 == port.val).map Prod.snd).getD 0
      let c := s.chan lu port
      let ready := match neighbour lu port with
        | some w => ((c.closed || producerDone s w (c.marked.getD 0)) && !sendPending s lu port) || decide (0 < pos)
        | none => true
      if !ready || creditsIn s lu port = 0 || !injSlot s q lu port || c.sent == some (sendCycle s lu port) || (s.quarter q).inReset then s
      else
        let s := useInjSlot s q lu port
        let carrier := it.carrier == port.val
        let last := !carrier || pos = 31
        let s := if pos = 0 then s.modChan lu port fun c => { c with gen := c.gen + 1 } else s
        let payload : Row := if carrier then it.cfg.extractLsb' (512 * pos) 512 else 0
        let s := sendInto s lu port (mkToken payload (s.chan lu port).gen last)
        let s := if last then s.modChan lu port fun c => { c with marked := none, closed := false } else s
        let ports := if last then it.ports.filter fun p => p.1 != port.val
          else it.ports.map fun p => if p.1 = port.val then (p.1, pos + 1) else p
        putItem s q { it with ports := ports }

/-- Room for tokens at port 8 of lu: its queue and any bore. -/
def port8Room (s : State) (lu : Nat) : Nat := capacity s lu 8 - portOcc (s.chan lu 8)
/-- FABRIC_BARRIER_INJECT: the streamer's WAIT has been answered COMPLETE, and the barrier enters port 8 behind every packet it counted (R164). -/
def execFabricBarrierInject (q : Fin 4) (lu : Fin 9216) (s : State) : Host.Outcome State Fault Refusal :=
  .next <|
    match (s.cfgQ q).items.find? fun j => j.lu == lu.val && j.fabricWait, s.phys lu with
    | some it, some u =>
      if !it.ready || port8Room s lu = 0 || !injSlot s q lu 8 then s
      else
        let s := useInjSlot s q lu 8
        let s := s.modChan lu 8 fun c => { c with gen := c.gen + 1 }
        let s := enqueue (noteMove s (zoneOf lu)) lu u 8 (mkToken 0 (s.chan lu 8).gen true)
        putItem s q { it with fabricWait := false }
    | _, _ => s

/-- STAGING_CARRIER: a carrier written directly into a unit's shadow configuration (R165), and checked as R162 has it. -/
def execStagingCarrier (q : Fin 4) (lu : Fin 9216) (s : State) : Host.Outcome State Fault Refusal :=
  .next <|
    match (s.cfgQ q).items.find? fun j => j.lu == lu.val && j.staging, s.phys lu with
    | some it, some u =>
      let s := s.modUnit u fun x => { x with shadow := { x.shadow with cfg := it.cfg, count := 32 } }
      putItem (carrierIn s lu u 15) q { it with staging := false }
    | _, _ => s

end Sys2Proof.Machine
end

