-- ==== Sys2Proof/Machine/Fabric.lean ====
section
/-! DEFINITION. The packet fabric (R218 to R245): injection, routing, ropes, fences, throttle, delivery to units, and the rows PACKET_INJECT, ROUTER_HOP, BUCKET_RECOVERY, SPREAD_ESCAPE, TOKEN, RESP, STK_RD, STK_WR, HOST_WR, HOST_RD, TBL_CMD_COMPLETE. A packet moves whole from router to router; router buffers hold what comes (log 29). Router inputs and outputs: of a zone router 0 north, 1 east, 2 south, 3 west, 4 hub, 5 units; of a hub those of R260. -/

namespace Sys2Proof.Machine

/-! Packets. -/

def pFlits (p : Packet) : Nat := 1 + hLen p.hdr
/-- Virtual channel of a packet (Table 7-5). -/
def pVc (p : Packet) : Nat :=
  if hKind p.hdr = 3 ∨ hKind p.hdr = 4 then 3
  else if hRope p.hdr || !hClass p.hdr then 0 else if p.escape then 2 else 1
/-- The packet follows the fixed route (R229 to R231). -/
def pOrdered (p : Packet) : Bool := pVc p != 1
/-- A packet made at a place; on VC 2 it has escaped already (R230). -/
def newPacket (s : State) (hdr : Row) (data : List (Row × Bool)) (loc : Loc) (vc : Nat) (fromLink : Bool) (by_ : Option Nat) : Packet :=
  { id := s.fab.nextId, hdr := hdr, data := data, loc := loc, inVc := vc, escape := vc == 2, since := s.tick, fromLink := fromLink, by_ := by_ }
/-- A packet appears at a place, on a virtual channel. -/
def addPacket (s : State) (hdr : Row) (data : List (Row × Bool)) (loc : Loc) (vc : Nat) (fromLink : Bool) (by_ : Option Nat) : State :=
  setSeen (s.modFab fun f => { f with nextId := f.nextId + 1, pkts := f.pkts ++ [newPacket s hdr data loc vc fromLink by_] }) (hCairn hdr)
/-- A packet leaves its place: where that is the receive buffer of a link, its flits are free and their credits go back (R249). -/
def freeBuffer (s : State) (p : Packet) : State :=
  match p.loc with
  | .router r port =>
    if 48 ≤ r ∧ 15 ≤ port ∧ port < 23 then
      s.modLink (nth 0 (hubLinks (r - 48)) (port - 15)) fun l =>
        { l with held := smod 0 l.held p.inVc (· - pFlits p), owed := smod 0 l.owed p.inVc (· + pFlits p) }
    else s
  | _ => s
def dropPacket (s : State) (p : Packet) : State :=
  (freeBuffer s p).modFab fun f => { f with pkts := f.pkts.filter fun q => q.id != p.id }
def findPacket (s : State) (pid : Nat) : Option Packet := s.fab.pkts.find? fun p => p.id == pid
/-- A packet moves to a place, behind what is there. -/
def movePacket (s : State) (p : Packet) (loc : Loc) : State :=
  (freeBuffer s p).modFab fun f =>
    { f with pkts := (f.pkts.filter fun q => q.id != p.id) ++ [{ p with loc := loc, inVc := pVc p, since := s.tick }] }

/-- UNROUTABLE (R235): discarded and counted; the first since the last read is captured and posted. -/
def unroutable (s : State) (h : Row) (reason : Nat) : State :=
  let w : Word := BitVec.ofNat 32 (reason * 2 ^ 29 + hDest h)
  let first := s.fab.armed
  let s := ((s.spill (rcKey 0x60030 0) s.fab.unroute).modFab fun f => { f with unroute := satInc f.unroute, armed := false, first := if f.armed then w else f.first }).catchFirst 0x60034 w
  if first then event s 0x0010 none w.toNat else s
def rHubMiss : Nat := 0
def rZoneMiss : Nat := 1
def rStale : Nat := 2
def rHops : Nat := 3
def rRope : Nat := 4
def rTarget : Nat := 5
def rNoLink : Nat := 6
/-- The quarter whose streams a packet is of (R417, log 128): its unit's, or, of a RESP, that of the unit it has come to. -/
def packetBy (p : Packet) : Option Nat :=
  match p.by_, p.loc with
  | some q, _ => some q
  | none, .unit lu => if hKind p.hdr = 3 then some (zoneOf lu / 12) else none
  | none, _ => none
/-- Quarter q among the quarters in reset, if it is one. -/
def resetBit (s : State) (q : Nat) : BitVec 4 := setBit 0 q (s.quarter q).inReset
/-- Router r discards a packet of a quarter's streams, or of none, at a fence of the quarters in reset named, if of any, or for a double-bit error: a proxy goes to its piton (R221, R236). -/
def proxyHdr (s : State) (r : Nat) (h : Row) (by_ : Option Nat) (fq : BitVec 4) : State :=
  if hPv h then issueArrival s r (hPiton h) (hLen h) true (hLast h) (BitVec.ofNat 32 (hTotal h)) by_ fq else s
/-- The arrival a handler at router r issues once it has accepted a packet (R226). -/
def arriveHdr (s : State) (r : Nat) (h : Row) (by_ : Option Nat) : State :=
  if hPv h then issueArrival s r (hPiton h) (hLen h) false (hLast h) (BitVec.ofNat 32 (hTotal h)) by_ 0 else s
/-- A RESP to a request (R223): n data flits. -/
def respHdr (h : Row) (len inl : Nat) : Row :=
  mkHdr { dest := hSrc h, src := hDest h, cls := hClass h, last := hLast h, kind := 3, pv := hPv h, len := len,
          piton := hPiton h, total := hTotal h, addr := hAddr h, arg := hArg h, inl := inl }

/-! Routes. -/

/-- Where a packet goes next. -/
inductive Hop
  | zone (z : Nat) | hub (h : Nat) | link (n : Nat) | unit (lu : Nat) | func (q f : Nat) | engine (q : Nat)
  | bad (reason : Nat)
  deriving DecidableEq, Repr

def epEntry (s : State) (r : Nat) (v : Bool) (id : Nat) : BitVec 64 := sget 0 s.fab.ep ((2 * r + b2n v) * 2 ^ 24 + id)
def ropeEntry (s : State) (r : Nat) (v : Bool) (k : Nat) : BitVec 64 := sget 0 s.fab.rope ((2 * r + b2n v) * 4096 + k)
def listEntry (s : State) (r : Nat) (v : Bool) (k : Nat) : BitVec 8 := sget 0 s.fab.list ((2 * r + b2n v) * 4096 + k)
/-- Mesh directions on minimal paths from zone z to zone t of one quarter, 0 north to 3 west (R218, R230). -/
def meshDirs (z t : Nat) : List Nat :=
  let x := z % 3
  let y := z % 12 / 3
  let u := t % 3
  let v := t % 12 / 3
  (if v < y then [0] else []) ++ (if x < u then [1] else []) ++ (if y < v then [2] else []) ++ (if u < x then [3] else [])
/-- The ORDERED direction: along the row, then along the column (R229). -/
def meshOrdered (z t : Nat) : Nat := if z % 3 < t % 3 then 1 else if t % 3 < z % 3 then 3 else if t % 12 / 3 < z % 12 / 3 then 0 else 2
/-- Flits held at a router from one of its inputs on a virtual channel. -/
def heldFlits (s : State) (r inPort vc : Nat) : Nat :=
  ((s.fab.pkts.filter fun p => p.loc == .router r inPort && p.inVc == vc).map pFlits).sum
/-- Credits for an input of a router on a virtual channel: what its 64 flits leave free (log 29). -/
def freeCredits (s : State) (r inPort vc : Nat) : Nat := 64 - heldFlits s r inPort vc
/-- The zone next to z in a direction, within its quarter. -/
def meshNext (z d : Nat) : Nat := if d = 0 then z - 3 else if d = 1 then z + 1 else if d = 2 then z + 3 else z - 1
/-- The first element with the smallest measure. -/
def argMin (l : List Nat) (f : Nat → Nat) : Option Nat :=
  l.foldl (fun a x => match a with | none => some x | some y => if f x < f y then some x else some y) none
/-- A mesh hop from zone router z towards zone t (R229, R230). -/
def meshHop (s : State) (p : Packet) (z t : Nat) : Nat :=
  let d := if pOrdered p then meshOrdered z t
    else (argMin (meshDirs z t) fun d => heldFlits s (meshNext z d) (oppDir d) 1).getD (meshOrdered z t)
  meshNext z d
/-- A link is in the UP set: UP, or retraining quickly, which it leaves only at DOWN (R251, R253, log 30). -/
def linkUp (l : Link) : Bool := l.state == .up || l.state == .retraining
/-- The link of a mask of hub h that a packet takes (R229, R230). -/
def maskLink (s : State) (p : Packet) (h mask : Nat) : Hop :=
  let ups := (upto 8).filter fun i => mask / 2 ^ i % 2 == 1 && linkUp (s.link (nth 0 (hubLinks h) i))
  if ups.isEmpty then .bad rNoLink
  else
    let i := if pOrdered p then nth 0 ups (hSrc p.hdr % ups.length)
      else (argMin ups fun i => sget 0 (s.link (nth 0 (hubLinks h) i)).spent 1).getD 0
    .link (nth 0 (hubLinks h) i)
/-- A kind that function f of a hub handles (Table 7-4, Table 7-7). -/
def funcTakes (f kind : Nat) : Bool :=
  match f with
  | 0 => kind == 1 || kind == 2
  | 1 => kind == 5 || kind == 6 || kind == 3
  | 7 => kind == 4
  | _ => decide (f ≤ 6) && kind == 3
/-- STK_RD and STK_WR that name what is not there (Table 7-22). -/
def stkBad (h : Row) : Bool :=
  let st := hAddr h / 2 ^ 62
  let row := hAddr h % 2 ^ 32
  let n := if hKind h = 1 then hArg h else hLen h
  st == 3 || (hKind h == 2 && st != 2) || (hKind h == 1 && (n == 0 || decide (64 < n))) || decide (stackRows st < row + n)
/-- Next hop at a zone router (R234), with the header it leaves with. -/
def routeZone (s : State) (p : Packet) (z inPort : Nat) : Hop × Row :=
  let h := p.hdr
  let q := z / 12
  if hKind h = 4 ∧ hDest h = 0xFFFFFF then (.hub q, h)
  else if hSet h && 12 * q + hZone h != z then (.zone (meshHop s p z (12 * q + hZone h)), h)
  else
    let e := epEntry s z (hCairn h) (hDest h)
    if eValid e && eOut e == 0 then
      (if hKind h = 0 ∨ hKind h = 3 then .unit (luAt z (eK e) (eJ e)) else .bad rTarget, h)
    else if eValid e && eOut e == 1 then
      (.zone (meshHop s p z (12 * q + eZone e)), setFld h 136 8 (128 + eZone e))
    else if eValid e then (.hub q, h)
    else if inPort = 4 then (.bad rZoneMiss, h)
    else (.hub q, h)
/-- The fixed path of a PITON packet from hub q: to the piton's hub, and its engine there (R227). -/
def fixedHop (h : Row) (q : Nat) : Hop := if pitonQuarter (hPiton h) = q then .engine q else .hub (pitonQuarter (hPiton h))
/-- A PITON packet leaves hub q on the fixed path: it is on it, or an entry with FUNC 7 puts it there (R227). -/
def onFixed (s : State) (p : Packet) (q : Nat) : Bool :=
  let e := epEntry s (48 + q) (hCairn p.hdr) (hDest p.hdr)
  hKind p.hdr == 4 && (p.fixed || hDest p.hdr == 0xFFFFFF || (eValid e && eOut e == 3 && eFunc e == 7))
/-- Next hop at hub q (R227, R234). -/
def routeHub (s : State) (p : Packet) (q : Nat) : Hop × Row :=
  let h := setFld p.hdr 136 8 0
  if onFixed s p q then (fixedHop h q, h)
  else
    let e := epEntry s (48 + q) (hCairn h) (hDest h)
    if !eValid e then (.bad rHubMiss, h)
    else match eOut e with
      | 0 => (.zone (12 * q + eZone e), h)
      | 1 => (.hub (eHub e), h)
      | 2 => (maskLink s p q (eLinks e), h)
      | _ =>
        if !funcTakes (eFunc e) (hKind h) || (eFunc e == 0 && stkBad h) then (.bad rTarget, h)
        else (.func q (eFunc e), h)
/-- The next hop meets a fence (R236). -/
def hopFenced (s : State) : Hop → Bool
  | .zone z => (s.quarter (z / 12)).inReset
  | .hub h => (s.quarter h).inReset
  | .engine q => (s.quarter q).inReset
  | .unit lu => (s.phys lu).isNone
  | _ => false

/-- The quarter of the next hop among those in reset, if it is one (R422). -/
def hopReset (s : State) : Hop → BitVec 4
  | .zone z => resetBit s (z / 12)
  | .hub h => resetBit s h
  | .engine q => resetBit s q
  | .unit lu => resetBit s (zoneOf lu / 12)
  | _ => 0

/-! Links' transmit side. -/

/-- Frames a packet takes: four flits each (R248, log 31). -/
def pFrames (p : Packet) : Nat := (pFlits p + 3) / 4
/-- The link has credit and replay room for a packet (R249, R250). -/
def linkRoom (l : Link) (p : Packet) : Bool :=
  decide (sget 0 l.spent (pVc p) + pFlits p ≤ 1024) && decide (l.replay.length + pFrames p ≤ 512)
/-- A frame leaves: it carries the SEQ expected, a NAK that is due, and the credits of the lowest VC that is owed any (R248 to R250, Table 7-12). -/
def emitFrame (l : Link) (type : Nat) (seq : BitVec 12) (data : BitVec 2048) (marks : BitVec 24) : Link :=
  let vc := ((upto 4).find? fun v => decide (0 < sget 0 l.owed v)).getD 0
  let n := min 2047 (sget 0 l.owed vc)
  let ctl := BitVec.ofNat 64 (seq.toNat * 2 ^ 52 + l.rxSeq.toNat * 2 ^ 40 + b2n l.nak * 2 ^ 39 + type * 2 ^ 37 + marks.toNat * 2 ^ 13 + vc * 2 ^ 11 + n)
  { l with nak := false, ackOwed := false, owed := smod 0 l.owed vc (· - n), out := l.out ++ [⟨data, ctl, frameCrc ⟨data, ctl, 0⟩⟩] }
/-- A DATA frame of the replay buffer leaves; the last of a HOST_WR or HOST_RD packet brings it, the first time, towards the wafer host bridge (Table 7-4). -/
def sendFrame (l : Link) (f : TxFrame) : Link :=
  let l := emitFrame l 1 f.seq f.data f.marks
  match f.sent, f.tail with
  | false, some p => if hKind p.hdr = 7 ∨ hKind p.hdr = 8 then { l with wire := l.wire ++ [p] } else l
  | _, _ => l
/-- The DATA frames of a packet on a virtual channel, from SEQ seq on: four flits each with their MARKs (R222, R248). -/
def framesOf (p : Packet) (seq : BitVec 12) : List TxFrame :=
  let flits := (p.hdr, false) :: p.data
  let n := flits.length
  (upto (pFrames p)).map fun k =>
    let mark (i : Nat) : Nat :=
      if i < n then 32 + b2n (i == 0) * 16 + b2n (i + 1 == n) * 8 + b2n (nth (0, false) flits i).2 * 4 + pVc p else 0
    { seq := seq + BitVec.ofNat 12 k, data := BitVec.ofNat 2048 (packNat 512 (fun i => (nth (0, false) flits (4 * k + i)).1.toNat) 4),
      marks := BitVec.ofNat 24 (packNat 6 (fun i => mark (4 * k + i)) 4), tail := if k + 1 = pFrames p then some p else none, sent := false }
/-- Put a packet on link n: its frames go into the replay buffer, and leave unless the link retrains (R249 to R251). -/
def linkSend (s : State) (n : Nat) (p : Packet) : State :=
  s.modLink n fun l =>
    let fs := framesOf p l.txSeq
    let up := l.state == .up
    let l := { l with ackTick := if l.replay.isEmpty then s.tick else l.ackTick, txSeq := l.txSeq + BitVec.ofNat 12 (pFrames p),
                      spent := smod 0 l.spent (pVc p) (· + pFlits p), replay := l.replay ++ fs.map fun f => { f with sent := up } }
    if up then fs.foldl sendFrame l else l
/-- The engine of quarter q gets a PITON packet that stands at its hub, having come in on the given port (R227, R260). -/
def toEngine (s : State) (p : Packet) (inPort q : Nat) : State :=
  let d := p.hdr
  pitDeposit s q
    { port := inPort, piton := BitVec.ofNat 17 (hPiton d), pv := hPv d, len := hLen d,
      op := BitVec.ofNat 4 (hArg d / 2 ^ 28), arg := BitVec.ofNat 28 (hArg d), inl := hInline d, last := hLast d,
      total := BitVec.ofNat 32 (hTotal d), src := BitVec.ofNat 24 (hSrc d), dest := BitVec.ofNat 24 (hDest d),
      cls := hClass d, fromLink := p.fromLink, by_ := packetBy p, fenceBy := p.fenceBy }

/-- Where a hop from router r to another router enters it: the router and its input port. -/
def hopInput (r : Nat) : Hop → Option (Nat × Nat)
  | .zone z => some (z, if 48 ≤ r then 4 else if z + 3 = r then 2 else if z = r + 1 then 3 else if z = r + 3 then 0 else 1)
  | .hub h => some (48 + h, if r < 48 then r % 12 else hubPortOfHub h (r - 48))
  | _ => none
/-- A packet finds a credit on a hop from router r: of the next router's input on its virtual channel, or for all its flits on a link (R228, R249, log 29). -/
def hopCredit (s : State) (p : Packet) (r : Nat) (hop : Hop) : Bool :=
  match hop, hopInput r hop with
  | .link n, _ => linkRoom (s.link n) p
  | _, some (t, port) => decide (0 < freeCredits s t port (pVc p))
  | _, none => true
/-- Carry out one hop of a packet, or of a rope copy, from router r; one that finds no credit leaves it where it is. -/
def doHop (s : State) (p : Packet) (r inPort : Nat) (hop : Hop) : State :=
  if hopFenced s hop then proxyHdr (dropPacket s p) r p.hdr (packetBy p) (p.fenceBy ||| hopReset s hop)
  else if !hopCredit s p r hop then s
  else match hop with
    | .bad reason => unroutable (dropPacket s p) p.hdr reason
    | .zone z => movePacket s p (match hopInput r (.zone z) with | some (t, port) => .router t port | none => p.loc)
    | .hub h => movePacket s p (match hopInput r (.hub h) with | some (t, port) => .router t port | none => p.loc)
    | .unit lu => movePacket s p (.unit lu)
    | .func q f => movePacket s p (.func q f)
    | .engine q => toEngine (dropPacket s p) p inPort q
    | .link n => linkSend (dropPacket s p) n p

/-! Ropes (R242, R243). -/

/-- The copies a rope packet makes at router r, as hops, in ascending bit order of the entry, then the unit list; a copy for the input it came by is not made. -/
def ropeHops (s : State) (h : Row) (r inPort : Nat) (e : BitVec 64) : List Hop :=
  if r < 48 then
    let o := rOut e
    let dir (d : Nat) : List Hop := if bit (BitVec.ofNat 5 o) (4 - d) && d != inPort then [.zone (meshNext r d)] else []
    (if o % 2 = 1 ∧ inPort ≠ 4 then [.hub (r / 12)] else []) ++ dir 3 ++ dir 2 ++ dir 1 ++ dir 0 ++
      (upto (rLen e)).map fun i =>
        let k := listEntry s r (hCairn h) (rBase e + i)
        if hKind h = 0 ∨ hKind h = 3 then .unit (luAt r (fld k 4 4) (fld k 0 4)) else .bad rTarget
  else
    let q := r - 48
    ((upto 8).filterMap fun i =>
      if rLinks e / 2 ^ i % 2 = 1 ∧ inPort ≠ 15 + i then
        some (if linkUp (s.link (nth 0 (hubLinks q) i)) then .link (nth 0 (hubLinks q) i) else .bad rNoLink) else none) ++
      ((upto 4).filterMap fun i => if rHubs e / 2 ^ i % 2 = 1 ∧ i ≠ q ∧ inPort ≠ hubPortOfHub q i then some (.hub i) else none) ++
      (upto 12).filterMap fun i => if rZones e / 2 ^ i % 2 = 1 ∧ inPort ≠ i then some (.zone (12 * q + i)) else none
/-- Every copy of the expansion finds a credit. -/
def ropeRoom (s : State) (p : Packet) (r : Nat) (hs : List Hop) : Bool := hs.all fun h => hopFenced s h || hopCredit s p r h
/-- Expand a rope packet: one copy for each hop, and the original is gone. A copy in the making stands in no input buffer (port 24). -/
def expand (s : State) (p : Packet) (r inPort : Nat) (hs : List Hop) : State :=
  forEach hs (dropPacket s p) fun s h =>
    let c := { p with id := s.fab.nextId, loc := .router r 24 }
    let s := s.modFab fun f => { f with nextId := f.nextId + 1, pkts := f.pkts ++ [c] }
    doHop s c r inPort h

/-- The packet is ORDERED, a rope packet or VC 3 traffic (R229). -/
def inOrder (p : Packet) : Bool := pVc p == 0 || pVc p == 3
/-- A packet of the same SRC, DEST and CAIRN stands before p on the same input, and both follow the fixed route, be it on VC 0 or 3: it goes first (R229). -/
def orderAhead (s : State) (p : Packet) : Bool :=
  inOrder p && (s.fab.pkts.takeWhile fun q => q.id != p.id).any fun q =>
    q.loc == p.loc && inOrder q && hSrc q.hdr == hSrc p.hdr && hDest q.hdr == hDest p.hdr && hCairn q.hdr == hCairn p.hdr

/-- ROUTER_HOP: the packet's router looks it up and forwards it, delivers it, or finds it unroutable; a double-bit error discards it and proxies its piton; a rope packet is copied (R221, R227 to R236, R243). -/
def execRouterHop (pid : Nat) (ecc : FlitEcc) (s : State) : Host.Outcome State Fault Refusal :=
  .next <|
    match findPacket s pid with
    | none => s
    | some p =>
      match p.loc with
      | .router r inPort =>
        if ecc = .double then
          proxyHdr (recordZone (dropPacket s p) (if r < 48 then r else 12 * (r - 48)) 6 false 0) r p.hdr (packetBy p) p.fenceBy
        else
          if bit s.fab.shadow (b2n (hCairn p.hdr)) && !p.issued then unroutable (dropPacket s p) p.hdr rStale
          else
            let q := { p with hdr := setFld p.hdr 128 8 (hHops p.hdr + 1) }
            if 63 < hHops p.hdr + 1 then unroutable (dropPacket s p) p.hdr rHops
            else if orderAhead s p then s
            else if hRope p.hdr then
              let e := ropeEntry s r (hCairn p.hdr) (hDest p.hdr % 4096)
              if !eValid e then unroutable (dropPacket s p) p.hdr rRope
              else
                let hs := ropeHops s p.hdr r inPort e
                if ropeRoom s p r hs then expand s q r inPort hs else s
            else
              let (hop, h) := if r < 48 then routeZone s q r inPort else routeHub s q (r - 48)
              doHop s { q with hdr := h, fixed := q.fixed || (decide (48 ≤ r) && onFixed s q (r - 48)) } r inPort hop
      | _ => s

/-- The outputs a SPREAD packet may take from its router: every minimal mesh direction, every UP link of a mask, else the one hop of its route (R230). -/
def permitted (s : State) (p : Packet) (r inPort : Nat) : List Hop :=
  if r < 48 then
    match (routeZone s p r inPort).1 with
    | .zone _ =>
      let e := epEntry s r (hCairn p.hdr) (hDest p.hdr)
      let t := if hSet p.hdr && 12 * (r / 12) + hZone p.hdr != r then hZone p.hdr else eZone e
      (meshDirs r (12 * (r / 12) + t)).map fun d => .zone (meshNext r d)
    | h => [h]
  else
    let q := r - 48
    match (routeHub s p q).1 with
    | .link _ =>
      let mask := eLinks (epEntry s r (hCairn p.hdr) (hDest p.hdr))
      ((upto 8).filter fun i => mask / 2 ^ i % 2 == 1 && linkUp (s.link (nth 0 (hubLinks q) i))).map fun i => .link (nth 0 (hubLinks q) i)
    | h => [h]
/-- A packet finds a credit on some permitted output of its router. -/
def findsCredit (s : State) (p : Packet) : Bool :=
  match p.loc with
  | .router r port => (permitted s p r port).any (hopCredit s p r)
  | _ => true
/-- What the fabric does at a drone tick: SPREAD packets that find a credit wait no more (R230). -/
def tickSpread (s : State) : State :=
  s.modFab fun f => { f with pkts := f.pkts.map fun p => if pVc p = 1 ∧ findsCredit s p then { p with since := s.tick } else p }
/-- SPREAD_ESCAPE: a SPREAD packet that has found no credit on any permitted output for 64 drone ticks moves to VC 2 and follows the ORDERED route (R230). -/
def execSpreadEscape (pid : Nat) (s : State) : Host.Outcome State Fault Refusal :=
  .next <|
    match findPacket s pid with
    | some p =>
      if pVc p = 1 ∧ p.since + 64 ≤ s.tick ∧ !findsCredit s p then
        s.modFab fun f => { f with pkts := f.pkts.map fun q => if q.id = pid then { q with escape := true } else q }
      else s
    | none => s

/-! Injection throttle (R245). -/

def injKey : Injector → Nat
  | .unit lu => lu
  | .hub q f => 9216 + 8 * q + f
/-- The quarter whose streams an injector's packets are of: a unit's (R417). -/
def injBy : Injector → Option Nat
  | .unit lu => some (zoneOf lu / 12)
  | .hub _ _ => none
def injRouter : Injector → Nat
  | .unit lu => zoneOf lu
  | .hub q _ => 48 + q
/-- r_max in flits per drone tick (Table 7-2). -/
def rMax : Injector → Rat
  | .unit _ => 1
  | .hub _ _ => 4
/-- The rate in force, as a fraction of r_max. -/
def curRate (b : Bucket) (tick : Nat) : Rat :=
  match b.rising with
  | some (t, r) => if 3200 ≤ tick - t then 1 else r + (1 - r) * ((tick - t : Nat) : Rat) / 3200
  | none => b.rate
/-- What the ticks after a up to b give, in flits of r_max = 1: r(t) at each tick t, before, in and after a rise that began at tick t0 (R245). -/
def creditSum (r : Bucket) (a b : Nat) : Rat :=
  match r.rising with
  | some (t0, r0) =>
    let risen (t : Nat) : Rat :=
      let x := t - t0
      let m := min x 3200
      r0 * ((min t t0 : Nat) : Rat) + r0 * (m : Rat) + (1 - r0) * ((m * (m + 1) : Nat) : Rat) / 6400 + ((x - m : Nat) : Rat)
    risen b - risen a
  | none => r.rate * ((b - a : Nat) : Rat)
/-- Flits in the bucket now. -/
def curFill (i : Injector) (b : Bucket) (tick : Nat) : Rat :=
  min 16 (b.fill + rMax i * creditSum b b.filled tick)
/-- Number of an output of a router. -/
def outputNo : Hop → Nat
  | .zone z => z
  | .hub h => 48 + h
  | .link n => 64 + n
  | .func _ f => 104 + f
  | .engine q => 112 + q
  | .bad _ => 120
  | .unit lu => 128 + lu
/-- Input port of router r's injectors. -/
def injPort (r : Nat) : Nat := if r < 48 then 5 else 23
/-- First-hop output queues of a packet at its router, each an output number and VC: one, or those of a rope packet's copies. -/
def firstQueues (s : State) (p : Packet) (r : Nat) : List Nat :=
  let hops := if hRope p.hdr then ropeHops s p.hdr r (injPort r) (ropeEntry s r (hCairn p.hdr) (hDest p.hdr % 4096))
    else [(if r < 48 then routeZone s p r 5 else routeHub s p (r - 48)).1]
  (hops.map fun h => 4 * outputNo h + pVc p).dedup
/-- Flits in an output queue of router r. -/
def queueFlits (s : State) (r k : Nat) : Nat :=
  ((s.fab.pkts.filter fun p => (match p.loc with | .router x _ => x == r | _ => false) && (firstQueues s p r).contains k).map pFlits).sum
/-- A packet goes in at its injector's router: its first-hop queues are noted, and where one is above 48 flits a rate above r_max / 64 halves, at most once in 256 drone ticks (R245). -/
def inject (s : State) (i : Injector) (hdr : Row) (data : List (Row × Bool)) : State :=
  let r := injRouter i
  let inPort := injPort r
  let p := newPacket s hdr data (.router r inPort) (if hRope hdr || !hClass hdr then 0 else 1) false (injBy i)
  if pVc p = 3 then addPacket s hdr data (.router r inPort) 3 false (injBy i)
  else
    let ks := firstQueues s p r
    let b := sget Bucket.init s.fab.buckets (injKey i)
    let rate := curRate b s.tick
    let halve := decide (1 / 64 < rate) && (ks.any fun k => decide (48 < queueFlits s r k)) && (match b.halved with | some t => decide (t + 256 ≤ s.tick) | none => true)
    let b := { b with fill := curFill i b s.tick - pFlits p, filled := s.tick, used := ks.map (fun k => (r, k, pVc p, s.tick)) ++ b.used.filter (fun u => decide (s.tick < u.2.2.2 + 256)) }
    let b := if halve then { b with rate := max (1 / 64) (rate / 2), rising := none, halved := some s.tick } else b
    let s := if halve then s.spill (rcKey (0x60100 + 4 * r) 0) (sget 0 s.fab.thr r) else s
    let s := s.modFab fun f =>
      { f with buckets := sset Bucket.init f.buckets (injKey i) b, thr := if halve then smod 0 f.thr r satInc else f.thr }
    addPacket s hdr data (.router r inPort) (pVc p) false (injBy i)
/-- Every first-hop queue that a bucket's injector has used in the last 256 drone ticks lies below 32 flits (R245). -/
def queuesLow (s : State) (b : Bucket) : Bool :=
  (b.used.filter fun u => decide (s.tick < u.2.2.2 + 256)).all fun u => decide (queueFlits s u.1 u.2.1 < 32)
/-- BUCKET_RECOVERY: every first-hop queue used in the last 256 drone ticks lies below 32 flits, and the rate starts its rise to r_max (R245). -/
def execBucketRecovery (i : Injector) (s : State) : Host.Outcome State Fault Refusal :=
  .next <|
    let b := sget Bucket.init s.fab.buckets (injKey i)
    if b.rising.isNone && decide (b.rate < 1) && queuesLow s b then
      s.modFab fun f => { f with buckets := sset Bucket.init f.buckets (injKey i) { b with rising := some (s.tick, b.rate) } }
    else s

/-- The injector behind a bucket's key. -/
def injOf (k : Nat) : Injector := if h : k < 9216 then .unit ⟨k, h⟩ else .hub (Fin.ofNat 4 ((k - 9216) / 8)) (Fin.ofNat 8 (k - 9216))
/-- What the fabric does at a drone tick: a rate that rises holds where it stands once a queue its injector has used lies at 32 flits or more (R245). -/
def tickBuckets (s : State) : State :=
  forEach (s.fab.buckets.filter fun e => e.2.rising.isSome && !queuesLow s e.2) s fun s e =>
    let b := { e.2 with fill := curFill (injOf e.1) e.2 s.tick, filled := s.tick, rate := curRate e.2 s.tick, rising := none }
    s.modFab fun f => { f with buckets := sset Bucket.init f.buckets e.1 b }

/-! Injection (R224, R225, R239). -/

/-- Take tokens of lu's injection queue into the packet being formed, until it is whole. -/
def takeTokens (s : State) (lu : Nat) : State :=
  match sget none s.fab.asm lu with
  | none => s
  | some a =>
    let q := sget [] s.fab.injq lu
    let n := min a.left q.length
    let a := { a with left := a.left - n, data := if a.drop then [] else a.data ++ (q.take n).map fun t => (t.2.payload, t.2.last) }
    s.modFab fun f => { f with injq := sset [] f.injq lu (q.drop n), asm := sset none f.asm lu (some a) }
/-- The bucket lets a packet in: it has a flit, or the packet is on VC 3. -/
def bucketOpen (s : State) (i : Injector) (h : Row) : Bool :=
  hKind h == 3 || hKind h == 4 || decide (0 < curFill i (sget Bucket.init s.fab.buckets (injKey i)) s.tick)
/-- A unit's packet: the header token, then its data tokens as they come. -/
def injectUnit (s : State) (lu : Fin 9216) : State :=
  let z := zoneOf lu
  let s := match sget none s.fab.asm lu, sget [] s.fab.injq lu with
    | none, t :: ts =>
      let h := t.2.payload
      let bad := hdrBad h
      let s := s.modFab fun f => { f with injq := sset [] f.injq lu ts, asm := sset none f.asm lu (some ⟨h, [], hLen h, bad⟩) }
      if bad then recordZone s z 7 false 0 (some lu) else s
    | _, _ => s
  let s := takeTokens s lu
  match sget none s.fab.asm lu with
  | some a =>
    if a.left ≠ 0 then s
    else if a.drop then s.modFab fun f => { f with asm := sset none f.asm lu none }
    else if bucketOpen s (.unit lu) a.hdr then
      inject (s.modFab fun f => { f with asm := sset none f.asm lu none }) (.unit lu) a.hdr a.data
    else s
  | none => s
/-- PACKET_INJECT: a unit's packet, once its tokens are in, or of a hub's local injector the next packet that its bucket lets in, the throttle holding no VC 3 packet back (R245); CAIRN is stamped, HOPS and ROUTE cleared (R223, R224, R239); a malformed header is discarded with its data tokens and reported (R225). -/
def execPacketInject (i : Injector) (s : State) : Host.Outcome State Fault Refusal :=
  .next <|
    match i with
    | .unit lu => if (s.quarter (zoneOf lu / 12)).inReset then s else injectUnit s lu
    | .hub q f =>
      match (sget [] s.fab.localq (8 * q + f)).find? fun x => bucketOpen s i x.1 with
      | some x => inject (s.modFab fun y => { y with localq := smod [] y.localq (8 * q + f) (·.erase x) }) i (stampHdr x.1 s.fab.injCairn) x.2
      | none => s

/-! Delivery (R226, R237). -/

/-- The packet is the oldest waiting at its place. -/
def oldestAt (s : State) (p : Packet) : Bool :=
  match s.fab.pkts.find? fun q => q.loc == p.loc with
  | some q => q.id == p.id
  | none => false
/-- Deliver data flits to lu's port 8 while it has room; the arrival follows the last (R226). A zone under steering holds its deliveries (R237); a unit that is no longer backed is a fence (R236). -/
def deliverUnit (s : State) (p : Packet) (lu : Nat) : State :=
  let z := zoneOf lu
  if (s.quarter (z / 12)).steering.any (fun x => x.1 == z) then s
  else match s.phys lu with
    | none => proxyHdr (dropPacket s p) z p.hdr (packetBy p) (resetBit s (z / 12))
    | some u =>
      let n := min p.data.length (port8Room s lu)
      let s := forEach (p.data.take n) s fun s d => enqueue (noteMove s z) lu u 8 (mkToken d.1 (s.chan lu 8).gen d.2)
      if n = p.data.length then arriveHdr (dropPacket s p) z p.hdr (packetBy p)
      else s.modFab fun f => { f with pkts := f.pkts.map fun q => if q.id = p.id then { q with data := q.data.drop n } else q }
/-- TOKEN: a TOKEN packet's data flits enter a unit's port-8 queue, and its arrival is issued (R226). -/
def execToken (pid : Nat) (s : State) : Host.Outcome State Fault Refusal :=
  .next <|
    match findPacket s pid with
    | some p =>
      match p.loc with
      | .unit lu => if hKind p.hdr = 0 && oldestAt s p then deliverUnit s p lu else s
      | _ => s
    | none => s

/-! Answers to the command front end. -/

/-- Bytes of a firmware slot, and of one read of an image (R396, Table 7-4). -/
def fwBytes : Nat := 4 * 2 ^ 20
def fwChunk : Nat := 4096
/-- The next HOST_RD of a firmware update (R396); that the front end sends it, in turn, as it does its fetches, is DESIGN CHOICE (log 38). -/
def fwAsk (s : State) : State :=
  localSend s 0 1 (mkHdr { dest := hostId s, src := feId s, kind := 8, addr := s.fw.updAddr.toNat * 64 + s.fw.got, arg := fwChunk }) []
/-- Data of a firmware image have come: they join the image, and the next are asked for. -/
def fwTake (s : State) (p : Packet) : State :=
  let f := s.fw
  if f.update = 1 && decide (f.got < fwBytes) && hAddr p.hdr == f.updAddr.toNat * 64 + f.got && hArg p.hdr == fwChunk then
    let rows := p.data.map Prod.fst
    let s := s.modFw fun f =>
      { f with img := (upto 64).foldl (fun m i => writeRowAt m (f.got + 64 * i) (nth 0 rows i)) f.img, got := f.got + fwChunk }
    if s.fw.got < fwBytes then fwAsk s else s
  else s
/-- h is a packet of the front end's that asks piton i for an answer by RESP: a READ (op 5), or a WAIT (op 2) with the tag. -/
def feAsks (s : State) (i op tag : Nat) (h : Row) : Bool :=
  hKind h == 4 && hArg h / 2 ^ 28 == op && hPiton h == i && hSrc h == feId s &&
    (op == 5 || (hArg h % 4 == 0 && fld (hInline h) 32 32 == tag))
/-- h is piton i's answer to one. -/
def feAnswers (s : State) (i op tag : Nat) (h : Row) : Bool :=
  hKind h == 3 && hArg h / 2 ^ 28 == op && fld (hInline h) 0 17 == i && hDest h == feId s && (op == 5 || fld (hInline h) 32 32 == tag)
/-- Answers still to come to the front end of those kinds: asked for on the way to the engine, waiting there, or on the way back (R258, R264). -/
def feDue (s : State) (i op tag : Nat) : Nat :=
  let has (h : Row) : Bool := feAsks s i op tag h || feAnswers s i op tag h
  (s.fab.pkts.filter fun p => has p.hdr).length + (s.fab.localq.map fun l => (l.2.filter fun p => has p.1).length).sum +
    ((s.pitQ (pitonQuarter i)).inbox.filter fun m =>
      m.op.toNat == op && m.piton.toNat == i && m.src.toNat == feId s && !pitBad m &&
        (op == 5 || (m.arg.toNat % 4 == 0 && fld m.inl 32 32 == tag))).length +
    (if op = 2 then ((s.piton i).waiters.filter fun w => w.mode == 0 && w.src.toNat == feId s && w.tag.toNat == tag).length else 0)
/-- Answers that the descriptor of queue n awaits of piton i: RUN_GRAPH's and WAIT's one notification, a PITON_OP's RESP to its READ, and for a READ two (R370). -/
def feAwaits (s : State) (i op tag n : Nat) : Nat :=
  match (s.queue n).run with
  | some x =>
    let d := x.desc.row
    if x.phase ≠ 2 ∧ x.phase ≠ 3 then 0
    else if dType d = 1 then b2n (op == 2 && feTag n 2 == tag && dBytes d 32 4 % 2 ^ 17 == i)
    else if dType d = 4 ∧ dBytes d 12 4 % 2 ^ 17 = i then
      if fld d 128 4 = 2 then b2n (op == 2 && dBytes d 32 4 == tag) else if op = 5 then x.phase - 1 else 0
    else 0
  | none => 0
/-- An answer of piton i to the front end is one that a descriptor still awaits: it is not owed to one that a reset or a time limit has ended. A path delivers in order (R227), so that those of the descriptors that wait now come last. -/
def feFresh (s : State) (i op tag : Nat) : Bool := decide (feDue s i op tag < ((upto 64).map (feAwaits s i op tag)).sum)
/-- A RESP to the command front end: a descriptor fetch's data, matched by its host address and length, a firmware image's (R396), or a piton engine's record for a RUN_GRAPH or PITON_OP (R364, R370); READ answers carry TAG 0 and are matched by their piton, and where several descriptors await one of the same piton, by the order they asked (a path delivers in order, R227); an answer that was owed to a descriptor no longer there is dropped (log 152). -/
def feAnswer (s : State) (p : Packet) : State :=
  let h := p.hdr
  if hArg h / 2 ^ 28 = 2 || hArg h / 2 ^ 28 = 5 then
    let r := hInline h
    let piton := fld r 0 17
    let status := fld r 24 8
    let count := fld r 64 32
    let op := if status = 4 then 5 else 2
    let tag := fld r 32 32
    let match_ (n : Nat) : Bool := feFresh s piton op tag && feAwaits s piton op tag n != 0
    let order (n : Nat) : Nat := match (s.queue n).run with | some x => x.order | none => 0
    let best := ((upto 64).filter match_).foldl (fun a n => match a with
      | some m => if order n < order m then some n else some m
      | none => some n) none
    match best with
    | some n =>
      match (s.queue n).run with
      | some x =>
        if dType x.desc.row = 1 then
          if quarterFaulty s (fld x.desc.row (8 * 26) 2) then setPhase s n 4
          else if status = 0 then finishRun s n stOk count else finishRun s n stPitonError (status + min count 0xFFFFFF * 256)
        else if fld x.desc.row 128 4 = 2 then finishRun s n stOk status
        else if x.phase = 3 then setPhase s n 2
        else finishRun s n stOk count
      | none => s
    | none => s
  else
    let match_ (n : Nat) (f : Fetch) : Bool :=
      f.data.isNone && fetchAddr (s.queue n) f == hAddr h && 64 * f.count == hArg h
    match (upto 64).find? fun n => (s.queue n).fetches.any (match_ n) with
    | some n =>
      match (s.queue n).fetches.find? (match_ n) with
      | some f =>
        s.modQueue n fun q =>
          { q with fetches := q.fetches.map fun g => if g.slot = f.slot then { g with data := some (p.data.map Prod.fst) } else g }
      | none => s
    | none => fwTake s p

/-- The streamer of quarter q gets a notification of its WAIT (R164): COMPLETE lets the barrier in, any other leaves it to wait anew once the piton is restarted; FENCED, or COMPLETE with FENCED_SEEN, faults the step (R268). -/
def streamerAnswer (s : State) (q : Nat) (h : Row) : State :=
  let r := hInline h
  let status := fld r 24 8
  let fenced := status == 1 || (status == 0 && bit r 194)
  s.modCfg q fun c =>
    { c with fenced := c.fenced || fenced, fencedBy := if fenced then c.fencedBy ||| (s.piton (fld r 0 17)).fencedBy else c.fencedBy,
             items := c.items.map fun j =>
               if j.fabricWait && j.asked && j.piton.toNat == fld r 0 17 && j.tag.toNat == fld r 32 32 then
                 { j with asked := false, ready := status == 0 } else j }
/-- RESP: a RESP packet is delivered to the requester its DEST names: a unit's port 8, the command front end, or another function of a hub; its arrival is issued (R226). -/
def execResp (pid : Nat) (s : State) : Host.Outcome State Fault Refusal :=
  .next <|
    match findPacket s pid with
    | some p =>
      if hKind p.hdr = 3 && oldestAt s p then
        match p.loc with
        | .unit lu => deliverUnit s p lu
        | .func q f =>
          let s := arriveHdr (dropPacket s p) (48 + q) p.hdr (packetBy p)
          if f = 1 then feAnswer s p else if f = 6 then streamerAnswer s q p.hdr else s
        | .router _ _ => s
      else s
    | none => s

/-! Stack ports (R22, R223). -/

/-- The pieces of n rows from `row` that lie in one granule each: (row, rows) (R177). -/
def granules (row : Nat) : Nat → Nat → List (Nat × Nat)
  | 0, _ => []
  | k + 1, n => if n = 0 then [] else
      let m := min n (64 - row % 64)
      (row, m) :: granules (row + m) k (n - m)
/-- k free values of 512 bits, for rows that an uncorrectable read leaves the RESP without. -/
def freeRows (s : State) : Nat → List Row × State
  | 0 => ([], s)
  | k + 1 =>
    let (r, s) := s.takeFree 512
    let (rs, s) := freeRows s k
    (r :: rs, s)
/-- Read n rows for the fabric, granule by granule in a weight stack and line by line in a work stack; the lists say what each of these reads shows, in order (R180, R181, R183, R184, R186). -/
def portRead (s : State) (q stk row n : Nat) (own part : List ReadErr) : List Row × State :=
  let pieces := if stk = 2 then lineParts row (n + 1) n else granules row 3 n
  (forEach pieces (([], 0), s) fun ((acc, i), s) (r, m) =>
    let b := readBlocks s q stk r
    match stackRead s q stk b.1 b.2 r m (nth .clean own i) (nth .clean part i) with
    | (some rows, s) => ((acc ++ rows, i + 1), s)
    | (none, s) =>
      let (rows, s) := freeRows s m
      ((acc ++ rows, i + 1), s)) |> fun r => (r.1.1, r.2)
/-- Data flits that the region makes: their TLAST is a free value (log 22). -/
def freeTlast (s : State) (rows : List Row) : List (Row × Bool) × State :=
  forEach rows ([], s) fun (acc, s) r =>
    let (l, s) := s.takeFree 1
    (acc ++ [(r, l == 1)], s)
/-- STK_RD: the stack port of the delivering quarter reads ARG rows and answers with a RESP of LEN = ARG (Table 7-4, R223). -/
def execStkRd (pid : Nat) (own partner : List ReadErr) (s : State) : Host.Outcome State Fault Refusal :=
  .next <|
    match findPacket s pid with
    | some p =>
      match p.loc with
      | .func q 0 =>
        if hKind p.hdr = 1 && oldestAt s p then
          let h := p.hdr
          let (rows, s) := portRead (dropPacket s p) q (hAddr h / 2 ^ 62) (hAddr h % 2 ^ 32) (hArg h) own partner
          let (data, s) := freeTlast s rows
          localSend s q 0 (respHdr h (hArg h) 0) data
        else s
      | _ => s
    | none => s

/-- STK_WR: the stack port of quarter q writes LEN rows to KS[q], and the packet's arrival is issued (Table 7-4, R226). -/
def execStkWr (pid : Nat) (rmw : List ReadErr) (s : State) : Host.Outcome State Fault Refusal :=
  .next <|
    match findPacket s pid with
    | some p =>
      match p.loc with
      | .func q 0 =>
        if hKind p.hdr = 2 && oldestAt s p then
          arriveHdr (ksWriteRows (dropPacket s p) q (hAddr p.hdr % 2 ^ 32) (p.data.map Prod.fst) rmw) (48 + q) p.hdr (packetBy p)
        else s
      | _ => s
    | none => s

/-! The wafer host bridge, at the far end of a link (Table 7-4). -/

/-- The first host packet on link n's wire, if it is of the given kind. -/
def bridgeHead (l : Link) (kind : Nat) : Option Packet :=
  match l.wire.find? fun p => hKind p.hdr == 7 || hKind p.hdr == 8 with
  | some p => if hKind p.hdr = kind then some p else none
  | none => none
/-- The bridge has handled a packet. -/
def bridgeTake (s : State) (n : Nat) (p : Packet) : State :=
  s.modLink n fun l => { l with wire := l.wire.filter fun q => q.id != p.id }
/-- A packet comes in over link n on a virtual channel and stands in the hub's receive buffer (R240, R249). -/
def linkArrive (s : State) (n : Nat) (hdr : Row) (data : List (Row × Bool)) (vc : Nat) (by_ : Option Nat := none) : State :=
  addPacket s hdr data (.router (48 + linkHub n) (hubPortOfLink n)) vc true by_
/-- The bridge's arrival for a packet comes back over link n and stands in the hub's receive buffer (R226, R227, R249). -/
def bridgeArrive (s : State) (n : Nat) (h : Row) (by_ : Option Nat) : State :=
  if hPv h then
    sendArrival (s.modLink n fun l => { l with held := smod 0 l.held 3 (· + 1) }) (.router (48 + linkHub n) (hubPortOfLink n))
      (hPiton h) (hLen h) false (hLast h) (BitVec.ofNat 32 (hTotal h)) true by_ 0
  else s
/-- HOST_WR: the wafer host bridge writes LEN rows, or with LEN = 0 the first ARG bytes of INLINE, 1 to 32, at a host byte address; its arrival is issued (Table 7-4). -/
def execHostWr (link : Fin 32) (s : State) : Host.Outcome State Fault Refusal :=
  .next <|
    match bridgeHead (s.link link) 7 with
    | some p =>
      let h := p.hdr
      let s := bridgeTake s link p
      let m := if hLen h = 0 then
          (if 32 < hArg h then s.host else writeNat s.host (hAddr h) (hInline h).toNat (hArg h))
        else ((upto p.data.length).foldl (fun m i => writeRowAt m (hAddr h + 64 * i) (nth 0 (p.data.map Prod.fst) i)) s.host)
      bridgeArrive { s with host := m } link h p.by_
    | none => s
/-- ARG bytes of host memory as rows; what the last row holds above them is a free value. -/
def hostRows (s : State) (addr n : Nat) : List Row × State :=
  let rows := (upto ((n + 63) / 64)).map fun i => readRowAt s.host (addr + 64 * i)
  if n % 64 = 0 then (rows, s)
  else
    let k := n / 64
    let (f, s) := s.takeFree 512
    let low := (nth 0 rows k).extractLsb' 0 512
    (rows.set k (setFld f 0 (8 * (n % 64)) low.toNat), s)
/-- HOST_RD: the wafer host bridge reads ARG bytes, 1 to 4,096, and its RESP comes in over the link with the request's CAIRN (Table 7-4, R223, R239). -/
def execHostRd (link : Fin 32) (s : State) : Host.Outcome State Fault Refusal :=
  .next <|
    match bridgeHead (s.link link) 8 with
    | some p =>
      let h := p.hdr
      let s := bridgeTake s link p
      if hArg h = 0 ∨ 4096 < hArg h then s
      else
        let (rows, s) := hostRows s (hAddr h) (hArg h)
        let (data, s) := freeTlast s rows
        linkArrive (s.modLink link fun l => { l with held := smod 0 l.held 3 (· + 1 + data.length) }) link
          (setFld (respHdr h rows.length 0) 55 1 (b2n (hCairn h))) data 3 p.by_
    | none => s

/-! Table operations (R442). -/

def tblOk : BitVec 2 := 0
def tblNotFound : BitVec 2 := 1
def tblSetFull : BitVec 2 := 2
def tblRefused : BitVec 2 := 3
/-- Set of a router's endpoint table that an identifier belongs to (R233). -/
def epSet (router id : Nat) : Nat :=
  if router < 48 then (id % 4096) ^^^ (id / 4096) else (id % 65536) ^^^ (id / 65536 * 0x0101)
/-- An endpoint entry that WRITE refuses at router r (R442). -/
def epRefused (r : Nat) (e : BitVec 64) : Bool :=
  if r < 48 then
    fld e 0 49 != 0 ||
      match eOut e with
      | 0 => eZone e != 0 || decide (11 < eJ e)
      | 1 => eK e != 0 || eJ e != 0 || decide (11 < eZone e) || eZone e == r % 12
      | 2 => eZone e != 0 || eK e != 0 || eJ e != 0
      | _ => true
  else
    fld e 0 43 != 0 ||
      match eOut e with
      | 0 => decide (11 < eZone e) || eHub e != 0 || eLinks e != 0 || eFunc e != 0
      | 1 => eZone e != 0 || eHub e == r - 48 || eLinks e != 0 || eFunc e != 0
      | 2 => eZone e != 0 || eHub e != 0 || eFunc e != 0
      | _ => eZone e != 0 || eHub e != 0 || eLinks e != 0 || decide (7 < eFunc e) || (eFunc e == 1 && r != 48)
/-- Zone z has a mesh neighbour in direction d within its quarter (R218). -/
def meshHas (z d : Nat) : Bool :=
  match d with
  | 0 => decide (0 < z % 12 / 3) | 1 => decide (z % 3 < 2) | 2 => decide (z % 12 / 3 < 3) | _ => decide (0 < z % 3)
/-- A rope entry that WRITE refuses at router r (R442). -/
def ropeRefused (r : Nat) (e : BitVec 64) : Bool :=
  if r < 48 then
    fld e 0 38 != 0 || decide (192 < rLen e) || decide (4096 < rBase e + rLen e) ||
      (upto 4).any fun d => rOut e / 2 ^ (4 - d) % 2 == 1 && !meshHas r d
  else fld e 0 39 != 0
/-- The operation takes effect: STATUS, and the fabric's tables (R442). -/
def tblDo (f : Fab) (o : TblOp) : Fab :=
  let st (x : BitVec 2) : Fab := { f with op := none, status := x }
  let rv := 2 * o.router + o.version
  let wr := bit o.bits 0
  let rd := bit o.bits 1
  if o.bits != 1 && o.bits != 2 && o.bits != 4 then st tblRefused
  else if 51 < o.router || o.table == 3 || (o.table == 2 && decide (47 < o.router)) ||
      (o.table != 0 && decide (4095 < o.key)) || !bit f.shadow o.version then st tblRefused
  else if o.table = 0 then
    let k := rv * 2 ^ 24 + o.key
    let e := sget 0 f.ep k
    if wr then
      if !eValid o.data || epRefused o.router o.data || o.key == 0xFFFFFF then st tblRefused
      else if !eValid e && decide (4 ≤ (f.ep.filter fun x => x.1 / 2 ^ 24 == rv && epSet o.router (x.1 % 2 ^ 24) == epSet o.router o.key).length) then
        st tblSetFull
      else { st tblOk with ep := sset 0 f.ep k o.data }
    else if !eValid e then st tblNotFound
    else if rd then { st tblOk with data := e } else { st tblOk with ep := sset 0 f.ep k 0 }
  else if o.table = 1 then
    let k := rv * 4096 + o.key
    let e := sget 0 f.rope k
    if wr then
      if !eValid o.data || ropeRefused o.router o.data then st tblRefused else { st tblOk with rope := sset 0 f.rope k o.data }
    else if !eValid e then st tblNotFound
    else if rd then { st tblOk with data := e } else { st tblOk with rope := sset 0 f.rope k 0 }
  else
    let k := rv * 4096 + o.key
    if wr then
      if fld o.data 8 56 != 0 || decide (11 < fld o.data 0 4) then st tblRefused
      else { st tblOk with list := sset 0 f.list k (o.data.extractLsb' 0 8) }
    else if rd then { st tblOk with data := (sget 0 f.list k).zeroExtend 64 } else { st tblOk with list := sset 0 f.list k 0 }
/-- TBL_CMD_COMPLETE: the operation in progress takes effect in one drone tick, or is REFUSED, and STATUS is set (R442). -/
def execTblCmdComplete (s : State) : Host.Outcome State Fault Refusal :=
  .next <|
    match s.fab.op with
    | some o =>
      let d := s.fab.data
      s.modFab fun f =>
        let f := tblDo f o
        { f with data := (if s.wroteTo 0x6001C then d else f.data).extractLsb' 32 32 ++ (if s.wroteTo 0x60018 then d else f.data).extractLsb' 0 32 }
    | none => s

/-! A quarter in reset (R25, R236, R237, R270). -/

/-- Quarter of a packet's place. -/
def locQuarter : Loc → Nat
  | .router r _ => routerHub r
  | .unit lu => zoneOf lu / 12
  | .func q _ => q
/-- Every packet in quarter q, which is in reset, meets a fence where it is, those its units are injecting or have put in their injection queues too; what its local injectors hold is discarded, but for the command front end's (R236, R237, R401). -/
def fenceQuarter (s : State) (q : Nat) : State :=
  let gone := s.fab.pkts.filter fun p => locQuarter p.loc == q &&
    !((p.loc == .func 0 1) && q == 0) && !(p.issued && p.loc == .router (48 + q) 24)
  let s := forEach gone s fun s p => proxyHdr (dropPacket s p) (48 + q) p.hdr (packetBy p) (p.fenceBy ||| resetBit s q)
  let units := s.fab.asm.filter fun a => zoneOf a.1 / 12 == q
  let s := forEach units s fun s a => match a.2 with | some x => if x.drop then s else proxyHdr s (48 + q) x.hdr (some q) (resetBit s q) | none => s
  let queued := (s.fab.injq.filter fun a => zoneOf a.1 / 12 == q).flatMap fun a => (a.2.filter fun t => t.1 && !hdrBad t.2.payload).map fun t => t.2.payload
  let s := forEach queued s fun s h => proxyHdr s (48 + q) h (some q) (resetBit s q)
  s.modFab fun f =>
    { f with asm := f.asm.filter (fun a => zoneOf a.1 / 12 != q), injq := f.injq.filter (fun a => zoneOf a.1 / 12 != q),
             injLeft := f.injLeft.filter (fun a => zoneOf a.1 / 12 != q),
             buckets := f.buckets.filter (fun b => if b.1 < 9216 then zoneOf b.1 / 12 != q else (b.1 - 9216) / 8 != q),
             localq := f.localq.filter fun l => l.1 / 8 != q || l.1 == 1 }

end Sys2Proof.Machine
end

