-- ==== Sys2Proof/Machine/Clocks.lean ====
section
/-! DEFINITION. The reference, the drone loop, the chanters and operating-point moves (R273 to R297), and their rows that bring-up does not wait on: LOCK_A_PATTERN_BOUNDARY, REF_LOSS, REF_RETURN, WALK_COMPLETE, ALIGNMENT_BEAT, COAST_TIMEOUT, STEP_ISSUE. Periods are counted in drone ticks: eight to a reference period, 512 to a beat. -/

namespace Sys2Proof.Machine

/-! Drone loop. -/

/-- LOCK_A density in sixteenths (Table 9-2). -/
def lockDensity : DroneState → BitVec 5
  | .off => 0 | .acquiring => 2 | .locked => 15 | .holdover => 8 | .walking => 8
/-- LOCK_A_PATTERN_BOUNDARY: every 16 periods from the loop's start, LOCK_A takes the density of the loop's state (R277). -/
def execLockAPatternBoundary (s : State) : Host.Outcome State Fault Refusal :=
  .next <|
    match s.clk.started with
    | some t => if (s.tick - t) % 128 = 0 then s.modClk fun c => { c with lockA := lockDensity c.drone } else s
    | none => s
/-- The phase walked since a walk began, in ps: at most 10 a reference period and at most `most`, no less than `least`; the spec gives the bounds only, so the amount is a free value (R285). -/
def walked (s : State) (off : Int) (begun least : Nat) : Int × State :=
  let most := min off.natAbs (10 * ((s.tick - begun) / 8))
  let (r, s) := s.takeFree 16
  let n := least + r.toNat % (most - least + 1)
  (if off < 0 then -(n : Int) else n, s)
/-- Log a walk (R285). -/
def logWalk (s : State) (w : Int) : State :=
  s.modClk fun c => { c with walks := satInc c.walks, lastWalk := BitVec.ofInt 24 w, walk := none }
/-- LOCK_ADV while the loop acquires or walks is a free value of the tick, and may toggle (R280). -/
def freeAdv (s : State) : State := s.modClk fun c => { c with lockAdv := Config.lockAdv s.tick }
/-- REF_LOSS: after the first lock the loop freezes and enters HOLDOVER, logging a partial walk; before it the loop stays in ACQUIRING and only REF_PRESENT shows the loss (R283, R285, R440). -/
def execRefLoss (s : State) : Host.Outcome State Fault Refusal :=
  .next <|
    let c := s.clk
    if c.drone = .off then s
    else if c.drone = .acquiring then s.modClk fun c => { c with refPresent := false }
    else if c.drone = .holdover then s
    else
      let s := match c.walk with
        | some (off, t) => let (w, s) := walked s off t 0; logWalk s w
        | none => s
      let s := s.modClk fun c =>
        { c with drone := .holdover, lockAdv := false, refPresent := false, losses := satInc c.losses, holdover := 0 }
      event (setSummary (clkEvent s 0) sumRef) 0x0020 none 0
/-- An offset in ps, the shorter way round the 10 ns period; exactly half a period is walked by delaying (R285). -/
def shortWay (o : Int) : Int :=
  let r := o % 10000
  if 5000 < r then r - 10000 else r
/-- REF_RETURN: 64 good edges; in HOLDOVER the loop starts WALKING towards the reference, else acquisition goes on (R284, R285, R440). The operand is the delay in ps that brings the output onto the reference. -/
def execRefReturn (offsetPs : Int) (s : State) : Host.Outcome State Fault Refusal :=
  .next <|
    let c := s.clk
    if c.drone = .acquiring then s.modClk fun c => { c with refPresent := true }
    else if c.drone = .holdover then
      let s := s.modClk fun c =>
        { c with drone := .walking, refPresent := true, walk := some (shortWay offsetPs, s.tick) }
      event (freeAdv (clkEvent s 1)) 0x0021 none 0
    else s
/-- WALK_COMPLETE: the offset has closed to within 10 ps; the loop enters LOCKED and the walk is logged (R285). -/
def execWalkComplete (s : State) : Host.Outcome State Fault Refusal :=
  .next <|
    match s.clk.drone, s.clk.walk with
    | .walking, some (off, t) =>
      if off.natAbs ≤ 10 * ((s.tick - t) / 8) + 10 then
        let (w, s) := walked s off t (off.natAbs - 10)
        (logWalk s w).modClk fun c => { c with drone := .locked, lockAdv := true }
      else s
    | _, _ => s

/-! Operating points (Table 9-4). -/

/-- Code of an operating point. -/
def pointCode (p : Nat) : BitVec 11 :=
  match p with
  | 0 => 512 | 1 => 640 | 2 => 768 | 3 => 896 | 4 => 1024 | 5 => 1088 | 6 => 1152 | _ => 1215
/-- V_CORE of an operating point in mV, for a new part. -/
def pointMv (p : Nat) : Nat :=
  match p with
  | 0 => 600 | 1 => 640 | 2 => 680 | 3 => 720 | 4 => 760 | 5 => 790 | 6 => 820 | _ => 850
/-- V_CORE setpoint of quarter q at a point, in mV (R328). -/
def setpoint (s : State) (q p : Nat) : Nat := min 870 (max 600 (pointMv p + (s.trim q).guard_.toNat - 60))
/-- The four V_CORE targets become the setpoints of a point. -/
def aimAt (s : State) (p : Nat) : State :=
  forEach (upto 4) s fun s q => s.modPwr fun w => { w with vtarget := sset 0 w.vtarget q (setpoint s q p) }
/-- The lowest LIMIT_POINT of the four quarters (R331). -/
def limitPoint (s : State) : Nat := (upto 4).foldl (fun m q => min m (s.trim q).limit.toNat) 7
/-- The bivouac point (R345). -/
def bivouac (s : State) : Nat := min 2 (limitPoint s)
/-- Highest point the loop may use (R339). -/
def topPoint (s : State) : Nat := if s.pwr.normal then min s.pwr.maxPoint.toNat (limitPoint s) else bivouac s
/-- The point that the region moves to, or stands at. -/
def aimPoint (s : State) : Nat := if s.clk.moving then s.clk.target.toNat else s.clk.point.toNat
/-- Turn the region towards an operating point: up after its rails are up, down at once (R296, R339). -/
def moveTo (s : State) (p : Nat) : State :=
  if aimPoint s = p then s
  else
    let up := decide (s.clk.code.toNat < (pointCode p).toNat)
    let s := s.modClk fun c => { c with moving := true, target := BitVec.ofNat 3 p, railWait := up, lowerAfter := !up }
    if up then aimAt s p else s
/-- Hints with the goals that the region, at point p, has reached taken off (R342). -/
def hintsBelow (hs : List Hint) (p : BitVec 3) : List Hint := hs.map fun h => { h with goal := h.goal.filter fun g => decide (g < p) }
/-- A move ends at the beat at which the last chanter applies its last step; a down-move's voltage then follows (R296). -/
def moveEnd (s : State) : State :=
  if s.clk.moving && s.clk.code == pointCode s.clk.target.toNat && !s.clk.railWait && s.chanters.all fun c => c.2.pend.isEmpty then
    let p := s.clk.target
    let s := s.modClk fun c => { c with moving := false, point := p, lowerAfter := false }
    (aimAt s p.toNat).modPwr fun w =>
      { w with moveTick := some s.tick, recovered := w.recovered && p.toNat != min w.savedPoint.toNat (topPoint s),
               hintq := hintsBelow w.hintq p }
  else s

/-! Chanters. -/

/-- A chanter's output clocks its zone. -/
def chanterRuns (c : Chanter) : Bool := c.state == .locked || c.state == .coasting
/-- Put chanter z in RESET; LOSSES and the codes of its control register are kept, its zone's local time is not valid (R291, R321). -/
def resetChanter (s : State) (z : Nat) : State :=
  (s.modChanter z fun c =>
    { Chanter.init with ctlCode := c.ctlCode, losses := c.losses, tooLarge := c.tooLarge, fails := c.fails }).modZone z
    fun x => { x with timeValid := false, stamp := none }
/-- START: a chanter in RESET begins acquisition at a code of its range (R286, R291). -/
def startChanter (s : State) (z : Nat) (code : BitVec 11) : State :=
  if (s.chanter z).state = .reset ∧ 512 ≤ code.toNat ∧ code.toNat ≤ 1215 then
    s.modChanter z fun c => { c with state := .acquiring, code := code, good := 0, widen := 0, pend := [], startTick := s.tick }
  else s
/-- CHANTER_LOSS and CHANTER_RELOCK carry the zone's time (R295, R321). -/
def chanterEvent (s : State) (code z : Nat) : State :=
  postEvent s ⟨BitVec.ofNat 16 code, some (BitVec.ofNat 2 (z / 12)), BitVec.ofNat 32 z, zoneStamp s z, 0⟩

/-- The present tick is an alignment beat (R288). -/
def isBeat (s : State) : Bool :=
  match s.clk.firstLock with
  | some t => (s.tick - t) % 512 == 0
  | none => false
/-- One more beat for every step that has fallen due and still waits; `held` says that the chanter is not LOCKED again before this beat, which stays on the step (R294). -/
def waitOn (held : Bool) (tick : Nat) (l : List (BitVec 11 × Nat × Nat × Bool)) : List (BitVec 11 × Nat × Nat × Bool) :=
  l.map fun p => if p.2.1 < tick then (p.1, p.2.1, p.2.2.1 + 1, p.2.2.2 || held) else p
/-- A chanter at a beat: it applies one step in issue order, which a zone that is stretching puts off to the next beat and a coasting chanter to the first beat after it is LOCKED again; also what a late step adds to DEF (R293, R294, R304, R313). -/
def beatStep (c : Chanter) (stretching : Bool) (tick : Nat) : Chanter × Int :=
  match c.pend with
  | (code, t, n, d) :: rest =>
    if tick ≤ t then (c, 0)
    else if c.state = .coasting ∨ c.lockTick = some tick then ({ c with pend := waitOn true tick c.pend }, 0)
    else if stretching && n == 0 then ({ c with pend := waitOn false tick ((code, t, n, d) :: rest) }, 0)
    else
      let delta := (code.toNat : Int) - (c.code.toNat : Int)
      ({ c with code := code, widen := delta.natAbs, pend := waitOn false tick rest }, 4 * delta * (n : Int))
  | [] => (c, 0)
/-- ALIGNMENT_BEAT: every chanter applies its next step, and a move whose last step everyone has applied ends (R288, R293, R296, R304). -/
def execAlignmentBeat (s : State) : Host.Outcome State Fault Refusal :=
  .next <|
    if isBeat s && s.clk.lastBeat != some s.tick then
      let s := s.modClk fun c => { c with lastBeat := some s.tick }
      moveEnd (forEach s.chanters s fun s (z, _) =>
        let (c, d) := beatStep (s.chanter z) ((s.zone z).level != 0) s.tick
        (s.modChanter z fun _ => c).modZone z fun x => { x with deficit := x.deficit + BitVec.ofInt 32 d })
    else s

/-- The count lies within n of the code. -/
def within (count : Nat) (code : BitVec 11) (n : Nat) : Bool := decide (code.toNat ≤ count + n ∧ count ≤ code.toNat + n)
/-- A chanter's lock window ends with a count (R290): locking, or losing lock, which freezes it COASTING (R295); a step that fell due while it coasted waits for the first beat after it has locked again (R293, R294). A stamp that came before the lock sets no local time (R321). -/
def windowEnd (s : State) (z count : Nat) : State :=
  let c := s.chanter z
  let s := s.modChanter z fun c => { c with windowTick := some s.tick, widen := 0 }
  if c.state = .locked then
    if within count c.code (c.widen + 2) then s
    else
      let s := s.modChanter z fun c =>
        { c with state := .coasting, losses := satInc c.losses, good := 0, coastTick := s.tick, expired := false }
      chanterEvent (clkEvent s 2) 0x0022 z
  else if c.state = .acquiring ∨ c.state = .coasting then
    if within count c.code 1 then
      if 4 ≤ c.good + 1 then
        let s := s.modChanter z fun c => { c with state := .locked, good := 0, lockTick := if c.state = .coasting ∨ c.relock then some s.tick else none, relock := false }
        if c.state = .acquiring then s.modZone z fun x => { x with stamp := x.stamp.filter fun v => decide (s.tick ≤ v.2) }
        else if c.expired then s else chanterEvent s 0x0023 z
      else s.modChanter z fun c => { c with good := c.good + 1 }
    else s.modChanter z fun c => { c with good := 0 }
  else s

/-- COAST_TIMEOUT: after 200 µs of coasting the zone takes a COAST fault, which halts the quarter at its next step boundary (R295). -/
def execCoastTimeout (z : Fin 48) (s : State) : Host.Outcome State Fault Refusal :=
  .next <|
    let c := s.chanter z
    if c.state = .coasting ∧ !c.expired ∧ c.coastTick + us 200 ≤ s.tick then
      recordZone (s.modChanter z fun c => { c with expired := true }) z 4 false 0
    else s

/-! Steps. -/

/-- A chanter takes part in a step. -/
def takesStep (c : Chanter) : Bool := c.state == .locked || c.state == .coasting || c.state == .acquiring
/-- The code a chanter stands at once the steps it holds are applied. -/
def aheadCode (c : Chanter) : BitVec 11 := match c.pend.getLast? with | some p => p.1 | none => c.code
/-- The code of a chanter that a step would move by more than 4 (R292). -/
def tooFar (s : State) (code : BitVec 11) : Option (BitVec 11) :=
  ((s.chanters.map Prod.snd).find? fun c => takesStep c && !within (aheadCode c).toNat code 4).map aheadCode
/-- Broadcast a code to every chanter that runs. Where it would move one by more than 4, every chanter rejects it and keeps its code, and so does the region (log 129); that is posted once (R292, R293). -/
def broadcast (s : State) (code : BitVec 11) : State :=
  let each (f : Chanter → Chanter) : State := { s with chanters := smap .init s.chanters fun _ c => if takesStep c then f c else c }
  match tooFar s code with
  | none =>
    (each fun c => { c with pend := c.pend ++ [(code, s.tick, 0, false)] }).modClk fun c => { c with code := code, lastStep := some s.tick }
  | some kept =>
    let t := (each fun c => { c with tooLarge := true }).modClk fun c => { c with lastStep := some s.tick }
    let t := forEach (s.chanters.filter fun e => takesStep e.2) t fun t e => t.raise (0x10104 + 8 * e.1) (oneBit 28)
    event (clkEvent t 4) 0x0024 none (code.toNat + kept.toNat * 2 ^ 16)
/-- STEP_ISSUE: at a drone tick that is a multiple of 800 the governor takes a move one step of at most 4 codes further, unless its rails are still rising or stepping is paused (R294, R296). -/
def execStepIssue (s : State) : Host.Outcome State Fault Refusal :=
  .next <|
    let c := s.clk
    let goal := (pointCode c.target.toNat).toNat
    if c.moving && !c.railWait && c.code.toNat != goal && s.tick % 800 == 0 && passed s c.lastStep 800 && !clkPaused s then
      broadcast s (BitVec.ofNat 11 (if c.code.toNat < goal then min goal (c.code.toNat + 4) else max goal (c.code.toNat - 4)))
    else s

end Sys2Proof.Machine
end

