-- ==== Sys2Proof/Machine/Stretch.lean ====
section
/-! DEFINITION. Stretching, schedule cycles, belay buffers, slip control and drone time (R298 to R322), and the rows DROOP_ASSERT, DROOP_DEASSERT, ZONE_CYCLE_END, STRETCH, SLIP_REPORT, RECONCILE, STAMP_TICK. A zone cycle's reading and writing of belay slots is done at its end. -/

namespace Sys2Proof.Machine

/-! Droop detectors (R298 to R300). -/

/-- Threshold of level 1, 2 or 3 in percent (Table 10-1). -/
def droopLevel (cons : Bool) (l : Nat) : Nat :=
  match l with
  | 1 => if cons then 25 else 40
  | 2 => if cons then 50 else 65
  | _ => if cons then 75 else 85
/-- A detector's assertion of level l becomes b. -/
def setLevel (c : ZoneClk) (d l : Nat) (b : Bool) : ZoneClk :=
  match l with
  | 1 => { c with d1 := setBit c.d1 d b }
  | 2 => { c with d2 := setBit c.d2 d b }
  | _ => { c with d3 := setBit c.d3 d b }
/-- DROOP_ASSERT: a detector's reading, in percent of the guard band, asserts every level whose threshold it reaches (R298). -/
def execDroopAssert (z : Fin 48) (d : Fin 16) (reading : Nat) (s : State) : Host.Outcome State Fault Refusal :=
  .next (s.modZone z fun c =>
    [1, 2, 3].foldl (fun c l => if droopLevel c.cons l ≤ reading then setLevel c d l true else c) c)
/-- DROOP_DEASSERT: the reading releases every level whose threshold lies 5 points or more above it (R298). -/
def execDroopDeassert (z : Fin 48) (d : Fin 16) (reading : Nat) (s : State) : Host.Outcome State Fault Refusal :=
  .next (s.modZone z fun c =>
    [1, 2, 3].foldl (fun c l => if reading + 5 ≤ droopLevel c.cons l then setLevel c d l false else c) c)
/-- The highest level any detector asserts (R299). -/
def topLevel (c : ZoneClk) : BitVec 2 := if c.d3 != 0 then 3 else if c.d2 != 0 then 2 else if c.d1 != 0 then 1 else 0
/-- Quarter periods of a zone cycle (Table 10-1). -/
def cycleLength (level : BitVec 2) : Nat :=
  match level.toNat with
  | 0 => 4 | 1 => 5 | 2 => 6 | _ => 8
/-- The conservative set is to be active in zone z (R300). -/
def wantsCons (s : State) (z : Nat) : Bool :=
  (s.chanter z).state == .coasting || s.str.consForce || ((s.trim (z / 12)).ageLimit && (s.trim (z / 12)).limit == 0)

/-! Belay buffers (R305 to R308). -/

/-- Occupancy of a belay buffer. -/
def belayO (s : State) (k : Nat) : Nat := (s.belay k).slots.length
/-- Belay buffers zone z writes and reads, with their side 0 north to 3 west: (side, buffer). -/
def belaysOut (z : Nat) : List (Nat × Nat) :=
  (upto 4).filterMap fun d => (zoneNext z d).map fun _ => (d, 4 * z + d)
def belaysIn (z : Nat) : List (Nat × Nat) :=
  (upto 4).filterMap fun d => (zoneNext z d).map fun w => (d, 4 * w + oppDir d)
/-- A side's hold: asserted at its limit, released once the occupancy is back; a parked crossing asserts none (R306, R308). -/
def holdSide (s : State) (old : BitVec 4) (k side : Nat) (hit clear : Nat → Bool) : Bool :=
  !(s.belay k).parked && (hit (belayO s k) || (bit old (3 - side) && !clear (belayO s k)))
/-- The sides that hold zone z, as HOLD_SIDE numbers them: at its writing and at its reading buffers. -/
def holdSides (s : State) (z : Nat) : BitVec 4 × BitVec 4 :=
  let c := s.zone z
  ((belaysOut z).foldl (fun m x => setBit m (3 - x.1) (holdSide s c.side x.2 x.1 (fun o => decide (7 ≤ o)) (fun o => decide (o ≤ 5)))) 0,
   (belaysIn z).foldl (fun m x => setBit m (3 - x.1) (holdSide s c.sideIn x.2 x.1 (fun o => decide (o ≤ 1)) (fun o => decide (3 ≤ o)))) 0)
/-- A belay overrun or underrun (R307): a zone fault with cause BELAY in the zone that made the access. -/
def belayFault (s : State) (z : Nat) : State :=
  recordZone (strEvent s 1) z 3 false 0
/-- The alignment that watches belay buffer k, if one checks it now: its key (R314). -/
def checksBelay (s : State) (k : Nat) : Option Nat :=
  let a := k / 4
  match zoneNext a (k % 4) with
  | some b => [4, a / 12, b / 12].find? fun i =>
      let r := sget AlignRec.init s.str.al i
      r.phase == 3 && decide (s.tick ≤ r.begun + 65 * 512)
  | none => none
/-- O must stay within 3 to 5 while it is checked (R314). -/
def checkBelay (s : State) (k : Nat) : State :=
  match checksBelay s k with
  | some i =>
    if 3 ≤ belayO s k ∧ belayO s k ≤ 5 then s
    else s.modStr fun r => { r with al := smod .init r.al i fun a => { a with bad := if k ∈ a.bad then a.bad else a.bad ++ [k] } }
  | none => s

/-! A schedule cycle of a zone. -/

/-- A channel whose producer's zone has advanced: credits on their way back come one cycle nearer, tokens too, and what stays in the zone lands (R153). -/
def chanAdvance (c : Chan) : Chan :=
  let f := c.flight.map fun t => { t with left := t.left - 1 }
  { c with back := c.back.map (· - 1), flight := f.filter (fun t => t.crossing || t.left != 0),
           landed := c.landed ++ (f.filter fun t => !t.crossing && t.left == 0).map (·.token) }
/-- Producer's zone of channel key 16 lu + p. -/
def chanZone (k : Nat) : Option Nat :=
  if 8 ≤ k % 16 then none else (neighbour (k / 16) (k % 16)).map zoneOf
/-- A channel whose consumer's zone has advanced: the credits of a crossing come nearer to its belay buffer (R153). -/
def creditAdvance (c : Chan) : Chan := { c with credOut := c.credOut.map (· - 1) }
/-- Write one slot of belay buffer k: the tokens of every channel through it that are due, and the credits that go back through it (R153, R305). -/
def belayWrite (s : State) (z k : Nat) : State :=
  if (s.belay k).parked then s
  else if 8 ≤ belayO s k then belayFault s z
  else
    let due := s.chans.filterMap fun e =>
      if chanBelay (e.1 / 16) (e.1 % 16) = some k then
        match e.2.flight with
        | t :: _ => if t.crossing && t.left == 0 then some (e.1, some t.token) else none
        | [] => none
      else none
    let credits := s.chans.flatMap fun e =>
      if creditBelay (e.1 / 16) (e.1 % 16) = some k then (e.2.credOut.filter (· == 0)).map fun _ => (e.1, none) else []
    let s := forEach due s fun s d => s.modChan (d.1 / 16) (d.1 % 16) fun c => { c with flight := c.flight.tail }
    let s := forEach credits s fun s d => s.modChan (d.1 / 16) (d.1 % 16) fun c => { c with credOut := c.credOut.erase 0 }
    checkBelay (s.modBelay k fun b => { b with slots := b.slots ++ [due ++ credits] }) k
/-- Read one slot of belay buffer k: its tokens land, its credits reach their producers (R153, R305). -/
def belayRead (s : State) (z k : Nat) : State :=
  let b := s.belay k
  if b.parked then s
  else match b.slots with
    | [] => belayFault s z
    | slot :: rest =>
      let s := s.modBelay k fun b => { b with slots := rest }
      let s := forEach slot s fun s d => s.modChan (d.1 / 16) (d.1 % 16) fun c =>
        match d.2 with
        | some t => { c with landed := c.landed ++ [t] }
        | none => { c with back := c.back ++ [0] }
      checkBelay s k
/-- A unit is held on a fabric binding, a stack landing, a STORE acknowledgement or a parked crossing (R173); a stopped MU, and a unit that has its FIRE_COUNT, waits on no binding; a stopped CU may still be held in the firing that it finishes (R114). -/
def unitHeld (s : State) (lu u : Nat) : Bool :=
  let x := s.unit u
  (x.elasticHold && (!isMu u || !x.stopped)) || !x.mu.runs.isEmpty || !x.mu.arriving.isEmpty || !x.mu.landing.isEmpty || !x.mu.stores.isEmpty ||
    (!x.firing && !x.stopped && !fireDone x (isMu u) && (curBindings x (isMu u)).any fun b =>
      let p := bPort b.2
      if bOut b.2 then
        (p == 8 || (match neighbour lu p with | some w => chanParked s w (facing p) | none => false)) &&
          decide (creditsOut s lu p < bNeed b.2)
      else (p == 8 || chanParked s lu p) && decide (available s lu x b < bNeed b.2))
/-- The units of zone z behind logical positions: (logical, physical). -/
def zoneUnits (s : State) (z : Nat) : List (Nat × Nat) :=
  (upto 12).flatMap fun j => (upto 16).filterMap fun k => (s.phys (luAt z k j)).map fun u => (luAt z k j, u)
/-- The zone's deadlock watch at the end of a schedule cycle (R173): the units' holds, pushes, pops, absorptions and bore transfers of that cycle. -/
def dlwCycle (s : State) (z : Nat) : State :=
  let p := s.zpage z
  if p.moved then s.modZpage z fun p => { p with moved := false, dlwCount := 0 }
  else
    let us := zoneUnits s z
    if us.any (fun x => (upto 9).any fun i => !(s.chan x.1 i).queue.isEmpty) && !us.any (fun x => unitHeld s x.1 x.2) then
      s.modZpage z fun p => { p with dlwCount := if p.dlwCount.toNat < 65536 then p.dlwCount + 1 else p.dlwCount }
    else s
/-- The schedule of zone z advances one cycle: channels, belay slots, MUs, the watch (R303, R305). -/
def zoneAdvance (s : State) (z : Nat) : State :=
  let mus := (zoneUnits s z).filter fun x => isMu x.2
  let s := if s.quarterRuns (z / 12) then dlwCycle (forEach mus s fun s x => muLate s x.2) z else s
  let s := s.modZone z fun c => { c with sched := c.sched + 1 }
  let s := forEach (s.chans.filter fun e => chanZone e.1 == some z) s fun s e =>
    s.modChan (e.1 / 16) (e.1 % 16) chanAdvance
  let s := forEach (s.chans.filter fun e => zoneOf (e.1 / 16) == z && !e.2.credOut.isEmpty) s fun s e =>
    s.modChan (e.1 / 16) (e.1 % 16) creditAdvance
  let s := forEach (belaysIn z) s fun s x => belayRead s z x.2
  let s := forEach (belaysOut z) s fun s x => belayWrite s z x.2
  if s.quarterRuns (z / 12) then forEach mus s fun s x => muCycle s x.1 x.2 else s

/-! Slip control (R309 to R312). -/

/-- The later of two deficits by their signed difference (R304). -/
def maxDef (a b : Word) : Word := if 0 < (b - a).toInt then b else a
/-- Zones that run their schedules. -/
def runningZones (s : State) (q : Nat) : List Nat :=
  if s.quarterRuns q then (zonesOf q).filter fun z => (s.zone z).running else []
/-- T_q: the maximum of the deficits seen in quarter q's running zones (R310). -/
def tQuarter (s : State) (q : Nat) : Option Word :=
  (runningZones s q).foldl (fun a z => some (match a with | none => sget 0 s.str.seen z | some t => maxDef t (sget 0 s.str.seen z))) none
/-- Quarter q's controller broadcasts T := max(T_q, T_R) (R310). -/
def broadcastT (s : State) (q : Nat) : State :=
  match tQuarter s q with
  | some t => s.modStr fun r => { r with tq := sset 0 r.tq q (maxDef t r.tR) }
  | none => s
/-- SLIP_REPORT: at every 64th zone cycle of a zone of a running quarter, the zone reports DEF and the controller broadcasts T (R309, R310). -/
def execSlipReport (z : Fin 48) (s : State) : Host.Outcome State Fault Refusal :=
  .next <|
    let c := s.zone z
    if c.running && s.quarterRuns (z.val / 12) && c.cycles != 0 && c.cycles % 64 == 0 then
      broadcastT (s.modStr fun r => { r with seen := sset 0 r.seen z c.deficit }) (z.val / 12)
    else s
/-- RECONCILE: at every drone tick that is a multiple of 128, T_R becomes the maximum of the running quarters' T_q, and each controller rebroadcasts T (R311). -/
def execReconcile (s : State) : Host.Outcome State Fault Refusal :=
  .next <|
    if s.tick % 128 = 0 then
      match ((upto 4).filterMap fun q => tQuarter s q).foldl (fun a t => some (match a with | none => t | some u => maxDef u t)) none with
      | some t => forEach (upto 4) (s.modStr fun r => { r with tR := t }) broadcastT
      | none => s
    else s
/-- What the next zone cycle of zone z is, once its holds are set: a hold, a slip breath, a governor breath, or an advance (R303, R306, R310, R312). -/
def nextKind (s : State) (z : Nat) : CycleKind :=
  let c := s.zone z
  if c.side != 0 || c.sideIn != 0 then .hold
  else if decide (4 ≤ (sget 0 s.str.tq (z / 12) - c.deficit).toInt) &&
      (match c.lastSlip with | some t => decide (t + 8 ≤ c.sched) | none => true) then .slip
  else if s.pwr.duty.toNat ≤ c.govPos then .govBreath else .advance
/-- RC counter i of zone z: 2 to 4 STRETCH_L1 to L3, 5 BREATHS, 6 HOLDS (R323). -/
def zoneKey (z i : Nat) : Nat := rcKey (0x20100 + 4 * (8 * z + i)) 0
/-- The edge that begins a zone cycle: its length, its set, its holds, and, where the schedule is not stopped, whether it advances; a stopped zone shows a hold while a crossing asserts one, and counts none (R306, R308). -/
def beginCycle (s : State) (z : Nat) : State :=
  let cons := wantsCons s z
  let s := s.modZone z fun c => { c with level := topLevel c, cons := cons }
  let (o, i) := holdSides s z
  let s := s.modZone z fun c => { c with side := o, sideIn := i }
  if !(s.zone z).running then s.modZone z fun c => { c with kind := if o = 0 ∧ i = 0 then .advance else .hold }
  else
    let k := nextKind s z
    let c := s.zone z
    let s := if k == .hold then s.spill (zoneKey z 6) c.holds else if k == .slip then s.spill (zoneKey z 5) c.breaths else s
    s.modZone z fun c =>
      match k with
      | .hold => { c with kind := .hold, holds := satInc c.holds }
      | .slip => { c with kind := .slip, breaths := satInc c.breaths, lastSlip := some c.sched }
      | .govBreath => { c with kind := .govBreath, govBreaths := c.govBreaths + 1, govPos := (c.govPos + 1) % 8 }
      | .advance => { c with kind := .advance, govPos := (c.govPos + 1) % 8 }
/-- ZONE_CYCLE_END: a zone cycle ends, once the unit faults detected 4 schedule cycles before are reported (R113): its stretch is counted, DEF grows by its length if it did not advance the schedule, as one of a stopped schedule does not, and by the stretch alone if it did, and the next cycle begins (R302 to R306, R310, R312). -/
def execZoneCycleEnd (z : Fin 48) (s : State) : Host.Outcome State Fault Refusal :=
  .next <|
    if !chanterRuns (s.chanter z) || fenceOut (s.fenceWord z) || reportDue s z then s
    else
      let c := s.zone z
      let n := cycleLength c.level
      let s := match c.level.toNat with
        | 0 => s | 1 => s.spill (zoneKey z 2) c.l1 | 2 => s.spill (zoneKey z 3) c.l2 | _ => s.spill (zoneKey z 4) c.l3
      let s := s.modZone z fun c =>
        { c with cycles := c.cycles + 1, l3run := if c.level = 3 then c.l3run + 1 else 0, l3seen := c.l3seen && c.level == 3,
                 l1 := if c.level = 1 then satInc c.l1 else c.l1, l2 := if c.level = 2 then satInc c.l2 else c.l2,
                 l3 := if c.level = 3 then satInc c.l3 else c.l3 }
      let s := if c.running && c.kind == .advance then
          zoneAdvance (s.modZone z fun c => { c with deficit := c.deficit + BitVec.ofNat 32 (n - 4) }) z
        else s.modZone z fun c => { c with deficit := c.deficit + BitVec.ofNat 32 n }
      beginCycle s z
/-- STRETCH: more than 16 consecutive L3 zone cycles are a zone fault with cause STRETCH, once a run (R301). -/
def execStretch (z : Fin 48) (s : State) : Host.Outcome State Fault Refusal :=
  .next <|
    let c := s.zone z
    if 16 < c.l3run ∧ !c.l3seen then
      let s := strEvent (s.modZone z fun c => { c with l3seen := true }) 0
      recordZone s z 2 false 17
    else s

/-! Drone stamps (R318, R319). -/

/-- STAMP_TICK: every 1,024 ticks from the first lock a slew moves the counter by one tick more or less, and the counter's value goes to every zone (R318, R319). -/
def execStampTick (s : State) : Host.Outcome State Fault Refusal :=
  .next <|
    match s.clk.firstLock with
    | some t =>
      if (s.tick - t) % 1024 = 0 ∧ s.clk.lastStamp ≠ some s.tick then
        let s := s.modClk fun c =>
          let d : Int := if 0 < c.slewLeft then 1 else if c.slewLeft < 0 then -1 else 0
          { c with lastStamp := some s.tick, count := c.count + BitVec.ofInt 64 d, slewLeft := c.slewLeft - d }
        forEach (upto 48) s fun s z =>
          if (s.zone z).delay = 0 then s
          else s.modZone z fun c => { c with stamp := some (s.clk.count + c.delay.zeroExtend 64, s.tick + c.delay.toNat) }
      else s
    | none => s
/-- One drone tick of zone z's local time: each chanter edge adds round(2^16 × 512 / C), and the first edge after the tick in which a stamp arrived takes it (R319, R320). -/
def timeTick (c : ZoneClk) (ch : Chanter) (tick : Nat) : ZoneClk :=
  let code := ch.code.toNat
  let edges := (c.phase + code) / 512
  let step := (2 ^ 25 + code / 2) / code
  let c := { c with phase := (c.phase + code) % 512 }
  if edges = 0 then c
  else match c.stamp with
    | some (v, t) =>
      if t < tick then
        let new : BitVec 80 := (v.zeroExtend 80) <<< 16
        { c with stamp := none, time := new + BitVec.ofNat 80 (step * (edges - 1)),
                 corr := satInt 16 ((new - c.time).toInt / 256), timeValid := chanterRuns ch }
      else { c with time := c.time + BitVec.ofNat 80 (step * edges) }
    | none => { c with time := c.time + BitVec.ofNat 80 (step * edges) }

end Sys2Proof.Machine
end

