-- ==== Sys2Proof/Machine/Power.lean ====
section
/-! DEFINITION. Guard-band trims, the governor, pitch hints, the need index, brownout warnings, energy and heat (R327 to R361), and the rows MARGIN_REPORT, TRIM_LOWER, GOVERNOR_SAMPLE, HINT_EXPIRE, NEED_INDEX_SAMPLE, VIN_WARNING, VIN_WARNING_END, CALIBRATION_UPDATE, THERMAL_SAMPLE, THERMAL_RESUME. Energies are in nJ where the activity estimate gives them, in µJ in the counters, powers in W. -/

namespace Sys2Proof.Machine

/-! Mbao frames (Table 13-2). -/

/-- One bit into the CRC-16 register, most significant bit first, polynomial 0x1021. -/
def crc16Bit (c : BitVec 16) (b : Bool) : BitVec 16 :=
  if xor (bit c 15) b then (c <<< 1) ^^^ 0x1021 else c <<< 1
/-- The CRC-16 over bits [127:16] of a frame, initial 0xFFFF. -/
def frameCrc16 (f : BitVec 128) : BitVec 16 :=
  (upto 112).foldl (fun c i => crc16Bit c (bit f (127 - i))) 0xFFFF
/-- A frame the region sends, with its own SITE and its CRC (R398, R399). -/
def mbaoFrame (s : State) (op tag off status data : Nat) : BitVec 128 :=
  let f : BitVec 128 := BitVec.ofNat 128 (data % 2 ^ 64 * 2 ^ 16 + status % 2 ^ 8 * 2 ^ 80 + off % 2 ^ 24 * 2 ^ 88 +
    tag % 16 * 2 ^ 112 + op % 16 * 2 ^ 116 + s.ident.site.toNat * 2 ^ 120)
  f ||| (frameCrc16 f).zeroExtend 128
/-- Put a frame on MBAO_DATA_OUT. -/
def mbaoSend (s : State) (f : BitVec 128) : State := s.modPins fun p => { p with mbaoOut := p.mbaoOut ++ [f] }

/-! Trims (R328 to R332). -/

/-- Persistent-store word of quarter q's trim (Table 14-8). -/
def trimStore (q : Nat) : Nat := 0x040 + q
/-- Persist quarter q's trim as t makes it; a worn word leaves the trim as it is (R332, R425). -/
def storeTrim (s : State) (q : Nat) (t : Trim) : State := pstWrite s (trimStore q) (trimWord t)
/-- A trim change may be applied: no move is in progress and stepping is not paused (R332). -/
def trimFree (s : State) : Bool := !s.clk.moving && !clkPaused s
/-- V_CORE of quarter q ramps by a change of its trim (R27, R332). -/
def aimTrim (s : State) (q : Nat) : State :=
  s.modPwr fun w => { w with vtarget := sset 0 w.vtarget q (setpoint s q s.clk.point.toNat) }
/-- The trim that a raise makes: 5 mV more, or, with 20 mV already added, AGE_LIMIT and a lower LIMIT_POINT (R331). -/
def raisedTrim (s : State) (t : Trim) : Trim :=
  let t := { t with raiseTick := some s.tick, raiseDue := false, lowering := false, lowerDue := false }
  if t.ageAdded.toNat < 20 then { t with guard_ := t.guard_ + 5, ageAdded := t.ageAdded + 5, raised := true }
  else { t with ageLimit := true, limit := s.clk.point - (if s.clk.point = 0 then 0 else 1) }
/-- Raise quarter q's guard band at once, and persist it; a trim whose word is worn stays as it is (R331, R332). -/
def raiseTrim (s : State) (q : Nat) : State :=
  let t := s.trim q
  if t.worn then s.modTrim q fun t => { t with raiseDue := false }
  else
    let n := { raisedTrim s t with worn := !pstAccepts s (trimStore q) }
    aimTrim (storeTrim (s.modTrim q fun _ => n) q n) q
/-- MARGIN_REPORT: a monitor's slack in 0.01 %; below 3 % it raises the quarter's guard band, at most once a minute (R329, R331), once no move is in progress (R332). -/
def execMarginReport (z : Fin 48) (_monitor : Fin 24) (slack : Int) (s : State) : Host.Outcome State Fault Refusal :=
  .next <|
    let q := z.val / 12
    let p := s.clk.point.toNat
    let s := s.modTrim q fun t => { t with slack := smod none t.slack p fun o => some (match o with | none => slack | some x => min x slack) }
    if slack < 300 ∧ passed s (s.trim q).raiseTick (60 * 800000000) then
      (if trimFree s then raiseTrim s q else s.modTrim q fun t => { t with raiseDue := true })
    else s
/-- Slack allowed a lowering at every point the region held for 1 s in the hour (R330). -/
def slackOk (t : Trim) : Bool :=
  t.held.all fun h => decide (h.2 < 100000) || (match sget none t.slack h.1 with | some x => decide (600 ≤ x) | none => false)
/-- TRIM_LOWER: at the end of an hour with slack enough, a lowering of 5 mV is persisted; it is applied once acknowledged (R330, R332). -/
def execTrimLower (q : Fin 4) (s : State) : Host.Outcome State Fault Refusal :=
  .next <|
    let t := s.trim q
    if !s.ready || decide (s.tick < t.hourTick + hourTicks) then s
    else
      let go := decide (35 ≤ t.guard_.toNat) && !t.raised && !t.worn && !t.lowering && !t.lowerDue && !t.raiseDue && slackOk t
      let s := s.modTrim q fun t => { t with hourTick := s.tick, slack := [], held := [] }
      if go then
        let ok := pstAccepts s (trimStore q)
        let s := storeTrim s q { t with guard_ := t.guard_ - 5 }
        s.modTrim q fun t => if ok then { t with lowering := true } else { t with worn := true }
      else s
/-- Quarter q's guard band goes down by 5 mV (R330, R332). -/
def lowerTrim (s : State) (q : Nat) : State :=
  aimTrim (s.modTrim q fun t => { t with guard_ := t.guard_ - 5, lowering := false, lowerDue := false }) q
/-- The store has acknowledged quarter q's trim word: a lowering is applied, once no move is in progress (R332). -/
def trimAck (s : State) (q : Nat) : State :=
  if !(s.trim q).lowering then s
  else if trimFree s then lowerTrim s q
  else s.modTrim q fun t => { t with lowering := false, lowerDue := true }
/-- The trim changes that have waited for a move to end (R332). -/
def applyTrims (s : State) : State :=
  if !trimFree s then s
  else forEach (upto 4) s fun s q =>
    if (s.trim q).raiseDue then raiseTrim s q else if (s.trim q).lowerDue then lowerTrim s q else s

/-! Points, limits, the quantities of the loop. -/

/-- Moves are allowed (R338). -/
def movesAllowed (s : State) : Bool := !clkPaused s && !((upto 4).any fun q => (s.quarter q).inReset)
def t97 : Int := 1552
def t105 : Int := 1680
def t95 : Int := 1520
/-- Dynamic power of quarter q at point b to that at point a (R339). -/
def powerRatio (s : State) (q a b : Nat) : Rat :=
  ((pointCode b).toNat : Rat) / ((pointCode a).toNat : Rat) * (((setpoint s q b : Nat) : Rat) / ((setpoint s q a : Nat) : Rat)) ^ 2
/-- r(P') for the region: the largest of the quarters' ratios from the present point. -/
def regionRatio (s : State) (b : Nat) : Rat :=
  (upto 4).foldl (fun m q => max m (powerRatio s q s.clk.point.toNat b)) 0
/-- U_h at tick t for operating point p, with hints hs (R341). -/
def predicted (s : State) (hs : List Hint) (t p : Nat) : Rat :=
  ((upto 4).map fun q =>
    match ((hs.filter fun h => h.quarter == q && hintActive h t).map fun h => h.cls.toNat).max? with
    | some k => ((sget 0 s.pwr.pitch k).toNat : Rat) * powerRatio s q 4 p
    | none => sget 0 s.pwr.share q * s.pwr.u).sum
/-- Every registered hint fits at point p, where hints are honoured (R340, R342). -/
def hintsFit (s : State) (p : Nat) : Bool :=
  !hintsOn s.pwr || s.pwr.hintq.all fun h => match h.from_ with
    | some t => decide (predicted s s.pwr.hintq (max t s.tick) p ≤ 95 / 100 * (s.pwr.allotNow.toNat : Rat))
    | none => true
/-- The lowest point that a descent for a held hint goes to, where hints are honoured (R340, R342). -/
def hintGoal (w : Pwr) : Option Nat := if hintsOn w then ((w.hintq.filterMap Hint.goal).map BitVec.toNat).min? else none
/-- A descent to point p begins; n of its one-point descents count, in SUMMIT (why 1), THERMAL (2) or ALLOT (R339, R361). -/
def countDescent (s : State) (p n why : Nat) : State :=
  if p < aimPoint s then
    let k := BitVec.ofNat 8 n
    s.modPwr fun w =>
      { w with descTick := some s.tick, dSummit := if why = 1 then w.dSummit + k else w.dSummit,
               dThermal := if why = 2 then w.dThermal + k else w.dThermal,
               dAllot := if why ≠ 1 ∧ why ≠ 2 then w.dAllot + k else w.dAllot }
  else s
/-- The descent that a hint has asked for begins, if moves are allowed; all its points count (R338, R342, R361). -/
def hintMove (s : State) (why : Nat) : State :=
  match hintGoal s.pwr with
  | some h =>
    if movesAllowed s && decide (h < aimPoint s) then moveTo (countDescent s h (min (aimPoint s) s.clk.point.toNat - h) why) h else s
  | none => s
/-- A hint's start has been fixed: a descent to the highest point at which U_h fits, if it would exceed the allotment there (R342). -/
def hintDescent (s : State) (h : Hint) : State :=
  match h.from_ with
  | some t =>
    let p := aimPoint s
    let a : Rat := s.pwr.allotNow.toNat
    if !hintsOn s.pwr ∨ predicted s s.pwr.hintq t p ≤ a ∨ p = 0 then s
    else
      let fit := ((upto p).reverse.find? fun i => decide (predicted s s.pwr.hintq t i ≤ 95 / 100 * a)).getD 0
      hintMove (s.modPwr fun w => { w with hintq := w.hintq.map fun x => if x = h then { x with goal := some (BitVec.ofNat 3 fit) } else x }) 3
  | none => s
/-- Register the hint of a fetched descriptor (R340, R371): a SERVE request's phase begins at its admission. -/
def registerHint (s : State) (n : Nat) (d : Desc) : State :=
  let r := d.row
  let cls := dPitch r
  if cls = 0 ∨ !hintsOn s.pwr ∨ 16 ≤ s.pwr.hintq.length then s
  else
    let q := if dType r = 1 then fld r (8 * 26) 2 else if dType r = 2 then fld r (8 * 12) 2 else queueQuarter n
    let h : Hint := ⟨BitVec.ofNat 3 cls, q, if dType r = 3 then none else some (s.tick + us (dLead r)), none, n, d.seq⟩
    hintDescent (s.modPwr fun w => { w with hintq := w.hintq ++ [h] }) h
/-- A SERVE request is admitted: its hinted phase begins (R371). -/
def admitHint (s : State) (n seq : Nat) : State :=
  match s.pwr.hintq.find? fun h => h.queue == n && h.seq == seq with
  | some h =>
    let h' := { h with from_ := some s.tick }
    hintDescent (s.modPwr fun w => { w with hintq := w.hintq.map fun x => if x = h then h' else x }) h'
  | none => s
/-- HINT_EXPIRE: a hinted phase ends at its descriptor's completion, or 10 ms after it began (R340). -/
def execHintExpire (i : Fin 16) (s : State) : Host.Outcome State Fault Refusal :=
  .next <|
    match s.pwr.hintq[i.val]? with
    | some h =>
      let past := match h.from_ with | some a => decide (a + 10 * msTicks ≤ s.tick) | none => false
      if past || !(s.queue h.queue).open_.contains h.seq then s.modPwr fun w => { w with hintq := w.hintq.eraseIdx i.val } else s
    | none => s

/-! Energy (R353 to R356, R374). -/

/-- What executes on a quarter for a queue: the descriptor that holds it, a commit, or a seated request of a service (lead). -/
inductive Executor | run | commit (seq : Nat) | req (lead seq : Nat)
  deriving DecidableEq, Repr

/-- Quarter a descriptor executes on (R356): QSRC's, a commit's stack's, else the queue's. -/
def execQuarter (n : Nat) (r : Row) : Nat :=
  match dType r with
  | 1 => fld r (8 * 26) 2
  | 2 => fld r (8 * 12) 2
  | 6 => dBytes r 12 1 / 2 % 4
  | _ => queueQuarter n
/-- The descriptors executing on quarter q, with their queues: a request from its admission on, also while REQUEUE has put it back (R356, R374, R382). -/
def executors (s : State) (q : Nat) : List (Nat × Executor) :=
  (s.cmdq.flatMap fun (n, c) =>
    (match c.run with | some x => if execQuarter n x.desc.row = q then [(n, Executor.run)] else [] | none => []) ++
      (c.commits.filter fun x => execQuarter n x.desc.row == q).map fun x => (n, Executor.commit x.desc.seq)) ++
    s.svc.flatMap fun (l, v) => if bit v.qmask q then (v.seated ++ v.pending.filter fun r => r.group.isSome).map fun r => (r.queue, Executor.req l r.seq) else []
/-- Credit µJ to one descriptor. -/
def creditExec (s : State) (n : Nat) (x : Executor) (e : Rat) : State :=
  match x with
  | .run => s.modQueue n fun q => { q with run := q.run.map fun x => { x with energy := x.energy + e } }
  | .commit i => s.modQueue n fun q =>
      { q with commits := q.commits.map fun x => if x.desc.seq = i then { x with energy := x.energy + e } else x }
  | .req l i =>
    let add (r : Req) : Req := if r.queue = n ∧ r.seq = i then { r with energy := r.energy + e } else r
    s.modSvc l fun v => { v with seated := v.seated.map add, pending := v.pending.map add }
/-- Credit an energy counter. -/
def creditCtr (s : State) (k : Nat) (e : Rat) : State := s.modPwr fun w => { w with energy := smod 0 w.energy k (· + e) }
/-- Credit a quarter's calibrated µJ: to its counter, and split equally over the queues that execute on it and over each queue's descriptors there (R356, R374). -/
def creditQuarter (s : State) (q : Nat) (e : Rat) : State :=
  let xs := executors s q
  let ns := (xs.map Prod.fst).dedup
  let s := creditCtr s q e
  forEach ns s fun s n =>
    let each := e / (ns.length : Rat)
    let mine := xs.filter fun x => x.1 == n
    forEach mine (creditCtr s (8 + n) each) fun s x => creditExec s n x.2 (each / (mine.length : Rat))

/-! The loop (R339). -/

/-- The duty of one sample. -/
def nextDuty (s : State) (past canDescend : Bool) (S g : Rat) : State :=
  let w := s.pwr
  let s := if w.vinWarn then s.modPwr fun w => { w with duty := if 4 < w.duty.toNat then 4 else w.duty } else s
  let w := s.pwr
  let set (s : State) (d : Nat) : State :=
    if d = w.duty.toNat then s else s.modPwr fun w => { w with duty := BitVec.ofNat 4 d, dutyTick := some s.tick }
  let s :=
    if g ≤ S ∧ passed s w.halveTick (us 100) then
      (set s (max 1 (w.duty.toNat / 2))).modPwr fun w => { w with halveTick := some s.tick }
    else if past ∧ !canDescend ∧ passed s w.dutyTick (us 100) then set s (max 1 (w.duty.toNat - 1))
    else if !past ∧ S < 1445 ∧ !w.vinWarn ∧ passed s w.dutyTick (us 100) then set s (min 8 (w.duty.toNat + 1))
    else s
  if s.pwr.duty = 1 ∧ (s.pwr.allotNow.toNat : Rat) < s.pwr.u ∧ !canDescend then
    (s.modPwr fun w => { w with capFloor := true }).raise 0x3000C (oneBit 31)
  else s
/-- The point to which the region returns after a warning, and how many of the one-point descents to it count: those that no lowered top asks for (R348, R361). -/
def recoverTo (s : State) : Nat × Nat :=
  let saved := s.pwr.savedPoint.toNat
  (min saved (topPoint s), min (aimPoint s) s.clk.point.toNat - min saved (if s.pwr.normal then 7 else 2))
/-- The field of PWR_DESCENTS in which a descent counts that is made as things stand: SUMMIT 1, THERMAL 2, ALLOT 3 (R361). -/
def descentField (s : State) : Nat :=
  if summitG s.pwr s.tick ≤ summitS s.pwr then 1 else if t100 ≤ hottestAll s then 2 else 3
/-- The point one sample wants, and how many one-point descents count if it is one: not those to a top that MAX_POINT or LIMIT_POINT has lowered. The loop's point is the one a move in progress goes to (R339, R361, log 141). -/
def wantPoint (s : State) (past hot canDescend : Bool) (S : Rat) : Nat × Nat :=
  let w := s.pwr
  let p := aimPoint s
  let top := topPoint s
  if w.vinWarn then (0, 0)
  else if w.recovered then recoverTo s
  else if top < p then (top, if w.normal then 0 else p - 2)
  else if past ∧ canDescend ∧ passed s w.descTick msTicks then (p - 1, 1)
  else if !w.normal ∧ !hot then (top, 0)
  else if w.normal ∧ !s.clk.moving ∧ !past ∧ w.duty = 8 ∧ p < top ∧ hottestAll s ≤ t97 ∧ passed s w.warmTick (10 * msTicks) ∧
      passed s w.moveTick msTicks ∧ regionRatio s (p + 1) * w.u ≤ 95 / 100 * (w.allotNow.toNat : Rat) ∧
      regionRatio s (p + 1) * S < 1445 ∧ hintsFit s (p + 1) then (p + 1, 0)
  else (p, 0)
/-- The move to P0 of a warning, once moves are allowed; it counts once (R338, R348, R361). -/
def vinMove (s : State) : State :=
  if movesAllowed s && decide (0 < aimPoint s) then moveTo (s.modPwr fun w => { w with dVin := w.dVin + 1, descTick := some s.tick }) 0 else s
/-- The region moves towards the point that one sample wants, a hint's descent first (R339, R342). -/
def loopMove (s : State) (want n why : Nat) : State :=
  if !movesAllowed s then s
  else if s.pwr.vinWarn then vinMove s
  else
    let s := if !s.clk.moving && want = s.clk.point.toNat then s.modPwr fun w => { w with recovered := false } else s
    let s := if s.clk.moving then s else s.modPwr fun w => { w with hintq := hintsBelow w.hintq s.clk.point }
    if (match hintGoal s.pwr with | some h => decide (h < want) | none => false) then hintMove s why
    else moveTo (countDescent s want n why) want
/-- The region stands at P0, and no move takes it up: no descent can be made (R337). -/
def atP0 (s : State) : Bool := decide (s.clk.point.toNat = 0 ∧ aimPoint s = 0)
/-- The loop's decisions in one sample, while the region is READY. -/
def governLoop (s : State) : State :=
  let S := summitS s.pwr
  let H := hottestAll s
  let g := summitG s.pwr s.tick
  let hot := decide (t100 ≤ H)
  let past := decide (g ≤ S) || decide ((s.pwr.allotNow.toNat : Rat) < s.pwr.u) || hot
  let canDescend := movesAllowed s && !atP0 s && (s.pwr.normal || hot)
  let s := nextDuty s past canDescend S g
  let (want, n) := wantPoint s past hot canDescend S
  loopMove (s.modPwr fun w => { w with throttle := if w.duty.toNat < 8 then w.throttle + 10 else w.throttle }) want n (descentField s)
/-- GOVERNOR_SAMPLE: every 10 µs: energy is credited, p, S and U are updated, and the loop sets the duty and the point (R333 to R342, R353, R356). -/
def execGovernorSample (e : EnergyEst) (s : State) : Host.Outcome State Fault Refusal :=
  .next <|
    if s.tick % 8000 ≠ 0 ∨ s.pwr.sampleTick = some s.tick ∨ !s.pwr.vInt then s
    else
      let s := applyTrims s
      let est (q : Nat) : Nat := match q with | 0 => e.q0 | 1 => e.q1 | 2 => e.q2 | _ => e.q3
      let qs := e.q0 + e.q1 + e.q2 + e.q3
      let k := s.pwr.k
      let s := forEach (upto 4) s fun s q => creditQuarter s q (k * (est q : Rat) / 1000)
      let s := creditCtr s 4 (k * (e.shared : Rat) / 1000)
      let s := s.modPwr fun w => { w with sampleTick := some s.tick, estMs := w.estMs + ((qs + e.shared : Nat) : Rat) }
      if !s.ready then s
      else
        let p : Rat := k * ((qs + e.shared : Nat) : Rat) / 10000
        let s := s.modPwr fun w =>
          { w with p := p, u := w.u + (p - w.u) / 5000, win := (p :: w.win).take 200, allotNow := w.allot,
                   share := (upto 4).foldl (fun m q => sset 0 m q (if qs = 0 then 1 / 4 else (est q : Rat) / (qs : Rat))) [],
                   warmTick := if t97 < hottestAll s then some s.tick else w.warmTick,
                   pointTens := smod 0 w.pointTens s.clk.point.toNat (· + 1) }
        let s := forEach (upto 4) s fun s q => s.modTrim q fun t => { t with held := smod 0 t.held s.clk.point.toNat (· + 1) }
        governLoop s

/-! Need index (R343, R344). -/

/-- NEED from the increases of WAIT_IN and WAIT_OUT over 100 µs. -/
def needOf (dIn dOut : Int) : BitVec 16 := satInt 16 ((256 * (dIn - dOut) * 2 + 80000) / 160000)
/-- No descent is possible, the duty is 1 and U exceeds the allotment (Table 11-5). -/
def atFloor (s : State) : Bool :=
  let hot := decide (t100 ≤ hottestAll s)
  s.pwr.duty == 1 && decide ((s.pwr.allotNow.toNat : Rat) < s.pwr.u) &&
    !(movesAllowed s && !atP0 s && (s.pwr.normal || hot))
/-- NEED_INDEX_SAMPLE: every 100 µs NEED is formed and its record goes onto the Mbao ring (R343, R344). -/
def execNeedIndexSample (s : State) : Host.Outcome State Fault Refusal :=
  .next <|
    if s.tick % 80000 ≠ 0 ∨ s.pwr.needTick = some s.tick ∨ !s.ready then s
    else
      let out := ((upto 4).map fun q => (s.pitQ q).waitOut.toNat).sum
      let inn := ((upto 4).map fun q => (s.pitQ q).waitIn.toNat).sum
      let n := needOf ((inn : Int) - s.pwr.needIn) ((out : Int) - s.pwr.needOut)
      let s := s.modPwr fun w => { w with need := n, needOut := out, needIn := inn, needTick := some s.tick }
      let rec_ := n.toNat * 2 ^ 48 + (watts s.pwr.u).toNat * 2 ^ 32 + (watts (summitS s.pwr)).toNat * 2 ^ 16 +
        s.clk.point.toNat * 2 ^ 13 + s.pwr.duty.toNat * 2 ^ 9 + b2n (atFloor s) * 2 ^ 8 + s.ident.site.toNat
      mbaoSend s (mbaoFrame s 5 0 0 0 rec_)

/-! Brownout warnings (R348, R352). -/

/-- VIN_WARNING: V_IN_40 has stayed below 33.0 V for 2 µs: the duty is at most 4 and the region moves to P0; a dip during a warning is not counted again (R336, R348, R352). -/
def execVinWarning (s : State) : Host.Outcome State Fault Refusal :=
  .next <|
    let w := s.pwr
    if w.vinWarn ∨ !w.vinHigh then s
    else
      let s := lifeInc (s.modPwr fun w =>
        { w with vinWarn := true, warnCount := satInc w.warnCount, savedPoint := if w.recovered then w.savedPoint else s.clk.point,
                 savedDuty := w.duty, recovered := false, duty := if 4 < w.duty.toNat then 4 else w.duty }) lifeVinWarnings
      if s.ready then vinMove s else s
/-- VIN_WARNING_END: V_IN_40 has stayed above 35.0 V for 100 µs: the duty saved returns, and the region moves back (R348, R352). -/
def execVinWarningEnd (s : State) : Host.Outcome State Fault Refusal :=
  .next <|
    if !s.pwr.vinWarn then s
    else
      let s := s.modPwr fun w => { w with vinWarn := false, recovered := true, duty := w.savedDuty }
      let (want, n) := recoverTo s
      if s.ready && movesAllowed s then moveTo (countDescent s want n (descentField s)) want else s

/-! Calibration and heat. -/

/-- CALIBRATION_UPDATE: every 1 ms the measured energy sets PWR_CAL_ERR and moves K by at most 1 % (R354, Table 11-12). An error over no measured energy is a free value. -/
def execCalibrationUpdate (vinMv iinMa : BitVec 16) (measNj : Nat) (s : State) : Host.Outcome State Fault Refusal :=
  .next <|
    let est := s.pwr.k * s.pwr.estMs
    let m : Rat := measNj
    let (f, s) := if measNj = 0 then s.takeFree 16 else (satInt 16 ((est - m) / m * 10000).floor, s)
    s.modPwr fun w =>
      { w with vinMv := vinMv, iinMa := iinMa, calErr := f, estMs := 0,
               k := if est = 0 then w.k else w.k * max (99 / 100) (min (101 / 100) (m / est)) }
/-- ARG of the thermal events: the quarter's hottest sensor and its reading (R359). -/
def thermArg (s : State) (q : Nat) : Nat :=
  let i := hottest s (16 * q) 16
  i + (sget 0 s.pwr.temp i).toNat * 2 ^ 16
/-- Quarter q quiesces: it halts and takes no work (R359). -/
def quiesce (s : State) (q : Nat) : State :=
  if bit s.pwr.quiesced q then s
  else
    let s := s.modPwr fun w => { w with quiesced := setBit w.quiesced q true, quiesceDue := setBit w.quiesceDue q false }
    let s := (stopZones s q).modStr fun r => { r with aligned := setBit r.aligned q false }
    let s := match serviceOf s q with
      | some l => if (s.service l).state = .serving then setSvcState s l .halted else s
      | none => s
    event (setSummary s sumThermal) 0x0040 (some q) (thermArg s q)
/-- A quarter due to quiesce does so at a step boundary (R359). -/
def quiesceIfDue (s : State) (q : Nat) : State :=
  if bit s.pwr.quiesceDue q && atBoundary s q && !(s.quarter q).inReset then quiesce s q else s
/-- A sensor that reads 115 °C or more asserts THERM_TRIP_N until a cold reset (R35). -/
def tripCheck (s : State) : State :=
  if (upto 64).any fun i => decide (1840 ≤ sensor s i) then s.modPins fun p => { p with thermTrip := true } else s
/-- THERMAL_SAMPLE: the 64 sensors' readings in 1/16 °C; a quarter at 105 °C quiesces at its step boundary, or at once if it runs no step; a work stack above 85 °C refreshes faster (R188, R357, R359). -/
def execThermalSample (readings : List (BitVec 16)) (s : State) : Host.Outcome State Fault Refusal :=
  .next <|
    let s := s.modPwr fun w =>
      { w with temp := (upto 64).foldl (fun m i => sset 0 m i (readings.getD i (sget 0 w.temp i))) w.temp }
    let s := tripCheck (s.modPwr fun w => { w with warmTick := if t97 < hottestAll s then some s.tick else w.warmTick })
    forEach (upto 4) s fun s q =>
      let h := sensor s (hottest s (16 * q) 16)
      let s := s.modPwr fun w =>
        { w with hourMax := smod 0 w.hourMax q (fun m => if m.toInt < h then BitVec.ofInt 16 h else m),
                 coolSince := smod none w.coolSince q fun c => if h ≤ t95 then (match c with | some t => some t | none => some s.tick) else none,
                 quiesceDue := if t105 ≤ h ∧ !bit w.quiesced q ∧ !(s.quarter q).inReset then setBit w.quiesceDue q true else w.quiesceDue }
      let s := s.modPst fun p => { p with hot := p.hot || decide (t95 < h) }
      let s := s.modKs q fun k => { k with hot := decide (1360 < h) }
      quiesceIfDue s q
/-- A quarter that leaves a reset, not quiesced, is judged afresh on its sensors (R359). -/
def judgeHeat (s : State) (q : Nat) : State :=
  let h := sensor s (hottest s (16 * q) 16)
  s.modPwr fun w => { w with quiesceDue := setBit w.quiesceDue q (decide (t105 ≤ h) && !bit w.quiesced q) }
/-- A quiesced quarter's sensors have all read 95 °C or less for 10 ms (R359). -/
def cooled (s : State) (q : Nat) : Bool :=
  match sget none s.pwr.coolSince q with
  | some t => decide (t + 10 * msTicks ≤ s.tick)
  | none => false
/-- An alignment of quarter q is requested; one in progress is begun afresh, and ALIGN shows firmware's alone (R314, R315, Table 10-12). -/
def requestAlign (s : State) (q : Nat) (firmware : Bool) : State :=
  (stopZones s q).modStr fun r =>
    { r with al := sset .init r.al q { AlignRec.init with phase := 1, firmware := firmware }, alignCtl := setBit r.alignCtl q firmware }
/-- THERMAL_RESUME: after 10 ms at 95 °C or less, the alignment of a quiesced quarter is requested; it resumes at its end (R315, R359). -/
def execThermalResume (q : Fin 4) (s : State) : Host.Outcome State Fault Refusal :=
  .next <|
    if bit s.pwr.quiesced q && cooled s q && !(s.quarter q).inReset && (sget AlignRec.init s.str.al q).phase == 0 then
      requestAlign s q false
    else s

end Sys2Proof.Machine
end

