-- ==== Sys2Proof/Machine/Queues.lean ====
section
/-! DEFINITION. The command queues (R362 to R374, R383): fetching, checking descriptors, and the rows of descriptor types but SERVE's step cycle and STACK_COMMIT: DESCRIPTOR_ARRIVAL, IRQ_DELAY_EXPIRE, NOP_DESCRIPTOR, RUN_GRAPH, RUN_GRAPH_TIMEOUT, LOAD_CONFIG, SERVE, PITON_OP, COPY, QUEUE_FENCE, QUEUE_FENCE_DONE, TIME_MARK, TIME_MARK_REACHED. What the front end must do within a bounded time it does at once. -/

namespace Sys2Proof.Machine

/-! The doorbells and the queue's control (R363 to R365). -/

/-- A queue goes into ERROR: QUEUE_ERROR, cause 1 TAIL_RANGE, 2 HEAD_RANGE, 3 HOST_FETCH (R365). -/
def queueError (s : State) (n cause : Nat) : State :=
  if (s.queue n).inError || (s.queue n).resetting then s
  else
    let s := s.modQueue n fun q => { q with inError := true, error := BitVec.ofNat 6 cause }
    event (setSummary s sumQueue) 0x0052 (some (queueQuarter n)) (n + cause * 256)
/-- A DB_SQ_TAIL write (R363 to R365). -/
def dbTailWrite (s : State) (n : Nat) (v : BitVec 16) : State :=
  let s := s.modQueue n fun q => { q with dbTail := v }
  if sqSize (s.queue n) ≤ v.toNat then queueError s n 1 else fetchKick s n
/-- Room may have appeared in queue n's CQ: held completions follow into it (R367). -/
def flushAll (s : State) (n : Nat) : State := flushHeld s n (s.queue n).held.length
/-- A DB_CQ_HEAD write: held completions follow into the room, which counts modulo the size (R363, R365, R367). -/
def dbHeadWrite (s : State) (n : Nat) (v : BitVec 16) : State :=
  let s := s.modQueue n fun q => { q with dbHead := v }
  flushAll (if cqSize (s.queue n) ≤ v.toNat then queueError s n 2 else s) n
/-- CMD_Q_CTL.ENABLE is written. -/
def queueEnableWrite (s : State) (n : Nat) (b : Bool) : State := fetchKick (s.modQueue n fun q => { q with enable := b }) n
/-- The descriptor that holds a queue waits only: all its actions are done. -/
def waitsOnly (x : Exec) : Bool := decide (2 ≤ x.phase) || dType x.desc.row == 7 || dType x.desc.row == 8
/-- The reset of queue n begins (R383): fetching, held completions and interrupts end, descriptors not started and pending requests are dropped, seated requests leave at the next step boundary; a descriptor that only waits ends. -/
def queueResetBegin (s : State) (n : Nat) : State :=
  if (s.queue n).resetting then s
  else
    let s := s.modQueue n fun q =>
      { q with resetting := true, fetches := [], ready := [], commits := [], held := [], irqPend := 0,
               run := q.run.filter fun x => !waitsOnly x,
               open_ := (match q.run with | some x => [x.desc.seq] | none => []) }
    let s := { s with pwr := { s.pwr with hintq := s.pwr.hintq.filter fun h => h.queue != n } }
    forEach (upto 4) s fun s l => s.modSvc l fun v =>
      { v with pending := v.pending.filter (fun r => r.queue != n),
               seated := v.seated.map fun r => if r.queue = n then { r with dropped := true } else r }
/-- CMD_Q_CTL.RESET: with nothing to wait for, the reset ends at once (R383). -/
def queueResetWrite (s : State) (n : Nat) : State := if (s.queue n).resetting then s else resetDone (queueResetBegin s n) n

/-! Arrival (R364, R369, R371). -/

/-- The number of the next descriptor fetched, over all queues, so that numbers tell fetch order. -/
def nextDesc (s : State) : Nat := (s.cmdq.map fun c => c.2.nextSeq).foldl max 0
/-- One fetched descriptor waits its turn, its hint registered unless it is malformed; a malformed SERVE, which waits for none, completes at once (R366, R369, R371). -/
def descArrives (s : State) (n : Nat) (row : Row) : State :=
  let d : Desc := ⟨nextDesc s, row⟩
  let s := s.modQueue n fun q =>
    { q with nextSeq := d.seq + 1, open_ := q.open_ ++ [d.seq], sqHead := BitVec.ofNat 16 ((q.sqHead.toNat + 1) % sqSize q) }
  if descBad row && dType row == 3 then completeDesc s n (startExec s d) stBad 0
  else
    let s := s.modQueue n fun q => { q with ready := q.ready ++ [d] }
    endBad (if descBad row then s else registerHint s n d) n
/-- DESCRIPTOR_ARRIVAL: the descriptors of the oldest fetch have come, or the fetch has failed (R364, R365). -/
def execDescriptorArrival (n : Fin 64) (ok : Bool) (s : State) : Host.Outcome State Fault Refusal :=
  .next <|
    match (s.queue n).fetches with
    | [] => s
    | f :: rest =>
      match ok, f.data with
      | true, some rows =>
        let s := s.modQueue n fun q => { q with fetches := rest }
        fetchKick (forEach (rows.take f.count) s fun s r => descArrives s n r) n
      | false, none => queueError (s.modQueue n fun q => { q with fetches := [] }) n 3
      | _, _ => s
/-- IRQ_DELAY_EXPIRE: the oldest pending interrupt has waited IRQ_DELAY µs (R368). -/
def execIrqDelayExpire (n : Fin 64) (s : State) : Host.Outcome State Fault Refusal := .next (checkMsi s n)

/-! Descriptors that hold their queue (R366, R370). -/

/-- The descriptor of queue n whose turn it is, of type ty, takes it: f acts for it. -/
def startHead (s : State) (n ty : Nat) (f : State → Desc → State) : State :=
  let q := s.queue n
  match q.run, turnOf s n with
  | none, some d =>
    if dType d.row = ty && !q.resetting then
      fetchKick (f (s.modQueue n fun q => { q with ready := q.ready.erase d, run := some (startExec s d) }) d) n
    else s
  | _, _ => s
/-- NOP. -/
def execNopDescriptor (n : Fin 64) (s : State) : Host.Outcome State Fault Refusal :=
  .next (startHead s n 0 fun s _ => finishRun s n stOk 0)

/-- QSRC's quarter and its source (host or not), at byte k. -/
def qsrcQ (r : Row) (k : Nat) : Nat := fld r (8 * k) 2
def qsrcHost (r : Row) (k : Nat) : Bool := bit r (8 * k + 7)
/-- RUN_GRAPH and LOAD_CONFIG are refused while the quarter is a member of a service or runs a full commit (R370). -/
def graphRefused (s : State) (q : Nat) : Bool := (serviceOf s q).isSome || fullCommitOn s q
/-- The streamer of quarter q can take a plan, or the quarter refuses it anyway. -/
def planTurn (s : State) (q entries : Nat) : Bool :=
  graphRefused s q || (!(s.quarter q).inReset && (entries == 0 || !(s.cfgQ q).start))
/-- Load the plan of a descriptor; a streamer that an ABORT has stopped answers with its error (R168). -/
def loadPlan (s : State) (n q : Nat) (host : Bool) (r : Row) : State :=
  let e := (s.cfgQ q).aborted
  if e then finishRun s n stPlanError ((s.cfgQ q).error.toNat * 2 ^ 24 + (s.cfgQ q).entry.toNat)
  else cfgBeginAt s q (dBytes r 16 8) host (dBytes r 24 2) n
/-- The descriptor of queue n whose turn it is, is of type ty and f holds of it. -/
def headIs (s : State) (n ty : Nat) (f : Row → Bool) : Bool :=
  match turnOf s n with
  | some d => dType d.row == ty && f d.row
  | none => false
/-- RUN_GRAPH: loads the plan if ENTRIES is nonzero, then starts the graph, a step that no replay has repeated yet (R412); REFUSED in a service or a full commit. -/
def execRunGraph (n : Fin 64) (s : State) : Host.Outcome State Fault Refusal :=
  .next <|
    if headIs s n 1 fun r => planTurn s (qsrcQ r 26) (dBytes r 24 2) then
      startHead s n 1 fun s d =>
        let r := d.row
        let q := qsrcQ r 26
        if graphRefused s q then finishRun s n stRefused 4
        else
          let s := s.modQuarter q fun x => { x with replays := 0, dataLost := false }
          if dBytes r 24 2 = 0 then runGraphStart s n else loadPlan s n q (qsrcHost r 26) r
    else s
/-- RUN_GRAPH_TIMEOUT: LIMIT µs have passed since the start. -/
def execRunGraphTimeout (n : Fin 64) (s : State) : Host.Outcome State Fault Refusal :=
  .next <|
    match (s.queue n).run with
    | some x =>
      let limit := dBytes x.desc.row 12 4
      if dType x.desc.row = 1 && x.phase == 2 && limit != 0 && decide (x.tick + us limit ≤ s.tick) then
        finishRun s n stStepTimeout 0
      else s
    | none => s
/-- LOAD_CONFIG: starts the plan and completes when CFG_STATUS leaves running. -/
def execLoadConfig (n : Fin 64) (s : State) : Host.Outcome State Fault Refusal :=
  .next <|
    if headIs s n 2 fun r => planTurn s (qsrcQ r 12) (dBytes r 24 2) then
      startHead s n 2 fun s d =>
        let q := qsrcQ d.row 12
        if graphRefused s q then finishRun s n stRefused 4 else loadPlan s n q (qsrcHost d.row 12) d.row
    else s
/-- PITON_OP: one PITON packet; then a READ on the same path, but for a WAIT, which with MODE 0 awaits its notification and with MODE 1 or 2 completes once sent. -/
def execPitonOp (n : Fin 64) (s : State) : Host.Outcome State Fault Refusal :=
  .next <| startHead s n 4 fun s d =>
    let r := d.row
    let piton := dBytes r 12 4 % 2 ^ 17
    let op := fld r 128 4
    let p : HdrF :=
      { dest := 0xFFFFFF, src := feId s, kind := 4, pv := true, last := bit r 135, piton := piton,
        total := if bit r 135 then dBytes r 24 4 else 0, arg := op * 2 ^ 28 + dBytes r 20 4 % 2 ^ 28, inl := dBytes r 28 32 }
    let s := localSend s 0 1 (mkHdr p) []
    if op = 2 then
      if fld r 160 2 = 0 then setPhase s n 2 else finishRun s n stOk 0
    else
      let s := localSend s 0 1 (mkHdr { dest := 0xFFFFFF, src := feId s, kind := 4, pv := true, piton := piton, arg := 5 * 2 ^ 28 }) []
      setPhase s n (if op = 5 then 3 else 2)

/-! COPY. -/

/-- Fields of a COPY: the spaces, and whether a work stack it names lies in a quarter in reset or holds no data. -/
def cpSrcKs (r : Row) : Bool := fld r 96 4 == 1
def cpDst (r : Row) : Nat := fld r 100 4
def cpSrcQ (r : Row) : Nat := fld r 104 2
def cpDstQ (r : Row) : Nat := fld r 106 2
def ksDown (s : State) (q : Nat) : Bool := (s.quarter q).inReset || (s.kst q).failed || !(s.kst q).trained
def cpDown (s : State) (r : Row) : Bool := (cpSrcKs r && ksDown s (cpSrcQ r)) || (cpDst r == 1 && ksDown s (cpDstQ r))
/-- The source of a COPY as a memory and the byte address it starts at. -/
def cpSource (s : State) (r : Row) (len : Nat) : Memory × Nat :=
  let a := dBytes r 16 8
  if cpSrcKs r then (sourceMem s (cpSrcQ r) true (64 * a) len, 64 * a) else (s.host, a)
/-- Send rows to an endpoint as ORDERED TOKEN packets of LEN 64 except the last, which carries LAST and TOTAL when PV = 1 (R370). -/
def cpPackets (s : State) (r : Row) (rows : List Row) (len : Nat) : State :=
  let k := (rows.length + 63) / 64
  let pv := bit r 351
  forEach (upto k) s fun s i =>
    let part := (rows.drop (64 * i)).take 64
    let last := pv && i + 1 == k && 64 * rows.length == len
    let (data, s) := freeTlast s part
    localSend s 0 1 (mkHdr
      { dest := dBytes r 24 3, src := feId s, kind := 0, len := part.length, pv := pv, piton := dBytes r 40 4 % 2 ^ 17,
        last := last, total := if last then len / 64 else 0 }) data
/-- Move the first k of the bytes of a COPY of len bytes; rmw says what reading the lines of the destination that are written in part shows (R187). -/
def cpMove (s : State) (r : Row) (k len : Nat) (rmw : List ReadErr) : State :=
  let (m, a) := cpSource s r k
  let rows := (upto (k / 64)).map fun i => readRowAt m (a + 64 * i)
  match cpDst r with
  | 0 => { s with host := copyRange m a k s.host (dBytes r 24 8) }
  | 1 => ksWriteRows s (cpDstQ r) (dBytes r 24 8) rows rmw
  | _ => cpPackets s r rows len
/-- COPY: moves LENGTH bytes; `ok` says that host and stacks answered throughout, `ks` what the reads of a KS source showed (R186); where the source failed, how far the copy came is a free value. -/
def execCopy (n : Fin 64) (ok : Bool) (ks : Reads) (rmw : List ReadErr) (s : State) : Host.Outcome State Fault Refusal :=
  .next <| startHead s n 5 fun s d =>
    let r := d.row
    let len := dBytes r 32 8
    if cpDown s r then finishRun s n stHostError 0
    else
    let (ok, s) := if cpSrcKs r then (ok && ks.uncorrectable == 0, ksCount s (cpSrcQ r) ks) else (ok, s)
    if ok then
      let s := cpMove s r len len rmw
      let (v, s) := if len = 2 ^ 32 then s.takeFree 32 else (BitVec.ofNat 32 len, s)
      finishRun s n stOk v.toNat
    else
      let (v, s) := s.takeFree 32
      let k := if cpSrcKs r || cpDst r != 0 then v.toNat % len / 64 * 64 else v.toNat % len
      finishRun (cpMove s r k len rmw) n stHostError k

/-! Fences and time marks. -/

/-- QUEUE_FENCE: awaits every descriptor fetched before it on this queue and on each queue in QMASK. -/
def execQueueFence (n : Fin 64) (s : State) : Host.Outcome State Fault Refusal :=
  .next <| startHead s n 7 fun s d =>
    let ms := (upto 64).filter fun m => m == n.val || bit d.row (128 + m)
    let awaits := ms.flatMap fun m => ((s.queue m).open_.filter (· < d.seq)).map fun i => (m, i)
    s.modQueue n fun q => { q with run := q.run.map fun x => { x with awaits := awaits } }
/-- QUEUE_FENCE_DONE: the awaited descriptors have completed. -/
def execQueueFenceDone (n : Fin 64) (s : State) : Host.Outcome State Fault Refusal :=
  .next <|
    match (s.queue n).run with
    | some x =>
      if dType x.desc.row = 7 && x.awaits.all fun a => !(s.queue a.1).open_.contains a.2 then finishRun s n stOk 0 else s
    | none => s
/-- WAIT_UNTIL of a TIME_MARK is 0 or has passed. -/
def markPast (s : State) (r : Row) : Bool := decide (dBytes r 16 8 ≤ s.clk.count.toNat)
/-- TIME_MARK: completes at once when WAIT_UNTIL is 0 or has passed. -/
def execTimeMark (n : Fin 64) (s : State) : Host.Outcome State Fault Refusal :=
  .next <| startHead s n 8 fun s d => if markPast s d.row then finishRun s n stOk 0 else s
/-- TIME_MARK_REACHED: the drone counter has reached WAIT_UNTIL. -/
def execTimeMarkReached (n : Fin 64) (s : State) : Host.Outcome State Fault Refusal :=
  .next <|
    match (s.queue n).run with
    | some x => if dType x.desc.row = 8 && markPast s x.desc.row then finishRun s n stOk 0 else s
    | none => s

/-! SERVE (R366, R378). -/

/-- A request from its descriptor; the parameter record is read at its arrival at the service, and its T_START stays open until admission. -/
def reqOf (s : State) (n : Nat) (d : Desc) (t : BitVec 64) : Req :=
  let r := d.row
  { queue := n, seq := d.seq, tag := dTag r, flags := BitVec.ofNat 8 (dBytes r 1 1), promptLen := dBytes r 12 4,
    prompt := BitVec.ofNat 64 (dBytes r 16 8), out := BitVec.ofNat 64 (dBytes r 24 8),
    params := BitVec.ofNat 1024 (readNat s.host (dBytes r 32 8) 128), deadline := BitVec.ofNat 64 (dBytes r 40 8),
    seed := BitVec.ofNat 64 (dBytes r 48 8), maxNew := dBytes r 56 4, streamEvery := dBytes r 60 2,
    pitch := BitVec.ofNat 3 (dPitch r), lead := BitVec.ofNat 8 (dLead r), group := none, tStart := t, fed := 0, gen := [],
    extra := 0, feeding := 0, sets := [], energy := 0, replayed := false, dropped := false }
/-- Why SERVE on a queue of quarter q is refused: 3 DEGRADED, 1 no service, 2 not SEALED, 4 busy; 0 it is not (Table 12-5). -/
def serveReason (s : State) (q : Nat) : Nat :=
  if (s.quarter q).degraded then 3
  else match serviceOf s q with
    | none => 1
    | some l =>
      let v := s.service l
      let qs := maskQuarters v.qmask
      if qs.any fun k => (s.quarter k).degraded then 3
      else if qs.any fun k => !imagesOk s k then 2
      else if v.state = .serving then 0 else 4
/-- SERVE: the next SERVE descriptor of the queue passes to the service's pending pool, or completes REFUSED, or BAD_DESCRIPTOR where PROMPT_LEN is not below MAX_CONTEXT. -/
def execServe (n : Fin 64) (s : State) : Host.Outcome State Fault Refusal :=
  .next <|
    match (s.queue n).ready.find? fun d => dType d.row == 3 with
    | none => s
    | some d =>
      if (s.queue n).resetting then s
      else
        let s := s.modQueue n fun q => { q with ready := q.ready.filter fun x => x.seq != d.seq }
        let q := queueQuarter n
        let why := serveReason s q
        let (t, s) := s.takeFree 64
        let s :=
          if why ≠ 0 then completeDesc s n { startExec s d with tStart := t } stRefused why
          else match serviceOf s q with
            | some l =>
              if tMaxContext (s.service l).table ≤ dBytes d.row 12 4 then
                completeDesc s n { startExec s d with tStart := t } stBad 0
              else s.modSvc l fun v => { v with pending := v.pending ++ [reqOf s n d t] }
            | none => s
        badTurn s n

end Sys2Proof.Machine
end

