-- ==== Sys2Proof/Machine/Service.lean ====
section
/-! DEFINITION. The serving loop (R376 to R386): starting and ending a service, sampling, stops, seats, page sets, the step cycle, and the rows STEP_BOUNDARY and STEP_TIMEOUT. A service is named by its lead quarter. -/

namespace Sys2Proof.Machine

/-! The service table (R377, R378). -/

/-- Byte address of the service table that quarter q's registers name. -/
def tableAddr (x : SeqQ) : Nat := x.tableLo.toNat * 64 + x.tableHi.toNat * 2 ^ 32
/-- A sequencer reads rows of its KS[q]; what the stack's code shows is a free value (R186). -/
def seqRead (s : State) (q row n : Nat) : Option (List Row) × State :=
  let (e, s) := freeRead s
  ksRead s q row n e
/-- The 192 bytes of the table, from KS[q] or the host; none where KS[q] lands none. -/
def readTable (s : State) (q : Nat) : Option (BitVec 1536) × State :=
  let x := s.seqq q
  let pack (rows : List Row) := BitVec.ofNat 1536 (packNat 512 (fun i => (nth 0 rows i).toNat) 3)
  if x.src then (some (pack ((upto 3).map fun i => readRowAt s.host (tableAddr x + 64 * i))), s)
  else
    let (rows, s) := seqRead s q (tableAddr x / 64) 3
    (rows.map pack, s)
/-- FORMAT, reserved fields and ranges of a table (Table 12-8), and GROUPS the number of quarters in QMASK. -/
def tableOk (t : BitVec 1536) : Bool :=
  tbl t 0 4 == 1 && fld t 36 4 == 0 && tGroups t == (maskQuarters (tQmask t)).length && decide (1 ≤ tGroups t) &&
    decide (1 ≤ tSeats t ∧ tSeats t ≤ 1024) && decide (100 ≤ tStepLimit t ∧ tStepLimit t ≤ 1000000) &&
    decide (1 ≤ tChunk t ∧ tChunk t ≤ tSeats t) && fld t 195 5 == 0 && decide (tKvPolicy t ≤ 2) && tbl t 25 1 == 0 &&
    decide (1 ≤ tCandidates t ∧ tCandidates t ≤ 1024) && tbl t 50 14 == 0 &&
    (upto 4).all fun q => fld t (8 * (80 + 32 * q) + 17) 15 == 0
/-- START is accepted on quarter q with table t (R378). -/
def startOk (s : State) (q : Nat) (t : BitVec 1536) : Bool :=
  tableOk t && (maskQuarters (tQmask t)).head? == some q && (maskQuarters (tQmask t)).all fun k =>
    (serviceOf s k).isNone && !quarterHalted s k && !(s.quarter k).inReset && !(s.quarter k).degraded && !fullCommitOn s k && imagesOk s k
/-- First pages of the page sets of a table. -/
def tableSets (t : BitVec 1536) : List Nat := (upto (tKvPages t / tPagesPerSet t)).map fun i => tKvBase t + i * tPagesPerSet t
/-- Store the free page sets of quarter q; SEQ_KV_FREE shows their number. -/
def setFree (s : State) (l q : Nat) (f : List Nat) : State :=
  (s.modSvc l fun v => { v with free := sset [] v.free q f }).modSeqq q fun x => { x with kvFree := BitVec.ofNat 32 f.length }
/-- Begin the first layer plan of each quarter that still waits for its streamer (Table 12-9); a list row that cannot be read is a free value. -/
def startPlans (s : State) (l : Nat) : State :=
  forEach (s.service l).plansLeft s fun s q =>
    if (s.cfgQ q).start || (s.service l).state != .starting then s
    else
      let (row, s) := match seqRead s q (tPlanRow (s.service l).table q) 1 with
        | (some rows, s) => (nth 0 rows 0, s)
        | (none, s) => s.takeFree 512
      let p := Config.firstPlan row
      cfgBeginAt s q p.1.toNat false p.2.toNat (64 + q)

/-! Completions of requests. -/

/-- The status and RESULT of a request's entry; RESULT is the tokens written (Table 12-5). -/
def reqCompl (s : State) (r : Req) (status : Nat) (part : Bool) : State :=
  postCompl s r.queue
    { tag := r.tag, status := BitVec.ofNat 8 status, isPartial := part, replayed := r.replayed, tStart := r.tStart,
      tEnd := s.clk.count, energy := energyWord r.energy,
      result := if status = stDeadline then 0 else BitVec.ofNat 32 r.gen.length,
      irq := bit r.flags 0 && (!part || bit r.flags 1), seq := r.seq }
/-- Give back a request's page sets. -/
def freeSets (s : State) (l : Nat) (r : Req) : State :=
  forEach r.sets s fun s (q, p) => setFree s l q (sget [] (s.service l).free q ++ [p])
/-- A request leaves its service: seat and page sets are free, and it completes, unless its queue has been reset (R383). -/
def endReq (s : State) (l : Nat) (r : Req) (status : Nat) : State :=
  let s := (freeSets s l r).modSvc l fun v =>
    { v with pending := v.pending.filter (fun x => x.seq != r.seq), seated := v.seated.filter fun x => x.seq != r.seq }
  let s := (dropHint s r.queue r.seq).modQueue r.queue fun q => { q with open_ := q.open_.erase r.seq }
  resetDone (if r.dropped then s else reqCompl s r status false) r.queue
/-- The service ends: every request completes with the status, and it is OFF (R379). -/
def svcOff (s : State) (l status : Nat) : State :=
  let v := s.service l
  svcClear (forEach (v.seated ++ v.pending) s fun s r => endReq s l r status) l

/-! SEQ_CTL (R378, R379). -/

/-- SEQ_CTL.START: STARTING, or SERVICE_STATE with the service still OFF. -/
def svcStart (s : State) (q : Nat) : State :=
  let (t, s) := readTable s q
  let t := t.getD 0
  if !startOk s q t then postSvcState s q
  else
    let qs := maskQuarters (tQmask t)
    let s := s.modSvc q fun _ => { Svc.init with table := t, qmask := tQmask t, plansLeft := qs }
    let s := forEach qs s fun s k => (setFree s q k (tableSets t)).modSeqq k fun x => { x with lead := if k = q then none else some q }
    let s := setSvcState (s.modSeqq q fun x => { x with start := true }) q .starting
    if qs.any fun k => (s.cfgQ k).aborted then svcOff s q stFlushed else startPlans s q
/-- A step of the service runs. -/
def midStep (s : State) (l : Nat) : Bool := (s.service l).stepping
/-- SEQ_CTL.STOP: at the next step boundary, which a HALTED service comes to once it is SERVING again, or at once where no step runs (R379, Table 12-9). -/
def svcStop (s : State) (q : Nat) : State :=
  if (s.service q).state = .off then s
  else if midStep s q || decide ((s.service q).state = .halted) then (s.modSvc q fun v => { v with stopping := true }).modSeqq q fun x => { x with stop := true }
  else svcOff s q stFlushed
/-- SEQ_CTL.DRAIN: DRAINING, its pending requests FLUSHED; OFF once no seat is busy (Table 12-9). -/
def svcDrain (s : State) (q : Nat) : State :=
  if (s.service q).state ≠ .serving then s
  else
    let s := setSvcState (s.modSeqq q fun x => { x with drain := true }) q .draining
    let s := forEach (s.service q).pending s fun s r => endReq s q r stFlushed
    if (s.service q).seated.isEmpty && !midStep s q then svcOff s q stFlushed else s

/-! Sampling (R384). -/

/-- Fields of a parameter record (Table 12-3). -/
def pTemp (p : BitVec 1024) : Word := p.extractLsb' 0 32
def pTopP (p : BitVec 1024) : Word := p.extractLsb' 32 32
def pTopK (p : BitVec 1024) : Nat := fld p 64 16
def pRepWindow (p : BitVec 1024) : Nat := fld p 80 16
def pRepPen (p : BitVec 1024) : Word := p.extractLsb' 96 32
def pStopCount (p : BitVec 1024) : Nat := fld p 128 8
def pStopLen (p : BitVec 1024) (k : Nat) : Nat := fld p (136 + 8 * k) 8
def pStop (p : BitVec 1024) (k i : Nat) : Word := p.extractLsb' (256 + 192 * k + 32 * i) 32
/-- An FP32 number, neither NaN nor infinite. -/
def finite (w : Word) : Bool := !(fpIsNan w || fpIsInf w)
/-- The record lies in the ranges of Table 12-3: TEMP at least 0, TOP_P in (0, 1], REP_PEN at least 1.0, all finite, STOP_COUNT to 4, lengths 1 to 6. -/
def paramsOk (p : BitVec 1024) : Bool :=
  finite (pTemp p) && decide (0 ≤ fpNum (pTemp p)) && finite (pTopP p) && decide (0 < fpNum (pTopP p) ∧ fpNum (pTopP p) ≤ fpNum fpOne) &&
    finite (pRepPen p) && decide (fpNum fpOne ≤ fpNum (pRepPen p)) && decide (pStopCount p ≤ 4) &&
    (upto (pStopCount p)).all fun k => decide (1 ≤ pStopLen p k ∧ pStopLen p k ≤ 6)
/-- A 32-bit word of KS[q] at a byte address. -/
def ksWord (s : State) (q a : Nat) : Word := ((s.kst q).mem.read (a / 64)).extractLsb' (8 * (a % 64)) 32
/-- The C candidates of the k-th request of its group: token IDs and logits, as the last quarter's graph wrote them. -/
def candidates (s : State) (v : Svc) (k : Nat) : List (Word × Word) :=
  let q := ((maskQuarters v.qmask).getLast?).getD 0
  let c := tCandidates v.table
  (upto c).map fun i =>
    let a := Config.candAddr (tCandRow v.table q) c k i
    (ksWord s q a.1, ksWord s q a.2)
/-- Token at a position of a request: of its prompt, or generated. -/
def tokenAt (s : State) (r : Req) (i : Nat) : Word :=
  if i < r.promptLen then BitVec.ofNat 32 (readNat s.host (r.prompt.toNat + 4 * i) 4) else nth 0 r.gen (i - r.promptLen)
/-- Positions a request has: prompt and generated tokens. -/
def positions (r : Req) : Nat := r.promptLen + r.gen.length
/-- Insert by descending logit, the lower ID first among equals. -/
def insCand (c : Word × Word) : List (Word × Word) → List (Word × Word)
  | [] => [c]
  | d :: ds =>
    if fpNum d.2 < fpNum c.2 ∨ (fpNum d.2 = fpNum c.2 ∧ c.1.toNat < d.1.toNat) then c :: d :: ds else d :: insCand c ds
/-- The repetition penalty on a logit. -/
def penalise (pen l : Word) : Word := if 0 < fpNum l then (fpOp2 fpDivCore l pen).v else (fpMul l pen).v
/-- Running sums of FP32 values. -/
def runSums (ps : List Word) : List Word :=
  (ps.foldl (fun (acc : List Word × Word) p => let t := (fpAdd acc.2 p).v; (acc.1 ++ [t], t)) ([], 0)).1
/-- u of the sampler at a position: bits 63:40 of the generator over 2^24. -/
def sampleU (seed : BitVec 64) (pos : Nat) : Word :=
  (fpRound false (fld (genWord seed (BitVec.ofNat 64 (pos * 2 ^ 32 + 0xFFF * 2 ^ 20))) 40 24) (-24)).v
/-- The token of a request from its candidates (R384). -/
def pickToken (s : State) (r : Req) (cs : List (Word × Word)) : Word :=
  let p := r.params
  let recent := ((upto (positions r)).drop (positions r - pRepWindow p)).map (tokenAt s r)
  let cs := (cs.map fun c => if recent.contains c.1 then (c.1, penalise (pRepPen p) c.2) else c).foldr insCand []
  if fpNum (pTemp p) = 0 then (nth (0, 0) cs 0).1
  else
    let k := if 0 < pTopK p then min (pTopK p) cs.length else cs.length
    let l0 := (nth (0, 0) cs 0).2
    let sums := runSums ((cs.take k).map fun c =>
      (stage4Fn 1 (fpOp2 fpDivCore (fpAdd c.2 (l0 ^^^ 0x80000000)).v (pTemp p)).v).v)
    let lim := (fpMul (pTopP p) (nth 0 sums (k - 1))).v
    let m := ((upto k).find? fun i => decide (fpNum lim ≤ fpNum (nth 0 sums i))).getD (k - 1) + 1
    let x := (fpMul (sampleU r.seed (positions r)) (nth 0 sums (m - 1))).v
    (nth (0, 0) cs (((upto m).find? fun i => decide (fpNum x < fpNum (nth 0 sums i))).getD (m - 1))).1
/-- The first stop of R385 after the last token written: its status, 0 none. -/
def stopOf (t : BitVec 1536) (r : Req) : Nat :=
  let p := r.params
  let ends (k : Nat) : Bool :=
    let n := pStopLen p k
    decide (1 ≤ n ∧ n ≤ r.gen.length) && r.gen.drop (r.gen.length - n) == (upto n).map (pStop p k)
  if tEndStop t && r.gen.getLast? == some (BitVec.ofNat 32 (tEndToken t)) then 1
  else if (upto (pStopCount p)).any ends then 2
  else if r.maxNew ≤ r.gen.length then 3
  else if tMaxContext t ≤ positions r then 4
  else 0

/-! Seats and page sets (R380, R382). -/

def modReq (s : State) (l seq : Nat) (f : Req → Req) : State :=
  s.modSvc l fun v => { v with seated := v.seated.map fun r => if r.seq = seq then f r else r }
def findReq (s : State) (l seq : Nat) : Option Req := (s.service l).seated.find? fun r => r.seq == seq
/-- A page set in every spanned quarter, if each has one. -/
def allocSet (s : State) (l seq : Nat) : Option State :=
  let qs := maskQuarters (s.service l).qmask
  if qs.any fun q => (sget [] (s.service l).free q).isEmpty then none
  else some (forEach qs s fun s q =>
    match sget [] (s.service l).free q with
    | p :: ps => modReq (setFree s l q ps) l seq fun r => { r with sets := r.sets ++ [(q, p)] }
    | [] => s)
/-- The admitted request with the latest DEADLINE, the last admitted among equals. -/
def latest (rs : List Req) : Option Req :=
  rs.foldl (fun m r => match m with
    | some x => if x.deadline.toNat ≤ r.deadline.toNat then some r else some x
    | none => some r) none
/-- REQUEUE: a request gives up its page sets and returns to the pending pool, its generated tokens appended to its prompt. -/
def requeue (s : State) (l : Nat) (r : Req) : State :=
  (freeSets s l r).modSvc l fun v =>
    { v with seated := v.seated.filter (fun x => x.seq != r.seq),
             pending := v.pending ++ [{ r with sets := [], fed := 0, feeding := 0, extra := r.gen.length }] }
/-- A page set for request `seq` under KV_POLICY; whether it has one, and the state (R382). -/
def allocOr (s : State) (l seq : Nat) : Nat → Bool × State
  | 0 => (false, s)
  | fuel + 1 =>
    match findReq s l seq with
    | none => (false, s)
    | some r =>
      match allocSet s l seq with
      | some s => (true, s)
      | none =>
        match tKvPolicy (s.service l).table with
        | 0 => (false, s)
        | 1 => match latest (s.service l).seated with
          | some x => allocOr (requeue s l x) l seq fuel
          | none => (false, s)
        | _ => (false, endReq s l r stKvFull)
/-- A position starts a page set. -/
def startsSet (v : Svc) (pos : Nat) : Bool := pos % tPageTokens v.table == 0
/-- Feed up to n positions of a request from `pos`, until a page set is wanting: how many, and the state. -/
def feedPos (s : State) (l seq pos : Nat) : Nat → Nat × State
  | 0 => (0, s)
  | n + 1 =>
    let (ok, s) := if startsSet (s.service l) pos then allocOr s l seq ((s.service l).seated.length + 1) else (true, s)
    if ok then
      let (k, s) := feedPos s l seq (pos + 1) n
      (k + 1, s)
    else (0, s)
/-- Seats of group g that are left. -/
def seatsLeft (s : State) (l g : Nat) : Nat :=
  tSeats (s.service l).table - (((s.service l).seated.filter fun r => r.group == some g).map reqSeats).sum
/-- A boundary being filled: the state, and whether requests may still be taken in. -/
structure Fill where
  s : State
  takes : Bool
/-- A decoding request of the group takes one seat, and feeds its last token if it can have the page set. -/
def fillDecode (l : Nat) (f : Fill) (seq : Nat) : Fill :=
  match findReq f.s l seq with
  | none => f
  | some r =>
    let (k, s) := feedPos f.s l seq (positions r - 1) 1
    ⟨modReq s l seq fun r => { r with feeding := k }, f.takes && k == 1⟩
/-- A request of the group still in prefill takes up to PREFILL_CHUNK seats. -/
def fillPrefill (l g : Nat) (f : Fill) (seq : Nat) : Fill :=
  match findReq f.s l seq with
  | none => f
  | some r =>
    let want := min (min (tChunk (f.s.service l).table) (promptTotal r - r.fed)) (seatsLeft f.s l g)
    let (k, s) := feedPos f.s l seq r.fed want
    ⟨modReq s l seq fun r => { r with feeding := k, fed := r.fed + k }, f.takes && k == want⟩
/-- Page sets that the first n positions start. -/
def setsFor (v : Svc) (n : Nat) : Nat := ((upto n).filter (startsSet v)).length
/-- Admit a pending request to group g while seats remain; under HOLD only if its page sets can all be had. -/
def fillAdmit (l g : Nat) (f : Fill) (r : Req) : Fill :=
  let v := f.s.service l
  let want := min (min (tChunk v.table) (promptTotal r)) (seatsLeft f.s l g)
  let lack := (maskQuarters v.qmask).any fun q => (sget [] v.free q).length < setsFor v want
  if seatsLeft f.s l g = 0 || !f.takes then f
  else if tKvPolicy v.table = 0 && lack then { f with takes := false }
  else
    let r := { r with group := some g, tStart := if r.group.isNone then f.s.clk.count else r.tStart }
    let s := f.s.modSvc l fun v => { v with pending := v.pending.filter (fun x => x.seq != r.seq), seated := v.seated ++ [r] }
    fillPrefill l g ⟨admitHint s r.queue r.seq, true⟩ r.seq
/-- Insert by ascending DEADLINE, and among equals by fetch order. -/
def insDeadline (r : Req) : List Req → List Req
  | [] => [r]
  | x :: xs =>
    if r.deadline.toNat < x.deadline.toNat ∨ (r.deadline = x.deadline ∧ r.seq < x.seq) then r :: x :: xs else x :: insDeadline r xs
/-- Pending requests by ascending DEADLINE, then fetch order. -/
def byDeadline (rs : List Req) : List Req := rs.foldl (fun l r => insDeadline r l) []
/-- Fill the SEATS of group g (R380). -/
def fillSeats (s : State) (l g : Nat) : State :=
  let mine := (s.service l).seated.filter fun r => r.group == some g
  let s := s.modSvc l fun v => { v with seated := v.seated.map fun r => if r.group = some g then { r with feeding := 0 } else r }
  let f : Fill := ⟨s, decide ((s.service l).state = .serving)⟩
  let f := (mine.filter decoding).foldl (fun f r => fillDecode l f r.seq) f
  let f := (mine.filter fun r => !decoding r).foldl (fun f r => fillPrefill l g f r.seq) f
  let hold := tKvPolicy (s.service l).table = 0
  let f := { f with takes := (f.takes || !hold) && decide ((s.service l).state = .serving) }
  (byDeadline (f.s.service l).pending |>.foldl (fillAdmit l g) f).s

/-! The step cycle (R380). -/

/-- Sample one request of the group that has fed its last position: its token is written, stops are checked, a partial entry is posted when due (R384 to R386); a request that stops joins those that have finished, with its status. A record out of its ranges, or candidates that cannot be read or are no numbers, leave the token free (log 47). -/
def sampleReq (l : Nat) (x : List (Req × Nat) × State) (kr : Nat × Req) : List (Req × Nat) × State :=
  let (fin, s) := x
  let r := kr.2
  if !decoding r || r.feeding = 0 || r.dropped then (fin, s)
  else
    let v := s.service l
    let q := ((maskQuarters v.qmask).getLast?).getD 0
    let (t, s) := match paramsOk r.params, seqRead s q (tCandRow v.table q) 1 with
      | true, (some _, s) =>
        let cs := candidates s v kr.1
        if cs.all fun c => finite c.2 then (pickToken s r cs, s) else s.takeFree 32
      | _, (_, s) => s.takeFree 32
    let s := hostWrite s (r.out.toNat + 4 * r.gen.length) 4 t.toNat
    let r := { r with gen := r.gen ++ [t] }
    let s := modReq s l r.seq fun x => { x with gen := r.gen }
    match stopOf (s.service l).table r with
    | 0 => (fin, if r.streamEvery ≠ 0 && r.gen.length % r.streamEvery == 0 then reqCompl s r stPartial true else s)
    | st => (fin ++ [(r, st)], s)
/-- SET_TARGET with CLEAR on a step piton, a PITON packet of a control core of lead quarter l (R258); its TARGET, NO_TARGET and REMOTE are free values: the spec does not give them (log 32). -/
def restartPiton (l : Nat) (s : State) (i : Nat) : State :=
  let (f, s) := s.takeFree 34
  sendPitonOp s l 2 (Config.coreId l).toNat i 1 (1 + 2 * fld f 33 1 + 4 * fld f 32 1) (fld f 0 32)
/-- The step pitons of every spanned quarter are restarted. -/
def restartPitons (s : State) (l : Nat) : State :=
  let v := s.service l
  forEach ((maskQuarters v.qmask).flatMap (stepPitons v.table)) s (restartPiton l)
/-- FENCED that was released to the streamers of the given quarters has been dealt with. -/
def clearFenced (s : State) (qs : List Nat) : State := forEach qs s fun s q => s.modCfg q fun c => { c with fenced := false, fencedBy := 0 }
/-- The step record of a quarter, whose contents the spec does not give; its row is part of a line, so the line is read first (R187). -/
def writeStepRecord (s : State) (l q : Nat) : State :=
  let (r, s) := s.takeFree 512
  let (e, s) := freeRead s
  (ksWrite s q (tStepRow (s.service l).table q) [r] false e).2
/-- Start step n on every spanned quarter. -/
def startStep (s : State) (l n : Nat) : State :=
  let qs := maskQuarters (s.service l).qmask
  let s := restartPitons (forEach qs (clearFenced s qs) fun s q => writeStepRecord s l q) l
  let s := s.modSvc l fun v => { v with stepNo := n, stepping := true, stepStart := s.tick, stepTick := s.tick, timedOut := false }
  forEach qs s fun s q => (s.modSeqq q fun x => { x with steps := x.steps + 1 }).modQuarter q fun x => { x with replays := 0, dataLost := false }
/-- A quarter's work at its step boundary: the CROSSING_FENCED halt, for a crossing fenced since the last one, and the quiesce that are due (R24, R359). -/
def quarterBoundary (s : State) (q : Nat) : State :=
  let s := match (if s.quarterRuns q then (s.quarter q).crossDue.or (fencedCrossing s q) else none) with
    | some z => event (haltQuarter (s.modQuarter q fun x => { x with crossDue := none }) q) 0x0007 (some q) z
    | none => s
  quiesceIfDue s q
/-- The step has ended on every spanned quarter. -/
def stepDone (s : State) (l : Nat) : Bool :=
  let v := s.service l
  !v.stepping || (maskQuarters v.qmask).all (stepEnded s v)
/-- FENCED has been released to the streamer of a spanned quarter. -/
def streamerFenced (s : State) (l : Nat) : Bool := (maskQuarters (s.service l).qmask).any fun q => (s.cfgQ q).fenced
/-- A step piton was fenced, or FENCED released to a streamer: the step is faulted (R268). -/
def stepFenced (s : State) (l : Nat) : Bool :=
  let v := s.service l
  v.stepping && (streamerFenced s l || (maskQuarters v.qmask).any fun q => (stepPitons v.table q).any fun i => (s.piton i).fenced)
/-- Quarters in reset whose fences have faulted the step (R422, log 151). -/
def stepFencedBy (s : State) (l : Nat) : BitVec 4 :=
  let v := s.service l
  (maskQuarters v.qmask).foldl (fun m q => (stepPitons v.table q).foldl (fun m i => m ||| (s.piton i).fencedBy) (m ||| (s.cfgQ q).fencedBy)) 0
/-- The boundary proper, once no quarter halts (R380). -/
def runBoundary (s : State) (l : Nat) : State :=
  let v := s.service l
  let n := if v.stepping then v.stepNo + 1 else v.stepNo
  let g := n % tGroups v.table
  let (fin, s) := ((v.seated.filter fun r => r.group == some g).zipIdx.map fun x => (x.2, x.1)).foldl (sampleReq l) ([], s)
  let s := forEach fin s fun s x => endReq s l x.1 x.2
  let s := forEach ((s.service l).seated.filter Req.dropped) s fun s r => endReq s l r stFlushed
  let s := forEach ((s.service l).pending.filter fun r => r.group.isNone && decide (r.deadline.toNat < s.clk.count.toNat)) s fun s r =>
    endReq s l r stDeadline
  if (s.service l).state = .draining && (s.service l).seated.isEmpty then svcOff s l stFlushed
  else startStep (fillSeats s l g) l n
/-- STEP_BOUNDARY: on the lead quarter, once the step has ended on every spanned quarter and its faults are handled: halts that are due, STOP, then the boundary of R380; on another quarter, the halts that are due. A step one of whose pitons was fenced waits for its replay (R268). -/
def execStepBoundary (q : Fin 4) (s : State) : Host.Outcome State Fault Refusal :=
  .next <|
    let l := q.val
    let v := s.service l
    let qs := maskQuarters v.qmask
    match v.state with
    | .off => if atBoundary s q && !quarterFaulty s q && !(s.quarter q).inReset then quarterBoundary s q else s
    | .starting => startPlans s l
    | .halted => s
    | _ =>
      if !stepDone s l || qs.any (fun k => quarterFaulty s k || s.quarterStopped k) then s
      else
        let s := forEach qs s quarterBoundary
        if qs.any fun k => s.quarterStopped k then s
        else if v.stopping then svcOff s l stFlushed
        else if stepFenced s l then s
        else runBoundary s l

end Sys2Proof.Machine
end

