-- ==== Sys2Proof/Machine/Faults.lean ====
section
/-! DEFINITION. Handling faults (R408 to R422): fences, spare steering, replays, step timeouts (R381), stack failure, lifetime counters (R427), field records (R428), and the rows UNIT_FAULT_REPORT, FAULT_HALT, STEERING_COMPLETE, STEP_REPLAY, STEP_TIMEOUT, STACK_DEAD_TIMEOUT, LIFETIME_COUNTER_WRITE. -/

namespace Sys2Proof.Machine

/-! Available resources (R418, Table 14-14). -/

/-- Logical columns of a zone with a unit behind them. -/
def backedCols (w : Word) : Nat := ((upto 16).filter (backedCol w)).length
/-- FLT_AVAIL[q]. -/
def availWord (s : State) (q : Nat) : Word :=
  let ws := (zonesOf q).map s.fenceWord
  let cols := (ws.map backedCols).sum
  BitVec.ofNat 32 ((ws.filter fun w => !fenceOut w).length * 2 ^ 28 + 3 * cols * 2 ^ 16 + 9 * cols)
/-- Quarter q has a position without a unit behind it. -/
def hasUnbacked (s : State) (q : Nat) : Bool := (zonesOf q).any fun z => decide (backedCols (s.fenceWord z) < 16)
/-- FLT_AVAIL and UNBACKED follow the fence map. -/
def updAvail (s : State) (q : Nat) : State :=
  s.modQuarter q fun x => { x with avail := availWord s q, unbacked := hasUnbacked s q }
/-- Why a quarter found with an unbacked position, or without its work stack, is DEGRADED (R418). -/
def degradeIfUnbacked (s : State) (q : Nat) : State :=
  let s := updAvail s q
  let out := (zonesOf q).any fun z => fenceOut (s.fenceWord z)
  let s := if hasUnbacked s q then degrade s q (if out then 2 else 1) else s
  if bit s.flt.fenceStk (8 + q) then degrade s q 3 else s

/-! Fencing (R413, R414). -/

/-- A zone's fence word changes: it is persisted, FLT_SUMMARY.FENCE set and FENCE_CHANGE posted, with DATA 0, where none is given (Table 12-6), and a free ARG, which the spec does not give for it (log 33). -/
def changeFence (s : State) (z : Nat) (w : Word) : State :=
  let s := setSummary (pstWrite (s.setFence z w) z w) sumFence
  let (f, s) := s.takeFree 32
  updAvail (event s 0x0003 (some (z / 12)) f.toNat) (z / 12)

/-! Spare steering (R143, R415). -/

/-- Tokens and credits of a channel that stand in its belay buffers. -/
def inBelay (s : State) (lu p : Nat) : Nat :=
  (((chanBelay lu p).toList ++ (creditBelay lu p).toList).map fun k =>
    ((s.belay k).slots.map fun l => (l.filter fun t => t.1 == 16 * lu + p).length).sum).sum
/-- An input port of a blanked unit: its producer-end generation is kept, and what its belay crossing holds (R415). -/
def blankPort (s : State) (lu p : Nat) : State :=
  let n := inBelay s lu p
  s.modChan lu p fun c => { Chan.init with gen := c.gen, marked := c.marked, spent := n }
/-- The unit that takes over a logical unit: blank, of the generation that its configuration will have, its pockets empty, its items 0; an MU keeps the context active at the halt and has its SRAM moved in, undefined where the old MU is the one fenced (R143, R415). -/
def takeOver (old : UnitSt) (mu lost : Bool) (epoch : Nat) : UnitSt :=
  let x := { UnitSt.blank with gen := old.gen }
  if mu then { x with mu := { Mu.init with ctx := old.mu.ctx, sram := if lost then RowMem.lose epoch else old.mu.sram } } else x
/-- Spare steering of zone z from column c: every later column's units move one column east, and stand blank until their configurations come. `bad` are the MUs fenced for their faults, whose SRAM is lost (R143). -/
def steerZone (s : State) (z c : Nat) (bad : List Nat) : State :=
  let old := s
  let s := { s with free := s.free + 1 }
  let s := forEach ((upto 16).filter (c ≤ ·)) s fun s k => forEach (upto 12) s fun s j =>
    let u := 204 * z + 12 * k + j
    let s := s.modUnit (u + 12) fun _ => takeOver (old.unit u) (isMuRow j) (bad.contains u) old.free
    forEach (upto 9) s fun s p => blankPort s (luAt z k j) p
  let s := forEach (upto 12) s fun s j => s.modUnit (204 * z + 12 * c + j) fun _ => UnitSt.blank
  s.modQuarter (z / 12) fun x => { x with steering := x.steering ++ [(z, s.tick)] }

/-- The configuration in the plan entry at e, read once more for quarter q; whether host or stack answer, and what the stack's code shows, is a free value. -/
def readAgain (s : State) (q : Nat) (e : Bool × Nat) : Option UnitCfg × State :=
  let (r, s) := freeRead s
  if e.1 then (if r = .uncorrectable then none else some (entryCfg (planRows s q true e.2)), s)
  else
    let (rows, s) := ksRead s q (e.2 / 64) 33 r
    (rows.map entryCfg, s)
/-- The staging path brings a logical unit that has moved the configuration of its current generation, from the plan entry that delivered it, checked as R162 has it; where the entry cannot be read the unit stays blank (R415, log 144). -/
def deliverAgain (s : State) (q lu : Nat) : State :=
  match s.phys lu, sget none s.entryOf lu with
  | some u, some e =>
    match readAgain s q e with
    | (some cfg, s) =>
      if unitCfgOk (isMu u) lu (s.unit u).gen cfg then
        refill { s.modUnit u (fun x => { x with cfg := cfg, loaded := true }) with cfgOf := sset 0 s.cfgOf lu cfg } u
      else unitFault s u cConfig 0
    | (none, s) => s
  | _, _ => s
/-- Every logical unit that a moved column of zone z serves gets its configuration (R415). -/
def deliverZone (s : State) (z : Nat) : State :=
  forEach ((upto 16).filter (fenceShift (s.fenceWord z) ≤ ·)) s fun s k => forEach (upto 12) s fun s j =>
    deliverAgain s (z / 12) (luAt z k j)

/-! Handling a step's faults (R410, R412). -/

/-- The most severe action of a step's faults (R412). -/
def worstAction (x : Quarter) : Action := (x.faults.map PendFault.action).foldl worse .count
/-- A quarter whose halt only a reset ends: its service goes OFF with FAULT, and so does a RUN_GRAPH on it. -/
def endQuarter (s : State) (q : Nat) : State :=
  let s := s.modQuarter q fun x => { x with lockHalt := true, replay := none }
  let s := match serviceOf s q with
    | some l => svcOff s l stFault
    | none => s
  match graphOn s q with
  | some n => finishRun s n stFault 0
  | none => s
/-- The quarter runs a step that a replay repeats. -/
def hasStep (s : State) (q : Nat) : Bool :=
  (match serviceOf s q with | some l => (s.service l).stepping | none => false) || (graphOn s q).isSome
/-- Fence every zone with STEER faults; whether some logical column became unbacked. -/
def fenceAll (s : State) (q : Nat) (fs : List PendFault) : Bool × State :=
  (zonesOf q).foldl (fun (d, s) z =>
    match steerCols fs z with
    | [] => (d, s)
    | cols =>
      let r := fenceMany (s.fenceWord z) cols
      (d || r.2, changeFence s z r.1)) (false, s)
/-- Steer every zone with STEER faults. -/
def steerAll (s : State) (q : Nat) (fs : List PendFault) : State :=
  forEach (zonesOf q) s fun s z =>
    match steerCols fs z with
    | c :: _ => steerZone s z c (fs.filterMap fun f => if bit f.cause 3 then f.unit else none)
    | [] => s
/-- A chanter that took COAST is reset and started at the region's current code (R295). -/
def restartCoasting (s : State) (fs : List PendFault) : State :=
  forEach fs s fun s f =>
    if f.isZone && f.cause == 4 then
      let coasts := (s.chanter f.zone).state == .coasting
      (startChanter (resetChanter s f.zone) f.zone s.clk.code).modChanter f.zone fun c => { c with relock := coasts }
    else s
/-- Ask for the replay of the step, once aligned. -/
def askReplay (s : State) (q reason : Nat) : State :=
  let r := if hasStep s q then some (BitVec.ofNat 8 reason) else none
  s.modQuarter q fun x => { x with replay := r }
/-- FAULT_HALT: at the step boundary, or in a halt, the quarter takes the most severe action among the step's faults (Table 14-3); a quiesce due at the same boundary follows (Table 14-6). -/
def execFaultHalt (q : Fin 4) (s : State) : Host.Outcome State Fault Refusal :=
  .next <|
    let x := s.quarter q
    let fs := x.faults
    if fs.isEmpty || x.inReset || unreported s q || !(atBoundary s q || quarterHalted s q) then s
    else
      let act := worstAction x
      let lost := fs.any fun f => !f.isZone && bit f.cause 4
      let s := haltQuarter (s.modQuarter q fun x => { x with faults := [], dataLost := x.dataLost || lost }) q
      let s :=
        match act with
        | .count => s
        | .replay => requestAlign (restartCoasting (askReplay s q (if fs.any fun f => !f.isZone then 0 else 1)) fs) q false
        | .steer | .degrade =>
          let (d, s) := fenceAll s q fs
          if d then endQuarter (degrade s q 1) q
          else restartCoasting (steerAll (askReplay s q 0) q fs) fs
        | .stop | .reset => endQuarter s q
      quiesceIfDue s q
/-- Zone cycles in which spare steering moves an MU's SRAM (R143). -/
def steerCycles : Nat := 8192 + 4
/-- The SRAM move that began at tick t is over: a zone cycle takes 512 / CODE drone ticks (R143). -/
def steerOver (s : State) (z t : Nat) : Bool := decide (steerCycles * 512 ≤ (s.tick - t) * (s.chanter z).code.toNat)
/-- The zone router releases what it holds for units of zone z, in arrival order over all of them (R237). -/
def releaseHeld (s : State) (z : Nat) : State :=
  forEach (s.fab.pkts.filter fun p => match p.loc with | .unit lu => zoneOf lu == z | _ => false) s fun s p =>
    match p.loc with
    | .unit lu => if oldestAt s p then deliverUnit s p lu else s
    | _ => s
/-- STEERING_COMPLETE: the moved units have their configurations, the zone router releases its held deliveries, and SPARE_STEERED is posted with its duration in drone ticks; once no zone of the quarter is steering, the quarter is aligned (R237, R415). -/
def execSteeringComplete (z : Fin 48) (s : State) : Host.Outcome State Fault Refusal :=
  .next <|
    let q := z.val / 12
    match (s.quarter q).steering.find? fun x => x.1 == z.val with
    | none => s
    | some (_, t) => if !steerOver s z t then s else
      let s := releaseHeld (deliverZone s z |>.modQuarter q fun x => { x with steering := x.steering.filter fun y => y.1 != z.val }) z
      let s := event s 0x0004 (some q) (s.tick - t)
      if (s.quarter q).steering.isEmpty then requestAlign s q false else s

/-! Replays (R268, R417). -/

/-- DATA of STEP_REPLAYED (Table 14-5). -/
def replayData (s : State) (reason attempt : Nat) : BitVec 128 :=
  BitVec.ofNat 128 (reason + attempt * 256 + s.clk.count.toNat * 2 ^ 32)
/-- The group that a step works on in quarter q: (n - r) mod GROUPS, r the quarter's rank. -/
def stepGroup (v : Svc) (q : Nat) : Nat :=
  let r := ((maskQuarters v.qmask).filter (· < q)).length
  let g := tGroups v.table
  (v.stepNo + (g - r % g)) % g
/-- Requests that a replayed step carries are flagged REPLAYED (R373). -/
def flagReplayed (s : State) (l : Nat) (f : Nat → Bool) : State :=
  s.modSvc l fun v => { v with stepTick := s.tick, seated := v.seated.map fun r =>
    if r.feeding != 0 && (match r.group with | some g => f g | none => false) then { r with replayed := true } else r }
/-- Enabled replay windows of quarter q's logical MUs, by logical number: the unit, first row, rows (R141). -/
def quarterWindows (s : State) (q : Nat) : List (Nat × Nat × Nat) :=
  (s.cfgOf.filter fun e => zoneOf e.1 / 12 == q && isMuRow (rowOf e.1)).flatMap fun e =>
    ((upto 4).filter fun d => muBoreEn e.2 (4 + d)).map fun d => (e.1, muBoreBase e.2 (4 + d), muBoreRows e.2 (4 + d))
/-- The MU behind a window has not been fenced since it was written: every row is held. -/
def windowHeld (s : State) (w : Nat × Nat × Nat) : Bool :=
  match s.phys w.1 with
  | some u =>
    let m := (s.unit u).mu.sram
    m.undef.isNone || (upto w.2.2).all fun i => m.since.contains (w.2.1 + i)
  | none => false
/-- The first copy of a window whose MU is not fenced (R142): copies are windows of the same rows, in order of logical number (log 114). -/
def firstCopy (s : State) (q : Nat) (w : Nat × Nat × Nat) : Option (Nat × Nat × Nat) :=
  (quarterWindows s q).find? fun x => x.2 == w.2 && windowHeld s x
/-- The rows of window w, read from copy x, come to stand where w is. -/
def copyWindow (s : State) (x w : Nat × Nat × Nat) : State :=
  match s.phys x.1, s.phys w.1 with
  | some a, some b =>
    s.modMu b fun m => { m with sram := (upto w.2.2).foldl (fun r i => r.write (w.2.1 + i) ((s.unit a).mu.sram.read (x.2.1 + i))) m.sram }
  | _, _ => s
/-- A replay takes every window from its first copy: an MU that has lost its own takes that one's rows (R43, R142, R417). -/
def restoreWindows (s : State) (q : Nat) : State :=
  let ws := quarterWindows s q
  let s' := forEach ws s fun t w => match firstCopy s q w with
    | some x => if windowHeld s w then t else copyWindow t x w
    | none => t
  s'.modQuarter q fun x => { x with replayFrom := (ws.filterMap fun w => (firstCopy s q w).map Prod.fst).dedup }
/-- Pitons that quarter q's streams have counted at in the step begun at tick t (R417). -/
def stepCounted (s : State) (q t : Nat) : List Nat :=
  (s.pitons.filter fun p => match sget none p.2.counted q with | some c => decide (t ≤ c) | none => false).map Prod.fst
/-- The pitons that a replay of service l's step on quarter q restarts: the quarter's step pitons, and every piton that its streams count (R268, R417, log 128). -/
def replayPitons (s : State) (l q : Nat) : List Nat :=
  stepPitons (s.service l).table q ++ stepCounted s q (s.service l).stepStart
/-- A replay restarts pitons, each once. -/
def restartStep (s : State) (l : Nat) (is : List Nat) : State := forEach is.dedup s (restartPiton l)
/-- The step of a service is replayed on quarter q (R417). -/
def replayService (s : State) (l q reason : Nat) : State :=
  let v := s.service l
  let s := restoreWindows (restartStep (clearFenced s [q]) l (replayPitons s l q)) q
  let n := (s.quarter q).replays + 1
  let s := s.modQuarter q fun x => { x with halted := false, replay := none, replays := n }
  let s := flagReplayed s l fun g => g == stepGroup v q
  let s := lifeInc (event s 0x0005 (some q) v.stepNo (replayData s reason n)) lifeReplays
  let s := if reason = 3 then s.modSvc l fun v => { v with timedOut := true } else s
  if v.state = .halted ∧ (maskQuarters v.qmask).all (fun k => !s.quarterStopped k) then setSvcState s l .serving else s
/-- The RUN_GRAPH of quarter q is run again. -/
def replayGraph (s : State) (n q reason : Nat) : State :=
  let k := (s.quarter q).replays + 1
  let t := match (s.queue n).run with | some x => x.tick | none => s.tick
  let done := match (s.queue n).run with | some x => dBytes x.desc.row 32 4 % 2 ^ 17 | none => 2 ^ 17
  let s := restartStep s q ((stepCounted s q t).filter (· != done))
  let s := (restoreWindows s q).modQuarter q fun x => { x with halted := false, replay := none, replays := k }
  let s := s.modQueue n fun c => { c with run := c.run.map fun x => { x with replayed := true } }
  runGraphStart (lifeInc (event s 0x0005 (some q) 0xFFFFFFFF (replayData s reason k)) lifeReplays) n
/-- A quarter stands aligned and released, its schedule counting since (R315), its replay waiting. -/
def replayReady (s : State) (q : Nat) : Bool :=
  let x := s.quarter q
  x.halted && !x.lockHalt && !x.inReset && x.steering.isEmpty && !quarterFaulty s q && bit s.str.aligned q && (sget AlignRec.init s.str.al q).phase == 0 && !bit s.pwr.quiesced q &&
    (zonesOf q).all fun z => fenceOut (s.fenceWord z) || (s.zone z).running
/-- A step faulted by a fence is replayed as a whole, once no quarter is in reset; a quarter that would replay it a third time takes STOP (R268, R412, Table 14-6). -/
def replayFenced (s : State) (l : Nat) : State :=
  let v := s.service l
  let qs := maskQuarters v.qmask
  let n := (qs.map fun k => (s.quarter k).replays).foldl max 0
  if 2 ≤ n then forEach (qs.filter fun k => decide (2 ≤ (s.quarter k).replays)) s fun s k => endQuarter (haltQuarter s k) k
  else
    let s := forEach qs (restartStep (clearFenced s qs) l (qs.flatMap (replayPitons s l))) restoreWindows
    let s := forEach qs s fun s k => s.modQuarter k fun x => { x with replays := x.replays + 1 }
    let s := flagReplayed s l fun _ => true
    lifeInc (event s 0x0005 (some l) v.stepNo (replayData s 2 (n + 1))) lifeReplays
/-- STEP_REPLAY: an aligned quarter replays its step, the service returning to SERVING when every quarter's replay has started; or the lead replays a step that was fenced, once the quarters in reset whose fences did it have left their resets, which one that bring-up has given up never does (R391, R422). -/
def execStepReplay (q : Fin 4) (s : State) : Host.Outcome State Fault Refusal :=
  .next <|
    match (s.quarter q).replay with
    | some r =>
      if !replayReady s q then s
      else match serviceOf s q, graphOn s q with
        | some l, _ => replayService s l q r.toNat
        | none, some n => replayGraph s n q r.toNat
        | none, none => s.modQuarter q fun x => { x with halted := false, replay := none }
    | none =>
      let v := s.service q
      if (v.state = .serving ∨ v.state = .draining) && stepFenced s q && (stepDone s q || streamerFenced s q) && !((upto 4).any fun k => (s.quarter k).inReset && bit (stepFencedBy s q) k) &&
          !((maskQuarters v.qmask).any fun k => s.quarterStopped k || quarterFaulty s k) then
        replayFenced s q
      else s

/-- STEP_TIMEOUT: the step has not ended STEP_LIMIT µs after it started: the service is HALTED with its quarters, their pitons are cleared, and the step is replayed once; a replay that passes STEP_LIMIT too takes the service OFF (R381), and so does a step that has been replayed twice for its faults (R412, log 143). -/
def execStepTimeout (q : Fin 4) (s : State) : Host.Outcome State Fault Refusal :=
  .next <|
    let l := q.val
    let v := s.service l
    let qs := maskQuarters v.qmask
    if !(v.state = .serving ∨ v.state = .draining) || stepDone s l || !decide (v.stepTick + us (tStepLimit v.table) ≤ s.tick) then s
    else if v.timedOut then svcOff s l stStepTimeout
    else
      let s := event s 0x0050 (some l) v.stepNo
      let s := (s.spill (rcKey (0x50018 + 0x40 * l) 0) (s.seqq l).timeouts).modSeqq l fun x => { x with timeouts := satInc x.timeouts }
      let s := setSvcState (s.modSeqq l fun x => { x with drain := false }) l .halted
      let s := forEach qs s fun s k => clearPitons (haltQuarter s k) k
      if qs.any fun k => decide (2 ≤ (s.quarter k).replays) then
        svcOff (forEach qs s fun s k => s.modQuarter k fun x => { x with lockHalt := true }) l stStepTimeout
      else forEach qs s fun s k => requestAlign (s.modQuarter k fun x => { x with replay := some 3 }) k false

/-! Reports, stacks, counters, field records. -/

/-- UNIT_FAULT_REPORT: what a unit has detected, the oldest first, or a zone code of Table 14-2, reaches the zone's fault collector (R113, R146, R408). -/
def execUnitFaultReport (r : FaultReport) (s : State) : Host.Outcome State Fault Refusal :=
  .next <|
    match r with
    | .unit u =>
      match s.flt.detected.find? fun d => d.unit == u.val with
      | some d => recordUnit (s.modFlt fun f => { f with detected := f.detected.erase d }) d
      | none => s
    | .zone z code detail =>
      if (s.quarter (z / 12)).inReset || code == 0 || decide (7 < code.toNat) then s else recordZone s z code.toNat false detail
/-- The stack that a packet at the stack port of quarter q asks for (R223). -/
def portStack (q : Nat) (h : Row) : Nat := if hKind h = 1 then stackOf q (hAddr h / 2 ^ 62) else 8 + q
/-- A commit or a refresh works in stack st, or a commit reads its data from it. -/
def worksIn (s : State) (st : Nat) : Bool :=
  if st < 8 then (match (s.wst st).commit with | some _ => !(s.wst st).switchWait | none => false) ||
    (match (s.wst st).refresh with | some r => !r.copied | none => false)
  else [2 * (st - 8), 2 * (st - 8) + 1].any fun w => match leadCommit s w with | some c => c.src && !(s.wst w).switchWait | none => false
/-- A COPY in turn reads work stack q or writes it (R370). -/
def copyWorks (s : State) (q : Nat) : Bool :=
  s.cmdq.any fun c => match c.2.run, turnOf s c.1 with
    | none, some d => dType d.row == 5 && ((cpSrcKs d.row && cpSrcQ d.row == q) || (cpDst d.row == 1 && cpDstQ d.row == q))
    | _, _ => false
/-- A sequencer reads or writes work stack q: a service's table and plan lists as it starts, candidates and step records at a boundary that has come (R377, R380). -/
def sequencerWorks (s : State) (q : Nat) : Bool :=
  s.svc.any fun (l, v) =>
    bit v.qmask q &&
      ((v.state == .starting && (v.plansLeft.contains q || (l == q && !(s.seqq l).src))) ||
        ((v.state == .serving || v.state == .draining) && stepDone s l && !stepFenced s l &&
          !((maskQuarters v.qmask).any fun k => quarterFaulty s k || s.quarterStopped k)))
/-- A zone of quarter q that has been steered reads its units' configurations again from the work stack (R415). -/
def steeringWorks (s : State) (q : Nat) : Bool :=
  (s.quarter q).steering.any fun x => steerOver s x.1 x.2 &&
    s.entryOf.any fun e => zoneOf e.1 == x.1 && (match e.2 with | some (host, _) => !host | none => false)
/-- Work stands at stack st whose requests the state does not hold one by one. -/
def openWork (s : State) (st : Nat) : Bool :=
  worksIn s st || (decide (8 ≤ st) && (copyWorks s (st - 8) || sequencerWorks s (st - 8) || steeringWorks s (st - 8)))
/-- The tick since which such work has stood at each stack. -/
def tickAsks (s : State) : State :=
  { s with askSince := (upto 12).foldl (fun m st =>
      sset none m st (if openWork s st then (sget none m st).or (some s.tick) else none)) s.askSince }
/-- Such work has stood at stack st for 1 ms: whether one of its requests has gone unanswered so long, the event says (R421, log 99). -/
def longWork (s : State) (st : Nat) : Bool :=
  openWork s st && (match sget none s.askSince st with | some t => decide (t + msTicks ≤ s.tick) | none => false)
/-- A request to stack st has stood unanswered for 1 ms: a unit's run or store, a packet at the stack port, the streamer's next plan entry, or one of a commit, a refresh, a COPY, a sequencer or a steered zone. -/
def unanswered (s : State) (st : Nat) : Bool :=
  let late (t : Nat) : Bool := decide (t + msTicks ≤ s.tick)
  (s.units.any fun (u, x) => (x.mu.runs.any fun r => stackOf (physZone u / 12) r.stk.toNat == st && late r.since) ||
    (8 + physZone u / 12 == st && x.mu.stores.any fun e => late e.since)) ||
  (s.fab.pkts.any fun p => match p.loc with | .func q 0 => portStack q p.hdr == st && late p.since | _ => false) ||
  (decide (8 ≤ st) && (s.cfgQ (st - 8)).start && !(s.cfgQ (st - 8)).planSrc && decide ((s.cfgQ (st - 8)).taken < (s.cfgQ (st - 8)).planLen) &&
    late (s.cfgQ (st - 8)).asked) || longWork s st
/-- STACK_DEAD_TIMEOUT: the stack has left a request unanswered for 1 ms (R421). -/
def execStackDeadTimeout (st : Fin 12) (s : State) : Host.Outcome State Fault Refusal :=
  .next (if unanswered s st then failStack s st 1 else s)
/-- Energy of all quarters and the shared part, in kWh. -/
def totalKwh (s : State) : Nat := (((upto 5).map fun i => sget 0 s.pwr.energy i).sum / 3600000000000).floor.toNat
/-- LIFETIME_COUNTER_WRITE: an hour has passed; the counters that have changed are written (R427). -/
def execLifetimeCounterWrite (s : State) : Host.Outcome State Fault Refusal :=
  .next <|
    if s.tick < s.pst.lifeTick + hourTicks then s
    else
    let kwh := totalKwh s
    let s := s.modPst fun p =>
      { p with life := smod 0 (smod 0 (smod 0 p.life 0x080 (· + 1)) 0x089 (· + (kwh - p.kwh))) 0x08A (· + b2n p.hot), kwh := kwh,
               lifeTick := s.tick, hot := false }
    forEach [0x080, 0x083, 0x084, 0x085, 0x086, 0x087, 0x089, 0x08A] s fun s w =>
      let d := sget 0 s.pst.life w
      if d = 0 then s
      else
        let s := pstWrite s w (pstRead s w + BitVec.ofNat 32 d)
        s.modPst fun p => { p with life := sset 0 p.life w 0 }
/-- FLT_CTL.REARM[q]: clears DEGRADED, but for a quarter whose work stack is fenced (R419). -/
def rearmQ (s : State) (q : Nat) : State :=
  if bit s.flt.fenceStk (8 + q) then s else s.modQuarter q fun x => { x with degraded := false }
/-- FLT_CTL.CAPTURE: a field record is captured if none is held (R428); its trigger zone is a free value. -/
def captureNow (s : State) : State :=
  if s.flt.field.isSome then s
  else
    let (z, s) := s.takeFree 8
    captureField s 0 (z.toNat % 48)
/-- FLT_CTL.RELEASE: the held record is released. -/
def releaseField (s : State) : State := s.modFlt fun f => { f with field := none }

end Sys2Proof.Machine
end

