-- ==== Sys2Proof/Machine/Links.lean ====
section
/-! DEFINITION. The edge links (R246 to R254): frames, retry, quick retrains, full training, DOWN; the rows LINK_FRAME_RECEIVE, LINK_RESEND_TIMEOUT, QUICK_RETRAIN, QUICK_RETRAIN_END, PARTNER_DETECT. Acknowledgements and credits that the region owes leave in its next frame, at the next drone tick at the latest. -/

namespace Sys2Proof.Machine

/-! Frame control word (Table 7-12). -/

def cSeq (c : BitVec 64) : BitVec 12 := c.extractLsb' 52 12
def cAck (c : BitVec 64) : BitVec 12 := c.extractLsb' 40 12
def cNak (c : BitVec 64) : Bool := bit c 39
/-- FTYPE: 0 IDLE, 1 DATA, 2 TRAIN. -/
def cType (c : BitVec 64) : Nat := fld c 37 2
/-- MARK of flit k: [5] VALID, [4] HEAD, [3] TAIL, [2] TLAST, [1:0] VC. -/
def cMark (c : BitVec 64) (k : Nat) : BitVec 6 := c.extractLsb' (13 + 6 * k) 6
def cCvc (c : BitVec 64) : Nat := fld c 11 2
def cCredits (c : BitVec 64) : Nat := fld c 0 11

/-! Losing and starting a link. -/

/-- Offset of LNK_ERR of link n, whose counters are CRC_ERR, RETRAINS and LOST (R255). -/
def lnkErr (n : Nat) : Nat := 0x80008 + 0x10 * n
/-- Discard the replay buffer and what is partly sent, counted in LOST, and proxy each packet whose header is held but whose last flit is lacking (R253, R236). -/
def discardLink (s : State) (n : Nat) : State :=
  let l := s.link n
  let gone := l.replay.filterMap TxFrame.tail
  let s := (s.spill (rcKey (lnkErr n) 2) l.lost gone.length).modLink n fun l =>
    { l with lost := satAdd l.lost gone.length, replay := [], wire := l.wire.filter (fun p => !(gone.any fun g => g.id == p.id)), rx := [],
             spent := [], owed := [], held := smap 0 l.held (fun vc n => n - (match sget none l.rx vc with | some x => 1 + x.data.length | none => 0)),
             resends := 0, nak := false, ackOwed := false, gap := false }
  forEach l.rx s fun s e => match e.2 with | some x => proxyHdr s (48 + linkHub n) x.hdr none (resetBit s (linkHub n)) | none => s
/-- A link goes DOWN (R253): LINK_DOWN and FLT_SUMMARY.LINK_DOWN. -/
def linkDown (s : State) (n : Nat) : State :=
  let was := (s.link n).state
  let s := (discardLink s n).modLink n fun l =>
    { l with state := .down, train := false, quick := false, detected := false, downed := true }
  if was = .down ∨ was = .disabled then s
  else event (setSummary s sumLink) 0x0012 (some (linkHub n)) n
/-- A full training starts; what an UP link still holds is discarded, since training initialises SEQ and credits (R252, Table 7-13). -/
def linkTrain (s : State) (n : Nat) : State :=
  if !(s.link n).enable || (s.quarter (linkHub n)).inReset then s
  else
    (discardLink s n).modLink n fun l =>
      { l with state := .training, train := true, quick := false, detected := false, trainTick := s.tick,
               trains := satInc l.trains, quickFails := 0 }
/-- A quick retrain starts on an UP link: frames in flight are held in the replay buffer (R251). -/
def linkQuick (s : State) (n : Nat) : State :=
  (s.spill (rcKey (lnkErr n) 1) (s.link n).retrains).modLink n fun l =>
    { l with state := .retraining, quick := true, retrains := satInc l.retrains }
/-- Stored calibration of link n, 32 words (Table 14-8). -/
def calWord (n i : Nat) : Nat := 0x400 + 32 * n + i
/-- A training has found the partner and brought the link UP; a changed calibration is persisted (R252). -/
def linkUpNow (s : State) (n : Nat) (r : TrainResult) : State :=
  let changed := (upto 32).any fun i => nth 0 r.calib i != sget 0 s.pst.words (calWord n i)
  let s := if changed then forEach (upto 32) s fun s i => pstWrite s (calWord n i) (nth 0 r.calib i) else s
  let post := (s.link n).downed
  let s := s.modLink n fun l =>
    { l with state := .up, train := false, sparesTx := r.sparesTx, sparesRx := r.sparesRx, partner := r.site,
             txSeq := 0, rxSeq := 0, spent := [], owed := [], ackTick := s.tick, detected := false, downed := false }
  if post then event s 0x0013 (some (linkHub n)) n else s

/-! Frames (R248 to R250). -/

/-- Sequence numbers from a up to b, modulo 4,096. -/
def seqDist (a b : BitVec 12) : Nat := (b - a).toNat
/-- A frame lies before ACK, so that it is acknowledged. -/
def beforeAck (ack : BitVec 12) (f : TxFrame) : Bool := decide (0 < seqDist f.seq ack ∧ seqDist f.seq ack ≤ 2048)
/-- Frames before ACK are acknowledged and leave the replay buffer; ACK has then advanced, and the resends counted so far were of another SEQ (R250, R251). -/
def ackTo (l : Link) (ack : BitVec 12) (tick : Nat) : Link :=
  if l.replay.any (beforeAck ack) then { l with replay := l.replay.filter (fun f => !beforeAck ack f), ackTick := tick, resends := 0 } else l
/-- Send every frame of the replay buffer, from the oldest unacknowledged on (R250, R251). -/
def sendReplay (l : Link) : Link :=
  { l.replay.foldl sendFrame l with replay := l.replay.map fun f => { f with sent := true } }
/-- Resend from ACK (R250). -/
def resend (l : Link) (tick : Nat) : Link :=
  if l.replay.isEmpty then l else { sendReplay l with resends := l.resends + 1, ackTick := tick }
/-- The receive buffer has room for the flits of a frame (R249). -/
def rxRoom (l : Link) (c : BitVec 64) : Bool :=
  (upto 4).all fun vc => decide (sget 0 l.held vc + ((upto 4).filter fun k => bit (cMark c k) 5 && fld (cMark c k) 0 2 == vc).length ≤ 1024)
/-- One flit of an accepted DATA frame enters the hub's receive buffer: a whole packet goes to the hub's router, on the virtual channel it came on; a flit that belongs to no packet is freed at once (R222, R228, R240, R248, R249). -/
def takeFlit (s : State) (n : Nat) (m : BitVec 6) (d : Row) : State :=
  if !bit m 5 then s
  else
    let vc := fld m 0 2
    let part : Option Partial :=
      if bit m 4 then some ⟨d, []⟩
      else (sget none (s.link n).rx vc).map fun x => { x with data := x.data ++ [(d, bit m 2)] }
    match part with
    | none => s.modLink n fun l => { l with owed := smod 0 l.owed vc (· + 1) }
    | some x =>
      let s := (setSeen s (hCairn x.hdr)).modLink n fun l => { l with held := smod 0 l.held vc (· + 1) }
      if bit m 3 then linkArrive (s.modLink n fun l => { l with rx := sset none l.rx vc none }) n x.hdr x.data vc
      else s.modLink n fun l => { l with rx := sset none l.rx vc (some x) }
/-- The DATA part of a frame: accepted at the SEQ expected and acknowledged, else a duplicate, which is acknowledged too, or a gap that is answered with NAK (R250). A frame sent without credits, which the receive buffer cannot hold, is not accepted (log 127). -/
def takeData (s : State) (n : Nat) (f : LinkFrame) : State :=
  let l := s.link n
  let c := f.ctl
  if cSeq c = l.rxSeq then
    if !rxRoom l c then s else
    let s := s.modLink n fun l => { l with rxSeq := l.rxSeq + 1, gap := false, nak := false, ackOwed := true }
    forEach (upto 4) s fun s k => takeFlit s n (cMark c k) (f.data.extractLsb' (512 * k) 512)
  else if seqDist (cSeq c) l.rxSeq ≤ 2048 then s.modLink n fun l => { l with ackOwed := true }
  else s.modLink n fun l => { l with gap := true, nak := true }
/-- LINK_FRAME_RECEIVE: a frame reaches an UP link: a bad CRC is counted and answered with NAK; else its ACK, NAK and credits are taken, and a DATA frame's flits (R248 to R250). -/
def execLinkFrameReceive (n : Fin 32) (f : LinkFrame) (s : State) : Host.Outcome State Fault Refusal :=
  .next <|
    if (s.link n).state ≠ .up then s
    else if frameCrc f ≠ f.crc then
      (s.spill (rcKey (lnkErr n) 0) (s.link n).crcErr).modLink n fun l => { l with crcErr := satInc l.crcErr, gap := true, nak := true }
    else if cType f.ctl = 0 ∨ cType f.ctl = 1 then
      let s := s.modLink n fun l =>
        let l := ackTo l (cAck f.ctl) s.tick
        let l := { l with spent := smod 0 l.spent (cCvc f.ctl) (· - cCredits f.ctl) }
        if cNak f.ctl then resend l s.tick else l
      if cType f.ctl = 1 then takeData s n f else s
    else s
/-- LINK_RESEND_TIMEOUT: ACK has not advanced for 2 µs with frames unacknowledged: the transmitter resends from ACK (R250). -/
def execLinkResendTimeout (n : Fin 32) (s : State) : Host.Outcome State Fault Refusal :=
  .next <|
    let l := s.link n
    if l.state = .up ∧ l.replay ≠ [] ∧ l.ackTick + us 2 ≤ s.tick then s.modLink n fun l => resend l s.tick else s
/-- QUICK_RETRAIN: eight consecutive resends of one SEQ start a quick retrain (R251). -/
def execQuickRetrain (n : Fin 32) (s : State) : Host.Outcome State Fault Refusal :=
  .next <| if (s.link n).state = .up ∧ 8 ≤ (s.link n).resends then linkQuick s n else s
/-- QUICK_RETRAIN_END: traffic resumes at the first unacknowledged frame; a failed retrain is tried again, and after three failures in a row the link starts a full training (R251). -/
def execQuickRetrainEnd (n : Fin 32) (ok : Bool) (s : State) : Host.Outcome State Fault Refusal :=
  .next <|
    let l := s.link n
    if l.state ≠ .retraining then s
    else if ok then
      s.modLink n fun l =>
        sendReplay { l with state := .up, quick := false, quickFails := 0, resends := 0, ackTick := s.tick }
    else if 3 ≤ l.quickFails + 1 then linkTrain s n
    else linkQuick (s.modLink n fun l => { l with quickFails := l.quickFails + 1 }) n
/-- PARTNER_DETECT: the partner's forwarded clocks are detected; a link that reported NO_PARTNER joins training (R252). -/
def execPartnerDetect (n : Fin 32) (s : State) : Host.Outcome State Fault Refusal :=
  .next <|
    let l := s.link n
    if l.state = .training then s.modLink n fun l => { l with detected := true }
    else if l.state = .noPartner ∧ l.enable then
      s.modLink n fun l => { l with state := .training, train := true, detected := true, trainTick := s.tick }
    else s

end Sys2Proof.Machine
end

