-- ==== Sys2Proof/Machine/Bringup.lean ====
section
/-! DEFINITION. Bring-up (R389 to R395): its steps as they complete, and the rows VIN_RISE, VIN_GOOD, THERM_TRIP_VALID, THERM_TRIP, BRINGUP_START, BRINGUP_STEP_TIMEOUT, RAIL_START_TIMEOUT, DRONE_LOCK_ACQUIRED, LOCK_WINDOW_END, POWER_FAIL_RELEASE, RAIL_SETTLED, DRONE_SYNC_LOAD, TRAINING_END, NO_PARTNER. An action of the reset controller that waits on nothing outside it is done as soon as its step begins. -/

namespace Sys2Proof.Machine

/-! Failing. -/

/-- Bring-up ends FAILED with a cause of Table 13-1; ALERT_N stays asserted (R389). -/
def bootFail (s : State) (cause : Nat) : State :=
  updAlert (s.modBoot fun b => { b with phase := .failed, fail := BitVec.ofNat 6 cause })
/-- Quarters that bring-up has not given up. -/
def liveQuarters (s : State) : List Nat := (upto 4).filter fun q => !bit s.boot.qfailed q
/-- Quarter q is held in reset; when every quarter has failed, so has bring-up (R391). -/
def qfail (s : State) (q : Nat) : State :=
  if bit s.boot.qfailed q then s
  else
    let s := s.modBoot fun b => { b with qfailed := setBit b.qfailed q true }
    let s := stopZones (s.modQuarter q fun x => { x with inReset := true }) q
    let s := forEach (boundaryBelays q) s fun s k => s.modBelay k fun b => { b with slots := [], fenced := true }
    let s := forEach (zonesOf q) s resetChanter
    let s := s.modStr fun r => { r with aligned := setBit r.aligned q false }
    if s.boot.qfailed = 15 then bootFail s 7 else s

/-! Step 3: the persistent store and the firmware. -/

/-- A trim as its word holds it (Table 11-14). -/
def trimOf (w : Word) (tick : Nat) : Trim :=
  { Trim.init with guard_ := w.extractLsb' 0 8, ageAdded := w.extractLsb' 16 8, limit := w.extractLsb' 24 3,
                   raised := bit w 30, ageLimit := bit w 31, hourTick := tick }
/-- The image of a slot verifies (R395, R396): a shipped one as the part has it, an updated one if its update verified it. -/
def slotGood (f : FwSlot) (b : Bool) : Bool :=
  if f.updates = 0 then Config.fwPartGood b else f.verified && Config.fwVerify f.image
/-- Slot A (false) or B (true). -/
def fwSlot (f : Fw) (b : Bool) : FwSlot := if b then f.slotB else f.slotA
/-- What the persistent store holds comes into its registers: fences, trims, keys, and BAD for a word that reads 0 (R405, R426). -/
def loadStore (s : State) : State :=
  let s := s.modPst fun p => { p with badWords := s.boot.env.pstBad.map fun w => w.val, bad := p.bad || !s.boot.env.pstBad.isEmpty }
  let s := if s.boot.env.pstBad.isEmpty then s else setSummary (s.raise 0xC4000 (oneBit 29)) sumPst
  let s := forEach (upto 48) s fun s z => s.setFence z (pstRead s z)
  let s := s.modFlt fun f => { f with fenceStk := (pstRead s 0x030).setWidth 12 }
  let s := forEach (upto 4) s fun s q => updAvail (s.modTrim q fun _ => trimOf (pstRead s (trimStore q)) s.tick) q
  let w := pstRead s 0x07C
  s.modFw fun f => { f with revoked := w.extractLsb' 4 4, enabled := w.extractLsb' 0 4 }
/-- COLD_RESETS, WARM_RESETS and POWER_FAILS (R427). -/
def countReset (s : State) : State :=
  let inc (s : State) (w : Nat) : State := pstWrite s w (pstRead s w + 1)
  let s := if s.boot.isWarm then inc s 0x082 else inc s 0x081
  if 3 ≤ s.boot.cause.toNat then inc s 0x088 else s
/-- The firmware slot that step 3 makes active: the pending one if there is one, else the active one, else the other, if it verifies (R395, R396). -/
def bootSlot (f : Fw) : Option Bool :=
  let a := xor f.active f.pending
  if slotGood (fwSlot f a) a then some a else if slotGood (fwSlot f (!a)) (!a) then some (!a) else none
/-- Bring-up step 3: the cause of its failure, 0 none (R389, R426). -/
def bootLoad (s : State) : Nat × State :=
  if s.boot.env.pstBad.any fun w => decide (w.val < 0x80) then (4, s)
  else
    let s := countReset (loadStore s)
    match bootSlot s.fw with
    | some a => (0, s.modFw fun f => { f with active := a, pending := false, version := (fwSlot f a).version })
    | none => (5, s)

/-! Step 4: the bivouac point and the chanters. -/

/-- The region stands at the bivouac point, its rails on their way (R345). -/
def bootPoint (s : State) : State :=
  let p := bivouac s
  let s := s.modClk fun c =>
    { c with moving := false, railWait := true, lowerAfter := false, point := BitVec.ofNat 3 p, target := BitVec.ofNat 3 p, code := pointCode p }
  aimAt s p
/-- Zones that bring-up starts and aligns. -/
def bootZones (s : State) : List Nat := ((liveQuarters s).flatMap zonesOf).filter fun z => !fenceOut (s.fenceWord z)
/-- Every V_CORE lies within 5 mV of its target (R296). -/
def railsSettled (s : State) : Bool :=
  (upto 4).all fun q =>
    let v := sget 0 s.pwr.vcore q
    let t := sget 0 s.pwr.vtarget q
    decide (v ≤ t + 5 ∧ t ≤ v + 5)

/-! Step 7: the stacks. -/

/-- An identity block passes (R192). -/
def identOk (r : Row) (kind capacity blocks : Nat) : Bool :=
  (~~~ crc32Bits r.toNat 480 0xFFFFFFFF).toNat == dBytes r 60 4 && dBytes r 2 1 == kind && dBytes r 8 8 == capacity &&
    (kind == 1 || dBytes r 20 2 == blocks)
/-- The lagging stack of a mirrored commit: its closed copy takes SEALED when the copy of the same image in WS[2q] carries it (R215). -/
def catchUp (lead w : Ws) : Ws :=
  let a := copyAt lead (activeCopy lead)
  let c := copyAt w (activeCopy w)
  if lead.image == 1 && activeCopy lead ≠ 0 && activeCopy w ≠ 0 && a.sealed && !c.sealed && mirrored lead && c.manifest == a.manifest then
    setCopy w (activeCopy w) { c with sealed := true }
  else w
/-- The hours from the last wear record to the loaded drone time pass for every block, at weight 4 (R196). -/
def ageSince (w : Ws) (now : Nat) : Ws := { w with ageSum := w.ageSum + (now - w.wearTime.toNat) * 4 * 2 ^ 64 / hourTicks }
/-- A weight stack's registers are loaded: FAILED; or page table and manifest come from the active copy, and the signature of a SEALED one is checked (R192, R196, R201, R202, R204, R215). -/
def loadWs (s : State) (k : Nat) : State :=
  let w := s.wst k
  if !identOk w.ident 0 160000000000 2432 then s.modWs k fun w => { w with image := 3, serial := 0, loaded := true }
  else
    let s := s.modWs k fun w => ageSince { w with serial := w.ident.extractLsb' 32 32, loaded := true } s.clk.count.toNat
    if bit s.flt.fenceStk k then s.modWs k fun w => { w with image := 3 }
    else
      let s := if k % 2 = 1 then s.modWs k (catchUp (s.wst (k - 1))) else s
      let c := copyAt (s.wst k) (activeCopy (s.wst k))
      match c.sealed && c.check, c.manifest with
      | true, some m =>
        let s := s.modWs k fun w => { w with manifest := some m, table := c.table }
        if manifestVerifies s m then s.modWs k fun w => { w with image := 1 } else s.modWs k fun w => { w with image := 2, jError := 1 }
      | _, _ => s
/-- A work stack is trained and checked; one that fails holds its quarter in reset, one fenced earlier stays FAILED (R190, R192, R391, R418). -/
def loadKs (s : State) (k : Nat) : State :=
  let ok := identOk (s.kst k).ident 1 96000000000 0
  let s := s.modKs k fun x => { x with serial := if ok then x.ident.extractLsb' 32 32 else 0 }
  if bit s.flt.fenceStk (8 + k) then s.modKs k fun x => { x with failed := true, trained := false }
  else
    if bit s.boot.env.ksFail k || bit s.boot.env.stkLate k || !ok then qfail (s.modKs k fun x => { x with failed := true }) k
    else s.modKs k fun x => { x with trained := true, failed := false, refreshTick := s.tick, scrubTick := s.tick }

/-! Step 9: the fabric. -/

/-- Boot routes of version 0 (R393): hub, identifier, entry. -/
def bootRoutes (fe host links : Nat) : List (Nat × Nat × Nat) :=
  let valid := 2 ^ 63
  let hub0 := valid + 1 * 2 ^ 61
  let both (id at0 : Nat) : List (Nat × Nat × Nat) := [(48, id, at0), (49, id, hub0), (50, id, hub0), (51, id, hub0)]
  both fe (valid + 3 * 2 ^ 61 + 1 * 2 ^ 43) ++ if host = 0xFFFFFF then [] else both host (valid + 2 * 2 ^ 61 + links * 2 ^ 47)
/-- Tables invalid, boot routes written, pitons cleared (R393). -/
def bootFabric (s : State) : State :=
  let fe := feId s
  let rs := if fe = 0xFFFFFF then [] else bootRoutes fe (hostId s) (fld (sget 0 s.pst.words 0x045) 24 8)
  let s := s.modFab fun f =>
    { f with ep := rs.foldl (fun m (r, id, e) => sset 0 m (2 * r * 2 ^ 24 + id) (BitVec.ofNat 64 e)) [], rope := [], list := [],
             shadow := if fe = 0xFFFFFF then 3 else 2, injCairn := false }
  { s with pitons := [] }

/-! The steps. -/

/-- Step n is completed; the next begins. -/
def stepTo (s : State) (n : Nat) : State := s.modBoot fun b => { b with step := BitVec.ofNat 4 n, stepTick := s.tick }
/-- READY (R390, R394): ALERT_N follows the summary from here. -/
def bootReady (s : State) : State :=
  let s := (stepTo s 10).modBoot fun b =>
    { b with phase := .ready, bootMs := BitVec.ofNat 12 (min 4095 ((s.tick - b.startTick) / msTicks)) }
  updAlert (forEach (liveQuarters s) s degradeIfUnbacked)
/-- Bring-up goes on for as long as its present step is complete; at most n steps. -/
def bootAdvance : Nat → State → State
  | 0, s => s
  | n + 1, s =>
    if s.boot.phase ≠ .bringup then s
    else match s.boot.step.toNat with
      | 0 => if s.pwr.vInt && s.pwr.vIo && s.pwr.vSram && s.pwr.vStack && s.pwr.coreGood == 15 then bootAdvance n (stepTo s 1) else s
      | 1 => if s.clk.drone == .locked && s.clk.confirm then bootAdvance n (stepTo s 2) else s
      | 2 =>
        if s.boot.env.pstLate then s
        else
          let (e, t) := bootLoad s
          if s.boot.env.fwLate && e != 4 then s else if e = 0 then bootAdvance n (bootPoint (stepTo t 3)) else bootFail t e
      | 3 =>
        if !s.clk.railWait && (bootZones s).all fun z => (s.chanter z).state == .locked then
          (stepTo s 4).modStr fun r => { r with al := sset .init r.al 4 { AlignRec.init with phase := 1 } }
        else s
      | 5 =>
        if s.boot.isWarm || !s.clk.request then bootAdvance n (stepTo s 6) else s
      | 6 =>
        if (liveQuarters s).any fun q => bit s.boot.env.stkLate q then s else
        let s := forEach (upto 8) s loadWs
        let s := forEach (upto 4) s loadKs
        if s.boot.phase ≠ .bringup then s else bootAdvance n (forEach (upto 32) (stepTo s 7) linkTrain)
      | 7 =>
        if !(s.links.any fun l => l.2.state == .training) || decide (s.boot.stepTick + 10 * msTicks ≤ s.tick) then
          bootReady (stepTo (bootFabric (stepTo s 8)) 9)
        else s
      | _ => s
/-- Bring-up looks at its present step again. -/
def bootGo (s : State) : State := bootAdvance 11 s

/-! Supply and pins. -/

/-- VIN_RISE: V_IN_40 exceeds 36 V: ALERT_N is asserted until READY (R34). -/
def execVinRise (s : State) : Host.Outcome State Fault Refusal :=
  .next <| if s.pwr.vinHigh then s else updAlert (s.modPwr fun w => { w with vinHigh := true, vinTick := some s.tick })
/-- VIN_GOOD: the hold-up capacitor is within 1 V of V_IN_40; with RST_REGION_N risen the rails start (R325). -/
def execVinGood (s : State) : Host.Outcome State Fault Refusal :=
  .next <|
    if s.pwr.vinHigh && !s.pwr.vinGood then
      s.modPwr fun w =>
        { w with vinGood := true, softStart := if s.boot.phase = .bringup ∧ !s.boot.isWarm then some s.tick else w.softStart }
    else s
/-- THERM_TRIP_VALID: 2 ms after V_IN_40 exceeds 36 V, THERM_TRIP_N is driven (R36). -/
def execThermTripValid (s : State) : Host.Outcome State Fault Refusal :=
  .next <|
    match s.pwr.vinTick with
    | some t => if t + 2 * msTicks ≤ s.tick then s.modPins fun p => { p with thermValid := true } else s
    | none => s
/-- THERM_TRIP: a sensor reads 115 °C or more: THERM_TRIP_N is asserted until a cold reset (R35). -/
def execThermTrip (sensor : Fin 64) (reading : BitVec 16) (s : State) : Host.Outcome State Fault Refusal :=
  .next <|
    if 1840 ≤ reading.toInt then tripCheck (s.modPwr fun w => { w with temp := sset 0 w.temp sensor reading }) else s
/-- Bring-up begins (R389, R276): the drone loop starts, and the rails where V_IN is good. -/
def bootBegin (s : State) (env : BootEnv) : State :=
  let s := s.modBoot fun b => { b with phase := .bringup, startTick := s.tick, stepTick := s.tick, env := env }
  let s := freeAdv (s.modClk fun c => { c with drone := .acquiring, started := some s.tick, refPresent := true })
  s.modPwr fun w => { w with softStart := if w.vinGood then some s.tick else none }
/-- BRINGUP_START: RST_REGION_N returns high; a region that a power-fail holds in reset stays there (R389, R351). -/
def execBringupStart (env : BootEnv) (s : State) : Host.Outcome State Fault Refusal :=
  .next <|
    let s' := s.modPins fun p => { p with rstN := true }
    if s.boot.phase = .held ∧ !s.boot.powerFail ∧ !s.pins.rstN then bootBegin s' env else s'
/-- 1 ms has passed since V_IN_40 exceeded 36 V, and since the reset that holds the region. -/
def vinBack (s : State) : Bool :=
  s.pwr.vinHigh && passed s s.pwr.vinTick msTicks && decide (s.boot.stepTick + msTicks ≤ s.tick)
/-- POWER_FAIL_RELEASE: V_IN_40 has stayed from 36 V to 44 V for 1 ms and RST_REGION_N is high: bring-up begins (R351). -/
def execPowerFailRelease (env : BootEnv) (s : State) : Host.Outcome State Fault Refusal :=
  .next <|
    if s.boot.phase = .held ∧ s.boot.powerFail ∧ s.pins.rstN ∧ vinBack s then
      bootBegin (s.modBoot fun b => { b with powerFail := false }) env
    else s
/-- Ticks from the start of the rails within which a rail must be good (Table 11-2). -/
def railBound : Rail → Nat
  | .vInt => us 1000
  | .vIo | .vSram | .vStack => us 1500
  | .vCore q => us (1600 + 250 * q.val)
/-- Whether a rail is good. -/
def railGood (w : Pwr) : Rail → Bool
  | .vInt => w.vInt
  | .vIo => w.vIo
  | .vSram => w.vSram
  | .vStack => w.vStack
  | .vCore q => bit w.coreGood q
/-- RAIL_START_TIMEOUT: a rail has missed its bound, which stops bring-up (R325, R389). -/
def execRailStartTimeout (r : Rail) (s : State) : Host.Outcome State Fault Refusal :=
  .next <|
    match s.pwr.softStart with
    | some t =>
      if s.boot.phase = .bringup ∧ t + railBound r ≤ s.tick ∧ !railGood s.pwr r then
        bootFail (s.modPwr fun w => { w with softStart := none }) 2
      else s
    | none => s
/-- A quarter has not done its part of bring-up step 4 or 5. -/
def bootUnready (s : State) (q : Nat) : Bool :=
  (zonesOf q).any fun z => !fenceOut (s.fenceWord z) && ((s.chanter z).state != .locked ||
    ((sget AlignRec.init s.str.al 4).bad.any fun k => k / 4 == z))
/-- BRINGUP_STEP_TIMEOUT: the step in progress has passed its bound: bring-up FAILED, a failure of the quarters that are not through, or for step 8 its end (R389, R391, R392). A step 3 whose store is late, or holds a bad word that it needs, fails with PST, one whose firmware check is late with FIRMWARE. -/
def execBringupStepTimeout (step : Fin 11) (s : State) : Host.Outcome State Fault Refusal :=
  .next <|
    let b := s.boot
    let late (n : Nat) : Bool := decide (b.stepTick + n * msTicks ≤ s.tick)
    if b.phase ≠ .bringup then s
    else match step.val, b.step.toNat with
      | 1, 0 => if b.startTick + 20 * msTicks ≤ s.tick then bootFail s (if s.pwr.vinGood then 2 else 1) else s
      | 2, k =>
        if k < 2 ∧ b.startTick + 20 * msTicks ≤ s.tick ∧ !(s.clk.drone == .locked && s.clk.confirm) then bootFail s 3 else s
      | 3, 2 => if late 10 then (if b.env.pstLate then bootFail s 4 else if b.env.fwLate then bootFail (bootLoad s).2 (if (bootLoad s).1 = 4 then 4 else 5) else s) else s
      | 4, 3 => if late 1 then bootGo (forEach ((liveQuarters s).filter (bootUnready s)) s qfail) else s
      | 5, 4 =>
        if late 1 then
          let qs := (liveQuarters s).filter (bootUnready s)
          let s := forEach (if qs.isEmpty then liveQuarters s else qs) s qfail
          if s.boot.phase = .bringup then
            forEach (liveQuarters s) (s.modStr fun r => { r with al := sset .init r.al 4 { AlignRec.init with phase := 1 } }) stopZones
          else s
        else s
      | 6, 5 => if late 40 then bootFail s 6 else s
      | 7, 6 => if late 90 then bootGo (forEach ((liveQuarters s).filter (bit b.env.stkLate)) s qfail) else s
      | 8, 7 => bootGo s
      | _, _ => s

/-! The drone loop and the drone counter. -/

/-- DRONE_LOCK_ACQUIRED: the loop enters LOCKED; at its first lock the drone counter and the beat count start (R276, R288, R316). -/
def execDroneLockAcquired (s : State) : Host.Outcome State Fault Refusal :=
  .next <|
    if s.clk.drone = .acquiring ∧ s.clk.refPresent then
      bootGo (s.modClk fun c =>
        { c with drone := .locked, lockAdv := true, firstLock := match c.firstLock with | some t => some t | none => some s.tick })
    else s
/-- A write of ARM acts: after READY with FORCE 1 only while every quarter is halted or in reset (R317). -/
def armOk (s : State) (force : Bool) : Bool :=
  !s.ready || !force || (upto 4).all fun q => quarterHalted s q || (s.quarter q).inReset
/-- DRONE_SYNC_LOAD: DRONE_SYNC sampled high with ARM set steps the counter to the load value, or after READY with FORCE 0 starts a slew (R317, R318). -/
def execDroneSyncLoad (s : State) : Host.Outcome State Fault Refusal :=
  .next <|
    let c := s.clk
    if !c.arm || c.firstLock.isNone then s
    else
      let e : Int := (c.load.toNat : Int) - (c.count.toNat : Int)
      let s := s.modClk fun c => { c with arm := s.wroteBit 0x10030 0 && armOk s c.force, loaded := true, offset := e }
      if !s.ready || c.force then
        bootGo (s.modClk fun c => { c with count := c.load, slewLeft := 0, request := false })
      else s.modClk fun c => { c with slewLeft := e }

/-! Chanters and rails. -/

/-- LOCK_WINDOW_END: a 64-period lock window ends with the chanter's count (R290). -/
def execLockWindowEnd (z : Fin 48) (count : Nat) (s : State) : Host.Outcome State Fault Refusal :=
  .next <|
    if isBeat s && (s.chanter z).windowTick != some s.tick && s.clk.lastBeat != some s.tick then bootGo (windowEnd s z count) else s
/-- RAIL_SETTLED: all four V_CORE are within 5 mV of their targets: an up-move may step, and in bring-up step 4 the chanters start (R296, R389). -/
def execRailSettled (s : State) : Host.Outcome State Fault Refusal :=
  .next <|
    if s.clk.railWait && railsSettled s then
      let s := s.modClk fun c => { c with railWait := false }
      if s.boot.phase = .bringup then bootGo (forEach (bootZones s) s fun s z => startChanter s z s.clk.code) else s
    else s

/-! Links in training. -/

/-- TRAINING_END: full training ends with the link UP, or DOWN, as where more than 16 lanes of a direction have failed (R252, Table 7-13). -/
def execTrainingEnd (n : Fin 32) (r : TrainResult) (s : State) : Host.Outcome State Fault Refusal :=
  .next <|
    let l := s.link n
    if l.state = .training ∧ l.detected then bootGo (if r.ok && decide (r.sparesTx.toNat ≤ 16 ∧ r.sparesRx.toNat ≤ 16) then linkUpNow s n r else linkDown s n) else s
/-- NO_PARTNER: no partner within 5 ms; the link reports NO_PARTNER and keeps listening (R252). -/
def execNoPartner (n : Fin 32) (s : State) : Host.Outcome State Fault Refusal :=
  .next <|
    let l := s.link n
    if l.state = .training ∧ !l.detected ∧ l.trainTick + 5 * msTicks ≤ s.tick then
      bootGo (s.modLink n fun l => { l with state := .noPartner, train := false })
    else s

end Sys2Proof.Machine
end

