-- ==== Sys2Proof/Machine/Access.lean ====
section
/-! DEFINITION. Software access and hardware update of one register in one drone tick (R10, Table 0-4) and accesses by both ports (R435): which bits software writes, what a port reads, what a read clears. -/

namespace Sys2Proof.Machine

/-! Bits that software writes. -/

/-- Bits of a register that are W1C or W1S. -/
def w1Bits (off : Nat) : Word :=
  let o := off % 0x10000
  let at64 (k n : Nat) (m : Word) : Word := if o % 0x40 = k ∧ o / 0x40 < n then m else 0
  match off / 0x10000 with
  | 0x0 => match o with | 0x40 => 0x1F | 0x60 => 1 | 0x340 => 3 | _ => 0
  | 0x1 =>
    if o = 0x30 then 1 else if o = 0x44 then 0x1F
    else if (regIdx 0x100 8 48 o).isSome then 0xC0000000 else if (regIdx 0x104 8 48 o).isSome then 0x10000000 else 0
  | 0x2 => match o with | 0x04 => 0xF | 0x0C => 7 | _ => 0
  | 0x3 => if o = 0x0C then 0x80000000 else 0
  | 0x4 => at64 0x14 64 2
  | 0x5 => at64 0x08 4 7
  | 0x6 => match o with | 0x04 => 0x80000000 | 0x08 => 0x80000000 | 0x20 => 7 | _ => 0
  | 0x8 => if (regIdx 0 0x10 32 o).isSome then 6 else 0
  | 0xA => at64 0x1C 4 1
  | 0xB => match o with | 0x00 => 0x3FF | 0x08 => 0xF03 | _ => 0
  | 0xC => if o = 0x4000 then 0x60000000 else 0
  | 0xD => at64 0x0C 4 3
  | b =>
    if 0x10 ≤ b ∧ b < 0x1C then
      match off % 0x4000 with | 0x808 => 0x1F | 0x824 => 0x80000000 | _ => 0
    else 0
/-- Bits of a register that are RW or WP, a _HI latch among them: they read as the port left them. -/
def rwBits (off : Nat) : Word :=
  let o := off % 0x10000
  match off / 0x10000 with
  | 0x0 =>
    (match o with
    | 0x4C => 0x00FFFFFF | 0x50 => 0xFFFFFFFF | 0x58 => 0xFFFFFFC0 | 0x5C => 0xFFFF | 0x200 => 0xFFFFFFC0 | 0x204 => 0xFFFF
    | 0x208 => 0x80FFFF1F | 0x20C => 0xFFFF | 0x214 => 0xFFFFFFFC | 0x218 => 0xFFFFFFFF | 0x21C => 0xFFFFFFFF | 0x340 => 0x30
    | _ => if (regIdx 0x300 4 13 o).isSome then 0xFFFFFFFF else 0)
  | 0x1 =>
    (match o with
    | 0x04 => 1 | 0x24 => 0xFFFFFFFF | 0x28 => 0xFFFFFFFF | 0x2C => 0xFFFFFFFF | 0x30 => 2
    | _ => if (regIdx 0x100 8 48 o).isSome then 0x7FF else 0)
  | 0x2 => match o with | 0x00 => 1 | 0x20 => 0x3F | 0x28 => 0xFFFFFFFF | _ => 0
  | 0x3 =>
    (match o with
    | 0x00 => 1 | 0x04 => 0x701 | 0x08 => 0xFFFF | 0x90 => 0x3F
    | _ =>
      if (regIdx 0x40 4 8 o).isSome then 0xFFFF
      else if (regIdx 0x104 8 5 o).isSome ∨ (regIdx 0x204 8 64 o).isSome then 0xFFFFFFFF else 0)
  | 0x4 =>
    if 64 ≤ o / 0x40 then 0
    else (match o % 0x40 with
      | 0x00 => 0xFFFFFFC0 | 0x04 => 0xFFFF | 0x08 => 0xFFFFFFC0 | 0x0C => 0xFFFF | 0x10 => 0xFFC0FFFF | 0x14 => 1
      | 0x20 => 0xFFFFFFFC | 0x24 => 0xFFFFFFFF | 0x28 => 0xFFFFFFFF | _ => 0)
  | 0x5 => if 4 ≤ o / 0x40 then 0 else match o % 0x40 with | 0x00 => 0xFFFFFFC0 | 0x04 => 0x8000FFFF | _ => 0
  | 0x6 =>
    (match o with
    | 0x00 => 0x103 | 0x10 => 0xE03F | 0x14 => 0x00FFFFFF | 0x18 => 0xFFFFFFFF | 0x1C => 0xFFFFFFFF | _ => 0)
  | 0x8 => if (regIdx 0 0x10 32 o).isSome then 1 else 0
  | 0x9 => if (regIdx 0x18 0x40 8 o).isSome then 0xFFF else 0
  | 0xA =>
    if 4 ≤ o / 0x40 then 0 else match o % 0x40 with | 0x00 => 0x7FFF | 0x24 => 0xFFFFFFFF | 0x2C => 0xFFFFFFFF | _ => 0
  | 0xB => match o with | 0x04 => 0x3FF | 0x08 => 0x30 | 0x24 => 0x3FF | 0x30 => 0x3FFF | _ => 0
  | 0xC => if o = 0x4004 then 0xFFF else if o < 0x4000 then 0xFFFFFFFF else 0
  | 0xD =>
    if 4 ≤ o / 0x40 then 0 else match o % 0x40 with | 0x00 => 0xFFFFFFC0 | 0x04 => 0x8000FFFF | 0x08 => 0xFFFF | _ => 0
  | b =>
    if 0x10 ≤ b ∧ b < 0x1C then
      (match off % 0x4000 with | 0x800 => 0xFF3F | 0x810 => 0xFF07 | 0x828 => 0xF | _ => 0)
    else if 0x40 ≤ b ∧ b < 0x44 ∧ off % 0x1000 < 8 then 0xFFFF
    else 0

/-! What a port reads. -/

/-- The region as the present tick found it, with the selectors that select what is read at an offset as they stand (R10, R437). -/
def State.before (s : State) (off : Nat) : State :=
  let b : State := { s with toBody := s.found }
  let o := off % 0x10000
  match off / 0x10000 with
  | 0x2 => b.modStr fun r => { r with timeSel := s.str.timeSel }
  | 0x3 => b.modPwr fun w => { w with thermSel := s.pwr.thermSel }
  | 0x9 => if o < 0x200 then b.modWs (o / 0x40) fun w => { w with blkSel := (s.wst (o / 0x40)).blkSel } else b
  | 0xA => b.modPitQ (o / 0x40) fun x => { x with sel := (s.pitQ (o / 0x40)).sel }
  | 0xB => b.modFlt fun f => { f with recIndex := s.flt.recIndex, recWord := s.flt.recWord, fieldSel := s.flt.fieldSel }
  | 0xC => b.modPst fun p => { p with wearSel := s.pst.wearSel }
  | k =>
    if 0x10 ≤ k ∧ k < 0x1C then
      let z := (off - 0x100000) / 0x4000
      let p := s.zpage z
      b.modZpage z fun x =>
        { x with arithUnit := p.arithUnit, arithItem := p.arithItem, unitUnit := p.unitUnit, unitItem := p.unitItem, dlwSel := p.dlwSel }
    else b
/-- What a port reads at an offset: RO and RC fields as they stood before this tick's updates, what software writes as it stands (R10). -/
def portValue (s : State) (p : WinPort) (off : Nat) : Word :=
  let m := rwBits off ||| w1Bits off
  (regValue s p off &&& m) ||| (regValue (s.before off) p off &&& ~~~m)

/-! What a read clears. -/

/-- What an RC counter keeps for the next read: the updates of this tick, also those that found it at its limit (R10). -/
def rcLeft {w : Nat} (s : State) (key : Nat) (now found : BitVec w) : BitVec w :=
  satAdd (if found.toNat ≤ now.toNat then now - found else now) (sget 0 s.full key)
/-- Bits that hardware has set in this tick in a register. -/
def State.raisedAt (s : State) (off : Nat) : Word := sget 0 s.raised off
/-- A counter's read re-arms its first-capture register, which an update of this tick then takes at once (R10, R235, R269). -/
def State.caughtAt (s : State) (off : Nat) : Option Word := sget none s.caught off
/-- The zone RC counters STRETCH_L1 to HOLDS, i = 2 to 6, after a read. -/
def rcZone (s : State) (key : Nat) (now found : ZoneClk) (i : Nat) : ZoneClk :=
  match i with
  | 2 => { now with l1 := rcLeft s key now.l1 found.l1 }
  | 3 => { now with l2 := rcLeft s key now.l2 found.l2 }
  | 4 => { now with l3 := rcLeft s key now.l3 found.l3 }
  | 5 => { now with breaths := rcLeft s key now.breaths found.breaths }
  | 6 => { now with holds := rcLeft s key now.holds found.holds }
  | _ => now
/-- ZONE_ARITH_DATA's selected item after a read (R79). -/
def rcArith (s : State) (z : Nat) : State :=
  let x := s.zpage z
  let u := 204 * z + x.arithUnit.toNat
  let i := x.arithItem.toNat
  if (s.quarter (z / 12)).inReset || decide (203 < x.arithUnit.toNat) || isMu u then s
  else if i = 37 then s.modCu u fun c => { c with flags := (s.raisedAt (flagsKey u)).setWidth 5 }
  else s.modCu u fun c =>
    { c with items := sset 0 c.items i (rcLeft s (itemKey u i) (sget 0 c.items i) (sget 0 (sget UnitSt.blank s.found.units u).cu.items i)) }
/-- RC fields clear, but for what this tick has added (R10, Table 0-4); an overrun that a read of PIT_ERR so makes the first after it is posted (R269). -/
def rcClear (s : State) (off : Nat) : State :=
  let o := off % 0x10000
  let f := s.found
  let key := rcKey off
  match off / 0x10000 with
  | 0x0 => if o = 0x220 then s.modEvt fun e => { e with lost := rcLeft s (key 0) e.lost f.evt.lost } else s
  | 0x2 => match regIdx 0x100 4 384 o with
    | some i => s.modZone (i / 8) fun c => rcZone s (key 0) c (sget .init f.zones (i / 8)) (i % 8)
    | none => s
  | 0x5 =>
    if o % 0x40 = 0x18 ∧ o / 0x40 < 4 then
      s.modSeqq (o / 0x40) fun x => { x with timeouts := rcLeft s (key 0) x.timeouts (sget SeqQ.init f.seqs (o / 0x40)).timeouts }
    else s
  | 0x6 =>
    if o = 0x30 then
      s.modFab fun x =>
        { x with unroute := rcLeft s (key 0) x.unroute f.fab.unroute, armed := (s.caughtAt 0x60034).isNone,
                 first := (s.caughtAt 0x60034).getD x.first }
    else match regIdx 0x100 4 52 o with
      | some r => s.modFab fun x => { x with thr := sset 0 x.thr r (rcLeft s (key 0) (sget 0 x.thr r) (sget 0 f.fab.thr r)) }
      | none => s
  | 0x8 => match regIdx 0x8 0x10 32 o with
    | some n =>
      let y := sget Link.init f.links n
      s.modLink n fun l => { l with crcErr := rcLeft s (key 0) l.crcErr y.crcErr, retrains := rcLeft s (key 1) l.retrains y.retrains, lost := rcLeft s (key 2) l.lost y.lost }
    | none => s
  | 0x9 => match regIdx 0x14 0x40 8 o, regIdx 0x208 0x40 4 o, regIdx 0x20C 0x40 4 o with
    | some k, _, _ =>
      let y := sget (Ws.init k) f.ws k
      s.modWs k fun w => { w with uncorr := rcLeft s (key 0) w.uncorr y.uncorr, rescue := rcLeft s (key 1) w.rescue y.rescue, unmapped := rcLeft s (key 2) w.unmapped y.unmapped }
    | none, some k, _ => s.modKs k fun x => { x with corr := rcLeft s (key 0) x.corr (sget (Ks.init k) f.ks k).corr }
    | none, none, some k =>
      let y := sget (Ks.init k) f.ks k
      s.modKs k fun x => { x with uncorr := rcLeft s (key 0) x.uncorr y.uncorr, rmwFail := rcLeft s (key 1) x.rmwFail y.rmwFail }
    | none, none, none => s
  | 0xA => match regIdx 0x14 0x40 4 o with
    | some q =>
      let y := sget PitQ.init f.pitq q
      let c := s.caughtAt (0xA0018 + 0x40 * q)
      let t := s.modPitQ q fun x =>
        { x with overruns := rcLeft s (key 0) x.overruns y.overruns, refused := rcLeft s (key 1) x.refused y.refused, badOp := rcLeft s (key 2) x.badOp y.badOp,
                 armed := c.isNone, errCause := (c.map fun v => v.extractLsb' 24 2).getD x.errCause,
                 errPiton := (c.map fun v => v.extractLsb' 0 17).getD x.errPiton }
      match c with
      | some v => if y.armed then t else event t 0x0011 (some q) v.toNat
      | none => t
    | none => s
  | b => if 0x10 ≤ b ∧ b < 0x1C ∧ off % 0x4000 = 0x804 then rcArith s ((off - 0x100000) / 0x4000) else s
/-- An RC register of the blocks but the zone pages (Tables 15-2 to 15-10). -/
def isRc (off : Nat) : Bool :=
  let o := off % 0x10000
  match off / 0x10000 with
  | 0x0 => o == 0x220
  | 0x2 => match regIdx 0x100 4 384 o with
    | some i => decide (2 ≤ i % 8 ∧ i % 8 ≤ 6)
    | none => false
  | 0x5 => o % 0x40 == 0x18 && decide (o / 0x40 < 4)
  | 0x6 => o == 0x30 || (regIdx 0x100 4 52 o).isSome
  | 0x8 => (regIdx 0x8 0x10 32 o).isSome
  | 0x9 => (regIdx 0x14 0x40 8 o).isSome || (regIdx 0x208 0x40 4 o).isSome || (regIdx 0x20C 0x40 4 o).isSome
  | 0xA => (regIdx 0x14 0x40 4 o).isSome
  | _ => false
/-- The RC field behind an offset, as a number: that of ZONE_ARITH_DATA counts the unit and item selected (R437). -/
def rcField (s : State) (off : Nat) : Option Nat :=
  if isRc off then some off
  else if 0x100000 ≤ off ∧ off < 0x1C0000 ∧ off % 0x4000 = 0x804 then
    let x := s.zpage ((off - 0x100000) / 0x4000)
    some (off + 2 ^ 24 * (x.arithUnit.toNat * 64 + x.arithItem.toNat))
  else none
/-- What reading does: a _LO read latches its _HI for the port (R436); an RC field clears, once a tick (R10, R435). -/
def readEffect (s : State) (p : WinPort) (off : Nat) : State :=
  match live64 (s.before off) off with
  | some v => { s with latch := sset 0 s.latch (2 * off + portNo p) (v.extractLsb' 32 32) }
  | none => match rcField s off with
    | some k => if s.rcSeen.contains k then s else { rcClear s off with rcSeen := k :: s.rcSeen }
    | none => s

/-! Writes of both ports in one tick. -/

/-- What a write brings: bits that hardware sets in the tick are not cleared (R10). -/
def writtenValue (s : State) (off : Nat) (v : Word) : Word := v &&& ~~~s.raisedAt off
/-- The fabric's write of a register in this tick before which a write of the given port goes (R435). -/
def fabricFirst (s : State) (p : WinPort) (off : Nat) : Option Word :=
  match p with
  | .ring => sget none s.wrote (2 * off + 1)
  | .fabric => none
/-- Note a write for the rest of the tick. -/
def noteWrite (s : State) (p : WinPort) (off : Nat) (v : Word) : State :=
  { s with wrote := sset none s.wrote (2 * off + portNo p) (some v) }

end Sys2Proof.Machine
end

