-- ==== Sys2Proof/Machine/Resets.lean ====
section
/-! DEFINITION. Alignment (R314, R315), failing chanters (R291, R391, R420) and the resets (R33, R350, R401 to R406), with the rows CHANTER_FAIL, ALIGN_BEGIN, ALIGN_CROSSINGS_SET, ALIGN_RELEASE, QRESET_CHANTER_START, RST_REGION_LOW, OVERVOLTAGE, POWER_FAIL_RESET. -/

namespace Sys2Proof.Machine

/-! Alignment: key q for the zones of quarter q, 4 for all zones at bring-up (R314). -/

/-- Key of an alignment's set. -/
def alKey : Option (Fin 4) → Nat
  | some q => q.val
  | none => 4
/-- The zones of the set A. -/
def alZones (s : State) (k : Nat) : List Nat :=
  if k = 4 then bootZones s else (zonesOf k).filter fun z => !fenceOut (s.fenceWord z)
def State.align (s : State) (k : Nat) : AlignRec := sget .init s.str.al k
def State.modAlign (s : State) (k : Nat) (f : AlignRec → AlignRec) : State :=
  s.modStr fun r => { r with al := smod .init r.al k f }
/-- D_z, measured at bring-up: from 2 to 12 drone ticks (R319). -/
def boundDelay (n : Nat) : BitVec 8 := BitVec.ofNat 8 (max 2 (min 12 n))
/-- ALIGN_BEGIN: at the first beat at which every zone of A is halted or new with its chanter LOCKED, the alignment begins; at bring-up the stamp path delays are measured (R314, R319, R321). -/
def execAlignBegin (set : Option (Fin 4)) (s : State) : Host.Outcome State Fault Refusal :=
  .next <|
    let k := alKey set
    let zs := alZones s k
    if (s.align k).phase = 1 && isBeat s && zs.all fun z => (s.chanter z).state == .locked && !(s.zone z).running then
      forEach zs (s.modAlign k fun a => { a with phase := 2, begun := s.tick, bad := [] }) fun s z =>
        s.modZone z fun c => { c with timeValid := false, stamp := none, delay := if k = 4 then boundDelay (Config.stampDelay z) else c.delay }
    else s
/-- Empty slots at alignment (R305). -/
def fourSlots : List (List (Nat × Option Token)) := [[], [], [], []]
/-- A crossing brought to O = 4 with what it holds kept in order: surplus slots are read as one, missing ones are empty and read last (R314, log 61). -/
def toFour (l : List (List (Nat × Option Token))) : List (List (Nat × Option Token)) :=
  if l.length ≤ 4 then l ++ List.replicate (4 - l.length) [] else (l.take (l.length - 3)).flatten :: l.drop (l.length - 3)
/-- A crossing between two quarters one of which is in reset is fenced (R24). -/
def crossFenced (s : State) (a b : Nat) : Bool := a / 12 != b / 12 && ((s.quarter (a / 12)).inReset || (s.quarter (b / 12)).inReset)
/-- A crossing of a zone of A: to O = 4, its slots emptied where both ends lie in A and the credits of what they held back; to O = 4 and unparked where the other end's schedule counts; a fence lasts as long as the reset (R24, R308, R314). -/
def setCrossing (s : State) (zs : List Nat) (a b k : Nat) : State :=
  let runs (z : Nat) : Bool := !zs.contains z && (s.zone z).running
  let fence := crossFenced s a b
  if runs a || runs b then s.modBelay k fun x => ⟨toFour x.slots, false, fence⟩
  else if zs.contains a && zs.contains b then
    let s := forEach (s.belay k).slots.flatten s fun s t => s.modChan (t.1 / 16) (t.1 % 16) fun c => { c with spent := c.spent - 1 }
    s.modBelay k fun _ => ⟨fourSlots, false, fence⟩
  else s.modBelay k fun x => { x with fenced := x.fenced && (fence || fenceOut (s.fenceWord a) || fenceOut (s.fenceWord b)) }
/-- ALIGN_CROSSINGS_SET: one beat after the start every crossing of A has O = 4, DEF is T_R and schedule counting starts (R314). -/
def execAlignCrossingsSet (set : Option (Fin 4)) (s : State) : Host.Outcome State Fault Refusal :=
  .next <|
    let k := alKey set
    let r := s.align k
    if r.phase ≠ 2 ∨ s.tick ≠ r.begun + 512 then s
    else
      let zs := alZones s k
      let d := if k = 4 then 0 else s.str.tR
      let s := forEach zs s fun s z =>
        let s := forEach (belaysOut z) s fun s x => match zoneNext z x.1 with | some w => setCrossing s zs z w x.2 | none => s
        forEach (belaysIn z) s fun s x => match zoneNext z x.1 with
          | some w => if zs.contains w then s else setCrossing s zs w z x.2
          | none => s
      let s := forEach zs s fun s z =>
        (s.modZone z fun c => { c with deficit := d, running := true, kind := .advance, govPos := 0, side := 0, sideIn := 0, lastSlip := none }).modStr
          fun r => { r with seen := sset 0 r.seen z d }
      s.modAlign k fun a => { a with phase := 3 }
/-- Zones of A charged with the crossings that failed: the reading zone where both ends lie in A, else the end in A (R315). -/
def alCharged (s : State) (k : Nat) : List Nat :=
  let zs := alZones s k
  ((s.align k).bad.filterMap fun i =>
    match zoneNext (i / 4) (i % 4) with
    | some b => if zs.contains b then some b else if zs.contains (i / 4) then some (i / 4) else none
    | none => none).dedup
/-- A service whose every spanned quarter runs again returns to SERVING (Table 12-9). -/
def serviceResume (s : State) (q : Nat) : State :=
  match serviceOf s q with
  | some l =>
    if (s.service l).state = .halted && (maskQuarters (s.service l).qmask).all s.quarterRuns then setSvcState s l .serving else s
  | none => s
/-- The crossings of quarter q's boundary whose fence ends, no end being in reset or fenced out (R24). -/
def unfence (s : State) (q : Nat) : State :=
  forEach (boundaryBelays q) s fun s k =>
    match zoneNext (k / 4) (k % 4) with
    | some b =>
      if crossFenced s (k / 4) b || fenceOut (s.fenceWord (k / 4)) || fenceOut (s.fenceWord b) then s
      else s.modBelay k fun x => { x with fenced := false }
    | none => s
/-- Quarter q leaves reset (R26, R402, R418, R420). -/
def leaveReset (s : State) (q : Nat) : State :=
  let s := s.modQuarter q fun x => { x with inReset := false, stage := 0, halted := false, lockHalt := false, faults := [], chFault := [] }
  let s := unfence (s.modBoot fun b => { b with qreset := setBit b.qreset q false }) q
  forEach (hubLinks q) (degradeIfUnbacked (judgeHeat s q) q) linkTrain
/-- Quarter q, quiesced, resumes, or stays stopped while it is hot (R359). -/
def endQuiesce (s : State) (q : Nat) : State :=
  if !bit s.pwr.quiesced q then s
  else if cooled s q then
    event (s.modPwr fun w => { w with quiesced := setBit w.quiesced q false }) 0x0041 (some q) (thermArg s q)
  else stopZones s q
/-- A checked quarter is released: a firmware alignment leaves it halted, and a replay that waits is to be aligned again; a reset ends, a halt ends unless its replay is still to start or only a reset ends it (R314, R315, R402, R417). -/
def releaseQuarter (s : State) (q : Nat) : State :=
  let fw := (s.align q).firmware
  let s := s.modStr fun r => { r with al := sset .init r.al q .init, aligned := setBit r.aligned q true,
                                      alignCtl := if fw then setBit r.alignCtl q false else r.alignCtl }
  if fw then (if (s.quarter q).replay.isSome then requestAlign s q false else stopZones s q)
  else if (s.quarter q).inReset then endQuiesce (leaveReset s q) q
  else if (s.quarter q).lockHalt then stopZones s q
  else
    let s := endQuiesce s q
    if (s.quarter q).replay.isSome then s
    else serviceResume (s.modQuarter q fun x => { x with halted := false }) q
/-- Bring-up's alignment is released: the quarters leave reset with step 5, and step 6 begins (R314, R389). -/
def releaseAll (s : State) : State :=
  let s := forEach (liveQuarters s) s fun s q =>
    (s.modQuarter q fun x => { x with inReset := false, halted := false, lockHalt := false, faults := [] }).modStr
      fun r => { r with aligned := setBit r.aligned q true }
  let s := s.modStr fun r => { r with al := sset .init r.al 4 .init }
  let s := forEach (liveQuarters s) s fun s q => judgeHeat (unfence s q) q
  let s := forEach (liveQuarters s) s fun s q => if bit s.pwr.quiesced q then endQuiesce s q else s
  if s.boot.phase ≠ .bringup then s
  else bootGo ((stepTo s 5).modClk fun c => { c with request := !s.boot.isWarm })
/-- Stop the zones of A. -/
def alStop (s : State) (k : Nat) : State := forEach (if k = 4 then liveQuarters s else [k]) s stopZones
/-- A second failed check: ALIGN_FAIL, and a BELAY record in every zone charged; at bring-up their quarters fail and the others go on (R315, R391). -/
def alFail (s : State) (k : Nat) : State :=
  let zs := alCharged s k
  let s := strEvent s 2
  let s := forEach zs s fun s z => recordZone s z 3 true 0
  if k = 4 then releaseAll (forEach (zs.map (· / 12)).dedup s qfail)
  else (alStop s k).modStr fun r => { r with al := sset .init r.al k .init, alignCtl := setBit r.alignCtl k false }
/-- ALIGN_RELEASE: 66 beats after the start A is released, or the alignment is repeated once, or has failed (R314, R315). -/
def execAlignRelease (set : Option (Fin 4)) (s : State) : Host.Outcome State Fault Refusal :=
  .next <|
    let k := alKey set
    let r := s.align k
    if r.phase ≠ 3 ∨ s.tick ≠ r.begun + 66 * 512 then s
    else if r.bad.isEmpty then (if k = 4 then releaseAll s else releaseQuarter s k)
    else if r.fails = 0 then (alStop s k).modAlign k fun a => { a with phase := 1, fails := 1 }
    else alFail s k

/-! A chanter that fails (R291, R391, R420). -/

/-- CHANTER_FAIL: not LOCKED 20 µs after START: FAILED, a CHANTER zone fault. Bring-up starts it once more, then holds its quarter in reset; in the reset that follows a CHANTER fault of the zone, the zone is fenced. -/
def execChanterFail (z : Fin 48) (s : State) : Host.Outcome State Fault Refusal :=
  .next <|
    let c := s.chanter z
    let q := z.val / 12
    if c.state ≠ .acquiring ∨ s.tick < c.startTick + us 20 then s
    else
      let again := (s.quarter q).chFault.contains z.val
      let s := s.modChanter z fun c => { c with state := .failed, fails := c.fails + 1, relock := false }
      let s := recordZone (clkEvent s 3) z 5 false 0
      if s.boot.phase = .bringup then
        if (s.chanter z).fails < 2 then startChanter (resetChanter s z) z s.clk.code else bootGo (qfail s q)
      else if (s.quarter q).inReset && again then changeFence s z (setBit (s.fenceWord z) 31 true)
      else s.modQuarter q fun x => { x with chFault := if again then x.chFault else x.chFault ++ [z.val] }

/-! Quarter reset (R24 to R26, R401, R402). -/

/-- A reset of quarter q that cannot end by itself: a chanter FAILED in a zone not fenced, or an alignment that failed. -/
def resetStuck (s : State) (q : Nat) : Bool :=
  (s.quarter q).stage == 2 && ((s.align q).phase == 0 ||
    (zonesOf q).any fun z => (s.chanter z).state == .failed && !fenceOut (s.fenceWord z))
/-- Ends of a channel: quarter of the consumer, quarter of the producer. -/
def chanQuarters (k : Nat) : Nat × Nat :=
  let c := zoneOf (k / 16) / 12
  (c, match chanZone k with | some z => z / 12 | none => c)
/-- A channel as the reset of quarter q leaves it: each end's own registers go to their reset values (R402). -/
def chanReset (q k : Nat) (c : Chan) : Chan :=
  let (cq, pq) := chanQuarters k
  if cq = q then { Chan.init with gen := if pq = q then 0 else c.gen }
  else if pq = q then
    { c with gen := 0, flight := [], back := [], credOut := [], sent := none, spent := c.queue.length + c.spill.length + c.boreRows.length + c.landed.length, marked := none }
  else c
/-- Entries whose number passes p. -/
def skeep {α : Type} (m : Sparse α) (p : Nat → Bool) : Sparse α := m.filter fun e => p e.1
/-- The zones of quarter q stop, its boundary is parked and fenced, its links go DOWN, its packets meet the fence, its waiters get CLEARED and its pitons are cleared (R402 steps 1 and 4). -/
def stopForReset (s : State) (q : Nat) : State :=
  let s := stopZones s q
  let s := forEach (boundaryBelays q) s fun s k => s.modBelay k fun b => { b with slots := [], parked := true, fenced := true }
  let s := { s with belays := skeep s.belays fun k =>
    !(k / 48 == q && (match zoneNext (k / 4) (k % 4) with | some w => w / 12 == q | none => true)) }
  let s := forEach (hubLinks q) s fun s n => if (s.link n).state = .disabled then s else linkDown s n
  clearPitons (fenceQuarter s q) q
/-- The quarter's service ends, its queues are reset, plans on its streamer stop (R402 steps 2 and 3, R406). -/
def resetWork (s : State) (q : Nat) : State :=
  let s := match serviceOf s q with
    | some l => svcOff (setSvcState s l .halted) l stFault
    | none => s
  let s := forEach ((upto 16).map (16 * q + ·)) s fun s n =>
    resetDone ((queueResetWrite s n).modQueue n fun c => { c with run := none }) n
  let s := match (s.cfgQ q).owner with
    | some n => if n < 64 then finishRun s n stPlanError 0 else s
    | none => s
  match graphOn s q with
  | some n => finishRun s n stFault 0
  | none => s
/-- The quarter's registers go to their reset values (Table 13-5): clocks, schedules, units, channels, streamer, sequencer, pitons, FAB_THR_COUNT; its fences come from the store. -/
def resetRegs (s : State) (q : Nat) : State :=
  let here (z : Nat) : Bool := z / 12 == q
  let s := forEach (zonesOf q) s fun s z =>
    ((resetChanter s z).modChanter z fun c => { Chanter.init with losses := c.losses }).modZone z fun c =>
      { ZoneClk.init with d1 := c.d1, d2 := c.d2, d3 := c.d3, phase := c.phase, delay := c.delay, govBreaths := c.govBreaths }
  let s := s.modStr fun r =>
    { r with seen := skeep r.seen fun z => !here z, tq := sset 0 r.tq q 0, aligned := setBit r.aligned q false,
             al := sset .init r.al q .init, alignCtl := setBit r.alignCtl q false }
  let s := { s with units := skeep s.units fun u => !here (physZone u), cfgOf := skeep s.cfgOf fun l => !here (zoneOf l),
                    entryOf := skeep s.entryOf fun l => !here (zoneOf l), entryDue := skeep s.entryDue fun l => !here (zoneOf l),
                    zpages := skeep s.zpages fun z => !here z, chans := smap .init s.chans (chanReset q) }
  let s := (s.modCfg q fun _ => .init).modSeqq q fun x => { SeqQ.init with tableLo := x.tableLo, src := x.src, tableHi := x.tableHi }
  let s := s.modPitQ q fun p => { PitQ.init with waitOut := p.waitOut, waitIn := p.waitIn }
  let s := s.modFab fun f => { f with thr := skeep f.thr fun r => routerHub r != q }
  let s := forEach (zonesOf q) s fun s z => s.setFence z (pstRead s z)
  updAvail (s.modPwr fun w => { w with quiesceDue := setBit w.quiesceDue q false }) q
/-- QRESET[q] (R402): ignored before READY, for a quarter that bring-up gave up, and while a reset of it that will end is under way. -/
def quarterReset (s : State) (q : Nat) : State :=
  if !s.ready || bit s.boot.qfailed q || ((s.quarter q).inReset && !resetStuck s q) then s
  else
    let s := s.modBoot fun b => { b with qresets := satInc b.qresets, qreset := setBit b.qreset q true }
    let s := lifeInc s lifeQuarterResets
    let s := resetWork (dropDetected s q) q
    let s := s.modQuarter q fun x =>
      { x with inReset := true, stage := 1, halted := false, lockHalt := false, faults := [], replays := 0, replay := none,
               steering := [], replayFrom := [], crossDue := none, dataLost := false }
    let s := forEach ((upto 4).filter (· != q)) s dueCrossing
    forEach (s.cmdq.map Prod.fst) (commitsReset (resetRegs (stopForReset s q) q) q) badTurn
/-- QRESET_CHANTER_START: once no move is in progress, the reset quarter's chanters start at CLK_MOVE_STATUS.CODE, and its alignment is asked for (R29, R402). -/
def execQresetChanterStart (q : Fin 4) (s : State) : Host.Outcome State Fault Refusal :=
  .next <|
    if (s.quarter q).stage = 1 ∧ !s.clk.moving then
      let s := s.modQuarter q fun x => { x with stage := 2 }
      let s := forEach (alZones s q) s fun s z => startChanter s z s.clk.code
      requestAlign s q false
    else s

/-! Region resets (R403, R404, Table 13-5). -/

/-- A weight stack through a region reset: what is in the stack itself is kept; a refresh copy is abandoned, blocks still read are free (R405). -/
def wsKeep (k : Nat) (w : Ws) : Ws :=
  let w := (match w.refresh with | some r => freeBlock w r.new | none => w)
  let w := w.releasing.foldl freeBlock w
  { Ws.init k with image := w.image, copyA := w.copyA, copyB := w.copyB, manifest := w.manifest, table := w.table, blocks := w.blocks, mem := w.mem,
                   jValid := w.jValid, journal := w.journal, jError := w.jError, ageSum := w.wearAge,
                   wearBlock := w.wearBlock, wearTime := w.wearTime, wearAge := w.wearAge, wearTick := w.wearTick, media := w.media }
/-- A work stack through a region reset: its contents are undefined (R190). -/
def ksLose (k epoch : Nat) : Ks := { Ks.init k with mem := RowMem.lose (epoch + k) }
/-- The stacks through a region reset. -/
def stacksKeep (s : State) : State :=
  let s := forEach (upto 4) s commitsReset
  { s with ws := (upto 8).foldl (fun m k => sset (.init k) m k (wsKeep k (s.wst k))) [],
           ks := (upto 4).foldl (fun m k => sset (.init k) m k (ksLose k s.free)) [], free := s.free + 4 }
/-- The persistent store through a region reset: writes begun complete, writes held are dropped, uncounted lifetime increments are lost (R406, R427). -/
def pstKeep (p : Pst) : Pst :=
  let back (p : Pst) (h : Nat × Word) : Pst :=
    { p with words := sset 0 p.words h.1 (((p.busy.filter fun b => b.1 == h.1).map Prod.snd).getLastD (sget 0 p.words h.1)),
             writes := smod 0 p.writes h.1 (· - 1) }
  { p.held.foldl back p with held := [], life := [], kwh := 0, hot := false }
/-- Firmware through a region reset: an update under way leaves the inactive slot unverified (R396). -/
def fwKeep (f : Fw) : Fw :=
  let spoil (x : FwSlot) : FwSlot := { x with verified := false, updates := x.updates + 1 }
  let f := if f.update = 1 then (if f.active then { f with slotA := spoil f.slotA } else { f with slotB := spoil f.slotB }) else f
  { Fw.init with pending := f.pending, active := f.active, slotA := f.slotA, slotB := f.slotB }
/-- The state every region reset starts from: what Table 13-5 keeps through a cold reset. -/
def regionReset (s : State) : State :=
  let s := stacksKeep s
  { State.reset with
    pending := s.pending, free := s.free, found := s.found, raised := s.raised, caught := s.caught, full := s.full, rcSeen := s.rcSeen, wrote := s.wrote, tick := s.tick, ident := s.ident, host := s.host, ws := s.ws, ks := s.ks,
    pst := { pstKeep s.pst with lifeTick := s.tick }, fw := fwKeep s.fw, tap := s.tap, flt := { Flt.init with field := s.flt.field },
    pins := { Pins.init with rstN := s.pins.rstN, vAux := s.pins.vAux, thermValid := s.pins.thermValid, mbaoOut := s.pins.mbaoOut } }
/-- The store's registers through a cold reset: its words and their counts are kept, PST_STATUS and PST_WEAR_SEL go to their Reset column (R12, log 95). -/
def pstCold (p : Pst) : Pst := { p with worn := false, bad := false, wornWord := 0, wearSel := 0 }
/-- A region cold reset with its cause: every rail but V_AUX is shed and the drone loop stops (R350, R404); `vin` where V_IN_40 stays above 36 V. -/
def coldReset (s : State) (cause : Nat) (held vin : Bool) : State :=
  let r := regionReset s
  let w := s.pwr
  updAlert
    { r with
      boot := { Boot.init with phase := .held, cause := BitVec.ofNat 3 cause, powerFail := held, stepTick := s.tick }
      pst := pstCold r.pst
      pwr :=
        let p := { Pwr.init with ageTick := s.tick }
        if vin then { p with vinHigh := w.vinHigh, vinGood := w.vinGood, vinTick := w.vinTick } else p }
/-- A region warm reset (R403): the rails, the drone loop and drone time go on, the _HI latches stay (R436); bring-up repeats from step 3. -/
def warmReset (s : State) (env : BootEnv) : State :=
  let r := regionReset s
  let w := s.pwr
  let c := s.clk
  let r : State :=
    { r with
      clk := { Clk.init with
               drone := c.drone, lockAdv := c.lockAdv, refPresent := c.refPresent, losses := c.losses, confirm := c.confirm,
               walks := c.walks, lastWalk := c.lastWalk, holdover := c.holdover, started := c.started, firstLock := c.firstLock,
               walk := c.walk, lockA := c.lockA, count := c.count, load := c.load, force := c.force, arm := c.arm,
               request := c.request, loaded := c.loaded, offset := c.offset, slewLeft := c.slewLeft, lastBeat := c.lastBeat, lastStamp := c.lastStamp }
      chanters := smap .init s.chanters fun _ x => { Chanter.init with losses := x.losses }
      zones := smap .init s.zones fun _ x => { ZoneClk.init with d1 := x.d1, d2 := x.d2, d3 := x.d3, phase := x.phase, govBreaths := x.govBreaths }
      links := smap .init s.links fun _ x => { Link.init with trains := x.trains }
      pwr := { Pwr.init with
               vinHigh := w.vinHigh, vinGood := w.vinGood, vinTick := w.vinTick, k := w.k, estMs := w.estMs, vInt := w.vInt, vIo := w.vIo, vSram := w.vSram, vStack := w.vStack,
               coreGood := w.coreGood, vcore := w.vcore, vtarget := w.vtarget, vinWarn := w.vinWarn, savedPoint := w.savedPoint,
               savedDuty := w.savedDuty, quiesced := w.quiesced, coolSince := w.coolSince, warnCount := w.warnCount,
               dSummit := w.dSummit, dAllot := w.dAllot, dThermal := w.dThermal, dVin := w.dVin, throttle := w.throttle,
               pointTens := w.pointTens, energy := w.energy, hourMax := w.hourMax, ageTick := w.ageTick }
      latch := s.latch
      flt := { r.flt with struck := s.flt.struck, seq := s.flt.seq }
      pins := { r.pins with thermTrip := s.pins.thermTrip }
      boot := { Boot.init with
                phase := .bringup, step := 2, cause := 2, warmCount := satInc s.boot.warmCount, qresets := s.boot.qresets,
                startTick := s.tick, stepTick := s.tick, isWarm := true, env := env } }
  let r := { r with pst := { r.pst with kwh := totalKwh s } }
  bootGo (updAlert r)
/-- RST_REGION_LOW: RST_REGION_N held low for ns nanoseconds: under 0.8 µs ignored, from 1.2 µs a cold reset; the wafer must not drive a pulse between (R33). -/
def execRstRegionLow (ns : Nat) (s : State) : Host.Outcome State Fault Refusal :=
  if ns < 800 then .next s
  else if ns < 1200 then .fault .forbiddenPulse
  else
    .next <|
      if !s.pins.rstN then s
      else
        let s := s.modPins fun p => { p with rstN := false }
        if s.boot.phase = .unpowered then s else coldReset s 1 s.boot.powerFail true
/-- A power-fail reset: cause 3 low, 4 high; the region stays in reset until its release (R350, R351, R404). -/
def powerFail (s : State) (cause : Nat) : State :=
  if s.boot.phase = .unpowered then s else coldReset s cause true (cause == 4)
/-- OVERVOLTAGE: V_IN_40 above 46.0 V for 2 µs (R327). -/
def execOvervoltage (s : State) : Host.Outcome State Fault Refusal := .next (powerFail s 4)
/-- POWER_FAIL_RESET: V_IN_40 at or below 30.0 V for 1 µs (R348, R350). -/
def execPowerFailReset (s : State) : Host.Outcome State Fault Refusal := .next (powerFail s 3)

end Sys2Proof.Machine
end

