-- ==== Sys2Proof/Machine/Window.lean ====
section
/-! DEFINITION. The management window (R6 to R11, R394, R432 to R439): writes and reads through its two ports, and every row that is one of them. A write is one operation, winWrite, whatever brings it: a row of its own, a WR frame, a WIN_WR packet. -/

namespace Sys2Proof.Machine

/-! Writes, by block. -/

/-- STATUS of an access (Table 13-2). -/
def stAccepted : Nat := 0
def stRejected : Nat := 1
def stBusy : Nat := 2
/-- Bits of v that are 1 clear the bits of x (W1C). -/
def w1c {w : Nat} (x : BitVec w) (v : Word) : BitVec w := x &&& ~~~(v.setWidth w)
/-- Bits 31:6 of an address register: the low 26 of a 42-bit field of 64-byte units. -/
def putLo (x : BitVec 42) (v : Word) : BitVec 42 := setFld x 0 26 (fld v 6 26)
/-- Bits 47:32. -/
def putHi (x : BitVec 42) (v : Word) : BitVec 42 := setFld x 26 16 (fld v 0 16)
/-- log2 of a ring size, stored clamped to 6 to 16 (R388). -/
def clampLog2 (n : Nat) : BitVec 5 := BitVec.ofNat 5 (max 6 (min 16 n))
/-- A key of 13 words as its 49 bytes (R397). -/
def keyRegs (k : Sparse Word) : BitVec 392 := BitVec.ofNat 392 (packNat 32 (fun i => (sget 0 k i).toNat) 13)
/-- The word of ENABLED and REVOKED (Table 14-8). -/
def keyBits (enabled revoked : BitVec 4) : Word := BitVec.ofNat 32 (revoked.toNat * 16 + enabled.toNat)
/-- Words of a key slot in the persistent store (Table 14-8). -/
def keyWord (slot i : Nat) : Nat := 0x048 + 13 * slot + i
/-- An INSTALL ends with a RESULT: 1 OK, 2 INVALID_POINT, 3 SLOT_USED, 4 WORN (Table 13-17). -/
def endInstall (s : State) (r : BitVec 3) : State := s.modFw fun f => { f with install := false, result := r }
/-- A REVOKE ends with a RESULT. -/
def endRevoke (s : State) (r : BitVec 3) : State := s.modFw fun f => { f with revoke := false, revoking := false, result := r }
/-- What waits for word 0x07C begins to persist there, REVOKE first: REVOKED without ENABLED, or ENABLED of an installed slot that has not been revoked meanwhile (R397). -/
def keyBitsGo (s : State) : State :=
  let f := s.fw
  let k := f.revSlot.toNat
  let i := f.instSlot.toNat
  if pstBusy s 0x07C then s
  else if f.revoke && !f.revoking then
    let t := pstWrite s 0x07C (keyBits (setBit f.enabled k false) (setBit f.revoked k true))
    if pstAccepts s 0x07C then t.modFw fun f => { f with revoking := true } else endRevoke t 4
  else if f.install && f.instPos == 13 then
    if bit f.revoked i then endInstall s 3
    else
      let t := pstWrite s 0x07C (keyBits (setBit f.enabled i true) f.revoked)
      if pstAccepts s 0x07C then t.modFw fun f => { f with instPos := 14 } else endInstall t 4
  else s
/-- The key word at which an INSTALL stands begins to persist (R397). -/
def keyWordGo (s : State) : State :=
  let f := s.fw
  let w := keyWord f.instSlot.toNat f.instPos
  let t := pstWrite s w (sget 0 f.instKey f.instPos)
  if pstAccepts s w then t else endInstall t 4
/-- ENABLED and REVOKED as the persistent store holds them, for a key operation that comes before bring-up step 3 has loaded them (R389, R397). -/
def keysKnown (s : State) : State :=
  if s.ready || decide (3 ≤ s.boot.step.toNat) || s.fw.install || s.fw.revoke then s
  else s.modFw fun f => { f with revoked := (pstRead s 0x07C).extractLsb' 4 4, enabled := (pstRead s 0x07C).extractLsb' 0 4 }
/-- INSTALL into a slot: checked, then its words persist one after another, and ENABLED once they have (R397); a write while one is in progress is ignored (log 146). -/
def installKey (s : State) (k : Nat) : State :=
  if s.fw.install then s
  else if bit s.fw.enabled k || bit s.fw.revoked k then endInstall s 3
  else if !onCurve (keyRegs s.fw.key) || fld (sget 0 s.fw.key 12) 8 24 != 0 then endInstall s 2
  else keyWordGo (s.modFw fun f => { f with install := true, instSlot := BitVec.ofNat 2 k, instKey := f.key, instPos := 0 })
/-- REVOKE of a slot, for good (R397); a write while one is in progress is ignored (log 146). -/
def revokeKey (s : State) (k : Nat) : State :=
  if s.fw.revoke then s
  else keyBitsGo (s.modFw fun f => { f with revoke := true, revoking := false, revSlot := BitVec.ofNat 2 k })
/-- A word of the key slots has persisted: the operation that waited for it goes on, or is done (R397, R406). -/
def keyAck (s : State) (w : Nat) : State :=
  let f := s.fw
  let r := f.revSlot.toNat
  let i := f.instSlot.toNat
  if w = 0x07C then
    keyBitsGo <|
      if f.revoking then
        endRevoke (s.modFw fun f => { f with enabled := setBit f.enabled r false, revoked := setBit f.revoked r true }) 1
      else if f.install && f.instPos == 14 then
        endInstall (s.modFw fun f => { f with enabled := setBit f.enabled i true }) 1
      else s
  else if f.install && decide (f.instPos < 13) && w == keyWord i f.instPos then
    let s := s.modFw fun f => { f with instPos := f.instPos + 1 }
    if s.fw.instPos = 13 then keyBitsGo s else keyWordGo s
  else s
/-- REGION_FW_CTL.UPDATE: the image's reads begin; ignored before READY and while one runs; a slot that has taken 1,000 updates is WORN (R396, Table 13-13). -/
def fwUpdateStart (s : State) : State :=
  if !s.ready || s.fw.update == 1 then s
  else if 1000 ≤ (fwSlot s.fw (!s.fw.active)).updates then s.modFw fun f => { f with update := 3, error := 4 }
  else fwAsk (s.modFw fun f => { f with update := 1, error := 0, pending := false, updAddr := f.addr, img := [], got := 0 })
/-- A write of REGION registers (Table 15-2); a REGION_EVT_HEAD outside the ring is ignored (R375), and so is an INSTALL or REVOKE that comes over the fabric (R397). `env` is what a bring-up that WARM starts meets outside. -/
def writeRegion (s : State) (p : WinPort) (env : BootEnv) (o : Nat) (v : Word) : State :=
  let ring := p == .ring
  match o with
  | 0x40 =>
    let s := forEach ((upto 4).filter (bit v)) s quarterReset
    if bit v 4 && ring && s.ready then warmReset s env else s
  | 0x4C => pstWrite s 0x044 (v &&& 0x00FFFFFF)
  | 0x50 => pstWrite s 0x045 v
  | 0x58 => s.modFw fun f => { f with addr := putLo f.addr v }
  | 0x5C => s.modFw fun f => { f with addr := putHi f.addr v }
  | 0x60 => if bit v 0 then fwUpdateStart s else s
  | 0x200 => s.modEvt fun e => { e with base := putLo e.base v }
  | 0x204 => s.modEvt fun e => { e with base := putHi e.base v }
  | 0x208 => evtRoom (s.modEvt fun e => { e with enable := bit v 31, irqEn := v.extractLsb' 8 16, log2 := clampLog2 (fld v 0 5) })
  | 0x20C => if evtSize s.evt ≤ fld v 0 16 then s else evtRoom (s.modEvt fun e => { e with head := v.extractLsb' 0 16 })
  | 0x214 => s.modEvt fun e => { e with msiAddr := setFld e.msiAddr 0 30 (fld v 2 30) }
  | 0x218 => s.modEvt fun e => { e with msiAddr := setFld e.msiAddr 30 32 v.toNat }
  | 0x21C => s.modEvt fun e => { e with msiData := v }
  | 0x340 =>
    if !ring && (bit v 0 || bit v 1) then s
    else
      let k := fld v 4 2
      let s := keysKnown (s.modFw fun f => { f with slot := v.extractLsb' 4 2 })
      let s := if bit v 0 then installKey s k else s
      if bit v 1 then revokeKey s k else s
  | _ => match regIdx 0x300 4 13 o with
    | some i => s.modFw fun f => { f with key := sset 0 f.key i v }
    | none => s
/-- A write of CLK registers (Table 15-3): ARM after READY with FORCE 1 waits for every quarter to be stopped (R317); RESET acts before START (R291). -/
def writeClk (s : State) (o : Nat) (v : Word) : State :=
  match o with
  | 0x04 => bootGo (s.modClk fun c => { c with confirm := bit v 0 })
  | 0x28 => s.modClk fun c => { c with load := setFld c.load 0 32 v.toNat }
  | 0x2C => s.modClk fun c => { c with load := setFld c.load 32 32 v.toNat }
  | 0x30 =>
    s.modClk fun c => { c with force := bit v 1, arm := c.arm || (bit v 0 && armOk s (bit v 1)) }
  | 0x44 => s.modClk fun c => { c with events := w1c c.events v }
  | _ => match regIdx 0x100 8 48 o, regIdx 0x104 8 48 o with
    | some z, _ =>
      let s := s.modChanter z fun c => { c with ctlCode := v.extractLsb' 0 11 }
      let s := if bit v 30 && (quarterHalted s (z / 12) || (s.quarter (z / 12)).inReset) then resetChanter s z else s
      if bit v 31 then startChanter s z (v.extractLsb' 0 11) else s
    | none, some z => if bit v 28 then s.modChanter z fun c => { c with tooLarge := false } else s
    | none, none => s
/-- STR_ALIGN_CTL.ALIGN[q]: acted on only while quarter q is halted with every chanter LOCKED, and no alignment of it runs (R315). -/
def alignWrite (s : State) (q : Nat) : State :=
  if quarterHalted s q && !(s.quarter q).inReset && (s.align q).phase == 0 && (alZones s q).all fun z => (s.chanter z).state == .locked then
    requestAlign s q true
  else s
/-- A write of STR registers (Table 15-4). -/
def writeStr (s : State) (o : Nat) (v : Word) : State :=
  match o with
  | 0x00 => s.modStr fun r => { r with consForce := bit v 0 }
  | 0x04 => forEach ((upto 4).filter (bit v)) s alignWrite
  | 0x0C => s.modStr fun r => { r with events := w1c r.events v }
  | 0x20 => s.modStr fun r => { r with timeSel := v.extractLsb' 0 6 }
  | _ => s
/-- A write of PWR registers (Table 15-5): the allotment is stored clamped to 200 to 1,700 W (Table 11-10). -/
def writePwr (s : State) (o : Nat) (v : Word) : State :=
  match o with
  | 0x00 => s.modPwr fun w => { w with normal := bit v 0 }
  | 0x04 => s.modPwr fun w => { w with maxPoint := v.extractLsb' 8 3, hints := bit v 0 }
  | 0x08 => s.modPwr fun w => { w with allot := BitVec.ofNat 16 (max 200 (min 1700 (fld v 0 16))) }
  | 0x0C => if bit v 31 then s.modPwr fun w => { w with capFloor := false } else s
  | 0x90 => s.modPwr fun w => { w with thermSel := v.extractLsb' 0 6 }
  | _ => match regIdx 0x40 4 8 o with
    | some k => s.modPwr fun w => { w with pitch := sset 0 w.pitch k (v.extractLsb' 0 16) }
    | none => s
/-- A write of queue n's CMD registers (Table 15-6): CMD_Q_CFG only while it is DISABLED (R388), and held completions follow into a CQ that it makes larger (R367). -/
def writeQueue (s : State) (n o : Nat) (v : Word) : State :=
  match o with
  | 0x00 => s.modQueue n fun q => { q with sqBase := putLo q.sqBase v }
  | 0x04 => s.modQueue n fun q => { q with sqBase := putHi q.sqBase v }
  | 0x08 => s.modQueue n fun q => { q with cqBase := putLo q.cqBase v }
  | 0x0C => s.modQueue n fun q => { q with cqBase := putHi q.cqBase v }
  | 0x10 =>
    if queueState (s.queue n) ≠ 0 then s
    else flushAll (s.modQueue n fun q =>
      { q with sqLog2 := clampLog2 (fld v 27 5), cqLog2 := clampLog2 (fld v 22 5), irqCount := v.extractLsb' 8 8, irqDelay := v.extractLsb' 0 8 }) n
  | 0x14 =>
    let s := queueEnableWrite s n (bit v 0)
    if bit v 1 then queueResetWrite s n else s
  | 0x20 => s.modQueue n fun q => { q with msiAddr := setFld q.msiAddr 0 30 (fld v 2 30) }
  | 0x24 => s.modQueue n fun q => { q with msiAddr := setFld q.msiAddr 30 32 v.toNat }
  | 0x28 => s.modQueue n fun q => { q with msiData := v }
  | _ => s
/-- A write of sequencer q's registers (Table 15-7). -/
def writeSeqq (s : State) (q o : Nat) (v : Word) : State :=
  match o with
  | 0x00 => s.modSeqq q fun x => { x with tableLo := v.extractLsb' 6 26 }
  | 0x04 => s.modSeqq q fun x => { x with src := bit v 31, tableHi := v.extractLsb' 0 16 }
  | 0x08 =>
    let s := if bit v 0 && (s.service q).state == .off then svcStart s q else s
    let s := if bit v 1 then svcStop s q else s
    if bit v 2 then svcDrain s q else s
  | _ => s
/-- FAB_CTL is ignored as a whole where it would leave INJ_CAIRN naming a shadow version (R238). -/
def fabCtl (s : State) (v : Word) : State :=
  if bit v (b2n (bit v 8)) then s else s.modFab fun f => { f with injCairn := bit v 8, shadow := v.extractLsb' 0 2 }
/-- FAB_DRAIN[v].SEEN clears, unless packets of the version are present, or were as the tick began (R10, R240). -/
def clearSeen (s : State) (v : Bool) : State :=
  if fabCount s v = 0 && fabCount { s with toBody := s.found } v = 0 then s.modFab fun f => { f with seen := setBit f.seen (b2n v) false } else s
/-- FAB_TBL_CMD starts an operation, unless one is in progress (R442). -/
def tblCmd (s : State) (v : Word) : State :=
  if s.fab.op.isSome || fld v 0 3 == 0 then s
  else s.modFab fun f =>
    { f with op := some ⟨f.selRouter.toNat, f.selTable.toNat, f.selVersion.toNat, f.key.toNat, f.data, v.extractLsb' 0 3⟩ }
/-- A write of FAB registers (Table 15-8). -/
def writeFab (s : State) (o : Nat) (v : Word) : State :=
  match o with
  | 0x00 => fabCtl s v
  | 0x04 => if bit v 31 then clearSeen s false else s
  | 0x08 => if bit v 31 then clearSeen s true else s
  | 0x10 => s.modFab fun f => { f with selTable := v.extractLsb' 14 2, selVersion := v.extractLsb' 13 1, selRouter := v.extractLsb' 0 6 }
  | 0x14 => s.modFab fun f => { f with key := v.extractLsb' 0 24 }
  | 0x18 => s.modFab fun f => { f with data := setFld f.data 0 32 v.toNat }
  | 0x1C => s.modFab fun f => { f with data := setFld f.data 32 32 v.toNat }
  | 0x20 => tblCmd s v
  | _ => s
/-- LNK_CTL (Table 7-24): ENABLE 0 takes the link DOWN and holds it DISABLED; ENABLE 1 again starts its training; QUICK acts on an UP link (R251 to R253). -/
def writeLink (s : State) (n : Nat) (v : Word) : State :=
  let was := (s.link n).enable
  let s := s.modLink n fun l => { l with enable := bit v 0 }
  if !bit v 0 then (if was then (linkDown s n).modLink n fun l => { l with state := .disabled } else s)
  else
    let s := if was then s else linkTrain (s.modLink n fun l => { l with state := .down }) n
    let s := if bit v 1 && was then linkTrain s n else s
    if bit v 2 && (s.link n).state == .up then linkQuick s n else s
/-- A write of piton engine q's registers (Table 15-10): CLEAR_ALL acts while the quarter is halted. -/
def writePit (s : State) (q o : Nat) (v : Word) : State :=
  match o with
  | 0x00 => s.modPitQ q fun x => { x with sel := v.extractLsb' 0 15 }
  | 0x1C => if bit v 0 && quarterHalted s q then clearPitons s q else s
  | _ => s
/-- A write of FLT registers (Table 15-11). -/
def writeFlt (s : State) (o : Nat) (v : Word) : State :=
  match o with
  | 0x00 => updAlert (s.modFlt fun f => { f with summary := w1c f.summary v })
  | 0x04 => updAlert (s.modFlt fun f => { f with mask := v.extractLsb' 0 10 })
  | 0x08 =>
    let s := s.modFlt fun f => { f with strikes := v.extractLsb' 4 2 }
    let s := if bit v 1 then releaseField s else s
    let s := if bit v 0 then captureNow s else s
    forEach ((upto 4).filter fun q => bit v (8 + q)) s rearmQ
  | 0x24 => s.modFlt fun f => { f with recIndex := v.extractLsb' 3 7, recWord := v.extractLsb' 0 3 }
  | 0x30 => s.modFlt fun f => { f with fieldSel := v.extractLsb' 0 14 }
  | _ => s
/-- Persistent-store words that PST_WORD writes (Table 14-8). -/
def pstHostWord (w : Nat) : Bool := decide (0x100 ≤ w ∧ w ≤ 0x10F) || decide (0x800 ≤ w ∧ w ≤ 0xFFF)
/-- A write of PST registers (Table 15-12). -/
def writePst (s : State) (o : Nat) (v : Word) : State :=
  match o with
  | 0x4000 => s.modPst fun p => { p with worn := p.worn && !bit v 30, bad := p.bad && !bit v 29 }
  | 0x4004 => s.modPst fun p => { p with wearSel := v.extractLsb' 0 12 }
  | _ => match regIdx 0 4 4096 o with
    | some w => if pstHostWord w then pstWrite s w v else s
    | none => s
/-- A write of streamer q's registers (Table 15-13). -/
def writeCfg (s : State) (q o : Nat) (v : Word) : State :=
  match o with
  | 0x00 => s.modCfg q fun c => { c with planLo := v.extractLsb' 6 26 }
  | 0x04 => s.modCfg q fun c => { c with src := bit v 31, planHi := v.extractLsb' 0 16 }
  | 0x08 => s.modCfg q fun c => { c with entries := v.extractLsb' 0 16 }
  | 0x0C =>
    let s := if bit v 0 then cfgBegin s q none else s
    if bit v 1 then cfgAbort s q else s
  | _ => s
/-- A write of zone page z (Table 15-15), ignored while its quarter is in reset (R438); clearing TRIPPED ends the records' hold (R175). -/
def writeZone (s : State) (z o : Nat) (v : Word) : State :=
  if (s.quarter (z / 12)).inReset then s
  else match o with
    | 0x800 => s.modZpage z fun p => { p with arithUnit := v.extractLsb' 8 8, arithItem := v.extractLsb' 0 6 }
    | 0x808 => s.modZpage z fun p => { p with summary := w1c p.summary v }
    | 0x810 => s.modZpage z fun p => { p with unitUnit := v.extractLsb' 8 8, unitItem := v.extractLsb' 0 3 }
    | 0x824 => if bit v 31 then s.modZpage z fun p => { p with tripped := false } else s
    | 0x828 => s.modZpage z fun p => { p with dlwSel := v.extractLsb' 0 4 }
    | _ => s
/-- A doorbell write (R363), ignored while the queue is DISABLED or RESETTING (R439). -/
def writeDoorbell (s : State) (n o : Nat) (v : Word) : State :=
  let st := queueState (s.queue n)
  if st = 0 ∨ st = 3 then s
  else match o with
    | 0 => dbTailWrite s n (v.extractLsb' 0 16)
    | 4 => dbHeadWrite s n (v.extractLsb' 0 16)
    | _ => s
/-- The effect of a write that the window accepts (Table 15-1); an offset without a register ignores it (R8). -/
def applyWrite (s : State) (p : WinPort) (env : BootEnv) (off : Nat) (v : Word) : State :=
  let o := off % 0x10000
  match off / 0x10000 with
  | 0x0 => writeRegion s p env o v
  | 0x1 => writeClk s o v
  | 0x2 => writeStr s o v
  | 0x3 => writePwr s o v
  | 0x4 => if o / 0x40 < 64 then writeQueue s (o / 0x40) (o % 0x40) v else s
  | 0x5 => if o / 0x40 < 4 then writeSeqq s (o / 0x40) (o % 0x40) v else s
  | 0x6 => writeFab s o v
  | 0x8 => match regIdx 0 0x10 32 o with
    | some n => writeLink s n v
    | none => s
  | 0x9 => match regIdx 0x18 0x40 8 o with
    | some k => s.modWs k fun w => { w with blkSel := v.extractLsb' 0 12 }
    | none => s
  | 0xA => if o / 0x40 < 4 then writePit s (o / 0x40) (o % 0x40) v else s
  | 0xB => writeFlt s o v
  | 0xC => writePst s o v
  | 0xD => if o / 0x40 < 4 then writeCfg s (o / 0x40) (o % 0x40) v else s
  | b =>
    if 0x10 ≤ b ∧ b < 0x1C then writeZone s ((off - 0x100000) / 0x4000) (off % 0x4000) v
    else if 0x40 ≤ b ∧ b < 0x44 then writeDoorbell s ((off - 0x400000) / 0x1000) (off % 0x1000) v
    else s

/-! What the ports accept. -/

/-- Held in reset: neither writes nor other reads than identity and status (R399). -/
def heldInReset (s : State) : Bool := s.boot.phase == .held || s.boot.phase == .unpowered
/-- Registers whose writes are accepted before READY: those of the clocks that R394 names, and every REGION register of Table 13-8 but REGION_CTL. -/
def earlyWrite (off : Nat) : Bool :=
  [0x10004, 0x10028, 0x1002C, 0x10030, 0x44, 0x48, 0x4C, 0x50, 0x54, 0x58, 0x5C, 0x60, 0x340, 0x344].contains off || (regIdx 0x300 4 13 off).isSome
/-- Registers read while the region is held in reset (R399). -/
def heldRead (off : Nat) : Bool := [0x00, 0x04, 0x08, 0x0C, 0x10, 0x44, 0x48].contains off
/-- Word of the persistent store behind a WP register, if the offset is one. -/
def wpWord (off : Nat) : Option Nat :=
  if off = 0x4C then some 0x044 else if off = 0x50 then some 0x045
  else match regIdx 0xC0000 4 4096 off with
    | some w => if pstHostWord w then some w else none
    | none => none
/-- A write that is ignored as a whole, and so leaves the tick as if it had not come (R435): INSTALL or REVOKE over the fabric (R397), a head outside the event ring (R375), a FAB_CTL that R238 forbids, CMD_Q_CFG of a queue not DISABLED (R388), a doorbell of one DISABLED or RESETTING (R439), a zone page of a quarter in reset (R438). -/
def ignoredWrite (s : State) (p : WinPort) (off : Nat) (v : Word) : Bool :=
  let o := off % 0x10000
  match off / 0x10000 with
  | 0x0 => (off == 0x340 && p == .fabric && (bit v 0 || bit v 1)) || (off == 0x20C && decide (evtSize s.evt ≤ fld v 0 16))
  | 0x4 => decide (o / 0x40 < 64) && o % 0x40 == 0x10 && queueState (s.queue (o / 0x40)) != 0
  | 0x6 => o == 0 && bit v (b2n (bit v 8))
  | b =>
    if 0x10 ≤ b ∧ b < 0x1C then (s.quarter ((off - 0x100000) / 0x4000 / 12)).inReset
    else
      decide (0x40 ≤ b ∧ b < 0x44) &&
        (queueState (s.queue ((off - 0x400000) / 0x1000)) == 0 || queueState (s.queue ((off - 0x400000) / 0x1000)) == 3)
/-- A ring write that finds other events between itself and the fabric's write f of the same register: the RW fields of f stand, a bit that f has set or cleared stays as it is (R435, log 60). -/
def writeOver (s : State) (env : BootEnv) (off : Nat) (v f : Word) : State :=
  let s := applyWrite s .ring env off (writtenValue s off v)
  if rwBits off = 0 then s else applyWrite s .fabric env off (f &&& ~~~w1Bits off)
/-- The window takes a write of a register now: the region is not held in reset, and before READY only registers of bring-up are written (R394, R399). -/
def writeOpen (s : State) (off : Nat) : Bool := !heldInReset s && (s.ready || earlyWrite off)
/-- A ring write goes before the fabric's write f of the same register in this tick: with nothing in between, the region is taken back to before f, the ring's write acts, and then f, if it is still taken (R435). -/
def writeBefore (s : State) (env : BootEnv) (off : Nat) (v f : Word) : State :=
  match s.undo with
  | some u =>
    if w1Bits off ≠ 0 ∧ u.off = off ∧ s.toBody = u.after then
      let t := applyWrite { s with toBody := u.before } .ring env off (writtenValue s off v)
      let r := if writeOpen t off && !ignoredWrite t .fabric off f then applyWrite t .fabric env off (writtenValue t off f) else t
      { r with undo := some ⟨off, t.toBody, r.toBody⟩ }
    else writeOver s env off v f
  | none => writeOver s env off v f
/-- A fabric write of a register with bits W1C or W1S has brought s to t: what a ring write of it later in the tick goes back to (R435). -/
def keepUndo (s : State) (p : WinPort) (off : Nat) (t : State) : State :=
  if p = .fabric ∧ w1Bits off ≠ 0 then { t with undo := some ⟨off, s.toBody, t.toBody⟩ } else t
/-- A write that no other of the same tick meets. -/
def plainWrite (s : State) (p : WinPort) (env : BootEnv) (off : Nat) (v : Word) : State :=
  keepUndo s p off (noteWrite (applyWrite s p env off (writtenValue s off v)) p off v)
/-- The fabric's write of persistent word w in this tick is the only one there is of it (R11). -/
def onlyWrite (s : State) (w : Nat) : Bool :=
  !(s.found.pst.busy.any fun b => b.1 == w) && (s.pst.busy.filter fun b => b.1 == w).length == 1 && !(s.pst.held.any fun b => b.1 == w)
/-- The store as it was before this tick's write of word w. -/
def unwrite (s : State) (w : Nat) : State :=
  s.modPst fun p =>
    { p with words := sset 0 p.words w (sget 0 s.found.pst.words w), writes := sset 0 p.writes w (sget 0 s.found.pst.writes w),
             busy := p.busy.filter fun b => b.1 != w }
/-- A write through a port: its STATUS and effect. Refused: an access that is not an aligned word (R7), or not accepted now (R394, R399); BUSY: a ring write of a word that is persisting (R11). A ring write goes before the fabric's of the same tick (R435). -/
def winWriteEnv (s : State) (p : WinPort) (env : BootEnv) (off size : Nat) (v : Word) : Nat × State :=
  if size ≠ 4 ∨ off % 4 ≠ 0 ∨ !writeOpen s off then (stRejected, s)
  else
    match wpWord off, fabricFirst s p off with
    | some w, some f =>
      if pstBusy s w && !onlyWrite s w then (stBusy, s)
      else (stAccepted, noteWrite (writeBefore (if pstBusy s w then unwrite s w else s) env off v f) p off v)
    | some w, none => if p == .ring && pstBusy s w then (stBusy, s) else (stAccepted, plainWrite s p env off v)
    | none, some f => (stAccepted, noteWrite (writeBefore s env off v f) p off v)
    | none, none => if ignoredWrite s p off v then (stAccepted, s) else (stAccepted, plainWrite s p env off v)
/-- A write whose WARM, if it is one, meets nothing amiss outside. -/
def winWrite (s : State) (p : WinPort) (off : Nat) (v : Word) : State := (winWriteEnv s p .good off 4 v).2
/-- A read through a port: STATUS, value, and its effect (R7, R8, R394, R399). -/
def winRead (s : State) (p : WinPort) (off size : Nat) : Nat × Word × State :=
  if size ≠ 4 ∨ off % 4 ≠ 0 ∨ (heldInReset s && !heldRead off) then (stRejected, 0, s)
  else (stAccepted, portValue s p off, readEffect s p off)

/-! Rows that are one access. -/

/-- One access as a row's outcome. -/
def wrRow (s : State) (p : WinPort) (off : Nat) (v : Word) : Host.Outcome State Fault Refusal := .next (winWrite s p off v)
def rdRow (s : State) (p : WinPort) (off : Nat) : Host.Outcome State Fault Refusal := .next (winRead s p off 4).2.2

/-- REGISTER_WRITE (R7 to R10). -/
def execRegisterWrite (p : WinPort) (off : BitVec 24) (size : Nat) (v : Word) (s : State) : Host.Outcome State Fault Refusal :=
  .next (winWriteEnv s p .good off.toNat size v).2
/-- WP_WRITE (R11). -/
def execWpWrite (p : WinPort) (off : BitVec 24) (v : Word) (s : State) : Host.Outcome State Fault Refusal :=
  match wpWord off.toNat with
  | some _ => wrRow s p off.toNat v
  | none => .next s
/-- The next held write of word w begins to persist. -/
def pstNext (p : Pst) (w : Nat) : Pst :=
  match p.held.find? fun h => h.1 == w with
  | some h => { p with held := p.held.erase h, busy := p.busy ++ [h] }
  | none => p
/-- PERSIST_ACK: the oldest write of the word has persisted; a word found bad is good, a trim lowering is applied, a key operation goes on, the next held write begins (R11, R332, R397, R426). -/
def execPersistAck (w : Fin 4096) (s : State) : Host.Outcome State Fault Refusal :=
  .next <|
    match s.pst.busy.find? fun b => b.1 == w.val with
    | some b =>
      let s := s.modPst fun p => pstNext { p with busy := p.busy.erase b, badWords := p.badWords.filter (· != w.val) } w
      match regIdx 0x040 1 4 w with
      | some q => trimAck s q
      | none => keyAck s w
    | none => s
/-- LATCHED_LO_READ (R436). -/
def execLatchedLoRead (p : WinPort) (off : BitVec 24) (s : State) : Host.Outcome State Fault Refusal :=
  if (live64 s off.toNat).isSome then rdRow s p off.toNat else .next s
/-- ZONE_ARITH_DATA_READ (R79). -/
def execZoneArithDataRead (p : WinPort) (z : Fin 48) (s : State) : Host.Outcome State Fault Refusal := rdRow s p (0x100804 + 0x4000 * z.val)
/-- UNROUTE_COUNT_READ (R235). -/
def execUnrouteCountRead (p : WinPort) (s : State) : Host.Outcome State Fault Refusal := rdRow s p 0x60030
/-- PIT_ERR_READ (R269). -/
def execPitErrRead (p : WinPort) (q : Fin 4) (s : State) : Host.Outcome State Fault Refusal := rdRow s p (0xA0014 + 0x40 * q.val)
/-- QRESET (R402). -/
def execQreset (p : WinPort) (q : Fin 4) (s : State) : Host.Outcome State Fault Refusal := wrRow s p 0x40 (oneBit q)
/-- WARM (R403). -/
def execWarm (p : WinPort) (env : BootEnv) (s : State) : Host.Outcome State Fault Refusal := .next (winWriteEnv s p env 0x40 4 (oneBit 4)).2
/-- CFG_CTL.START (R168). -/
def execStart (p : WinPort) (q : Fin 4) (s : State) : Host.Outcome State Fault Refusal := wrRow s p (0xD000C + 0x40 * q.val) 1
/-- CFG_CTL.ABORT (R168). -/
def execAbort (p : WinPort) (q : Fin 4) (s : State) : Host.Outcome State Fault Refusal := wrRow s p (0xD000C + 0x40 * q.val) 2
/-- FAB_CTL_WRITE (R238). -/
def execFabCtlWrite (p : WinPort) (v : Word) (s : State) : Host.Outcome State Fault Refusal := wrRow s p 0x60000 v
/-- FAB_TBL_CMD.WRITE (R442). -/
def execTblWrite (p : WinPort) (v : Word) (s : State) : Host.Outcome State Fault Refusal := wrRow s p 0x60020 (v ||| 1)
/-- FAB_TBL_CMD.READ (R442). -/
def execTblRead (p : WinPort) (v : Word) (s : State) : Host.Outcome State Fault Refusal := wrRow s p 0x60020 (v ||| 2)
/-- FAB_TBL_CMD.DELETE (R442). -/
def execTblDelete (p : WinPort) (v : Word) (s : State) : Host.Outcome State Fault Refusal := wrRow s p 0x60020 (v ||| 4)
/-- LNK_CTL with ENABLE as it stands and bit i set. -/
def linkCtl (s : State) (n i : Nat) : Word := w32 (b2n (s.link n).enable) ||| oneBit i
/-- LNK_CTL.QUICK (R251). -/
def execQuick (p : WinPort) (n : Fin 32) (s : State) : Host.Outcome State Fault Refusal := wrRow s p (0x80000 + 0x10 * n.val) (linkCtl s n 2)
/-- LNK_CTL.TRAIN (R252). -/
def execTrain (p : WinPort) (n : Fin 32) (s : State) : Host.Outcome State Fault Refusal := wrRow s p (0x80000 + 0x10 * n.val) (linkCtl s n 1)
/-- LNK_CTL.ENABLE (R253). -/
def execEnable (p : WinPort) (n : Fin 32) (v : Word) (s : State) : Host.Outcome State Fault Refusal := wrRow s p (0x80000 + 0x10 * n.val) v
/-- PIT_CTL.CLEAR_ALL (Table 8-11). -/
def execClearAll (p : WinPort) (q : Fin 4) (s : State) : Host.Outcome State Fault Refusal := wrRow s p (0xA001C + 0x40 * q.val) 1
/-- CLK_DRONE_CONFIRM_WRITE (R281). -/
def execClkDroneConfirmWrite (p : WinPort) (v : Word) (s : State) : Host.Outcome State Fault Refusal := wrRow s p 0x10004 v
/-- CLK_CHANTER_CTL[z].START (R291). -/
def execChanterStart (p : WinPort) (z : Fin 48) (v : Word) (s : State) : Host.Outcome State Fault Refusal :=
  wrRow s p (0x10100 + 8 * z.val) (v ||| oneBit 31)
/-- CLK_CHANTER_CTL[z].RESET (R291). -/
def execChanterReset (p : WinPort) (z : Fin 48) (v : Word) (s : State) : Host.Outcome State Fault Refusal :=
  wrRow s p (0x10100 + 8 * z.val) (v ||| oneBit 30)
/-- STR_ALIGN_CTL.ALIGN[q] (R315). -/
def execAlign (p : WinPort) (q : Fin 4) (s : State) : Host.Outcome State Fault Refusal := wrRow s p 0x20004 (oneBit q)
/-- CLK_DRONE_SYNC_CTL.ARM (R317). -/
def execArm (p : WinPort) (v : Word) (s : State) : Host.Outcome State Fault Refusal := wrRow s p 0x10030 (v ||| 1)
/-- PWR_ALLOT_WRITE (R333). -/
def execPwrAllotWrite (p : WinPort) (v : Word) (s : State) : Host.Outcome State Fault Refusal := wrRow s p 0x30008 v
/-- PWR_MODE_WRITE (R345, R346): the governor's next sample moves the region. -/
def execPwrModeWrite (p : WinPort) (v : Word) (s : State) : Host.Outcome State Fault Refusal := wrRow s p 0x30000 v
/-- DB_SQ_TAIL (R363). -/
def execDbSqTail (p : WinPort) (n : Fin 64) (v : Word) (s : State) : Host.Outcome State Fault Refusal := wrRow s p (0x400000 + 0x1000 * n.val) v
/-- DB_CQ_HEAD (R363). -/
def execDbCqHead (p : WinPort) (n : Fin 64) (v : Word) (s : State) : Host.Outcome State Fault Refusal := wrRow s p (0x400004 + 0x1000 * n.val) v
/-- REGION_EVT_HEAD_WRITE (R375). -/
def execRegionEvtHeadWrite (p : WinPort) (v : Word) (s : State) : Host.Outcome State Fault Refusal := wrRow s p 0x20C v
/-- CMD_Q_CTL.RESET (R383), ENABLE as it stands. -/
def execQueueReset (p : WinPort) (n : Fin 64) (s : State) : Host.Outcome State Fault Refusal :=
  wrRow s p (0x40014 + 0x40 * n.val) (w32 (2 + b2n (s.queue n).enable))
/-- CMD_Q_CTL.ENABLE (R364). -/
def execQueueEnable (p : WinPort) (n : Fin 64) (v : Word) (s : State) : Host.Outcome State Fault Refusal :=
  wrRow s p (0x40014 + 0x40 * n.val) (v &&& 1)
/-- CMD_Q_CFG_WRITE (R388). -/
def execCmdQCfgWrite (p : WinPort) (n : Fin 64) (v : Word) (s : State) : Host.Outcome State Fault Refusal := wrRow s p (0x40010 + 0x40 * n.val) v
/-- SEQ_CTL.START (R378). -/
def execSeqStart (p : WinPort) (q : Fin 4) (s : State) : Host.Outcome State Fault Refusal := wrRow s p (0x50008 + 0x40 * q.val) 1
/-- SEQ_CTL.STOP (R379). -/
def execStop (p : WinPort) (q : Fin 4) (s : State) : Host.Outcome State Fault Refusal := wrRow s p (0x50008 + 0x40 * q.val) 2
/-- SEQ_CTL.DRAIN (R379). -/
def execDrain (p : WinPort) (q : Fin 4) (s : State) : Host.Outcome State Fault Refusal := wrRow s p (0x50008 + 0x40 * q.val) 4
/-- REGION_FW_CTL.UPDATE (R396). -/
def execUpdate (p : WinPort) (s : State) : Host.Outcome State Fault Refusal := wrRow s p 0x60 1
/-- FW_UPDATE_COMPLETE: the read of the image has ended, `ok` once all of it has come, or a HOST_RD has failed; the image is verified and its VERSION checked, and PENDING set (R396). -/
def execFwUpdateComplete (ok : Bool) (s : State) : Host.Outcome State Fault Refusal :=
  .next <|
    let f := s.fw
    if f.update ≠ 1 || (ok && f.got != fwBytes) then s
    else
      let b := !f.active
      let img := f.img
      let good := ok && Config.fwVerify img && decide (f.version.toNat < (Config.fwVersion img).toNat)
      let e : Nat := if !ok then 1 else if !Config.fwVerify img then 2 else if good then 0 else 3
      let x : FwSlot := ⟨if ok then img else [], if ok then Config.fwLength img else 0, good, if ok then Config.fwVersion img else 0, (fwSlot f b).updates + 1⟩
      s.modFw fun f =>
        { f with update := if e = 0 then 2 else 3, error := BitVec.ofNat 4 e, pending := e == 0, img := [], got := 0,
                 slotA := if b then f.slotA else x, slotB := if b then x else f.slotB }
/-- REGION_AUTH_CTL.INSTALL (R397). -/
def execInstall (p : WinPort) (slot : Fin 4) (s : State) : Host.Outcome State Fault Refusal := wrRow s p 0x340 (w32 (16 * slot.val + 1))
/-- REGION_AUTH_CTL.REVOKE (R397). -/
def execRevoke (p : WinPort) (slot : Fin 4) (s : State) : Host.Outcome State Fault Refusal := wrRow s p 0x340 (w32 (16 * slot.val + 2))
/-- FLT_CTL with STRIKES as it stands and bit i set. -/
def fltCtl (s : State) (i : Nat) : Word := w32 (s.flt.strikes.toNat * 16) ||| oneBit i
/-- FLT_CTL.REARM[q] (R419). -/
def execRearm (p : WinPort) (q : Fin 4) (s : State) : Host.Outcome State Fault Refusal := wrRow s p 0xB0008 (fltCtl s (8 + q.val))
/-- FLT_CTL.CAPTURE (R428). -/
def execCapture (p : WinPort) (s : State) : Host.Outcome State Fault Refusal := wrRow s p 0xB0008 (fltCtl s 0)
/-- FLT_CTL.RELEASE (R428). -/
def execRelease (p : WinPort) (s : State) : Host.Outcome State Fault Refusal := wrRow s p 0xB0008 (fltCtl s 1)

/-! Window packets (Table 7-4). -/

/-- The packet is the oldest at the command front end's function of hub 0. -/
def feTakes (s : State) (pid kind : Nat) : Option Packet :=
  match findPacket s pid with
  | some p => if p.loc = .func 0 1 ∧ hKind p.hdr = kind ∧ oldestAt s p then some p else none
  | none => none
/-- The arrival of an accepted WIN_WR, which a ring write that goes before it leaves as it is (R262, R435). -/
def arriveWritten (s : State) (h : Row) (by_ : Option Nat) : State :=
  let t := arriveHdr s 48 h by_
  match s.undo with
  | some u =>
    if s.toBody = u.after then
      { t with undo := some { u with before := (arriveHdr { s with toBody := u.before } 48 h by_).toBody, after := t.toBody } }
    else t
  | none => t
/-- WIN_WR: INLINE bytes 0 to 3 are written at ADDR through the fabric port; the packet's piton then gains its arrival (R6, R262). -/
def execWinWr (pid : Nat) (s : State) : Host.Outcome State Fault Refusal :=
  .next <|
    match feTakes s pid 5 with
    | some p =>
      let s := winWrite (dropPacket s p) .fabric (hAddr p.hdr % 2 ^ 24) (BitVec.ofNat 32 (hInline p.hdr).toNat)
      arriveWritten s p.hdr (packetBy p)
    | none => s
/-- WIN_RD: the value read is answered in INLINE bytes 0 to 3 of a RESP (R6). -/
def execWinRd (pid : Nat) (s : State) : Host.Outcome State Fault Refusal :=
  .next <|
    match feTakes s pid 6 with
    | some p =>
      let (_, v, s) := winRead (dropPacket s p) .fabric (hAddr p.hdr % 2 ^ 24) 4
      localSend s 0 1 (respHdr p.hdr 0 v.toNat) []
    | none => s

end Sys2Proof.Machine
end

