-- ==== Sys2Proof/WellFormed.lean ====
section
/-! DEFINITION. Which commands are well formed: operands whose size the spec fixes and the type does not. -/

namespace Sys2Proof

/-- Lanes of one direction of a link (Table 7-11): data, control, check, spare, forwarded clock. -/
def linkLanes : Nat := 1024 + 32 + 16 + 16 + 8
/-- A command is well formed: an access is 1, 2 or 4 bytes long (R8), THERMAL_SAMPLE brings 64 readings (R357), TRAINING_END 32 calibration words (R247), LINK_EYE a word a lane (Table 13-3). -/
def Instr.wf : Instr → Bool
  | .registerWrite _ _ size _ => size == 1 || size == 2 || size == 4
  | .thermalSample readings => readings.length == 64
  | .trainingEnd _ r => r.calib.length == 32
  | .linkEye _ eyes => eyes.length == linkLanes
  | _ => true

end Sys2Proof
end

