-- ==== Sys2Proof/Machine/Mbao.lean ====
section
/-! DEFINITION. The management port: frames of the Mbao ring (R398, R399), the test access port and its instruments (R400), and V_AUX (R324, R399, R404). -/

namespace Sys2Proof.Machine

/-! Frames (Table 13-2). -/

def fSite (f : BitVec 128) : Nat := fld f 120 8
def fOp (f : BitVec 128) : Nat := fld f 116 4
def fTag (f : BitVec 128) : Nat := fld f 112 4
def fOff (f : BitVec 128) : Nat := fld f 88 24
def fData (f : BitVec 128) : Nat := fld f 16 64
/-- V_AUX is up, which powers the port. -/
def portUp (s : State) : Bool := s.boot.phase != .unpowered
/-- The frame is for this region, its CRC is good and its OP is op (R398). -/
def consumed (s : State) (f : BitVec 128) (op : Nat) : Bool :=
  portUp s && fSite f == s.ident.site.toNat && f.extractLsb' 0 16 == frameCrc16 f && fOp f == op
/-- RESP to a frame, with its TAG and OFFSET (R399). -/
def respond (s : State) (f : BitVec 128) (status data : Nat) : State := mbaoSend s (mbaoFrame s 3 (fTag f) (fOff f) status data)
/-- MBAO_FORWARD: a frame for another SITE goes on unchanged, whatever its CRC (R398). -/
def execMbaoForward (f : BitVec 128) (s : State) : Host.Outcome State Fault Refusal :=
  .next (if portUp s && fSite f != s.ident.site.toNat then mbaoSend s f else s)
/-- RD: a register is read and its value answered; a refused read has DATA 0 (R399). -/
def execRd (f : BitVec 128) (s : State) : Host.Outcome State Fault Refusal :=
  .next <|
    if consumed s f 1 then
      let (st, v, s) := winRead s .ring (fOff f) 4
      respond s f st v.toNat
    else s
/-- WR: DATA[31:0] is written, and STATUS says whether the write was accepted (R11, R399). -/
def execWr (f : BitVec 128) (s : State) : Host.Outcome State Fault Refusal :=
  .next <|
    if consumed s f 2 then
      let (st, s) := winWriteEnv s .ring .good (fOff f) 4 (BitVec.ofNat 32 (fData f))
      respond s f st 0
    else s
/-- IDLE: no effect (R398). -/
def execIdle (_f : BitVec 128) (s : State) : Host.Outcome State Fault Refusal := .next s
/-- RESP: no effect (R398). -/
def execMbaoResp (_f : BitVec 128) (s : State) : Host.Outcome State Fault Refusal := .next s
/-- NEED: no effect (R398). -/
def execNeed (_f : BitVec 128) (s : State) : Host.Outcome State Fault Refusal := .next s
/-- A reserved OP is answered REFUSED with DATA 0 (R398). -/
def execMbaoReservedOp (f : BitVec 128) (s : State) : Host.Outcome State Fault Refusal :=
  .next (if decide (6 ≤ fOp f) && consumed s f (fOp f) then respond s f stRejected 0 else s)

/-! The test access port. Its controller is that of IEEE 1149.1 (log 34). -/

/-- The controller's next state. -/
def tapNext (t : TapState) (tms : Bool) : TapState :=
  match t with
  | .testLogicReset => if tms then .testLogicReset else .runTestIdle
  | .runTestIdle | .updateDr | .updateIr => if tms then .selectDr else .runTestIdle
  | .selectDr => if tms then .selectIr else .captureDr
  | .captureDr | .shiftDr => if tms then .exit1Dr else .shiftDr
  | .exit1Dr => if tms then .updateDr else .pauseDr
  | .pauseDr => if tms then .exit2Dr else .pauseDr
  | .exit2Dr => if tms then .updateDr else .shiftDr
  | .selectIr => if tms then .testLogicReset else .captureIr
  | .captureIr | .shiftIr => if tms then .exit1Ir else .shiftIr
  | .exit1Ir => if tms then .updateIr else .pauseIr
  | .pauseIr => if tms then .exit2Ir else .pauseIr
  | .exit2Ir => if tms then .updateIr else .shiftIr
/-- The instrument that an instruction names; a locked one acts as BYPASS (R400). -/
def instOf (code : Nat) : Instrument :=
  match code with
  | 0 => .idcode | 2 => .thermScan | 3 => .railScan | 4 => .linkEye | 5 => .pstRead | 6 => .fieldRecord | _ => .bypass
/-- Bits of an instrument's data register (Table 13-3). -/
def instWidth (i : Instrument) : Nat :=
  match i with
  | .idcode => 32 | .bypass => 1 | .thermScan => 1024 | .railScan => 160 | .linkEye => 16 * linkLanes
  | .pstRead => 64 * 4096 | .fieldRecord => 32 * 16384
/-- A reading of a rail that stands at mv within a tolerance in thousandths (Table 11-3), at a place the free number f decides; a rail that is not up reads f. -/
def railReading (up : Bool) (mv tol f : Nat) : Nat :=
  if up then mv - mv * tol / 1000 + f % (2 * (mv * tol / 1000) + 1) else f
/-- What RAIL_SCAN reads in mV, lowest first as Table 13-3 lists it: V_IN_40 as measured over the last 1 ms, each rail that is up within its tolerance; what is not measured or not up is a free value (R326, R400, log 142). -/
def railValue (s : State) (f : BitVec 160) : Nat :=
  let w := s.pwr
  let r (i : Nat) : Nat := fld f (16 * i) 16
  packNat 16 (fun i => match i with
    | 0 => if w.vinMv = 0 then r 0 else w.vinMv.toNat
    | 1 => railReading w.vInt 6000 30 (r 1)
    | 6 => railReading w.vSram 800 20 (r 6)
    | 7 => railReading w.vStack 1100 20 (r 7)
    | 8 => railReading w.vIo 750 20 (r 8)
    | 9 => railReading s.pins.vAux 1200 30 (r 9)
    | k => railReading (bit w.coreGood (k - 2)) (sget 0 w.vcore (k - 2)) 10 (r k)) 10
/-- What the selected instrument captures now (Table 13-3): the sensors' readings, sensor 0 lowest; the 4,096 words, each with its wear count above it; the captured record, 0 while none is held. -/
def instValue (s : State) : Nat × State :=
  match s.tap.inst with
  | .idcode => (idcodeValue, s)
  | .bypass => (0, s)
  | .thermScan => (packNat 16 (fun i => (sget 0 s.pwr.temp i).toNat) 64, s)
  | .railScan => let (f, s) := s.takeFree 160; (railValue s f, s)
  | .linkEye => (s.tap.eyes, s)
  | .pstRead => (packNat 64 (fun i => (pstRead s i).toNat + sget 0 s.pst.writes i * 2 ^ 32) 4096, s)
  | .fieldRecord => (match s.flt.field with | some l => packNat 32 (fun i => (l.getD i 0).toNat) 16384 | none => 0, s)
/-- Select an instrument. -/
def selectInst (s : State) (i : Instrument) : State := if portUp s then s.modTap fun t => { t with inst := i } else s
/-- Update-IR: the instruction shifted in selects its instrument; which link LINK_EYE then names is not in the spec: its eyes are a free value. -/
def updateIr (s : State) : State :=
  let i := instOf (Config.irCode s.tap.ir)
  if i = .linkEye then
    let (f, s) := s.takeFree (16 * linkLanes)
    s.modTap fun t => { t with inst := i, eyes := f.toNat }
  else s.modTap fun t => { t with inst := i }
/-- What the clock edge does in the controller's state. -/
def tapAct (s : State) (tdi : Bool) : State :=
  match s.tap.fsm with
  | .captureDr => let (v, s) := instValue s; s.modTap fun t => { t with shift := v }
  | .shiftDr => s.modTap fun t => { t with shift := t.shift / 2 + b2n tdi * 2 ^ (instWidth t.inst - 1) }
  | .captureIr => s.modTap fun t => { t with ir := Config.irCapture }
  | .shiftIr => s.modTap fun t => { t with ir := t.ir / 2 + b2n tdi * 2 ^ (Config.irWidth - 1) }
  | .updateIr => updateIr s
  | _ => s
/-- One TMS/TDI pair: TDO, which outside Shift-DR and Shift-IR is a free value, and the controller's step; Test-Logic-Reset selects IDCODE. -/
def tapClock (s : State) (tms tdi : Bool) : Bool × State :=
  let t := s.tap
  let (r, s) := match t.fsm with
    | .shiftDr => (BitVec.ofNat 1 t.shift, s)
    | .shiftIr => (BitVec.ofNat 1 t.ir, s)
    | _ => s.takeFree 1
  let s := (tapAct s tdi).modTap fun t => { t with fsm := tapNext t.fsm tms }
  (r == 1, if s.tap.fsm = .testLogicReset then s.modTap fun t => { t with inst := .idcode } else s)
/-- n pairs from pair i on, TMS at bit 2i + 1 and TDI at bit 2i (log 34); the TDO bits, the first in bit 0. -/
def tapRun (v : Nat) : Nat → State → Nat × State
  | 0, s => (0, s)
  | n + 1, s =>
    let (b, s) := tapClock s (v / 2 % 2 == 1) (v % 2 == 1)
    let (r, s) := tapRun (v / 4) n s
    (b2n b + 2 * r, s)
/-- TAP: eight TMS/TDI pairs in, the TDO bits answered (R399, R400). -/
def execTap (f : BitVec 128) (s : State) : Host.Outcome State Fault Refusal :=
  .next <|
    if consumed s f 4 then
      let (r, s) := tapRun (fData f % 2 ^ 16) 8 s
      respond s f stAccepted r
    else s
/-- IDCODE (Table 13-3). -/
def execIdcode (s : State) : Host.Outcome State Fault Refusal := .next (selectInst s .idcode)
/-- BYPASS: a one-bit register. -/
def execBypass (s : State) : Host.Outcome State Fault Refusal := .next (selectInst s .bypass)
/-- THERM_SCAN: 64 readings of 16 bits. -/
def execThermScan (s : State) : Host.Outcome State Fault Refusal := .next (selectInst s .thermScan)
/-- RAIL_SCAN: ten readings in mV. -/
def execRailScan (s : State) : Host.Outcome State Fault Refusal := .next (selectInst s .railScan)
/-- LINK_EYE: eye width and height, 8 bits each, of every lane that a link receives on, in the order of Table 7-11 (log 112). -/
def execLinkEye (_n : Fin 32) (eyes : List (BitVec 16)) (s : State) : Host.Outcome State Fault Refusal :=
  .next (selectInst (if portUp s then s.modTap fun t => { t with eyes := packNat 16 (fun i => (eyes.getD i 0).toNat) linkLanes } else s) .linkEye)
/-- PST_READ: the 4,096 words with their wear counts. -/
def execPstRead (s : State) : Host.Outcome State Fault Refusal :=
  .next (selectInst s .pstRead)
/-- FIELD_RECORD: the captured record. -/
def execFieldRecord (s : State) : Host.Outcome State Fault Refusal :=
  .next (selectInst s .fieldRecord)

/-! V_AUX. -/

/-- V_AUX_ON: V_AUX comes up, and the region is held in reset (R399). -/
def execVAuxOn (s : State) : Host.Outcome State Fault Refusal :=
  .next <|
    if s.boot.phase = .unpowered then
      (s.modBoot fun b => { b with phase := .held }).modPins fun p => { p with vAux := true }
    else s
/-- V_AUX_LOST: V_AUX goes down; writes to the persistent store have completed, the field record is lost, and the cause will read power-on (R350, R404, R428). -/
def execVAuxLost (s : State) : Host.Outcome State Fault Refusal :=
  .next <|
    let r := coldReset s 0 false false
    { r with boot := { r.boot with phase := .unpowered }, flt := { r.flt with field := none }, tap := .init,
             pst := { r.pst with busy := [] }, pins := { Pins.init with vAux := false, rstN := s.pins.rstN, mbaoOut := s.pins.mbaoOut } }

end Sys2Proof.Machine
end

