-- ==== Sys2Proof/Machine/Dispatch.lean ====
section
/-! DEFINITION. Which meaning each command has: one direct call per row of the opcode table. -/

namespace Sys2Proof.Machine

/-- The effect of one command on everything but the queue of waiting commands. -/
def exec (i : Instr) (s : State) : Host.Outcome State Fault Refusal :=
  match i with
  | .registerWrite p off size v => Sys2Proof.Machine.execRegisterWrite p off size v s
  | .wpWrite p off v => Sys2Proof.Machine.execWpWrite p off v s
  | .persistAck w => Sys2Proof.Machine.execPersistAck w s
  | .latchedLoRead p off => Sys2Proof.Machine.execLatchedLoRead p off s
  | .zoneArithDataRead p z => Sys2Proof.Machine.execZoneArithDataRead p z s
  | .unrouteCountRead p => Sys2Proof.Machine.execUnrouteCountRead p s
  | .pitErrRead p q => Sys2Proof.Machine.execPitErrRead p q s
  | .vinRise => Sys2Proof.Machine.execVinRise s
  | .thermTripValid => Sys2Proof.Machine.execThermTripValid s
  | .thermTrip sensor reading => Sys2Proof.Machine.execThermTrip sensor reading s
  | .rstRegionLow ns => Sys2Proof.Machine.execRstRegionLow ns s
  | .bringupStart env => Sys2Proof.Machine.execBringupStart env s
  | .bringupStepTimeout step => Sys2Proof.Machine.execBringupStepTimeout step s
  | .vinGood => Sys2Proof.Machine.execVinGood s
  | .railStartTimeout r => Sys2Proof.Machine.execRailStartTimeout r s
  | .qreset p q => Sys2Proof.Machine.execQreset p q s
  | .qresetChanterStart q => Sys2Proof.Machine.execQresetChanterStart q s
  | .warm p env => Sys2Proof.Machine.execWarm p env s
  | .ldb u ecc => Sys2Proof.Machine.execLdb u ecc s
  | .ldv u ecc => Sys2Proof.Machine.execLdv u ecc s
  | .dot u upset => Sys2Proof.Machine.execDot u upset s
  | .acc u upset => Sys2Proof.Machine.execAcc u upset s
  | .slotResultReady u slot => Sys2Proof.Machine.execSlotResultReady u slot s
  | .fadd u ecc => Sys2Proof.Machine.execFadd u ecc s
  | .fmul u ecc => Sys2Proof.Machine.execFmul u ecc s
  | .fmin u ecc => Sys2Proof.Machine.execFmin u ecc s
  | .fmax u ecc => Sys2Proof.Machine.execFmax u ecc s
  | .cmplt u ecc => Sys2Proof.Machine.execCmplt u ecc s
  | .cmpeq u ecc => Sys2Proof.Machine.execCmpeq u ecc s
  | .sel u ecc => Sys2Proof.Machine.execSel u ecc s
  | .mov u ecc => Sys2Proof.Machine.execMov u ecc s
  | .rot u ecc => Sys2Proof.Machine.execRot u ecc s
  | .bfr u ecc => Sys2Proof.Machine.execBfr u ecc s
  | .scl u ecc => Sys2Proof.Machine.execScl u ecc s
  | .exp u => Sys2Proof.Machine.execExp u s
  | .exp2 u => Sys2Proof.Machine.execExp2 u s
  | .log u => Sys2Proof.Machine.execLog u s
  | .rsqrt u => Sys2Proof.Machine.execRsqrt u s
  | .rcp u => Sys2Proof.Machine.execRcp u s
  | .tanh u => Sys2Proof.Machine.execTanh u s
  | .sigm u => Sys2Proof.Machine.execSigm u s
  | .gelut u => Sys2Proof.Machine.execGelut u s
  | .gelue u => Sys2Proof.Machine.execGelue u s
  | .silu u => Sys2Proof.Machine.execSilu u s
  | .sqrt u => Sys2Proof.Machine.execSqrt u s
  | .pass u => Sys2Proof.Machine.execPass u s
  | .qnt u => Sys2Proof.Machine.execQnt u s
  | .pkb u => Sys2Proof.Machine.execPkb u s
  | .pkf u => Sys2Proof.Machine.execPkf u s
  | .nop u stage => Sys2Proof.Machine.execNop u stage s
  | .wrap u stage => Sys2Proof.Machine.execWrap u stage s
  | .unitFire u ecc => Sys2Proof.Machine.execUnitFire u ecc s
  | .schedStep u => Sys2Proof.Machine.execSchedStep u s
  | .schedLoop u => Sys2Proof.Machine.execSchedLoop u s
  | .schedEnd u => Sys2Proof.Machine.execSchedEnd u s
  | .tokenArrival lu port flip => Sys2Proof.Machine.execTokenArrival lu port flip s
  | .creditReturn lu port => Sys2Proof.Machine.execCreditReturn lu port s
  | .send u ag ecc => Sys2Proof.Machine.execSend u ag ecc s
  | .recv u ag => Sys2Proof.Machine.execRecv u ag s
  | .fetch u ag => Sys2Proof.Machine.execFetch u ag s
  | .store u ag ecc rmw => Sys2Proof.Machine.execStore u ag ecc rmw s
  | .gather u ag => Sys2Proof.Machine.execGather u ag s
  | .sgather u ag ecc => Sys2Proof.Machine.execSgather u ag ecc s
  | .stackRunLanding u run own partner => Sys2Proof.Machine.execStackRunLanding u run own partner s
  | .storeAck u ag => Sys2Proof.Machine.execStoreAck u ag s
  | .sramScrub u ecc => Sys2Proof.Machine.execSramScrub u ecc s
  | .contextSwitch u => Sys2Proof.Machine.execContextSwitch u s
  | .boreWrite lu port => Sys2Proof.Machine.execBoreWrite lu port s
  | .boreReadback lu port ecc => Sys2Proof.Machine.execBoreReadback lu port ecc s
  | .configTokenAbsorb lu port => Sys2Proof.Machine.execConfigTokenAbsorb lu port s
  | .generationSwitch u => Sys2Proof.Machine.execGenerationSwitch u s
  | .deadlock z => Sys2Proof.Machine.execDeadlock z s
  | .start p q => Sys2Proof.Machine.execStart p q s
  | .abort p q => Sys2Proof.Machine.execAbort p q s
  | .planEntry q read => Sys2Proof.Machine.execPlanEntry q read s
  | .sequenceInject q lu port => Sys2Proof.Machine.execSequenceInject q lu port s
  | .fabricBarrierInject q lu => Sys2Proof.Machine.execFabricBarrierInject q lu s
  | .stagingCarrier q lu => Sys2Proof.Machine.execStagingCarrier q lu s
  | .ageUpdate => Sys2Proof.Machine.execAgeUpdate s
  | .wearTableWrite ws => Sys2Proof.Machine.execWearTableWrite ws s
  | .refreshCopyDone ws own partner => Sys2Proof.Machine.execRefreshCopyDone ws own partner s
  | .refreshRemap ws => Sys2Proof.Machine.execRefreshRemap ws s
  | .oldBlockRelease ws => Sys2Proof.Machine.execOldBlockRelease ws s
  | .ksRefresh k => Sys2Proof.Machine.execKsRefresh k s
  | .ksScrub k corrected => Sys2Proof.Machine.execKsScrub k corrected s
  | .full ws => Sys2Proof.Machine.execFull ws s
  | .delta ws source ks => Sys2Proof.Machine.execDelta ws source ks s
  | .resume ws copy partner => Sys2Proof.Machine.execResume ws copy partner s
  | .journalRecord ws source ks => Sys2Proof.Machine.execJournalRecord ws source ks s
  | .commitSeal ws source ks => Sys2Proof.Machine.execCommitSeal ws source ks s
  | .deltaSwitch ws => Sys2Proof.Machine.execDeltaSwitch ws s
  | .packetInject ix => Sys2Proof.Machine.execPacketInject ix s
  | .routerHop pid ecc => Sys2Proof.Machine.execRouterHop pid ecc s
  | .bucketRecovery ix => Sys2Proof.Machine.execBucketRecovery ix s
  | .spreadEscape pid => Sys2Proof.Machine.execSpreadEscape pid s
  | .token pid => Sys2Proof.Machine.execToken pid s
  | .resp pid => Sys2Proof.Machine.execResp pid s
  | .stkRd pid own partner => Sys2Proof.Machine.execStkRd pid own partner s
  | .stkWr pid rmw => Sys2Proof.Machine.execStkWr pid rmw s
  | .winWr pid => Sys2Proof.Machine.execWinWr pid s
  | .winRd pid => Sys2Proof.Machine.execWinRd pid s
  | .hostWr link => Sys2Proof.Machine.execHostWr link s
  | .hostRd link => Sys2Proof.Machine.execHostRd link s
  | .fabCtlWrite p v => Sys2Proof.Machine.execFabCtlWrite p v s
  | .tblWrite p v => Sys2Proof.Machine.execTblWrite p v s
  | .tblRead p v => Sys2Proof.Machine.execTblRead p v s
  | .tblDelete p v => Sys2Proof.Machine.execTblDelete p v s
  | .tblCmdComplete => Sys2Proof.Machine.execTblCmdComplete s
  | .linkFrameReceive n f => Sys2Proof.Machine.execLinkFrameReceive n f s
  | .linkResendTimeout n => Sys2Proof.Machine.execLinkResendTimeout n s
  | .quickRetrain n => Sys2Proof.Machine.execQuickRetrain n s
  | .quick p n => Sys2Proof.Machine.execQuick p n s
  | .train p n => Sys2Proof.Machine.execTrain p n s
  | .enable p n v => Sys2Proof.Machine.execEnable p n v s
  | .quickRetrainEnd n ok => Sys2Proof.Machine.execQuickRetrainEnd n ok s
  | .partnerDetect n => Sys2Proof.Machine.execPartnerDetect n s
  | .trainingEnd n r => Sys2Proof.Machine.execTrainingEnd n r s
  | .noPartner n => Sys2Proof.Machine.execNoPartner n s
  | .arrive q => Sys2Proof.Machine.execArrive q s
  | .setTarget q => Sys2Proof.Machine.execSetTarget q s
  | .wait q => Sys2Proof.Machine.execWait q s
  | .chain q => Sys2Proof.Machine.execChain q s
  | .proxyArrive q => Sys2Proof.Machine.execProxyArrive q s
  | .pitonRead q => Sys2Proof.Machine.execPitonRead q s
  | .clearAll p q => Sys2Proof.Machine.execClearAll p q s
  | .droneLockAcquired => Sys2Proof.Machine.execDroneLockAcquired s
  | .lockAPatternBoundary => Sys2Proof.Machine.execLockAPatternBoundary s
  | .clkDroneConfirmWrite p v => Sys2Proof.Machine.execClkDroneConfirmWrite p v s
  | .refLoss => Sys2Proof.Machine.execRefLoss s
  | .refReturn offsetPs => Sys2Proof.Machine.execRefReturn offsetPs s
  | .walkComplete => Sys2Proof.Machine.execWalkComplete s
  | .alignmentBeat => Sys2Proof.Machine.execAlignmentBeat s
  | .lockWindowEnd z count => Sys2Proof.Machine.execLockWindowEnd z count s
  | .coastTimeout z => Sys2Proof.Machine.execCoastTimeout z s
  | .chanterStart p z v => Sys2Proof.Machine.execChanterStart p z v s
  | .chanterReset p z v => Sys2Proof.Machine.execChanterReset p z v s
  | .chanterFail z => Sys2Proof.Machine.execChanterFail z s
  | .stepIssue => Sys2Proof.Machine.execStepIssue s
  | .railSettled => Sys2Proof.Machine.execRailSettled s
  | .droopAssert z d reading => Sys2Proof.Machine.execDroopAssert z d reading s
  | .droopDeassert z d reading => Sys2Proof.Machine.execDroopDeassert z d reading s
  | .zoneCycleEnd z => Sys2Proof.Machine.execZoneCycleEnd z s
  | .stretch z => Sys2Proof.Machine.execStretch z s
  | .slipReport z => Sys2Proof.Machine.execSlipReport z s
  | .reconcile => Sys2Proof.Machine.execReconcile s
  | .alignBegin set => Sys2Proof.Machine.execAlignBegin set s
  | .alignCrossingsSet set => Sys2Proof.Machine.execAlignCrossingsSet set s
  | .alignRelease set => Sys2Proof.Machine.execAlignRelease set s
  | .align p q => Sys2Proof.Machine.execAlign p q s
  | .arm p v => Sys2Proof.Machine.execArm p v s
  | .droneSyncLoad => Sys2Proof.Machine.execDroneSyncLoad s
  | .stampTick => Sys2Proof.Machine.execStampTick s
  | .overvoltage => Sys2Proof.Machine.execOvervoltage s
  | .marginReport z monitor slack => Sys2Proof.Machine.execMarginReport z monitor slack s
  | .trimLower q => Sys2Proof.Machine.execTrimLower q s
  | .governorSample e => Sys2Proof.Machine.execGovernorSample e s
  | .pwrAllotWrite p v => Sys2Proof.Machine.execPwrAllotWrite p v s
  | .pwrModeWrite p v => Sys2Proof.Machine.execPwrModeWrite p v s
  | .hintExpire ix => Sys2Proof.Machine.execHintExpire ix s
  | .needIndexSample => Sys2Proof.Machine.execNeedIndexSample s
  | .vinWarning => Sys2Proof.Machine.execVinWarning s
  | .vinWarningEnd => Sys2Proof.Machine.execVinWarningEnd s
  | .powerFailReset => Sys2Proof.Machine.execPowerFailReset s
  | .powerFailRelease env => Sys2Proof.Machine.execPowerFailRelease env s
  | .calibrationUpdate vinMv iinMa measNj => Sys2Proof.Machine.execCalibrationUpdate vinMv iinMa measNj s
  | .thermalSample readings => Sys2Proof.Machine.execThermalSample readings s
  | .thermalResume q => Sys2Proof.Machine.execThermalResume q s
  | .dbSqTail p n v => Sys2Proof.Machine.execDbSqTail p n v s
  | .dbCqHead p n v => Sys2Proof.Machine.execDbCqHead p n v s
  | .descriptorArrival n ok => Sys2Proof.Machine.execDescriptorArrival n ok s
  | .irqDelayExpire n => Sys2Proof.Machine.execIrqDelayExpire n s
  | .nopDescriptor n => Sys2Proof.Machine.execNopDescriptor n s
  | .runGraph n => Sys2Proof.Machine.execRunGraph n s
  | .runGraphTimeout n => Sys2Proof.Machine.execRunGraphTimeout n s
  | .loadConfig n => Sys2Proof.Machine.execLoadConfig n s
  | .serve n => Sys2Proof.Machine.execServe n s
  | .pitonOp n => Sys2Proof.Machine.execPitonOp n s
  | .copy n ok ks rmw => Sys2Proof.Machine.execCopy n ok ks rmw s
  | .queueFence n => Sys2Proof.Machine.execQueueFence n s
  | .queueFenceDone n => Sys2Proof.Machine.execQueueFenceDone n s
  | .timeMark n => Sys2Proof.Machine.execTimeMark n s
  | .timeMarkReached n => Sys2Proof.Machine.execTimeMarkReached n s
  | .regionEvtHeadWrite p v => Sys2Proof.Machine.execRegionEvtHeadWrite p v s
  | .queueReset p n => Sys2Proof.Machine.execQueueReset p n s
  | .queueEnable p n v => Sys2Proof.Machine.execQueueEnable p n v s
  | .cmdQCfgWrite p n v => Sys2Proof.Machine.execCmdQCfgWrite p n v s
  | .seqStart p q => Sys2Proof.Machine.execSeqStart p q s
  | .stop p q => Sys2Proof.Machine.execStop p q s
  | .stepBoundary q => Sys2Proof.Machine.execStepBoundary q s
  | .stepTimeout q => Sys2Proof.Machine.execStepTimeout q s
  | .drain p q => Sys2Proof.Machine.execDrain p q s
  | .update p => Sys2Proof.Machine.execUpdate p s
  | .fwUpdateComplete ok => Sys2Proof.Machine.execFwUpdateComplete ok s
  | .install p slot => Sys2Proof.Machine.execInstall p slot s
  | .revoke p slot => Sys2Proof.Machine.execRevoke p slot s
  | .mbaoForward f => Sys2Proof.Machine.execMbaoForward f s
  | .rd f => Sys2Proof.Machine.execRd f s
  | .wr f => Sys2Proof.Machine.execWr f s
  | .tap f => Sys2Proof.Machine.execTap f s
  | .idle f => Sys2Proof.Machine.execIdle f s
  | .mbaoResp f => Sys2Proof.Machine.execMbaoResp f s
  | .need f => Sys2Proof.Machine.execNeed f s
  | .mbaoReservedOp f => Sys2Proof.Machine.execMbaoReservedOp f s
  | .idcode => Sys2Proof.Machine.execIdcode s
  | .bypass => Sys2Proof.Machine.execBypass s
  | .thermScan => Sys2Proof.Machine.execThermScan s
  | .railScan => Sys2Proof.Machine.execRailScan s
  | .linkEye n eyes => Sys2Proof.Machine.execLinkEye n eyes s
  | .pstRead => Sys2Proof.Machine.execPstRead s
  | .fieldRecord => Sys2Proof.Machine.execFieldRecord s
  | .unitFaultReport r => Sys2Proof.Machine.execUnitFaultReport r s
  | .faultHalt q => Sys2Proof.Machine.execFaultHalt q s
  | .steeringComplete z => Sys2Proof.Machine.execSteeringComplete z s
  | .stepReplay q => Sys2Proof.Machine.execStepReplay q s
  | .rearm p q => Sys2Proof.Machine.execRearm p q s
  | .capture p => Sys2Proof.Machine.execCapture p s
  | .release p => Sys2Proof.Machine.execRelease p s
  | .stackDeadTimeout st => Sys2Proof.Machine.execStackDeadTimeout st s
  | .lifetimeCounterWrite => Sys2Proof.Machine.execLifetimeCounterWrite s
  | .vAuxOn => Sys2Proof.Machine.execVAuxOn s
  | .vAuxLost => Sys2Proof.Machine.execVAuxLost s

end Sys2Proof.Machine
end

