-- ==== Sys2Proof/Machine/Tick.lean ====
section
/-! DEFINITION. What one edge of the drone clock does whatever is commanded (log 10): the drone counter (R316), the holdover count (R283), the WAIT accumulators (R271), the rails' ramps and soft-start (R296, R325), the links' acknowledgements and credits (R249, R250), the SPREAD packets' credits (R230), the zones' local times (R320), a quiesce that is due (R359), and the throttle's holds (R245), what R10 has left over from the tick that ends. -/

namespace Sys2Proof.Machine

/-- The drone counter runs from the loop's first LOCKED, a holdover counts its ticks, and LOCK_ADV is free while the loop acquires or walks (R280, R283, R316). -/
def tickClk (tick : Nat) (c : Clk) : Clk :=
  { c with lockAdv := if c.drone = .acquiring ∨ c.drone = .walking then Config.lockAdv tick else c.lockAdv,
           count := if c.firstLock.isSome then c.count + 1 else c.count,
           holdover := if c.drone = .holdover then satInc c.holdover else c.holdover }
/-- Waiters of quarter q's pitons that the accumulators add (R271): from this region on REMOTE pitons, from a link on others. -/
def waitSums (s : State) (q : Nat) : Nat × Nat :=
  (s.pitons.filter fun p => pitonQuarter p.1 == q).foldl (fun a p =>
    let w := p.2.waiters
    if p.2.remote then (a.1 + (w.filter fun x => !x.fromLink).length, a.2) else (a.1, a.2 + (w.filter fun x => x.fromLink).length)) (0, 0)
/-- The accumulators of quarter q (R271). -/
def tickWaits (s : State) (q : Nat) : State :=
  let (o, i) := waitSums s q
  if o = 0 ∧ i = 0 then s
  else s.modPitQ q fun p => { p with waitOut := p.waitOut + BitVec.ofNat 64 o, waitIn := p.waitIn + BitVec.ofNat 64 i }
/-- One step of 1 mV towards a target: 10 mV/µs (R296, R325). -/
def rampMv (v t : Nat) : Nat := if v < t then v + 1 else if t < v then v - 1 else v
/-- What V_CORE of quarter q ramps to: its target once it is good, from its start in the soft-start 0.68 V (Table 11-2). -/
def rampTo (w : Pwr) (tick q : Nat) : Option Nat :=
  if bit w.coreGood q then some (sget 0 w.vtarget q)
  else match w.softStart with
    | some t => if t + us (1500 + 250 * q) ≤ tick then some 680 else none
    | none => none
/-- Every V_CORE that is up or starting ramps. -/
def tickRails (s : State) : State :=
  if s.tick % 80 ≠ 0 then s
  else s.modPwr fun w =>
    { w with vcore := (upto 4).foldl (fun m q => match rampTo w s.tick q with | some t => smod 0 m q (fun v => rampMv v t) | none => m) w.vcore }
/-- A rail is good, t ticks after the rails' start (Table 11-2). -/
def railUp (w : Pwr) (t : Nat) (r : Rail) : Bool := railGood w r || decide (railBound r < t)
/-- V_CORE of quarter q is good, at 0.68 V. -/
def coreUp (t : Nat) (w : Pwr) (q : Fin 4) : Pwr :=
  if bit w.coreGood q.val || !railUp w t (.vCore q) then w
  else { w with coreGood := setBit w.coreGood q.val true, vtarget := sset 0 w.vtarget q.val 680 }
/-- The rails t ticks after their start. -/
def softRails (w : Pwr) (t : Nat) : Pwr :=
  let w := { w with vInt := railUp w t .vInt, vIo := railUp w t .vIo, vSram := railUp w t .vSram, vStack := railUp w t .vStack }
  coreUp t (coreUp t (coreUp t (coreUp t w 0) 1) 2) 3
/-- The soft-start in progress; bring-up goes on when the last rail is good (R325). -/
def tickSoftStart (s : State) : State :=
  match s.pwr.softStart with
  | some t =>
    let s := s.modPwr fun w => softRails w (s.tick - t)
    if s.pwr.coreGood = 15 then bootGo (s.modPwr fun w => { w with softStart := none }) else s
  | none => s
/-- A link at a drone tick: the frames of the past tick are away, and what an UP link owes leaves in an IDLE frame (R250). -/
def tickLink (l : Link) : Link :=
  let l := { l with out := [] }
  if l.state = .up ∧ (l.nak ∨ l.ackOwed ∨ l.owed ≠ []) then emitFrame l 0 0 0 0 else l
/-- Zone local times of running chanters (R320). -/
def tickTimes (s : State) : State :=
  { s with zones := (s.chanters.filter fun c => chanterRuns c.2).foldl (fun m c => smod .init m c.1 fun x => timeTick x c.2 s.tick) s.zones }
/-- The links at a tick. -/
def tickLinks (s : State) : State := { s with links := smap .init s.links fun _ l => tickLink l }
/-- Time goes on; what R10 and R435 look back on in the past tick is forgotten. -/
def tickTime (s : State) : State := { s with tick := s.tick + 1, raised := [], caught := [], full := [], rcSeen := [], wrote := [], undo := none }
/-- A W1S bit that was 1 when the tick began, that hardware has cleared in it and software has set in it, ends 1 (R10): what it starts, f, starts once more. -/
def startAgain (s : State) (off i : Nat) (was is : Bool) (f : State → State) : State :=
  if was && !is && s.wroteBit off i then f s else s
/-- Quarter resets, firmware alignments and plans of quarter q (Tables 13-9, 10-12, 5-8). -/
def againQuarter (s : State) (q : Nat) : State :=
  let b := s.found
  let s := startAgain s 0x40 q (bit b.boot.qreset q) (bit s.boot.qreset q) fun s => quarterReset s q
  let s := startAgain s 0x20004 q (bit b.str.alignCtl q) (bit s.str.alignCtl q) fun s => alignWrite s q
  startAgain s (0xD000C + 0x40 * q) 0 (sget .init b.cfgq q).start (s.cfgQ q).start fun s => cfgBegin s q none
/-- Services of lead quarter q (Table 12-14). -/
def againService (s : State) (q : Nat) : State :=
  let b := sget SeqQ.init s.found.seqs q
  let off := 0x50008 + 0x40 * q
  let s := startAgain s off 0 b.start (s.seqq q).start fun s => if (s.service q).state = .off then svcStart s q else s
  let s := startAgain s off 1 b.stop (s.seqq q).stop fun s => svcStop s q
  startAgain s off 2 b.drain (s.seqq q).drain fun s => svcDrain s q
/-- Firmware updates, key operations and table operations (Tables 13-15, 13-16, 7-20). -/
def againRegion (s : State) : State :=
  let b := s.found
  let s := startAgain s 0x60 0 (b.fw.update == 1) (s.fw.update == 1) fwUpdateStart
  let s := startAgain s 0x340 0 b.fw.install s.fw.install fun s => installKey s s.fw.slot.toNat
  let s := startAgain s 0x340 1 b.fw.revoke s.fw.revoke fun s => revokeKey s s.fw.slot.toNat
  forEach [0, 1] s fun s p => match sget none s.wrote (2 * 0x60020 + p) with
    | some v => if b.fab.op.isSome && s.fab.op.isNone then tblCmd s v else s
    | none => s
/-- Trainings and quick retrains of link n (Table 7-24). -/
def againLink (s : State) (n : Nat) : State :=
  let b := sget Link.init s.found.links n
  let off := 0x80000 + 0x10 * n
  let s := startAgain s off 1 b.train (s.link n).train fun s => if (s.link n).enable then linkTrain s n else s
  startAgain s off 2 b.quick (s.link n).quick fun s => if (s.link n).state = .up then linkQuick s n else s
/-- The reset of queue n (Table 12-13). -/
def againQueue (s : State) (n : Nat) : State :=
  startAgain s (0x40014 + 0x40 * n) 1 (sget CmdQ.init s.found.cmdq n).resetting (s.queue n).resetting fun s => queueResetBegin s n
/-- Queue resets that a past tick left with nothing to wait for end. -/
def tickResets (s : State) : State :=
  (s.cmdq.filter fun c => c.2.resetting && (sget CmdQ.init s.found.cmdq c.1).resetting).foldl (fun s c => resetDone s c.1) s
/-- What software has set in the past tick and hardware has cleared (R10); what is done as soon as it is written is left out (log 60). -/
def tickAgain (s : State) : State :=
  let s := tickResets s
  if s.wrote.isEmpty then s
  else forEach (upto 64) (forEach (upto 32) (againRegion (forEach (upto 4) (forEach (upto 4) s againQuarter) againService)) againLink) againQueue
/-- Quiesces that are due. -/
def tickQuiesce (s : State) : State := if s.pwr.quiesceDue = 0 then s else forEach (upto 4) s quiesceIfDue
/-- What the powered region does at an edge. -/
def tickPowered (s : State) : State :=
  tickAsks (tickQuiesce (tickBuckets (tickSpread (tickLinks (tickTimes (tickSoftStart (tickRails (forEach (upto 4) (s.modClk (tickClk s.tick)) tickWaits))))))))
/-- One edge of the drone clock. -/
def droneTick (s : State) : State :=
  let t := if s.boot.phase = .unpowered then tickTime s else tickPowered (tickTime (tickAgain s))
  { t with found := t.toBody }

end Sys2Proof.Machine
end

