-- ==== Sys2Proof/Machine/Step.lean ====
section
/-! DEFINITION. One step of the region: the command at the front of the queue, or, with none waiting, one edge of the drone clock. -/

namespace Sys2Proof.Machine

/-- The command at the front of the queue, run with the queue's rest; on an empty queue one drone clock edge (log 10). -/
def step (s : State) : Host.Outcome State Fault Refusal :=
  match s.pending with
  | [] => .next (droneTick s)
  | c :: rest => exec c { s with pending := rest }

/-- s with the command that a word of `nbits` bits spells at the front of its queue; s unchanged where it spells none. -/
def State.withFetchWord (s : State) (nbits w : Nat) : State :=
  match decodeTableWord nbits w with
  | none => s
  | some c => { s with pending := c :: s.pending }

end Sys2Proof.Machine
end

