-- ==== Sys2Proof/Safety.lean ====
section
/-! DEFINITION. What counts as a safe run of the region, and the shapes the statements use. -/

namespace Sys2Proof

open Machine

/-- A step that completes: neither a fault nor a refusal. -/
def Completes (o : Host.Outcome State Fault Refusal) : Prop := ∃ t, o = .next t

/-! Registers and the drone tick (R10, R435). -/

/-- The byte memories of the host and of the stacks are in canonical form. -/
def MemoriesWf (s : State) : Prop :=
  Memory.wf s.host = true ∧ (∀ k, Memory.wf (s.wst k).mem = true) ∧ ∀ q, Memory.wf (s.kst q).mem.mem = true

/-- In this drone tick no port has written the register at an offset yet and hardware has set none of its bits, so that no two updates of it meet (R10, R435). -/
def Untouched (s : State) (off : Nat) : Prop := s.raisedAt off = 0 ∧ s.wroteTo off = false

/-- The window takes a write of the register at an offset, which is untouched in this tick: the region has reached READY (R394). -/
def Writable (s : State) (off : Nat) : Prop := s.boot.phase = .ready ∧ Untouched s off

/-- Registers of RW fields alone that keep what is written: offset, and the bits of their fields (Tables 15-2 to 15-13). -/
def plainRegs : List (Nat × Word) :=
  [(0x200, 0xFFFFFFC0), (0x204, 0xFFFF), (0x214, 0xFFFFFFFC), (0x218, 0xFFFFFFFF), (0x21C, 0xFFFFFFFF),
   (0x10028, 0xFFFFFFFF), (0x1002C, 0xFFFFFFFF), (0x20020, 0x3F), (0x30000, 1), (0x30004, 0x701), (0x30090, 0x3F),
   (0x60010, 0xE03F), (0x60014, 0x00FFFFFF), (0x60018, 0xFFFFFFFF), (0x6001C, 0xFFFFFFFF), (0xB0004, 0x3FF), (0xB0024, 0x3FF),
   (0xB0030, 0x3FFF), (0xC4004, 0xFFF)]
/-- Registers of the same kind that stand once for each of n parts: offset of the first, stride, n, bits. -/
def plainBanks : List (Nat × Nat × Nat × Word) :=
  [(0x30040, 4, 8, 0xFFFF), (0x40000, 0x40, 64, 0xFFFFFFC0), (0x40004, 0x40, 64, 0xFFFF), (0x40008, 0x40, 64, 0xFFFFFFC0),
   (0x4000C, 0x40, 64, 0xFFFF), (0x40020, 0x40, 64, 0xFFFFFFFC), (0x40024, 0x40, 64, 0xFFFFFFFF), (0x40028, 0x40, 64, 0xFFFFFFFF),
   (0x50000, 0x40, 4, 0xFFFFFFC0), (0x50004, 0x40, 4, 0x8000FFFF), (0x90018, 0x40, 8, 0xFFF), (0xA0000, 0x40, 4, 0x7FFF),
   (0xD0000, 0x40, 4, 0xFFFFFFC0), (0xD0004, 0x40, 4, 0x8000FFFF), (0xD0008, 0x40, 4, 0xFFFF)]

/-- What a ring write may go back to in this tick (R435) is a region of the same identity whose memories and table of chanters are in canonical form. -/
def UndoWf (s : State) : Prop :=
  ∀ u, s.undo = some u →
    u.before.ident = s.ident ∧ MemoriesWf { s with toBody := u.before } ∧ Sparse.wf Chanter.init u.before.chanters = true

/-- Registers of words of the persistent store: the offset, the word, the bits it holds: REGION_BOOT_FE and REGION_BOOT_HOST (Table 13-12), the region's label and the operator's words (Table 14-8). -/
def WpReg (off w : Nat) (m : Word) : Prop :=
  (off = 0x4C ∧ w = 0x044 ∧ m = 0x00FFFFFF) ∨ (off = 0x50 ∧ w = 0x045 ∧ m = 0xFFFFFFFF) ∨
    (off = 0xC0000 + 4 * w ∧ m = 0xFFFFFFFF ∧ ((0x100 ≤ w ∧ w ≤ 0x10F) ∨ (0x800 ≤ w ∧ w ≤ 0xFFF)))

/-! The fabric. -/

/-- Endpoint entries that router r lists for version v in the set of identifier k (R233). -/
def setHeld (s : State) (r : Nat) (v : Bool) (k : Nat) : Nat :=
  (s.fab.ep.filter fun x => x.1 / 2 ^ 24 == 2 * r + b2n v && epSet r (x.1 % 2 ^ 24) == epSet r k).length

/-- From s to t the packet numbered pid is gone; what has come to the packets since is arrivals and proxies that routers and handlers have issued, with the next number (R227). -/
def Gone (s t : State) (pid : Nat) : Prop :=
  ∃ l, t.fab.pkts = (s.fab.pkts.filter fun x => x.id != pid) ++ l ∧ ∀ x ∈ l, x.issued = true ∧ x.id = s.fab.nextId

/-! Units. -/

/-- Stage st of unit u has executed the micro-operation of schedule cycle k: its program counter has moved on (R109), and nothing of it is left to execute. -/
def StageDone (s t : State) (u st k : Nat) : Prop :=
  sget 0 (t.unit u).cu.pcs st = (sget 0 (s.unit u).cu.pcs st + 1) % 64 ∧
    (t.unit u).cu.due = (s.unit u).cu.due.erase ⟨st, k⟩

/-- A stage 3 row completes (Table 3-6): with its operands SA, SB and the old SD valid, lane i of SD is f w i SA SB SD, seen lat schedule cycles later (R98), whatever the pocket's check codes show; where SD is PK, the result reaches the pocket then. -/
def Stage3Row (c : Fin 9792 → Ecc → Instr) (op lat : Nat) (f : Word → Nat → Vec → Vec → Vec → Word) : Prop :=
  ∀ (s : State) (u : Fin 9792) (e : Ecc) (w : Word) (k : Nat) (a b d : Vec),
    dueOp s u 3 op = some (w, k) → stage3Ready (s.unit u).cu w k = true →
    (selRead (s.unit u).cu (uSA w) (uImm w) k).2 = some a →
    ((selRead (s.unit u).cu (uSB w) (uImm w) k).2 = some b ∨ 8 ≤ op) →
    ((selRead (s.unit u).cu (uSD w) (uImm w) k).2 = some d ∨ op ≠ 7) →
    ∃ t, exec (c u e) s = .next t ∧ StageDone s t u 3 k ∧
      (uSD w ≠ 21 → regAtCycle (t.unit u).cu (uSD w) (k + lat) = some (mkVec fun i => f w i a b d)) ∧
      (uSD w = 21 → (t.unit u).cu.pk = (s.unit u).cu.pk ++ [(k + lat, 32 * uImm w, mkVec fun i => f w i a b d)] ∧
        (t.unit u).cu.pocket = (s.unit u).cu.pocket)

/-- A stage 4 row completes (Table 3-7): every lane of the OUT vector goes through f, and stage 5 sees the result lat schedule cycles later. -/
def Stage4Row (c : Fin 9792 → Instr) (op lat : Nat) (f : Word → Word) : Prop :=
  ∀ (s : State) (u : Fin 9792) (w : Word) (k : Nat) (v : Vec),
    dueOp s u 4 op = some (w, k) → regAtCycle (s.unit u).cu 22 k = some v →
    ∃ t, exec (c u) s = .next t ∧
      regAtCycle (t.unit u).cu regOut4 (k + lat) = some (mkVec fun i => f (lane v i)) ∧ StageDone s t u 4 k

/-- Compute unit u, logical unit lu, may run the zone's present schedule cycle: it runs and is loaded and has not had the cycle, no slot result is overdue, and no deferred pocket access and no earlier micro-operation is left (R87, R96, R303). -/
def CycleFree (s : State) (u : Fin 9792) (lu : Nat) : Prop :=
  s.logical u = some lu ∧ cuRuns s u = true ∧ (s.unit u).loaded = true ∧ slotDue (s.unit u) = false ∧ cycleOpen s u = true ∧
    ((closeBanks s u [(s.zone (physZone u)).sched]).unit u).cu.waiting = [] ∧ cycleFree (s.unit u) = true

/-- Nothing differs but unit u, ARITH summary bits of its zone that have been set, what the tick keeps of those and of the unit's arithmetic counters, the count of free values, and the detections of the unit's own faults that are not yet reported. -/
def OnlyUnit (s t : State) (u : Nat) : Prop :=
  t = { s with units := t.units, zpages := t.zpages, free := t.free, raised := t.raised, full := t.full,
               flt := { s.flt with detected := t.flt.detected } } ∧
    (∀ v, v ≠ u → t.unit v = s.unit v) ∧ (∀ z, z ≠ physZone u → t.zpage z = s.zpage z) ∧
    (∃ m : BitVec 5, t.zpage (physZone u) =
      { s.zpage (physZone u) with summary := (s.zpage (physZone u)).summary ||| m }) ∧
    (∀ off, off ≠ flagsKey u → off ≠ 0x100808 + 0x4000 * physZone u → t.raisedAt off = s.raisedAt off) ∧
    (∀ k, (∀ i, k ≠ itemKey u i) → sget 0 t.full k = sget 0 s.full k) ∧ s.free ≤ t.free ∧
    t.flt.detected.filter (fun d => d.unit ≠ u) = s.flt.detected.filter (fun d => d.unit ≠ u)

/-- AG a of unit u may issue n accesses from its next on, with index entry e, and no rule of R123, R125, R129 or R140 holds or stops it. -/
def AgFree (s : State) (u a kind : Nat) (write : Bool) (e n : Nat) : Prop :=
  let x := s.unit u
  let g := curAg x a
  agTurn s u a kind = true ∧ g.follow = false ∧ wrapOk x a ((agSt x a).issued + n - 1) = true ∧
    (if isGather g then (agSt x a).idx.map BitVec.toNat = some e else e = 0) ∧
    ∀ i < n, rowBad s u g (agSram g ((agSt x a).pos + i) e) write = false

/-- The oldest token of a port is of the unit's generation and its parity holds. -/
def HeadIs (s : State) (lu u p : Nat) (tok : Token) (rest : List Token) : Prop :=
  (s.chan lu p).queue = tok :: rest ∧ tok.gen = (s.unit u).gen ∧ parOk tok = true

/-- The operation that the piton engine of hub q takes next, well formed and with the given OP. -/
def TakesOp (s : State) (q op : Nat) (m : PitMsg) : Prop :=
  firstOp (s.pitQ q).inbox = some m ∧ m.op.toNat = op ∧ pitBad m = false

/-- Packet n tells waiter w of piton i, which holds p, status st of Table 8-3 in the form that its mode asks for (R267); whether a token has TLAST is open (log 22). -/
def NoteOf (s : State) (i : Nat) (p : Piton) (st : Nat) (w : Waiter) (n : Row × List (Row × Bool)) : Prop :=
  let r := pitonRecord i p st w.tag.toNat s.clk.count.toNat
  (w.mode = 0 ∧ n = (mkHdr { dest := w.src.toNat, src := w.self.toNat, cls := w.cls, kind := 3, piton := i,
                             arg := if st = 4 then 5 * 2 ^ 28 else 2 * 2 ^ 28, inl := r }, [])) ∨
  (w.mode = 1 ∧ ∃ l, n = (mkHdr { dest := w.dest.toNat, src := w.self.toNat, kind := 0, len := 1 }, [(BitVec.ofNat 512 r, l)])) ∨
  (w.mode = 2 ∧ n = (mkHdr { dest := w.dest.toNat, src := w.self.toNat, kind := 7, addr := w.addr.toNat, arg := 32, inl := r }, []))

/-- From s to t the engine of piton i, which holds p, sends one notification of status st to each of the waiters, in order, and no other packet (R262, R264, R267). -/
def Notified (s t : State) (i : Nat) (p : Piton) (ws : List Waiter) (st : Nat) : Prop :=
  ∃ ns, sget [] t.fab.localq (8 * pitonQuarter i + 7) = sget [] s.fab.localq (8 * pitonQuarter i + 7) ++ ns ∧
    List.Forall₂ (NoteOf s i p st) (ws.filter fun w => w.mode != 3) ns

/-- The packet that writes completion entry c at the CQ tail of queue n of s, with SQ_HEAD hd (R367). -/
def entryPacket (s : State) (n : Nat) (c : Compl) (hd : BitVec 16) : Row :=
  let q := s.queue n
  mkHdr { dest := hostId s, src := feId s, kind := 7, addr := q.cqBase.toNat * 64 + 32 * q.cqTail.toNat, arg := 32,
          inl := complBytes c hd q.phase }

/-- From s to t the entry of a descriptor row with the status is on its way to the host, or, for want of room, held (R367). -/
def EntryPosted (s t : State) (n : Nat) (row : Row) (hd : BitVec 16) (status : Nat) : Prop :=
  ∃ c : Compl, c.tag = dTag row ∧ c.status = BitVec.ofNat 8 status ∧ c.isPartial = false ∧ c.tEnd = s.clk.count ∧
    if (s.queue n).held = [] ∧ cqFull (s.queue n) = false then (entryPacket s n c hd, []) ∈ sget [] t.fab.localq 1
    else c ∈ (t.queue n).held

/-- Queue n, which no descriptor holds and no reset empties, has the turn of descriptor d, well formed and of type ty; ds are the others that wait. -/
def AtHead (s : State) (n ty : Nat) (d : Desc) (ds : List Desc) : Prop :=
  (s.queue n).run = none ∧ turnOf s n = some d ∧ (s.queue n).ready.erase d = ds ∧ (s.queue n).resetting = false ∧
    dType d.row = ty ∧ descBad d.row = false

/-- What waits of the descriptors ds of a queue that none holds: malformed ones whose turn has come have ended; a commit of a quarter in reset holds up nothing (R366, R369). -/
def turned (s : State) (ds : List Desc) : List Desc :=
  let first := ds.takeWhile fun d => descBad d.row || commitWaits s d.row
  first.filter (fun d => !descBad d.row) ++ ds.drop first.length

/-- From s to t descriptor d of queue n has completed with the status; malformed ones behind it have had their turn too (R366, R369). -/
def HeadDone (s t : State) (n : Nat) (d : Desc) (ds : List Desc) (status : Nat) : Prop :=
  (t.queue n).run = none ∧ (t.queue n).ready = turned s ds ∧ EntryPosted s t n d.row (s.queue n).sqHead status

end Sys2Proof
end

