-- ==== Sys2Proof/Certificates/Slice0/Obligations.lean ====
section
/-! DEFINITION. The statements put to the provers. Each says what a command does by the rules of spec/; a command's own effect is stated as the answer of a next state, under hypotheses on the state and the operands alone. -/

open Sys2Proof Sys2Proof.Machine

/-- A step of a state with command c at the front of its queue of waiting commands is exec of c on that state with the queue's rest. With no command waiting, a step is one edge of the drone clock (the model's choice, log 10): the count of edges gains 1, and what R10 and R435 look back on in a tick starts anew. -/
def Obligations.StepRunsFrontCommand : Prop :=
  (∀ (c : Instr) (rest : List Instr) (s : State), s.pending = c :: rest → step s = exec c { s with pending := rest }) ∧
  (∀ s : State, s.pending = [] → step s = .next (droneTick s) ∧ (s.boot.phase = .unpowered → 
    droneTick s = { s with tick := s.tick + 1, raised := [], caught := [], full := [], rcSeen := [], wrote := [], undo := none, found := { s.toBody with tick := s.tick + 1 } }) ∧
    (droneTick s).found = (droneTick s).toBody ∧ (droneTick s).tick = s.tick + 1)

/-- Whatever the state, every command of the table answers a next state (a command whose event is not due answers the state as it is: the model's choice, log 36), except RST_REGION_LOW with a pulse of 800 ns or more and less than 1,200 ns, which stops by name. -/
def Obligations.OnlyForbiddenPulseStops : Prop :=
  ∀ (c : Instr) (s : State),
    (∃ t, exec c s = .next t) ∨
      ((∃ ns, c = .rstRegionLow ns ∧ 800 ≤ ns ∧ ns < 1200) ∧ exec c s = .fault .forbiddenPulse)

/-- For every state whose memories (the host's, each weight stack's, each work stack's) and table of chanters are in canonical form, as are those that a ring write of the tick may go back to (R435), and every step that answers a next state: the region's site, enable and serial, which R38 fixes at wafer test, are unchanged; the queue of waiting commands is what it was without its front; the memories and the table of chanters are in canonical form again, and those to go back to likewise. -/
def Obligations.StepKeepsIdentityAndQueue : Prop :=
  ∀ s t : State, step s = .next t → MemoriesWf s → Sparse.wf Chanter.init s.chanters = true → UndoWf s →
    t.ident = s.ident ∧ t.pending = s.pending.tail ∧ MemoriesWf t ∧ Sparse.wf Chanter.init t.chanters = true ∧ UndoWf t

/-- The region right after a cold reset has the identity fixed at wafer test, an empty queue and memories and chanters in canonical form, which is what the invariant of the steps starts from. Through either port, right after a cold reset: REGION_ID and REGION_STEP are constants; CLK_DRONE_STATUS reads 0 (OFF), CLK_MOVE_STATUS point 2, target 2 and code 768, CLK_CHANTER_CTL code 768; PWR_ALLOT reads 1,250, PWR_CTL MAX_POINT 7 and HINTS 1, PWR_PITCH[1] 80; every CMD_Q_CFG reads ring sizes 2^6 and an interrupt count of 1; REGION_EVT_CFG has LOG2 6; FAB_CTL reads SHADOW 0b11; LNK_CTL reads ENABLE 1 and LNK_STATUS PARTNER_SITE 0xFF; FLT_CTL reads STRIKES 2. The state itself is a region held in reset with V_AUX up, every quarter in reset. -/
def Obligations.ResetRegisters : Prop :=
  State.reset.ident = Ident.init ∧ State.reset.pending = [] ∧ MemoriesWf State.reset ∧
  Sparse.wf Chanter.init State.reset.chanters = true ∧ UndoWf State.reset ∧
  (∀ p : WinPort, regValue State.reset p 0x00 = 0x0EF14E57 ∧ regValue State.reset p 0x04 = 0x00004200 ∧
    regValue State.reset p 0x10000 = 0 ∧ regValue State.reset p 0x10040 = 0x02020300 ∧ regValue State.reset p 0x10100 = 768 ∧
    regValue State.reset p 0x30008 = 1250 ∧ regValue State.reset p 0x30004 = 0x701 ∧ regValue State.reset p 0x30044 = 80 ∧
    regValue State.reset p 0x208 = 6 ∧ regValue State.reset p 0x60000 = 3 ∧
    regValue State.reset p 0x80000 = 1 ∧ regValue State.reset p 0x80004 = 0xFF00 ∧ regValue State.reset p 0xB0008 = 0x20 ∧
    (∀ n : Fin 64, regValue State.reset p (0x40010 + 0x40 * n.val) = 0x31800100)) ∧
  State.reset.boot.phase = .held ∧ State.reset.pins.vAux = true ∧ State.reset.pins.rstN = false ∧
  (∀ q, (State.reset.quarter q).inReset = true) ∧ (∀ u, State.reset.unit u = UnitSt.blank) ∧ (∀ i, State.reset.piton i = Piton.init)

/-- A write through the window of another size than 4 bytes, or at an offset that is no multiple of 4, leaves the whole state as it is; such a read returns 0 and has no effect. -/
def Obligations.MisalignedAccessesAreRefused : Prop :=
  ∀ (s : State) (p : WinPort) (off : BitVec 24) (size : Nat) (v : Word), size ≠ 4 ∨ off.toNat % 4 ≠ 0 →
    exec (.registerWrite p off size v) s = .next s ∧ (winRead s p off.toNat size).2 = (0, s)

/-- After READY, a REGISTER_WRITE of an aligned 32-bit word completes at every offset and through either port, but for a ring write of a word of the persistent store that is still persisting, which is answered BUSY and changes nothing: the queue of commands and the region's identity stay, and the write is taken for the drone tick, unless a rule of its register has it ignored as a whole (an INSTALL or REVOKE over the fabric, a head outside the event ring, a FAB_CTL that R238 forbids, CMD_Q_CFG of a queue not DISABLED, a doorbell of one DISABLED or RESETTING, a zone page of a quarter in reset): such a write changes nothing at all (said of a tick in which the other port has not written the register before it). Where the register is one of RW fields alone (plainRegs and plainBanks: of REGION, CLK, STR, PWR, CMD, SEQ, FAB, WS, PIT, FLT, PST and CFG), it then reads through both ports as its fields were written. Named besides, with the block alone changed: REGION_EVT_MSI_DATA, CMD_MSI_DATA[n] of every queue, whose other queues stay, and PWR_PITCH[k]. FAB_TBL_DATA_LO likewise. A write at an offset of a block that Table 15-1 leaves empty changes no register. Accesses and updates of one register in one drone tick: a write of FLT_SUMMARY clears the bits that are written 1, but for those that hardware sets in the same tick; so do the writes of CLK_EVENTS and STR_EVENTS (of a ring write: where no fabric write of the register went before it; a ring write of FLT_SUMMARY after a fabric write of it clears the bits of both). Where both ports write an RW register in one tick the fabric's value stands, in whichever order the two commands come. A read-only register, here CLK_DRONE_STATUS, FLT_QSTATE and FLT_REC_STATUS, reads in a tick as the tick found it. Completion is the conclusion here for REGISTER_WRITE. -/
def Obligations.AcceptedWritesReadBack : Prop :=
  (∀ (s : State) (p : WinPort) (off : BitVec 24) (v : Word), s.boot.phase = .ready → off.toNat % 4 = 0 →
    (p = .ring → ∀ w, wpWord off.toNat = some w → pstBusy s w = false) → UndoWf s →
    ∃ t, exec (.registerWrite p off 4 v) s = .next t ∧ t.pending = s.pending ∧ t.ident = s.ident ∧
      (ignoredWrite s p off.toNat v = false → sget none t.wrote (2 * off.toNat + portNo p) = some v)) ∧
  (∀ (s : State) (p : WinPort) (off : BitVec 24) (v : Word), wpWord off.toNat = none → fabricFirst s p off.toNat = none →
    ignoredWrite s p off.toNat v = true → exec (.registerWrite p off 4 v) s = .next s) ∧
  (∀ (s : State) (off : BitVec 24) (v : Word) (w : Nat), wpWord off.toNat = some w → pstBusy s w = true →
    exec (.registerWrite .ring off 4 v) s = .next s) ∧
  (∀ (s : State) (p : WinPort) (v : Word) (x : Nat × Word), x ∈ plainRegs → Writable s x.1 →
    ∃ t, exec (.registerWrite p (BitVec.ofNat 24 x.1) 4 v) s = .next t ∧ ∀ r, regValue t r x.1 = v &&& x.2) ∧
  (∀ (s : State) (p : WinPort) (v : Word) (x : Nat × Nat × Nat × Word) (i : Nat), x ∈ plainBanks → i < x.2.2.1 →
    Writable s (x.1 + x.2.1 * i) →
    ∃ t, exec (.registerWrite p (BitVec.ofNat 24 (x.1 + x.2.1 * i)) 4 v) s = .next t ∧
      ∀ r, regValue t r (x.1 + x.2.1 * i) = v &&& x.2.2.2) ∧
  (∀ (s : State) (p : WinPort) (v : Word), Writable s 0x21C →
    exec (.registerWrite p 0x21C 4 v) s = .next (noteWrite { s with evt := { s.evt with msiData := v } } p 0x21C v)) ∧
  (∀ (s : State) (p : WinPort) (n : Fin 64) (v : Word), Writable s (0x40028 + 0x40 * n.val) →
    exec (.registerWrite p (BitVec.ofNat 24 (0x40028 + 0x40 * n.val)) 4 v) s =
      .next (noteWrite (s.modQueue n fun q => { q with msiData := v }) p (0x40028 + 0x40 * n.val) v)) ∧
  (∀ (s : State) (p : WinPort) (k : Fin 8) (v : Word), Writable s (0x30040 + 4 * k.val) →
    ∃ t, exec (.registerWrite p (BitVec.ofNat 24 (0x30040 + 4 * k.val)) 4 v) s = .next t ∧
      t = { s with pwr := t.pwr, wrote := t.wrote } ∧ sget 0 t.pwr.pitch k = v.extractLsb' 0 16) ∧
  (∀ (s : State) (p : WinPort) (off : BitVec 24) (v : Word), s.boot.phase = .ready → off.toNat % 4 = 0 →
    off.toNat / 0x10000 ∈ [0x7, 0xE, 0xF] ∨ (0x1C0000 ≤ off.toNat ∧ off.toNat < 0x400000) ∨ 0x440000 ≤ off.toNat →
    exec (.registerWrite p off 4 v) s = .next (noteWrite s p off.toNat v)) ∧
  (∀ (s : State) (p : WinPort) (v : Word), Writable s 0x60018 →
    ∃ t, exec (.registerWrite p 0x60018 4 v) s = .next t ∧ t = { s with fab := { s.fab with data := t.fab.data }, wrote := t.wrote } ∧
      ∀ r, regValue t r 0x60018 = v) ∧
  (∀ (s : State) (p : WinPort) (v : Word), s.boot.phase = .ready → p = .fabric ∨ (∀ u, s.undo = some u → u.off ≠ 0xB0000) →
    ∃ t, exec (.registerWrite p 0xB0000 4 v) s = .next t ∧
      t.flt.summary = s.flt.summary &&& ~~~(v &&& ~~~s.raisedAt 0xB0000).setWidth 10) ∧
  (∀ (s : State) (p : WinPort) (v : Word), s.boot.phase = .ready → p = .fabric ∨ (∀ u, s.undo = some u → u.off ≠ 0x10044) →
    ∃ t, exec (.registerWrite p 0x10044 4 v) s = .next t ∧
      t.clk.events = s.clk.events &&& ~~~(v &&& ~~~s.raisedAt 0x10044).setWidth 5) ∧
  (∀ (s : State) (p : WinPort) (v : Word), s.boot.phase = .ready → p = .fabric ∨ (∀ u, s.undo = some u → u.off ≠ 0x2000C) →
    ∃ t, exec (.registerWrite p 0x2000C 4 v) s = .next t ∧
      t.str.events = s.str.events &&& ~~~(v &&& ~~~s.raisedAt 0x2000C).setWidth 3) ∧
  (∀ (s : State) (f v : Word), s.boot.phase = .ready →
    ∃ t₁ t₂, exec (.registerWrite .fabric 0xB0000 4 f) s = .next t₁ ∧ exec (.registerWrite .ring 0xB0000 4 v) t₁ = .next t₂ ∧
      t₂.flt.summary = s.flt.summary &&& ~~~(v &&& ~~~s.raisedAt 0xB0000).setWidth 10 &&& ~~~(f &&& ~~~s.raisedAt 0xB0000).setWidth 10) ∧
  (∀ (s : State) (f v : Word), s.boot.phase = .ready → s.raisedAt 0x21C = 0 → sget none s.wrote (2 * 0x21C + 1) = some f →
    ∃ t, exec (.registerWrite .ring 0x21C 4 v) s = .next t ∧ t.evt.msiData = f) ∧
  (∀ (s : State) (v : Word), s.boot.phase = .ready → s.raisedAt 0x21C = 0 →
    ∃ t, exec (.registerWrite .fabric 0x21C 4 v) s = .next t ∧ t.evt.msiData = v) ∧
  (∀ (s : State) (p : WinPort) (off : Nat), off ∈ [0x10000, 0xB000C, 0xB002C] → s.boot.phase = .ready →
    (winRead s p off 4).2.1 = regValue { s with toBody := s.found } p off)

/-- While the region is held in reset a write changes nothing, and after that until READY a write of any register but those that bring-up needs changes nothing. The forced load's two words, the firmware address's two and the thirteen key registers are written during bring-up, each as its field says. -/
def Obligations.WritesBeforeReady : Prop :=
  (∀ (s : State) (p : WinPort) (off : BitVec 24) (v : Word),
    s.boot.phase = .held ∨ s.boot.phase = .unpowered ∨ (s.boot.phase ≠ .ready ∧ earlyWrite off.toNat = false) →
    exec (.registerWrite p off 4 v) s = .next s) ∧
  (∀ (s : State) (p : WinPort) (v : Word), s.boot.phase = .bringup ∨ s.boot.phase = .failed →
    (Untouched s 0x10028 → exec (.registerWrite p 0x10028 4 v) s =
      .next (noteWrite { s with clk := { s.clk with load := setFld s.clk.load 0 32 v.toNat } } p 0x10028 v)) ∧
    (Untouched s 0x58 → exec (.registerWrite p 0x58 4 v) s =
      .next (noteWrite { s with fw := { s.fw with addr := setFld s.fw.addr 0 26 (fld v 6 26) } } p 0x58 v)) ∧
    (Untouched s 0x1002C → exec (.registerWrite p 0x1002C 4 v) s =
      .next (noteWrite { s with clk := { s.clk with load := setFld s.clk.load 32 32 v.toNat } } p 0x1002C v)) ∧
    (Untouched s 0x5C → exec (.registerWrite p 0x5C 4 v) s =
      .next (noteWrite { s with fw := { s.fw with addr := setFld s.fw.addr 26 16 (fld v 0 16) } } p 0x5C v)) ∧
    (∀ i : Fin 13, Untouched s (0x300 + 4 * i.val) → exec (.registerWrite p (BitVec.ofNat 24 (0x300 + 4 * i.val)) 4 v) s =
      .next (noteWrite { s with fw := { s.fw with key := sset 0 s.fw.key i v } } p (0x300 + 4 * i.val) v)))

/-- After READY: a write of PWR_ALLOT stores the allotment held between 200 W and 1,700 W, and nothing else but the tick's note of the write changes, so that the allotment in effect stays; a write of PWR_MODE stores NORMAL and nothing else; a write of FAB_CTL stores INJ_CAIRN and SHADOW, and changes nothing at all where it would leave INJ_CAIRN naming a shadow version. Completion is the conclusion here for PWR_ALLOT_WRITE, PWR_MODE_WRITE, FAB_CTL_WRITE. -/
def Obligations.PowerAndFabricControlWrites : Prop :=
  (∀ (s : State) (p : WinPort) (v : Word), Writable s 0x30008 →
    ∃ t, exec (.pwrAllotWrite p v) s = .next t ∧ t = { s with pwr := { s.pwr with allot := t.pwr.allot }, wrote := t.wrote } ∧
      t.pwr.allot.toNat = max 200 (min 1700 (v.toNat % 2 ^ 16))) ∧
  (∀ (s : State) (p : WinPort) (v : Word), Writable s 0x30000 →
    exec (.pwrModeWrite p v) s = .next (noteWrite { s with pwr := { s.pwr with normal := v.getLsbD 0 } } p 0x30000 v)) ∧
  (∀ (s : State) (p : WinPort) (v : Word), Writable s 0x60000 →
    (v.getLsbD (if v.getLsbD 8 then 1 else 0) = true → exec (.fabCtlWrite p v) s = .next s) ∧
    (v.getLsbD (if v.getLsbD 8 then 1 else 0) = false →
      exec (.fabCtlWrite p v) s =
        .next (noteWrite { s with fab := { s.fab with injCairn := v.getLsbD 8, shadow := v.extractLsb' 0 2 } } p 0x60000 v)))

/-- After READY and with no table operation in progress, FAB_TBL_CMD with exactly WRITE, READ or DELETE takes the selection, key and data as they stand. Its completion clears BUSY and: with the version live, REFUSED and no table changes; a READ of an entry that is not there is NOT_FOUND; a READ of a valid endpoint entry loads DATA; a WRITE of a valid, legal endpoint entry over a valid one stores it at the router and version alone; so is a new one, unless four others are held in its set, which is SET_FULL; a DELETE of a valid one leaves it invalid. Rope entries likewise, without sets; a rope-list entry, which has no VALID bit, is always read, written where it is legal and deleted. A router, table, key or set of operation bits that does not exist, a table 2 at a hub, and a WRITE of an entry that is not valid or not legal are REFUSED. A READ is stated for a tick in which no port writes DATA, whose write stands (R10). A ring WRITE in the tick of a fabric READ goes first, and it is the operation that runs (R435). Completion is the conclusion here for WRITE, READ, DELETE, TBL_CMD_COMPLETE. -/
def Obligations.TableCommandsComplete : Prop :=
  (∀ (s : State) (p : WinPort), Writable s 0x60020 → s.fab.op = none →
    let o (b : BitVec 3) : TblOp := ⟨s.fab.selRouter.toNat, s.fab.selTable.toNat, s.fab.selVersion.toNat, s.fab.key.toNat, s.fab.data, b⟩
    exec (.tblWrite p 0) s = .next (keepUndo s p 0x60020 (noteWrite { s with fab := { s.fab with op := some (o 1) } } p 0x60020 1)) ∧
    exec (.tblRead p 0) s = .next (keepUndo s p 0x60020 (noteWrite { s with fab := { s.fab with op := some (o 2) } } p 0x60020 2)) ∧
    exec (.tblDelete p 0) s = .next (keepUndo s p 0x60020 (noteWrite { s with fab := { s.fab with op := some (o 4) } } p 0x60020 4))) ∧
  (∀ s : State, Writable s 0x60020 → s.fab.op = none →
    ∃ t u, exec (.tblRead .fabric 0) s = .next t ∧ exec (.tblWrite .ring 0) t = .next u ∧
      u.fab.op = some ⟨s.fab.selRouter.toNat, s.fab.selTable.toNat, s.fab.selVersion.toNat, s.fab.key.toNat, s.fab.data, 1⟩) ∧
  (∀ (s : State) (o : TblOp), s.fab.op = some o →
    ∃ f, exec .tblCmdComplete s = .next { s with fab := f } ∧ f.op = none ∧
      (bit s.fab.shadow o.version = false → f = { s.fab with op := none, status := 3 }) ∧
      (51 < o.router ∨ o.table = 3 ∨ (o.table = 2 ∧ 47 < o.router) ∨ (o.table ≠ 0 ∧ 4095 < o.key) ∨ o.bits ∉ [1, 2, 4] →
        f = { s.fab with op := none, status := 3 })) ∧
  (∀ (s : State) (r k : Nat) (v : Bool) (d : BitVec 64) (b : BitVec 3), s.fab.op = some ⟨r, 0, b2n v, k, d, b⟩ →
    r < 52 → k < 2 ^ 24 → bit s.fab.shadow (b2n v) = true →
    ∃ t, exec .tblCmdComplete s = .next t ∧
      (b = 2 → eValid (epEntry s r v k) = true → s.wroteTo 0x60018 = false → s.wroteTo 0x6001C = false →
        t.fab = { s.fab with op := none, status := 0, data := epEntry s r v k }) ∧
      (b = 2 → eValid (epEntry s r v k) = false → t.fab = { s.fab with op := none, status := 1 }) ∧
      (b = 4 → eValid (epEntry s r v k) = false → t.fab = { s.fab with op := none, status := 1 }) ∧
      (b = 4 → eValid (epEntry s r v k) = true → t.fab = { s.fab with op := none, status := 0, ep := t.fab.ep } ∧ epEntry t r v k = 0 ∧
        ∀ r' v' k', k' < 2 ^ 24 → (r', v', k') ≠ (r, v, k) → epEntry t r' v' k' = epEntry s r' v' k') ∧
      (b = 1 → eValid d = false ∨ epRefused r d = true ∨ k = 2 ^ 24 - 1 → t.fab = { s.fab with op := none, status := 3 }) ∧
      (b = 1 → eValid d = true → epRefused r d = false → k ≠ 2 ^ 24 - 1 →
        (eValid (epEntry s r v k) = true ∨ setHeld s r v k < 4 →
          t.fab = { s.fab with op := none, status := 0, ep := t.fab.ep } ∧ epEntry t r v k = d ∧
          ∀ r' v' k', k' < 2 ^ 24 → (r', v', k') ≠ (r, v, k) → epEntry t r' v' k' = epEntry s r' v' k') ∧
        (∀ ks : List Nat, eValid (epEntry s r v k) = false → ks.length = 4 → ks.Nodup →
          (∀ x ∈ ks, x < 2 ^ 24 ∧ epSet r x = epSet r k ∧ eValid (epEntry s r v x) = true) →
          t.fab = { s.fab with op := none, status := 2 }))) ∧
  (∀ (s : State) (r k : Nat) (v : Bool) (d : BitVec 64) (b : BitVec 3), s.fab.op = some ⟨r, 1, b2n v, k, d, b⟩ →
    r < 52 → k < 4096 → bit s.fab.shadow (b2n v) = true →
    ∃ t, exec .tblCmdComplete s = .next t ∧
      (b = 2 → eValid (ropeEntry s r v k) = true → s.wroteTo 0x60018 = false → s.wroteTo 0x6001C = false →
        t.fab = { s.fab with op := none, status := 0, data := ropeEntry s r v k }) ∧
      (b = 2 ∨ b = 4 → eValid (ropeEntry s r v k) = false → t.fab = { s.fab with op := none, status := 1 }) ∧
      (b = 4 → eValid (ropeEntry s r v k) = true → t.fab = { s.fab with op := none, status := 0, rope := t.fab.rope } ∧ ropeEntry t r v k = 0 ∧
        ∀ r' v' k', k' < 4096 → (r', v', k') ≠ (r, v, k) → ropeEntry t r' v' k' = ropeEntry s r' v' k') ∧
      (b = 1 → eValid d = false ∨ ropeRefused r d = true → t.fab = { s.fab with op := none, status := 3 }) ∧
      (b = 1 → eValid d = true → ropeRefused r d = false →
        t.fab = { s.fab with op := none, status := 0, rope := t.fab.rope } ∧ ropeEntry t r v k = d ∧
        ∀ r' v' k', k' < 4096 → (r', v', k') ≠ (r, v, k) → ropeEntry t r' v' k' = ropeEntry s r' v' k')) ∧
  (∀ (s : State) (r k : Nat) (v : Bool) (d : BitVec 64) (b : BitVec 3), s.fab.op = some ⟨r, 2, b2n v, k, d, b⟩ →
    r < 48 → k < 4096 → bit s.fab.shadow (b2n v) = true →
    ∃ t, exec .tblCmdComplete s = .next t ∧
      (b = 2 → s.wroteTo 0x60018 = false → s.wroteTo 0x6001C = false →
        t.fab = { s.fab with op := none, status := 0, data := t.fab.data } ∧ t.fab.data.toNat = (listEntry s r v k).toNat) ∧
      (b = 4 → t.fab = { s.fab with op := none, status := 0, list := t.fab.list } ∧ listEntry t r v k = 0) ∧
      (b = 1 → fld d 8 56 ≠ 0 ∨ 11 < fld d 0 4 → t.fab = { s.fab with op := none, status := 3 }) ∧
      (b = 1 → fld d 8 56 = 0 → fld d 0 4 ≤ 11 →
        t.fab = { s.fab with op := none, status := 0, list := t.fab.list } ∧ (listEntry t r v k).toNat = d.toNat % 256 ∧
        ∀ r' v' k', k' < 4096 → (r', v', k') ≠ (r, v, k) → listEntry t r' v' k' = listEntry s r' v' k'))

/-- After READY: CMD_Q_CFG of a DISABLED queue stores its ring sizes clamped to 6 to 16 and its interrupt fields, nothing else of the queue changing where no completion is held, and of any other queue is ignored. A doorbell of a DISABLED or RESETTING queue is ignored. DB_SQ_TAIL within the ring is stored and raises no error; at or above the ring size it puts the queue into ERROR with cause TAIL_RANGE. DB_CQ_HEAD at or above the ring size does the same with HEAD_RANGE; within it, with no completion held, it is stored and nothing else changes. CMD_Q_CTL.ENABLE of an empty queue sets ENABLE alone, and of one RESETTING too is stored, with nothing fetched; CMD_Q_CTL.RESET of a queue with nothing in progress returns it to DISABLED with its bases and both sizes kept. REGION_EVT_HEAD at or above the ring size is ignored; within it, with no event dropped, it is stored and nothing else changes. (Beside each write that is not ignored, the tick's note that the register was written.) Completion is the conclusion here for CMD_Q_CFG_WRITE, DB_SQ_TAIL, DB_CQ_HEAD, QUEUE_ENABLE, QUEUE_RESET, REGION_EVT_HEAD_WRITE. -/
def Obligations.QueueControlWrites : Prop :=
  (∀ (s : State) (p : WinPort) (n : Fin 64) (v : Word), Writable s (0x40010 + 0x40 * n.val) →
    (queueState (s.queue n) ≠ 0 → exec (.cmdQCfgWrite p n v) s = .next s) ∧
    (queueState (s.queue n) = 0 →
      ∃ t, exec (.cmdQCfgWrite p n v) s = .next t ∧
        (t.queue n).irqCount = v.extractLsb' 8 8 ∧ (t.queue n).irqDelay = v.extractLsb' 0 8 ∧
        ((s.queue n).held = [] → t.queue n = { s.queue n with sqLog2 := (t.queue n).sqLog2, cqLog2 := (t.queue n).cqLog2,
                                                              irqCount := v.extractLsb' 8 8, irqDelay := v.extractLsb' 0 8 }) ∧
        (t.queue n).sqLog2.toNat = max 6 (min 16 (v.toNat / 2 ^ 27)) ∧
        (t.queue n).cqLog2.toNat = max 6 (min 16 (v.toNat / 2 ^ 22 % 32)) ∧ ∀ m, m ≠ n.val → t.queue m = s.queue m)) ∧
  (∀ (s : State) (p : WinPort) (n : Fin 64) (v : Word), queueState (s.queue n) = 0 ∨ queueState (s.queue n) = 3 →
    (Writable s (0x400000 + 0x1000 * n.val) → exec (.dbSqTail p n v) s = .next s) ∧
    (Writable s (0x400004 + 0x1000 * n.val) → exec (.dbCqHead p n v) s = .next s)) ∧
  (∀ (s : State) (p : WinPort) (n : Fin 64) (v : Word), queueState (s.queue n) = 1 →
    (Writable s (0x400000 + 0x1000 * n.val) →
      ∃ t, exec (.dbSqTail p n v) s = .next t ∧ (t.queue n).dbTail = v.extractLsb' 0 16 ∧
      ((t.queue n).inError = true ↔ sqSize (s.queue n) ≤ v.toNat % 2 ^ 16) ∧
      (sqSize (s.queue n) ≤ v.toNat % 2 ^ 16 → (t.queue n).error = 1)) ∧
    (Writable s (0x400004 + 0x1000 * n.val) → cqSize (s.queue n) ≤ v.toNat % 2 ^ 16 →
      ∃ t, exec (.dbCqHead p n v) s = .next t ∧ (t.queue n).dbHead = v.extractLsb' 0 16 ∧ (t.queue n).inError = true ∧
        (t.queue n).error = 2) ∧
    (Writable s (0x400004 + 0x1000 * n.val) → v.toNat % 2 ^ 16 < cqSize (s.queue n) → (s.queue n).held = [] →
      exec (.dbCqHead p n v) s =
        .next (noteWrite (s.modQueue n fun q => { q with dbHead := v.extractLsb' 0 16 }) p (0x400004 + 0x1000 * n.val) v))) ∧
  (∀ (s : State) (p : WinPort) (n : Fin 64), Writable s (0x40014 + 0x40 * n.val) → queueState (s.queue n) = 0 →
    (s.queue n).dbTail = (s.queue n).fetchHead →
    exec (.queueEnable p n 1) s =
      .next (keepUndo s p (0x40014 + 0x40 * n.val) (noteWrite (s.modQueue n fun q => { q with enable := true }) p (0x40014 + 0x40 * n.val) 1))) ∧
  (∀ (s : State) (p : WinPort) (n : Fin 64), Writable s (0x40014 + 0x40 * n.val) → (s.queue n).resetting = true →
    ∃ t, exec (.queueEnable p n 1) s = .next t ∧ (t.queue n).enable = true ∧ (t.queue n).resetting = true ∧ (t.queue n).fetches = (s.queue n).fetches) ∧
  (∀ (s : State) (p : WinPort) (n : Fin 64), Writable s (0x40014 + 0x40 * n.val) → (s.queue n).resetting = false →
    (s.queue n).run = none → (∀ v ∈ s.svc, ∀ r ∈ v.2.seated, r.queue ≠ n.val) →
    ∃ t, exec (.queueReset p n) s = .next t ∧ queueState (t.queue n) = 0 ∧ (t.queue n).ready = [] ∧ (t.queue n).fetches = [] ∧
      (t.queue n).held = [] ∧ (t.queue n).dbTail = 0 ∧ (t.queue n).sqHead = 0 ∧ (t.queue n).cqTail = 0 ∧ (t.queue n).phase = true ∧
      (t.queue n).sqBase = (s.queue n).sqBase ∧ (t.queue n).sqLog2 = (s.queue n).sqLog2 ∧ (t.queue n).cqBase = (s.queue n).cqBase ∧
      (t.queue n).cqLog2 = (s.queue n).cqLog2) ∧
  (∀ (s : State) (p : WinPort) (v : Word), Writable s 0x20C → evtSize s.evt ≤ v.toNat % 2 ^ 16 →
    exec (.regionEvtHeadWrite p v) s = .next s) ∧
  (∀ (s : State) (p : WinPort) (v : Word), Writable s 0x20C → v.toNat % 2 ^ 16 < evtSize s.evt → s.evt.overflow = 0 →
    exec (.regionEvtHeadWrite p v) s = .next (noteWrite { s with evt := { s.evt with head := v.extractLsb' 0 16 } } p 0x20C v))

/-- After READY, a WP_WRITE of REGION_BOOT_FE, REGION_BOOT_HOST, a word of the label or an operator's word with fewer than 100,000 accepted writes of its word and none persisting is stored, counted and begins to persist. While one persists, a fabric write is stored, counted and held, and a ring write changes nothing. At 100,000 accepted writes a write is rejected: the word and its count stay, and WORN, WORN_WORD and FLT_SUMMARY.PST are set. PERSIST_ACK ends the oldest persisting write of the word and begins the next held one; the word stays as it reads. For the word of a quarter's trim, a lowering that waits for it is applied then, or, while a move is in progress, once that ends. (What it does to a key operation is stated with the keys.) Completion is the conclusion here for WP_WRITE, PERSIST_ACK. -/
def Obligations.PersistentStoreWrites : Prop :=
  (∀ (s : State) (p : WinPort) (v m : Word) (off w : Nat), WpReg off w m → Writable s off → sget 0 s.pst.writes w < 100000 → pstBusy s w = false →
    ∃ t, exec (.wpWrite p (BitVec.ofNat 24 off) v) s = .next t ∧ t = { s with pst := t.pst, wrote := t.wrote } ∧ t.pst.held = s.pst.held ∧
      t.pst.busy = s.pst.busy ++ [(w, v &&& m)] ∧ sget 0 t.pst.words w = v &&& m ∧
      sget 0 t.pst.writes w = sget 0 s.pst.writes w + 1 ∧
      ∀ x, x ≠ w → sget 0 t.pst.words x = sget 0 s.pst.words x ∧ sget 0 t.pst.writes x = sget 0 s.pst.writes x) ∧
  (∀ (s : State) (v m : Word) (off w : Nat), WpReg off w m → Writable s off → sget 0 s.pst.writes w < 100000 → pstBusy s w = true →
    exec (.wpWrite .ring (BitVec.ofNat 24 off) v) s = .next s ∧
    ∃ t, exec (.wpWrite .fabric (BitVec.ofNat 24 off) v) s = .next t ∧ t.pst.busy = s.pst.busy ∧
      t.pst.held = s.pst.held ++ [(w, v &&& m)] ∧ sget 0 t.pst.words w = v &&& m ∧
      sget 0 t.pst.writes w = sget 0 s.pst.writes w + 1) ∧
  (∀ (s : State) (p : WinPort) (v m : Word) (off w : Nat), WpReg off w m → Writable s off → 100000 ≤ sget 0 s.pst.writes w → pstBusy s w = false →
    ∃ t, exec (.wpWrite p (BitVec.ofNat 24 off) v) s = .next t ∧ t.pst = { s.pst with worn := true, wornWord := t.pst.wornWord } ∧ t.pst.wornWord.toNat = w ∧
      bit t.flt.summary 9 = true) ∧
  (∀ (s : State) (w : Fin 4096) (v : Word), s.pst.busy = [(w.val, v)] → (w.val < 0x40 ∨ (0x44 ≤ w.val ∧ w.val < 0x48) ∨ 0x7D ≤ w.val) →
    ∃ t, exec (.persistAck w) s = .next t ∧ t = { s with pst := t.pst } ∧ t.pst.words = s.pst.words ∧
      pstRead t w.val = sget 0 s.pst.words w.val ∧
      (s.pst.held = [] → pstBusy t w.val = false) ∧
      (∀ x rest, s.pst.held = (w.val, x) :: rest → t.pst.busy = [(w.val, x)] ∧ t.pst.held = rest)) ∧
  (∀ (s : State) (q : Fin 4) (v : Word), s.pst.busy = [(0x40 + q.val, v)] → s.pst.held = [] →
    ∃ t, exec (.persistAck ⟨0x40 + q.val, by omega⟩) s = .next t ∧ t.pst.words = s.pst.words ∧ t.pst.busy = [] ∧
      ((s.trim q).lowering = false → t = { s with pst := t.pst }) ∧
      ((s.trim q).lowering = true → (t.trim q).lowering = false ∧
        (trimFree s = true → (t.trim q).guard_ = (s.trim q).guard_ - 5 ∧ (t.trim q).lowerDue = false) ∧
        (trimFree s = false → (t.trim q).guard_ = (s.trim q).guard_ ∧ (t.trim q).lowerDue = true)))

/-- The identity registers read in every phase, also while the region is held in reset, and their reads change nothing: REGION_ID 0x0EF1_4E57, REGION_STEP 0x0000_4200, REGION_SITE the part's ENABLED and SITE, REGION_SERIAL_LO and _HI the halves of its serial. A read of CLK_DRONE_COUNT_LO through a port answers the low word of the count as the tick found it and latches its high word for that port alone, so that the port's next read of _HI answers the high word of the same count; nothing else changes. The first read in a tick of FAB_UNROUTE_COUNT answers the count as the tick found it, clears it but for what this tick has added, and arms the capture again, which a packet of this tick then takes at once; what this tick has added counts also where the counter stood at its limit; a second read in the tick, through either port, answers the same value and clears nothing. The first read of PIT_ERR[q] does so with its three counts and the capture of quarter q alone; where an overrun or a bad operation of this tick awaits the capture, that takes it, and is not armed. The first read of ZONE_ARITH_DATA does so with the selected count of the selected CU, or with its sticky flags where item 37 is selected. All hold while the region is not held in reset. Completion is the conclusion here for LATCHED_LO_READ, UNROUTE_COUNT_READ, PIT_ERR_READ, ZONE_ARITH_DATA_READ. -/
def Obligations.ReadsThatAct : Prop :=
  (∀ (s : State) (p : WinPort), winRead s p 0x00 4 = (0, 0x0EF14E57, s) ∧ winRead s p 0x04 4 = (0, 0x00004200, s) ∧
    (∃ w, winRead s p 0x08 4 = (0, w, s) ∧ w.toNat = (if s.found.ident.enabled then 256 else 0) + s.found.ident.site.toNat) ∧
    ∃ l h, winRead s p 0x0C 4 = (0, l, s) ∧ winRead s p 0x10 4 = (0, h, s) ∧
      s.found.ident.serial.toNat = h.toNat * 2 ^ 32 + l.toNat) ∧
  (∀ (s : State) (p : WinPort), s.boot.phase ≠ .held → s.boot.phase ≠ .unpowered →
    (winRead s p 0x10020 4).2.1 = s.found.clk.count.extractLsb' 0 32 ∧
    ∃ t, exec (.latchedLoRead p 0x10020) s = .next t ∧ t = { s with latch := t.latch } ∧
      regValue t p 0x10024 = s.found.clk.count.extractLsb' 32 32 ∧ (∀ r, r ≠ p → regValue t r 0x10024 = regValue s r 0x10024)) ∧
  (∀ (s : State) (p : WinPort), s.boot.phase ≠ .held → s.boot.phase ≠ .unpowered → s.rcSeen.contains 0x60030 = false →
    (winRead s p 0x60030 4).2.1 = s.found.fab.unroute ∧
    exec (.unrouteCountRead p) s =
      .next { s with fab := { s.fab with unroute := rcLeft s (rcKey 0x60030 0) s.fab.unroute s.found.fab.unroute, armed := (s.caughtAt 0x60034).isNone,
                                         first := (s.caughtAt 0x60034).getD s.fab.first },
                     rcSeen := 0x60030 :: s.rcSeen } ∧
    (s.fab.unroute = s.found.fab.unroute → sget 0 s.full (rcKey 0x60030 0) = 0 → rcLeft s (rcKey 0x60030 0) s.fab.unroute s.found.fab.unroute = 0)) ∧
  (∀ (s : State) (p : WinPort), s.boot.phase ≠ .held → s.boot.phase ≠ .unpowered → s.rcSeen.contains 0x60030 = true →
    (winRead s p 0x60030 4).2.1 = s.found.fab.unroute ∧ exec (.unrouteCountRead p) s = .next s) ∧
  (∀ (s : State) (p : WinPort) (q : Fin 4), s.boot.phase ≠ .held → s.boot.phase ≠ .unpowered →
    s.rcSeen.contains (0xA0014 + 0x40 * q.val) = false → s.caughtAt (0xA0018 + 0x40 * q.val) = none →
    let y := sget PitQ.init s.found.pitq q
    ∃ t, exec (.pitErrRead p q) s = .next t ∧
      t = { s.modPitQ q fun x => { x with overruns := rcLeft s (rcKey (0xA0014 + 0x40 * q.val) 0) x.overruns y.overruns,
                                          refused := rcLeft s (rcKey (0xA0014 + 0x40 * q.val) 1) x.refused y.refused,
                                          badOp := rcLeft s (rcKey (0xA0014 + 0x40 * q.val) 2) x.badOp y.badOp, armed := true } with rcSeen := t.rcSeen }) ∧
  (∀ (s : State) (p : WinPort) (q : Fin 4) (c : Word), s.boot.phase ≠ .held → s.boot.phase ≠ .unpowered →
    s.rcSeen.contains (0xA0014 + 0x40 * q.val) = false → s.caughtAt (0xA0018 + 0x40 * q.val) = some c →
    ∃ t, exec (.pitErrRead p q) s = .next t ∧ (t.pitQ q).armed = false ∧ (t.pitQ q).errPiton = c.extractLsb' 0 17 ∧
      (t.pitQ q).errCause = c.extractLsb' 24 2) ∧
  (∀ (s : State) (p : WinPort) (z : Fin 48), s.boot.phase ≠ .held → s.boot.phase ≠ .unpowered →
    let x := s.zpage z
    let u := 204 * z.val + x.arithUnit.toNat
    (s.quarter (z.val / 12)).inReset = false → x.arithUnit.toNat < 204 → isMu u = false →
    s.rcSeen.contains (0x100804 + 0x4000 * z.val + 2 ^ 24 * (x.arithUnit.toNat * 64 + x.arithItem.toNat)) = false →
    ∃ t, exec (.zoneArithDataRead p z) s = .next t ∧ t = { s with units := t.units, rcSeen := t.rcSeen } ∧ (∀ v, v ≠ u → t.unit v = s.unit v) ∧
      (x.arithItem = 37 → t.unit u = { s.unit u with cu := { (s.unit u).cu with flags := (s.raisedAt (flagsKey u)).setWidth 5 } }) ∧
      (x.arithItem ≠ 37 →
        sget 0 (t.unit u).cu.items x.arithItem.toNat =
          rcLeft s (itemKey u x.arithItem.toNat) (sget 0 (s.unit u).cu.items x.arithItem.toNat) (sget 0 (sget UnitSt.blank s.found.units u).cu.items x.arithItem.toNat) ∧
        t.unit u = { s.unit u with cu := { (s.unit u).cu with items := (t.unit u).cu.items } }))

/-- INSTALL and REVOKE that come over the fabric change nothing. From the ring, after READY: INSTALL into a slot that is enabled or revoked ends with SLOT_USED; with key registers that hold no point of the curve it ends with INVALID_POINT; else its first word begins to persist, or, where that word is worn, it ends with WORN; its slot is not enabled yet, and INSTALL reads 1. Each PERSIST_ACK of the word it stands at begins the next, the thirteenth the word of ENABLED and REVOKED, and the PERSIST_ACK of that one enables the slot and ends it with OK. REVOKE begins to persist that word with the slot's ENABLED 0 and REVOKED 1, or waits while an earlier write of it persists; its PERSIST_ACK clears the slot's ENABLED, sets its REVOKED and ends it with OK. That one of these written while one like it is in progress only stores SLOT is the model's choice (log 146). UPDATE starts an update unless one runs or the inactive slot has taken 1,000 updates, which is an error: it takes the address of the registers and sends the first HOST_RD of the image. Its completion with the image read fills the inactive slot, counted as one more update, and, where the image verifies and has a greater VERSION, sets PENDING; in every other case PENDING is clear, the slot is not verified and the update has failed, with the error that says why. That the words persist one after another with the word of ENABLED and REVOKED last, that ENABLED, REVOKED and RESULT change as that one has, that a worn word ends the operation at it, and that a REVOKE waits for the word, is the model's reading (log 90), and the places of the fields in that word are its choice (log 74). That UPDATE clears PENDING, that a WORN slot leaves it, and when an update counts, is the model's reading (log 91). Completion is the conclusion here for INSTALL, REVOKE, UPDATE, FW_UPDATE_COMPLETE. -/
def Obligations.KeysAndFirmware : Prop :=
  (∀ (s : State) (k : Fin 4), Writable s 0x340 →
    exec (.install .fabric k) s = .next s ∧ exec (.revoke .fabric k) s = .next s) ∧
  (∀ (s : State) (k : Fin 4), Writable s 0x340 →
    ∃ t, exec (.install .ring k) s = .next t ∧ t.fw.slot.toNat = k ∧ t.fw.enabled = s.fw.enabled ∧ t.fw.revoked = s.fw.revoked ∧
      (s.fw.install = true → t.fw = { s.fw with slot := t.fw.slot } ∧ t.pst = s.pst) ∧
      (s.fw.install = false → bit s.fw.enabled k = true ∨ bit s.fw.revoked k = true →
        t.fw = { s.fw with slot := t.fw.slot, result := 3 } ∧ t.pst = s.pst) ∧
      (s.fw.install = false → bit s.fw.enabled k = false → bit s.fw.revoked k = false → onCurve (keyRegs s.fw.key) = false →
        t.fw = { s.fw with slot := t.fw.slot, result := 2 } ∧ t.pst = s.pst) ∧
      (s.fw.install = false → bit s.fw.enabled k = false → bit s.fw.revoked k = false → onCurve (keyRegs s.fw.key) = true →
        fld (sget 0 s.fw.key 12) 8 24 = 0 →
        (sget 0 s.pst.writes (0x48 + 13 * k.val) < 100000 →
          t.fw = { s.fw with slot := t.fw.slot, install := true, instSlot := t.fw.slot, instKey := s.fw.key, instPos := 0 } ∧
          pstBusy t (0x48 + 13 * k.val) = true ∧ sget 0 t.pst.words (0x48 + 13 * k.val) = sget 0 s.fw.key 0) ∧
        (100000 ≤ sget 0 s.pst.writes (0x48 + 13 * k.val) → t.fw.install = false ∧ t.fw.result = 4 ∧ t.pst.words = s.pst.words))) ∧
  (∀ (s : State) (i : Fin 13) (v : Word), s.fw.install = true → s.fw.instPos = i.val →
    s.pst.busy = [(0x48 + 13 * s.fw.instSlot.toNat + i.val, v)] → s.pst.held = [] → s.fw.revoke = false →
    bit s.fw.revoked s.fw.instSlot.toNat = false → (∀ w, sget 0 s.pst.writes w < 100000) →
    ∃ t, exec (.persistAck (BitVec.ofNat 12 (0x48 + 13 * s.fw.instSlot.toNat + i.val)).toFin) s = .next t ∧
      t.fw.install = true ∧ t.fw.enabled = s.fw.enabled ∧
      (i.val < 12 → t.fw.instPos = i.val + 1 ∧
        t.pst.busy = [(0x48 + 13 * s.fw.instSlot.toNat + (i.val + 1), sget 0 s.fw.instKey (i.val + 1))]) ∧
      (i.val = 12 → t.fw.instPos = 14 ∧
        t.pst.busy = [(0x7C, keyBits (setBit s.fw.enabled s.fw.instSlot.toNat true) s.fw.revoked)])) ∧
  (∀ (s : State) (v : Word), s.pst.busy = [(0x7C, v)] → s.pst.held = [] →
    (s.fw.install = true → s.fw.instPos = 14 → s.fw.revoke = false → s.fw.revoking = false →
      ∃ t, exec (.persistAck 0x7C) s = .next t ∧
        t.fw = { s.fw with install := false, result := 1, enabled := setBit s.fw.enabled s.fw.instSlot.toNat true }) ∧
    (s.fw.install = false → s.fw.revoke = true → s.fw.revoking = true →
      ∃ t, exec (.persistAck 0x7C) s = .next t ∧
        t.fw = { s.fw with revoke := false, revoking := false, result := 1, enabled := setBit s.fw.enabled s.fw.revSlot.toNat false,
                           revoked := setBit s.fw.revoked s.fw.revSlot.toNat true })) ∧
  (∀ (s : State) (k : Fin 4), Writable s 0x340 →
    ∃ t, exec (.revoke .ring k) s = .next t ∧ t.fw.slot.toNat = k ∧ t.fw.enabled = s.fw.enabled ∧ t.fw.revoked = s.fw.revoked ∧
      (s.fw.revoke = true → t.fw = { s.fw with slot := t.fw.slot } ∧ t.pst = s.pst) ∧
      (s.fw.revoke = false → pstBusy s 0x7C = true →
        t.fw = { s.fw with slot := t.fw.slot, revoke := true, revoking := false, revSlot := t.fw.slot } ∧ t.pst = s.pst) ∧
      (s.fw.revoke = false → pstBusy s 0x7C = false → sget 0 s.pst.writes 0x7C < 100000 →
        t.fw = { s.fw with slot := t.fw.slot, revoke := true, revoking := true, revSlot := t.fw.slot } ∧ pstBusy t 0x7C = true ∧
        sget 0 t.pst.words 0x7C = keyBits (setBit s.fw.enabled k false) (setBit s.fw.revoked k true)) ∧
      (s.fw.revoke = false → pstBusy s 0x7C = false → 100000 ≤ sget 0 s.pst.writes 0x7C →
        t.fw.revoke = false ∧ t.fw.result = 4 ∧ t.pst.words = s.pst.words)) ∧
  (∀ (s : State) (p : WinPort), Writable s 0x60 →
    (s.fw.update = 1 → exec (.update p) s = .next (keepUndo s p 0x60 (noteWrite s p 0x60 1))) ∧
    (s.fw.update ≠ 1 → (fwSlot s.fw (!s.fw.active)).updates < 1000 →
      exec (.update p) s = .next (keepUndo s p 0x60 (noteWrite (localSend
        { s with fw := { s.fw with update := 1, error := 0, pending := false, updAddr := s.fw.addr, img := [], got := 0 } } 0 1
        (mkHdr { dest := hostId s, src := feId s, kind := 8, addr := s.fw.addr.toNat * 64, arg := fwChunk }) []) p 0x60 1))) ∧
    (s.fw.update ≠ 1 → 1000 ≤ (fwSlot s.fw (!s.fw.active)).updates →
      exec (.update p) s = .next (keepUndo s p 0x60 (noteWrite { s with fw := { s.fw with update := 3, error := 4 } } p 0x60 1)))) ∧
  (∀ s : State, s.fw.update = 1 →
    let b := !s.fw.active
    let good := Config.fwVerify s.fw.img && decide (s.fw.version.toNat < (Config.fwVersion s.fw.img).toNat)
    (s.fw.got = fwBytes →
      ∃ t, exec (.fwUpdateComplete true) s = .next t ∧ t = { s with fw := t.fw } ∧ t.fw.active = s.fw.active ∧
        fwSlot t.fw s.fw.active = fwSlot s.fw s.fw.active ∧
        fwSlot t.fw b = ⟨s.fw.img, Config.fwLength s.fw.img, good, Config.fwVersion s.fw.img, (fwSlot s.fw b).updates + 1⟩ ∧
        t.fw.pending = good ∧ t.fw.update = (if good then 2 else 3) ∧
        t.fw.error = (if good then 0 else if Config.fwVerify s.fw.img then 3 else 2)) ∧
    (s.fw.got ≠ fwBytes → exec (.fwUpdateComplete true) s = .next s) ∧
    (∃ t, exec (.fwUpdateComplete false) s = .next t ∧ t = { s with fw := t.fw } ∧ t.fw.active = s.fw.active ∧
      fwSlot t.fw s.fw.active = fwSlot s.fw s.fw.active ∧ (fwSlot t.fw b).verified = false ∧ t.fw.pending = false ∧
      t.fw.update = 3 ∧ t.fw.error = 1))

/-- FADD, FMUL, FMIN, FMAX, CMPLT, CMPEQ, SEL, MOV, ROT, BFR and SCL complete whenever they are the next micro-operation due in a running compute unit with valid operands, whatever the pocket's check codes show (R88): every lane of SD holds the operation of Table 3-6 on the lanes of SA and SB (and the old SD for SEL), seen after the table's latency, and the stage's counter moves on; with SD the pocket (PK) the 128 bytes wait to be written in the cycle of completion. The FP32 operations are Machine/Fp's, under the policies of R52, R76 and R77. Completion is the conclusion here for FADD, FMUL, FMIN, FMAX, CMPLT, CMPEQ, SEL, MOV, ROT, BFR, SCL. -/
def Obligations.Stage3RowsComplete : Prop :=
  Stage3Row .fadd 1 3 (fun _ i a b _ => (fpAdd (lane a i) (lane b i)).v) ∧
  Stage3Row .fmul 2 3 (fun _ i a b _ => (fpMul (lane a i) (lane b i)).v) ∧
  Stage3Row .fmin 3 1 (fun _ i a b _ => (fpMin (lane a i) (lane b i)).v) ∧
  Stage3Row .fmax 4 1 (fun _ i a b _ => (fpMaxOp (lane a i) (lane b i)).v) ∧
  Stage3Row .cmplt 5 1 (fun _ i a b _ => (fpLt (lane a i) (lane b i)).v) ∧
  Stage3Row .cmpeq 6 1 (fun _ i a b _ => (fpEq (lane a i) (lane b i)).v) ∧
  Stage3Row .sel 7 1 (fun _ i a b d => if fld (fpIn (lane d i)).v 0 31 ≠ 0 then (fpIn (lane a i)).v else (fpIn (lane b i)).v) ∧
  Stage3Row .mov 8 1 (fun _ i a _ _ => (fpIn (lane a i)).v) ∧
  Stage3Row .rot 9 1 (fun w i a _ _ => (fpIn (lane a ((i + uImm w % 32) % 32))).v) ∧
  Stage3Row .bfr 10 2 (fun _ i a _ _ => (fpOp1 fpToBf16 (lane a i)).v) ∧
  Stage3Row .scl 11 1 (fun w i a _ _ => (fpOp1 (fpScale ((uImm w % 512 : Int) - 256)) (lane a i)).v)

/-- MOV to PK (selector 21) of schedule cycle k, with a valid operand, completes with the 128 bytes of its 32 lanes due for the pocket in cycle k + 1, at the 32-byte row address in IMM. The schedule cycle in which one result is due, and which nothing holds, puts it there: reading those bytes then gives the lanes back, and every other byte of the pocket is unchanged. That an address past 64 KiB wraps is the model's choice (log 103). -/
def Obligations.Stage3WritesThePocket : Prop :=
  (∀ (s : State) (u : Fin 9792) (e : Ecc) (w : Word) (k : Nat) (a : Vec),
    dueOp s u 3 8 = some (w, k) → stage3Ready (s.unit u).cu w k = true → uSD w = 21 →
    (selRead (s.unit u).cu (uSA w) (uImm w) k).2 = some a →
    ∃ t, exec (.mov u e) s = .next t ∧ StageDone s t u 3 k ∧
      (t.unit u).cu.pk = (s.unit u).cu.pk ++ [(k + 1, 32 * uImm w, mkVec fun i => (fpIn (lane a i)).v)] ∧
      (t.unit u).cu.pocket = (s.unit u).cu.pocket ∧ (t.unit u).cu.regs = (s.unit u).cu.regs) ∧
  (∀ (s : State) (u : Fin 9792) (lu r a : Nat) (v : Vec), CycleFree s u lu → (s.unit u).cu.pushes = [] →
    (s.unit u).firing = false → (s.unit u).cu.pk = [(r, a, v)] → r ≤ (s.unit u).cu.cyc →
    ∃ t, exec (.schedStep u) s = .next t ∧ (t.unit u).cu.pk = [] ∧ (t.unit u).cu.cyc = (s.unit u).cu.cyc + 1 ∧
      (∀ i, i < 128 → readByte (t.unit u).cu.pocket ((a + i) % 65536) = v.extractLsb' (8 * i) 8) ∧
      (∀ b, (∀ i, i < 128 → b ≠ (a + i) % 65536) → readByte (t.unit u).cu.pocket b = readByte (s.unit u).cu.pocket b))

/-- A micro-operation whose operand is not valid produces an operand that is not valid and has no other effect than its turn. Of every row of stage 3: with SA not valid, or SB where the row reads it, or SEL's old SD, the destination register shows no value after the latency; nothing is put on its way to the pocket, so that with destination PK (selector 21) the pocket takes no write. Of every row of stage 4: with OUT not valid, stage 5's input shows none. Of QNT, PKB and PKF: with an input that is not valid, what their pushes take is not valid. Of DOT: with weight or activation operands that are not valid, stage 2's input shows none. Of ACC: with terms that are not valid, no slot changes. No flag, item or memory changes. -/
def Obligations.InvalidOperandGivesInvalidResult : Prop :=
  (∀ (s : State) (u : Fin 9792) (e : Ecc) (w : Word) (k : Nat) (x : (Fin 9792 → Ecc → Instr) × Nat × Nat),
    x ∈ ([(.fadd, 1, 3), (.fmul, 2, 3), (.fmin, 3, 1), (.fmax, 4, 1), (.cmplt, 5, 1), (.cmpeq, 6, 1), (.sel, 7, 1), (.mov, 8, 1), (.rot, 9, 1), (.bfr, 10, 2), (.scl, 11, 1)] : List ((Fin 9792 → Ecc → Instr) × Nat × Nat)) →
    dueOp s u 3 x.2.1 = some (w, k) → stage3Ready (s.unit u).cu w k = true →
    (selRead (s.unit u).cu (uSA w) (uImm w) k).2 = none ∨ (x.2.1 < 8 ∧ (selRead (s.unit u).cu (uSB w) (uImm w) k).2 = none) ∨
      (x.2.1 = 7 ∧ (selRead (s.unit u).cu (uSD w) (uImm w) k).2 = none) →
    ∃ t, exec (x.1 u e) s = .next t ∧ (uSD w ≠ 21 → regAtCycle (t.unit u).cu (uSD w) (k + x.2.2) = none) ∧ StageDone s t u 3 k ∧
      (t.unit u).cu.pk = (s.unit u).cu.pk ∧
      (t.unit u).cu.items = (s.unit u).cu.items ∧ (t.unit u).cu.flags = (s.unit u).cu.flags ∧
      (t.unit u).cu.pocket = (s.unit u).cu.pocket) ∧
  (∀ (s : State) (u : Fin 9792) (w : Word) (k : Nat) (x : (Fin 9792 → Instr) × Nat × Nat),
    x ∈ ([(.exp, 1, 8), (.exp2, 2, 6), (.log, 3, 8), (.rsqrt, 4, 6), (.rcp, 5, 6), (.tanh, 6, 8), (.sigm, 7, 8), (.gelut, 8, 10), (.gelue, 9, 10), (.silu, 10, 10), (.sqrt, 11, 6), (.pass, 16, 1)] : List ((Fin 9792 → Instr) × Nat × Nat)) →
    dueOp s u 4 x.2.1 = some (w, k) → regAtCycle (s.unit u).cu 22 k = none →
    ∃ t, exec (x.1 u) s = .next t ∧ regAtCycle (t.unit u).cu regOut4 (k + x.2.2) = none ∧ StageDone s t u 4 k ∧
      (t.unit u).cu.items = (s.unit u).cu.items ∧ (t.unit u).cu.flags = (s.unit u).cu.flags) ∧
  (∀ (s : State) (u : Fin 9792) (w : Word) (k : Nat) (x : (Fin 9792 → Instr) × Nat × List (Option Row)),
    x ∈ ([(.qnt, 1, [none]), (.pkb, 2, [none]), (.pkf, 3, [none, none])] : List ((Fin 9792 → Instr) × Nat × List (Option Row))) →
    dueOp s u 5 x.2.1 = some (w, k) → regAtCycle (s.unit u).cu regOut4 k = none →
    ∃ t, exec (x.1 u) s = .next t ∧ outFor (t.unit u).cu.outq k = some (k, x.2.2) ∧ StageDone s t u 5 k ∧
      (t.unit u).cu.items = (s.unit u).cu.items ∧ (t.unit u).cu.flags = (s.unit u).cu.flags) ∧
  (∀ (s : State) (u : Fin 9792) (w : Word) (k : Nat) (x : Option (Fin 32 × Fin 24)),
    dueOp s u 1 1 = some (w, k) → timedGet none (s.unit u).cu.wOp k = none ∨ timedGet none (s.unit u).cu.aOp k = none →
    ∃ t, exec (.dot u x) s = .next t ∧ timedGet none (t.unit u).cu.terms (k + 3) = none ∧ StageDone s t u 1 k ∧
      (t.unit u).cu.items = (s.unit u).cu.items ∧ (t.unit u).cu.flags = (s.unit u).cu.flags) ∧
  (∀ (s : State) (u : Fin 9792) (w : Word) (k : Nat) (x : Option (Fin 32 × Fin 40)),
    dueOp s u 2 1 = some (w, k) → timedGet none (s.unit u).cu.terms k = none →
    ∃ t, exec (.acc u x) s = .next t ∧ (t.unit u).cu.slots = (s.unit u).cu.slots ∧ StageDone s t u 2 k ∧
      (t.unit u).cu.items = (s.unit u).cu.items ∧ (t.unit u).cu.flags = (s.unit u).cu.flags)

/-- EXP, EXP2, LOG, RSQRT, RCP, TANH, SIGM, GELUT, GELUE, SILU and SQRT complete on a valid OUT vector: every lane of the result is one fixed function of that lane alone, seen after the latency of Table 3-7. Where Table 3-7 gives a boundary result the function returns it; elsewhere it returns the correctly rounded value or one within the error of the table, in ulps; which of these is a free value (log 14), and this holds whatever it is. PASS forwards the OUT vector unchanged after 1 cycle. Completion is the conclusion here for EXP, EXP2, LOG, RSQRT, RCP, TANH, SIGM, GELUT, GELUE, SILU, SQRT, PASS. -/
def Obligations.Stage4RowsComplete : Prop :=
  Stage4Row .exp 1 8 (fun x => (stage4Fn 1 x).v) ∧ Stage4Row .exp2 2 6 (fun x => (stage4Fn 2 x).v) ∧
  Stage4Row .log 3 8 (fun x => (stage4Fn 3 x).v) ∧ Stage4Row .rsqrt 4 6 (fun x => (stage4Fn 4 x).v) ∧
  Stage4Row .rcp 5 6 (fun x => (stage4Fn 5 x).v) ∧ Stage4Row .tanh 6 8 (fun x => (stage4Fn 6 x).v) ∧
  Stage4Row .sigm 7 8 (fun x => (stage4Fn 7 x).v) ∧ Stage4Row .gelut 8 10 (fun x => (stage4Fn 8 x).v) ∧
  Stage4Row .gelue 9 10 (fun x => (stage4Fn 9 x).v) ∧ Stage4Row .silu 10 10 (fun x => (stage4Fn 10 x).v) ∧
  Stage4Row .sqrt 11 6 (fun x => (stage4Fn 11 x).v) ∧
  (∀ (s : State) (u : Fin 9792) (w : Word) (k : Nat) (v : Vec),
    dueOp s u 4 16 = some (w, k) → regAtCycle (s.unit u).cu 22 k = some v →
    ∃ t, exec (.pass u) s = .next t ∧ regAtCycle (t.unit u).cu regOut4 (k + 1) = some v ∧ StageDone s t u 4 k) ∧
  (∀ (op : Nat) (x : Word),
    (∀ r, stage4Bound op (fpIn x).v = some r → (stage4Fn op x).v = r.v) ∧
    (stage4Bound op (fpIn x).v = none →
      (stage4Fn op x).v = (stage4Exact op (fpIn x).v).v ∨
        (stage4Fn op x).v ∈ ulpBall (stage4Exact op (fpIn x).v).v (stage4Ulps op)))

/-- PKF passes the 32 FP32 lanes of its input as two rows, lanes 0 to 15 first. PKB packs the lanes as BF16 into one row. QNT in the output formats of 4 and 8 bits puts the records of lanes 0 to 15 and then 16 to 31, quantised as header word 3 says, at the bottom of one row, and moves BLK on by 2. It takes the seed tokens that hold from its cycle on (R75). Two points of this are the model's choice: that the two records lie back to back at the bottom of one row, which the spec does not lay out, the row's bits above them being an opaque function of the two records of which nothing is said here (log 16), and that a seed token consumed by a firing holds from OFF5 cycles on, the QNT drawing with the seeds of its own cycle (log 121). In the output format FP32 QNT gives the lanes as two rows, in BF16 the lanes rounded to nearest even as one. Each completes on a valid input, its result is what a push of its cycle takes, and the stage's counter moves on. Completion is the conclusion here for PKF, PKB, QNT. -/
def Obligations.Stage5RowsComplete : Prop :=
  (∀ (s : State) (u : Fin 9792) (w : Word) (k : Nat) (v : Vec),
    dueOp s u 5 3 = some (w, k) → regAtCycle (s.unit u).cu regOut4 k = some v →
    ∃ t, exec (.pkf u) s = .next t ∧
      outFor (t.unit u).cu.outq k = some (k, [some (v.extractLsb' 0 512), some (v.extractLsb' 512 512)]) ∧ StageDone s t u 5 k) ∧
  (∀ (s : State) (u : Fin 9792) (w : Word) (k : Nat) (v : Vec),
    dueOp s u 5 2 = some (w, k) → regAtCycle (s.unit u).cu regOut4 k = some v →
    ∃ t, exec (.pkb u) s = .next t ∧
      outFor (t.unit u).cu.outq k = some (k, [some (bf16Row fun i => (fpOp1 fpToBf16 (lane v i)).v)]) ∧ StageDone s t u 5 k) ∧
  (∀ (s : State) (u : Fin 9792) (w : Word) (k : Nat) (v : Vec),
    dueOp s u 5 1 = some (w, k) → regAtCycle (s.unit u).cu regOut4 k = some v →
    let x := { s.unit u with cu := loadSeeds (s.unit u).cu k }
    let f := cuOfmt x.cfg
    let n := if f = 5 then 72 else 136
    ∃ t, exec (.qnt u) s = .next t ∧ (t.unit u).cu.blk = x.cu.blk + 2 ∧ (t.unit u).cu.seed = x.cu.seed ∧
      (t.unit u).cu.step = x.cu.step ∧ StageDone s t u 5 k ∧
      (f = 10 → outFor (t.unit u).cu.outq k = some (k, [some (v.extractLsb' 0 512), some (v.extractLsb' 512 512)])) ∧
      (f = 9 → outFor (t.unit u).cu.outq k = some (k, [some (bf16Row fun i => (fpOp1 fpToBf16 (lane v i)).v)])) ∧
      (f < 9 → ∃ r : Row, outFor (t.unit u).cu.outq k = some (k, [some r]) ∧
        r.toNat % 2 ^ (2 * n) = (qRecord f (qHalf x v 0) + qRecord f (qHalf x v 1) * 2 ^ n) % 2 ^ (2 * n)))

/-- NOP completes by moving its stage's counter on and leaving the list of micro-operations to execute, and changes nothing else of the unit, but that the unit notes the schedule cycle where nothing of an ended firing is left (R161, log 122), and nothing else of the state. WRAP returns its stage's program counter to 0 and takes no schedule cycle: what was due stays due, so that the operation at index 0 executes in its place; nothing else of the state changes. Completion is the conclusion here for NOP, WRAP. -/
def Obligations.NopAndWrapComplete : Prop :=
  (∀ (s : State) (u : Fin 9792) (st : Fin 6) (w : Word) (k : Nat), dueOp s u st 0 = some (w, k) →
    let x := s.unit u
    let due := x.cu.due.erase ⟨st, k⟩
    ∃ t, exec (.nop u st) s = .next t ∧ t = { s with units := t.units } ∧ (∀ v, v ≠ u.val → t.unit v = s.unit v) ∧
      sget 0 (t.unit u).cu.pcs st = (sget 0 x.cu.pcs st + 1) % 64 ∧ (∀ i, i ≠ st.val → sget 0 (t.unit u).cu.pcs i = sget 0 x.cu.pcs i) ∧
      t.unit u = { x with cu := { x.cu with due := due, pcs := (t.unit u).cu.pcs },
                          settled := if !x.firing && due.isEmpty && x.cu.pushes.isEmpty then some (s.zone (physZone u)).sched
                            else x.settled }) ∧
  (∀ (s : State) (u : Fin 9792) (st : Fin 6) (w : Word) (k : Nat), dueOp s u st 0x3F = some (w, k) →
    ∃ t, exec (.wrap u st) s = .next t ∧ t = { s with units := t.units } ∧ (∀ v, v ≠ u.val → t.unit v = s.unit v) ∧
      sget 0 (t.unit u).cu.pcs st = 0 ∧ (∀ i, i ≠ st.val → sget 0 (t.unit u).cu.pcs i = sget 0 (s.unit u).cu.pcs i) ∧
      t.unit u = { s.unit u with cu := { (s.unit u).cu with pcs := (t.unit u).cu.pcs } })

/-- The frame of the rows of stages 3, 4 and 5, NOP, WRAP and SLOT_RESULT_READY: whatever next state they answer, no other unit, no memory, channel, stack, queue or register outside the unit differs, but that ARITH summary bits of the unit's own zone may have been set; within the unit the configuration, its counters of firings and the memory unit part are as before. Besides, what the tick keeps of those bits and of the unit's own arithmetic counters (R10), the count of free values (log 9), and the detections of this unit's own faults, where a stage 3 row read a word with a double-bit error, may have moved. -/
def Obligations.ComputeRowsTouchOneUnit : Prop :=
  ∀ (s t : State) (u : Fin 9792) (c : Instr),
    ((∃ e, c ∈ [Instr.fadd u e, .fmul u e, .fmin u e, .fmax u e, .cmplt u e, .cmpeq u e, .sel u e, .mov u e, .rot u e, .bfr u e, .scl u e]) ∨
      c ∈ [Instr.exp u, .exp2 u, .log u, .rsqrt u, .rcp u, .tanh u, .sigm u, .gelut u, .gelue u, .silu u, .sqrt u, .pass u,
          .qnt u, .pkb u, .pkf u] ∨ (∃ st, c = .nop u st ∨ c = .wrap u st) ∨ ∃ k, c = .slotResultReady u k) →
    exec c s = .next t →
    OnlyUnit s t u ∧ (t.unit u).cfg = (s.unit u).cfg ∧ (t.unit u).firings = (s.unit u).firings ∧
      (t.unit u).firing = (s.unit u).firing ∧ (t.unit u).gen = (s.unit u).gen ∧ (t.unit u).mu = (s.unit u).mu

/-- LDV, with its data in its ring, completes: IN shows the 32 lanes of the ring two schedule cycles later, BF16 widened to FP32, under the input policy, by which a BF16 infinity is the largest finite of BF16. LDB completes when what it reads is in its rings: with W = 1 stage 1's weight operands are valid two schedule cycles later and the block counter of the group has moved on, by two blocks in the modes of R90 and by one in the others; with A = 1 the activation operands are valid two cycles later; with W = 0 the weight operands stay. The weight operand of a lane is, for each block taken, that block of the lane's record of the group, with the outliers of its side record, and the group's fine scale; the activation operand of a lane is the ring's next blocks, one after another for the lanes in the per-lane form and the same for all in the other (said where the activation ring is not also a ring that the weights come from). An upset of the pocket's check code changes none of it: it is counted or reported. Completion is the conclusion here for LDV, LDB. -/
def Obligations.Stage0RowsComplete : Prop :=
  (∀ (s : State) (u : Fin 9792) (e : Ecc) (w : Word) (k : Nat) (b : BitVec 64),
    dueOp s u 0 2 = some (w, k) → ringBind (s.unit u) (uWRing w) = some b → ldvReady (s.unit u) w = true →
    ∃ t, exec (.ldv u e) s = .next t ∧
      regAtCycle (t.unit u).cu 20 (k + 2) = some (mkVec fun i =>
        let x := s.unit u
        let r := sget .init x.cu.rings (uWRing w)
        if uLdvBf16 w then
          let v := BitVec.ofNat 32 (ringNat x b r (r.rdByte + 2 * i) 2 * 65536)
          if fpIsInf v then (if fpSign v then 0xFF7F0000 else 0x7F7F0000) else (fpIn v).v
        else (fpIn (BitVec.ofNat 32 (ringNat x b r (r.rdByte + 4 * i) 4))).v) ∧ StageDone s t u 0 k) ∧
  (∀ (s : State) (u : Fin 9792) (e : Ecc) (w : Word) (k : Nat),
    dueOp s u 0 1 = some (w, k) → ldbReady (s.unit u) w = true →
    ∃ t, exec (.ldb u e) s = .next t ∧ StageDone s t u 0 k ∧
      (uLdbW w = true → (timedGet none (t.unit u).cu.wOp (k + 2)).isSome = true ∧
        (t.unit u).cu.wBlock = ((s.unit u).cu.wBlock + if cuMode (s.unit u).cfg = 2 then 2 else 1) % 8) ∧
      (∀ b : BitVec 64, uLdbW w = true → ringBind (s.unit u) (uWRing w) = some b →
        let x := s.unit u
        let r := sget Ring.init x.cu.rings (uWRing w)
        timedGet none (t.unit u).cu.wOp (k + 2) = some ((upto 32).map fun l =>
          let f := if cuFine x.cfg then fineOf (recHead x b r (recAt x r l)) else (1, 0, 0)
          ⟨(upto (if cuMode x.cfg = 2 then 2 else 1)).map fun j => (weightBlk x b r l (x.cu.wBlock + j) (nth [] (ldbOuts x w b r) l)).blk,
            f.1, f.2.1⟩)) ∧
      (∀ b : BitVec 64, uLdbA w = true → ringBind (s.unit u) (uARing w) = some b →
        uLdbW w = false ∨ (uWRing w ≠ uARing w ∧ uORing w ≠ uARing w) →
        let x := s.unit u
        let r := sget Ring.init x.cu.rings (uARing w)
        let n := if cuMode x.cfg = 2 then 2 else 1
        timedGet none (t.unit u).cu.aOp (k + 2) = some ((upto 32).map fun l =>
          ⟨(upto n).map fun j => (actBlk x b r r.rdByte ((if isMx (cuAfmt x.cfg) then r.half else 0) +
            (if uLdbPer w then n * l + j else j))).blk, 1, 0⟩)) ∧
      (uLdbW w = false → (t.unit u).cu.wOp = (s.unit u).cu.wOp ∧ (t.unit u).cu.wBlock = (s.unit u).cu.wBlock) ∧
      (uLdbA w = true → (timedGet none (t.unit u).cu.aOp (k + 2)).isSome = true) ∧
      (uLdbA w = false → (t.unit u).cu.aOp = (s.unit u).cu.aOp))

/-- DOT on valid operands completes with every lane's exact terms for stage 2 three cycles later, in the mode of the header, a block that spans several cycles being summed in the partial sum held; one bit upset in a lane's first term, whose terms agreed with their residues, is detected as RESIDUE. ACC adds the terms to its slot: while the group is not complete the slot counts what it has taken; a full group closes: each lane's terms are aligned and summed to the group's partial, converted with the lane's fine scale, and given to the lane's tree (R65 to R67), whose terms then start anew; once the last group of the accumulation is complete, the tree is folded to the accumulation's result, which is ready 4 + 3 A cycles after these terms entered. That the result before it stays till then is the model's reading (log 120). An ACC to a slot that header word 1 does not make active takes no terms (the model's choice, log 117). SLOT_RESULT_READY, in the cycle after, makes the oldest closing result stand in S s. Completion is the conclusion here for DOT, ACC, SLOT_RESULT_READY. -/
def Obligations.Stage1And2RowsComplete : Prop :=
  (∀ (s : State) (u : Fin 9792) (x : Option (Fin 32 × Fin 24)) (w : Word) (k : Nat) (ws as_ : List LaneOp),
    dueOp s u 1 1 = some (w, k) → timedGet none (s.unit u).cu.wOp k = some ws → timedGet none (s.unit u).cu.aOp k = some as_ →
    let d (l : Nat) := dotLane (cuMode (s.unit u).cfg) (s.unit u).cu.dotPart (nth Term.zero (s.unit u).cu.partials l)
      (nth ⟨[], 1, 0⟩ ws l) (nth ⟨[], 1, 0⟩ as_ l)
    ∃ t o, exec (.dot u x) s = .next t ∧ timedGet none (t.unit u).cu.terms (k + 3) = some o ∧ StageDone s t u 1 k ∧
      (t.unit u).cu.partials = (upto 32).map (fun l => (d l).2) ∧
      (t.unit u).cu.dotPart = ((s.unit u).cu.dotPart + 1) % modeParts (cuMode (s.unit u).cfg) ∧
      (x = none → o.lanes = (upto 32).map fun l => (d l).1) ∧
      (∀ l b, x = some (l, b) → (d l).1.terms ≠ [] → residuesOk (d l).1.terms = true →
        ∃ y ∈ t.flt.detected, y.unit = u.val ∧ bit y.causes 0 = true)) ∧
  (∀ (s : State) (u : Fin 9792) (w : Word) (k : Nat) (o : TermOp),
    dueOp s u 2 1 = some (w, k) → timedGet none (s.unit u).cu.terms k = some o → uSlot w < cuSlots (s.unit u).cfg →
    (sget .init (s.unit u).cu.slots (uSlot w)).units + o.units < modeClose (cuMode (s.unit u).cfg) →
    ∃ t, exec (.acc u none) s = .next t ∧ StageDone s t u 2 k ∧
      (sget .init (t.unit u).cu.slots (uSlot w)).units = (sget .init (s.unit u).cu.slots (uSlot w)).units + o.units ∧
      (sget .init (t.unit u).cu.slots (uSlot w)).result = (sget .init (s.unit u).cu.slots (uSlot w)).result) ∧
  (∀ (s : State) (u : Fin 9792) (x : Option (Fin 32 × Fin 40)) (w : Word) (k : Nat) (o : TermOp),
    dueOp s u 2 1 = some (w, k) → timedGet none (s.unit u).cu.terms k = some o → uSlot w < cuSlots (s.unit u).cfg →
    modeClose (cuMode (s.unit u).cfg) ≤ (sget .init (s.unit u).cu.slots (uSlot w)).units + o.units →
    cuGroups (s.unit u).cfg ≤ (sget .init (s.unit u).cu.slots (uSlot w)).groups + 1 →
    let a (l : Nat) := laneAdd (nth LaneAcc.zero (slotLanes (sget .init (s.unit u).cu.slots (uSlot w))) l) (nth ⟨[], 1, 0⟩ o.lanes l)
    let g (l : Nat) := groupValue (alignTerms (modeC (cuMode (s.unit u).cfg)) (a l).terms) (a l).f (a l).ef
    ∃ t v, exec (.acc u x) s = .next t ∧ StageDone s t u 2 k ∧
      (sget .init (t.unit u).cu.slots (uSlot w)).closing =
        (sget .init (s.unit u).cu.slots (uSlot w)).closing ++ [(k, k + slotLatency (cuGroups (s.unit u).cfg), v)] ∧
      (x = none → ∀ l, l < 32 → lane v l = (treeFold (treePush (g l).v (g l).sat (a l).node).1 none 0).v) ∧
      (sget .init (t.unit u).cu.slots (uSlot w)).result = (sget .init (s.unit u).cu.slots (uSlot w)).result) ∧
  (∀ (s : State) (u : Fin 9792) (x : Option (Fin 32 × Fin 40)) (w : Word) (k : Nat) (o : TermOp),
    dueOp s u 2 1 = some (w, k) → timedGet none (s.unit u).cu.terms k = some o → uSlot w < cuSlots (s.unit u).cfg →
    modeClose (cuMode (s.unit u).cfg) ≤ (sget .init (s.unit u).cu.slots (uSlot w)).units + o.units →
    (sget .init (s.unit u).cu.slots (uSlot w)).groups + 1 < cuGroups (s.unit u).cfg →
    let a (l : Nat) := laneAdd (nth LaneAcc.zero (slotLanes (sget .init (s.unit u).cu.slots (uSlot w))) l) (nth ⟨[], 1, 0⟩ o.lanes l)
    let g (l : Nat) := groupValue (alignTerms (modeC (cuMode (s.unit u).cfg)) (a l).terms) (a l).f (a l).ef
    ∃ t, exec (.acc u x) s = .next t ∧ StageDone s t u 2 k ∧
      (sget .init (t.unit u).cu.slots (uSlot w)).units = 0 ∧
      (sget .init (t.unit u).cu.slots (uSlot w)).groups = (sget .init (s.unit u).cu.slots (uSlot w)).groups + 1 ∧
      (x = none → ∀ l, l < 32 → nth LaneAcc.zero (sget .init (t.unit u).cu.slots (uSlot w)).lanes l =
        { a l with terms := [], node := (treePush (g l).v (g l).sat (a l).node).1 })) ∧
  (∀ (s : State) (u : Fin 9792) (x : Option (Fin 32 × Fin 40)) (w : Word) (k : Nat), dueOp s u 2 1 = some (w, k) →
    timedGet none (s.unit u).cu.terms k = none ∨ cuSlots (s.unit u).cfg ≤ uSlot w →
    ∃ t, exec (.acc u x) s = .next t ∧ StageDone s t u 2 k ∧ (t.unit u).cu.slots = (s.unit u).cu.slots) ∧
  (∀ (s : State) (u : Fin 9792) (k : Fin 4) (a r : Nat) (v : Vec) (rest : List (Nat × Nat × Vec)),
    (sget .init (s.unit u).cu.slots k).closing = (a, r, v) :: rest → r < (s.unit u).cu.cyc → cuRuns s u = true →
    ∃ t, exec (.slotResultReady u k) s = .next t ∧ (sget .init (t.unit u).cu.slots k).result = some v ∧
      (sget .init (t.unit u).cu.slots k).closing = rest)

/-- UNIT_FIRE completes for a running unit that meets the conditions of R106, with no generation switch due or just taken (R161): a firing is in progress, and a compute unit's micro-schedule stands at entry 0, whatever the pocket's check codes show where the seed token is read from a ring (R88). SCHED_LOOP at a LOOP entry whose body has run n times before takes no schedule cycle: it returns to TARGET while n + 1 is at most COUNT, so that the body runs COUNT + 1 times in all, and then passes to the next entry. SCHED_END at an END entry, with nothing of stage 0 left to execute, ends the firing and counts it. Completion is the conclusion here for UNIT_FIRE, SCHED_LOOP, SCHED_END. -/
def Obligations.FiringRowsComplete : Prop :=
  (∀ (s : State) (u : Fin 9792) (e : Ecc) (lu : Nat), s.logical u = some lu → unitRuns s u = true → canFire s lu u = true →
    ∃ t, exec (.unitFire u e) s = .next t ∧ (t.unit u).firing = true ∧ (t.unit u).cu.entry = 0 ∧ (t.unit u).cu.loops = [] ∧
      (t.unit u).mu.ags = [] ∧ (t.unit u).firings = (s.unit u).firings) ∧
  (∀ (s : State) (u : Fin 9792), cuRuns s u = true → (s.unit u).firing = true →
    schKind (schedWord (s.unit u).cfg (s.unit u).cu.entry) = 1 →
    ∃ t, exec (.schedLoop u) s = .next t ∧ (t.unit u).cu.cyc = (s.unit u).cu.cyc ∧
      (t.unit u).cu.entry =
        (let w := schedWord (s.unit u).cfg (s.unit u).cu.entry
         if loopTimes (s.unit u).cu (s.unit u).cu.entry + 1 ≤ schCount w then schTarget w else (s.unit u).cu.entry + 1) ∧
      OnlyUnit s t u) ∧
  (∀ (s : State) (u : Fin 9792), cuRuns s u = true → (s.unit u).firing = true →
    schKind (schedWord (s.unit u).cfg (s.unit u).cu.entry) = 2 → (∀ d ∈ (s.unit u).cu.due, d.stage ≠ 0) →
    ∃ t, exec (.schedEnd u) s = .next t ∧ (t.unit u).firing = false ∧ (t.unit u).firings = (s.unit u).firings + 1)

/-- A schedule cycle of a loaded compute unit that runs, has not yet had the zone's schedule cycle, has no slot result overdue, no deferred pocket access, and no earlier micro-operation left, completes: at a STEP entry with nothing to pop and no pushes waiting, the cycle count goes up by 1, the STEP's next cycle, or after its last the next entry, follows, and the micro-operations that it advances and its push fall due at their offsets; with a deferred pocket access outstanding the unit is held for this cycle instead and one deferral is served; with a push due and no credit, the cycle is held and CREDIT_WAIT gains 1; with a POP whose input holds no token, STATIC_MISS or, for an elastic input, ELASTIC_WAIT gains 1. Completion is the conclusion here for SCHED_STEP. -/
def Obligations.SchedStepCompletes : Prop :=
  (∀ (s : State) (u : Fin 9792) (lu : Nat), CycleFree s u lu → (s.unit u).firing = true → (s.unit u).cu.pushes = [] →
    (let w := schedWord (s.unit u).cfg (s.unit u).cu.entry
     schKind w = 0 ∧ schPopA w = none ∧ schPopB w = none) →
    ∃ t, exec (.schedStep u) s = .next t ∧ (t.unit u).cu.cyc = (s.unit u).cu.cyc + 1 ∧
      (t.unit u).cu.entry =
        (if schRepeat (schedWord (s.unit u).cfg (s.unit u).cu.entry) ≤ (s.unit u).cu.rep then (s.unit u).cu.entry + 1
         else (s.unit u).cu.entry) ∧
      (∀ st, st < 6 → schAdv (schedWord (s.unit u).cfg (s.unit u).cu.entry) st = true →
        (⟨st, (s.unit u).cu.cyc + cuOff (s.unit u).cfg st⟩ : Due) ∈ (t.unit u).cu.due) ∧
      (schPush (schedWord (s.unit u).cfg (s.unit u).cu.entry) = none → (t.unit u).cu.pushes = []) ∧
      (∀ b, schPush (schedWord (s.unit u).cfg (s.unit u).cu.entry) = some b →
        ∃ p, (t.unit u).cu.pushes = [p] ∧ p.binding = b ∧ p.src = (s.unit u).cu.cyc + cuOff (s.unit u).cfg 5) ∧ OnlyUnit s t u) ∧
  (∀ (s : State) (u : Fin 9792) (lu : Nat) (a : Nat × List Nat) (rest : List (Nat × List Nat)),
    s.logical u = some lu → cuRuns s u = true → (s.unit u).loaded = true → slotDue (s.unit u) = false → cycleOpen s u = true →
    ((closeBanks s u [(s.zone (physZone u)).sched]).unit u).cu.waiting = a :: rest →
    ∃ t, exec (.schedStep u) s = .next t ∧ (t.unit u).cu.waiting = rest ∧
      (t.unit u).cu.cyc = (s.unit u).cu.cyc ∧ (t.unit u).cu.entry = (s.unit u).cu.entry) ∧
  (∀ (s : State) (u : Fin 9792) (lu : Nat) (p : PushDue), CycleFree s u lu →
    p ∈ (s.unit u).cu.pushes → p.at_ ≤ (s.unit u).cu.cyc →
    creditsOut s lu (bPort (bindWord (s.unit u).cfg p.binding)) = 0 →
    ∃ t, exec (.schedStep u) s = .next t ∧ sget 0 (t.unit u).ctr 3 = satInc (sget 0 (s.unit u).ctr 3) ∧
      (t.unit u).cu.cyc = (s.unit u).cu.cyc ∧ (t.unit u).cu.entry = (s.unit u).cu.entry) ∧
  (∀ (s : State) (u : Fin 9792) (lu b : Nat), CycleFree s u lu → (s.unit u).firing = true →
    (let w := schedWord (s.unit u).cfg (s.unit u).cu.entry
     schKind w = 0 ∧ schPopA w = some b ∧ schPopB w = none) →
    curTokens (s.unit u) (s.chan lu (bPort (bindWord (s.unit u).cfg b))) = 0 →
    let i := if bElastic (bindWord (s.unit u).cfg b) then 2 else 1
    ∃ t, exec (.schedStep u) s = .next t ∧ sget 0 (t.unit u).ctr i = satInc (sget 0 (s.unit u).ctr i) ∧
      (t.unit u).cu.cyc = (s.unit u).cu.cyc ∧ (t.unit u).cu.entry = (s.unit u).cu.entry)

/-- TOKEN_ARRIVAL, for a backed unit whose crossing is not parked, on a channel that has delivered none in this schedule cycle of its consumer, takes the oldest token past its transit: into the port's queue of 16 behind what is there, or, with a full queue or tokens still in the bore, behind the tokens that wait for the bore, so that tokens leave the port in arrival order (stated for the ports without a ring, from which nothing is drawn at once). A second token of one cycle waits. An upset on the way changes the token, not its delivery. CREDIT_RETURN gives the producer back one credit whose transit is over. Completion is the conclusion here for TOKEN_ARRIVAL, CREDIT_RETURN. -/
def Obligations.TokensArriveInOrder : Prop :=
  (∀ (s : State) (lu : Fin 9216) (p : Fin 9) (f : Option (Fin 516)) (u : Nat) (tok : Token) (rest : List Token),
    s.phys lu = some u → (s.chan lu p).landed = tok :: rest → chanParked s lu p = false →
    (arrivedNow s lu p = true → exec (.tokenArrival lu p f) s = .next s) ∧
    (arrivedNow s lu p = false → ∃ t, exec (.tokenArrival lu p f) s = .next t ∧ (t.chan lu p).landed = rest ∧
      (isMu u = true ∨ curBind (s.unit u) (isMu u) false p = none →
        (t.chan lu p).queue ++ (t.chan lu p).spill =
          (s.chan lu p).queue ++ (s.chan lu p).spill ++ [match f with | some i => flipToken tok i | none => tok] ∧
        ((t.chan lu p).queue.length ≤ 16 ∨ (t.chan lu p).queue = (s.chan lu p).queue)))) ∧
  (∀ (s : State) (lu : Fin 9216) (p : Fin 9), 0 ∈ (s.chan lu p).back → chanParked s lu p = false →
    ∃ t, exec (.creditReturn lu p) s = .next t ∧ (t.chan lu p).spent = (s.chan lu p).spent - 1 ∧
      (t.chan lu p).back = (s.chan lu p).back.erase 0 ∧ (t.chan lu p).queue = (s.chan lu p).queue ∧ t.units = s.units)

/-- BORE_WRITE, with a waiting token, room in the enabled bore, its row outside every replay window, its SRAM bank free and not claimed by a SEND, writes the oldest waiting token to the next bore row; a row inside a replay window is not written: a BOUNDS fault is detected. BORE_READBACK, with room in the queue, the bank free and the row written at least 2 schedule cycles ago, moves the oldest bore row to the end of the queue, whatever the row's check codes show; with no row in the bore a waiting token goes straight to a queue that has room. What the SRAM holds elsewhere stays. Completion is the conclusion here for BORE_WRITE, BORE_READBACK. -/
def Obligations.BoreRowsComplete : Prop :=
  (∀ (s : State) (lu : Fin 9216) (p : Fin 9) (u base rows : Nat) (tok : Token) (rest : List Token),
    s.phys lu = some u → (s.chan lu p).spill = tok :: rest → boreNow s lu u p = some (base, rows) →
    (s.chan lu p).boreRows.length < rows → s.quarterRuns (physZone u / 12) = true → (s.unit u).stopped = false →
    (inReplay (s.unit u).cfg (base + (s.chan lu p).boreNext % rows) = false →
      (rankBank s lu u .boreWrite (base + (s.chan lu p).boreNext % rows)).1 = true →
      ∃ t, exec (.boreWrite lu p) s = .next t ∧ (t.chan lu p).spill = rest ∧
        (t.chan lu p).boreRows = (s.chan lu p).boreRows ++
          [(base + (s.chan lu p).boreNext % rows, (s.zone (physZone u)).sched, tagBits tok)] ∧
        (t.unit u).mu.sram = (s.unit u).mu.sram.write (base + (s.chan lu p).boreNext % rows) tok.payload) ∧
    (inReplay (s.unit u).cfg (base + (s.chan lu p).boreNext % rows) = true →
      ∃ t d, exec (.boreWrite lu p) s = .next t ∧ d ∈ t.flt.detected ∧ d.unit = u ∧ bit d.causes 5 = true ∧
        (t.unit u).stopped = true ∧ (t.unit u).mu.sram = (s.unit u).mu.sram)) ∧
  (∀ (s : State) (lu : Fin 9216) (p : Fin 9) (e : Ecc) (u r at_ : Nat) (tag : BitVec 4) (rest : List (Nat × Nat × BitVec 4)),
    s.phys lu = some u → (s.chan lu p).boreRows = (r, at_, tag) :: rest → (s.chan lu p).queue.length < 16 →
    at_ + 2 ≤ (s.zone (physZone u)).sched → s.quarterRuns (physZone u / 12) = true → (rankBank s lu u .boreRead r).1 = true →
    ∃ t, exec (.boreReadback lu p e) s = .next t ∧ (t.chan lu p).boreRows = rest ∧
      (t.chan lu p).queue = (s.chan lu p).queue ++ [ofTag ((s.unit u).mu.sram.read r) tag] ∧
      (t.unit u).mu.sram = (s.unit u).mu.sram) ∧
  (∀ (s : State) (lu : Fin 9216) (p : Fin 9) (e : Ecc) (u : Nat) (tok : Token) (rest : List Token),
    s.phys lu = some u → (s.chan lu p).boreRows = [] → (s.chan lu p).spill = tok :: rest → (s.chan lu p).queue.length < 16 →
    ∃ t, exec (.boreReadback lu p e) s = .next t ∧ (t.chan lu p).spill = rest ∧
      (t.chan lu p).queue = (s.chan lu p).queue ++ [tok])

/-- SEND and SGATHER, when it is their AG's turn, the row may be touched, a credit is there and the bank is free, read the SRAM row of the nest and put it on the binding's port two schedule cycles later; SGATHER takes its base from the present index entry. RECV pops the head token of its binding, of the unit's generation and of even parity, and writes its payload to the row of the nest in the next schedule cycle. Completion is the conclusion here for SEND, SGATHER, RECV. -/
def Obligations.SramAccessRowsComplete : Prop :=
  (∀ (s : State) (u : Fin 9792) (a : Fin 4) (e : Ecc) (lu i : Nat) (c : Instr) (k : Nat),
    ((c = .send u a e ∧ k = 1) ∨ (c = .sgather u a e ∧ k = 6)) → s.logical u = some lu → AgFree s u a k false i 1 →
    (let x := s.unit u
     let port := bPort (muBindWord x.cfg x.mu.ctx.toNat (curAg x a).bind)
     (x.mu.sends.filter fun d => d.2.1 == port).length < creditsOut s lu port) →
    (rankBank s lu u (.send a) (agSram (curAg (s.unit u) a) (agSt (s.unit u) a).pos i).toNat).1 = true →
    ∃ t, exec c s = .next t ∧
      (t.unit u).mu.sends.map (fun d => (d.1, d.2.1, d.2.2.1)) = (s.unit u).mu.sends.map (fun d => (d.1, d.2.1, d.2.2.1)) ++
        [((s.zone (physZone u)).sched + 2, bPort (muBindWord (s.unit u).cfg (s.unit u).mu.ctx.toNat (curAg (s.unit u) a).bind),
          (s.unit u).mu.sram.read (agSram (curAg (s.unit u) a) (agSt (s.unit u) a).pos i).toNat)] ∧
      (t.unit u).mu.sram = (s.unit u).mu.sram) ∧
  (∀ (s : State) (u : Fin 9792) (a : Fin 4) (lu : Nat) (tok : Token) (rest : List Token),
    s.logical u = some lu → AgFree s u a 2 true 0 1 →
    HeadIs s lu u (bPort (muBindWord (s.unit u).cfg (s.unit u).mu.ctx.toNat (curAg (s.unit u) a).bind)) tok rest →
    ∃ t, exec (.recv u a) s = .next t ∧
      (t.unit u).mu.recvs = (s.unit u).mu.recvs ++ [((s.zone (physZone u)).sched + 1, a.val, (agSt (s.unit u) a).issued,
        (agSram (curAg (s.unit u) a) (agSt (s.unit u) a).pos 0).toNat, tok.payload)] ∧
      (t.chan lu (bPort (muBindWord (s.unit u).cfg (s.unit u).mu.ctx.toNat (curAg (s.unit u) a).bind))).queue = rest)

/-- FETCH and GATHER, with rows that exist on the stack and may be written in the SRAM fewer than 16 runs outstanding and room in the landing buffer, request one run of up to 64 accesses from the stack row and SRAM row of the nest (GATHER's stack base from its index entry). STORE, with a working work stack, reads its SRAM row and writes it at its stack row, and waits for the acknowledgement; STORE_ACK ends that wait. Completion is the conclusion here for FETCH, GATHER, STORE, STORE_ACK. -/
def Obligations.StackRequestRowsComplete : Prop :=
  (∀ (s : State) (u : Fin 9792) (a : Fin 4) (lu i : Nat) (c : Instr) (k : Nat),
    ((c = .fetch u a ∧ k = 3) ∨ (c = .gather u a ∧ k = 5)) → s.logical u = some lu →
    AgFree s u a k true i (runLen (curAg (s.unit u) a) i (agSt (s.unit u) a).pos 63) →
    (∀ j < runLen (curAg (s.unit u) a) i (agSt (s.unit u) a).pos 63,
      0 ≤ agStack (curAg (s.unit u) a) ((agSt (s.unit u) a).pos + j) i ∧
      agStack (curAg (s.unit u) a) ((agSt (s.unit u) a).pos + j) i < stackRows (curAg (s.unit u) a).stk) →
    ((s.unit u).mu.runs.filter fun r => r.ag == a.val).length < 16 → (s.unit u).mu.landing.length < 8 →
    ∃ t r, exec c s = .next t ∧ (t.unit u).mu.runs = (s.unit u).mu.runs ++ [r] ∧ r.id = (s.unit u).mu.nextRun ∧ r.ag = a.val ∧
      r.len = runLen (curAg (s.unit u) a) i (agSt (s.unit u) a).pos 63 ∧ r.since = s.tick ∧
      r.row = (agStack (curAg (s.unit u) a) (agSt (s.unit u) a).pos i).toNat ∧
      r.sram = (agSram (curAg (s.unit u) a) (agSt (s.unit u) a).pos i).toNat) ∧
  (∀ (s : State) (u : Fin 9792) (a : Fin 4) (e : Ecc) (w : ReadErr) (lu : Nat), s.logical u = some lu → AgFree s u a 4 false 0 1 →
    (0 ≤ agStack (curAg (s.unit u) a) (agSt (s.unit u) a).pos 0 ∧ agStack (curAg (s.unit u) a) (agSt (s.unit u) a).pos 0 < 1500000000) →
    (rankBank s lu u .low (agSram (curAg (s.unit u) a) (agSt (s.unit u) a).pos 0).toNat).1 = true →
    (s.kst (physZone u / 12)).trained = true → (s.kst (physZone u / 12)).failed = false →
    (w ≠ .uncorrectable ∨ wholeLine (curAg (s.unit u) a) (agSt (s.unit u) a).pos = true) →
    ∃ t, exec (.store u a e w) s = .next t ∧
      (t.kst (physZone u / 12)).mem = (s.kst (physZone u / 12)).mem.write
        (agStack (curAg (s.unit u) a) (agSt (s.unit u) a).pos 0).toNat
        ((s.unit u).mu.sram.read (agSram (curAg (s.unit u) a) (agSt (s.unit u) a).pos 0).toNat) ∧
      (t.unit u).mu.stores = (s.unit u).mu.stores ++ [⟨a.val, (agSt (s.unit u) a).issued,
        (agStack (curAg (s.unit u) a) (agSt (s.unit u) a).pos 0).toNat, s.tick,
        (s.unit u).mu.sram.read (agSram (curAg (s.unit u) a) (agSt (s.unit u) a).pos 0).toNat⟩]) ∧
  (∀ (s : State) (u : Fin 9792) (a : Fin 4) (e : StkStore),
    (s.unit u).mu.stores.find? (fun e => e.ag == a.val) = some e →
    (s.kst (physZone u / 12)).trained = true → (s.kst (physZone u / 12)).failed = false →
    ∃ t, exec (.storeAck u a) s = .next t ∧ (t.unit u).mu.stores = (s.unit u).mu.stores.erase e)

/-- A landing whose read is good sends the run's rows, in order of its accesses and SRAM rows, to the landing buffer: from the work stack the rows it holds; from a sealed weight stack the rows of the block the page had at the request; from a page that was not mapped zero rows, counted in UNMAPPED; in the mirrored layout, for an uncorrectable granule, the rows of the block the page had on the SEALED partner, counted in RESCUE. A work-stack read beyond the code's reach lands no rows: the SRAM stays, the run ends, and a fault with cause STACK_DATA is detected. That a run's rows are read at once at the landing and then delivered two a cycle, and which block a page has for a run already requested, are the model's reading (logs 81 and 125). At the end of a schedule cycle the crossbar has delivered at most 2 rows, while the buffer of 8 has room, and a row whose bank is free is in the SRAM, its run over with its last row. Completion is the conclusion here for STACK_RUN_LANDING. -/
def Obligations.RunLandingCompletes : Prop :=
  (∀ (s : State) (u : Fin 9792) (id : Nat) (r : StkRun) (own part : ReadErr),
    (s.unit u).mu.runs.find? (fun r => r.id == id) = some r → (s.unit u).mu.arriving.any (fun l => l.run == id) = false →
    (s.unit u).mu.landing.any (fun l => l.run == id) = false →
    let q := physZone u / 12
    let w := 2 * q + r.stk.toNat
    let brings (t : State) (f : Nat → Row) : Prop :=
      (t.unit u).mu.arriving = (s.unit u).mu.arriving ++ (upto r.len).map (fun i => ⟨id, r.ag, r.first + i, r.sram + i, f i⟩) ∧
        (t.unit u).mu.runs = (s.unit u).mu.runs ∧ (t.unit u).mu.sram = (s.unit u).mu.sram
    (r.stk = 2 → (s.kst q).trained = true → (s.kst q).failed = false → own ≠ .uncorrectable →
      ∃ t, exec (.stackRunLanding u id own part) s = .next t ∧ brings t fun i => (s.kst q).mem.read (r.row + i)) ∧
    (r.stk = 0 ∨ r.stk = 1 → (s.wst w).image = 1 → own ≠ .uncorrectable ∨ r.blk = 0 →
      ∃ t, exec (.stackRunLanding u id own part) s = .next t ∧
        brings t (fun i => if r.blk = 0 then 0 else readRowAt (s.wst w).mem (2 ^ 26 * r.blk + 64 * ((r.row + i) % 1048576))) ∧
        (r.blk = 0 → (t.wst w).unmapped = satInc (s.wst w).unmapped)) ∧
    (r.stk = 0 ∨ r.stk = 1 → (s.wst w).image = 1 → r.blk ≠ 0 → r.pblk ≠ 0 → own = .uncorrectable → part ≠ .uncorrectable →
      partnerServes s w = true →
      ∃ t, exec (.stackRunLanding u id own part) s = .next t ∧
        brings t (fun i => readRowAt (s.wst (partner w)).mem (2 ^ 26 * r.pblk + 64 * ((r.row + i) % 1048576))) ∧
        (t.wst w).rescue = satInc (s.wst w).rescue) ∧
    (r.stk = 2 → (s.kst q).trained = true → (s.kst q).failed = false → own = .uncorrectable →
      ∃ t d, exec (.stackRunLanding u id own part) s = .next t ∧ (t.unit u).mu.runs = (s.unit u).mu.runs.erase r ∧
        (t.unit u).mu.sram = (s.unit u).mu.sram ∧ (t.unit u).mu.arriving = (s.unit u).mu.arriving ∧
        d ∈ t.flt.detected ∧ d.unit = u.val ∧ bit d.causes 4 = true)) ∧
  (∀ (s : State) (u : Nat),
    ((muLate s u).unit u).mu.arriving = (s.unit u).mu.arriving.drop (min 2 (8 - (s.unit u).mu.landing.length)) ∧
    ((s.unit u).mu.landing.length ≤ 8 → ((muLate s u).unit u).mu.landing.length ≤ 8) ∧
    (∀ l, (s.unit u).mu.landing = [] → (s.unit u).mu.arriving = [l] → (s.unit u).mu.bankCyc ≠ (s.zone (physZone u)).sched →
      (s.unit u).mu.recvs = [] →
      ((muLate s u).unit u).mu.sram = (s.unit u).mu.sram.write l.sram l.row ∧ ((muLate s u).unit u).mu.landing = [] ∧
        ((muLate s u).unit u).mu.runs = (s.unit u).mu.runs.filter fun r => r.id != l.run))

/-- SRAM_SCRUB, 256 schedule cycles or more after the last and with its bank idle and not asked for by any other access, checks its row and passes to the next of the 8,192, no bank being taken by it, so that an AG that becomes ready later in the cycle is not held; each of the row's words that is corrected counts in SRAM_CORR, and a double-bit error is detected as SRAM_ECC. CONTEXT_SWITCH, with no firing in progress, no access made in this schedule cycle and a context-select token at the head of CTXSEL's port whose reserved bytes are 0 and whose context is valid, takes the token, selects the context, restarts its firing count, holds the AGs for the cycle and counts a change of context (that the count restarts for the same context too, and CTX_SWITCHES counts only a change, is the model's reading of R135 beside R138, log 79); in the schedule cycle of a generation switch it waits, and a token of bad parity selects none; a token that names an invalid context is a CONFIG fault and the MU keeps its context. Completion is the conclusion here for SRAM_SCRUB, CONTEXT_SWITCH. -/
def Obligations.ScrubAndContextComplete : Prop :=
  (∀ (s : State) (u : Fin 9792) (e : Ecc), isMu u = true → (s.zone (physZone u)).running = true →
    (s.unit u).mu.scrubCyc + 256 ≤ (s.zone (physZone u)).sched → (s.unit u).mu.bankCyc ≠ (s.zone (physZone u)).sched →
    recvClaims s u (s.unit u).mu.scrubRow = false →
    (∀ lu, s.logical u = some lu → outranked s lu u .low (s.unit u).mu.scrubRow = false ∧ storeClaims s lu u (s.unit u).mu.scrubRow = false) →
    ∃ t, exec (.sramScrub u e) s = .next t ∧ (t.unit u).mu.scrubRow = ((s.unit u).mu.scrubRow + 1) % 8192 ∧
      (t.unit u).mu.scrubCyc = (s.zone (physZone u)).sched ∧
      (t.unit u).mu = { (s.unit u).mu with scrubRow := (t.unit u).mu.scrubRow, scrubCyc := (t.unit u).mu.scrubCyc } ∧
      sget 0 (t.unit u).ctr 6 = satAdd (sget 0 (s.unit u).ctr 6) (min e.corrected 8) ∧
      (e.double.isSome = true → ∃ d ∈ t.flt.detected, d.unit = u.val ∧ bit d.causes 3 = true)) ∧
  (∀ (s : State) (u : Fin 9792) (lu k : Nat) (tok : Token) (rest : List Token), s.logical u = some lu → isMu u = true →
    unitRuns s u = true → (s.unit u).loaded = true → (s.unit u).stopped = false → (s.unit u).firing = false →
    (s.unit u).mu.switching = false → (s.unit u).mu.used = [] →
    muCtxselEn (s.unit u).cfg = true → HeadIs s lu u (muCtxsel (s.unit u).cfg) tok rest → k < 4 →
    tok.payload = BitVec.ofNat 512 k →
    ((s.unit u).switched = some (s.zone (physZone u)).sched → exec (.contextSwitch u) s = .next s) ∧
    ((s.unit u).switched ≠ some (s.zone (physZone u)).sched → ∃ t, exec (.contextSwitch u) s = .next t ∧ (t.chan lu (muCtxsel (s.unit u).cfg)).queue = rest ∧
      (muCtxValid (s.unit u).cfg k = true → (t.unit u).mu.ctx = BitVec.ofNat 2 k ∧ (t.unit u).mu.ctxFirings = 0 ∧
        (t.unit u).mu.switching = true ∧
        (t.unit u).ctxSwitches = (if (s.unit u).mu.ctx.toNat = k then (s.unit u).ctxSwitches else satInc (s.unit u).ctxSwitches) ∧ (t.unit u).mu.sram = (s.unit u).mu.sram) ∧
      (muCtxValid (s.unit u).cfg k = false → (t.unit u).mu.ctx = (s.unit u).mu.ctx ∧ (t.unit u).stopped = true ∧
        ∃ d ∈ t.flt.detected, d.unit = u.val ∧ bit d.causes 6 = true))) ∧
  (∀ (s : State) (u : Fin 9792) (lu : Nat) (tok : Token) (rest : List Token), s.logical u = some lu → isMu u = true →
    unitRuns s u = true → (s.unit u).loaded = true → (s.unit u).stopped = false → (s.unit u).firing = false →
    (s.unit u).mu.switching = false → (s.unit u).mu.used = [] → (s.unit u).switched ≠ some (s.zone (physZone u)).sched →
    muCtxselEn (s.unit u).cfg = true → (s.chan lu (muCtxsel (s.unit u).cfg)).queue = tok :: rest → tok.gen = (s.unit u).gen →
    parOk tok = false →
    ∃ t, exec (.contextSwitch u) s = .next t ∧ (t.chan lu (muCtxsel (s.unit u).cfg)).queue = rest ∧
      (t.unit u).mu.ctx = (s.unit u).mu.ctx ∧ ∃ d ∈ t.flt.detected, d.unit = u.val ∧ bit d.causes 1 = true)

/-- The configuration token at the head of a port of a running unit, its parity even, is absorbed whether or not a firing is in progress: a one-token sequence with payload zero completes its port; token k of a carrier, k below 31, goes to bytes 64 k to 64 k + 63 of the shadow configuration; the 32nd, with LAST, completes the port and the carrier. The active configuration does not change. A port absorbs one token in a schedule cycle: a second one waits. Completion is the conclusion here for CONFIG_TOKEN_ABSORB. -/
def Obligations.ConfigTokensAreAbsorbed : Prop :=
  ∀ (s : State) (lu : Fin 9216) (p : Fin 9) (u : Nat) (tok : Token) (rest : List Token),
    s.phys lu = some u → (s.chan lu p).queue = tok :: rest → headIsCfg (s.unit u) (s.chan lu p) p = true →
    unitRuns s u = true → ((s.chan lu p).absorbCyc = some (s.zone (physZone u)).sched → exec (.configTokenAbsorb lu p) s = .next s) ∧
    (parOk tok = true → (s.chan lu p).absorbCyc ≠ some (s.zone (physZone u)).sched →
    ∃ t, exec (.configTokenAbsorb lu p) s = .next t ∧ (t.unit u).cfg = (s.unit u).cfg ∧ (t.unit u).gen = (s.unit u).gen ∧
      (t.unit u).firing = (s.unit u).firing ∧
      ((s.chan lu p).absorbing = 0 → tok.last = true → tok.payload = 0 →
        (t.unit u).shadow = { (s.unit u).shadow with absorbed := setBit (s.unit u).shadow.absorbed p true }) ∧
      ((s.chan lu p).absorbing < 31 → tok.last = false →
        (t.unit u).shadow = { (s.unit u).shadow with
          cfg := setFld (s.unit u).shadow.cfg (512 * (s.chan lu p).absorbing) 512 tok.payload.toNat,
          count := (s.chan lu p).absorbing + 1 } ∧ (t.chan lu p).absorbing = (s.chan lu p).absorbing + 1) ∧
      ((s.chan lu p).absorbing = 31 → tok.last = true →
        (t.unit u).shadow = { (s.unit u).shadow with
          cfg := setFld (s.unit u).shadow.cfg (512 * 31) 512 tok.payload.toNat, count := 32,
          absorbed := setBit (s.unit u).shadow.absorbed p true, carriers := (s.unit u).shadow.carriers + 1, carrierPort := p }))

/-- With every sequence and one carrier in, no firing in progress and the pipeline at rest, and the last of these come about in an earlier schedule cycle, the unit switches, and does not fire in that cycle: the shadow becomes the configuration, the generation advances by 1 modulo 4, the firing count, every unit counter and the stage program counters restart, context 0 is active, the shadow is empty, and the SRAM survives. Which schedule cycle the conditions count as met in is the model's reading (log 122). Completion is the conclusion here for GENERATION_SWITCH. -/
def Obligations.GenerationSwitchCompletes : Prop :=
  ∀ (s : State) (u : Fin 9792) (lu : Nat), s.logical u = some lu → unitRuns s u = true → switchReady (s.unit u) (isMu u) = true →
    ((s.unit u).settled = some (s.zone (physZone u)).sched → exec (.generationSwitch u) s = .next s) ∧
    ((s.unit u).settled ≠ some (s.zone (physZone u)).sched →
    ∃ t, exec (.generationSwitch u) s = .next t ∧ (t.unit u).cfg = (s.unit u).shadow.cfg ∧ (t.unit u).loaded = true ∧
      (t.unit u).gen = (s.unit u).gen + 1 ∧ (t.unit u).firings = 0 ∧ (t.unit u).shadow = Shadow.init ∧
      (∀ i, sget 0 (t.unit u).ctr i = 0) ∧ (t.unit u).borePeak = 0 ∧ (t.unit u).ctxSwitches = 0 ∧
      (t.unit u).cu.pcs = [] ∧ (t.unit u).mu.ctx = 0 ∧ (t.unit u).mu.sram = (s.unit u).mu.sram ∧
      sget 0 t.cfgOf lu = (s.unit u).shadow.cfg ∧ canFire t lu u = false)

/-- When a zone's watch has reached 65,536, DEADLOCK sets TRIPPED, keeps up to 16 records of the stalled channels, records a zone fault with cause DEADLOCK and halts the quarter; among the quarter's faults waits one more, with action RESET, and no replay is set. FAULT_HALT of a halted quarter with such a fault, all its units' faults reported, leaves it halted for good with no replay of the step. Completion is the conclusion here for DEADLOCK. -/
def Obligations.DeadlockHaltsTheQuarter : Prop :=
  (∀ (s : State) (z : Fin 48), 65536 ≤ (s.zpage z).dlwCount.toNat → (s.zpage z).tripped = false →
    ∃ t r, exec (.deadlock z) s = .next t ∧ (t.zpage z).tripped = true ∧ (t.zpage z).recs = (stallRecs s z).take 16 ∧
      (t.quarter (z.val / 12)).halted = true ∧ (t.quarter (z.val / 12)).replay = (s.quarter (z.val / 12)).replay ∧
      (t.quarter (z.val / 12)).faults = (s.quarter (z.val / 12)).faults ++ [⟨z.val, none, .reset, 1, true⟩] ∧
      t.flt.recs.head? = some r ∧ r.kind = 1 ∧ r.cause = 1 ∧ r.action = 5 ∧ r.zone.toNat = z.val) ∧
  (∀ (s : State) (q : Fin 4) (f : PendFault), f ∈ (s.quarter q).faults → f.action = .reset → (s.quarter q).inReset = false →
    unreported s q = false → quarterHalted s q = true →
    ∃ t, exec (.faultHalt q) s = .next t ∧ (t.quarter q).replay = none ∧ (t.quarter q).lockHalt = true ∧ (t.quarter q).faults = [] ∧
      (t.quarter q).halted = true)

/-- CFG_CTL.START in a READY region, on a quarter out of reset whose streamer runs no plan and has not been aborted since the last reset, begins the plan at CFG_PLAN: STATE 1 (running), ENTRY 0; a plan of no entries stops with ERROR 1. ABORT of a running plan while the quarter is halted stops it with ERROR 4, and another plan waits for a reset of the quarter (stated for a plan firmware started). Completion is the conclusion here for START, ABORT. -/
def Obligations.StreamerControlCompletes : Prop :=
  (∀ (s : State) (p : WinPort) (q : Fin 4), Writable s (0xD000C + 0x40 * q.val) → (s.cfgQ q).start = false → (s.cfgQ q).aborted = false →
    (s.quarter q).inReset = false →
    ∃ t, exec (.start p q) s = .next t ∧
      ((s.cfgQ q).entries ≠ 0 → (t.cfgQ q).start = true ∧ (t.cfgQ q).state = 1 ∧ (t.cfgQ q).error = 0 ∧ (t.cfgQ q).entry = 0 ∧ (t.cfgQ q).taken = 0 ∧
        (t.cfgQ q).planAddr = (s.cfgQ q).planLo.toNat * 64 + (s.cfgQ q).planHi.toNat * 2 ^ 32 ∧
        (t.cfgQ q).planSrc = (s.cfgQ q).src ∧ (t.cfgQ q).planLen = (s.cfgQ q).entries.toNat) ∧
      ((s.cfgQ q).entries = 0 → (t.cfgQ q).start = false ∧ (t.cfgQ q).state = 3 ∧ (t.cfgQ q).error = 1)) ∧
  (∀ (s : State) (p : WinPort) (q : Fin 4), Writable s (0xD000C + 0x40 * q.val) → (s.cfgQ q).start = true → (s.cfgQ q).owner = none →
    quarterHalted s q = true →
    ∃ t, exec (.abort p q) s = .next t ∧ (t.cfgQ q).start = false ∧ (t.cfgQ q).state = 3 ∧ (t.cfgQ q).error = 4 ∧
      (t.cfgQ q).aborted = true ∧ (t.cfgQ q).items = [])

/-- PLAN_ENTRY takes up the next entry of a plan, in host memory or in a working stack KS[q], that passes the checks of R167, or stops the plan with the error they name; a read beyond the code's reach stops it with error 3. SEQUENCE_INJECT sends the next token of a port's sequence, the first once its producer is done, in a schedule cycle in which the channel has taken none and the streamer may inject (8 tokens in all, one a channel), spending a credit: token k of a carrier holds bytes 64 k to 64 k + 63 of the configuration, the 32nd with LAST; any other port's sequence is one token with payload zero and LAST; the first of a sequence advances the channel's generation. With the last the port leaves its item, which else stands at the next token. FABRIC_BARRIER_INJECT, once the streamer's WAIT on the guarding piton has been answered complete, puts the one-token sequence, of the next generation, behind what port 8 holds: at the end of its queue, or, where that is full or tokens already wait for the bore, behind those (said of units that draw nothing from port 8 into a ring at once). STAGING_CARRIER writes the carrier straight into the shadow configuration. Completion is the conclusion here for PLAN_ENTRY, SEQUENCE_INJECT, FABRIC_BARRIER_INJECT, STAGING_CARRIER. -/
def Obligations.PlanDeliveryCompletes : Prop :=
  (∀ (s : State) (q : Fin 4) (r : ReadErr), (s.cfgQ q).start = true → (s.cfgQ q).taken < (s.cfgQ q).planLen →
    (s.cfgQ q).planSrc = true ∨ ((s.kst q).trained = true ∧ (s.kst q).failed = false) →
    ∃ t, exec (.planEntry q r) s = .next t ∧
      (r ≠ .uncorrectable → entryError s q (nth 0 (entryRows s q (s.cfgQ q).taken) 0) = 0 →
        (t.cfgQ q).taken = (s.cfgQ q).taken + 1 ∧ ∃ it, (t.cfgQ q).items = (s.cfgQ q).items ++ [it] ∧ it.idx = (s.cfgQ q).taken ∧
          it.lu = entryLu (nth 0 (entryRows s q (s.cfgQ q).taken) 0) ∧ it.cfg = entryCfg (entryRows s q (s.cfgQ q).taken)) ∧
      (r ≠ .uncorrectable → entryError s q (nth 0 (entryRows s q (s.cfgQ q).taken) 0) ≠ 0 → (s.cfgQ q).owner = none →
        (t.cfgQ q).start = false ∧ (t.cfgQ q).state = 3 ∧ (t.cfgQ q).entry = BitVec.ofNat 16 (s.cfgQ q).taken ∧
        (t.cfgQ q).error = BitVec.ofNat 6 (entryError s q (nth 0 (entryRows s q (s.cfgQ q).taken) 0))) ∧
      (r = .uncorrectable → (s.cfgQ q).owner = none →
        (t.cfgQ q).start = false ∧ (t.cfgQ q).state = 3 ∧ (t.cfgQ q).entry = BitVec.ofNat 16 (s.cfgQ q).taken ∧ (t.cfgQ q).error = 3)) ∧
  (∀ (s : State) (q : Fin 4) (lu : Fin 9216) (p : Fin 9) (it : PlanItem) (k : Nat),
    (s.cfgQ q).items.find? (fun j => j.lu == lu.val && j.ports.any fun e => e.1 == p.val) = some it →
    it.ports.find? (fun e => e.1 == p.val) = some (p.val, k) →
    (∀ w, neighbour lu p = some w →
      (((s.chan lu p).closed = true ∨ producerDone s w ((s.chan lu p).marked.getD 0) = true) ∧ sendPending s lu p = false) ∨ 0 < k) →
    injSlot s q lu p = true → 0 < creditsIn s lu p → (s.quarter q).inReset = false → (s.cfgQ q).owner = none →
    let carrier := it.carrier == p.val
    ((s.chan lu p).sent = some (sendCycle s lu p) → exec (.sequenceInject q lu p) s = .next s) ∧
    ((s.chan lu p).sent ≠ some (sendCycle s lu p) →
      ∃ t tok, exec (.sequenceInject q lu p) s = .next t ∧
        (t.chan lu p).gen = (if k = 0 then (s.chan lu p).gen + 1 else (s.chan lu p).gen) ∧
        (t.chan lu p).spent = (s.chan lu p).spent + 1 ∧ (t.chan lu p).sent = some (sendCycle s lu p) ∧
        (t.chan lu p).flight = (s.chan lu p).flight ++ [⟨tok, chanLocal p, (chanBelay lu p).isSome⟩] ∧
        tok.gen = (t.chan lu p).gen ∧ parOk tok = true ∧ tok.last = (!carrier || k == 31) ∧
        tok.payload = (if carrier then it.cfg.extractLsb' (512 * k) 512 else 0) ∧
        (tok.last = true → (t.chan lu p).marked = none ∧ ∀ j ∈ (t.cfgQ q).items, j.idx = it.idx → ∀ e ∈ j.ports, e.1 ≠ p.val) ∧
        (tok.last = false → ∃ j ∈ (t.cfgQ q).items, j.idx = it.idx ∧ (p.val, k + 1) ∈ j.ports))) ∧
  (∀ (s : State) (q : Fin 4) (lu : Fin 9216) (it : PlanItem) (u : Nat), s.phys lu = some u →
    isMu u = true ∨ curBind (s.unit u) (isMu u) false 8 = none →
    (s.cfgQ q).items.find? (fun j => j.lu == lu.val && j.fabricWait) = some it → it.ready = true →
    0 < port8Room s lu → injSlot s q lu 8 = true → (s.cfgQ q).owner = none →
    let c := s.chan lu 8
    ∃ t tok, exec (.fabricBarrierInject q lu) s = .next t ∧ (t.chan lu 8).gen = c.gen + 1 ∧
      tok.payload = 0 ∧ tok.last = true ∧ tok.gen = c.gen + 1 ∧ parOk tok = true ∧ (t.chan lu 8).boreRows = c.boreRows ∧
      (c.boreRows = [] ∧ c.spill = [] ∧ c.queue.length < 16 → (t.chan lu 8).queue = c.queue ++ [tok] ∧ (t.chan lu 8).spill = []) ∧
      (c.boreRows ≠ [] ∨ c.spill ≠ [] ∨ 16 ≤ c.queue.length →
        (t.chan lu 8).queue = c.queue ∧ (t.chan lu 8).spill = c.spill ++ [tok])) ∧
  (∀ (s : State) (q : Fin 4) (lu : Fin 9216) (it : PlanItem) (u : Nat), s.phys lu = some u →
    (s.cfgQ q).items.find? (fun j => j.lu == lu.val && j.staging) = some it → (s.cfgQ q).owner = none →
    ∃ t, exec (.stagingCarrier q lu) s = .next t ∧ (t.unit u).shadow.cfg = it.cfg ∧ (t.unit u).shadow.count = 32 ∧
      (t.unit u).shadow.carriers = (s.unit u).shadow.carriers + 1 ∧ (t.unit u).cfg = (s.unit u).cfg)

/-- PACKET_INJECT at a local injector of a hub puts the oldest waiting packet that the injector's bucket lets in at the hub's router with CAIRN stamped and HOPS and ROUTE clear, data as they were, and SEEN of its version set; the throttle holds a head back without holding a packet on VC 3 behind it. At a unit whose quarter is not in reset and whose header and data tokens are in: a malformed header goes with its data tokens and is recorded as FAB_INJECT, and no packet appears; a good one, its bucket open, appears at its zone router. ROUTER_HOP of a packet that no router or handler has issued and whose CAIRN names a shadow version discards and counts it, and the first since the last read is captured with its destination; with a double-bit error it is discarded with a zone record, at a hub of quarter q that of zone 12 q (the model's choice, log 75, as is that a packet moves whole, logs 29 and 109); a TOKEN whose endpoint entry names a backed unit of the zone, with no earlier packet of its SRC, DEST and CAIRN before it on its input, goes to that unit with HOPS one more; a PITON packet to SELF, as an issued arrival is, goes from a hub to its piton's hub whatever version is live, and there to the engine's inbox with the port it came by (that issued arrivals and proxies pass a shadow version and count in no COUNT is the model's reading, log 150). A SPREAD packet that has found no credit on any permitted output for 64 ticks escapes; earlier, or where it finds one, nothing changes. A bucket below its full rate whose first-hop queues of the last 256 ticks are all below 32 flits begins to rise. Completion is the conclusion here for PACKET_INJECT, ROUTER_HOP, SPREAD_ESCAPE, BUCKET_RECOVERY. -/
def Obligations.PacketsAreInjectedAndRouted : Prop :=
  (∀ (s : State) (q : Fin 4) (f : Fin 8) (h : Row) (d : List (Row × Bool)) (rest : List (Row × List (Row × Bool))),
    sget [] s.fab.localq (8 * q.val + f.val) = (h, d) :: rest →
    (bucketOpen s (.hub q f) h = true →
      ∃ (t : State) (p : Packet), exec (.packetInject (.hub q f)) s = .next t ∧ sget [] t.fab.localq (8 * q.val + f.val) = rest ∧
        t.fab.pkts = s.fab.pkts ++ [p] ∧ p.hdr = stampHdr h s.fab.injCairn ∧ p.data = d ∧ p.loc = .router (48 + q) 23 ∧
        p.escape = false ∧ bit t.fab.seen (b2n (hCairn p.hdr)) = true) ∧
    (∀ (g : Row) (e : List (Row × Bool)) (more : List (Row × List (Row × Bool))), bucketOpen s (.hub q f) h = false →
      rest = (g, e) :: more → bucketOpen s (.hub q f) g = true →
      ∃ (t : State) (p : Packet), exec (.packetInject (.hub q f)) s = .next t ∧
        sget [] t.fab.localq (8 * q.val + f.val) = (h, d) :: more ∧ t.fab.pkts = s.fab.pkts ++ [p] ∧
        p.hdr = stampHdr g s.fab.injCairn ∧ p.data = e)) ∧
  (∀ (s : State) (lu : Fin 9216) (k : Bool × Token) (ts : List (Bool × Token)),
    (s.quarter (zoneOf lu / 12)).inReset = false → sget none s.fab.asm lu = none → sget [] s.fab.injq lu = k :: ts →
    let h := k.2.payload
    hLen h ≤ ts.length →
    ∃ t, exec (.packetInject (.unit lu)) s = .next t ∧ sget [] t.fab.injq lu = ts.drop (hLen h) ∧
      (hdrBad h = true → sget none t.fab.asm lu = none ∧ t.fab.pkts = s.fab.pkts ∧
        ∃ r, t.flt.recs.head? = some r ∧ r.kind = 1 ∧ r.cause = 7 ∧ r.zone.toNat = zoneOf lu) ∧
      (hdrBad h = false → bucketOpen s (.unit lu) h = true → sget none t.fab.asm lu = none ∧
        ∃ p, t.fab.pkts = s.fab.pkts ++ [p] ∧ p.hdr = h ∧ p.data = (ts.take (hLen h)).map (fun x => (x.2.payload, x.2.last)) ∧
          p.loc = .router (zoneOf lu) 5)) ∧
  (∀ (s : State) (pid r i : Nat) (e : FlitEcc) (p : Packet), findPacket s pid = some p → p.loc = .router r i → e ≠ .double →
    bit s.fab.shadow (b2n (hCairn p.hdr)) = true → p.issued = false →
    ∃ t, exec (.routerHop pid e) s = .next t ∧ findPacket t pid = none ∧ t.fab.unroute = satInc s.fab.unroute ∧ t.fab.armed = false ∧
      (s.fab.armed = true → t.fab.first.toNat = 2 * 2 ^ 29 + hDest p.hdr) ∧ (s.fab.armed = false → t.fab.first = s.fab.first)) ∧
  (∀ (s : State) (pid r i : Nat) (p : Packet), findPacket s pid = some p → p.loc = .router r i → r < 52 →
    ∃ t, exec (.routerHop pid .double) s = .next t ∧ Gone s t pid ∧
      ∃ x, t.flt.recs.head? = some x ∧ x.kind = 1 ∧ x.cause = 6 ∧ x.zone.toNat = (if r < 48 then r else 12 * (r - 48))) ∧
  (∀ (s : State) (pid z i : Nat) (p : Packet), findPacket s pid = some p → p.loc = .router z i → z < 48 → hKind p.hdr = 0 →
    hRope p.hdr = false → hSet p.hdr = false → hHops p.hdr < 63 → bit s.fab.shadow (b2n (hCairn p.hdr)) = false →
    eValid (epEntry s z (hCairn p.hdr) (hDest p.hdr)) = true → eOut (epEntry s z (hCairn p.hdr) (hDest p.hdr)) = 0 →
    let lu := luAt z (eK (epEntry s z (hCairn p.hdr) (hDest p.hdr))) (eJ (epEntry s z (hCairn p.hdr) (hDest p.hdr)))
    (s.phys lu).isSome = true → orderAhead s p = false →
    ∃ (t : State) (x : Packet), exec (.routerHop pid .good) s = .next t ∧ findPacket t pid = some x ∧ x.loc = .unit lu ∧ x.data = p.data ∧
      hHops x.hdr = hHops p.hdr + 1 ∧ hDest x.hdr = hDest p.hdr) ∧
  (∀ (s : State) (pid i : Nat) (q : Fin 4) (p : Packet), findPacket s pid = some p → p.loc = .router (48 + q.val) i → hKind p.hdr = 4 →
    hDest p.hdr = 0xFFFFFF → hRope p.hdr = false → hHops p.hdr < 63 → orderAhead s p = false →
    p.issued = true ∨ bit s.fab.shadow (b2n (hCairn p.hdr)) = false → (s.quarter (pitonQuarter (hPiton p.hdr))).inReset = false →
    (pitonQuarter (hPiton p.hdr) = q →
      ∃ t m, exec (.routerHop pid .good) s = .next t ∧ findPacket t pid = none ∧ (t.pitQ q).inbox = (s.pitQ q).inbox ++ [m] ∧
        m.port = i ∧ m.piton.toNat = hPiton p.hdr ∧ m.op.toNat = hArg p.hdr / 2 ^ 28 ∧ m.inl = hInline p.hdr) ∧
    (pitonQuarter (hPiton p.hdr) ≠ q →
      let h := pitonQuarter (hPiton p.hdr)
      0 < freeCredits s (48 + h) (hubPortOfHub h q) (pVc p) →
      ∃ (t : State) (x : Packet), exec (.routerHop pid .good) s = .next t ∧ findPacket t pid = some x ∧
        x.loc = .router (48 + h) (hubPortOfHub h q) ∧ hHops x.hdr = hHops p.hdr + 1 ∧ hPiton x.hdr = hPiton p.hdr ∧ t.pitq = s.pitq)) ∧
  (∀ (s : State) (pid : Nat) (p : Packet), findPacket s pid = some p → pVc p = 1 →
    (p.since + 64 ≤ s.tick → findsCredit s p = false →
      ∃ t, exec (.spreadEscape pid) s = .next t ∧ findPacket t pid = some { p with escape := true }) ∧
    (s.tick < p.since + 64 ∨ findsCredit s p = true → exec (.spreadEscape pid) s = .next s)) ∧
  (∀ (s : State) (i : Injector),
    (sget Bucket.init s.fab.buckets (injKey i)).rising = none → (sget Bucket.init s.fab.buckets (injKey i)).rate < 1 →
    (∀ u ∈ (sget Bucket.init s.fab.buckets (injKey i)).used, s.tick < u.2.2.2 + 256 → queueFlits s u.1 u.2.1 < 32) →
    ∃ t, exec (.bucketRecovery i) s = .next t ∧ t = { s with fab := { s.fab with buckets := t.fab.buckets } } ∧
      (sget Bucket.init t.fab.buckets (injKey i)).rising = some (s.tick, (sget Bucket.init s.fab.buckets (injKey i)).rate))

/-- A TOKEN or RESP packet, the oldest at a unit whose zone is not steering and whose port 8 has room for its data, is gone after its delivery (its arrival, where it has one, is on its way); at an MU without a bore in use its data are then the youngest tokens of the port-8 queue, in order, of the channel's generation. A RESP that answers a streamer's WAIT with COMPLETE lets the barriers in that ask for that piton and tag. STK_RD answers with one RESP of LEN = ARG rows from the stack port, and from a work stack that reads clean they are the rows it holds. STK_WR to a trained work stack leaves every row as written and no other row of it changed, where it writes whole lines of 4 rows or the lines it writes in part read back correctable. WIN_WR writes its word as any window write through the fabric port, and its arrival enters the engine of hub 0 or sets out from that hub as a PITON packet to SELF (log 150); WIN_RD answers one RESP with the value read; both packets are gone. HOST_WR without data rows stores the first ARG bytes of INLINE at its host address and no other byte of host memory changes, its arrival coming back over the link; HOST_RD of 1 to 4,096 bytes brings one RESP of ARG bytes back over its link and host memory stays. Completion is the conclusion here for TOKEN, RESP, STK_RD, STK_WR, WIN_WR, WIN_RD, HOST_WR, HOST_RD. -/
def Obligations.PacketsAreDelivered : Prop :=
  (∀ (s : State) (pid lu u : Nat) (p : Packet) (c : Instr), findPacket s pid = some p → p.loc = .unit lu →
    (c = .token pid ∧ hKind p.hdr = 0) ∨ (c = .resp pid ∧ hKind p.hdr = 3) →
    oldestAt s p = true → (∀ x ∈ (s.quarter (zoneOf lu / 12)).steering, x.1 ≠ zoneOf lu) → s.phys lu = some u →
    p.data.length ≤ port8Room s lu →
    ∃ t, exec c s = .next t ∧ Gone s t pid ∧
      (isMu u = true → (s.chan lu 8).boreRows = [] → (s.chan lu 8).spill = [] → (s.chan lu 8).queue.length + p.data.length ≤ 16 →
        (t.chan lu 8).queue = (s.chan lu 8).queue ++ p.data.map fun d => mkToken d.1 (s.chan lu 8).gen d.2)) ∧
  (∀ (s : State) (pid : Nat) (q : Fin 4) (f : Nat) (p : Packet), findPacket s pid = some p → p.loc = .func q f →
    hKind p.hdr = 3 → oldestAt s p = true →
    ∃ t, exec (.resp pid) s = .next t ∧ Gone s t pid ∧
      (f = 6 → fld (hInline p.hdr) 24 8 = 0 → (t.cfgQ q).items = (s.cfgQ q).items.map fun j =>
        if j.fabricWait && j.asked && j.piton.toNat == fld (hInline p.hdr) 0 17 && j.tag.toNat == fld (hInline p.hdr) 32 32 then
          { j with asked := false, ready := true } else j)) ∧
  (∀ (s : State) (pid : Nat) (q : Fin 4) (own part : List ReadErr) (p : Packet), findPacket s pid = some p → p.loc = .func q 0 →
    hKind p.hdr = 1 → oldestAt s p = true → hArg p.hdr ≤ 64 →
    ∃ (t : State) (d : List (Row × Bool)), exec (.stkRd pid own part) s = .next t ∧ findPacket t pid = none ∧
      sget [] t.fab.localq (8 * q.val) = sget [] s.fab.localq (8 * q.val) ++ [(respHdr p.hdr (hArg p.hdr) 0, d)] ∧
      d.length = hArg p.hdr ∧
      (hAddr p.hdr / 2 ^ 62 = 2 → (s.kst q).trained = true → (s.kst q).failed = false → own = [] →
        d.map Prod.fst = (upto (hArg p.hdr)).map fun i => (s.kst q).mem.read (hAddr p.hdr % 2 ^ 32 + i))) ∧
  (∀ (s : State) (pid : Nat) (q : Fin 4) (rmw : List ReadErr) (p : Packet), findPacket s pid = some p → p.loc = .func q 0 →
    hKind p.hdr = 2 → oldestAt s p = true → (s.kst q).trained = true → (s.kst q).failed = false →
    p.data.length ≤ 64 → ((∀ e ∈ rmw, e ≠ .uncorrectable) ∨ (hAddr p.hdr % 2 ^ 32 % 4 = 0 ∧ p.data.length % 4 = 0)) →
    ∃ t, exec (.stkWr pid rmw) s = .next t ∧ Gone s t pid ∧
      (∀ i, i < p.data.length → (t.kst q).mem.read (hAddr p.hdr % 2 ^ 32 + i) = (p.data.getD i (0, false)).1) ∧
      ∀ r, r < hAddr p.hdr % 2 ^ 32 ∨ hAddr p.hdr % 2 ^ 32 + p.data.length ≤ r → (t.kst q).mem.read r = (s.kst q).mem.read r) ∧
  (∀ (s : State) (pid : Nat) (p : Packet), feTakes s pid 5 = some p →
    let w := winWrite (dropPacket s p) .fabric (hAddr p.hdr % 2 ^ 24) (BitVec.ofNat 32 (hInline p.hdr).toNat)
    (hPv p.hdr = false → exec (.winWr pid) s = .next w) ∧
    (hPv p.hdr = true → ∃ t, exec (.winWr pid) s = .next t ∧ t = { w with pitq := t.pitq, fab := t.fab, undo := t.undo } ∧
      (pitonQuarter (hPiton p.hdr) = 0 → t.fab = w.fab ∧
        ((w.quarter 0).inReset = false → (t.pitQ 0).inbox.length = (w.pitQ 0).inbox.length + 1)) ∧
      (pitonQuarter (hPiton p.hdr) ≠ 0 → t.pitq = w.pitq ∧
        ∃ x, t.fab.pkts = w.fab.pkts ++ [x] ∧ x.issued = true ∧ x.loc = .router 48 24 ∧ hKind x.hdr = 4 ∧ hPiton x.hdr = hPiton p.hdr ∧
          hDest x.hdr = 0xFFFFFF ∧ hInline x.hdr = BitVec.ofNat 256 (hLen p.hdr)))) ∧
  (∀ (s : State) (pid : Nat) (p : Packet), feTakes s pid 6 = some p →
    ∃ t, exec (.winRd pid) s = .next t ∧ findPacket t pid = none ∧
      sget [] t.fab.localq 1 = sget [] s.fab.localq 1 ++
        [(respHdr p.hdr 0 (winRead (dropPacket s p) .fabric (hAddr p.hdr % 2 ^ 24) 4).2.1.toNat, [])]) ∧
  (∀ (s : State) (n : Fin 32) (p : Packet), bridgeHead (s.link n) 7 = some p → hLen p.hdr = 0 → hArg p.hdr ≤ 32 →
    ∃ t, exec (.hostWr n) s = .next t ∧ p ∉ (t.link n).wire ∧ (hPv p.hdr = false → t.fab = s.fab) ∧
      (hPv p.hdr = true → ∃ x, t.fab.pkts = s.fab.pkts ++ [x] ∧ x.issued = true ∧ x.loc = .router (48 + linkHub n) (hubPortOfLink n) ∧
        hKind x.hdr = 4 ∧ hPiton x.hdr = hPiton p.hdr ∧ hInline x.hdr = BitVec.ofNat 256 (hLen p.hdr)) ∧
      (∀ i, i < hArg p.hdr → readByte t.host (hAddr p.hdr + i) = (hInline p.hdr).extractLsb' (8 * i) 8) ∧
      ∀ a, a < hAddr p.hdr ∨ hAddr p.hdr + hArg p.hdr ≤ a → readByte t.host a = readByte s.host a) ∧
  (∀ (s : State) (n : Fin 32) (p : Packet), bridgeHead (s.link n) 8 = some p → 0 < hArg p.hdr → hArg p.hdr ≤ 4096 →
    ∃ (t : State) (x : Packet), exec (.hostRd n) s = .next t ∧ t.host = s.host ∧ t.fab.pkts = s.fab.pkts ++ [x] ∧ hKind x.hdr = 3 ∧
      hLen x.hdr = (hArg p.hdr + 63) / 64 ∧ hAddr x.hdr = hAddr p.hdr ∧ hCairn x.hdr = hCairn p.hdr ∧
      (hArg p.hdr % 64 = 0 → x.data.map Prod.fst = (upto (hArg p.hdr / 64)).map fun i => readRowAt s.host (hAddr p.hdr + 64 * i)))

/-- A frame with a wrong CRC on an UP link is counted and answered with NAK, and one on a link that is not UP changes nothing; a good IDLE frame moves ACK and returns its credits and leaves the expected SEQ; a good DATA frame with the expected SEQ, its flits within the receive buffer, moves it on by one and is acknowledged. Two microseconds without ACK send every unacknowledged frame again, in order and each with its SEQ and a good CRC, earlier nothing changes; eight resends start a quick retrain. Its good end puts the link UP and sends every unacknowledged frame likewise; a failed third one starts a full training, and an earlier one another quick retrain. LNK_CTL.QUICK on an UP link starts one; TRAIN on an enabled link whose quarter is not in reset starts a training, counted; ENABLE 0 leaves the link DISABLED, and ENABLE 1 of a disabled one starts its training. In training the partner's clocks are noted; its good end with at most 16 failed lanes each way, outside bring-up, leaves the link UP with the partner's site and fresh sequence numbers, any other DOWN; without a partner 5 ms after its start it reports NO_PARTNER. That TRAIN empties the replay buffer and counts at its start, and that a failed quick retrain is tried again at once, is the model's reading (log 55), as are what ENABLE does (log 96) and that a frame for which the receive buffer has no room is not accepted (log 127). Completion is the conclusion here for LINK_FRAME_RECEIVE, LINK_RESEND_TIMEOUT, QUICK_RETRAIN, QUICK_RETRAIN_END, QUICK, TRAIN, ENABLE, PARTNER_DETECT, NO_PARTNER, TRAINING_END. -/
def Obligations.LinksTransferRetrainAndTrain : Prop :=
  (∀ (s : State) (n : Fin 32) (f : LinkFrame),
    ((s.link n).state ≠ .up → exec (.linkFrameReceive n f) s = .next s) ∧
    ((s.link n).state = .up → frameCrc f ≠ f.crc → ∃ t, exec (.linkFrameReceive n f) s = .next t ∧
      t = { s with links := t.links, full := t.full } ∧ (∀ m, m ≠ n.val → t.link m = s.link m) ∧
      t.link n = { s.link n with crcErr := satInc (s.link n).crcErr, gap := true, nak := true }) ∧
    ((s.link n).state = .up → frameCrc f = f.crc → cType f.ctl = 0 ∨ cType f.ctl = 1 →
      ∃ t, exec (.linkFrameReceive n f) s = .next t ∧ (t.link n).state = .up ∧ (t.link n).txSeq = (s.link n).txSeq ∧
        (cType f.ctl = 0 → (t.link n).rxSeq = (s.link n).rxSeq ∧ t.fab = s.fab ∧
          sget 0 (t.link n).spent (cCvc f.ctl) = sget 0 (s.link n).spent (cCvc f.ctl) - cCredits f.ctl) ∧
        (cType f.ctl = 1 → cSeq f.ctl = (s.link n).rxSeq → rxRoom (s.link n) f.ctl = true →
          (t.link n).rxSeq = (s.link n).rxSeq + 1 ∧ (t.link n).nak = false ∧ (t.link n).ackOwed = true))) ∧
  (∀ (s : State) (n : Fin 32), (s.link n).state = .up → (s.link n).replay ≠ [] →
    ((s.link n).ackTick + 1600 ≤ s.tick → ∃ t, exec (.linkResendTimeout n) s = .next t ∧
      (t.link n).resends = (s.link n).resends + 1 ∧ (t.link n).ackTick = s.tick ∧
      (t.link n).replay.map TxFrame.seq = (s.link n).replay.map TxFrame.seq ∧
      ∃ fs : List LinkFrame, (t.link n).out = (s.link n).out ++ fs ∧
        fs.map (fun f => cSeq f.ctl) = (s.link n).replay.map TxFrame.seq ∧ (∀ f ∈ fs, frameCrc f = f.crc ∧ cType f.ctl = 1)) ∧
    (s.tick < (s.link n).ackTick + 1600 → exec (.linkResendTimeout n) s = .next s)) ∧
  (∀ (s : State) (n : Fin 32), (s.link n).state = .up → 8 ≤ (s.link n).resends →
    ∃ t, exec (.quickRetrain n) s = .next t ∧ (t.link n).state = .retraining ∧ (t.link n).replay = (s.link n).replay ∧
      (t.link n).retrains = satInc (s.link n).retrains) ∧
  (∀ (s : State) (n : Fin 32), (s.link n).state = .retraining →
    (∃ t, exec (.quickRetrainEnd n true) s = .next t ∧ (t.link n).state = .up ∧ (t.link n).quickFails = 0 ∧ (t.link n).resends = 0 ∧
      ∃ fs : List LinkFrame, (t.link n).out = (s.link n).out ++ fs ∧
        fs.map (fun f => cSeq f.ctl) = (s.link n).replay.map TxFrame.seq ∧ (∀ f ∈ fs, frameCrc f = f.crc ∧ cType f.ctl = 1)) ∧
    (∃ t, exec (.quickRetrainEnd n false) s = .next t ∧
      ((s.link n).quickFails < 2 → (t.link n).state = .retraining ∧ (t.link n).quickFails = (s.link n).quickFails + 1) ∧
      (2 ≤ (s.link n).quickFails → (s.link n).enable = true → (s.quarter (linkHub n)).inReset = false → (t.link n).state = .training))) ∧
  (∀ (s : State) (p : WinPort) (n : Fin 32), Writable s (0x80000 + 0x10 * n.val) → (s.link n).enable = true →
    ((s.link n).state = .up → ∃ t, exec (.quick p n) s = .next t ∧ (t.link n).state = .retraining ∧ (t.link n).quick = true) ∧
    ((s.quarter (linkHub n)).inReset = false → ∃ t, exec (.train p n) s = .next t ∧ (t.link n).state = .training ∧
      (t.link n).trains = satInc (s.link n).trains ∧ (t.link n).trainTick = s.tick ∧ (t.link n).replay = [])) ∧
  (∀ (s : State) (p : WinPort) (n : Fin 32), Writable s (0x80000 + 0x10 * n.val) →
    (∃ t, exec (.enable p n 0) s = .next t ∧ (t.link n).enable = false ∧ ((s.link n).enable = true → (t.link n).state = .disabled)) ∧
    ((s.link n).enable = false → (s.quarter (linkHub n)).inReset = false →
      ∃ t, exec (.enable p n 1) s = .next t ∧ (t.link n).enable = true ∧ (t.link n).state = .training)) ∧
  (∀ (s : State) (n : Fin 32), (s.link n).state = .training →
    (exec (.partnerDetect n) s = .next (s.modLink n fun l => { l with detected := true })) ∧
    ((s.link n).detected = false → (s.link n).trainTick + 4000000 ≤ s.tick → s.boot.phase ≠ .bringup →
      exec (.noPartner n) s = .next (s.modLink n fun l => { l with state := .noPartner, train := false })) ∧
    (∀ r : TrainResult, (s.link n).detected = true → s.boot.phase ≠ .bringup →
      ∃ t, exec (.trainingEnd n r) s = .next t ∧
        (r.ok = true ∧ r.sparesTx.toNat ≤ 16 ∧ r.sparesRx.toNat ≤ 16 → (t.link n).state = .up ∧ (t.link n).partner = r.site ∧
          (t.link n).txSeq = 0 ∧ (t.link n).rxSeq = 0 ∧ (t.link n).sparesTx = r.sparesTx ∧ (t.link n).sparesRx = r.sparesRx) ∧
        (r.ok = false ∨ 16 < r.sparesTx.toNat ∨ 16 < r.sparesRx.toNat → (t.link n).state = .down)))

/-- DRONE_LOCK_ACQUIRED in ACQUIRING with the reference present enters LOCKED and keeps or starts the beat count. REF_LOSS in LOCKED or WALKING enters HOLDOVER, counts the loss, clears REF_PRESENT and the holdover count, sets the event bit and FLT_SUMMARY.REF, and leaves chanters, zones and the drone counter alone; in ACQUIRING only REF_PRESENT clears. REF_RETURN in HOLDOVER starts WALKING the shorter way round. WALK_COMPLETE, once the walk can have come within 10 ps, enters LOCKED and logs a walk between the offset less 10 ps and the offset. At a pattern boundary LOCK_A takes the density of the loop's state. CLK_DRONE_CONFIRM.LOCKED is stored. Completion is the conclusion here for DRONE_LOCK_ACQUIRED, REF_LOSS, REF_RETURN, WALK_COMPLETE, LOCK_A_PATTERN_BOUNDARY, CLK_DRONE_CONFIRM_WRITE. -/
def Obligations.DroneLoopTransitions : Prop :=
  (∀ s : State, s.clk.drone = .acquiring → s.clk.refPresent = true →
    ∃ t, exec .droneLockAcquired s = .next t ∧ t.clk.drone = .locked ∧ t.clk.lockAdv = true ∧
      t.clk.firstLock = some (s.clk.firstLock.getD s.tick)) ∧
  (∀ s : State, s.clk.drone = .locked ∨ s.clk.drone = .walking →
    ∃ t, exec .refLoss s = .next t ∧ t.clk.drone = .holdover ∧ t.clk.lockAdv = false ∧ t.clk.refPresent = false ∧
      t.clk.losses = satInc s.clk.losses ∧ t.clk.holdover = 0 ∧ bit t.clk.events 0 = true ∧ bit t.flt.summary 8 = true ∧
      t.clk.count = s.clk.count ∧ t.chanters = s.chanters ∧ t.zones = s.zones) ∧
  (∀ s : State, s.clk.drone = .acquiring → exec .refLoss s = .next { s with clk := { s.clk with refPresent := false } }) ∧
  (∀ (s : State) (off : Int), s.clk.drone = .holdover →
    ∃ t, exec (.refReturn off) s = .next t ∧ t.clk.drone = .walking ∧ t.clk.refPresent = true ∧ bit t.clk.events 1 = true ∧
      t.clk.walk = some (shortWay off, s.tick)) ∧
  (∀ (s : State) (off : Int) (b : Nat), s.clk.drone = .walking → s.clk.walk = some (off, b) →
    off.natAbs ≤ 10 * ((s.tick - b) / 8) + 10 →
    ∃ (t : State) (w : Int), exec .walkComplete s = .next t ∧ t.clk.drone = .locked ∧ t.clk.lockAdv = true ∧ t.clk.walk = none ∧
      t.clk.walks = satInc s.clk.walks ∧ t.clk.lastWalk = BitVec.ofInt 24 w ∧ off.natAbs - 10 ≤ w.natAbs ∧ w.natAbs ≤ off.natAbs) ∧
  (∀ (s : State) (b : Nat), s.clk.started = some b → (s.tick - b) % 128 = 0 →
    exec .lockAPatternBoundary s = .next { s with clk := { s.clk with lockA := lockDensity s.clk.drone } }) ∧
  (∀ (s : State) (p : WinPort) (v : Word), s.boot.phase = .ready ∨ s.boot.phase = .bringup ∨ s.boot.phase = .failed → Untouched s 0x10004 →
    ∃ t, exec (.clkDroneConfirmWrite p v) s = .next t ∧ t.clk.confirm = v.getLsbD 0 ∧ t.clk.drone = s.clk.drone)

/-- CHANTER_START of a chanter in RESET with a code of 512 to 1,215 begins ACQUIRING at that code; any other code leaves it in RESET; no other chanter changes. CHANTER_RESET in a halted quarter puts the chanter in RESET; while its quarter runs it acts on nothing but the stored code. A lock window that ends within one of the code is the fourth such in a row: ACQUIRING becomes LOCKED. One that ends further than two from the code of a LOCKED chanter, widened by a step of the window, leaves it COASTING with the loss counted. 200 µs of coasting record the zone's COAST fault. Not LOCKED 20 µs after START: outside bring-up and a reset the chanter is FAILED, its CHANTER fault is recorded and its quarter halts. Completion is the conclusion here for CHANTER_START, CHANTER_RESET, LOCK_WINDOW_END, COAST_TIMEOUT, CHANTER_FAIL. -/
def Obligations.ChantersLockCoastAndFail : Prop :=
  (∀ (s : State) (p : WinPort) (z : Fin 48) (v : Word), Writable s (0x10100 + 8 * z.val) → (s.chanter z).state = .reset →
    ∃ t, exec (.chanterStart p z v) s = .next t ∧ t = { s with chanters := t.chanters, zones := t.zones, wrote := t.wrote, undo := t.undo } ∧
      (512 ≤ fld v 0 11 ∧ fld v 0 11 ≤ 1215 → (t.chanter z).state = .acquiring ∧ (t.chanter z).code = v.extractLsb' 0 11 ∧
        (t.chanter z).startTick = s.tick ∧ (t.chanter z).good = 0) ∧
      (¬(512 ≤ fld v 0 11 ∧ fld v 0 11 ≤ 1215) → (t.chanter z).state = .reset) ∧ ∀ y, y ≠ z.val → t.chanter y = s.chanter y) ∧
  (∀ (s : State) (p : WinPort) (z : Fin 48) (v : Word), Writable s (0x10100 + 8 * z.val) → bit v 31 = false →
    ∃ t, exec (.chanterReset p z v) s = .next t ∧ (∀ y, y ≠ z.val → t.chanter y = s.chanter y) ∧
      (quarterHalted s (z.val / 12) = true → (t.chanter z).state = .reset ∧ (t.zone z).timeValid = false) ∧
      (quarterHalted s (z.val / 12) = false → (s.quarter (z.val / 12)).inReset = false →
        t.chanter z = { s.chanter z with ctlCode := v.extractLsb' 0 11 } ∧ t.zones = s.zones)) ∧
  (∀ (s : State) (z : Fin 48) (n : Nat), s.boot.phase ≠ .bringup → isBeat s = true → (s.chanter z).windowTick ≠ some s.tick →
    s.clk.lastBeat ≠ some s.tick →
    ∃ t, exec (.lockWindowEnd z n) s = .next t ∧
      ((s.chanter z).state = .acquiring → within n (s.chanter z).code 1 = true →
        (3 ≤ (s.chanter z).good → (t.chanter z).state = .locked) ∧
        ((s.chanter z).good < 3 → (t.chanter z).state = .acquiring ∧ (t.chanter z).good = (s.chanter z).good + 1)) ∧
      ((s.chanter z).state = .locked → within n (s.chanter z).code ((s.chanter z).widen + 2) = true → (t.chanter z).state = .locked) ∧
      ((s.chanter z).state = .locked → within n (s.chanter z).code ((s.chanter z).widen + 2) = false →
        (t.chanter z).state = .coasting ∧ (t.chanter z).losses = satInc (s.chanter z).losses ∧
        (t.chanter z).coastTick = s.tick ∧ (t.chanter z).code = (s.chanter z).code ∧ bit t.clk.events 2 = true)) ∧
  (∀ (s : State) (z : Fin 48), (s.chanter z).state = .coasting → (s.chanter z).expired = false →
    (s.chanter z).coastTick + 160000 ≤ s.tick →
    ∃ (t : State) (r : FaultRec), exec (.coastTimeout z) s = .next t ∧ (t.chanter z).expired = true ∧ t.flt.recs.head? = some r ∧
      r.kind = 1 ∧ r.zone.toNat = z.val ∧ r.cause = 4 ∧ r.seq = s.flt.seq + 1 ∧ bit t.flt.summary 2 = true ∧
      (t.quarter (z.val / 12)).halted = (s.quarter (z.val / 12)).halted ∧
      (t.quarter (z.val / 12)).faults = (s.quarter (z.val / 12)).faults ++ [⟨z.val, none, .replay, 4, true⟩]) ∧
  (∀ (s : State) (z : Fin 48), (s.chanter z).state = .acquiring → (s.chanter z).startTick + 16000 ≤ s.tick →
    s.boot.phase ≠ .bringup → (s.quarter (z.val / 12)).inReset = false →
    ∃ (t : State) (r : FaultRec), exec (.chanterFail z) s = .next t ∧ (t.chanter z).state = .failed ∧ bit t.clk.events 3 = true ∧
      t.flt.recs.head? = some r ∧ r.kind = 1 ∧ r.zone.toNat = z.val ∧ r.cause = 5 ∧ (t.quarter (z.val / 12)).halted = true)

/-- RAIL_SETTLED with every V_CORE within 5 mV of its target ends the wait for the rails, and changes nothing else outside bring-up. STEP_ISSUE on a multiple of 800 drone ticks, in a move whose rails are up, not paused and at least 800 ticks after the last step, takes the region's code towards the target's by at most 4 and not beyond it, and gives it as a pending step to every chanter that runs; where one of them would move by more than 4, all of them keep their codes with STEP_TOO_LARGE set, and CLK_EVENTS shows the rejection. Two points of this are the model's choice: that steps fall on the multiples of 800 ticks of the region's clock (log 107), and that a step which one chanter rejects is taken by none, the region's code staying (log 129). At an alignment beat a chanter LOCKED before it, of a zone that is not stretching applies its oldest pending step of an earlier tick, on time: its code is the step's, the step is pending no more, the lock window is widened by the change and the zone's deficit stays. Completion is the conclusion here for RAIL_SETTLED, STEP_ISSUE, ALIGNMENT_BEAT. -/
def Obligations.MovesStepAtBeats : Prop :=
  (∀ s : State, s.clk.railWait = true → railsSettled s = true → s.boot.phase ≠ .bringup →
    exec .railSettled s = .next { s with clk := { s.clk with railWait := false } }) ∧
  (∀ s : State, s.clk.moving = true → s.clk.railWait = false → s.clk.code ≠ pointCode s.clk.target.toNat → s.tick % 800 = 0 →
    passed s s.clk.lastStep 800 = true → clkPaused s = false → Sparse.wf Chanter.init s.chanters = true →
    let goal := (pointCode s.clk.target.toNat).toNat
    let next := if s.clk.code.toNat < goal then min goal (s.clk.code.toNat + 4) else max goal (s.clk.code.toNat - 4)
    (tooFar s (BitVec.ofNat 11 next) = none →
      ∃ t, exec .stepIssue s = .next t ∧ t.clk.lastStep = some s.tick ∧ t.clk.target = s.clk.target ∧ t.clk.code.toNat = next ∧
        ∀ z, takesStep (s.chanter z) = true →
          (t.chanter z).pend = (s.chanter z).pend ++ [(t.clk.code, s.tick, 0, false)] ∧ (t.chanter z).code = (s.chanter z).code) ∧
    ((tooFar s (BitVec.ofNat 11 next)).isSome = true →
      ∃ t, exec .stepIssue s = .next t ∧ t.clk.code = s.clk.code ∧ bit t.clk.events 4 = true ∧
        ∀ z, takesStep (s.chanter z) = true → (t.chanter z).tooLarge = true ∧ (t.chanter z).code = (s.chanter z).code ∧
          (t.chanter z).pend = (s.chanter z).pend)) ∧
  (∀ s : State, isBeat s = true → s.clk.lastBeat ≠ some s.tick → Sparse.wf Chanter.init s.chanters = true →
    ∃ t, exec .alignmentBeat s = .next t ∧ t.clk.lastBeat = some s.tick ∧
      ∀ (z b : Nat) (c : BitVec 11) (d : Bool), (s.chanter z).pend = [(c, b, 0, d)] → b < s.tick → (s.chanter z).state = .locked →
        (s.chanter z).lockTick ≠ some s.tick → (s.zone z).level = 0 →
        (t.chanter z).code = c ∧ (t.chanter z).pend = [] ∧
          (t.chanter z).widen = ((c.toNat : Int) - ((s.chanter z).code.toNat : Int)).natAbs ∧ (t.zone z).deficit = (s.zone z).deficit)

/-- A droop reading asserts every level whose threshold it reaches and releases every level whose threshold lies 5 points or more above it; no other zone changes. A zone cycle of a running chanter, with no report of a unit fault due, that ends without advancing the schedule, as every one does while the schedule is stopped, adds its whole length in quarter periods to DEF; one that advances the schedule adds its stretch alone and counts one schedule cycle. More than 16 consecutive L3 cycles are a STRETCH fault, reported once. At every 64th cycle of a running zone its controller takes its DEF and broadcasts the later of the quarter's and the region's; every 128 drone ticks the region's becomes the latest of the running quarters' and is broadcast again; that the count of drone ticks starts at the model's tick 0 is its choice (log 107). Completion is the conclusion here for DROOP_ASSERT, DROOP_DEASSERT, ZONE_CYCLE_END, STRETCH, SLIP_REPORT, RECONCILE. -/
def Obligations.StretchAndDeficit : Prop :=
  (∀ (s : State) (z : Fin 48) (d : Fin 16) (r : Nat),
    (∃ t, exec (.droopAssert z d r) s = .next t ∧ t = { s with zones := t.zones } ∧ (∀ y, y ≠ z.val → t.zone y = s.zone y) ∧
      (t.zone z).d1 = (if droopLevel (s.zone z).cons 1 ≤ r then setBit (s.zone z).d1 d true else (s.zone z).d1) ∧
      (t.zone z).d2 = (if droopLevel (s.zone z).cons 2 ≤ r then setBit (s.zone z).d2 d true else (s.zone z).d2) ∧
      (t.zone z).d3 = (if droopLevel (s.zone z).cons 3 ≤ r then setBit (s.zone z).d3 d true else (s.zone z).d3)) ∧
    (∃ t, exec (.droopDeassert z d r) s = .next t ∧ t = { s with zones := t.zones } ∧ (∀ y, y ≠ z.val → t.zone y = s.zone y) ∧
      (t.zone z).d1 = (if r + 5 ≤ droopLevel (s.zone z).cons 1 then setBit (s.zone z).d1 d false else (s.zone z).d1) ∧
      (t.zone z).d2 = (if r + 5 ≤ droopLevel (s.zone z).cons 2 then setBit (s.zone z).d2 d false else (s.zone z).d2) ∧
      (t.zone z).d3 = (if r + 5 ≤ droopLevel (s.zone z).cons 3 then setBit (s.zone z).d3 d false else (s.zone z).d3))) ∧
  (∀ (s : State) (z : Fin 48), chanterRuns (s.chanter z) = true → fenceOut (s.fenceWord z) = false →
    reportDue s z = false →
    ∃ t, exec (.zoneCycleEnd z) s = .next t ∧ (t.zone z).cycles = (s.zone z).cycles + 1 ∧
      ((s.zone z).running = false ∨ (s.zone z).kind ≠ .advance →
        (t.zone z).deficit = (s.zone z).deficit + BitVec.ofNat 32 (cycleLength (s.zone z).level) ∧ (t.zone z).sched = (s.zone z).sched) ∧
      ((s.zone z).running = true → (s.zone z).kind = .advance →
        (t.zone z).deficit = (s.zone z).deficit + BitVec.ofNat 32 (cycleLength (s.zone z).level - 4) ∧
        (t.zone z).sched = (s.zone z).sched + 1)) ∧
  (∀ (s : State) (z : Fin 48),
    ((s.zone z).l3run ≤ 16 ∨ (s.zone z).l3seen = true → exec (.stretch z) s = .next s) ∧
    (16 < (s.zone z).l3run → (s.zone z).l3seen = false →
      ∃ (t : State) (r : FaultRec), exec (.stretch z) s = .next t ∧ (t.zone z).l3seen = true ∧ bit t.str.events 0 = true ∧
        t.flt.recs.head? = some r ∧ r.zone.toNat = z.val ∧ r.cause = 2 ∧ r.kind = 1)) ∧
  (∀ (s : State) (z : Fin 48), (s.zone z).running = true → s.quarterRuns (z.val / 12) = true → (s.zone z).cycles ≠ 0 →
    (s.zone z).cycles % 64 = 0 →
    ∃ (t : State) (m : Word), exec (.slipReport z) s = .next t ∧ t = { s with str := t.str } ∧
      sget 0 t.str.seen z = (s.zone z).deficit ∧ tQuarter t (z.val / 12) = some m ∧
      sget 0 t.str.tq (z.val / 12) = maxDef m s.str.tR) ∧
  (∀ s : State,
    (s.tick % 128 ≠ 0 → exec .reconcile s = .next s) ∧
    (s.tick % 128 = 0 → ∃ t, exec .reconcile s = .next t ∧ t = { s with str := t.str } ∧
      ((∀ q < 4, tQuarter s q = none) → t = s) ∧
      ∀ (q : Nat) (m : Word), q < 4 → tQuarter s q = some m →
        sget 0 t.str.tq q = maxDef m t.str.tR ∧ ((∀ r < 4, r ≠ q → tQuarter s r = none) → t.str.tR = m)))

/-- ARM after READY with FORCE 0 stores FORCE and sets ARM. DRONE_SYNC_LOAD with ARM set and the loop locked once clears ARM, sets LOADED and takes the difference from the load value as OFFSET; with FORCE 0 after READY it starts a slew and leaves the counter, otherwise, outside bring-up, the counter steps to the load value; without ARM it changes nothing. Every 1,024 ticks from the first lock a stamp tick moves the counter by at most one tick towards the end of the slew, and gives every zone whose path delay is measured the counter's value that many ticks on. Completion is the conclusion here for ARM, DRONE_SYNC_LOAD, STAMP_TICK. -/
def Obligations.DroneTimeIsLoadedAndStamped : Prop :=
  (∀ (s : State) (p : WinPort) (v : Word), Writable s 0x10030 → bit v 1 = false →
    ∃ t, exec (.arm p v) s = .next t ∧ t = { s with clk := { s.clk with force := false, arm := true }, wrote := t.wrote, undo := t.undo }) ∧
  (∀ s : State, s.clk.arm = false → exec .droneSyncLoad s = .next s) ∧
  (∀ s : State, s.clk.arm = true → s.clk.firstLock.isSome = true → s.wroteTo 0x10030 = false →
    (s.boot.phase = .ready → s.clk.force = false →
      exec .droneSyncLoad s = .next { s with clk := { s.clk with arm := false, loaded := true,
                                                                 offset := (s.clk.load.toNat : Int) - (s.clk.count.toNat : Int),
                                                                 slewLeft := (s.clk.load.toNat : Int) - (s.clk.count.toNat : Int) } }) ∧
    (s.boot.phase ≠ .bringup → s.boot.phase ≠ .ready ∨ s.clk.force = true →
      exec .droneSyncLoad s = .next { s with clk := { s.clk with arm := false, loaded := true, count := s.clk.load, slewLeft := 0,
                                                                 request := false,
                                                                 offset := (s.clk.load.toNat : Int) - (s.clk.count.toNat : Int) } })) ∧
  (∀ (s : State) (b : Nat), s.clk.firstLock = some b → (s.tick - b) % 1024 = 0 → s.clk.lastStamp ≠ some s.tick →
    ∃ t, exec .stampTick s = .next t ∧ t = { s with clk := t.clk, zones := t.zones } ∧
      (s.clk.slewLeft = 0 → t.clk.count = s.clk.count) ∧
      (0 < s.clk.slewLeft → t.clk.count = s.clk.count + 1 ∧ t.clk.slewLeft = s.clk.slewLeft - 1) ∧
      (s.clk.slewLeft < 0 → t.clk.count = s.clk.count - 1 ∧ t.clk.slewLeft = s.clk.slewLeft + 1) ∧
      ∀ z, z < 48 → (s.zone z).delay ≠ 0 →
        t.zone z = { s.zone z with stamp := some (t.clk.count + (s.zone z).delay.zeroExtend 64, s.tick + (s.zone z).delay.toNat) })

/-- STR_ALIGN_CTL.ALIGN[q] of a halted quarter, not in reset, all its chanters LOCKED and no alignment of it in progress, asks for one and reads 1; otherwise it changes nothing. At a beat with every zone of the quarter LOCKED and stopped the alignment begins. Exactly one beat later DEF of its zones is T_R, their schedules run, every crossing between two of them holds four empty slots, and one to a running zone outside is unparked at O = 4 with the tokens it holds (as the model keeps them, log 61). 66 beats after its start: with a failed crossing for the first time it is asked for again; with none, an alignment that firmware asked for leaves the quarter stopped, ALIGNED set and ALIGN clear, and one that follows a halt without a waiting replay ends the halt. Completion is the conclusion here for ALIGN, ALIGN_BEGIN, ALIGN_CROSSINGS_SET, ALIGN_RELEASE. -/
def Obligations.AlignmentOfAQuarter : Prop :=
  (∀ (s : State) (p : WinPort) (q : Fin 4), Writable s 0x20004 →
    let ok := quarterHalted s q = true ∧ (s.quarter q).inReset = false ∧ (s.align q).phase = 0 ∧
      ∀ z ∈ alZones s q, (s.chanter z).state = .locked
    (ok → ∃ t, exec (.align p q) s = .next t ∧ (t.align q).phase = 1 ∧ (t.align q).firmware = true ∧ bit t.str.alignCtl q = true) ∧
    (¬ok → exec (.align p q) s = .next (keepUndo s p 0x20004 (noteWrite s p 0x20004 (oneBit q))))) ∧
  (∀ (s : State) (q : Fin 4), (s.align q).phase = 1 → isBeat s = true →
    (∀ z ∈ alZones s q, (s.chanter z).state = .locked ∧ (s.zone z).running = false) →
    ∃ t, exec (.alignBegin (some q)) s = .next t ∧ (t.align q).phase = 2 ∧ (t.align q).begun = s.tick ∧ (t.align q).bad = [] ∧
      ∀ z ∈ alZones s q, (t.zone z).timeValid = false ∧ (t.zone z).delay = (s.zone z).delay) ∧
  (∀ (s : State) (q : Fin 4), (s.align q).phase = 2 → s.tick = (s.align q).begun + 512 →
    ∃ t, exec (.alignCrossingsSet (some q)) s = .next t ∧ (t.align q).phase = 3 ∧
      (∀ z ∈ alZones s q, (t.zone z).running = true ∧ (t.zone z).deficit = s.str.tR ∧ sget 0 t.str.seen z = s.str.tR) ∧
      (∀ z ∈ alZones s q, ∀ w ∈ alZones s q, ∀ d, d < 4 → zoneNext z d = some w → t.belay (4 * z + d) = ⟨fourSlots, false, false⟩) ∧
      ∀ z ∈ alZones s q, ∀ w ∉ alZones s q, ∀ d, d < 4 → zoneNext z d = some w → (s.zone w).running = true →
        (w / 12 ≠ q.val → (s.quarter q).inReset = false ∧ (s.quarter (w / 12)).inReset = false) →
        t.belay (4 * z + d) = ⟨toFour (s.belay (4 * z + d)).slots, false, false⟩ ∧
        t.belay (4 * w + oppDir d) = ⟨toFour (s.belay (4 * w + oppDir d)).slots, false, false⟩) ∧
  (∀ (s : State) (q : Fin 4), (s.align q).phase = 3 → s.tick = (s.align q).begun + 66 * 512 →
    ((s.align q).bad ≠ [] → (s.align q).fails = 0 →
      ∃ t, exec (.alignRelease (some q)) s = .next t ∧ (t.align q).phase = 1 ∧ (t.align q).fails = 1) ∧
    ((s.align q).bad = [] → (s.align q).firmware = true → (s.quarter q).replay = none →
      ∃ t, exec (.alignRelease (some q)) s = .next t ∧ (t.align q).phase = 0 ∧ bit t.str.aligned q = true ∧ bit t.str.alignCtl q = false ∧
        (∀ z ∈ zonesOf q, (t.zone z).running = false) ∧ (t.quarter q) = s.quarter q) ∧
    ((s.align q).bad = [] → (s.align q).firmware = false → (s.quarter q).inReset = false → (s.quarter q).lockHalt = false →
      bit s.pwr.quiesced q = false → (s.quarter q).replay = none →
      ∃ t, exec (.alignRelease (some q)) s = .next t ∧ (t.align q).phase = 0 ∧ bit t.str.aligned q = true ∧
        (t.quarter q).halted = false))

/-- A margin report of 3 % slack or more changes only the slack kept for its quarter. Below 3 %, at most once a minute, with no move in progress and stepping not paused, with less than 20 mV added and a store that takes the word, the guard band and the addition grow by 5 mV at once, RAISED is set, the word persists and V_CORE aims at the new setpoint of the present point. TRIM_LOWER at the end of an hour with slack enough, at least 35 mV of guard band and no raise persists a guard band 5 mV lower and leaves the trim as it stands, the lowering waiting for its acknowledgement; before the hour is over it changes nothing. A hint whose 10 ms are over, or whose descriptor has completed, is registered no more; another stays. Every 100 µs after READY NEED is formed from the increases of the WAIT accumulators, and one frame with OP NEED, the region's own site and a good CRC goes out; that the 100 µs count from the model's tick 0 is its choice (log 107). Completion is the conclusion here for MARGIN_REPORT, TRIM_LOWER, HINT_EXPIRE, NEED_INDEX_SAMPLE. -/
def Obligations.TrimsHintsAndNeed : Prop :=
  (∀ (s : State) (z : Fin 48) (m : Fin 24) (x : Int), 300 ≤ x →
    ∃ t, exec (.marginReport z m x) s = .next t ∧ t = { s with trims := t.trims } ∧
      t.trim (z.val / 12) = { s.trim (z.val / 12) with slack := (t.trim (z.val / 12)).slack } ∧
      ∀ q, q ≠ z.val / 12 → t.trim q = s.trim q) ∧
  (∀ (s : State) (z : Fin 48) (m : Fin 24) (x : Int), x < 300 → passed s (s.trim (z.val / 12)).raiseTick (60 * 800000000) = true →
    (s.trim (z.val / 12)).ageAdded.toNat < 20 → (s.trim (z.val / 12)).worn = false →
    sget 0 s.pst.writes (0x40 + z.val / 12) < 100000 → s.clk.moving = false → clkPaused s = false →
    ∃ t, exec (.marginReport z m x) s = .next t ∧ (t.trim (z.val / 12)).guard_ = (s.trim (z.val / 12)).guard_ + 5 ∧
      (t.trim (z.val / 12)).ageAdded = (s.trim (z.val / 12)).ageAdded + 5 ∧ (t.trim (z.val / 12)).raised = true ∧
      (t.trim (z.val / 12)).raiseTick = some s.tick ∧
      sget 0 t.pst.words (0x40 + z.val / 12) = trimWord (t.trim (z.val / 12)) ∧ t.clk = s.clk ∧
      sget 0 t.pwr.vtarget (z.val / 12) = setpoint t (z.val / 12) s.clk.point.toNat) ∧
  (∀ (s : State) (q : Fin 4), s.tick < (s.trim q).hourTick + hourTicks → exec (.trimLower q) s = .next s) ∧
  (∀ (s : State) (q : Fin 4), s.boot.phase = .ready → (s.trim q).hourTick + hourTicks ≤ s.tick → 35 ≤ (s.trim q).guard_.toNat →
    (s.trim q).raised = false → (s.trim q).worn = false → (s.trim q).lowering = false → (s.trim q).lowerDue = false → (s.trim q).raiseDue = false → slackOk (s.trim q) = true →
    sget 0 s.pst.writes (0x40 + q.val) < 100000 →
    ∃ t, exec (.trimLower q) s = .next t ∧ (t.trim q).guard_ = (s.trim q).guard_ ∧ (t.trim q).lowering = true ∧
      (t.trim q).hourTick = s.tick ∧
      sget 0 t.pst.words (0x40 + q.val) = trimWord { s.trim q with guard_ := (s.trim q).guard_ - 5 }) ∧
  (∀ (s : State) (i : Fin 16) (h : Hint), s.pwr.hintq[i.val]? = some h →
    (h.seq ∉ (s.queue h.queue).open_ ∨ (∃ a, h.from_ = some a ∧ a + 8000000 ≤ s.tick) →
      exec (.hintExpire i) s = .next { s with pwr := { s.pwr with hintq := s.pwr.hintq.eraseIdx i.val } }) ∧
    (h.seq ∈ (s.queue h.queue).open_ → (∀ a, h.from_ = some a → s.tick < a + 8000000) → exec (.hintExpire i) s = .next s)) ∧
  (∀ s : State, s.tick % 80000 = 0 → s.pwr.needTick ≠ some s.tick → s.boot.phase = .ready →
    ∃ (t : State) (f : BitVec 128), exec .needIndexSample s = .next t ∧ t.pins.mbaoOut = s.pins.mbaoOut ++ [f] ∧
      fOp f = 5 ∧ fSite f = s.ident.site.toNat ∧ f.extractLsb' 0 16 = frameCrc16 f ∧
      t.pwr.need = needOf ((((upto 4).map fun q => (s.pitQ q).waitIn.toNat).sum : Nat) - (s.pwr.needIn : Int))
        ((((upto 4).map fun q => (s.pitQ q).waitOut.toNat).sum : Nat) - (s.pwr.needOut : Int)))

/-- A governor sample is taken once at every multiple of 8,000 drone ticks while V_INT is up: each of the four quarters' and the shared energy counter gain their calibrated estimate (that the multiples count from the model's tick 0 is its choice, log 107); after READY p is the calibrated power, U moves a 5,000th of the way to it, p enters the window of 200, the allotment written takes effect and the time at the present point is counted. An input warning above 36 V counts, holds the duty to 4 at once, also before READY, and, after READY at a point above P0, or on the way to one, with moves allowed, turns the region to P0; its end gives the duty back. A calibration stores the readings, starts the next sum of estimates and moves K by at most 1 %. A thermal sample stores the 64 readings; one of 115 °C or more asserts THERM_TRIP_N; a quarter with a sensor at 105 °C that is at a step boundary and not in reset is quiesced; with every sensor below 105 °C and none due, none is. A quiesced quarter that has been cool for 10 ms asks for its alignment. Completion is the conclusion here for GOVERNOR_SAMPLE, VIN_WARNING, VIN_WARNING_END, CALIBRATION_UPDATE, THERMAL_SAMPLE, THERMAL_RESUME. -/
def Obligations.GovernorSupplyAndHeat : Prop :=
  (∀ (s : State) (e : EnergyEst), s.tick % 8000 ≠ 0 ∨ s.pwr.sampleTick = some s.tick ∨ s.pwr.vInt = false →
    exec (.governorSample e) s = .next s) ∧
  (∀ (s : State) (e : EnergyEst), s.tick % 8000 = 0 → s.pwr.sampleTick ≠ some s.tick → s.pwr.vInt = true →
    ∃ t, exec (.governorSample e) s = .next t ∧ t.pwr.sampleTick = some s.tick ∧
      sget 0 t.pwr.energy 0 = sget 0 s.pwr.energy 0 + s.pwr.k * (e.q0 : Rat) / 1000 ∧
      sget 0 t.pwr.energy 1 = sget 0 s.pwr.energy 1 + s.pwr.k * (e.q1 : Rat) / 1000 ∧
      sget 0 t.pwr.energy 2 = sget 0 s.pwr.energy 2 + s.pwr.k * (e.q2 : Rat) / 1000 ∧
      sget 0 t.pwr.energy 3 = sget 0 s.pwr.energy 3 + s.pwr.k * (e.q3 : Rat) / 1000 ∧
      sget 0 t.pwr.energy 4 = sget 0 s.pwr.energy 4 + s.pwr.k * (e.shared : Rat) / 1000 ∧
      (s.boot.phase = .ready →
        t.pwr.p = s.pwr.k * ((e.q0 + e.q1 + e.q2 + e.q3 + e.shared : Nat) : Rat) / 10000 ∧
        t.pwr.u = s.pwr.u + (t.pwr.p - s.pwr.u) / 5000 ∧ t.pwr.win = (t.pwr.p :: s.pwr.win).take 200 ∧ t.pwr.allotNow = s.pwr.allot ∧
        sget 0 t.pwr.pointTens s.clk.point.toNat = sget 0 s.pwr.pointTens s.clk.point.toNat + 1)) ∧
  (∀ s : State, s.pwr.vinWarn = false → s.pwr.vinHigh = true →
    ∃ t, exec .vinWarning s = .next t ∧ t.pwr.vinWarn = true ∧ t.pwr.warnCount = satInc s.pwr.warnCount ∧
      t.pwr.savedDuty = s.pwr.duty ∧ t.pwr.duty.toNat = min 4 s.pwr.duty.toNat ∧
      (s.boot.phase = .ready → 0 < s.clk.point.toNat ∨ 0 < aimPoint s → movesAllowed s = true →
        t.clk.moving = true ∧ t.clk.target = 0)) ∧
  (∀ s : State, s.pwr.vinWarn = true →
    ∃ t, exec .vinWarningEnd s = .next t ∧ t.pwr.vinWarn = false ∧ t.pwr.recovered = true ∧ t.pwr.duty = s.pwr.savedDuty) ∧
  (∀ (s : State) (v i : BitVec 16) (m : Nat), 0 ≤ s.pwr.k →
    ∃ t, exec (.calibrationUpdate v i m) s = .next t ∧ t = { s with pwr := t.pwr, free := t.free } ∧ t.pwr.vinMv = v ∧
      t.pwr.iinMa = i ∧ t.pwr.estMs = 0 ∧ 99 / 100 * s.pwr.k ≤ t.pwr.k ∧ t.pwr.k ≤ 101 / 100 * s.pwr.k) ∧
  (∀ (s : State) (l : List (BitVec 16)), l.length = 64 →
    ∃ t, exec (.thermalSample l) s = .next t ∧ (∀ i, i < 64 → sget 0 t.pwr.temp i = l.getD i 0) ∧
      (∀ q, q < 4 → (∃ i, i < 16 ∧ 1680 ≤ (l.getD (16 * q + i) 0).toInt) → atBoundary s q = true → (s.quarter q).inReset = false →
        bit t.pwr.quiesced q = true) ∧
      ((∃ i, i < 64 ∧ 1840 ≤ (l.getD i 0).toInt) → t.pins.thermTrip = true) ∧
      ((∀ i, i < 64 → (l.getD i 0).toInt < 1680) → s.pwr.quiesceDue = 0 →
        t.pwr.quiesced = s.pwr.quiesced ∧ t.quarters = s.quarters ∧ t.zones = s.zones)) ∧
  (∀ (s : State) (q : Fin 4),
    let ok := bit s.pwr.quiesced q = true ∧ cooled s q = true ∧ (s.quarter q).inReset = false ∧ (s.align q).phase = 0
    (ok → ∃ t, exec (.thermalResume q) s = .next t ∧ (t.align q).phase = 1 ∧ (t.align q).firmware = false ∧ t.pwr = s.pwr) ∧
    (¬ok → exec (.thermalResume q) s = .next s))

/-- Once an hour, not before, AGE_UPDATE adds to every weight stack's age the weight of its quarter's hottest reading of the hour and starts the next hour; an hour at 85 °C weighs one hour and one at 95 °C two. The wear table is written every 168 hours, to the other block, which counts a program, with the drone time. While no commit is in progress: a refresh whose block is copied without error is marked copied, its page still mapped as before; of an uncorrectable granule the partner's copy is taken where a SEALED partner in the mirrored layout has the page, else the refresh is abandoned and the mapping stays. At a step boundary a copied page that still maps to the old block goes to its new one and the old one waits for its reads; away from a boundary, or during a commit, nothing changes. Old blocks that no read names wait no more, the others still do. A trained work stack notes its refresh; after 24 hours its scrub, adding the corrections. Completion is the conclusion here for AGE_UPDATE, WEAR_TABLE_WRITE, REFRESH_COPY_DONE, REFRESH_REMAP, OLD_BLOCK_RELEASE, KS_REFRESH, KS_SCRUB. -/
def Obligations.StackWearAndRefresh : Prop :=
  hourWeight 1360 = 2 ^ 64 ∧ hourWeight 1520 = 2 ^ 65 ∧
  (∀ s : State,
    (s.tick < s.pwr.ageTick + hourTicks → exec .ageUpdate s = .next s) ∧
    (s.pwr.ageTick + hourTicks ≤ s.tick →
      ∃ t, exec .ageUpdate s = .next t ∧ t.pwr = { s.pwr with hourMax := [], ageTick := s.tick } ∧
        ∀ k, k < 8 → (t.wst k).ageSum = (s.wst k).ageSum + hourWeight (sget 0 s.pwr.hourMax (k / 2)) ∧ (t.wst k).table = (s.wst k).table)) ∧
  (∀ (s : State) (k : Fin 8),
    (s.tick < (s.wst k).wearTick + 168 * hourTicks → exec (.wearTableWrite k) s = .next s) ∧
    ((s.wst k).wearTick + 168 * hourTicks ≤ s.tick → (s.wst k).wearBlock = 1 ∨ (s.wst k).wearBlock = 2 →
      let n := if (s.wst k).wearBlock = 1 then 2 else 1
      ∃ t, exec (.wearTableWrite k) s = .next t ∧ t = { s with ws := t.ws } ∧
        t.wst k = { s.wst k with wearBlock := n, wearTime := s.clk.count, wearAge := (s.wst k).ageSum, wearTick := s.tick,
                                 blocks := (t.wst k).blocks } ∧
        (sget .init (t.wst k).blocks n).programs = satInc (sget .init (s.wst k).blocks n).programs ∧
        (∀ b, b ≠ n → sget .init (t.wst k).blocks b = sget .init (s.wst k).blocks b) ∧ ∀ j, j ≠ k.val → t.wst j = s.wst j)) ∧
  (∀ (s : State) (k : Fin 8) (g : Fin 16384) (p : List (Fin 16384 × ReadErr)) (r : Refresh), (s.wst k).refresh = some r → r.copied = false →
    (s.wst k).commit = none →
    (∃ t, exec (.refreshCopyDone k [] p) s = .next t ∧ t = { s with ws := t.ws } ∧
      t.wst k = { s.wst k with mem := (t.wst k).mem, refresh := some { r with copied := true } }) ∧
    (partnerServes s k = false → ∃ t, exec (.refreshCopyDone k [(g, .uncorrectable)] p) s = .next t ∧ (t.wst k).refresh = none ∧
      (t.wst k).table = (s.wst k).table ∧ (t.wst k).uncorr = satInc (s.wst k).uncorr) ∧
    (partnerServes s k = true → sget 0 (s.wst (partner k)).table r.page ≠ 0 →
      ∃ t, exec (.refreshCopyDone k [(g, .uncorrectable)] []) s = .next t ∧ (t.wst k).refresh = some { r with copied := true } ∧
        (t.wst k).table = (s.wst k).table ∧ (t.wst k).uncorr = satInc (s.wst k).uncorr)) ∧
  (∀ (s : State) (k : Fin 8) (r : Refresh), (s.wst k).refresh = some r → r.copied = true →
    (atBoundary s (k.val / 2) = false ∨ (s.wst k).commit ≠ none → exec (.refreshRemap k) s = .next s) ∧
    (atBoundary s (k.val / 2) = true → (s.wst k).commit = none → sget 0 (s.wst k).table r.page = r.old →
      ∃ t, exec (.refreshRemap k) s = .next t ∧
      (t.wst k).releasing = (s.wst k).releasing ++ [r.old] ∧ sget 0 (t.wst k).table r.page = r.new ∧
      ∀ p, p ≠ r.page → sget 0 (t.wst k).table p = sget 0 (s.wst k).table p) ∧
    (atBoundary s (k.val / 2) = true → (s.wst k).commit = none → sget 0 (s.wst k).table r.page ≠ r.old →
      ∃ t, exec (.refreshRemap k) s = .next t ∧ (t.wst k).releasing = (s.wst k).releasing ∧ (t.wst k).table = (s.wst k).table)) ∧
  (∀ (s : State) (k : Fin 8), ∃ t, exec (.oldBlockRelease k) s = .next t ∧ t = { s with ws := t.ws } ∧
    (t.wst k).releasing = (s.wst k).releasing.filter (readsOn s k) ∧ (t.wst k).table = (s.wst k).table) ∧
  (∀ (s : State) (k : Fin 4), (s.kst k).trained = true →
    (∃ t, exec (.ksRefresh k) s = .next t ∧ t = { s with ks := t.ks } ∧ t.kst k = { s.kst k with refreshTick := s.tick }) ∧
    (∀ n, (s.kst k).scrubTick + 24 * hourTicks ≤ s.tick → ∃ t, exec (.ksScrub k n) s = .next t ∧ t = { s with ks := t.ks, full := t.full } ∧
      t.kst k = { s.kst k with scrubTick := s.tick, corr := satAdd (s.kst k).corr n }) ∧
    (∀ n, s.tick < (s.kst k).scrubTick + 24 * hourTicks → exec (.ksScrub k n) s = .next s))

/-- With a STACK_COMMIT of its kind for the stack in turn on a queue, it leaves the queue's waiting descriptors, and, where no descriptor of the queue runs, malformed ones behind it whose turn has come go with it; a commit that waited for its quarter's reset is taken while a descriptor behind it runs (R366). Rejected with an error, it leaves every stack's page table, both copies in blocks 3 and 4, the image state and the commit in progress as they are and sets the stack's ERROR to the error (that a rejection sets ERROR is log 72's reading; that a RESUME's source address holds the byte at the journal's position is log 71's). Accepted, FULL leaves each of its stacks unsealed, SEALED of the active copy cleared, with an empty page table and an empty journal, under a full commit at position 0. DELTA never changes a page table or a manifest in force: accepted, it ends waiting for its switch, or has failed; a data source that does not answer fails it. RESUME, where the page at the journal's position reads without error, goes on under a resumed commit at that position with the hash state restored, or fails with ERROR 5 where no block is left for that page. Completion is the conclusion here for FULL, DELTA, RESUME. -/
def Obligations.CommitsBeginAndAreRejected : Prop :=
  (∀ (s : State) (k : Fin 8) (n : Nat) (d : Desc), nextCommit s k 0 = some (n, d) →
    let m := readManifest s (dBytes d.row 16 8)
    ∃ t, exec (.full k) s = .next t ∧ (t.queue n).ready = (if (s.queue n).run = none then turned s ((s.queue n).ready.erase d) else (s.queue n).ready.erase d) ∧
      (commitError (takeCommit s n d) k 0 m [] = 0 → ∀ j ∈ commitStacks k m.layout,
        (t.wst j).image = 2 ∧ (t.wst j).table = [] ∧ (t.wst j).jValid = false ∧ (t.wst j).journal = [] ∧ (t.wst j).op = 1 ∧
        (activeCopy (s.wst j) ≠ 0 → (copyAt (t.wst j) (activeCopy (s.wst j))).sealed = false) ∧
        ∃ c, (t.wst j).commit = some c ∧ c.kind = 0 ∧ c.pos = 0 ∧ c.manifest = m) ∧
      (commitError (takeCommit s n d) k 0 m [] ≠ 0 →
        (t.wst k).jError = BitVec.ofNat 8 (commitError (takeCommit s n d) k 0 m []) ∧
        ∀ j, (t.wst j).commit = (s.wst j).commit ∧ (t.wst j).table = (s.wst j).table ∧ (t.wst j).copyA = (s.wst j).copyA ∧ (t.wst j).copyB = (s.wst j).copyB ∧
          (t.wst j).image = (s.wst j).image)) ∧
  (∀ (s : State) (k : Fin 8) (n : Nat) (d : Desc) (src : Bool) (x : Reads), nextCommit s k 1 = some (n, d) →
    let m := readManifest s (dBytes d.row 16 8)
    let l := (upto (dBytes d.row 40 2)).map fun i => readNat s.host (dBytes d.row 32 8 + 2 * i) 2
    ∃ t, exec (.delta k src x) s = .next t ∧ (t.queue n).ready = (if (s.queue n).run = none then turned s ((s.queue n).ready.erase d) else (s.queue n).ready.erase d) ∧
      (∀ j, (t.wst j).table = (s.wst j).table ∧ (t.wst j).manifest = (s.wst j).manifest ∧ (t.wst j).image = (s.wst j).image) ∧
      (commitError (takeCommit s n d) k 1 m l = 0 →
        ((t.wst k).switchWait = true ∧ (t.wst k).op = 2) ∨ ((t.wst k).commit = none ∧ (t.wst k).jError ≠ 0)) ∧
      (commitError (takeCommit s n d) k 1 m l = 0 → src = false → (t.wst k).commit = none ∧ (t.wst k).jError = 7) ∧
      (commitError (takeCommit s n d) k 1 m l ≠ 0 →
        (t.wst k).jError = BitVec.ofNat 8 (commitError (takeCommit s n d) k 1 m l) ∧
        ∀ j, (t.wst j).copyA = (s.wst j).copyA ∧ (t.wst j).copyB = (s.wst j).copyB ∧ (t.wst j).commit = (s.wst j).commit)) ∧
  (∀ (s : State) (k : Fin 8) (n : Nat) (d : Desc), nextCommit s k 2 = some (n, d) →
    let m := readManifest s (dBytes d.row 16 8)
    ∃ t, exec (.resume k [] []) s = .next t ∧ (t.queue n).ready = (if (s.queue n).run = none then turned s ((s.queue n).ready.erase d) else (s.queue n).ready.erase d) ∧
      (commitError (takeCommit s n d) k 2 m [] = 0 → (∃ j ∈ commitStacks k m.layout, resumeRoom (s.wst j) = false) →
        (t.wst k).commit = none ∧ (t.wst k).jError = 5) ∧
      (commitError (takeCommit s n d) k 2 m [] = 0 → (∀ j ∈ commitStacks k m.layout, resumeRoom (s.wst j) = true) →
        (t.wst k).op = 1 ∧ ∃ c, (t.wst k).commit = some c ∧ c.kind = 2 ∧ c.pos = (lastRecord (s.wst k)).k ∧
          c.hash = (lastRecord (s.wst k)).hash ∧ c.manifest = m) ∧
      (commitError (takeCommit s n d) k 2 m [] ≠ 0 →
        (t.wst k).jError = BitVec.ofNat 8 (commitError (takeCommit s n d) k 2 m []) ∧
        ∀ j, (t.wst j).commit = (s.wst j).commit ∧ (t.wst j).table = (s.wst j).table ∧ (t.wst j).copyA = (s.wst j).copyA ∧ (t.wst j).copyB = (s.wst j).copyB ∧
          (t.wst j).image = (s.wst j).image))

/-- JOURNAL_RECORD in a full or resumed commit with a whole gigabyte left: where the data source reads, programming and verification succeed, each of its stacks has one more journal record, one gigabyte further, with the manifest's SHA-384, the hash state and a closed check word, and the commit's position follows; where they fail, or the data source does not answer, the commit is over in each of its stacks with the error kept (log 93: a mirrored pair's two stacks act in one command; log 132: the byte order of a digest). COMMIT_SEAL with less than a gigabyte left: the commit is over in every one of its stacks, with error 7 or that of the programming kept; where the rest programs and verifies and the manifest, newer than that of the active copy, verifies again, every one of its stacks is SEALED under the manifest, SEALED stands in the active copy and the commit is over; where the manifest does not verify again, the commit is over with error 1 and neither copy nor the image state has changed. DELTA_SWITCH changes nothing before the step boundary; there the inactive copy is closed, its page table and manifest become those in force in every one of the commit's stacks, the blocks left wait for their reads, and the commit is over. Completion is the conclusion here for JOURNAL_RECORD, COMMIT_SEAL, DELTA_SWITCH. -/
def Obligations.CommitsProgressSealAndSwitch : Prop :=
  (∀ (s : State) (k : Fin 8) (c : Commit) (x : Reads), leadCommit s k = some c → c.kind ≠ 1 →
    15625000 * (c.pos + 1) ≤ c.manifest.rows.toNat →
    (∃ t, exec (.journalRecord k false x) s = .next t ∧
      ∀ j ∈ commitStacks k c.manifest.layout, (t.wst j).commit = none ∧ (t.wst j).jError = 7) ∧
    ((sourceRead s (k.val / 2) c.src true x).1 = true →
      let r := programAll (sourceRead s (k.val / 2) c.src true x).2 k c (15625000 * c.pos) (15625000 * (c.pos + 1))
      ∃ t, exec (.journalRecord k true x) s = .next t ∧
      (r.1 = 0 → ∀ j ∈ commitStacks k c.manifest.layout,
        (t.wst j).jValid = true ∧ ∃ e, (t.wst j).journal = (s.wst j).journal ++ [e] ∧ e.k = c.pos + 1 ∧
          e.digest = manifestDigest c.manifest ∧ e.check = true ∧
          ((s.wst j).commit ≠ none → ∃ d, (t.wst j).commit = some d ∧ d.pos = c.pos + 1 ∧ e.hash = d.hash)) ∧
      (r.1 ≠ 0 → ∀ j ∈ commitStacks k c.manifest.layout, (t.wst j).commit = none ∧ (t.wst j).jError = BitVec.ofNat 8 r.1))) ∧
  (∀ (s : State) (k : Fin 8) (c : Commit) (x : Reads), leadCommit s k = some c → c.kind ≠ 1 →
    c.manifest.rows.toNat < 15625000 * (c.pos + 1) →
    let r0 := if 15625000 * c.pos < c.manifest.rows.toNat then sourceRead s (k.val / 2) c.src true x else (true, s)
    let r := programAll r0.2 k c (15625000 * c.pos) c.manifest.rows.toNat
    ∃ t, exec (.commitSeal k true x) s = .next t ∧ (∀ j ∈ commitStacks k c.manifest.layout, (t.wst j).commit = none) ∧
      (r0.1 = false → ∀ j ∈ commitStacks k c.manifest.layout, (t.wst j).jError = 7) ∧
      (r0.1 = true → r.1 ≠ 0 → ∀ j ∈ commitStacks k c.manifest.layout, (t.wst j).jError = BitVec.ofNat 8 r.1) ∧
      (r0.1 = true → r.1 = 0 → manifestVerifies r.2 c.manifest = true →
        (∀ j ∈ commitStacks k c.manifest.layout, activeCopy (s.wst j) ≠ 0 →
          (copyAt (s.wst j) (activeCopy (s.wst j))).seq < c.manifest.seq.toNat) →
        ∀ j ∈ commitStacks k c.manifest.layout,
          (t.wst j).image = 1 ∧ (copyAt (t.wst j) (activeCopy (t.wst j))).sealed = true ∧ (t.wst j).manifest = some c.manifest ∧
          (t.wst j).op = 0 ∧ (t.wst j).jError = 0) ∧
      (r0.1 = true → r.1 = 0 → manifestVerifies r.2 c.manifest = false →
        (t.wst k).jError = 1 ∧ (t.wst k).image = (s.wst k).image ∧ (t.wst k).copyA = (s.wst k).copyA ∧ (t.wst k).copyB = (s.wst k).copyB)) ∧
  (∀ (s : State) (k : Fin 8) (c : Commit), leadCommit s k = some c → c.kind = 1 → (s.wst k).switchWait = true →
    (atBoundary s (k.val / 2) = false → exec (.deltaSwitch k) s = .next s) ∧
    (atBoundary s (k.val / 2) = true →
      ∃ t, exec (.deltaSwitch k) s = .next t ∧
        ∀ j ∈ commitStacks k c.manifest.layout,
          let new := copyAt (s.wst j) (inactiveCopy (s.wst j))
          (t.wst j).table = new.table ∧ (t.wst j).manifest = new.manifest ∧
          copyAt (t.wst j) (inactiveCopy (s.wst j)) = { new with check := true } ∧
          (t.wst j).commit = none ∧ (t.wst j).switchWait = false ∧
          (∀ e ∈ (s.wst j).table, e ∉ new.table → e.2 ∈ (t.wst j).releasing)))

/-- ARRIVE of n without LAST, at a piton that is neither DONE nor in error: below the target, or with no target yet, COUNT gains n, and nothing else of the piton changes but the tick kept for the quarter whose stream has had it counted; on reaching the target the piton is DONE, each waiter is sent one COMPLETE notification in its form and all are gone; above the target it is in OVERRUN with cause 1, each waiter is sent OVERRUN and all are gone. An arrival with LAST at a piton without a target gives it TOTAL as its target. PROXY_ARRIVE at a piton that no proxy has reached sets FENCED_SEEN, sends each waiter FENCED and removes it, and counts too. Completion is the conclusion here for ARRIVE, PROXY_ARRIVE. -/
def Obligations.ArrivalsCount : Prop :=
  (∀ (s : State) (q : Fin 4) (m : PitMsg), TakesOp s q 0 m → m.last = false →
    (s.piton m.piton.toNat).done = false → (s.piton m.piton.toNat).overrun = false →
    (s.piton m.piton.toNat).count.toNat + fld m.inl 0 32 < 2 ^ 32 →
    ∃ t, exec (.arrive q) s = .next t ∧
      (t.piton m.piton.toNat).count.toNat = (s.piton m.piton.toNat).count.toNat + fld m.inl 0 32 ∧
      ((s.piton m.piton.toNat).tgtValid = false ∨
          (s.piton m.piton.toNat).count.toNat + fld m.inl 0 32 < (s.piton m.piton.toNat).target.toNat →
        t.piton m.piton.toNat = { s.piton m.piton.toNat with count := (t.piton m.piton.toNat).count,
                                                             counted := (t.piton m.piton.toNat).counted } ∧
        t.fab = s.fab ∧
        ∀ k, sget none (t.piton m.piton.toNat).counted k =
          if m.by_ = some k then some s.tick else sget none (s.piton m.piton.toNat).counted k) ∧
      ((s.piton m.piton.toNat).tgtValid = true →
          (s.piton m.piton.toNat).count.toNat + fld m.inl 0 32 = (s.piton m.piton.toNat).target.toNat →
        (t.piton m.piton.toNat).done = true ∧ (t.piton m.piton.toNat).waiters = [] ∧
        Notified s t m.piton.toNat (t.piton m.piton.toNat) (s.piton m.piton.toNat).waiters 0) ∧
      ((s.piton m.piton.toNat).tgtValid = true →
          (s.piton m.piton.toNat).target.toNat < (s.piton m.piton.toNat).count.toNat + fld m.inl 0 32 →
        (t.piton m.piton.toNat).overrun = true ∧ (t.piton m.piton.toNat).cause = 1 ∧ (t.piton m.piton.toNat).done = false ∧
        (t.piton m.piton.toNat).waiters = [] ∧
        Notified s t m.piton.toNat (t.piton m.piton.toNat) (s.piton m.piton.toNat).waiters 2)) ∧
  (∀ (s : State) (q : Fin 4) (m : PitMsg), TakesOp s q 0 m → m.last = true →
    (s.piton m.piton.toNat).done = false → (s.piton m.piton.toNat).overrun = false →
    (s.piton m.piton.toNat).tgtValid = false → (s.piton m.piton.toNat).count.toNat + fld m.inl 0 32 < 2 ^ 32 →
    ∃ t, exec (.arrive q) s = .next t ∧ (t.piton m.piton.toNat).tgtValid = true ∧ (t.piton m.piton.toNat).target = m.total ∧
      ((t.piton m.piton.toNat).done = true ↔ (s.piton m.piton.toNat).count.toNat + fld m.inl 0 32 = m.total.toNat) ∧
      ((t.piton m.piton.toNat).done = true →
        Notified s t m.piton.toNat (t.piton m.piton.toNat) (s.piton m.piton.toNat).waiters 0)) ∧
  (∀ (s : State) (q : Fin 4) (m : PitMsg), TakesOp s q 4 m → m.last = false →
    (s.piton m.piton.toNat).fenced = false → (s.piton m.piton.toNat).done = false → (s.piton m.piton.toNat).overrun = false →
    (s.piton m.piton.toNat).tgtValid = false → (s.piton m.piton.toNat).count.toNat + fld m.inl 0 32 < 2 ^ 32 →
    ∃ t, exec (.proxyArrive q) s = .next t ∧ (t.piton m.piton.toNat).fenced = true ∧ (t.piton m.piton.toNat).waiters = [] ∧
      Notified s t m.piton.toNat { s.piton m.piton.toNat with fenced := true } (s.piton m.piton.toNat).waiters 1 ∧
      (t.piton m.piton.toNat).count.toNat = (s.piton m.piton.toNat).count.toNat + fld m.inl 0 32)

/-- SET_TARGET with CLEAR and a target above 0 resets COUNT and the error and sets the target, the waiters staying; a second target that differs, without CLEAR, is an OVERRUN with cause 3. WAIT at a piton neither complete nor fenced nor in error registers while fewer than four waiters are there, and is refused and counted when there are four. CHAIN with N above 0 sets the chain, which has then fired exactly where the piton is complete or fenced and not in error (log 21); N = 0 removes it. READ answers its sender and changes no piton. CLEAR_ALL in a halted quarter returns every piton of the quarter to its reset values. Completion is the conclusion here for SET_TARGET, WAIT, CHAIN, PITON_READ, CLEAR_ALL. -/
def Obligations.PitonControlCompletes : Prop :=
  (∀ (s : State) (q : Fin 4) (m : PitMsg), TakesOp s q 1 m → bit m.arg 0 = true → bit m.arg 2 = false → 0 < fld m.inl 0 32 →
    ∃ t, exec (.setTarget q) s = .next t ∧ (t.piton m.piton.toNat).count = 0 ∧ (t.piton m.piton.toNat).tgtValid = true ∧
      (t.piton m.piton.toNat).target.toNat = fld m.inl 0 32 ∧ (t.piton m.piton.toNat).done = false ∧
      (t.piton m.piton.toNat).overrun = false ∧ (t.piton m.piton.toNat).fenced = false ∧
      (t.piton m.piton.toNat).remote = bit m.arg 1 ∧ (t.piton m.piton.toNat).waiters = (s.piton m.piton.toNat).waiters) ∧
  (∀ (s : State) (q : Fin 4) (m : PitMsg), TakesOp s q 1 m → bit m.arg 0 = false →
    (s.piton m.piton.toNat).tgtValid = true → (s.piton m.piton.toNat).overrun = false →
    fld m.inl 0 32 ≠ (s.piton m.piton.toNat).target.toNat →
    ∃ t, exec (.setTarget q) s = .next t ∧ (t.piton m.piton.toNat).overrun = true ∧ (t.piton m.piton.toNat).cause = 3 ∧
      (t.piton m.piton.toNat).target = (s.piton m.piton.toNat).target) ∧
  (∀ (s : State) (q : Fin 4) (m : PitMsg), TakesOp s q 2 m →
    (s.piton m.piton.toNat).done = false → (s.piton m.piton.toNat).overrun = false → (s.piton m.piton.toNat).fenced = false →
    ∃ t, exec (.wait q) s = .next t ∧
      ((s.piton m.piton.toNat).waiters.length < 4 →
        ∃ w, (t.piton m.piton.toNat).waiters = (s.piton m.piton.toNat).waiters ++ [w] ∧ w.mode = m.arg.extractLsb' 0 2 ∧
          w.tag = m.inl.extractLsb' 32 32 ∧ w.src = m.src) ∧
      (4 ≤ (s.piton m.piton.toNat).waiters.length →
        t.piton m.piton.toNat = s.piton m.piton.toNat ∧
        (t.pitQ (pitonQuarter m.piton.toNat)).refused = satInc (s.pitQ (pitonQuarter m.piton.toNat)).refused)) ∧
  (∀ (s : State) (q : Fin 4) (m : PitMsg), TakesOp s q 3 m →
    ∃ t, exec (.chain q) s = .next t ∧
      (fld m.inl 17 15 = 0 → (t.piton m.piton.toNat).chained = false) ∧
      (0 < fld m.inl 17 15 → (t.piton m.piton.toNat).chained = true ∧ (t.piton m.piton.toNat).chainPiton.toNat = fld m.inl 0 17 ∧
        (t.piton m.piton.toNat).chainN.toNat = fld m.inl 17 15 ∧
        ((t.piton m.piton.toNat).fired =
          (((s.piton m.piton.toNat).done || (s.piton m.piton.toNat).fenced) && !(s.piton m.piton.toNat).overrun)))) ∧
  (∀ (s : State) (q : Fin 4) (m : PitMsg), TakesOp s q 5 m →
    ∃ t, exec (.pitonRead q) s = .next t ∧ t.pitons = s.pitons ∧
      ∃ h, sget [] t.fab.localq (8 * pitonQuarter m.piton.toNat + 7) = sget [] s.fab.localq (8 * pitonQuarter m.piton.toNat + 7) ++ [(h, [])] ∧
        hKind h = 3 ∧ hDest h = m.src.toNat ∧ hArg h = 5 * 2 ^ 28) ∧
  (∀ (s : State) (p : WinPort) (q : Fin 4), Writable s (0xA001C + 0x40 * q.val) → quarterHalted s q = true →
    ∃ t, exec (.clearAll p q) s = .next t ∧ (∀ i, pitonQuarter i = q.val → t.piton i = Piton.init) ∧
      (∀ i, pitonQuarter i ≠ q.val → t.piton i = s.piton i))

/-- An operation with a reserved OP, PV = 0, LEN above 0 or a nonzero reserved operand, taken by the row of its OP (a reserved OP by ARRIVE's), is discarded and counted in BAD_OP: nothing else of the state changes but what the tick keeps of that counter, so no piton, table or packet. -/
def Obligations.MalformedPitonOperationIsCounted : Prop :=
  ∀ (s : State) (q : Fin 4) (m : PitMsg), firstOp (s.pitQ q).inbox = some m → pitBad m = true →
    let counted (c : Instr) : Prop := ∃ t, exec c s = .next t ∧ t = { s with pitq := t.pitq, full := t.full } ∧
      t.pitQ q = { s.pitQ q with badOp := satInc (s.pitQ q).badOp, inbox := (s.pitQ q).inbox.erase m } ∧
      ∀ k, k ≠ q.val → t.pitQ k = s.pitQ k
    (m.op = 0 ∨ 6 ≤ m.op.toNat → counted (.arrive q)) ∧ (m.op = 1 → counted (.setTarget q)) ∧ (m.op = 2 → counted (.wait q)) ∧
      (m.op = 3 → counted (.chain q)) ∧ (m.op = 4 → counted (.proxyArrive q)) ∧ (m.op = 5 → counted (.pitonRead q))

/-- V_AUX coming up holds an unpowered region in reset. The rise of V_IN_40 asserts ALERT_N before READY and changes only that, the supply bit and the tick of the rise; the hold-up capacitor full starts the rails of a region in bring-up; THERM_TRIP_N is driven from 2 ms after the rise on, not before; a reading of 115 °C or more trips and stores the reading, a lower one changes nothing. RST_REGION_N rising starts bring-up of a held region that no power-fail holds: ACQUIRING, the drone loop started at this tick, the rails started where V_IN is good; a region that a power-fail holds only sees the pin, and begins at the power-fail's release, once V_IN_40 has been back for 1 ms and the pin is high. A rail late past its bound, or step 1 or 2 past 20 ms, leaves bring-up FAILED with its cause in the status, and step 6 past 40 ms with cause 6. Step 3 past 10 ms fails with cause 4 where the store is late, or holds a word below 0x080 that does not read, and else with 5 where the firmware check is late. Step 4 or 5 past 1 ms fails the quarters that are not through, in step 5 all where the check has named none, and step 7 past 90 ms fails those whose stacks are late: each goes into reset with its chanters, and bring-up goes on, FAILED with cause 7 only where all four have failed. Which cause step 3 gives, and which quarters steps 4, 5 and 7 fail, is the model's choice (log 88): R389 gives a late step its cause, or a quarter failure, and does not say which. Step 8 past 10 ms ends in READY. Before its bound none of the steps 1 to 8 and no rail does anything, step 8 while a link still trains. Completion is the conclusion here for V_AUX_ON, VIN_RISE, VIN_GOOD, THERM_TRIP_VALID, THERM_TRIP, BRINGUP_START, POWER_FAIL_RELEASE, RAIL_START_TIMEOUT, BRINGUP_STEP_TIMEOUT. -/
def Obligations.SupplyPinsAndBringup : Prop :=
  (∀ s : State, s.boot.phase = .unpowered →
    exec .vAuxOn s = .next { s with boot := { s.boot with phase := .held }, pins := { s.pins with vAux := true } }) ∧
  (∀ s : State, s.pwr.vinHigh = false →
    ∃ t, exec .vinRise s = .next t ∧ t = { s with pwr := { s.pwr with vinHigh := true, vinTick := some s.tick }, pins := { s.pins with alert := t.pins.alert } } ∧
      (s.boot.phase ≠ .ready → t.pins.alert = true)) ∧
  (∀ s : State, s.pwr.vinHigh = true → s.pwr.vinGood = false →
    ∃ t, exec .vinGood s = .next t ∧ t = { s with pwr := t.pwr } ∧ t.pwr.vinGood = true ∧
      (s.boot.phase = .bringup → s.boot.isWarm = false → t.pwr.softStart = some s.tick) ∧
      (s.boot.phase ≠ .bringup → t.pwr.softStart = s.pwr.softStart)) ∧
  (∀ (s : State) (b : Nat), s.pwr.vinTick = some b →
    (b + 1600000 ≤ s.tick → exec .thermTripValid s = .next { s with pins := { s.pins with thermValid := true } }) ∧
    (s.tick < b + 1600000 → exec .thermTripValid s = .next s)) ∧
  (∀ (s : State) (i : Fin 64) (r : BitVec 16), 1840 ≤ r.toInt →
    ∃ t, exec (.thermTrip i r) s = .next t ∧ t = { s with pins := { s.pins with thermTrip := true }, pwr := t.pwr } ∧
      sget 0 t.pwr.temp i.val = r ∧ ∀ j, j ≠ i.val → sget 0 t.pwr.temp j = sget 0 s.pwr.temp j) ∧
  (∀ (s : State) (i : Fin 64) (r : BitVec 16), r.toInt < 1840 → exec (.thermTrip i r) s = .next s) ∧
  (∀ (s : State) (e : BootEnv), s.boot.phase = .held → s.pins.rstN = false →
    (s.boot.powerFail = false →
      ∃ t, exec (.bringupStart e) s = .next t ∧ t.boot.phase = .bringup ∧ t.boot.startTick = s.tick ∧ t.boot.env = e ∧
        t.pins.rstN = true ∧ t.clk.drone = .acquiring ∧ t.clk.started = some s.tick ∧ t.clk.count = s.clk.count ∧
        t.pwr.softStart = (if s.pwr.vinGood = true then some s.tick else none)) ∧
    (s.boot.powerFail = true → exec (.bringupStart e) s = .next { s with pins := { s.pins with rstN := true } })) ∧
  (∀ (s : State) (e : BootEnv), s.boot.phase = .held → s.boot.powerFail = true →
    (s.pins.rstN = true → vinBack s = true →
      ∃ t, exec (.powerFailRelease e) s = .next t ∧ t.boot.phase = .bringup ∧ t.boot.powerFail = false ∧
        t.boot.cause = s.boot.cause ∧ t.clk.drone = .acquiring ∧ t.pwr.softStart = (if s.pwr.vinGood = true then some s.tick else none) ∧ t.pins.alert = s.pins.alert) ∧
    (s.pins.rstN = false ∨ vinBack s = false → exec (.powerFailRelease e) s = .next s)) ∧
  (∀ (s : State) (r : Rail) (b : Nat), s.boot.phase = .bringup → s.pwr.softStart = some b → b + railBound r ≤ s.tick →
    (railGood s.pwr r = false →
      ∃ t, exec (.railStartTimeout r) s = .next t ∧ t.boot.phase = .failed ∧ t.boot.fail = 2 ∧ t.boot.step = s.boot.step ∧
        t.clk = s.clk ∧ t.quarters = s.quarters) ∧
    (railGood s.pwr r = true → exec (.railStartTimeout r) s = .next s)) ∧
  (∀ (s : State) (r : Rail) (b : Nat), s.pwr.softStart = some b → s.tick < b + railBound r → exec (.railStartTimeout r) s = .next s) ∧
  (∀ (s : State), s.boot.phase = .bringup →
    (s.boot.step = 0 → s.boot.startTick + 16000000 ≤ s.tick →
      ∃ t, exec (.bringupStepTimeout 1) s = .next t ∧ t.boot.phase = .failed ∧
        t.boot.fail = (if s.pwr.vinGood = true then 2 else 1)) ∧
    (s.boot.step = 1 → s.boot.startTick + 16000000 ≤ s.tick → s.clk.drone = .acquiring →
      ∃ t, exec (.bringupStepTimeout 2) s = .next t ∧ t.boot.phase = .failed ∧ t.boot.fail = 3) ∧
    (s.boot.step = 5 → s.boot.stepTick + 32000000 ≤ s.tick →
      ∃ t, exec (.bringupStepTimeout 6) s = .next t ∧ t.boot.phase = .failed ∧ t.boot.fail = 6) ∧
    (s.boot.step = 2 → s.boot.stepTick + 8000000 ≤ s.tick →
      (s.boot.env.pstLate = true → ∃ t, exec (.bringupStepTimeout 3) s = .next t ∧ t.boot.phase = .failed ∧ t.boot.fail = 4) ∧
      (s.boot.env.pstLate = false → s.boot.env.fwLate = true →
        ∃ t, exec (.bringupStepTimeout 3) s = .next t ∧ t.boot.phase = .failed ∧
          t.boot.fail = (if s.boot.env.pstBad.any (fun w => decide (w.val < 0x080)) then 4 else 5))) ∧
    (s.boot.step = 7 → s.boot.stepTick + 8000000 ≤ s.tick →
      ∃ t, exec (.bringupStepTimeout 8) s = .next t ∧ t.boot.phase = .ready ∧ t.boot.step = 10) ∧
    (s.boot.startTick + 16000000 > s.tick → exec (.bringupStepTimeout 1) s = .next s ∧ exec (.bringupStepTimeout 2) s = .next s) ∧
    (∀ (n : Fin 11) (ms : Nat), (n.val, ms) ∈ [(3, 10), (4, 1), (5, 1), (6, 40), (7, 90)] → s.boot.step.toNat + 1 = n.val →
      s.tick < s.boot.stepTick + 800000 * ms → exec (.bringupStepTimeout n) s = .next s) ∧
    (s.boot.step = 7 → s.tick < s.boot.stepTick + 8000000 → (s.links.any fun l => l.2.state == .training) = true →
      exec (.bringupStepTimeout 8) s = .next s)) ∧
  (∀ (s : State) (lost : Nat → Bool) (n : Fin 11), s.boot.phase = .bringup → s.boot.qfailed ≠ 15 → s.boot.stepTick + 800000 ≤ s.tick →
    (n = 4 ∧ s.boot.step = 3 ∧ (∀ q, lost q = bootUnready s q) ∨
      n = 5 ∧ s.boot.step = 4 ∧ ∀ q, lost q = (bootUnready s q || !(liveQuarters s).any (bootUnready s))) →
    ∃ t, exec (.bringupStepTimeout n) s = .next t ∧
      (∀ q, q < 4 → bit t.boot.qfailed q = (bit s.boot.qfailed q || lost q)) ∧
      (∀ q, q < 4 → bit s.boot.qfailed q = false → lost q = true →
        (t.quarter q).inReset = true ∧ ∀ z, z / 12 = q → (t.chanter z).state = .reset) ∧
      (t.boot.qfailed ≠ 15 → t.boot.phase = .bringup) ∧ (t.boot.qfailed = 15 → t.boot.phase = .failed ∧ t.boot.fail = 7)) ∧
  (∀ s : State, s.boot.phase = .bringup → s.boot.step = 6 → s.boot.qfailed ≠ 15 → s.boot.stepTick + 72000000 ≤ s.tick →
    ∃ t, exec (.bringupStepTimeout 7) s = .next t ∧
      (∀ q, q < 4 → bit s.boot.qfailed q = true ∨ bit s.boot.env.stkLate q = true → bit t.boot.qfailed q = true) ∧
      (t.boot.qfailed ≠ 15 → t.boot.phase ≠ .failed) ∧ (t.boot.qfailed = 15 → t.boot.phase = .failed ∧ t.boot.fail = 7))

/-- A low pulse shorter than 800 ns changes nothing. A pulse of 800 ns or more and less than 1,200 ns, which the wafer must not drive, stops the model by name (a fault of the model's own: R33 gives no effect). From 1,200 ns on the powered region, in reset already or not, is held in a cold reset with the pin low: no rail but V_AUX, the drone loop off, every unit and piton blank; and when the pin returns high, bring-up begins at step 1, with the drone loop acquiring. A region that a power-fail holds begins bring-up at the power-fail's release (R351). Completion is the conclusion here for RST_REGION_LOW. -/
def Obligations.ResetPulseOnThePin : Prop :=
  ∀ (s : State) (ns : Nat),
    (ns < 800 → exec (.rstRegionLow ns) s = .next s) ∧
    (800 ≤ ns → ns < 1200 → exec (.rstRegionLow ns) s = .fault .forbiddenPulse) ∧
    (1200 ≤ ns → s.boot.phase ≠ .unpowered → s.pins.rstN = true →
      ∃ t, exec (.rstRegionLow ns) s = .next t ∧ t.boot.phase = .held ∧ t.boot.step = 0 ∧ t.boot.cause = 1 ∧ t.pins.rstN = false ∧ t.boot.powerFail = s.boot.powerFail ∧
        t.pins.vAux = s.pins.vAux ∧ t.pwr.vInt = false ∧ t.pwr.vIo = false ∧ t.pwr.vSram = false ∧ t.pwr.vStack = false ∧
        t.pwr.coreGood = 0 ∧ t.clk.drone = .off ∧ t.clk.count = 0 ∧ (∀ u, t.unit u = UnitSt.blank) ∧ (∀ i, t.piton i = Piton.init) ∧
        t.host = s.host ∧
        (s.boot.powerFail = false → ∀ e : BootEnv, ∃ v, exec (.bringupStart e) t = .next v ∧ v.boot.phase = .bringup ∧ v.boot.step = 0 ∧
          v.pins.rstN = true ∧ v.clk.drone = .acquiring ∧ v.boot.startTick = t.tick))

/-- QRESET of a READY region's quarter that bring-up did not give up and that is not in reset counts; the quarter is in reset with no fault pending, its zones stopped, its chanters reset but for LOSSES, its units and pitons blank, its work stack's contents kept; units and chanters elsewhere and the drone counter stay, and so do the weight stacks where no commit runs. QRESET_CHANTER_START with no move in progress starts the chanters of its unfenced zones at the region's code and asks for the alignment; in any other stage it changes nothing. WARM through the ring port repeats bring-up from step 3 with cause 2, the drone loop, the drone counter, the energy counters, strikes and rails kept, the weight blocks too where no commit runs, and units, pitons and fault records cleared. A power-fail, of either cause, holds the region in reset with every rail shed and keeps the field record; ALERT_N stays asserted at an overvoltage, where V_IN_40 is still there (log 135, the model's reading); whether THERM_TRIP_N is driven stays as it was (log 115, the model's choice); V_AUX lost leaves it unpowered, the record gone. Completion is the conclusion here for QRESET, QRESET_CHANTER_START, WARM, POWER_FAIL_RESET, OVERVOLTAGE, V_AUX_LOST. -/
def Obligations.ResetsKeepAndClear : Prop :=
  (∀ (s : State) (p : WinPort) (q : Fin 4), Writable s 0x40 → bit s.boot.qfailed q = false → (s.quarter q).inReset = false →
    ∃ t, exec (.qreset p q) s = .next t ∧ t.boot.qresets = satInc s.boot.qresets ∧ bit t.boot.qreset q = true ∧
      t.boot.phase = .ready ∧ (t.quarter q).inReset = true ∧ (t.quarter q).stage = 1 ∧ (t.quarter q).halted = false ∧
      (t.quarter q).faults = [] ∧ (∀ i, (t.kst i).mem = (s.kst i).mem) ∧ ((∀ k, (s.wst k).commit = none) → ∀ k, t.wst k = s.wst k) ∧
      t.clk.count = s.clk.count ∧ t.clk.drone = s.clk.drone ∧ t.host = s.host ∧
      (∀ z, z / 12 = q.val → z < 48 → (t.zone z).running = false ∧
        t.chanter z = { Chanter.init with losses := (s.chanter z).losses }) ∧
      (∀ z, z / 12 ≠ q.val → t.chanter z = s.chanter z) ∧
      (∀ u, physZone u / 12 = q.val → t.unit u = UnitSt.blank) ∧ (∀ u, physZone u / 12 ≠ q.val → t.unit u = s.unit u) ∧
      (∀ i, pitonQuarter i = q.val → t.piton i = Piton.init)) ∧
  (∀ (s : State) (q : Fin 4), (s.quarter q).stage = 1 → s.clk.moving = false →
    ∃ t, exec (.qresetChanterStart q) s = .next t ∧ (t.quarter q).stage = 2 ∧ (t.align q).phase = 1 ∧
      (∀ z, z / 12 = q.val → z < 48 → fenceOut (s.fenceWord z) = false → (s.chanter z).state = .reset →
        512 ≤ s.clk.code.toNat → s.clk.code.toNat ≤ 1215 →
        (t.chanter z).state = .acquiring ∧ (t.chanter z).code = s.clk.code ∧ (t.chanter z).startTick = s.tick) ∧
      (∀ z, z / 12 ≠ q.val → t.chanter z = s.chanter z)) ∧
  (∀ (s : State) (q : Fin 4), (s.quarter q).stage ≠ 1 ∨ s.clk.moving = true → exec (.qresetChanterStart q) s = .next s) ∧
  (∀ (s : State) (e : BootEnv), Writable s 0x40 →
    ∃ t, exec (.warm .ring e) s = .next t ∧ (t.boot.phase = .bringup ∨ t.boot.phase = .failed) ∧ t.boot.isWarm = true ∧
      t.boot.cause = 2 ∧ t.boot.warmCount = satInc s.boot.warmCount ∧ t.boot.qresets = s.boot.qresets ∧
      t.clk.drone = s.clk.drone ∧ t.clk.count = s.clk.count ∧ t.clk.losses = s.clk.losses ∧ t.pwr.energy = s.pwr.energy ∧
      t.pwr.vInt = s.pwr.vInt ∧ t.pwr.coreGood = s.pwr.coreGood ∧ t.flt.struck = s.flt.struck ∧ t.flt.recs = [] ∧
      t.flt.field = s.flt.field ∧ t.host = s.host ∧ (∀ u, t.unit u = UnitSt.blank) ∧ (∀ i, t.piton i = Piton.init) ∧
      ((∀ k, (s.wst k).commit = none) → ∀ k, k < 8 → (t.wst k).mem = (s.wst k).mem ∧ (t.wst k).table = (s.wst k).table) ∧ t.pins.thermTrip = s.pins.thermTrip) ∧
  (∀ (s : State) (c : Instr) (k : BitVec 3), (c, k) ∈ [(Instr.powerFailReset, 3), (Instr.overvoltage, 4)] → s.boot.phase ≠ .unpowered →
    ∃ t, exec c s = .next t ∧ t.boot.phase = .held ∧ t.boot.cause = k ∧ t.boot.powerFail = true ∧ t.clk = Clk.init ∧
      (k = 3 → t.pwr = { Pwr.init with ageTick := s.tick } ∧ t.pins.alert = false) ∧
      (k = 4 → t.pwr = { Pwr.init with ageTick := s.tick, vinHigh := s.pwr.vinHigh, vinGood := s.pwr.vinGood, vinTick := s.pwr.vinTick } ∧
        t.pins.alert = s.pwr.vinHigh) ∧
      t.chanters = [] ∧ t.units = [] ∧ t.pitons = [] ∧ t.pins.thermTrip = false ∧ t.pins.thermValid = s.pins.thermValid ∧
      t.flt.field = s.flt.field ∧ t.host = s.host ∧ (s.pst.held = [] → t.pst.words = s.pst.words) ∧
      ((∀ k, (s.wst k).commit = none) → ∀ i, i < 8 → (t.wst i).mem = (s.wst i).mem)) ∧
  (∀ s : State,
    ∃ t, exec .vAuxLost s = .next t ∧ t.boot.phase = .unpowered ∧ t.boot.cause = 0 ∧ t.flt.field = none ∧ t.pins.vAux = false ∧
      t.pins.thermValid = false ∧ t.pst.busy = [] ∧ t.tap = Tap.init ∧ t.host = s.host ∧
      ((∀ k, (s.wst k).commit = none) → ∀ i, i < 8 → (t.wst i).mem = (s.wst i).mem))

/-- For each row of the descriptor family. A fetched well-formed descriptor joins its queue, and so does a malformed one, which completes BAD_DESCRIPTOR when its turn comes, a malformed SERVE at once; a failed fetch puts the queue in ERROR with cause HOST_FETCH. A pending interrupt whose delay is over is sent. Of a queue that none holds, the first descriptor takes its turn, a STACK_COMMIT for a quarter in reset being passed over (logs 38 and 43 say what is done at once and what else is malformed): NOP completes OK; RUN_GRAPH and LOAD_CONFIG of a quarter in a service or a full commit complete REFUSED, else with ENTRIES they start the plan on the quarter's streamer, and RUN_GRAPH without ENTRIES sends SET_TARGET with CLEAR to its DONE piton, then, unless START_DEST is all ones, its start token to that endpoint, whose TLAST is free (log 22), then a WAIT to DONE; LIMIT microseconds later it completes STEP_TIMEOUT. PITON_OP sends its operation and, but for a WAIT, a READ behind it. COPY moves its bytes between host, work stacks and endpoints, or completes HOST_ERROR where a stack is down, the host does not answer or a line of the source is uncorrectable. QUEUE_FENCE completes once what it awaits is open no more, TIME_MARK once its time has come. SERVE of a running service joins its pending pool, and completes REFUSED or BAD_DESCRIPTOR otherwise. Completion is the conclusion here for DESCRIPTOR_ARRIVAL, IRQ_DELAY_EXPIRE, NOP_DESCRIPTOR, RUN_GRAPH, RUN_GRAPH_TIMEOUT, LOAD_CONFIG, PITON_OP, COPY, QUEUE_FENCE, QUEUE_FENCE_DONE, TIME_MARK, TIME_MARK_REACHED, SERVE. -/
def Obligations.DescriptorsRunAndComplete : Prop :=
  (∀ (s : State) (n : Fin 64) (f : Fetch) (rest : List Fetch), (s.queue n).fetches = f :: rest → (s.queue n).resetting = false →
    (f.data = none → (s.queue n).inError = false →
      ∃ t, exec (.descriptorArrival n false) s = .next t ∧ (t.queue n).inError = true ∧ (t.queue n).error = 3 ∧
        (t.queue n).fetches = [] ∧ (t.queue n).ready = (s.queue n).ready ∧ bit t.flt.summary 0 = true) ∧
    (∀ r : Row, f.data = some [r] → f.count = 1 →
      (∀ e ∈ (s.queue n).ready.takeWhile (fun e => descBad e.row || commitWaits s e.row), descBad e.row = false) →
      ∃ t, exec (.descriptorArrival n true) s = .next t ∧
        (t.queue n).sqHead = BitVec.ofNat 16 (((s.queue n).sqHead.toNat + 1) % sqSize (s.queue n)) ∧
        (descBad r = false → ∃ d, d.row = r ∧ (t.queue n).ready = (s.queue n).ready ++ [d] ∧ d.seq ∈ (t.queue n).open_) ∧
        (descBad r = true → dType r = 3 ∨ (s.queue n).run = none ∧ (∀ e ∈ (s.queue n).ready, commitWaits s e.row = true) →
          (t.queue n).ready = (s.queue n).ready ∧ EntryPosted s t n r (t.queue n).sqHead stBad) ∧
        (descBad r = true → dType r ≠ 3 → (s.queue n).run ≠ none ∨ (∃ e ∈ (s.queue n).ready, commitWaits s e.row = false) →
          ∃ d, d.row = r ∧ (t.queue n).ready = (s.queue n).ready ++ [d] ∧ d.seq ∈ (t.queue n).open_))) ∧
  (∀ (s : State) (n : Fin 64), (s.queue n).irqPend ≠ 0 →
    ((s.queue n).irqTick + us (s.queue n).irqDelay.toNat ≤ s.tick →
      ∃ t, exec (.irqDelayExpire n) s = .next t ∧ (t.queue n).irqPend = 0 ∧
        sget [] t.fab.localq 1 = sget [] s.fab.localq 1 ++ [ (mkHdr
            { dest := hostId s, src := feId s, kind := 7,
              addr := (s.queue n).msiAddr.toNat * 4, arg := 4, inl := (s.queue n).msiData.toNat }, [])]) ∧
    (s.tick < (s.queue n).irqTick + us (s.queue n).irqDelay.toNat → (s.queue n).irqPend < max 1 (s.queue n).irqCount.toNat →
      exec (.irqDelayExpire n) s = .next s)) ∧
  (∀ (s : State) (n : Fin 64) (d : Desc) (ds : List Desc), AtHead s n 0 d ds →
    ∃ t, exec (.nopDescriptor n) s = .next t ∧ HeadDone s t n d ds stOk) ∧
  (∀ (s : State) (n : Fin 64) (d : Desc) (ds : List Desc), AtHead s n 1 d ds →
    (graphRefused s (qsrcQ d.row 26) = true → ∃ t, exec (.runGraph n) s = .next t ∧ HeadDone s t n d ds stRefused) ∧
    (graphRefused s (qsrcQ d.row 26) = false → (s.quarter (qsrcQ d.row 26)).inReset = false →
      (dBytes d.row 24 2 = 0 →
        ∃ (t : State) (x : Exec), exec (.runGraph n) s = .next t ∧ (t.queue n).run = some x ∧ x.desc = d ∧ x.phase = 2 ∧ x.tick = s.tick ∧
          ∃ (l : Bool) (f : List (Row × List (Row × Bool))), sget [] t.fab.localq 1 = sget [] s.fab.localq 1 ++
            [(mkHdr { dest := 0xFFFFFF, src := feId s, kind := 4, pv := true, piton := dBytes d.row 32 4 % 2 ^ 17,
                      arg := 1 * 2 ^ 28 + 1, inl := dBytes d.row 36 4 }, [])] ++
            (if dBytes d.row 28 3 = 0xFFFFFF then [] else
              [(mkHdr { dest := dBytes d.row 28 3, src := feId s, kind := 0, len := 1 }, [(BitVec.ofNat 512 (dBytes d.row 40 24), l)])]) ++
            [(mkHdr { dest := 0xFFFFFF, src := feId s, kind := 4, pv := true, piton := dBytes d.row 32 4 % 2 ^ 17,
                      arg := 2 * 2 ^ 28, inl := feTag n 2 * 2 ^ 32 }, [])] ++
            f) ∧
      (dBytes d.row 24 2 ≠ 0 → (s.cfgQ (qsrcQ d.row 26)).start = false → (s.cfgQ (qsrcQ d.row 26)).aborted = false →
        ∃ t, exec (.runGraph n) s = .next t ∧ (t.cfgQ (qsrcQ d.row 26)).start = true ∧
          (t.cfgQ (qsrcQ d.row 26)).owner = some n.val ∧ (t.cfgQ (qsrcQ d.row 26)).planLen = dBytes d.row 24 2 ∧
          ((t.queue n).run.map Exec.desc) = some d))) ∧
  (∀ (s : State) (n : Fin 64) (x : Exec), (s.queue n).run = some x → dType x.desc.row = 1 → x.phase = 2 → dBytes x.desc.row 12 4 ≠ 0 →
    (s.queue n).resetting = false →
    (x.tick + us (dBytes x.desc.row 12 4) ≤ s.tick →
      ∃ t, exec (.runGraphTimeout n) s = .next t ∧ (t.queue n).run = none ∧
        EntryPosted s t n x.desc.row (s.queue n).sqHead stStepTimeout) ∧
    (s.tick < x.tick + us (dBytes x.desc.row 12 4) → exec (.runGraphTimeout n) s = .next s)) ∧
  (∀ (s : State) (n : Fin 64) (d : Desc) (ds : List Desc), AtHead s n 2 d ds →
    (graphRefused s (qsrcQ d.row 12) = true → ∃ t, exec (.loadConfig n) s = .next t ∧ HeadDone s t n d ds stRefused) ∧
    (graphRefused s (qsrcQ d.row 12) = false → (s.quarter (qsrcQ d.row 12)).inReset = false → dBytes d.row 24 2 ≠ 0 →
      (s.cfgQ (qsrcQ d.row 12)).start = false → (s.cfgQ (qsrcQ d.row 12)).aborted = false →
      ∃ t, exec (.loadConfig n) s = .next t ∧ (t.cfgQ (qsrcQ d.row 12)).start = true ∧
        (t.cfgQ (qsrcQ d.row 12)).owner = some n.val ∧ (t.cfgQ (qsrcQ d.row 12)).planLen = dBytes d.row 24 2 ∧
        ((t.queue n).run.map Exec.desc) = some d)) ∧
  (∀ (s : State) (n : Fin 64) (d : Desc) (ds : List Desc), AtHead s n 4 d ds →
    ∃ t, exec (.pitonOp n) s = .next t ∧
      (mkHdr
            { dest := 0xFFFFFF, src := feId s, kind := 4, pv := true, last := bit d.row 135, piton := dBytes d.row 12 4 % 2 ^ 17,
              total := if bit d.row 135 then dBytes d.row 24 4 else 0, arg := fld d.row 128 4 * 2 ^ 28 + dBytes d.row 20 4 % 2 ^ 28,
              inl := dBytes d.row 28 32 }, []) ∈ sget [] t.fab.localq 1 ∧
      (fld d.row 128 4 = 2 → fld d.row 160 2 ≠ 0 → HeadDone s t n d ds stOk) ∧
      (fld d.row 128 4 = 2 → fld d.row 160 2 = 0 → (t.queue n).run.map Exec.desc = some d) ∧
      (fld d.row 128 4 ≠ 2 → (t.queue n).run.map Exec.desc = some d ∧
        (mkHdr { dest := 0xFFFFFF, src := feId s, kind := 4, pv := true, piton := dBytes d.row 12 4 % 2 ^ 17, arg := 5 * 2 ^ 28 }, []) ∈
          sget [] t.fab.localq 1)) ∧
  (∀ (s : State) (n : Fin 64) (d : Desc) (ds : List Desc), AtHead s n 5 d ds →
    ∀ (ks : Reads) (rmw : List ReadErr),
      (cpDown s d.row = true → ∀ ok, ∃ t, exec (.copy n ok ks rmw) s = .next t ∧ HeadDone s t n d ds stHostError ∧ t.host = s.host ∧ t.ks = s.ks) ∧
      (cpDown s d.row = false →
        (∃ t, exec (.copy n false ks rmw) s = .next t ∧ HeadDone s t n d ds stHostError) ∧
        (cpSrcKs d.row = true → 0 < ks.uncorrectable → ∃ t, exec (.copy n true ks rmw) s = .next t ∧ HeadDone s t n d ds stHostError) ∧
        (cpSrcKs d.row = false ∨ ks.uncorrectable = 0 →
          ∃ t, exec (.copy n true ks rmw) s = .next t ∧ HeadDone s t n d ds stOk ∧
            (cpSrcKs d.row = true → (t.kst (cpSrcQ d.row)).corr =
              satAdd (s.kst (cpSrcQ d.row)).corr ks.corrected ∨ cpDst d.row = 1 ∧ cpDstQ d.row = cpSrcQ d.row) ∧
            (∀ q, (q ≠ cpDstQ d.row ∨ cpDst d.row ≠ 1) → (q ≠ cpSrcQ d.row ∨ cpSrcKs d.row = false) → t.kst q = s.kst q) ∧
            (cpDst d.row ≠ 0 → t.host = s.host) ∧
            (cpDst d.row = 0 → t.host = copyRange (cpSource s d.row (dBytes d.row 32 8)).1
              (cpSource s d.row (dBytes d.row 32 8)).2 (dBytes d.row 32 8) s.host (dBytes d.row 24 8))))) ∧
  (∀ (s : State) (n : Fin 64) (d : Desc) (ds : List Desc), AtHead s n 7 d ds →
    ∃ (t : State) (x : Exec), exec (.queueFence n) s = .next t ∧ (t.queue n).run = some x ∧ x.desc = d ∧
      ∀ m i, (m, i) ∈ x.awaits ↔ m < 64 ∧ (m = n.val ∨ bit d.row (128 + m) = true) ∧ i ∈ (s.queue m).open_ ∧ i < d.seq) ∧
  (∀ (s : State) (n : Fin 64) (x : Exec), (s.queue n).run = some x → dType x.desc.row = 7 → (s.queue n).resetting = false →
    ((∀ a ∈ x.awaits, a.2 ∉ (s.queue a.1).open_) → ∃ t, exec (.queueFenceDone n) s = .next t ∧ (t.queue n).run = none ∧
      EntryPosted s t n x.desc.row (s.queue n).sqHead stOk) ∧
    ((∃ a ∈ x.awaits, a.2 ∈ (s.queue a.1).open_) → exec (.queueFenceDone n) s = .next s)) ∧
  (∀ (s : State) (n : Fin 64) (d : Desc) (ds : List Desc), AtHead s n 8 d ds →
    (dBytes d.row 16 8 ≤ s.clk.count.toNat → ∃ t, exec (.timeMark n) s = .next t ∧ HeadDone s t n d ds stOk) ∧
    (s.clk.count.toNat < dBytes d.row 16 8 → ∃ t, exec (.timeMark n) s = .next t ∧ (t.queue n).run.map Exec.desc = some d ∧
      t.host = s.host ∧ t.clk = s.clk)) ∧
  (∀ (s : State) (n : Fin 64) (x : Exec), (s.queue n).run = some x → dType x.desc.row = 8 → (s.queue n).resetting = false →
    (dBytes x.desc.row 16 8 ≤ s.clk.count.toNat → ∃ t, exec (.timeMarkReached n) s = .next t ∧ (t.queue n).run = none ∧
      EntryPosted s t n x.desc.row (s.queue n).sqHead stOk) ∧
    (s.clk.count.toNat < dBytes x.desc.row 16 8 → exec (.timeMarkReached n) s = .next s)) ∧
  (∀ (s : State) (n : Fin 64) (d : Desc), (s.queue n).resetting = false →
    ((s.queue n).ready.find? fun d => dType d.row == 3) = some d →
    (serveReason s (queueQuarter n) ≠ 0 → ∃ t, exec (.serve n) s = .next t ∧ EntryPosted s t n d.row (s.queue n).sqHead stRefused) ∧
    (serveReason s (queueQuarter n) = 0 → ∀ l, serviceOf s (queueQuarter n) = some l →
      (tMaxContext (s.service l).table ≤ dBytes d.row 12 4 →
        ∃ t, exec (.serve n) s = .next t ∧ EntryPosted s t n d.row (s.queue n).sqHead stBad) ∧
      (dBytes d.row 12 4 < tMaxContext (s.service l).table →
        ∃ (t : State) (r : Req), exec (.serve n) s = .next t ∧ (t.service l).pending = (s.service l).pending ++ [r] ∧ r.seq = d.seq ∧
          r.queue = n.val ∧ r.promptLen = dBytes d.row 12 4 ∧ r.seed = BitVec.ofNat 64 (dBytes d.row 48 8) ∧ r.gen = [])))

/-- SEQ_CTL.START on a READY region (the port's write is noted for the rest of its tick; a table in the work stack is read with what its code shows, a free value): a table that the rule refuses changes no service and no plan; one that it takes gives the lead its table and its quarters and is STARTING while the streamers are busy. STOP ends a service that runs no step and is not HALTED at once, its requests gone; else it only marks the service, which ends at its next step boundary. DRAIN of a serving service drops the pending requests and, while a step runs, is DRAINING. At a step boundary that nothing holds up, with no halt due and no fenced crossing bound, a service that is to stop goes OFF; else, serving, it starts the next step: the number gains 1 if a step was running, every spanned quarter counts it and its replays are 0. A boundary that has not come changes nothing. STEP_LIMIT past, in a serving or a draining service, the first time the service is HALTED, the spanned quarters halt, each waits for its alignment and then its replay, and the timeout is counted; the second time, or where a quarter has replayed the step twice already (log 143, by R412), the service goes OFF. Completion is the conclusion here for SEQ_START, STOP, DRAIN, STEP_BOUNDARY, STEP_TIMEOUT. -/
def Obligations.ServicesStartStepAndStop : Prop :=
  (∀ (s : State) (p : WinPort) (q : Fin 4), Writable s (0x50008 + 0x40 * q.val) → (s.service q).state = .off →
    (startOk (readTable s q).2 q ((readTable s q).1.getD 0) = false → ∃ t, exec (.seqStart p q) s = .next t ∧ t.svc = s.svc ∧ t.cfgq = s.cfgq) ∧
    (startOk (readTable s q).2 q ((readTable s q).1.getD 0) = true → (∀ k, (s.cfgQ k).aborted = false) →
      ∃ t, exec (.seqStart p q) s = .next t ∧ (t.service q).table = (readTable s q).1.getD 0 ∧
        (t.service q).qmask = tQmask ((readTable s q).1.getD 0) ∧
        (t.service q).pending = [] ∧ ((t.service q).state = .starting ∨ (t.service q).state = .off) ∧
        ((∀ k, (s.cfgQ k).start = true) → (t.service q).state = .starting ∧ (t.seqq q).start = true))) ∧
  (∀ (s : State) (p : WinPort) (q : Fin 4), Writable s (0x50008 + 0x40 * q.val) →
    ((s.service q).state = .off → exec (.stop p q) s = .next (keepUndo s p (0x50008 + 0x40 * q.val) (noteWrite s p (0x50008 + 0x40 * q.val) 2))) ∧
    ((s.service q).state ≠ .off → (s.service q).state ≠ .halted → (s.service q).stepping = false →
      ∃ t, exec (.stop p q) s = .next t ∧ t.service q = Svc.init ∧ (t.seqq q).stop = false ∧ ∀ l, l ≠ q.val → t.service l = s.service l) ∧
    ((s.service q).state ≠ .off → (s.service q).stepping = true ∨ (s.service q).state = .halted →
      ∃ t, exec (.stop p q) s = .next t ∧ t = { s with svc := t.svc, seqs := t.seqs, wrote := t.wrote, undo := t.undo } ∧
        t.service q = { s.service q with stopping := true } ∧ (t.seqq q).stop = true)) ∧
  (∀ (s : State) (p : WinPort) (q : Fin 4), Writable s (0x50008 + 0x40 * q.val) →
    ((s.service q).state ≠ .serving → exec (.drain p q) s = .next (keepUndo s p (0x50008 + 0x40 * q.val) (noteWrite s p (0x50008 + 0x40 * q.val) 4))) ∧
    ((s.service q).state = .serving → (s.service q).stepping = true →
      ∃ t, exec (.drain p q) s = .next t ∧ (t.service q).state = .draining ∧ (t.service q).pending = [] ∧
        (t.service q).stepNo = (s.service q).stepNo ∧ (t.seqq q).drain = true) ∧
    ((s.service q).state = .serving → (s.service q).stepping = false → (s.service q).seated = [] →
      ∃ t, exec (.drain p q) s = .next t ∧ t.service q = Svc.init)) ∧
  (∀ (s : State) (q : Fin 4), (s.service q).state = .serving → stepDone s q = true →
    (∀ k, k < 4 → bit (s.service q).qmask k = true → quarterFaulty s k = false ∧ s.quarterStopped k = false ∧
      fencedCrossing s k = none ∧ (s.quarter k).crossDue = none ∧ bit s.pwr.quiesceDue k = false) →
    ((s.service q).stopping = true → ∃ t, exec (.stepBoundary q) s = .next t ∧ t.service q = Svc.init) ∧
    ((s.service q).stopping = false → stepFenced s q = false →
      ∃ t, exec (.stepBoundary q) s = .next t ∧ (t.service q).state = .serving ∧ (t.service q).stepping = true ∧
        (t.service q).stepNo = (if (s.service q).stepping = true then (s.service q).stepNo + 1 else (s.service q).stepNo) ∧
        (t.service q).stepTick = s.tick ∧ (t.service q).timedOut = false ∧ (t.service q).table = (s.service q).table ∧
        ∀ k, k < 4 → bit (s.service q).qmask k = true → (t.seqq k).steps = (s.seqq k).steps + 1 ∧ (t.quarter k).replays = 0)) ∧
  (∀ (s : State) (q : Fin 4), (s.service q).state = .serving → stepDone s q = false → exec (.stepBoundary q) s = .next s) ∧
  (∀ (s : State) (q : Fin 4), (s.service q).state = .serving ∨ (s.service q).state = .draining → stepDone s q = false →
    (s.tick < (s.service q).stepTick + us (tStepLimit (s.service q).table) → exec (.stepTimeout q) s = .next s) ∧
    ((s.service q).stepTick + us (tStepLimit (s.service q).table) ≤ s.tick →
      ((s.service q).timedOut = true → ∃ t, exec (.stepTimeout q) s = .next t ∧ t.service q = Svc.init) ∧
      ((s.service q).timedOut = false → (∃ k, k < 4 ∧ bit (s.service q).qmask k = true ∧ 2 ≤ (s.quarter k).replays) →
        ∃ t, exec (.stepTimeout q) s = .next t ∧ t.service q = Svc.init) ∧
      ((s.service q).timedOut = false → (∀ k, k < 4 → bit (s.service q).qmask k = true → (s.quarter k).replays < 2) →
        ∃ t, exec (.stepTimeout q) s = .next t ∧ (t.seqq q).timeouts = satInc (s.seqq q).timeouts ∧ (t.service q).state = .halted ∧
          ∀ k, k < 4 → bit (s.service q).qmask k = true →
            (t.quarter k).halted = true ∧ (t.quarter k).replay = some 3 ∧ (t.align k).phase = 1)))

/-- With V_AUX up, a frame for another site goes on unchanged, and one for this site never does. A good RD frame is answered by one RESP frame of this site with its TAG and OFFSET, a good CRC, STATUS 0 and DATA the register's value, which is then read, if the offset is aligned and the region is out of reset; held in reset, it answers so for the identity registers, REGION_STATUS and REGION_RESET_CAUSE alone. Any other read is refused with DATA 0 and changes nothing. A good WR frame has the effect of the ring port's REGISTER_WRITE of DATA[31:0], and its RESP's STATUS is 0 where the write was accepted; in a region held in reset it is refused and only the RESP goes out. A good frame with a reserved OP is answered REFUSED with DATA 0. IDLE, RESP and NEED frames have no effect, and neither has an RD, WR or TAP frame that fails its CRC or is not for this site. Completion is the conclusion here for MBAO_FORWARD, RD, WR, MBAO_RESERVED_OP, IDLE, MBAO_RESP, NEED. -/
def Obligations.ManagementPortAnswers : Prop :=
  (∀ (s : State) (f : BitVec 128), s.boot.phase ≠ .unpowered →
    (fSite f ≠ s.ident.site.toNat →
      exec (.mbaoForward f) s = .next { s with pins := { s.pins with mbaoOut := s.pins.mbaoOut ++ [f] } }) ∧
    (fSite f = s.ident.site.toNat → exec (.mbaoForward f) s = .next s)) ∧
  (∀ (s : State) (f : BitVec 128), consumed s f 1 = true →
    ∃ (t : State) (g : BitVec 128), exec (.rd f) s = .next t ∧ t.pins.mbaoOut = s.pins.mbaoOut ++ [g] ∧ fSite g = s.ident.site.toNat ∧
      fOp g = 3 ∧ fTag g = fTag f ∧ fOff g = fOff f ∧ g.extractLsb' 0 16 = frameCrc16 g ∧
      (heldInReset s = false ∨ fOff f ∈ [0x00, 0x04, 0x08, 0x0C, 0x10, 0x44, 0x48] → fOff f % 4 = 0 →
        fData g = (portValue s .ring (fOff f)).toNat ∧ fld g 80 8 = 0 ∧ t = { readEffect s .ring (fOff f) with pins := t.pins }) ∧
      (fOff f % 4 ≠ 0 ∨ heldInReset s = true ∧ fOff f ∉ [0x00, 0x04, 0x08, 0x0C, 0x10, 0x44, 0x48] →
        fData g = 0 ∧ fld g 80 8 = 1 ∧ t = { s with pins := t.pins })) ∧
  (∀ (s : State) (f : BitVec 128), consumed s f 2 = true →
    ∃ (t w : State) (g : BitVec 128), exec (.wr f) s = .next t ∧
      exec (.registerWrite .ring (BitVec.ofNat 24 (fOff f)) 4 (BitVec.ofNat 32 (fData f))) s = .next w ∧
      t = { w with pins := { w.pins with mbaoOut := w.pins.mbaoOut ++ [g] } } ∧
      fOp g = 3 ∧ fTag g = fTag f ∧ fOff g = fOff f ∧
      (s.boot.phase = .ready → fOff f % 4 = 0 → wpWord (fOff f) = none → fld g 80 8 = 0) ∧
      (heldInReset s = true → w = s ∧ fld g 80 8 = 1)) ∧
  (∀ (s : State) (f : BitVec 128), 6 ≤ fOp f → consumed s f (fOp f) = true →
    ∃ (t : State) (g : BitVec 128), exec (.mbaoReservedOp f) s = .next t ∧
      t = { s with pins := { s.pins with mbaoOut := s.pins.mbaoOut ++ [g] } } ∧ fSite g = s.ident.site.toNat ∧ fOp g = 3 ∧ fTag g = fTag f ∧
      fData g = 0 ∧ fld g 80 8 = 1 ∧ g.extractLsb' 0 16 = frameCrc16 g) ∧
  (∀ (s : State) (f : BitVec 128), exec (.idle f) s = .next s ∧ exec (.mbaoResp f) s = .next s ∧ exec (.need f) s = .next s) ∧
  (∀ (s : State) (f : BitVec 128), fSite f ≠ s.ident.site.toNat ∨ f.extractLsb' 0 16 ≠ frameCrc16 f ∨ s.boot.phase = .unpowered →
    exec (.rd f) s = .next s ∧ exec (.wr f) s = .next s ∧ exec (.tap f) s = .next s)

/-- A good TAP frame clocks the controller eight times: its state follows the eight TMS bits, nothing of the region but the port changes, and one RESP with STATUS 0 goes out. Five TMS ones in a row at its end leave Test-Logic-Reset with IDCODE selected. Eight pairs of TMS 0 in Shift-DR, over an instrument of at least eight bits, answer the low eight bits of the scan register, the first in bit 0, and shift it by eight. Eight such pairs from Capture-DR on capture what the selected instrument reads then and answer its low seven bits from bit 1 up: IDCODE its 32 bits, THERM_SCAN 64 readings of 16 bits, LINK_EYE the eyes of its link, PST_READ and FIELD_RECORD their words, RAIL_SCAN ten readings, of which V_IN_40 is the one measured and each V_CORE that is up lies within a hundredth of its value (log 142); BYPASS answers 0 and then the TDI bits. Update-IR selects the instrument that the instruction register names, a locked one being BYPASS. With V_AUX up each instrument's row selects it and changes nothing else, but that LINK_EYE's names its link, with 16 bits for each of 1,096 lanes (log 112); without V_AUX no row changes anything. The codes of the instruments and the order of TMS and TDI in a pair are the model's reading (log 34). Completion is the conclusion here for TAP, IDCODE, BYPASS, THERM_SCAN, RAIL_SCAN, LINK_EYE, PST_READ, FIELD_RECORD. -/
def Obligations.TestAccessPort : Prop :=
  (∀ (s : State) (f : BitVec 128), consumed s f 4 = true →
    ∃ (t : State) (g : BitVec 128), exec (.tap f) s = .next t ∧ t = { s with tap := t.tap, free := t.free, pins := t.pins } ∧
      t.pins = { s.pins with mbaoOut := s.pins.mbaoOut ++ [g] } ∧ fOp g = 3 ∧ fTag g = fTag f ∧ fld g 80 8 = 0 ∧ fData g < 256 ∧
      t.tap.fsm = (List.range 8).foldl (fun x i => tapNext x (f.getLsbD (16 + 2 * i + 1))) s.tap.fsm ∧
      ((∀ i, 3 ≤ i → i < 8 → f.getLsbD (16 + 2 * i + 1) = true) → t.tap.fsm = .testLogicReset ∧ t.tap.inst = .idcode) ∧
      ((∀ i, i < 8 → f.getLsbD (16 + 2 * i + 1) = false) →
        let w := instWidth s.tap.inst
        (s.tap.fsm = .shiftDr → 8 ≤ w →
          t.tap.fsm = .shiftDr ∧ fData g = s.tap.shift % 256 ∧ t.tap.shift % 2 ^ (w - 8) = s.tap.shift / 256 % 2 ^ (w - 8)) ∧
        (s.tap.fsm = .captureDr → s.tap.inst ≠ .bypass →
          ∃ v : Nat, t.tap.fsm = .shiftDr ∧ fData g / 2 = v % 128 ∧ t.tap.shift % 2 ^ (w - 7) = v / 128 % 2 ^ (w - 7) ∧
            (s.tap.inst = .idcode → v = 0x14E571DF) ∧
            (s.tap.inst = .thermScan → ∀ i, i < 64 → v / 2 ^ (16 * i) % 2 ^ 16 = (sget 0 s.pwr.temp i).toNat) ∧
            (s.tap.inst = .railScan → (s.pwr.vinMv ≠ 0 → v % 2 ^ 16 = s.pwr.vinMv.toNat) ∧
              ((∀ k, sget 0 s.pwr.vcore k ≤ 870) → ∀ q, q < 4 → bit s.pwr.coreGood q = true →
                let x := v / 2 ^ (16 * (q + 2)) % 2 ^ 16
                100 * x ≤ 101 * sget 0 s.pwr.vcore q ∧ 99 * sget 0 s.pwr.vcore q ≤ 100 * x)) ∧
            (s.tap.inst = .linkEye → v = s.tap.eyes) ∧
            (s.tap.inst = .pstRead → ∀ i, i < 4096 → (∀ k, sget 0 s.pst.writes k < 2 ^ 32) →
              v / 2 ^ (64 * i) % 2 ^ 32 = (pstRead s i).toNat ∧ v / 2 ^ (64 * i + 32) % 2 ^ 32 = sget 0 s.pst.writes i) ∧
            (s.tap.inst = .fieldRecord → (s.flt.field = none → v = 0) ∧
              ∀ l, s.flt.field = some l → ∀ i, i < 16384 → v / 2 ^ (32 * i) % 2 ^ 32 = (l.getD i 0).toNat)) ∧
        (s.tap.fsm = .captureDr → s.tap.inst = .bypass →
          t.tap.fsm = .shiftDr ∧ (fData g).testBit 1 = false ∧
          ∀ i, 2 ≤ i → i < 8 → (fData g).testBit i = f.getLsbD (16 + 2 * (i - 1))) ∧
        (s.tap.fsm = .updateIr → t.tap.fsm = .runTestIdle ∧ t.tap.inst = instOf (Config.irCode s.tap.ir)))) ∧
  (∀ s : State, s.boot.phase ≠ .unpowered →
    (∀ c i, (c, i) ∈ [(Instr.idcode, Instrument.idcode), (.bypass, .bypass), (.thermScan, .thermScan), (.railScan, .railScan),
        (.pstRead, .pstRead), (.fieldRecord, .fieldRecord)] → exec c s = .next { s with tap := { s.tap with inst := i } }) ∧
    (∀ (n : Fin 32) (l : List (BitVec 16)), ∃ t, exec (.linkEye n l) s = .next t ∧
      t = { s with tap := { s.tap with inst := .linkEye, eyes := t.tap.eyes } } ∧
      ∀ i, i < linkLanes → t.tap.eyes / 2 ^ (16 * i) % 2 ^ 16 = (l.getD i 0).toNat)) ∧
  (∀ s : State, s.boot.phase = .unpowered → ∀ (n : Fin 32) (l : List (BitVec 16)),
    ∀ c ∈ [Instr.idcode, .bypass, .thermScan, .railScan, .linkEye n l, .pstRead, .fieldRecord], exec c s = .next s)

/-- What a unit has detected, the oldest first, is recorded as the newest record, kind 0, with its zone, causes, detail, time and the next number, the summary bit and the count of unit faults; a unit that has detected nothing reports nothing. A zone code 1 to 7 is a record of kind 1; in a quarter in reset it changes nothing. FAULT_HALT at a boundary or in a halt, with no report on its way, halts the quarter and takes its faults; with replay the worst action an alignment is asked for, with STOP or RESET the halt is for good. STEERING_COMPLETE 8,196 zone cycles after the move began ends the zone's steering and, as the last, asks for the alignment; earlier it changes nothing. STEP_REPLAY of a quarter that is ready to and runs no step ends the halt; one that is not ready changes nothing. REARM clears DEGRADED unless the work stack is fenced, CAPTURE takes a record if none is held and RELEASE drops it, STRIKES staying: that such a row writes its one bit and keeps the register's other fields, as STRIKES, is the model's choice (log 92). A stack with an unanswered request fails and is fenced; which requests the state shows unanswered is log 99's choice. An hour's LIFETIME_COUNTER_WRITE adds to the hours word in the store; before the hour is over it changes nothing. That the row is the hour itself, and that HOURS_ABOVE_95C counts an hour in which some reading passed 95 °C, the mark being cleared with the hour, are the model's choices (logs 100 and 84). Completion is the conclusion here for UNIT_FAULT_REPORT, FAULT_HALT, STEERING_COMPLETE, STEP_REPLAY, REARM, CAPTURE, RELEASE, STACK_DEAD_TIMEOUT, LIFETIME_COUNTER_WRITE. -/
def Obligations.FaultsAreRecordedAndHandled : Prop :=
  (∀ (s : State) (u : Fin 9792),
    ((∀ d ∈ s.flt.detected, d.unit ≠ u.val) → exec (.unitFaultReport (.unit u)) s = .next s) ∧
    (∀ d : Detected, s.flt.detected.find? (fun d => d.unit == u.val) = some d →
      ∃ (t : State) (r : FaultRec), exec (.unitFaultReport (.unit u)) s = .next t ∧ t.flt.recs = (r :: s.flt.recs).take 128 ∧
        t.flt.detected = s.flt.detected.erase d ∧
        r.kind = 0 ∧ r.zone = BitVec.ofNat 6 (physZone u) ∧ r.unit = BitVec.ofNat 8 (u.val % 204) ∧ r.cause = d.causes ∧
        r.detail = d.detail ∧ r.time = d.time ∧ r.gen = d.gen ∧ r.seq = s.flt.seq + 1 ∧ bit t.flt.summary 1 = true ∧
        (∃ f, (t.quarter (physZone u / 12)).faults = (s.quarter (physZone u / 12)).faults ++ [f] ∧ f.unit = some u.val ∧ f.cause = d.causes) ∧
        t.units = s.units ∧ sget 0 t.pst.life 0x084 = sget 0 s.pst.life 0x084 + 1)) ∧
  (∀ (s : State) (z : Fin 48) (c : BitVec 8) (d : BitVec 64), c ≠ 0 → c.toNat ≤ 7 →
    ((s.quarter (z.val / 12)).inReset = false →
      ∃ (t : State) (r : FaultRec), exec (.unitFaultReport (.zone z c d)) s = .next t ∧ t.flt.recs = (r :: s.flt.recs).take 128 ∧
        r.kind = 1 ∧ r.zone = BitVec.ofNat 6 z.val ∧ r.cause = c ∧ r.detail = d ∧ r.seq = s.flt.seq + 1 ∧ bit t.flt.summary 2 = true ∧
        (c = 6 → t.quarters = s.quarters) ∧ (c = 1 ∨ c = 5 → (t.quarter (z.val / 12)).halted = true)) ∧
    ((s.quarter (z.val / 12)).inReset = true → exec (.unitFaultReport (.zone z c d)) s = .next s)) ∧
  (∀ (s : State) (q : Fin 4), (s.quarter q).faults ≠ [] → (s.quarter q).inReset = false → unreported s q = false →
    atBoundary s q = true ∨ quarterHalted s q = true →
    ∃ t, exec (.faultHalt q) s = .next t ∧ (t.quarter q).halted = true ∧ (t.quarter q).faults = [] ∧
      (worstAction (s.quarter q) = .replay → (t.align q).phase = 1) ∧
      (worstAction (s.quarter q) = .stop ∨ worstAction (s.quarter q) = .reset → (t.quarter q).lockHalt = true ∧ (t.quarter q).replay = none)) ∧
  (∀ (s : State) (q : Fin 4), (s.quarter q).faults = [] ∨ unreported s q = true → exec (.faultHalt q) s = .next s) ∧
  (∀ (s : State) (z : Fin 48) (b : Nat), (s.quarter (z.val / 12)).steering = [(z.val, b)] →
    (steerOver s z b = true →
      ∃ t, exec (.steeringComplete z) s = .next t ∧ (t.quarter (z.val / 12)).steering = [] ∧ (t.align (z.val / 12)).phase = 1) ∧
    (steerOver s z b = false → exec (.steeringComplete z) s = .next s)) ∧
  (∀ (s : State) (q : Fin 4) (r : BitVec 8), (s.quarter q).replay = some r →
    (replayReady s q = false → exec (.stepReplay q) s = .next s) ∧
    (replayReady s q = true → serviceOf s q = none → graphOn s q = none →
      ∃ t, exec (.stepReplay q) s = .next t ∧ t.quarter q = { s.quarter q with halted := false, replay := none }) ∧
    (replayReady s q = true → ∀ l, serviceOf s q = some l →
      ∃ t, exec (.stepReplay q) s = .next t ∧ (t.quarter q).halted = false ∧ (t.quarter q).replay = none ∧
        (t.quarter q).replays = (s.quarter q).replays + 1 ∧ sget 0 t.pst.life 0x086 = sget 0 s.pst.life 0x086 + 1)) ∧
  (∀ (s : State) (p : WinPort) (q : Fin 4), Writable s 0xB0008 →
    ∃ t, exec (.rearm p q) s = .next t ∧ t.flt = s.flt ∧ (∀ k, k ≠ q.val → t.quarter k = s.quarter k) ∧
      (bit s.flt.fenceStk (8 + q.val) = true → t.quarter q = s.quarter q) ∧
      (bit s.flt.fenceStk (8 + q.val) = false → t.quarter q = { s.quarter q with degraded := false })) ∧
  (∀ (s : State) (p : WinPort), Writable s 0xB0008 →
    (∃ t, exec (.capture p) s = .next t ∧ t.flt.field.isSome = true ∧ (s.flt.field.isSome = true → t.flt = s.flt) ∧
      t = { s with flt := { s.flt with field := t.flt.field }, free := t.free, wrote := t.wrote, undo := t.undo }) ∧
    ∃ t, exec (.release p) s = .next t ∧ t = { s with flt := { s.flt with field := none }, wrote := t.wrote, undo := t.undo }) ∧
  (∀ (s : State) (st : Fin 12),
    (unanswered s st = false → exec (.stackDeadTimeout st) s = .next s) ∧
    (unanswered s st = true → bit s.flt.fenceStk st = false →
      ∃ (t : State) (r : FaultRec), exec (.stackDeadTimeout st) s = .next t ∧ bit t.flt.fenceStk st = true ∧ t.flt.recs.head? = some r ∧
        r.kind = 2 ∧ r.zone.toNat = st.val ∧ r.cause = 1 ∧ bit t.flt.summary 5 = true ∧
        (st.val < 8 → (t.wst st).image = 3) ∧ (8 ≤ st.val → (t.kst (st.val - 8)).failed = true ∧ (t.quarter (st.val - 8)).degraded = true))) ∧
  (∀ s : State, (s.tick < s.pst.lifeTick + hourTicks → exec .lifetimeCounterWrite s = .next s) ∧
    (s.pst.lifeTick + hourTicks ≤ s.tick → sget 0 s.pst.writes 0x080 < 100000 → s.pst.badWords = [] →
      ∃ t, exec .lifetimeCounterWrite s = .next t ∧ sget 0 t.pst.life 0x080 = 0 ∧
        sget 0 t.pst.words 0x080 = sget 0 s.pst.words 0x080 + BitVec.ofNat 32 (sget 0 s.pst.life 0x080 + 1) ∧
        t.pst.kwh = totalKwh s ∧ t.pst.hot = false ∧ t.pst.lifeTick = s.tick))
end

