-- ==== Sys2Proof/Laws/State.lean ====
section
/-! SUPPORT. What each update of a part of State leaves alone: one lemma per field per update, each true by rfl, so that no later proof unfolds a record update. -/

namespace Sys2Proof.Machine

/-! modQuarter changes quarters alone. -/

@[simp] theorem State.modQuarter_tick (s : State) (q : Nat) (f : Quarter → Quarter) : (s.modQuarter q f).tick = s.tick := rfl
@[simp] theorem State.modQuarter_ident (s : State) (q : Nat) (f : Quarter → Quarter) : (s.modQuarter q f).ident = s.ident := rfl
@[simp] theorem State.modQuarter_pins (s : State) (q : Nat) (f : Quarter → Quarter) : (s.modQuarter q f).pins = s.pins := rfl
@[simp] theorem State.modQuarter_boot (s : State) (q : Nat) (f : Quarter → Quarter) : (s.modQuarter q f).boot = s.boot := rfl
@[simp] theorem State.modQuarter_fw (s : State) (q : Nat) (f : Quarter → Quarter) : (s.modQuarter q f).fw = s.fw := rfl
@[simp] theorem State.modQuarter_tap (s : State) (q : Nat) (f : Quarter → Quarter) : (s.modQuarter q f).tap = s.tap := rfl
@[simp] theorem State.modQuarter_pst (s : State) (q : Nat) (f : Quarter → Quarter) : (s.modQuarter q f).pst = s.pst := rfl
@[simp] theorem State.modQuarter_flt (s : State) (q : Nat) (f : Quarter → Quarter) : (s.modQuarter q f).flt = s.flt := rfl
@[simp] theorem State.modQuarter_clk (s : State) (q : Nat) (f : Quarter → Quarter) : (s.modQuarter q f).clk = s.clk := rfl
@[simp] theorem State.modQuarter_chanters (s : State) (q : Nat) (f : Quarter → Quarter) : (s.modQuarter q f).chanters = s.chanters := rfl
@[simp] theorem State.modQuarter_zones (s : State) (q : Nat) (f : Quarter → Quarter) : (s.modQuarter q f).zones = s.zones := rfl
@[simp] theorem State.modQuarter_str (s : State) (q : Nat) (f : Quarter → Quarter) : (s.modQuarter q f).str = s.str := rfl
@[simp] theorem State.modQuarter_belays (s : State) (q : Nat) (f : Quarter → Quarter) : (s.modQuarter q f).belays = s.belays := rfl
@[simp] theorem State.modQuarter_pwr (s : State) (q : Nat) (f : Quarter → Quarter) : (s.modQuarter q f).pwr = s.pwr := rfl
@[simp] theorem State.modQuarter_trims (s : State) (q : Nat) (f : Quarter → Quarter) : (s.modQuarter q f).trims = s.trims := rfl
@[simp] theorem State.modQuarter_latch (s : State) (q : Nat) (f : Quarter → Quarter) : (s.modQuarter q f).latch = s.latch := rfl
@[simp] theorem State.modQuarter_evt (s : State) (q : Nat) (f : Quarter → Quarter) : (s.modQuarter q f).evt = s.evt := rfl
@[simp] theorem State.modQuarter_cmdq (s : State) (q : Nat) (f : Quarter → Quarter) : (s.modQuarter q f).cmdq = s.cmdq := rfl
@[simp] theorem State.modQuarter_seqs (s : State) (q : Nat) (f : Quarter → Quarter) : (s.modQuarter q f).seqs = s.seqs := rfl
@[simp] theorem State.modQuarter_svc (s : State) (q : Nat) (f : Quarter → Quarter) : (s.modQuarter q f).svc = s.svc := rfl
@[simp] theorem State.modQuarter_fab (s : State) (q : Nat) (f : Quarter → Quarter) : (s.modQuarter q f).fab = s.fab := rfl
@[simp] theorem State.modQuarter_links (s : State) (q : Nat) (f : Quarter → Quarter) : (s.modQuarter q f).links = s.links := rfl
@[simp] theorem State.modQuarter_pitons (s : State) (q : Nat) (f : Quarter → Quarter) : (s.modQuarter q f).pitons = s.pitons := rfl
@[simp] theorem State.modQuarter_pitq (s : State) (q : Nat) (f : Quarter → Quarter) : (s.modQuarter q f).pitq = s.pitq := rfl
@[simp] theorem State.modQuarter_ws (s : State) (q : Nat) (f : Quarter → Quarter) : (s.modQuarter q f).ws = s.ws := rfl
@[simp] theorem State.modQuarter_ks (s : State) (q : Nat) (f : Quarter → Quarter) : (s.modQuarter q f).ks = s.ks := rfl
@[simp] theorem State.modQuarter_host (s : State) (q : Nat) (f : Quarter → Quarter) : (s.modQuarter q f).host = s.host := rfl
@[simp] theorem State.modQuarter_cfgq (s : State) (q : Nat) (f : Quarter → Quarter) : (s.modQuarter q f).cfgq = s.cfgq := rfl
@[simp] theorem State.modQuarter_chans (s : State) (q : Nat) (f : Quarter → Quarter) : (s.modQuarter q f).chans = s.chans := rfl
@[simp] theorem State.modQuarter_units (s : State) (q : Nat) (f : Quarter → Quarter) : (s.modQuarter q f).units = s.units := rfl
@[simp] theorem State.modQuarter_cfgOf (s : State) (q : Nat) (f : Quarter → Quarter) : (s.modQuarter q f).cfgOf = s.cfgOf := rfl
@[simp] theorem State.modQuarter_entryOf (s : State) (q : Nat) (f : Quarter → Quarter) : (s.modQuarter q f).entryOf = s.entryOf := rfl
@[simp] theorem State.modQuarter_entryDue (s : State) (q : Nat) (f : Quarter → Quarter) : (s.modQuarter q f).entryDue = s.entryDue := rfl
@[simp] theorem State.modQuarter_askSince (s : State) (q : Nat) (f : Quarter → Quarter) : (s.modQuarter q f).askSince = s.askSince := rfl
@[simp] theorem State.modQuarter_zpages (s : State) (q : Nat) (f : Quarter → Quarter) : (s.modQuarter q f).zpages = s.zpages := rfl
@[simp] theorem State.modQuarter_pending (s : State) (q : Nat) (f : Quarter → Quarter) : (s.modQuarter q f).pending = s.pending := rfl
@[simp] theorem State.modQuarter_free (s : State) (q : Nat) (f : Quarter → Quarter) : (s.modQuarter q f).free = s.free := rfl
@[simp] theorem State.modQuarter_found (s : State) (q : Nat) (f : Quarter → Quarter) : (s.modQuarter q f).found = s.found := rfl
@[simp] theorem State.modQuarter_raised (s : State) (q : Nat) (f : Quarter → Quarter) : (s.modQuarter q f).raised = s.raised := rfl
@[simp] theorem State.modQuarter_caught (s : State) (q : Nat) (f : Quarter → Quarter) : (s.modQuarter q f).caught = s.caught := rfl
@[simp] theorem State.modQuarter_full (s : State) (q : Nat) (f : Quarter → Quarter) : (s.modQuarter q f).full = s.full := rfl
@[simp] theorem State.modQuarter_rcSeen (s : State) (q : Nat) (f : Quarter → Quarter) : (s.modQuarter q f).rcSeen = s.rcSeen := rfl
@[simp] theorem State.modQuarter_wrote (s : State) (q : Nat) (f : Quarter → Quarter) : (s.modQuarter q f).wrote = s.wrote := rfl
@[simp] theorem State.modQuarter_undo (s : State) (q : Nat) (f : Quarter → Quarter) : (s.modQuarter q f).undo = s.undo := rfl

/-! modChanter changes chanters alone. -/

@[simp] theorem State.modChanter_tick (s : State) (z : Nat) (f : Chanter → Chanter) : (s.modChanter z f).tick = s.tick := rfl
@[simp] theorem State.modChanter_ident (s : State) (z : Nat) (f : Chanter → Chanter) : (s.modChanter z f).ident = s.ident := rfl
@[simp] theorem State.modChanter_pins (s : State) (z : Nat) (f : Chanter → Chanter) : (s.modChanter z f).pins = s.pins := rfl
@[simp] theorem State.modChanter_boot (s : State) (z : Nat) (f : Chanter → Chanter) : (s.modChanter z f).boot = s.boot := rfl
@[simp] theorem State.modChanter_fw (s : State) (z : Nat) (f : Chanter → Chanter) : (s.modChanter z f).fw = s.fw := rfl
@[simp] theorem State.modChanter_tap (s : State) (z : Nat) (f : Chanter → Chanter) : (s.modChanter z f).tap = s.tap := rfl
@[simp] theorem State.modChanter_pst (s : State) (z : Nat) (f : Chanter → Chanter) : (s.modChanter z f).pst = s.pst := rfl
@[simp] theorem State.modChanter_flt (s : State) (z : Nat) (f : Chanter → Chanter) : (s.modChanter z f).flt = s.flt := rfl
@[simp] theorem State.modChanter_quarters (s : State) (z : Nat) (f : Chanter → Chanter) : (s.modChanter z f).quarters = s.quarters := rfl
@[simp] theorem State.modChanter_clk (s : State) (z : Nat) (f : Chanter → Chanter) : (s.modChanter z f).clk = s.clk := rfl
@[simp] theorem State.modChanter_zones (s : State) (z : Nat) (f : Chanter → Chanter) : (s.modChanter z f).zones = s.zones := rfl
@[simp] theorem State.modChanter_str (s : State) (z : Nat) (f : Chanter → Chanter) : (s.modChanter z f).str = s.str := rfl
@[simp] theorem State.modChanter_belays (s : State) (z : Nat) (f : Chanter → Chanter) : (s.modChanter z f).belays = s.belays := rfl
@[simp] theorem State.modChanter_pwr (s : State) (z : Nat) (f : Chanter → Chanter) : (s.modChanter z f).pwr = s.pwr := rfl
@[simp] theorem State.modChanter_trims (s : State) (z : Nat) (f : Chanter → Chanter) : (s.modChanter z f).trims = s.trims := rfl
@[simp] theorem State.modChanter_latch (s : State) (z : Nat) (f : Chanter → Chanter) : (s.modChanter z f).latch = s.latch := rfl
@[simp] theorem State.modChanter_evt (s : State) (z : Nat) (f : Chanter → Chanter) : (s.modChanter z f).evt = s.evt := rfl
@[simp] theorem State.modChanter_cmdq (s : State) (z : Nat) (f : Chanter → Chanter) : (s.modChanter z f).cmdq = s.cmdq := rfl
@[simp] theorem State.modChanter_seqs (s : State) (z : Nat) (f : Chanter → Chanter) : (s.modChanter z f).seqs = s.seqs := rfl
@[simp] theorem State.modChanter_svc (s : State) (z : Nat) (f : Chanter → Chanter) : (s.modChanter z f).svc = s.svc := rfl
@[simp] theorem State.modChanter_fab (s : State) (z : Nat) (f : Chanter → Chanter) : (s.modChanter z f).fab = s.fab := rfl
@[simp] theorem State.modChanter_links (s : State) (z : Nat) (f : Chanter → Chanter) : (s.modChanter z f).links = s.links := rfl
@[simp] theorem State.modChanter_pitons (s : State) (z : Nat) (f : Chanter → Chanter) : (s.modChanter z f).pitons = s.pitons := rfl
@[simp] theorem State.modChanter_pitq (s : State) (z : Nat) (f : Chanter → Chanter) : (s.modChanter z f).pitq = s.pitq := rfl
@[simp] theorem State.modChanter_ws (s : State) (z : Nat) (f : Chanter → Chanter) : (s.modChanter z f).ws = s.ws := rfl
@[simp] theorem State.modChanter_ks (s : State) (z : Nat) (f : Chanter → Chanter) : (s.modChanter z f).ks = s.ks := rfl
@[simp] theorem State.modChanter_host (s : State) (z : Nat) (f : Chanter → Chanter) : (s.modChanter z f).host = s.host := rfl
@[simp] theorem State.modChanter_cfgq (s : State) (z : Nat) (f : Chanter → Chanter) : (s.modChanter z f).cfgq = s.cfgq := rfl
@[simp] theorem State.modChanter_chans (s : State) (z : Nat) (f : Chanter → Chanter) : (s.modChanter z f).chans = s.chans := rfl
@[simp] theorem State.modChanter_units (s : State) (z : Nat) (f : Chanter → Chanter) : (s.modChanter z f).units = s.units := rfl
@[simp] theorem State.modChanter_cfgOf (s : State) (z : Nat) (f : Chanter → Chanter) : (s.modChanter z f).cfgOf = s.cfgOf := rfl
@[simp] theorem State.modChanter_entryOf (s : State) (z : Nat) (f : Chanter → Chanter) : (s.modChanter z f).entryOf = s.entryOf := rfl
@[simp] theorem State.modChanter_entryDue (s : State) (z : Nat) (f : Chanter → Chanter) : (s.modChanter z f).entryDue = s.entryDue := rfl
@[simp] theorem State.modChanter_askSince (s : State) (z : Nat) (f : Chanter → Chanter) : (s.modChanter z f).askSince = s.askSince := rfl
@[simp] theorem State.modChanter_zpages (s : State) (z : Nat) (f : Chanter → Chanter) : (s.modChanter z f).zpages = s.zpages := rfl
@[simp] theorem State.modChanter_pending (s : State) (z : Nat) (f : Chanter → Chanter) : (s.modChanter z f).pending = s.pending := rfl
@[simp] theorem State.modChanter_free (s : State) (z : Nat) (f : Chanter → Chanter) : (s.modChanter z f).free = s.free := rfl
@[simp] theorem State.modChanter_found (s : State) (z : Nat) (f : Chanter → Chanter) : (s.modChanter z f).found = s.found := rfl
@[simp] theorem State.modChanter_raised (s : State) (z : Nat) (f : Chanter → Chanter) : (s.modChanter z f).raised = s.raised := rfl
@[simp] theorem State.modChanter_caught (s : State) (z : Nat) (f : Chanter → Chanter) : (s.modChanter z f).caught = s.caught := rfl
@[simp] theorem State.modChanter_full (s : State) (z : Nat) (f : Chanter → Chanter) : (s.modChanter z f).full = s.full := rfl
@[simp] theorem State.modChanter_rcSeen (s : State) (z : Nat) (f : Chanter → Chanter) : (s.modChanter z f).rcSeen = s.rcSeen := rfl
@[simp] theorem State.modChanter_wrote (s : State) (z : Nat) (f : Chanter → Chanter) : (s.modChanter z f).wrote = s.wrote := rfl
@[simp] theorem State.modChanter_undo (s : State) (z : Nat) (f : Chanter → Chanter) : (s.modChanter z f).undo = s.undo := rfl

/-! modZone changes zones alone. -/

@[simp] theorem State.modZone_tick (s : State) (z : Nat) (f : ZoneClk → ZoneClk) : (s.modZone z f).tick = s.tick := rfl
@[simp] theorem State.modZone_ident (s : State) (z : Nat) (f : ZoneClk → ZoneClk) : (s.modZone z f).ident = s.ident := rfl
@[simp] theorem State.modZone_pins (s : State) (z : Nat) (f : ZoneClk → ZoneClk) : (s.modZone z f).pins = s.pins := rfl
@[simp] theorem State.modZone_boot (s : State) (z : Nat) (f : ZoneClk → ZoneClk) : (s.modZone z f).boot = s.boot := rfl
@[simp] theorem State.modZone_fw (s : State) (z : Nat) (f : ZoneClk → ZoneClk) : (s.modZone z f).fw = s.fw := rfl
@[simp] theorem State.modZone_tap (s : State) (z : Nat) (f : ZoneClk → ZoneClk) : (s.modZone z f).tap = s.tap := rfl
@[simp] theorem State.modZone_pst (s : State) (z : Nat) (f : ZoneClk → ZoneClk) : (s.modZone z f).pst = s.pst := rfl
@[simp] theorem State.modZone_flt (s : State) (z : Nat) (f : ZoneClk → ZoneClk) : (s.modZone z f).flt = s.flt := rfl
@[simp] theorem State.modZone_quarters (s : State) (z : Nat) (f : ZoneClk → ZoneClk) : (s.modZone z f).quarters = s.quarters := rfl
@[simp] theorem State.modZone_clk (s : State) (z : Nat) (f : ZoneClk → ZoneClk) : (s.modZone z f).clk = s.clk := rfl
@[simp] theorem State.modZone_chanters (s : State) (z : Nat) (f : ZoneClk → ZoneClk) : (s.modZone z f).chanters = s.chanters := rfl
@[simp] theorem State.modZone_str (s : State) (z : Nat) (f : ZoneClk → ZoneClk) : (s.modZone z f).str = s.str := rfl
@[simp] theorem State.modZone_belays (s : State) (z : Nat) (f : ZoneClk → ZoneClk) : (s.modZone z f).belays = s.belays := rfl
@[simp] theorem State.modZone_pwr (s : State) (z : Nat) (f : ZoneClk → ZoneClk) : (s.modZone z f).pwr = s.pwr := rfl
@[simp] theorem State.modZone_trims (s : State) (z : Nat) (f : ZoneClk → ZoneClk) : (s.modZone z f).trims = s.trims := rfl
@[simp] theorem State.modZone_latch (s : State) (z : Nat) (f : ZoneClk → ZoneClk) : (s.modZone z f).latch = s.latch := rfl
@[simp] theorem State.modZone_evt (s : State) (z : Nat) (f : ZoneClk → ZoneClk) : (s.modZone z f).evt = s.evt := rfl
@[simp] theorem State.modZone_cmdq (s : State) (z : Nat) (f : ZoneClk → ZoneClk) : (s.modZone z f).cmdq = s.cmdq := rfl
@[simp] theorem State.modZone_seqs (s : State) (z : Nat) (f : ZoneClk → ZoneClk) : (s.modZone z f).seqs = s.seqs := rfl
@[simp] theorem State.modZone_svc (s : State) (z : Nat) (f : ZoneClk → ZoneClk) : (s.modZone z f).svc = s.svc := rfl
@[simp] theorem State.modZone_fab (s : State) (z : Nat) (f : ZoneClk → ZoneClk) : (s.modZone z f).fab = s.fab := rfl
@[simp] theorem State.modZone_links (s : State) (z : Nat) (f : ZoneClk → ZoneClk) : (s.modZone z f).links = s.links := rfl
@[simp] theorem State.modZone_pitons (s : State) (z : Nat) (f : ZoneClk → ZoneClk) : (s.modZone z f).pitons = s.pitons := rfl
@[simp] theorem State.modZone_pitq (s : State) (z : Nat) (f : ZoneClk → ZoneClk) : (s.modZone z f).pitq = s.pitq := rfl
@[simp] theorem State.modZone_ws (s : State) (z : Nat) (f : ZoneClk → ZoneClk) : (s.modZone z f).ws = s.ws := rfl
@[simp] theorem State.modZone_ks (s : State) (z : Nat) (f : ZoneClk → ZoneClk) : (s.modZone z f).ks = s.ks := rfl
@[simp] theorem State.modZone_host (s : State) (z : Nat) (f : ZoneClk → ZoneClk) : (s.modZone z f).host = s.host := rfl
@[simp] theorem State.modZone_cfgq (s : State) (z : Nat) (f : ZoneClk → ZoneClk) : (s.modZone z f).cfgq = s.cfgq := rfl
@[simp] theorem State.modZone_chans (s : State) (z : Nat) (f : ZoneClk → ZoneClk) : (s.modZone z f).chans = s.chans := rfl
@[simp] theorem State.modZone_units (s : State) (z : Nat) (f : ZoneClk → ZoneClk) : (s.modZone z f).units = s.units := rfl
@[simp] theorem State.modZone_cfgOf (s : State) (z : Nat) (f : ZoneClk → ZoneClk) : (s.modZone z f).cfgOf = s.cfgOf := rfl
@[simp] theorem State.modZone_entryOf (s : State) (z : Nat) (f : ZoneClk → ZoneClk) : (s.modZone z f).entryOf = s.entryOf := rfl
@[simp] theorem State.modZone_entryDue (s : State) (z : Nat) (f : ZoneClk → ZoneClk) : (s.modZone z f).entryDue = s.entryDue := rfl
@[simp] theorem State.modZone_askSince (s : State) (z : Nat) (f : ZoneClk → ZoneClk) : (s.modZone z f).askSince = s.askSince := rfl
@[simp] theorem State.modZone_zpages (s : State) (z : Nat) (f : ZoneClk → ZoneClk) : (s.modZone z f).zpages = s.zpages := rfl
@[simp] theorem State.modZone_pending (s : State) (z : Nat) (f : ZoneClk → ZoneClk) : (s.modZone z f).pending = s.pending := rfl
@[simp] theorem State.modZone_free (s : State) (z : Nat) (f : ZoneClk → ZoneClk) : (s.modZone z f).free = s.free := rfl
@[simp] theorem State.modZone_found (s : State) (z : Nat) (f : ZoneClk → ZoneClk) : (s.modZone z f).found = s.found := rfl
@[simp] theorem State.modZone_raised (s : State) (z : Nat) (f : ZoneClk → ZoneClk) : (s.modZone z f).raised = s.raised := rfl
@[simp] theorem State.modZone_caught (s : State) (z : Nat) (f : ZoneClk → ZoneClk) : (s.modZone z f).caught = s.caught := rfl
@[simp] theorem State.modZone_full (s : State) (z : Nat) (f : ZoneClk → ZoneClk) : (s.modZone z f).full = s.full := rfl
@[simp] theorem State.modZone_rcSeen (s : State) (z : Nat) (f : ZoneClk → ZoneClk) : (s.modZone z f).rcSeen = s.rcSeen := rfl
@[simp] theorem State.modZone_wrote (s : State) (z : Nat) (f : ZoneClk → ZoneClk) : (s.modZone z f).wrote = s.wrote := rfl
@[simp] theorem State.modZone_undo (s : State) (z : Nat) (f : ZoneClk → ZoneClk) : (s.modZone z f).undo = s.undo := rfl

/-! modBelay changes belays alone. -/

@[simp] theorem State.modBelay_tick (s : State) (k : Nat) (f : Belay → Belay) : (s.modBelay k f).tick = s.tick := rfl
@[simp] theorem State.modBelay_ident (s : State) (k : Nat) (f : Belay → Belay) : (s.modBelay k f).ident = s.ident := rfl
@[simp] theorem State.modBelay_pins (s : State) (k : Nat) (f : Belay → Belay) : (s.modBelay k f).pins = s.pins := rfl
@[simp] theorem State.modBelay_boot (s : State) (k : Nat) (f : Belay → Belay) : (s.modBelay k f).boot = s.boot := rfl
@[simp] theorem State.modBelay_fw (s : State) (k : Nat) (f : Belay → Belay) : (s.modBelay k f).fw = s.fw := rfl
@[simp] theorem State.modBelay_tap (s : State) (k : Nat) (f : Belay → Belay) : (s.modBelay k f).tap = s.tap := rfl
@[simp] theorem State.modBelay_pst (s : State) (k : Nat) (f : Belay → Belay) : (s.modBelay k f).pst = s.pst := rfl
@[simp] theorem State.modBelay_flt (s : State) (k : Nat) (f : Belay → Belay) : (s.modBelay k f).flt = s.flt := rfl
@[simp] theorem State.modBelay_quarters (s : State) (k : Nat) (f : Belay → Belay) : (s.modBelay k f).quarters = s.quarters := rfl
@[simp] theorem State.modBelay_clk (s : State) (k : Nat) (f : Belay → Belay) : (s.modBelay k f).clk = s.clk := rfl
@[simp] theorem State.modBelay_chanters (s : State) (k : Nat) (f : Belay → Belay) : (s.modBelay k f).chanters = s.chanters := rfl
@[simp] theorem State.modBelay_zones (s : State) (k : Nat) (f : Belay → Belay) : (s.modBelay k f).zones = s.zones := rfl
@[simp] theorem State.modBelay_str (s : State) (k : Nat) (f : Belay → Belay) : (s.modBelay k f).str = s.str := rfl
@[simp] theorem State.modBelay_pwr (s : State) (k : Nat) (f : Belay → Belay) : (s.modBelay k f).pwr = s.pwr := rfl
@[simp] theorem State.modBelay_trims (s : State) (k : Nat) (f : Belay → Belay) : (s.modBelay k f).trims = s.trims := rfl
@[simp] theorem State.modBelay_latch (s : State) (k : Nat) (f : Belay → Belay) : (s.modBelay k f).latch = s.latch := rfl
@[simp] theorem State.modBelay_evt (s : State) (k : Nat) (f : Belay → Belay) : (s.modBelay k f).evt = s.evt := rfl
@[simp] theorem State.modBelay_cmdq (s : State) (k : Nat) (f : Belay → Belay) : (s.modBelay k f).cmdq = s.cmdq := rfl
@[simp] theorem State.modBelay_seqs (s : State) (k : Nat) (f : Belay → Belay) : (s.modBelay k f).seqs = s.seqs := rfl
@[simp] theorem State.modBelay_svc (s : State) (k : Nat) (f : Belay → Belay) : (s.modBelay k f).svc = s.svc := rfl
@[simp] theorem State.modBelay_fab (s : State) (k : Nat) (f : Belay → Belay) : (s.modBelay k f).fab = s.fab := rfl
@[simp] theorem State.modBelay_links (s : State) (k : Nat) (f : Belay → Belay) : (s.modBelay k f).links = s.links := rfl
@[simp] theorem State.modBelay_pitons (s : State) (k : Nat) (f : Belay → Belay) : (s.modBelay k f).pitons = s.pitons := rfl
@[simp] theorem State.modBelay_pitq (s : State) (k : Nat) (f : Belay → Belay) : (s.modBelay k f).pitq = s.pitq := rfl
@[simp] theorem State.modBelay_ws (s : State) (k : Nat) (f : Belay → Belay) : (s.modBelay k f).ws = s.ws := rfl
@[simp] theorem State.modBelay_ks (s : State) (k : Nat) (f : Belay → Belay) : (s.modBelay k f).ks = s.ks := rfl
@[simp] theorem State.modBelay_host (s : State) (k : Nat) (f : Belay → Belay) : (s.modBelay k f).host = s.host := rfl
@[simp] theorem State.modBelay_cfgq (s : State) (k : Nat) (f : Belay → Belay) : (s.modBelay k f).cfgq = s.cfgq := rfl
@[simp] theorem State.modBelay_chans (s : State) (k : Nat) (f : Belay → Belay) : (s.modBelay k f).chans = s.chans := rfl
@[simp] theorem State.modBelay_units (s : State) (k : Nat) (f : Belay → Belay) : (s.modBelay k f).units = s.units := rfl
@[simp] theorem State.modBelay_cfgOf (s : State) (k : Nat) (f : Belay → Belay) : (s.modBelay k f).cfgOf = s.cfgOf := rfl
@[simp] theorem State.modBelay_entryOf (s : State) (k : Nat) (f : Belay → Belay) : (s.modBelay k f).entryOf = s.entryOf := rfl
@[simp] theorem State.modBelay_entryDue (s : State) (k : Nat) (f : Belay → Belay) : (s.modBelay k f).entryDue = s.entryDue := rfl
@[simp] theorem State.modBelay_askSince (s : State) (k : Nat) (f : Belay → Belay) : (s.modBelay k f).askSince = s.askSince := rfl
@[simp] theorem State.modBelay_zpages (s : State) (k : Nat) (f : Belay → Belay) : (s.modBelay k f).zpages = s.zpages := rfl
@[simp] theorem State.modBelay_pending (s : State) (k : Nat) (f : Belay → Belay) : (s.modBelay k f).pending = s.pending := rfl
@[simp] theorem State.modBelay_free (s : State) (k : Nat) (f : Belay → Belay) : (s.modBelay k f).free = s.free := rfl
@[simp] theorem State.modBelay_found (s : State) (k : Nat) (f : Belay → Belay) : (s.modBelay k f).found = s.found := rfl
@[simp] theorem State.modBelay_raised (s : State) (k : Nat) (f : Belay → Belay) : (s.modBelay k f).raised = s.raised := rfl
@[simp] theorem State.modBelay_caught (s : State) (k : Nat) (f : Belay → Belay) : (s.modBelay k f).caught = s.caught := rfl
@[simp] theorem State.modBelay_full (s : State) (k : Nat) (f : Belay → Belay) : (s.modBelay k f).full = s.full := rfl
@[simp] theorem State.modBelay_rcSeen (s : State) (k : Nat) (f : Belay → Belay) : (s.modBelay k f).rcSeen = s.rcSeen := rfl
@[simp] theorem State.modBelay_wrote (s : State) (k : Nat) (f : Belay → Belay) : (s.modBelay k f).wrote = s.wrote := rfl
@[simp] theorem State.modBelay_undo (s : State) (k : Nat) (f : Belay → Belay) : (s.modBelay k f).undo = s.undo := rfl

/-! modTrim changes trims alone. -/

@[simp] theorem State.modTrim_tick (s : State) (q : Nat) (f : Trim → Trim) : (s.modTrim q f).tick = s.tick := rfl
@[simp] theorem State.modTrim_ident (s : State) (q : Nat) (f : Trim → Trim) : (s.modTrim q f).ident = s.ident := rfl
@[simp] theorem State.modTrim_pins (s : State) (q : Nat) (f : Trim → Trim) : (s.modTrim q f).pins = s.pins := rfl
@[simp] theorem State.modTrim_boot (s : State) (q : Nat) (f : Trim → Trim) : (s.modTrim q f).boot = s.boot := rfl
@[simp] theorem State.modTrim_fw (s : State) (q : Nat) (f : Trim → Trim) : (s.modTrim q f).fw = s.fw := rfl
@[simp] theorem State.modTrim_tap (s : State) (q : Nat) (f : Trim → Trim) : (s.modTrim q f).tap = s.tap := rfl
@[simp] theorem State.modTrim_pst (s : State) (q : Nat) (f : Trim → Trim) : (s.modTrim q f).pst = s.pst := rfl
@[simp] theorem State.modTrim_flt (s : State) (q : Nat) (f : Trim → Trim) : (s.modTrim q f).flt = s.flt := rfl
@[simp] theorem State.modTrim_quarters (s : State) (q : Nat) (f : Trim → Trim) : (s.modTrim q f).quarters = s.quarters := rfl
@[simp] theorem State.modTrim_clk (s : State) (q : Nat) (f : Trim → Trim) : (s.modTrim q f).clk = s.clk := rfl
@[simp] theorem State.modTrim_chanters (s : State) (q : Nat) (f : Trim → Trim) : (s.modTrim q f).chanters = s.chanters := rfl
@[simp] theorem State.modTrim_zones (s : State) (q : Nat) (f : Trim → Trim) : (s.modTrim q f).zones = s.zones := rfl
@[simp] theorem State.modTrim_str (s : State) (q : Nat) (f : Trim → Trim) : (s.modTrim q f).str = s.str := rfl
@[simp] theorem State.modTrim_belays (s : State) (q : Nat) (f : Trim → Trim) : (s.modTrim q f).belays = s.belays := rfl
@[simp] theorem State.modTrim_pwr (s : State) (q : Nat) (f : Trim → Trim) : (s.modTrim q f).pwr = s.pwr := rfl
@[simp] theorem State.modTrim_latch (s : State) (q : Nat) (f : Trim → Trim) : (s.modTrim q f).latch = s.latch := rfl
@[simp] theorem State.modTrim_evt (s : State) (q : Nat) (f : Trim → Trim) : (s.modTrim q f).evt = s.evt := rfl
@[simp] theorem State.modTrim_cmdq (s : State) (q : Nat) (f : Trim → Trim) : (s.modTrim q f).cmdq = s.cmdq := rfl
@[simp] theorem State.modTrim_seqs (s : State) (q : Nat) (f : Trim → Trim) : (s.modTrim q f).seqs = s.seqs := rfl
@[simp] theorem State.modTrim_svc (s : State) (q : Nat) (f : Trim → Trim) : (s.modTrim q f).svc = s.svc := rfl
@[simp] theorem State.modTrim_fab (s : State) (q : Nat) (f : Trim → Trim) : (s.modTrim q f).fab = s.fab := rfl
@[simp] theorem State.modTrim_links (s : State) (q : Nat) (f : Trim → Trim) : (s.modTrim q f).links = s.links := rfl
@[simp] theorem State.modTrim_pitons (s : State) (q : Nat) (f : Trim → Trim) : (s.modTrim q f).pitons = s.pitons := rfl
@[simp] theorem State.modTrim_pitq (s : State) (q : Nat) (f : Trim → Trim) : (s.modTrim q f).pitq = s.pitq := rfl
@[simp] theorem State.modTrim_ws (s : State) (q : Nat) (f : Trim → Trim) : (s.modTrim q f).ws = s.ws := rfl
@[simp] theorem State.modTrim_ks (s : State) (q : Nat) (f : Trim → Trim) : (s.modTrim q f).ks = s.ks := rfl
@[simp] theorem State.modTrim_host (s : State) (q : Nat) (f : Trim → Trim) : (s.modTrim q f).host = s.host := rfl
@[simp] theorem State.modTrim_cfgq (s : State) (q : Nat) (f : Trim → Trim) : (s.modTrim q f).cfgq = s.cfgq := rfl
@[simp] theorem State.modTrim_chans (s : State) (q : Nat) (f : Trim → Trim) : (s.modTrim q f).chans = s.chans := rfl
@[simp] theorem State.modTrim_units (s : State) (q : Nat) (f : Trim → Trim) : (s.modTrim q f).units = s.units := rfl
@[simp] theorem State.modTrim_cfgOf (s : State) (q : Nat) (f : Trim → Trim) : (s.modTrim q f).cfgOf = s.cfgOf := rfl
@[simp] theorem State.modTrim_entryOf (s : State) (q : Nat) (f : Trim → Trim) : (s.modTrim q f).entryOf = s.entryOf := rfl
@[simp] theorem State.modTrim_entryDue (s : State) (q : Nat) (f : Trim → Trim) : (s.modTrim q f).entryDue = s.entryDue := rfl
@[simp] theorem State.modTrim_askSince (s : State) (q : Nat) (f : Trim → Trim) : (s.modTrim q f).askSince = s.askSince := rfl
@[simp] theorem State.modTrim_zpages (s : State) (q : Nat) (f : Trim → Trim) : (s.modTrim q f).zpages = s.zpages := rfl
@[simp] theorem State.modTrim_pending (s : State) (q : Nat) (f : Trim → Trim) : (s.modTrim q f).pending = s.pending := rfl
@[simp] theorem State.modTrim_free (s : State) (q : Nat) (f : Trim → Trim) : (s.modTrim q f).free = s.free := rfl
@[simp] theorem State.modTrim_found (s : State) (q : Nat) (f : Trim → Trim) : (s.modTrim q f).found = s.found := rfl
@[simp] theorem State.modTrim_raised (s : State) (q : Nat) (f : Trim → Trim) : (s.modTrim q f).raised = s.raised := rfl
@[simp] theorem State.modTrim_caught (s : State) (q : Nat) (f : Trim → Trim) : (s.modTrim q f).caught = s.caught := rfl
@[simp] theorem State.modTrim_full (s : State) (q : Nat) (f : Trim → Trim) : (s.modTrim q f).full = s.full := rfl
@[simp] theorem State.modTrim_rcSeen (s : State) (q : Nat) (f : Trim → Trim) : (s.modTrim q f).rcSeen = s.rcSeen := rfl
@[simp] theorem State.modTrim_wrote (s : State) (q : Nat) (f : Trim → Trim) : (s.modTrim q f).wrote = s.wrote := rfl
@[simp] theorem State.modTrim_undo (s : State) (q : Nat) (f : Trim → Trim) : (s.modTrim q f).undo = s.undo := rfl

/-! modQueue changes cmdq alone. -/

@[simp] theorem State.modQueue_tick (s : State) (n : Nat) (f : CmdQ → CmdQ) : (s.modQueue n f).tick = s.tick := rfl
@[simp] theorem State.modQueue_ident (s : State) (n : Nat) (f : CmdQ → CmdQ) : (s.modQueue n f).ident = s.ident := rfl
@[simp] theorem State.modQueue_pins (s : State) (n : Nat) (f : CmdQ → CmdQ) : (s.modQueue n f).pins = s.pins := rfl
@[simp] theorem State.modQueue_boot (s : State) (n : Nat) (f : CmdQ → CmdQ) : (s.modQueue n f).boot = s.boot := rfl
@[simp] theorem State.modQueue_fw (s : State) (n : Nat) (f : CmdQ → CmdQ) : (s.modQueue n f).fw = s.fw := rfl
@[simp] theorem State.modQueue_tap (s : State) (n : Nat) (f : CmdQ → CmdQ) : (s.modQueue n f).tap = s.tap := rfl
@[simp] theorem State.modQueue_pst (s : State) (n : Nat) (f : CmdQ → CmdQ) : (s.modQueue n f).pst = s.pst := rfl
@[simp] theorem State.modQueue_flt (s : State) (n : Nat) (f : CmdQ → CmdQ) : (s.modQueue n f).flt = s.flt := rfl
@[simp] theorem State.modQueue_quarters (s : State) (n : Nat) (f : CmdQ → CmdQ) : (s.modQueue n f).quarters = s.quarters := rfl
@[simp] theorem State.modQueue_clk (s : State) (n : Nat) (f : CmdQ → CmdQ) : (s.modQueue n f).clk = s.clk := rfl
@[simp] theorem State.modQueue_chanters (s : State) (n : Nat) (f : CmdQ → CmdQ) : (s.modQueue n f).chanters = s.chanters := rfl
@[simp] theorem State.modQueue_zones (s : State) (n : Nat) (f : CmdQ → CmdQ) : (s.modQueue n f).zones = s.zones := rfl
@[simp] theorem State.modQueue_str (s : State) (n : Nat) (f : CmdQ → CmdQ) : (s.modQueue n f).str = s.str := rfl
@[simp] theorem State.modQueue_belays (s : State) (n : Nat) (f : CmdQ → CmdQ) : (s.modQueue n f).belays = s.belays := rfl
@[simp] theorem State.modQueue_pwr (s : State) (n : Nat) (f : CmdQ → CmdQ) : (s.modQueue n f).pwr = s.pwr := rfl
@[simp] theorem State.modQueue_trims (s : State) (n : Nat) (f : CmdQ → CmdQ) : (s.modQueue n f).trims = s.trims := rfl
@[simp] theorem State.modQueue_latch (s : State) (n : Nat) (f : CmdQ → CmdQ) : (s.modQueue n f).latch = s.latch := rfl
@[simp] theorem State.modQueue_evt (s : State) (n : Nat) (f : CmdQ → CmdQ) : (s.modQueue n f).evt = s.evt := rfl
@[simp] theorem State.modQueue_seqs (s : State) (n : Nat) (f : CmdQ → CmdQ) : (s.modQueue n f).seqs = s.seqs := rfl
@[simp] theorem State.modQueue_svc (s : State) (n : Nat) (f : CmdQ → CmdQ) : (s.modQueue n f).svc = s.svc := rfl
@[simp] theorem State.modQueue_fab (s : State) (n : Nat) (f : CmdQ → CmdQ) : (s.modQueue n f).fab = s.fab := rfl
@[simp] theorem State.modQueue_links (s : State) (n : Nat) (f : CmdQ → CmdQ) : (s.modQueue n f).links = s.links := rfl
@[simp] theorem State.modQueue_pitons (s : State) (n : Nat) (f : CmdQ → CmdQ) : (s.modQueue n f).pitons = s.pitons := rfl
@[simp] theorem State.modQueue_pitq (s : State) (n : Nat) (f : CmdQ → CmdQ) : (s.modQueue n f).pitq = s.pitq := rfl
@[simp] theorem State.modQueue_ws (s : State) (n : Nat) (f : CmdQ → CmdQ) : (s.modQueue n f).ws = s.ws := rfl
@[simp] theorem State.modQueue_ks (s : State) (n : Nat) (f : CmdQ → CmdQ) : (s.modQueue n f).ks = s.ks := rfl
@[simp] theorem State.modQueue_host (s : State) (n : Nat) (f : CmdQ → CmdQ) : (s.modQueue n f).host = s.host := rfl
@[simp] theorem State.modQueue_cfgq (s : State) (n : Nat) (f : CmdQ → CmdQ) : (s.modQueue n f).cfgq = s.cfgq := rfl
@[simp] theorem State.modQueue_chans (s : State) (n : Nat) (f : CmdQ → CmdQ) : (s.modQueue n f).chans = s.chans := rfl
@[simp] theorem State.modQueue_units (s : State) (n : Nat) (f : CmdQ → CmdQ) : (s.modQueue n f).units = s.units := rfl
@[simp] theorem State.modQueue_cfgOf (s : State) (n : Nat) (f : CmdQ → CmdQ) : (s.modQueue n f).cfgOf = s.cfgOf := rfl
@[simp] theorem State.modQueue_entryOf (s : State) (n : Nat) (f : CmdQ → CmdQ) : (s.modQueue n f).entryOf = s.entryOf := rfl
@[simp] theorem State.modQueue_entryDue (s : State) (n : Nat) (f : CmdQ → CmdQ) : (s.modQueue n f).entryDue = s.entryDue := rfl
@[simp] theorem State.modQueue_askSince (s : State) (n : Nat) (f : CmdQ → CmdQ) : (s.modQueue n f).askSince = s.askSince := rfl
@[simp] theorem State.modQueue_zpages (s : State) (n : Nat) (f : CmdQ → CmdQ) : (s.modQueue n f).zpages = s.zpages := rfl
@[simp] theorem State.modQueue_pending (s : State) (n : Nat) (f : CmdQ → CmdQ) : (s.modQueue n f).pending = s.pending := rfl
@[simp] theorem State.modQueue_free (s : State) (n : Nat) (f : CmdQ → CmdQ) : (s.modQueue n f).free = s.free := rfl
@[simp] theorem State.modQueue_found (s : State) (n : Nat) (f : CmdQ → CmdQ) : (s.modQueue n f).found = s.found := rfl
@[simp] theorem State.modQueue_raised (s : State) (n : Nat) (f : CmdQ → CmdQ) : (s.modQueue n f).raised = s.raised := rfl
@[simp] theorem State.modQueue_caught (s : State) (n : Nat) (f : CmdQ → CmdQ) : (s.modQueue n f).caught = s.caught := rfl
@[simp] theorem State.modQueue_full (s : State) (n : Nat) (f : CmdQ → CmdQ) : (s.modQueue n f).full = s.full := rfl
@[simp] theorem State.modQueue_rcSeen (s : State) (n : Nat) (f : CmdQ → CmdQ) : (s.modQueue n f).rcSeen = s.rcSeen := rfl
@[simp] theorem State.modQueue_wrote (s : State) (n : Nat) (f : CmdQ → CmdQ) : (s.modQueue n f).wrote = s.wrote := rfl
@[simp] theorem State.modQueue_undo (s : State) (n : Nat) (f : CmdQ → CmdQ) : (s.modQueue n f).undo = s.undo := rfl

/-! modSeqq changes seqs alone. -/

@[simp] theorem State.modSeqq_tick (s : State) (q : Nat) (f : SeqQ → SeqQ) : (s.modSeqq q f).tick = s.tick := rfl
@[simp] theorem State.modSeqq_ident (s : State) (q : Nat) (f : SeqQ → SeqQ) : (s.modSeqq q f).ident = s.ident := rfl
@[simp] theorem State.modSeqq_pins (s : State) (q : Nat) (f : SeqQ → SeqQ) : (s.modSeqq q f).pins = s.pins := rfl
@[simp] theorem State.modSeqq_boot (s : State) (q : Nat) (f : SeqQ → SeqQ) : (s.modSeqq q f).boot = s.boot := rfl
@[simp] theorem State.modSeqq_fw (s : State) (q : Nat) (f : SeqQ → SeqQ) : (s.modSeqq q f).fw = s.fw := rfl
@[simp] theorem State.modSeqq_tap (s : State) (q : Nat) (f : SeqQ → SeqQ) : (s.modSeqq q f).tap = s.tap := rfl
@[simp] theorem State.modSeqq_pst (s : State) (q : Nat) (f : SeqQ → SeqQ) : (s.modSeqq q f).pst = s.pst := rfl
@[simp] theorem State.modSeqq_flt (s : State) (q : Nat) (f : SeqQ → SeqQ) : (s.modSeqq q f).flt = s.flt := rfl
@[simp] theorem State.modSeqq_quarters (s : State) (q : Nat) (f : SeqQ → SeqQ) : (s.modSeqq q f).quarters = s.quarters := rfl
@[simp] theorem State.modSeqq_clk (s : State) (q : Nat) (f : SeqQ → SeqQ) : (s.modSeqq q f).clk = s.clk := rfl
@[simp] theorem State.modSeqq_chanters (s : State) (q : Nat) (f : SeqQ → SeqQ) : (s.modSeqq q f).chanters = s.chanters := rfl
@[simp] theorem State.modSeqq_zones (s : State) (q : Nat) (f : SeqQ → SeqQ) : (s.modSeqq q f).zones = s.zones := rfl
@[simp] theorem State.modSeqq_str (s : State) (q : Nat) (f : SeqQ → SeqQ) : (s.modSeqq q f).str = s.str := rfl
@[simp] theorem State.modSeqq_belays (s : State) (q : Nat) (f : SeqQ → SeqQ) : (s.modSeqq q f).belays = s.belays := rfl
@[simp] theorem State.modSeqq_pwr (s : State) (q : Nat) (f : SeqQ → SeqQ) : (s.modSeqq q f).pwr = s.pwr := rfl
@[simp] theorem State.modSeqq_trims (s : State) (q : Nat) (f : SeqQ → SeqQ) : (s.modSeqq q f).trims = s.trims := rfl
@[simp] theorem State.modSeqq_latch (s : State) (q : Nat) (f : SeqQ → SeqQ) : (s.modSeqq q f).latch = s.latch := rfl
@[simp] theorem State.modSeqq_evt (s : State) (q : Nat) (f : SeqQ → SeqQ) : (s.modSeqq q f).evt = s.evt := rfl
@[simp] theorem State.modSeqq_cmdq (s : State) (q : Nat) (f : SeqQ → SeqQ) : (s.modSeqq q f).cmdq = s.cmdq := rfl
@[simp] theorem State.modSeqq_svc (s : State) (q : Nat) (f : SeqQ → SeqQ) : (s.modSeqq q f).svc = s.svc := rfl
@[simp] theorem State.modSeqq_fab (s : State) (q : Nat) (f : SeqQ → SeqQ) : (s.modSeqq q f).fab = s.fab := rfl
@[simp] theorem State.modSeqq_links (s : State) (q : Nat) (f : SeqQ → SeqQ) : (s.modSeqq q f).links = s.links := rfl
@[simp] theorem State.modSeqq_pitons (s : State) (q : Nat) (f : SeqQ → SeqQ) : (s.modSeqq q f).pitons = s.pitons := rfl
@[simp] theorem State.modSeqq_pitq (s : State) (q : Nat) (f : SeqQ → SeqQ) : (s.modSeqq q f).pitq = s.pitq := rfl
@[simp] theorem State.modSeqq_ws (s : State) (q : Nat) (f : SeqQ → SeqQ) : (s.modSeqq q f).ws = s.ws := rfl
@[simp] theorem State.modSeqq_ks (s : State) (q : Nat) (f : SeqQ → SeqQ) : (s.modSeqq q f).ks = s.ks := rfl
@[simp] theorem State.modSeqq_host (s : State) (q : Nat) (f : SeqQ → SeqQ) : (s.modSeqq q f).host = s.host := rfl
@[simp] theorem State.modSeqq_cfgq (s : State) (q : Nat) (f : SeqQ → SeqQ) : (s.modSeqq q f).cfgq = s.cfgq := rfl
@[simp] theorem State.modSeqq_chans (s : State) (q : Nat) (f : SeqQ → SeqQ) : (s.modSeqq q f).chans = s.chans := rfl
@[simp] theorem State.modSeqq_units (s : State) (q : Nat) (f : SeqQ → SeqQ) : (s.modSeqq q f).units = s.units := rfl
@[simp] theorem State.modSeqq_cfgOf (s : State) (q : Nat) (f : SeqQ → SeqQ) : (s.modSeqq q f).cfgOf = s.cfgOf := rfl
@[simp] theorem State.modSeqq_entryOf (s : State) (q : Nat) (f : SeqQ → SeqQ) : (s.modSeqq q f).entryOf = s.entryOf := rfl
@[simp] theorem State.modSeqq_entryDue (s : State) (q : Nat) (f : SeqQ → SeqQ) : (s.modSeqq q f).entryDue = s.entryDue := rfl
@[simp] theorem State.modSeqq_askSince (s : State) (q : Nat) (f : SeqQ → SeqQ) : (s.modSeqq q f).askSince = s.askSince := rfl
@[simp] theorem State.modSeqq_zpages (s : State) (q : Nat) (f : SeqQ → SeqQ) : (s.modSeqq q f).zpages = s.zpages := rfl
@[simp] theorem State.modSeqq_pending (s : State) (q : Nat) (f : SeqQ → SeqQ) : (s.modSeqq q f).pending = s.pending := rfl
@[simp] theorem State.modSeqq_free (s : State) (q : Nat) (f : SeqQ → SeqQ) : (s.modSeqq q f).free = s.free := rfl
@[simp] theorem State.modSeqq_found (s : State) (q : Nat) (f : SeqQ → SeqQ) : (s.modSeqq q f).found = s.found := rfl
@[simp] theorem State.modSeqq_raised (s : State) (q : Nat) (f : SeqQ → SeqQ) : (s.modSeqq q f).raised = s.raised := rfl
@[simp] theorem State.modSeqq_caught (s : State) (q : Nat) (f : SeqQ → SeqQ) : (s.modSeqq q f).caught = s.caught := rfl
@[simp] theorem State.modSeqq_full (s : State) (q : Nat) (f : SeqQ → SeqQ) : (s.modSeqq q f).full = s.full := rfl
@[simp] theorem State.modSeqq_rcSeen (s : State) (q : Nat) (f : SeqQ → SeqQ) : (s.modSeqq q f).rcSeen = s.rcSeen := rfl
@[simp] theorem State.modSeqq_wrote (s : State) (q : Nat) (f : SeqQ → SeqQ) : (s.modSeqq q f).wrote = s.wrote := rfl
@[simp] theorem State.modSeqq_undo (s : State) (q : Nat) (f : SeqQ → SeqQ) : (s.modSeqq q f).undo = s.undo := rfl

/-! modSvc changes svc alone. -/

@[simp] theorem State.modSvc_tick (s : State) (q : Nat) (f : Svc → Svc) : (s.modSvc q f).tick = s.tick := rfl
@[simp] theorem State.modSvc_ident (s : State) (q : Nat) (f : Svc → Svc) : (s.modSvc q f).ident = s.ident := rfl
@[simp] theorem State.modSvc_pins (s : State) (q : Nat) (f : Svc → Svc) : (s.modSvc q f).pins = s.pins := rfl
@[simp] theorem State.modSvc_boot (s : State) (q : Nat) (f : Svc → Svc) : (s.modSvc q f).boot = s.boot := rfl
@[simp] theorem State.modSvc_fw (s : State) (q : Nat) (f : Svc → Svc) : (s.modSvc q f).fw = s.fw := rfl
@[simp] theorem State.modSvc_tap (s : State) (q : Nat) (f : Svc → Svc) : (s.modSvc q f).tap = s.tap := rfl
@[simp] theorem State.modSvc_pst (s : State) (q : Nat) (f : Svc → Svc) : (s.modSvc q f).pst = s.pst := rfl
@[simp] theorem State.modSvc_flt (s : State) (q : Nat) (f : Svc → Svc) : (s.modSvc q f).flt = s.flt := rfl
@[simp] theorem State.modSvc_quarters (s : State) (q : Nat) (f : Svc → Svc) : (s.modSvc q f).quarters = s.quarters := rfl
@[simp] theorem State.modSvc_clk (s : State) (q : Nat) (f : Svc → Svc) : (s.modSvc q f).clk = s.clk := rfl
@[simp] theorem State.modSvc_chanters (s : State) (q : Nat) (f : Svc → Svc) : (s.modSvc q f).chanters = s.chanters := rfl
@[simp] theorem State.modSvc_zones (s : State) (q : Nat) (f : Svc → Svc) : (s.modSvc q f).zones = s.zones := rfl
@[simp] theorem State.modSvc_str (s : State) (q : Nat) (f : Svc → Svc) : (s.modSvc q f).str = s.str := rfl
@[simp] theorem State.modSvc_belays (s : State) (q : Nat) (f : Svc → Svc) : (s.modSvc q f).belays = s.belays := rfl
@[simp] theorem State.modSvc_pwr (s : State) (q : Nat) (f : Svc → Svc) : (s.modSvc q f).pwr = s.pwr := rfl
@[simp] theorem State.modSvc_trims (s : State) (q : Nat) (f : Svc → Svc) : (s.modSvc q f).trims = s.trims := rfl
@[simp] theorem State.modSvc_latch (s : State) (q : Nat) (f : Svc → Svc) : (s.modSvc q f).latch = s.latch := rfl
@[simp] theorem State.modSvc_evt (s : State) (q : Nat) (f : Svc → Svc) : (s.modSvc q f).evt = s.evt := rfl
@[simp] theorem State.modSvc_cmdq (s : State) (q : Nat) (f : Svc → Svc) : (s.modSvc q f).cmdq = s.cmdq := rfl
@[simp] theorem State.modSvc_seqs (s : State) (q : Nat) (f : Svc → Svc) : (s.modSvc q f).seqs = s.seqs := rfl
@[simp] theorem State.modSvc_fab (s : State) (q : Nat) (f : Svc → Svc) : (s.modSvc q f).fab = s.fab := rfl
@[simp] theorem State.modSvc_links (s : State) (q : Nat) (f : Svc → Svc) : (s.modSvc q f).links = s.links := rfl
@[simp] theorem State.modSvc_pitons (s : State) (q : Nat) (f : Svc → Svc) : (s.modSvc q f).pitons = s.pitons := rfl
@[simp] theorem State.modSvc_pitq (s : State) (q : Nat) (f : Svc → Svc) : (s.modSvc q f).pitq = s.pitq := rfl
@[simp] theorem State.modSvc_ws (s : State) (q : Nat) (f : Svc → Svc) : (s.modSvc q f).ws = s.ws := rfl
@[simp] theorem State.modSvc_ks (s : State) (q : Nat) (f : Svc → Svc) : (s.modSvc q f).ks = s.ks := rfl
@[simp] theorem State.modSvc_host (s : State) (q : Nat) (f : Svc → Svc) : (s.modSvc q f).host = s.host := rfl
@[simp] theorem State.modSvc_cfgq (s : State) (q : Nat) (f : Svc → Svc) : (s.modSvc q f).cfgq = s.cfgq := rfl
@[simp] theorem State.modSvc_chans (s : State) (q : Nat) (f : Svc → Svc) : (s.modSvc q f).chans = s.chans := rfl
@[simp] theorem State.modSvc_units (s : State) (q : Nat) (f : Svc → Svc) : (s.modSvc q f).units = s.units := rfl
@[simp] theorem State.modSvc_cfgOf (s : State) (q : Nat) (f : Svc → Svc) : (s.modSvc q f).cfgOf = s.cfgOf := rfl
@[simp] theorem State.modSvc_entryOf (s : State) (q : Nat) (f : Svc → Svc) : (s.modSvc q f).entryOf = s.entryOf := rfl
@[simp] theorem State.modSvc_entryDue (s : State) (q : Nat) (f : Svc → Svc) : (s.modSvc q f).entryDue = s.entryDue := rfl
@[simp] theorem State.modSvc_askSince (s : State) (q : Nat) (f : Svc → Svc) : (s.modSvc q f).askSince = s.askSince := rfl
@[simp] theorem State.modSvc_zpages (s : State) (q : Nat) (f : Svc → Svc) : (s.modSvc q f).zpages = s.zpages := rfl
@[simp] theorem State.modSvc_pending (s : State) (q : Nat) (f : Svc → Svc) : (s.modSvc q f).pending = s.pending := rfl
@[simp] theorem State.modSvc_free (s : State) (q : Nat) (f : Svc → Svc) : (s.modSvc q f).free = s.free := rfl
@[simp] theorem State.modSvc_found (s : State) (q : Nat) (f : Svc → Svc) : (s.modSvc q f).found = s.found := rfl
@[simp] theorem State.modSvc_raised (s : State) (q : Nat) (f : Svc → Svc) : (s.modSvc q f).raised = s.raised := rfl
@[simp] theorem State.modSvc_caught (s : State) (q : Nat) (f : Svc → Svc) : (s.modSvc q f).caught = s.caught := rfl
@[simp] theorem State.modSvc_full (s : State) (q : Nat) (f : Svc → Svc) : (s.modSvc q f).full = s.full := rfl
@[simp] theorem State.modSvc_rcSeen (s : State) (q : Nat) (f : Svc → Svc) : (s.modSvc q f).rcSeen = s.rcSeen := rfl
@[simp] theorem State.modSvc_wrote (s : State) (q : Nat) (f : Svc → Svc) : (s.modSvc q f).wrote = s.wrote := rfl
@[simp] theorem State.modSvc_undo (s : State) (q : Nat) (f : Svc → Svc) : (s.modSvc q f).undo = s.undo := rfl

/-! modLink changes links alone. -/

@[simp] theorem State.modLink_tick (s : State) (n : Nat) (f : Link → Link) : (s.modLink n f).tick = s.tick := rfl
@[simp] theorem State.modLink_ident (s : State) (n : Nat) (f : Link → Link) : (s.modLink n f).ident = s.ident := rfl
@[simp] theorem State.modLink_pins (s : State) (n : Nat) (f : Link → Link) : (s.modLink n f).pins = s.pins := rfl
@[simp] theorem State.modLink_boot (s : State) (n : Nat) (f : Link → Link) : (s.modLink n f).boot = s.boot := rfl
@[simp] theorem State.modLink_fw (s : State) (n : Nat) (f : Link → Link) : (s.modLink n f).fw = s.fw := rfl
@[simp] theorem State.modLink_tap (s : State) (n : Nat) (f : Link → Link) : (s.modLink n f).tap = s.tap := rfl
@[simp] theorem State.modLink_pst (s : State) (n : Nat) (f : Link → Link) : (s.modLink n f).pst = s.pst := rfl
@[simp] theorem State.modLink_flt (s : State) (n : Nat) (f : Link → Link) : (s.modLink n f).flt = s.flt := rfl
@[simp] theorem State.modLink_quarters (s : State) (n : Nat) (f : Link → Link) : (s.modLink n f).quarters = s.quarters := rfl
@[simp] theorem State.modLink_clk (s : State) (n : Nat) (f : Link → Link) : (s.modLink n f).clk = s.clk := rfl
@[simp] theorem State.modLink_chanters (s : State) (n : Nat) (f : Link → Link) : (s.modLink n f).chanters = s.chanters := rfl
@[simp] theorem State.modLink_zones (s : State) (n : Nat) (f : Link → Link) : (s.modLink n f).zones = s.zones := rfl
@[simp] theorem State.modLink_str (s : State) (n : Nat) (f : Link → Link) : (s.modLink n f).str = s.str := rfl
@[simp] theorem State.modLink_belays (s : State) (n : Nat) (f : Link → Link) : (s.modLink n f).belays = s.belays := rfl
@[simp] theorem State.modLink_pwr (s : State) (n : Nat) (f : Link → Link) : (s.modLink n f).pwr = s.pwr := rfl
@[simp] theorem State.modLink_trims (s : State) (n : Nat) (f : Link → Link) : (s.modLink n f).trims = s.trims := rfl
@[simp] theorem State.modLink_latch (s : State) (n : Nat) (f : Link → Link) : (s.modLink n f).latch = s.latch := rfl
@[simp] theorem State.modLink_evt (s : State) (n : Nat) (f : Link → Link) : (s.modLink n f).evt = s.evt := rfl
@[simp] theorem State.modLink_cmdq (s : State) (n : Nat) (f : Link → Link) : (s.modLink n f).cmdq = s.cmdq := rfl
@[simp] theorem State.modLink_seqs (s : State) (n : Nat) (f : Link → Link) : (s.modLink n f).seqs = s.seqs := rfl
@[simp] theorem State.modLink_svc (s : State) (n : Nat) (f : Link → Link) : (s.modLink n f).svc = s.svc := rfl
@[simp] theorem State.modLink_fab (s : State) (n : Nat) (f : Link → Link) : (s.modLink n f).fab = s.fab := rfl
@[simp] theorem State.modLink_pitons (s : State) (n : Nat) (f : Link → Link) : (s.modLink n f).pitons = s.pitons := rfl
@[simp] theorem State.modLink_pitq (s : State) (n : Nat) (f : Link → Link) : (s.modLink n f).pitq = s.pitq := rfl
@[simp] theorem State.modLink_ws (s : State) (n : Nat) (f : Link → Link) : (s.modLink n f).ws = s.ws := rfl
@[simp] theorem State.modLink_ks (s : State) (n : Nat) (f : Link → Link) : (s.modLink n f).ks = s.ks := rfl
@[simp] theorem State.modLink_host (s : State) (n : Nat) (f : Link → Link) : (s.modLink n f).host = s.host := rfl
@[simp] theorem State.modLink_cfgq (s : State) (n : Nat) (f : Link → Link) : (s.modLink n f).cfgq = s.cfgq := rfl
@[simp] theorem State.modLink_chans (s : State) (n : Nat) (f : Link → Link) : (s.modLink n f).chans = s.chans := rfl
@[simp] theorem State.modLink_units (s : State) (n : Nat) (f : Link → Link) : (s.modLink n f).units = s.units := rfl
@[simp] theorem State.modLink_cfgOf (s : State) (n : Nat) (f : Link → Link) : (s.modLink n f).cfgOf = s.cfgOf := rfl
@[simp] theorem State.modLink_entryOf (s : State) (n : Nat) (f : Link → Link) : (s.modLink n f).entryOf = s.entryOf := rfl
@[simp] theorem State.modLink_entryDue (s : State) (n : Nat) (f : Link → Link) : (s.modLink n f).entryDue = s.entryDue := rfl
@[simp] theorem State.modLink_askSince (s : State) (n : Nat) (f : Link → Link) : (s.modLink n f).askSince = s.askSince := rfl
@[simp] theorem State.modLink_zpages (s : State) (n : Nat) (f : Link → Link) : (s.modLink n f).zpages = s.zpages := rfl
@[simp] theorem State.modLink_pending (s : State) (n : Nat) (f : Link → Link) : (s.modLink n f).pending = s.pending := rfl
@[simp] theorem State.modLink_free (s : State) (n : Nat) (f : Link → Link) : (s.modLink n f).free = s.free := rfl
@[simp] theorem State.modLink_found (s : State) (n : Nat) (f : Link → Link) : (s.modLink n f).found = s.found := rfl
@[simp] theorem State.modLink_raised (s : State) (n : Nat) (f : Link → Link) : (s.modLink n f).raised = s.raised := rfl
@[simp] theorem State.modLink_caught (s : State) (n : Nat) (f : Link → Link) : (s.modLink n f).caught = s.caught := rfl
@[simp] theorem State.modLink_full (s : State) (n : Nat) (f : Link → Link) : (s.modLink n f).full = s.full := rfl
@[simp] theorem State.modLink_rcSeen (s : State) (n : Nat) (f : Link → Link) : (s.modLink n f).rcSeen = s.rcSeen := rfl
@[simp] theorem State.modLink_wrote (s : State) (n : Nat) (f : Link → Link) : (s.modLink n f).wrote = s.wrote := rfl
@[simp] theorem State.modLink_undo (s : State) (n : Nat) (f : Link → Link) : (s.modLink n f).undo = s.undo := rfl

/-! modPiton changes pitons alone. -/

@[simp] theorem State.modPiton_tick (s : State) (i : Nat) (f : Piton → Piton) : (s.modPiton i f).tick = s.tick := rfl
@[simp] theorem State.modPiton_ident (s : State) (i : Nat) (f : Piton → Piton) : (s.modPiton i f).ident = s.ident := rfl
@[simp] theorem State.modPiton_pins (s : State) (i : Nat) (f : Piton → Piton) : (s.modPiton i f).pins = s.pins := rfl
@[simp] theorem State.modPiton_boot (s : State) (i : Nat) (f : Piton → Piton) : (s.modPiton i f).boot = s.boot := rfl
@[simp] theorem State.modPiton_fw (s : State) (i : Nat) (f : Piton → Piton) : (s.modPiton i f).fw = s.fw := rfl
@[simp] theorem State.modPiton_tap (s : State) (i : Nat) (f : Piton → Piton) : (s.modPiton i f).tap = s.tap := rfl
@[simp] theorem State.modPiton_pst (s : State) (i : Nat) (f : Piton → Piton) : (s.modPiton i f).pst = s.pst := rfl
@[simp] theorem State.modPiton_flt (s : State) (i : Nat) (f : Piton → Piton) : (s.modPiton i f).flt = s.flt := rfl
@[simp] theorem State.modPiton_quarters (s : State) (i : Nat) (f : Piton → Piton) : (s.modPiton i f).quarters = s.quarters := rfl
@[simp] theorem State.modPiton_clk (s : State) (i : Nat) (f : Piton → Piton) : (s.modPiton i f).clk = s.clk := rfl
@[simp] theorem State.modPiton_chanters (s : State) (i : Nat) (f : Piton → Piton) : (s.modPiton i f).chanters = s.chanters := rfl
@[simp] theorem State.modPiton_zones (s : State) (i : Nat) (f : Piton → Piton) : (s.modPiton i f).zones = s.zones := rfl
@[simp] theorem State.modPiton_str (s : State) (i : Nat) (f : Piton → Piton) : (s.modPiton i f).str = s.str := rfl
@[simp] theorem State.modPiton_belays (s : State) (i : Nat) (f : Piton → Piton) : (s.modPiton i f).belays = s.belays := rfl
@[simp] theorem State.modPiton_pwr (s : State) (i : Nat) (f : Piton → Piton) : (s.modPiton i f).pwr = s.pwr := rfl
@[simp] theorem State.modPiton_trims (s : State) (i : Nat) (f : Piton → Piton) : (s.modPiton i f).trims = s.trims := rfl
@[simp] theorem State.modPiton_latch (s : State) (i : Nat) (f : Piton → Piton) : (s.modPiton i f).latch = s.latch := rfl
@[simp] theorem State.modPiton_evt (s : State) (i : Nat) (f : Piton → Piton) : (s.modPiton i f).evt = s.evt := rfl
@[simp] theorem State.modPiton_cmdq (s : State) (i : Nat) (f : Piton → Piton) : (s.modPiton i f).cmdq = s.cmdq := rfl
@[simp] theorem State.modPiton_seqs (s : State) (i : Nat) (f : Piton → Piton) : (s.modPiton i f).seqs = s.seqs := rfl
@[simp] theorem State.modPiton_svc (s : State) (i : Nat) (f : Piton → Piton) : (s.modPiton i f).svc = s.svc := rfl
@[simp] theorem State.modPiton_fab (s : State) (i : Nat) (f : Piton → Piton) : (s.modPiton i f).fab = s.fab := rfl
@[simp] theorem State.modPiton_links (s : State) (i : Nat) (f : Piton → Piton) : (s.modPiton i f).links = s.links := rfl
@[simp] theorem State.modPiton_pitq (s : State) (i : Nat) (f : Piton → Piton) : (s.modPiton i f).pitq = s.pitq := rfl
@[simp] theorem State.modPiton_ws (s : State) (i : Nat) (f : Piton → Piton) : (s.modPiton i f).ws = s.ws := rfl
@[simp] theorem State.modPiton_ks (s : State) (i : Nat) (f : Piton → Piton) : (s.modPiton i f).ks = s.ks := rfl
@[simp] theorem State.modPiton_host (s : State) (i : Nat) (f : Piton → Piton) : (s.modPiton i f).host = s.host := rfl
@[simp] theorem State.modPiton_cfgq (s : State) (i : Nat) (f : Piton → Piton) : (s.modPiton i f).cfgq = s.cfgq := rfl
@[simp] theorem State.modPiton_chans (s : State) (i : Nat) (f : Piton → Piton) : (s.modPiton i f).chans = s.chans := rfl
@[simp] theorem State.modPiton_units (s : State) (i : Nat) (f : Piton → Piton) : (s.modPiton i f).units = s.units := rfl
@[simp] theorem State.modPiton_cfgOf (s : State) (i : Nat) (f : Piton → Piton) : (s.modPiton i f).cfgOf = s.cfgOf := rfl
@[simp] theorem State.modPiton_entryOf (s : State) (i : Nat) (f : Piton → Piton) : (s.modPiton i f).entryOf = s.entryOf := rfl
@[simp] theorem State.modPiton_entryDue (s : State) (i : Nat) (f : Piton → Piton) : (s.modPiton i f).entryDue = s.entryDue := rfl
@[simp] theorem State.modPiton_askSince (s : State) (i : Nat) (f : Piton → Piton) : (s.modPiton i f).askSince = s.askSince := rfl
@[simp] theorem State.modPiton_zpages (s : State) (i : Nat) (f : Piton → Piton) : (s.modPiton i f).zpages = s.zpages := rfl
@[simp] theorem State.modPiton_pending (s : State) (i : Nat) (f : Piton → Piton) : (s.modPiton i f).pending = s.pending := rfl
@[simp] theorem State.modPiton_free (s : State) (i : Nat) (f : Piton → Piton) : (s.modPiton i f).free = s.free := rfl
@[simp] theorem State.modPiton_found (s : State) (i : Nat) (f : Piton → Piton) : (s.modPiton i f).found = s.found := rfl
@[simp] theorem State.modPiton_raised (s : State) (i : Nat) (f : Piton → Piton) : (s.modPiton i f).raised = s.raised := rfl
@[simp] theorem State.modPiton_caught (s : State) (i : Nat) (f : Piton → Piton) : (s.modPiton i f).caught = s.caught := rfl
@[simp] theorem State.modPiton_full (s : State) (i : Nat) (f : Piton → Piton) : (s.modPiton i f).full = s.full := rfl
@[simp] theorem State.modPiton_rcSeen (s : State) (i : Nat) (f : Piton → Piton) : (s.modPiton i f).rcSeen = s.rcSeen := rfl
@[simp] theorem State.modPiton_wrote (s : State) (i : Nat) (f : Piton → Piton) : (s.modPiton i f).wrote = s.wrote := rfl
@[simp] theorem State.modPiton_undo (s : State) (i : Nat) (f : Piton → Piton) : (s.modPiton i f).undo = s.undo := rfl

/-! modPitQ changes pitq alone. -/

@[simp] theorem State.modPitQ_tick (s : State) (q : Nat) (f : PitQ → PitQ) : (s.modPitQ q f).tick = s.tick := rfl
@[simp] theorem State.modPitQ_ident (s : State) (q : Nat) (f : PitQ → PitQ) : (s.modPitQ q f).ident = s.ident := rfl
@[simp] theorem State.modPitQ_pins (s : State) (q : Nat) (f : PitQ → PitQ) : (s.modPitQ q f).pins = s.pins := rfl
@[simp] theorem State.modPitQ_boot (s : State) (q : Nat) (f : PitQ → PitQ) : (s.modPitQ q f).boot = s.boot := rfl
@[simp] theorem State.modPitQ_fw (s : State) (q : Nat) (f : PitQ → PitQ) : (s.modPitQ q f).fw = s.fw := rfl
@[simp] theorem State.modPitQ_tap (s : State) (q : Nat) (f : PitQ → PitQ) : (s.modPitQ q f).tap = s.tap := rfl
@[simp] theorem State.modPitQ_pst (s : State) (q : Nat) (f : PitQ → PitQ) : (s.modPitQ q f).pst = s.pst := rfl
@[simp] theorem State.modPitQ_flt (s : State) (q : Nat) (f : PitQ → PitQ) : (s.modPitQ q f).flt = s.flt := rfl
@[simp] theorem State.modPitQ_quarters (s : State) (q : Nat) (f : PitQ → PitQ) : (s.modPitQ q f).quarters = s.quarters := rfl
@[simp] theorem State.modPitQ_clk (s : State) (q : Nat) (f : PitQ → PitQ) : (s.modPitQ q f).clk = s.clk := rfl
@[simp] theorem State.modPitQ_chanters (s : State) (q : Nat) (f : PitQ → PitQ) : (s.modPitQ q f).chanters = s.chanters := rfl
@[simp] theorem State.modPitQ_zones (s : State) (q : Nat) (f : PitQ → PitQ) : (s.modPitQ q f).zones = s.zones := rfl
@[simp] theorem State.modPitQ_str (s : State) (q : Nat) (f : PitQ → PitQ) : (s.modPitQ q f).str = s.str := rfl
@[simp] theorem State.modPitQ_belays (s : State) (q : Nat) (f : PitQ → PitQ) : (s.modPitQ q f).belays = s.belays := rfl
@[simp] theorem State.modPitQ_pwr (s : State) (q : Nat) (f : PitQ → PitQ) : (s.modPitQ q f).pwr = s.pwr := rfl
@[simp] theorem State.modPitQ_trims (s : State) (q : Nat) (f : PitQ → PitQ) : (s.modPitQ q f).trims = s.trims := rfl
@[simp] theorem State.modPitQ_latch (s : State) (q : Nat) (f : PitQ → PitQ) : (s.modPitQ q f).latch = s.latch := rfl
@[simp] theorem State.modPitQ_evt (s : State) (q : Nat) (f : PitQ → PitQ) : (s.modPitQ q f).evt = s.evt := rfl
@[simp] theorem State.modPitQ_cmdq (s : State) (q : Nat) (f : PitQ → PitQ) : (s.modPitQ q f).cmdq = s.cmdq := rfl
@[simp] theorem State.modPitQ_seqs (s : State) (q : Nat) (f : PitQ → PitQ) : (s.modPitQ q f).seqs = s.seqs := rfl
@[simp] theorem State.modPitQ_svc (s : State) (q : Nat) (f : PitQ → PitQ) : (s.modPitQ q f).svc = s.svc := rfl
@[simp] theorem State.modPitQ_fab (s : State) (q : Nat) (f : PitQ → PitQ) : (s.modPitQ q f).fab = s.fab := rfl
@[simp] theorem State.modPitQ_links (s : State) (q : Nat) (f : PitQ → PitQ) : (s.modPitQ q f).links = s.links := rfl
@[simp] theorem State.modPitQ_pitons (s : State) (q : Nat) (f : PitQ → PitQ) : (s.modPitQ q f).pitons = s.pitons := rfl
@[simp] theorem State.modPitQ_ws (s : State) (q : Nat) (f : PitQ → PitQ) : (s.modPitQ q f).ws = s.ws := rfl
@[simp] theorem State.modPitQ_ks (s : State) (q : Nat) (f : PitQ → PitQ) : (s.modPitQ q f).ks = s.ks := rfl
@[simp] theorem State.modPitQ_host (s : State) (q : Nat) (f : PitQ → PitQ) : (s.modPitQ q f).host = s.host := rfl
@[simp] theorem State.modPitQ_cfgq (s : State) (q : Nat) (f : PitQ → PitQ) : (s.modPitQ q f).cfgq = s.cfgq := rfl
@[simp] theorem State.modPitQ_chans (s : State) (q : Nat) (f : PitQ → PitQ) : (s.modPitQ q f).chans = s.chans := rfl
@[simp] theorem State.modPitQ_units (s : State) (q : Nat) (f : PitQ → PitQ) : (s.modPitQ q f).units = s.units := rfl
@[simp] theorem State.modPitQ_cfgOf (s : State) (q : Nat) (f : PitQ → PitQ) : (s.modPitQ q f).cfgOf = s.cfgOf := rfl
@[simp] theorem State.modPitQ_entryOf (s : State) (q : Nat) (f : PitQ → PitQ) : (s.modPitQ q f).entryOf = s.entryOf := rfl
@[simp] theorem State.modPitQ_entryDue (s : State) (q : Nat) (f : PitQ → PitQ) : (s.modPitQ q f).entryDue = s.entryDue := rfl
@[simp] theorem State.modPitQ_askSince (s : State) (q : Nat) (f : PitQ → PitQ) : (s.modPitQ q f).askSince = s.askSince := rfl
@[simp] theorem State.modPitQ_zpages (s : State) (q : Nat) (f : PitQ → PitQ) : (s.modPitQ q f).zpages = s.zpages := rfl
@[simp] theorem State.modPitQ_pending (s : State) (q : Nat) (f : PitQ → PitQ) : (s.modPitQ q f).pending = s.pending := rfl
@[simp] theorem State.modPitQ_free (s : State) (q : Nat) (f : PitQ → PitQ) : (s.modPitQ q f).free = s.free := rfl
@[simp] theorem State.modPitQ_found (s : State) (q : Nat) (f : PitQ → PitQ) : (s.modPitQ q f).found = s.found := rfl
@[simp] theorem State.modPitQ_raised (s : State) (q : Nat) (f : PitQ → PitQ) : (s.modPitQ q f).raised = s.raised := rfl
@[simp] theorem State.modPitQ_caught (s : State) (q : Nat) (f : PitQ → PitQ) : (s.modPitQ q f).caught = s.caught := rfl
@[simp] theorem State.modPitQ_full (s : State) (q : Nat) (f : PitQ → PitQ) : (s.modPitQ q f).full = s.full := rfl
@[simp] theorem State.modPitQ_rcSeen (s : State) (q : Nat) (f : PitQ → PitQ) : (s.modPitQ q f).rcSeen = s.rcSeen := rfl
@[simp] theorem State.modPitQ_wrote (s : State) (q : Nat) (f : PitQ → PitQ) : (s.modPitQ q f).wrote = s.wrote := rfl
@[simp] theorem State.modPitQ_undo (s : State) (q : Nat) (f : PitQ → PitQ) : (s.modPitQ q f).undo = s.undo := rfl

/-! modWs changes ws alone. -/

@[simp] theorem State.modWs_tick (s : State) (i : Nat) (f : Ws → Ws) : (s.modWs i f).tick = s.tick := rfl
@[simp] theorem State.modWs_ident (s : State) (i : Nat) (f : Ws → Ws) : (s.modWs i f).ident = s.ident := rfl
@[simp] theorem State.modWs_pins (s : State) (i : Nat) (f : Ws → Ws) : (s.modWs i f).pins = s.pins := rfl
@[simp] theorem State.modWs_boot (s : State) (i : Nat) (f : Ws → Ws) : (s.modWs i f).boot = s.boot := rfl
@[simp] theorem State.modWs_fw (s : State) (i : Nat) (f : Ws → Ws) : (s.modWs i f).fw = s.fw := rfl
@[simp] theorem State.modWs_tap (s : State) (i : Nat) (f : Ws → Ws) : (s.modWs i f).tap = s.tap := rfl
@[simp] theorem State.modWs_pst (s : State) (i : Nat) (f : Ws → Ws) : (s.modWs i f).pst = s.pst := rfl
@[simp] theorem State.modWs_flt (s : State) (i : Nat) (f : Ws → Ws) : (s.modWs i f).flt = s.flt := rfl
@[simp] theorem State.modWs_quarters (s : State) (i : Nat) (f : Ws → Ws) : (s.modWs i f).quarters = s.quarters := rfl
@[simp] theorem State.modWs_clk (s : State) (i : Nat) (f : Ws → Ws) : (s.modWs i f).clk = s.clk := rfl
@[simp] theorem State.modWs_chanters (s : State) (i : Nat) (f : Ws → Ws) : (s.modWs i f).chanters = s.chanters := rfl
@[simp] theorem State.modWs_zones (s : State) (i : Nat) (f : Ws → Ws) : (s.modWs i f).zones = s.zones := rfl
@[simp] theorem State.modWs_str (s : State) (i : Nat) (f : Ws → Ws) : (s.modWs i f).str = s.str := rfl
@[simp] theorem State.modWs_belays (s : State) (i : Nat) (f : Ws → Ws) : (s.modWs i f).belays = s.belays := rfl
@[simp] theorem State.modWs_pwr (s : State) (i : Nat) (f : Ws → Ws) : (s.modWs i f).pwr = s.pwr := rfl
@[simp] theorem State.modWs_trims (s : State) (i : Nat) (f : Ws → Ws) : (s.modWs i f).trims = s.trims := rfl
@[simp] theorem State.modWs_latch (s : State) (i : Nat) (f : Ws → Ws) : (s.modWs i f).latch = s.latch := rfl
@[simp] theorem State.modWs_evt (s : State) (i : Nat) (f : Ws → Ws) : (s.modWs i f).evt = s.evt := rfl
@[simp] theorem State.modWs_cmdq (s : State) (i : Nat) (f : Ws → Ws) : (s.modWs i f).cmdq = s.cmdq := rfl
@[simp] theorem State.modWs_seqs (s : State) (i : Nat) (f : Ws → Ws) : (s.modWs i f).seqs = s.seqs := rfl
@[simp] theorem State.modWs_svc (s : State) (i : Nat) (f : Ws → Ws) : (s.modWs i f).svc = s.svc := rfl
@[simp] theorem State.modWs_fab (s : State) (i : Nat) (f : Ws → Ws) : (s.modWs i f).fab = s.fab := rfl
@[simp] theorem State.modWs_links (s : State) (i : Nat) (f : Ws → Ws) : (s.modWs i f).links = s.links := rfl
@[simp] theorem State.modWs_pitons (s : State) (i : Nat) (f : Ws → Ws) : (s.modWs i f).pitons = s.pitons := rfl
@[simp] theorem State.modWs_pitq (s : State) (i : Nat) (f : Ws → Ws) : (s.modWs i f).pitq = s.pitq := rfl
@[simp] theorem State.modWs_ks (s : State) (i : Nat) (f : Ws → Ws) : (s.modWs i f).ks = s.ks := rfl
@[simp] theorem State.modWs_host (s : State) (i : Nat) (f : Ws → Ws) : (s.modWs i f).host = s.host := rfl
@[simp] theorem State.modWs_cfgq (s : State) (i : Nat) (f : Ws → Ws) : (s.modWs i f).cfgq = s.cfgq := rfl
@[simp] theorem State.modWs_chans (s : State) (i : Nat) (f : Ws → Ws) : (s.modWs i f).chans = s.chans := rfl
@[simp] theorem State.modWs_units (s : State) (i : Nat) (f : Ws → Ws) : (s.modWs i f).units = s.units := rfl
@[simp] theorem State.modWs_cfgOf (s : State) (i : Nat) (f : Ws → Ws) : (s.modWs i f).cfgOf = s.cfgOf := rfl
@[simp] theorem State.modWs_entryOf (s : State) (i : Nat) (f : Ws → Ws) : (s.modWs i f).entryOf = s.entryOf := rfl
@[simp] theorem State.modWs_entryDue (s : State) (i : Nat) (f : Ws → Ws) : (s.modWs i f).entryDue = s.entryDue := rfl
@[simp] theorem State.modWs_askSince (s : State) (i : Nat) (f : Ws → Ws) : (s.modWs i f).askSince = s.askSince := rfl
@[simp] theorem State.modWs_zpages (s : State) (i : Nat) (f : Ws → Ws) : (s.modWs i f).zpages = s.zpages := rfl
@[simp] theorem State.modWs_pending (s : State) (i : Nat) (f : Ws → Ws) : (s.modWs i f).pending = s.pending := rfl
@[simp] theorem State.modWs_free (s : State) (i : Nat) (f : Ws → Ws) : (s.modWs i f).free = s.free := rfl
@[simp] theorem State.modWs_found (s : State) (i : Nat) (f : Ws → Ws) : (s.modWs i f).found = s.found := rfl
@[simp] theorem State.modWs_raised (s : State) (i : Nat) (f : Ws → Ws) : (s.modWs i f).raised = s.raised := rfl
@[simp] theorem State.modWs_caught (s : State) (i : Nat) (f : Ws → Ws) : (s.modWs i f).caught = s.caught := rfl
@[simp] theorem State.modWs_full (s : State) (i : Nat) (f : Ws → Ws) : (s.modWs i f).full = s.full := rfl
@[simp] theorem State.modWs_rcSeen (s : State) (i : Nat) (f : Ws → Ws) : (s.modWs i f).rcSeen = s.rcSeen := rfl
@[simp] theorem State.modWs_wrote (s : State) (i : Nat) (f : Ws → Ws) : (s.modWs i f).wrote = s.wrote := rfl
@[simp] theorem State.modWs_undo (s : State) (i : Nat) (f : Ws → Ws) : (s.modWs i f).undo = s.undo := rfl

/-! modKs changes ks alone. -/

@[simp] theorem State.modKs_tick (s : State) (k : Nat) (f : Ks → Ks) : (s.modKs k f).tick = s.tick := rfl
@[simp] theorem State.modKs_ident (s : State) (k : Nat) (f : Ks → Ks) : (s.modKs k f).ident = s.ident := rfl
@[simp] theorem State.modKs_pins (s : State) (k : Nat) (f : Ks → Ks) : (s.modKs k f).pins = s.pins := rfl
@[simp] theorem State.modKs_boot (s : State) (k : Nat) (f : Ks → Ks) : (s.modKs k f).boot = s.boot := rfl
@[simp] theorem State.modKs_fw (s : State) (k : Nat) (f : Ks → Ks) : (s.modKs k f).fw = s.fw := rfl
@[simp] theorem State.modKs_tap (s : State) (k : Nat) (f : Ks → Ks) : (s.modKs k f).tap = s.tap := rfl
@[simp] theorem State.modKs_pst (s : State) (k : Nat) (f : Ks → Ks) : (s.modKs k f).pst = s.pst := rfl
@[simp] theorem State.modKs_flt (s : State) (k : Nat) (f : Ks → Ks) : (s.modKs k f).flt = s.flt := rfl
@[simp] theorem State.modKs_quarters (s : State) (k : Nat) (f : Ks → Ks) : (s.modKs k f).quarters = s.quarters := rfl
@[simp] theorem State.modKs_clk (s : State) (k : Nat) (f : Ks → Ks) : (s.modKs k f).clk = s.clk := rfl
@[simp] theorem State.modKs_chanters (s : State) (k : Nat) (f : Ks → Ks) : (s.modKs k f).chanters = s.chanters := rfl
@[simp] theorem State.modKs_zones (s : State) (k : Nat) (f : Ks → Ks) : (s.modKs k f).zones = s.zones := rfl
@[simp] theorem State.modKs_str (s : State) (k : Nat) (f : Ks → Ks) : (s.modKs k f).str = s.str := rfl
@[simp] theorem State.modKs_belays (s : State) (k : Nat) (f : Ks → Ks) : (s.modKs k f).belays = s.belays := rfl
@[simp] theorem State.modKs_pwr (s : State) (k : Nat) (f : Ks → Ks) : (s.modKs k f).pwr = s.pwr := rfl
@[simp] theorem State.modKs_trims (s : State) (k : Nat) (f : Ks → Ks) : (s.modKs k f).trims = s.trims := rfl
@[simp] theorem State.modKs_latch (s : State) (k : Nat) (f : Ks → Ks) : (s.modKs k f).latch = s.latch := rfl
@[simp] theorem State.modKs_evt (s : State) (k : Nat) (f : Ks → Ks) : (s.modKs k f).evt = s.evt := rfl
@[simp] theorem State.modKs_cmdq (s : State) (k : Nat) (f : Ks → Ks) : (s.modKs k f).cmdq = s.cmdq := rfl
@[simp] theorem State.modKs_seqs (s : State) (k : Nat) (f : Ks → Ks) : (s.modKs k f).seqs = s.seqs := rfl
@[simp] theorem State.modKs_svc (s : State) (k : Nat) (f : Ks → Ks) : (s.modKs k f).svc = s.svc := rfl
@[simp] theorem State.modKs_fab (s : State) (k : Nat) (f : Ks → Ks) : (s.modKs k f).fab = s.fab := rfl
@[simp] theorem State.modKs_links (s : State) (k : Nat) (f : Ks → Ks) : (s.modKs k f).links = s.links := rfl
@[simp] theorem State.modKs_pitons (s : State) (k : Nat) (f : Ks → Ks) : (s.modKs k f).pitons = s.pitons := rfl
@[simp] theorem State.modKs_pitq (s : State) (k : Nat) (f : Ks → Ks) : (s.modKs k f).pitq = s.pitq := rfl
@[simp] theorem State.modKs_ws (s : State) (k : Nat) (f : Ks → Ks) : (s.modKs k f).ws = s.ws := rfl
@[simp] theorem State.modKs_host (s : State) (k : Nat) (f : Ks → Ks) : (s.modKs k f).host = s.host := rfl
@[simp] theorem State.modKs_cfgq (s : State) (k : Nat) (f : Ks → Ks) : (s.modKs k f).cfgq = s.cfgq := rfl
@[simp] theorem State.modKs_chans (s : State) (k : Nat) (f : Ks → Ks) : (s.modKs k f).chans = s.chans := rfl
@[simp] theorem State.modKs_units (s : State) (k : Nat) (f : Ks → Ks) : (s.modKs k f).units = s.units := rfl
@[simp] theorem State.modKs_cfgOf (s : State) (k : Nat) (f : Ks → Ks) : (s.modKs k f).cfgOf = s.cfgOf := rfl
@[simp] theorem State.modKs_entryOf (s : State) (k : Nat) (f : Ks → Ks) : (s.modKs k f).entryOf = s.entryOf := rfl
@[simp] theorem State.modKs_entryDue (s : State) (k : Nat) (f : Ks → Ks) : (s.modKs k f).entryDue = s.entryDue := rfl
@[simp] theorem State.modKs_askSince (s : State) (k : Nat) (f : Ks → Ks) : (s.modKs k f).askSince = s.askSince := rfl
@[simp] theorem State.modKs_zpages (s : State) (k : Nat) (f : Ks → Ks) : (s.modKs k f).zpages = s.zpages := rfl
@[simp] theorem State.modKs_pending (s : State) (k : Nat) (f : Ks → Ks) : (s.modKs k f).pending = s.pending := rfl
@[simp] theorem State.modKs_free (s : State) (k : Nat) (f : Ks → Ks) : (s.modKs k f).free = s.free := rfl
@[simp] theorem State.modKs_found (s : State) (k : Nat) (f : Ks → Ks) : (s.modKs k f).found = s.found := rfl
@[simp] theorem State.modKs_raised (s : State) (k : Nat) (f : Ks → Ks) : (s.modKs k f).raised = s.raised := rfl
@[simp] theorem State.modKs_caught (s : State) (k : Nat) (f : Ks → Ks) : (s.modKs k f).caught = s.caught := rfl
@[simp] theorem State.modKs_full (s : State) (k : Nat) (f : Ks → Ks) : (s.modKs k f).full = s.full := rfl
@[simp] theorem State.modKs_rcSeen (s : State) (k : Nat) (f : Ks → Ks) : (s.modKs k f).rcSeen = s.rcSeen := rfl
@[simp] theorem State.modKs_wrote (s : State) (k : Nat) (f : Ks → Ks) : (s.modKs k f).wrote = s.wrote := rfl
@[simp] theorem State.modKs_undo (s : State) (k : Nat) (f : Ks → Ks) : (s.modKs k f).undo = s.undo := rfl

/-! modCfg changes cfgq alone. -/

@[simp] theorem State.modCfg_tick (s : State) (q : Nat) (f : CfgQ → CfgQ) : (s.modCfg q f).tick = s.tick := rfl
@[simp] theorem State.modCfg_ident (s : State) (q : Nat) (f : CfgQ → CfgQ) : (s.modCfg q f).ident = s.ident := rfl
@[simp] theorem State.modCfg_pins (s : State) (q : Nat) (f : CfgQ → CfgQ) : (s.modCfg q f).pins = s.pins := rfl
@[simp] theorem State.modCfg_boot (s : State) (q : Nat) (f : CfgQ → CfgQ) : (s.modCfg q f).boot = s.boot := rfl
@[simp] theorem State.modCfg_fw (s : State) (q : Nat) (f : CfgQ → CfgQ) : (s.modCfg q f).fw = s.fw := rfl
@[simp] theorem State.modCfg_tap (s : State) (q : Nat) (f : CfgQ → CfgQ) : (s.modCfg q f).tap = s.tap := rfl
@[simp] theorem State.modCfg_pst (s : State) (q : Nat) (f : CfgQ → CfgQ) : (s.modCfg q f).pst = s.pst := rfl
@[simp] theorem State.modCfg_flt (s : State) (q : Nat) (f : CfgQ → CfgQ) : (s.modCfg q f).flt = s.flt := rfl
@[simp] theorem State.modCfg_quarters (s : State) (q : Nat) (f : CfgQ → CfgQ) : (s.modCfg q f).quarters = s.quarters := rfl
@[simp] theorem State.modCfg_clk (s : State) (q : Nat) (f : CfgQ → CfgQ) : (s.modCfg q f).clk = s.clk := rfl
@[simp] theorem State.modCfg_chanters (s : State) (q : Nat) (f : CfgQ → CfgQ) : (s.modCfg q f).chanters = s.chanters := rfl
@[simp] theorem State.modCfg_zones (s : State) (q : Nat) (f : CfgQ → CfgQ) : (s.modCfg q f).zones = s.zones := rfl
@[simp] theorem State.modCfg_str (s : State) (q : Nat) (f : CfgQ → CfgQ) : (s.modCfg q f).str = s.str := rfl
@[simp] theorem State.modCfg_belays (s : State) (q : Nat) (f : CfgQ → CfgQ) : (s.modCfg q f).belays = s.belays := rfl
@[simp] theorem State.modCfg_pwr (s : State) (q : Nat) (f : CfgQ → CfgQ) : (s.modCfg q f).pwr = s.pwr := rfl
@[simp] theorem State.modCfg_trims (s : State) (q : Nat) (f : CfgQ → CfgQ) : (s.modCfg q f).trims = s.trims := rfl
@[simp] theorem State.modCfg_latch (s : State) (q : Nat) (f : CfgQ → CfgQ) : (s.modCfg q f).latch = s.latch := rfl
@[simp] theorem State.modCfg_evt (s : State) (q : Nat) (f : CfgQ → CfgQ) : (s.modCfg q f).evt = s.evt := rfl
@[simp] theorem State.modCfg_cmdq (s : State) (q : Nat) (f : CfgQ → CfgQ) : (s.modCfg q f).cmdq = s.cmdq := rfl
@[simp] theorem State.modCfg_seqs (s : State) (q : Nat) (f : CfgQ → CfgQ) : (s.modCfg q f).seqs = s.seqs := rfl
@[simp] theorem State.modCfg_svc (s : State) (q : Nat) (f : CfgQ → CfgQ) : (s.modCfg q f).svc = s.svc := rfl
@[simp] theorem State.modCfg_fab (s : State) (q : Nat) (f : CfgQ → CfgQ) : (s.modCfg q f).fab = s.fab := rfl
@[simp] theorem State.modCfg_links (s : State) (q : Nat) (f : CfgQ → CfgQ) : (s.modCfg q f).links = s.links := rfl
@[simp] theorem State.modCfg_pitons (s : State) (q : Nat) (f : CfgQ → CfgQ) : (s.modCfg q f).pitons = s.pitons := rfl
@[simp] theorem State.modCfg_pitq (s : State) (q : Nat) (f : CfgQ → CfgQ) : (s.modCfg q f).pitq = s.pitq := rfl
@[simp] theorem State.modCfg_ws (s : State) (q : Nat) (f : CfgQ → CfgQ) : (s.modCfg q f).ws = s.ws := rfl
@[simp] theorem State.modCfg_ks (s : State) (q : Nat) (f : CfgQ → CfgQ) : (s.modCfg q f).ks = s.ks := rfl
@[simp] theorem State.modCfg_host (s : State) (q : Nat) (f : CfgQ → CfgQ) : (s.modCfg q f).host = s.host := rfl
@[simp] theorem State.modCfg_chans (s : State) (q : Nat) (f : CfgQ → CfgQ) : (s.modCfg q f).chans = s.chans := rfl
@[simp] theorem State.modCfg_units (s : State) (q : Nat) (f : CfgQ → CfgQ) : (s.modCfg q f).units = s.units := rfl
@[simp] theorem State.modCfg_cfgOf (s : State) (q : Nat) (f : CfgQ → CfgQ) : (s.modCfg q f).cfgOf = s.cfgOf := rfl
@[simp] theorem State.modCfg_entryOf (s : State) (q : Nat) (f : CfgQ → CfgQ) : (s.modCfg q f).entryOf = s.entryOf := rfl
@[simp] theorem State.modCfg_entryDue (s : State) (q : Nat) (f : CfgQ → CfgQ) : (s.modCfg q f).entryDue = s.entryDue := rfl
@[simp] theorem State.modCfg_askSince (s : State) (q : Nat) (f : CfgQ → CfgQ) : (s.modCfg q f).askSince = s.askSince := rfl
@[simp] theorem State.modCfg_zpages (s : State) (q : Nat) (f : CfgQ → CfgQ) : (s.modCfg q f).zpages = s.zpages := rfl
@[simp] theorem State.modCfg_pending (s : State) (q : Nat) (f : CfgQ → CfgQ) : (s.modCfg q f).pending = s.pending := rfl
@[simp] theorem State.modCfg_free (s : State) (q : Nat) (f : CfgQ → CfgQ) : (s.modCfg q f).free = s.free := rfl
@[simp] theorem State.modCfg_found (s : State) (q : Nat) (f : CfgQ → CfgQ) : (s.modCfg q f).found = s.found := rfl
@[simp] theorem State.modCfg_raised (s : State) (q : Nat) (f : CfgQ → CfgQ) : (s.modCfg q f).raised = s.raised := rfl
@[simp] theorem State.modCfg_caught (s : State) (q : Nat) (f : CfgQ → CfgQ) : (s.modCfg q f).caught = s.caught := rfl
@[simp] theorem State.modCfg_full (s : State) (q : Nat) (f : CfgQ → CfgQ) : (s.modCfg q f).full = s.full := rfl
@[simp] theorem State.modCfg_rcSeen (s : State) (q : Nat) (f : CfgQ → CfgQ) : (s.modCfg q f).rcSeen = s.rcSeen := rfl
@[simp] theorem State.modCfg_wrote (s : State) (q : Nat) (f : CfgQ → CfgQ) : (s.modCfg q f).wrote = s.wrote := rfl
@[simp] theorem State.modCfg_undo (s : State) (q : Nat) (f : CfgQ → CfgQ) : (s.modCfg q f).undo = s.undo := rfl

/-! modChan changes chans alone. -/

@[simp] theorem State.modChan_tick (s : State) (lu p : Nat) (f : Chan → Chan) : (s.modChan lu p f).tick = s.tick := rfl
@[simp] theorem State.modChan_ident (s : State) (lu p : Nat) (f : Chan → Chan) : (s.modChan lu p f).ident = s.ident := rfl
@[simp] theorem State.modChan_pins (s : State) (lu p : Nat) (f : Chan → Chan) : (s.modChan lu p f).pins = s.pins := rfl
@[simp] theorem State.modChan_boot (s : State) (lu p : Nat) (f : Chan → Chan) : (s.modChan lu p f).boot = s.boot := rfl
@[simp] theorem State.modChan_fw (s : State) (lu p : Nat) (f : Chan → Chan) : (s.modChan lu p f).fw = s.fw := rfl
@[simp] theorem State.modChan_tap (s : State) (lu p : Nat) (f : Chan → Chan) : (s.modChan lu p f).tap = s.tap := rfl
@[simp] theorem State.modChan_pst (s : State) (lu p : Nat) (f : Chan → Chan) : (s.modChan lu p f).pst = s.pst := rfl
@[simp] theorem State.modChan_flt (s : State) (lu p : Nat) (f : Chan → Chan) : (s.modChan lu p f).flt = s.flt := rfl
@[simp] theorem State.modChan_quarters (s : State) (lu p : Nat) (f : Chan → Chan) : (s.modChan lu p f).quarters = s.quarters := rfl
@[simp] theorem State.modChan_clk (s : State) (lu p : Nat) (f : Chan → Chan) : (s.modChan lu p f).clk = s.clk := rfl
@[simp] theorem State.modChan_chanters (s : State) (lu p : Nat) (f : Chan → Chan) : (s.modChan lu p f).chanters = s.chanters := rfl
@[simp] theorem State.modChan_zones (s : State) (lu p : Nat) (f : Chan → Chan) : (s.modChan lu p f).zones = s.zones := rfl
@[simp] theorem State.modChan_str (s : State) (lu p : Nat) (f : Chan → Chan) : (s.modChan lu p f).str = s.str := rfl
@[simp] theorem State.modChan_belays (s : State) (lu p : Nat) (f : Chan → Chan) : (s.modChan lu p f).belays = s.belays := rfl
@[simp] theorem State.modChan_pwr (s : State) (lu p : Nat) (f : Chan → Chan) : (s.modChan lu p f).pwr = s.pwr := rfl
@[simp] theorem State.modChan_trims (s : State) (lu p : Nat) (f : Chan → Chan) : (s.modChan lu p f).trims = s.trims := rfl
@[simp] theorem State.modChan_latch (s : State) (lu p : Nat) (f : Chan → Chan) : (s.modChan lu p f).latch = s.latch := rfl
@[simp] theorem State.modChan_evt (s : State) (lu p : Nat) (f : Chan → Chan) : (s.modChan lu p f).evt = s.evt := rfl
@[simp] theorem State.modChan_cmdq (s : State) (lu p : Nat) (f : Chan → Chan) : (s.modChan lu p f).cmdq = s.cmdq := rfl
@[simp] theorem State.modChan_seqs (s : State) (lu p : Nat) (f : Chan → Chan) : (s.modChan lu p f).seqs = s.seqs := rfl
@[simp] theorem State.modChan_svc (s : State) (lu p : Nat) (f : Chan → Chan) : (s.modChan lu p f).svc = s.svc := rfl
@[simp] theorem State.modChan_fab (s : State) (lu p : Nat) (f : Chan → Chan) : (s.modChan lu p f).fab = s.fab := rfl
@[simp] theorem State.modChan_links (s : State) (lu p : Nat) (f : Chan → Chan) : (s.modChan lu p f).links = s.links := rfl
@[simp] theorem State.modChan_pitons (s : State) (lu p : Nat) (f : Chan → Chan) : (s.modChan lu p f).pitons = s.pitons := rfl
@[simp] theorem State.modChan_pitq (s : State) (lu p : Nat) (f : Chan → Chan) : (s.modChan lu p f).pitq = s.pitq := rfl
@[simp] theorem State.modChan_ws (s : State) (lu p : Nat) (f : Chan → Chan) : (s.modChan lu p f).ws = s.ws := rfl
@[simp] theorem State.modChan_ks (s : State) (lu p : Nat) (f : Chan → Chan) : (s.modChan lu p f).ks = s.ks := rfl
@[simp] theorem State.modChan_host (s : State) (lu p : Nat) (f : Chan → Chan) : (s.modChan lu p f).host = s.host := rfl
@[simp] theorem State.modChan_cfgq (s : State) (lu p : Nat) (f : Chan → Chan) : (s.modChan lu p f).cfgq = s.cfgq := rfl
@[simp] theorem State.modChan_units (s : State) (lu p : Nat) (f : Chan → Chan) : (s.modChan lu p f).units = s.units := rfl
@[simp] theorem State.modChan_cfgOf (s : State) (lu p : Nat) (f : Chan → Chan) : (s.modChan lu p f).cfgOf = s.cfgOf := rfl
@[simp] theorem State.modChan_entryOf (s : State) (lu p : Nat) (f : Chan → Chan) : (s.modChan lu p f).entryOf = s.entryOf := rfl
@[simp] theorem State.modChan_entryDue (s : State) (lu p : Nat) (f : Chan → Chan) : (s.modChan lu p f).entryDue = s.entryDue := rfl
@[simp] theorem State.modChan_askSince (s : State) (lu p : Nat) (f : Chan → Chan) : (s.modChan lu p f).askSince = s.askSince := rfl
@[simp] theorem State.modChan_zpages (s : State) (lu p : Nat) (f : Chan → Chan) : (s.modChan lu p f).zpages = s.zpages := rfl
@[simp] theorem State.modChan_pending (s : State) (lu p : Nat) (f : Chan → Chan) : (s.modChan lu p f).pending = s.pending := rfl
@[simp] theorem State.modChan_free (s : State) (lu p : Nat) (f : Chan → Chan) : (s.modChan lu p f).free = s.free := rfl
@[simp] theorem State.modChan_found (s : State) (lu p : Nat) (f : Chan → Chan) : (s.modChan lu p f).found = s.found := rfl
@[simp] theorem State.modChan_raised (s : State) (lu p : Nat) (f : Chan → Chan) : (s.modChan lu p f).raised = s.raised := rfl
@[simp] theorem State.modChan_caught (s : State) (lu p : Nat) (f : Chan → Chan) : (s.modChan lu p f).caught = s.caught := rfl
@[simp] theorem State.modChan_full (s : State) (lu p : Nat) (f : Chan → Chan) : (s.modChan lu p f).full = s.full := rfl
@[simp] theorem State.modChan_rcSeen (s : State) (lu p : Nat) (f : Chan → Chan) : (s.modChan lu p f).rcSeen = s.rcSeen := rfl
@[simp] theorem State.modChan_wrote (s : State) (lu p : Nat) (f : Chan → Chan) : (s.modChan lu p f).wrote = s.wrote := rfl
@[simp] theorem State.modChan_undo (s : State) (lu p : Nat) (f : Chan → Chan) : (s.modChan lu p f).undo = s.undo := rfl

/-! modUnit changes units alone. -/

@[simp] theorem State.modUnit_tick (s : State) (u : Nat) (f : UnitSt → UnitSt) : (s.modUnit u f).tick = s.tick := rfl
@[simp] theorem State.modUnit_ident (s : State) (u : Nat) (f : UnitSt → UnitSt) : (s.modUnit u f).ident = s.ident := rfl
@[simp] theorem State.modUnit_pins (s : State) (u : Nat) (f : UnitSt → UnitSt) : (s.modUnit u f).pins = s.pins := rfl
@[simp] theorem State.modUnit_boot (s : State) (u : Nat) (f : UnitSt → UnitSt) : (s.modUnit u f).boot = s.boot := rfl
@[simp] theorem State.modUnit_fw (s : State) (u : Nat) (f : UnitSt → UnitSt) : (s.modUnit u f).fw = s.fw := rfl
@[simp] theorem State.modUnit_tap (s : State) (u : Nat) (f : UnitSt → UnitSt) : (s.modUnit u f).tap = s.tap := rfl
@[simp] theorem State.modUnit_pst (s : State) (u : Nat) (f : UnitSt → UnitSt) : (s.modUnit u f).pst = s.pst := rfl
@[simp] theorem State.modUnit_flt (s : State) (u : Nat) (f : UnitSt → UnitSt) : (s.modUnit u f).flt = s.flt := rfl
@[simp] theorem State.modUnit_quarters (s : State) (u : Nat) (f : UnitSt → UnitSt) : (s.modUnit u f).quarters = s.quarters := rfl
@[simp] theorem State.modUnit_clk (s : State) (u : Nat) (f : UnitSt → UnitSt) : (s.modUnit u f).clk = s.clk := rfl
@[simp] theorem State.modUnit_chanters (s : State) (u : Nat) (f : UnitSt → UnitSt) : (s.modUnit u f).chanters = s.chanters := rfl
@[simp] theorem State.modUnit_zones (s : State) (u : Nat) (f : UnitSt → UnitSt) : (s.modUnit u f).zones = s.zones := rfl
@[simp] theorem State.modUnit_str (s : State) (u : Nat) (f : UnitSt → UnitSt) : (s.modUnit u f).str = s.str := rfl
@[simp] theorem State.modUnit_belays (s : State) (u : Nat) (f : UnitSt → UnitSt) : (s.modUnit u f).belays = s.belays := rfl
@[simp] theorem State.modUnit_pwr (s : State) (u : Nat) (f : UnitSt → UnitSt) : (s.modUnit u f).pwr = s.pwr := rfl
@[simp] theorem State.modUnit_trims (s : State) (u : Nat) (f : UnitSt → UnitSt) : (s.modUnit u f).trims = s.trims := rfl
@[simp] theorem State.modUnit_latch (s : State) (u : Nat) (f : UnitSt → UnitSt) : (s.modUnit u f).latch = s.latch := rfl
@[simp] theorem State.modUnit_evt (s : State) (u : Nat) (f : UnitSt → UnitSt) : (s.modUnit u f).evt = s.evt := rfl
@[simp] theorem State.modUnit_cmdq (s : State) (u : Nat) (f : UnitSt → UnitSt) : (s.modUnit u f).cmdq = s.cmdq := rfl
@[simp] theorem State.modUnit_seqs (s : State) (u : Nat) (f : UnitSt → UnitSt) : (s.modUnit u f).seqs = s.seqs := rfl
@[simp] theorem State.modUnit_svc (s : State) (u : Nat) (f : UnitSt → UnitSt) : (s.modUnit u f).svc = s.svc := rfl
@[simp] theorem State.modUnit_fab (s : State) (u : Nat) (f : UnitSt → UnitSt) : (s.modUnit u f).fab = s.fab := rfl
@[simp] theorem State.modUnit_links (s : State) (u : Nat) (f : UnitSt → UnitSt) : (s.modUnit u f).links = s.links := rfl
@[simp] theorem State.modUnit_pitons (s : State) (u : Nat) (f : UnitSt → UnitSt) : (s.modUnit u f).pitons = s.pitons := rfl
@[simp] theorem State.modUnit_pitq (s : State) (u : Nat) (f : UnitSt → UnitSt) : (s.modUnit u f).pitq = s.pitq := rfl
@[simp] theorem State.modUnit_ws (s : State) (u : Nat) (f : UnitSt → UnitSt) : (s.modUnit u f).ws = s.ws := rfl
@[simp] theorem State.modUnit_ks (s : State) (u : Nat) (f : UnitSt → UnitSt) : (s.modUnit u f).ks = s.ks := rfl
@[simp] theorem State.modUnit_host (s : State) (u : Nat) (f : UnitSt → UnitSt) : (s.modUnit u f).host = s.host := rfl
@[simp] theorem State.modUnit_cfgq (s : State) (u : Nat) (f : UnitSt → UnitSt) : (s.modUnit u f).cfgq = s.cfgq := rfl
@[simp] theorem State.modUnit_chans (s : State) (u : Nat) (f : UnitSt → UnitSt) : (s.modUnit u f).chans = s.chans := rfl
@[simp] theorem State.modUnit_cfgOf (s : State) (u : Nat) (f : UnitSt → UnitSt) : (s.modUnit u f).cfgOf = s.cfgOf := rfl
@[simp] theorem State.modUnit_entryOf (s : State) (u : Nat) (f : UnitSt → UnitSt) : (s.modUnit u f).entryOf = s.entryOf := rfl
@[simp] theorem State.modUnit_entryDue (s : State) (u : Nat) (f : UnitSt → UnitSt) : (s.modUnit u f).entryDue = s.entryDue := rfl
@[simp] theorem State.modUnit_askSince (s : State) (u : Nat) (f : UnitSt → UnitSt) : (s.modUnit u f).askSince = s.askSince := rfl
@[simp] theorem State.modUnit_zpages (s : State) (u : Nat) (f : UnitSt → UnitSt) : (s.modUnit u f).zpages = s.zpages := rfl
@[simp] theorem State.modUnit_pending (s : State) (u : Nat) (f : UnitSt → UnitSt) : (s.modUnit u f).pending = s.pending := rfl
@[simp] theorem State.modUnit_free (s : State) (u : Nat) (f : UnitSt → UnitSt) : (s.modUnit u f).free = s.free := rfl
@[simp] theorem State.modUnit_found (s : State) (u : Nat) (f : UnitSt → UnitSt) : (s.modUnit u f).found = s.found := rfl
@[simp] theorem State.modUnit_raised (s : State) (u : Nat) (f : UnitSt → UnitSt) : (s.modUnit u f).raised = s.raised := rfl
@[simp] theorem State.modUnit_caught (s : State) (u : Nat) (f : UnitSt → UnitSt) : (s.modUnit u f).caught = s.caught := rfl
@[simp] theorem State.modUnit_full (s : State) (u : Nat) (f : UnitSt → UnitSt) : (s.modUnit u f).full = s.full := rfl
@[simp] theorem State.modUnit_rcSeen (s : State) (u : Nat) (f : UnitSt → UnitSt) : (s.modUnit u f).rcSeen = s.rcSeen := rfl
@[simp] theorem State.modUnit_wrote (s : State) (u : Nat) (f : UnitSt → UnitSt) : (s.modUnit u f).wrote = s.wrote := rfl
@[simp] theorem State.modUnit_undo (s : State) (u : Nat) (f : UnitSt → UnitSt) : (s.modUnit u f).undo = s.undo := rfl

/-! modCu changes units alone. -/

@[simp] theorem State.modCu_tick (s : State) (u : Nat) (f : Cu → Cu) : (s.modCu u f).tick = s.tick := rfl
@[simp] theorem State.modCu_ident (s : State) (u : Nat) (f : Cu → Cu) : (s.modCu u f).ident = s.ident := rfl
@[simp] theorem State.modCu_pins (s : State) (u : Nat) (f : Cu → Cu) : (s.modCu u f).pins = s.pins := rfl
@[simp] theorem State.modCu_boot (s : State) (u : Nat) (f : Cu → Cu) : (s.modCu u f).boot = s.boot := rfl
@[simp] theorem State.modCu_fw (s : State) (u : Nat) (f : Cu → Cu) : (s.modCu u f).fw = s.fw := rfl
@[simp] theorem State.modCu_tap (s : State) (u : Nat) (f : Cu → Cu) : (s.modCu u f).tap = s.tap := rfl
@[simp] theorem State.modCu_pst (s : State) (u : Nat) (f : Cu → Cu) : (s.modCu u f).pst = s.pst := rfl
@[simp] theorem State.modCu_flt (s : State) (u : Nat) (f : Cu → Cu) : (s.modCu u f).flt = s.flt := rfl
@[simp] theorem State.modCu_quarters (s : State) (u : Nat) (f : Cu → Cu) : (s.modCu u f).quarters = s.quarters := rfl
@[simp] theorem State.modCu_clk (s : State) (u : Nat) (f : Cu → Cu) : (s.modCu u f).clk = s.clk := rfl
@[simp] theorem State.modCu_chanters (s : State) (u : Nat) (f : Cu → Cu) : (s.modCu u f).chanters = s.chanters := rfl
@[simp] theorem State.modCu_zones (s : State) (u : Nat) (f : Cu → Cu) : (s.modCu u f).zones = s.zones := rfl
@[simp] theorem State.modCu_str (s : State) (u : Nat) (f : Cu → Cu) : (s.modCu u f).str = s.str := rfl
@[simp] theorem State.modCu_belays (s : State) (u : Nat) (f : Cu → Cu) : (s.modCu u f).belays = s.belays := rfl
@[simp] theorem State.modCu_pwr (s : State) (u : Nat) (f : Cu → Cu) : (s.modCu u f).pwr = s.pwr := rfl
@[simp] theorem State.modCu_trims (s : State) (u : Nat) (f : Cu → Cu) : (s.modCu u f).trims = s.trims := rfl
@[simp] theorem State.modCu_latch (s : State) (u : Nat) (f : Cu → Cu) : (s.modCu u f).latch = s.latch := rfl
@[simp] theorem State.modCu_evt (s : State) (u : Nat) (f : Cu → Cu) : (s.modCu u f).evt = s.evt := rfl
@[simp] theorem State.modCu_cmdq (s : State) (u : Nat) (f : Cu → Cu) : (s.modCu u f).cmdq = s.cmdq := rfl
@[simp] theorem State.modCu_seqs (s : State) (u : Nat) (f : Cu → Cu) : (s.modCu u f).seqs = s.seqs := rfl
@[simp] theorem State.modCu_svc (s : State) (u : Nat) (f : Cu → Cu) : (s.modCu u f).svc = s.svc := rfl
@[simp] theorem State.modCu_fab (s : State) (u : Nat) (f : Cu → Cu) : (s.modCu u f).fab = s.fab := rfl
@[simp] theorem State.modCu_links (s : State) (u : Nat) (f : Cu → Cu) : (s.modCu u f).links = s.links := rfl
@[simp] theorem State.modCu_pitons (s : State) (u : Nat) (f : Cu → Cu) : (s.modCu u f).pitons = s.pitons := rfl
@[simp] theorem State.modCu_pitq (s : State) (u : Nat) (f : Cu → Cu) : (s.modCu u f).pitq = s.pitq := rfl
@[simp] theorem State.modCu_ws (s : State) (u : Nat) (f : Cu → Cu) : (s.modCu u f).ws = s.ws := rfl
@[simp] theorem State.modCu_ks (s : State) (u : Nat) (f : Cu → Cu) : (s.modCu u f).ks = s.ks := rfl
@[simp] theorem State.modCu_host (s : State) (u : Nat) (f : Cu → Cu) : (s.modCu u f).host = s.host := rfl
@[simp] theorem State.modCu_cfgq (s : State) (u : Nat) (f : Cu → Cu) : (s.modCu u f).cfgq = s.cfgq := rfl
@[simp] theorem State.modCu_chans (s : State) (u : Nat) (f : Cu → Cu) : (s.modCu u f).chans = s.chans := rfl
@[simp] theorem State.modCu_cfgOf (s : State) (u : Nat) (f : Cu → Cu) : (s.modCu u f).cfgOf = s.cfgOf := rfl
@[simp] theorem State.modCu_entryOf (s : State) (u : Nat) (f : Cu → Cu) : (s.modCu u f).entryOf = s.entryOf := rfl
@[simp] theorem State.modCu_entryDue (s : State) (u : Nat) (f : Cu → Cu) : (s.modCu u f).entryDue = s.entryDue := rfl
@[simp] theorem State.modCu_askSince (s : State) (u : Nat) (f : Cu → Cu) : (s.modCu u f).askSince = s.askSince := rfl
@[simp] theorem State.modCu_zpages (s : State) (u : Nat) (f : Cu → Cu) : (s.modCu u f).zpages = s.zpages := rfl
@[simp] theorem State.modCu_pending (s : State) (u : Nat) (f : Cu → Cu) : (s.modCu u f).pending = s.pending := rfl
@[simp] theorem State.modCu_free (s : State) (u : Nat) (f : Cu → Cu) : (s.modCu u f).free = s.free := rfl
@[simp] theorem State.modCu_found (s : State) (u : Nat) (f : Cu → Cu) : (s.modCu u f).found = s.found := rfl
@[simp] theorem State.modCu_raised (s : State) (u : Nat) (f : Cu → Cu) : (s.modCu u f).raised = s.raised := rfl
@[simp] theorem State.modCu_caught (s : State) (u : Nat) (f : Cu → Cu) : (s.modCu u f).caught = s.caught := rfl
@[simp] theorem State.modCu_full (s : State) (u : Nat) (f : Cu → Cu) : (s.modCu u f).full = s.full := rfl
@[simp] theorem State.modCu_rcSeen (s : State) (u : Nat) (f : Cu → Cu) : (s.modCu u f).rcSeen = s.rcSeen := rfl
@[simp] theorem State.modCu_wrote (s : State) (u : Nat) (f : Cu → Cu) : (s.modCu u f).wrote = s.wrote := rfl
@[simp] theorem State.modCu_undo (s : State) (u : Nat) (f : Cu → Cu) : (s.modCu u f).undo = s.undo := rfl

/-! modMu changes units alone. -/

@[simp] theorem State.modMu_tick (s : State) (u : Nat) (f : Mu → Mu) : (s.modMu u f).tick = s.tick := rfl
@[simp] theorem State.modMu_ident (s : State) (u : Nat) (f : Mu → Mu) : (s.modMu u f).ident = s.ident := rfl
@[simp] theorem State.modMu_pins (s : State) (u : Nat) (f : Mu → Mu) : (s.modMu u f).pins = s.pins := rfl
@[simp] theorem State.modMu_boot (s : State) (u : Nat) (f : Mu → Mu) : (s.modMu u f).boot = s.boot := rfl
@[simp] theorem State.modMu_fw (s : State) (u : Nat) (f : Mu → Mu) : (s.modMu u f).fw = s.fw := rfl
@[simp] theorem State.modMu_tap (s : State) (u : Nat) (f : Mu → Mu) : (s.modMu u f).tap = s.tap := rfl
@[simp] theorem State.modMu_pst (s : State) (u : Nat) (f : Mu → Mu) : (s.modMu u f).pst = s.pst := rfl
@[simp] theorem State.modMu_flt (s : State) (u : Nat) (f : Mu → Mu) : (s.modMu u f).flt = s.flt := rfl
@[simp] theorem State.modMu_quarters (s : State) (u : Nat) (f : Mu → Mu) : (s.modMu u f).quarters = s.quarters := rfl
@[simp] theorem State.modMu_clk (s : State) (u : Nat) (f : Mu → Mu) : (s.modMu u f).clk = s.clk := rfl
@[simp] theorem State.modMu_chanters (s : State) (u : Nat) (f : Mu → Mu) : (s.modMu u f).chanters = s.chanters := rfl
@[simp] theorem State.modMu_zones (s : State) (u : Nat) (f : Mu → Mu) : (s.modMu u f).zones = s.zones := rfl
@[simp] theorem State.modMu_str (s : State) (u : Nat) (f : Mu → Mu) : (s.modMu u f).str = s.str := rfl
@[simp] theorem State.modMu_belays (s : State) (u : Nat) (f : Mu → Mu) : (s.modMu u f).belays = s.belays := rfl
@[simp] theorem State.modMu_pwr (s : State) (u : Nat) (f : Mu → Mu) : (s.modMu u f).pwr = s.pwr := rfl
@[simp] theorem State.modMu_trims (s : State) (u : Nat) (f : Mu → Mu) : (s.modMu u f).trims = s.trims := rfl
@[simp] theorem State.modMu_latch (s : State) (u : Nat) (f : Mu → Mu) : (s.modMu u f).latch = s.latch := rfl
@[simp] theorem State.modMu_evt (s : State) (u : Nat) (f : Mu → Mu) : (s.modMu u f).evt = s.evt := rfl
@[simp] theorem State.modMu_cmdq (s : State) (u : Nat) (f : Mu → Mu) : (s.modMu u f).cmdq = s.cmdq := rfl
@[simp] theorem State.modMu_seqs (s : State) (u : Nat) (f : Mu → Mu) : (s.modMu u f).seqs = s.seqs := rfl
@[simp] theorem State.modMu_svc (s : State) (u : Nat) (f : Mu → Mu) : (s.modMu u f).svc = s.svc := rfl
@[simp] theorem State.modMu_fab (s : State) (u : Nat) (f : Mu → Mu) : (s.modMu u f).fab = s.fab := rfl
@[simp] theorem State.modMu_links (s : State) (u : Nat) (f : Mu → Mu) : (s.modMu u f).links = s.links := rfl
@[simp] theorem State.modMu_pitons (s : State) (u : Nat) (f : Mu → Mu) : (s.modMu u f).pitons = s.pitons := rfl
@[simp] theorem State.modMu_pitq (s : State) (u : Nat) (f : Mu → Mu) : (s.modMu u f).pitq = s.pitq := rfl
@[simp] theorem State.modMu_ws (s : State) (u : Nat) (f : Mu → Mu) : (s.modMu u f).ws = s.ws := rfl
@[simp] theorem State.modMu_ks (s : State) (u : Nat) (f : Mu → Mu) : (s.modMu u f).ks = s.ks := rfl
@[simp] theorem State.modMu_host (s : State) (u : Nat) (f : Mu → Mu) : (s.modMu u f).host = s.host := rfl
@[simp] theorem State.modMu_cfgq (s : State) (u : Nat) (f : Mu → Mu) : (s.modMu u f).cfgq = s.cfgq := rfl
@[simp] theorem State.modMu_chans (s : State) (u : Nat) (f : Mu → Mu) : (s.modMu u f).chans = s.chans := rfl
@[simp] theorem State.modMu_cfgOf (s : State) (u : Nat) (f : Mu → Mu) : (s.modMu u f).cfgOf = s.cfgOf := rfl
@[simp] theorem State.modMu_entryOf (s : State) (u : Nat) (f : Mu → Mu) : (s.modMu u f).entryOf = s.entryOf := rfl
@[simp] theorem State.modMu_entryDue (s : State) (u : Nat) (f : Mu → Mu) : (s.modMu u f).entryDue = s.entryDue := rfl
@[simp] theorem State.modMu_askSince (s : State) (u : Nat) (f : Mu → Mu) : (s.modMu u f).askSince = s.askSince := rfl
@[simp] theorem State.modMu_zpages (s : State) (u : Nat) (f : Mu → Mu) : (s.modMu u f).zpages = s.zpages := rfl
@[simp] theorem State.modMu_pending (s : State) (u : Nat) (f : Mu → Mu) : (s.modMu u f).pending = s.pending := rfl
@[simp] theorem State.modMu_free (s : State) (u : Nat) (f : Mu → Mu) : (s.modMu u f).free = s.free := rfl
@[simp] theorem State.modMu_found (s : State) (u : Nat) (f : Mu → Mu) : (s.modMu u f).found = s.found := rfl
@[simp] theorem State.modMu_raised (s : State) (u : Nat) (f : Mu → Mu) : (s.modMu u f).raised = s.raised := rfl
@[simp] theorem State.modMu_caught (s : State) (u : Nat) (f : Mu → Mu) : (s.modMu u f).caught = s.caught := rfl
@[simp] theorem State.modMu_full (s : State) (u : Nat) (f : Mu → Mu) : (s.modMu u f).full = s.full := rfl
@[simp] theorem State.modMu_rcSeen (s : State) (u : Nat) (f : Mu → Mu) : (s.modMu u f).rcSeen = s.rcSeen := rfl
@[simp] theorem State.modMu_wrote (s : State) (u : Nat) (f : Mu → Mu) : (s.modMu u f).wrote = s.wrote := rfl
@[simp] theorem State.modMu_undo (s : State) (u : Nat) (f : Mu → Mu) : (s.modMu u f).undo = s.undo := rfl

/-! modZpage changes zpages alone. -/

@[simp] theorem State.modZpage_tick (s : State) (z : Nat) (f : ZonePage → ZonePage) : (s.modZpage z f).tick = s.tick := rfl
@[simp] theorem State.modZpage_ident (s : State) (z : Nat) (f : ZonePage → ZonePage) : (s.modZpage z f).ident = s.ident := rfl
@[simp] theorem State.modZpage_pins (s : State) (z : Nat) (f : ZonePage → ZonePage) : (s.modZpage z f).pins = s.pins := rfl
@[simp] theorem State.modZpage_boot (s : State) (z : Nat) (f : ZonePage → ZonePage) : (s.modZpage z f).boot = s.boot := rfl
@[simp] theorem State.modZpage_fw (s : State) (z : Nat) (f : ZonePage → ZonePage) : (s.modZpage z f).fw = s.fw := rfl
@[simp] theorem State.modZpage_tap (s : State) (z : Nat) (f : ZonePage → ZonePage) : (s.modZpage z f).tap = s.tap := rfl
@[simp] theorem State.modZpage_pst (s : State) (z : Nat) (f : ZonePage → ZonePage) : (s.modZpage z f).pst = s.pst := rfl
@[simp] theorem State.modZpage_flt (s : State) (z : Nat) (f : ZonePage → ZonePage) : (s.modZpage z f).flt = s.flt := rfl
@[simp] theorem State.modZpage_quarters (s : State) (z : Nat) (f : ZonePage → ZonePage) : (s.modZpage z f).quarters = s.quarters := rfl
@[simp] theorem State.modZpage_clk (s : State) (z : Nat) (f : ZonePage → ZonePage) : (s.modZpage z f).clk = s.clk := rfl
@[simp] theorem State.modZpage_chanters (s : State) (z : Nat) (f : ZonePage → ZonePage) : (s.modZpage z f).chanters = s.chanters := rfl
@[simp] theorem State.modZpage_zones (s : State) (z : Nat) (f : ZonePage → ZonePage) : (s.modZpage z f).zones = s.zones := rfl
@[simp] theorem State.modZpage_str (s : State) (z : Nat) (f : ZonePage → ZonePage) : (s.modZpage z f).str = s.str := rfl
@[simp] theorem State.modZpage_belays (s : State) (z : Nat) (f : ZonePage → ZonePage) : (s.modZpage z f).belays = s.belays := rfl
@[simp] theorem State.modZpage_pwr (s : State) (z : Nat) (f : ZonePage → ZonePage) : (s.modZpage z f).pwr = s.pwr := rfl
@[simp] theorem State.modZpage_trims (s : State) (z : Nat) (f : ZonePage → ZonePage) : (s.modZpage z f).trims = s.trims := rfl
@[simp] theorem State.modZpage_latch (s : State) (z : Nat) (f : ZonePage → ZonePage) : (s.modZpage z f).latch = s.latch := rfl
@[simp] theorem State.modZpage_evt (s : State) (z : Nat) (f : ZonePage → ZonePage) : (s.modZpage z f).evt = s.evt := rfl
@[simp] theorem State.modZpage_cmdq (s : State) (z : Nat) (f : ZonePage → ZonePage) : (s.modZpage z f).cmdq = s.cmdq := rfl
@[simp] theorem State.modZpage_seqs (s : State) (z : Nat) (f : ZonePage → ZonePage) : (s.modZpage z f).seqs = s.seqs := rfl
@[simp] theorem State.modZpage_svc (s : State) (z : Nat) (f : ZonePage → ZonePage) : (s.modZpage z f).svc = s.svc := rfl
@[simp] theorem State.modZpage_fab (s : State) (z : Nat) (f : ZonePage → ZonePage) : (s.modZpage z f).fab = s.fab := rfl
@[simp] theorem State.modZpage_links (s : State) (z : Nat) (f : ZonePage → ZonePage) : (s.modZpage z f).links = s.links := rfl
@[simp] theorem State.modZpage_pitons (s : State) (z : Nat) (f : ZonePage → ZonePage) : (s.modZpage z f).pitons = s.pitons := rfl
@[simp] theorem State.modZpage_pitq (s : State) (z : Nat) (f : ZonePage → ZonePage) : (s.modZpage z f).pitq = s.pitq := rfl
@[simp] theorem State.modZpage_ws (s : State) (z : Nat) (f : ZonePage → ZonePage) : (s.modZpage z f).ws = s.ws := rfl
@[simp] theorem State.modZpage_ks (s : State) (z : Nat) (f : ZonePage → ZonePage) : (s.modZpage z f).ks = s.ks := rfl
@[simp] theorem State.modZpage_host (s : State) (z : Nat) (f : ZonePage → ZonePage) : (s.modZpage z f).host = s.host := rfl
@[simp] theorem State.modZpage_cfgq (s : State) (z : Nat) (f : ZonePage → ZonePage) : (s.modZpage z f).cfgq = s.cfgq := rfl
@[simp] theorem State.modZpage_chans (s : State) (z : Nat) (f : ZonePage → ZonePage) : (s.modZpage z f).chans = s.chans := rfl
@[simp] theorem State.modZpage_units (s : State) (z : Nat) (f : ZonePage → ZonePage) : (s.modZpage z f).units = s.units := rfl
@[simp] theorem State.modZpage_cfgOf (s : State) (z : Nat) (f : ZonePage → ZonePage) : (s.modZpage z f).cfgOf = s.cfgOf := rfl
@[simp] theorem State.modZpage_entryOf (s : State) (z : Nat) (f : ZonePage → ZonePage) : (s.modZpage z f).entryOf = s.entryOf := rfl
@[simp] theorem State.modZpage_entryDue (s : State) (z : Nat) (f : ZonePage → ZonePage) : (s.modZpage z f).entryDue = s.entryDue := rfl
@[simp] theorem State.modZpage_askSince (s : State) (z : Nat) (f : ZonePage → ZonePage) : (s.modZpage z f).askSince = s.askSince := rfl
@[simp] theorem State.modZpage_pending (s : State) (z : Nat) (f : ZonePage → ZonePage) : (s.modZpage z f).pending = s.pending := rfl
@[simp] theorem State.modZpage_free (s : State) (z : Nat) (f : ZonePage → ZonePage) : (s.modZpage z f).free = s.free := rfl
@[simp] theorem State.modZpage_found (s : State) (z : Nat) (f : ZonePage → ZonePage) : (s.modZpage z f).found = s.found := rfl
@[simp] theorem State.modZpage_raised (s : State) (z : Nat) (f : ZonePage → ZonePage) : (s.modZpage z f).raised = s.raised := rfl
@[simp] theorem State.modZpage_caught (s : State) (z : Nat) (f : ZonePage → ZonePage) : (s.modZpage z f).caught = s.caught := rfl
@[simp] theorem State.modZpage_full (s : State) (z : Nat) (f : ZonePage → ZonePage) : (s.modZpage z f).full = s.full := rfl
@[simp] theorem State.modZpage_rcSeen (s : State) (z : Nat) (f : ZonePage → ZonePage) : (s.modZpage z f).rcSeen = s.rcSeen := rfl
@[simp] theorem State.modZpage_wrote (s : State) (z : Nat) (f : ZonePage → ZonePage) : (s.modZpage z f).wrote = s.wrote := rfl
@[simp] theorem State.modZpage_undo (s : State) (z : Nat) (f : ZonePage → ZonePage) : (s.modZpage z f).undo = s.undo := rfl

/-! modFab changes fab alone. -/

@[simp] theorem State.modFab_tick (s : State) (f : Fab → Fab) : (s.modFab f).tick = s.tick := rfl
@[simp] theorem State.modFab_ident (s : State) (f : Fab → Fab) : (s.modFab f).ident = s.ident := rfl
@[simp] theorem State.modFab_pins (s : State) (f : Fab → Fab) : (s.modFab f).pins = s.pins := rfl
@[simp] theorem State.modFab_boot (s : State) (f : Fab → Fab) : (s.modFab f).boot = s.boot := rfl
@[simp] theorem State.modFab_fw (s : State) (f : Fab → Fab) : (s.modFab f).fw = s.fw := rfl
@[simp] theorem State.modFab_tap (s : State) (f : Fab → Fab) : (s.modFab f).tap = s.tap := rfl
@[simp] theorem State.modFab_pst (s : State) (f : Fab → Fab) : (s.modFab f).pst = s.pst := rfl
@[simp] theorem State.modFab_flt (s : State) (f : Fab → Fab) : (s.modFab f).flt = s.flt := rfl
@[simp] theorem State.modFab_quarters (s : State) (f : Fab → Fab) : (s.modFab f).quarters = s.quarters := rfl
@[simp] theorem State.modFab_clk (s : State) (f : Fab → Fab) : (s.modFab f).clk = s.clk := rfl
@[simp] theorem State.modFab_chanters (s : State) (f : Fab → Fab) : (s.modFab f).chanters = s.chanters := rfl
@[simp] theorem State.modFab_zones (s : State) (f : Fab → Fab) : (s.modFab f).zones = s.zones := rfl
@[simp] theorem State.modFab_str (s : State) (f : Fab → Fab) : (s.modFab f).str = s.str := rfl
@[simp] theorem State.modFab_belays (s : State) (f : Fab → Fab) : (s.modFab f).belays = s.belays := rfl
@[simp] theorem State.modFab_pwr (s : State) (f : Fab → Fab) : (s.modFab f).pwr = s.pwr := rfl
@[simp] theorem State.modFab_trims (s : State) (f : Fab → Fab) : (s.modFab f).trims = s.trims := rfl
@[simp] theorem State.modFab_latch (s : State) (f : Fab → Fab) : (s.modFab f).latch = s.latch := rfl
@[simp] theorem State.modFab_evt (s : State) (f : Fab → Fab) : (s.modFab f).evt = s.evt := rfl
@[simp] theorem State.modFab_cmdq (s : State) (f : Fab → Fab) : (s.modFab f).cmdq = s.cmdq := rfl
@[simp] theorem State.modFab_seqs (s : State) (f : Fab → Fab) : (s.modFab f).seqs = s.seqs := rfl
@[simp] theorem State.modFab_svc (s : State) (f : Fab → Fab) : (s.modFab f).svc = s.svc := rfl
@[simp] theorem State.modFab_links (s : State) (f : Fab → Fab) : (s.modFab f).links = s.links := rfl
@[simp] theorem State.modFab_pitons (s : State) (f : Fab → Fab) : (s.modFab f).pitons = s.pitons := rfl
@[simp] theorem State.modFab_pitq (s : State) (f : Fab → Fab) : (s.modFab f).pitq = s.pitq := rfl
@[simp] theorem State.modFab_ws (s : State) (f : Fab → Fab) : (s.modFab f).ws = s.ws := rfl
@[simp] theorem State.modFab_ks (s : State) (f : Fab → Fab) : (s.modFab f).ks = s.ks := rfl
@[simp] theorem State.modFab_host (s : State) (f : Fab → Fab) : (s.modFab f).host = s.host := rfl
@[simp] theorem State.modFab_cfgq (s : State) (f : Fab → Fab) : (s.modFab f).cfgq = s.cfgq := rfl
@[simp] theorem State.modFab_chans (s : State) (f : Fab → Fab) : (s.modFab f).chans = s.chans := rfl
@[simp] theorem State.modFab_units (s : State) (f : Fab → Fab) : (s.modFab f).units = s.units := rfl
@[simp] theorem State.modFab_cfgOf (s : State) (f : Fab → Fab) : (s.modFab f).cfgOf = s.cfgOf := rfl
@[simp] theorem State.modFab_entryOf (s : State) (f : Fab → Fab) : (s.modFab f).entryOf = s.entryOf := rfl
@[simp] theorem State.modFab_entryDue (s : State) (f : Fab → Fab) : (s.modFab f).entryDue = s.entryDue := rfl
@[simp] theorem State.modFab_askSince (s : State) (f : Fab → Fab) : (s.modFab f).askSince = s.askSince := rfl
@[simp] theorem State.modFab_zpages (s : State) (f : Fab → Fab) : (s.modFab f).zpages = s.zpages := rfl
@[simp] theorem State.modFab_pending (s : State) (f : Fab → Fab) : (s.modFab f).pending = s.pending := rfl
@[simp] theorem State.modFab_free (s : State) (f : Fab → Fab) : (s.modFab f).free = s.free := rfl
@[simp] theorem State.modFab_found (s : State) (f : Fab → Fab) : (s.modFab f).found = s.found := rfl
@[simp] theorem State.modFab_raised (s : State) (f : Fab → Fab) : (s.modFab f).raised = s.raised := rfl
@[simp] theorem State.modFab_caught (s : State) (f : Fab → Fab) : (s.modFab f).caught = s.caught := rfl
@[simp] theorem State.modFab_full (s : State) (f : Fab → Fab) : (s.modFab f).full = s.full := rfl
@[simp] theorem State.modFab_rcSeen (s : State) (f : Fab → Fab) : (s.modFab f).rcSeen = s.rcSeen := rfl
@[simp] theorem State.modFab_wrote (s : State) (f : Fab → Fab) : (s.modFab f).wrote = s.wrote := rfl
@[simp] theorem State.modFab_undo (s : State) (f : Fab → Fab) : (s.modFab f).undo = s.undo := rfl

/-! modClk changes clk alone. -/

@[simp] theorem State.modClk_tick (s : State) (f : Clk → Clk) : (s.modClk f).tick = s.tick := rfl
@[simp] theorem State.modClk_ident (s : State) (f : Clk → Clk) : (s.modClk f).ident = s.ident := rfl
@[simp] theorem State.modClk_pins (s : State) (f : Clk → Clk) : (s.modClk f).pins = s.pins := rfl
@[simp] theorem State.modClk_boot (s : State) (f : Clk → Clk) : (s.modClk f).boot = s.boot := rfl
@[simp] theorem State.modClk_fw (s : State) (f : Clk → Clk) : (s.modClk f).fw = s.fw := rfl
@[simp] theorem State.modClk_tap (s : State) (f : Clk → Clk) : (s.modClk f).tap = s.tap := rfl
@[simp] theorem State.modClk_pst (s : State) (f : Clk → Clk) : (s.modClk f).pst = s.pst := rfl
@[simp] theorem State.modClk_flt (s : State) (f : Clk → Clk) : (s.modClk f).flt = s.flt := rfl
@[simp] theorem State.modClk_quarters (s : State) (f : Clk → Clk) : (s.modClk f).quarters = s.quarters := rfl
@[simp] theorem State.modClk_chanters (s : State) (f : Clk → Clk) : (s.modClk f).chanters = s.chanters := rfl
@[simp] theorem State.modClk_zones (s : State) (f : Clk → Clk) : (s.modClk f).zones = s.zones := rfl
@[simp] theorem State.modClk_str (s : State) (f : Clk → Clk) : (s.modClk f).str = s.str := rfl
@[simp] theorem State.modClk_belays (s : State) (f : Clk → Clk) : (s.modClk f).belays = s.belays := rfl
@[simp] theorem State.modClk_pwr (s : State) (f : Clk → Clk) : (s.modClk f).pwr = s.pwr := rfl
@[simp] theorem State.modClk_trims (s : State) (f : Clk → Clk) : (s.modClk f).trims = s.trims := rfl
@[simp] theorem State.modClk_latch (s : State) (f : Clk → Clk) : (s.modClk f).latch = s.latch := rfl
@[simp] theorem State.modClk_evt (s : State) (f : Clk → Clk) : (s.modClk f).evt = s.evt := rfl
@[simp] theorem State.modClk_cmdq (s : State) (f : Clk → Clk) : (s.modClk f).cmdq = s.cmdq := rfl
@[simp] theorem State.modClk_seqs (s : State) (f : Clk → Clk) : (s.modClk f).seqs = s.seqs := rfl
@[simp] theorem State.modClk_svc (s : State) (f : Clk → Clk) : (s.modClk f).svc = s.svc := rfl
@[simp] theorem State.modClk_fab (s : State) (f : Clk → Clk) : (s.modClk f).fab = s.fab := rfl
@[simp] theorem State.modClk_links (s : State) (f : Clk → Clk) : (s.modClk f).links = s.links := rfl
@[simp] theorem State.modClk_pitons (s : State) (f : Clk → Clk) : (s.modClk f).pitons = s.pitons := rfl
@[simp] theorem State.modClk_pitq (s : State) (f : Clk → Clk) : (s.modClk f).pitq = s.pitq := rfl
@[simp] theorem State.modClk_ws (s : State) (f : Clk → Clk) : (s.modClk f).ws = s.ws := rfl
@[simp] theorem State.modClk_ks (s : State) (f : Clk → Clk) : (s.modClk f).ks = s.ks := rfl
@[simp] theorem State.modClk_host (s : State) (f : Clk → Clk) : (s.modClk f).host = s.host := rfl
@[simp] theorem State.modClk_cfgq (s : State) (f : Clk → Clk) : (s.modClk f).cfgq = s.cfgq := rfl
@[simp] theorem State.modClk_chans (s : State) (f : Clk → Clk) : (s.modClk f).chans = s.chans := rfl
@[simp] theorem State.modClk_units (s : State) (f : Clk → Clk) : (s.modClk f).units = s.units := rfl
@[simp] theorem State.modClk_cfgOf (s : State) (f : Clk → Clk) : (s.modClk f).cfgOf = s.cfgOf := rfl
@[simp] theorem State.modClk_entryOf (s : State) (f : Clk → Clk) : (s.modClk f).entryOf = s.entryOf := rfl
@[simp] theorem State.modClk_entryDue (s : State) (f : Clk → Clk) : (s.modClk f).entryDue = s.entryDue := rfl
@[simp] theorem State.modClk_askSince (s : State) (f : Clk → Clk) : (s.modClk f).askSince = s.askSince := rfl
@[simp] theorem State.modClk_zpages (s : State) (f : Clk → Clk) : (s.modClk f).zpages = s.zpages := rfl
@[simp] theorem State.modClk_pending (s : State) (f : Clk → Clk) : (s.modClk f).pending = s.pending := rfl
@[simp] theorem State.modClk_free (s : State) (f : Clk → Clk) : (s.modClk f).free = s.free := rfl
@[simp] theorem State.modClk_found (s : State) (f : Clk → Clk) : (s.modClk f).found = s.found := rfl
@[simp] theorem State.modClk_raised (s : State) (f : Clk → Clk) : (s.modClk f).raised = s.raised := rfl
@[simp] theorem State.modClk_caught (s : State) (f : Clk → Clk) : (s.modClk f).caught = s.caught := rfl
@[simp] theorem State.modClk_full (s : State) (f : Clk → Clk) : (s.modClk f).full = s.full := rfl
@[simp] theorem State.modClk_rcSeen (s : State) (f : Clk → Clk) : (s.modClk f).rcSeen = s.rcSeen := rfl
@[simp] theorem State.modClk_wrote (s : State) (f : Clk → Clk) : (s.modClk f).wrote = s.wrote := rfl
@[simp] theorem State.modClk_undo (s : State) (f : Clk → Clk) : (s.modClk f).undo = s.undo := rfl

/-! modPwr changes pwr alone. -/

@[simp] theorem State.modPwr_tick (s : State) (f : Pwr → Pwr) : (s.modPwr f).tick = s.tick := rfl
@[simp] theorem State.modPwr_ident (s : State) (f : Pwr → Pwr) : (s.modPwr f).ident = s.ident := rfl
@[simp] theorem State.modPwr_pins (s : State) (f : Pwr → Pwr) : (s.modPwr f).pins = s.pins := rfl
@[simp] theorem State.modPwr_boot (s : State) (f : Pwr → Pwr) : (s.modPwr f).boot = s.boot := rfl
@[simp] theorem State.modPwr_fw (s : State) (f : Pwr → Pwr) : (s.modPwr f).fw = s.fw := rfl
@[simp] theorem State.modPwr_tap (s : State) (f : Pwr → Pwr) : (s.modPwr f).tap = s.tap := rfl
@[simp] theorem State.modPwr_pst (s : State) (f : Pwr → Pwr) : (s.modPwr f).pst = s.pst := rfl
@[simp] theorem State.modPwr_flt (s : State) (f : Pwr → Pwr) : (s.modPwr f).flt = s.flt := rfl
@[simp] theorem State.modPwr_quarters (s : State) (f : Pwr → Pwr) : (s.modPwr f).quarters = s.quarters := rfl
@[simp] theorem State.modPwr_clk (s : State) (f : Pwr → Pwr) : (s.modPwr f).clk = s.clk := rfl
@[simp] theorem State.modPwr_chanters (s : State) (f : Pwr → Pwr) : (s.modPwr f).chanters = s.chanters := rfl
@[simp] theorem State.modPwr_zones (s : State) (f : Pwr → Pwr) : (s.modPwr f).zones = s.zones := rfl
@[simp] theorem State.modPwr_str (s : State) (f : Pwr → Pwr) : (s.modPwr f).str = s.str := rfl
@[simp] theorem State.modPwr_belays (s : State) (f : Pwr → Pwr) : (s.modPwr f).belays = s.belays := rfl
@[simp] theorem State.modPwr_trims (s : State) (f : Pwr → Pwr) : (s.modPwr f).trims = s.trims := rfl
@[simp] theorem State.modPwr_latch (s : State) (f : Pwr → Pwr) : (s.modPwr f).latch = s.latch := rfl
@[simp] theorem State.modPwr_evt (s : State) (f : Pwr → Pwr) : (s.modPwr f).evt = s.evt := rfl
@[simp] theorem State.modPwr_cmdq (s : State) (f : Pwr → Pwr) : (s.modPwr f).cmdq = s.cmdq := rfl
@[simp] theorem State.modPwr_seqs (s : State) (f : Pwr → Pwr) : (s.modPwr f).seqs = s.seqs := rfl
@[simp] theorem State.modPwr_svc (s : State) (f : Pwr → Pwr) : (s.modPwr f).svc = s.svc := rfl
@[simp] theorem State.modPwr_fab (s : State) (f : Pwr → Pwr) : (s.modPwr f).fab = s.fab := rfl
@[simp] theorem State.modPwr_links (s : State) (f : Pwr → Pwr) : (s.modPwr f).links = s.links := rfl
@[simp] theorem State.modPwr_pitons (s : State) (f : Pwr → Pwr) : (s.modPwr f).pitons = s.pitons := rfl
@[simp] theorem State.modPwr_pitq (s : State) (f : Pwr → Pwr) : (s.modPwr f).pitq = s.pitq := rfl
@[simp] theorem State.modPwr_ws (s : State) (f : Pwr → Pwr) : (s.modPwr f).ws = s.ws := rfl
@[simp] theorem State.modPwr_ks (s : State) (f : Pwr → Pwr) : (s.modPwr f).ks = s.ks := rfl
@[simp] theorem State.modPwr_host (s : State) (f : Pwr → Pwr) : (s.modPwr f).host = s.host := rfl
@[simp] theorem State.modPwr_cfgq (s : State) (f : Pwr → Pwr) : (s.modPwr f).cfgq = s.cfgq := rfl
@[simp] theorem State.modPwr_chans (s : State) (f : Pwr → Pwr) : (s.modPwr f).chans = s.chans := rfl
@[simp] theorem State.modPwr_units (s : State) (f : Pwr → Pwr) : (s.modPwr f).units = s.units := rfl
@[simp] theorem State.modPwr_cfgOf (s : State) (f : Pwr → Pwr) : (s.modPwr f).cfgOf = s.cfgOf := rfl
@[simp] theorem State.modPwr_entryOf (s : State) (f : Pwr → Pwr) : (s.modPwr f).entryOf = s.entryOf := rfl
@[simp] theorem State.modPwr_entryDue (s : State) (f : Pwr → Pwr) : (s.modPwr f).entryDue = s.entryDue := rfl
@[simp] theorem State.modPwr_askSince (s : State) (f : Pwr → Pwr) : (s.modPwr f).askSince = s.askSince := rfl
@[simp] theorem State.modPwr_zpages (s : State) (f : Pwr → Pwr) : (s.modPwr f).zpages = s.zpages := rfl
@[simp] theorem State.modPwr_pending (s : State) (f : Pwr → Pwr) : (s.modPwr f).pending = s.pending := rfl
@[simp] theorem State.modPwr_free (s : State) (f : Pwr → Pwr) : (s.modPwr f).free = s.free := rfl
@[simp] theorem State.modPwr_found (s : State) (f : Pwr → Pwr) : (s.modPwr f).found = s.found := rfl
@[simp] theorem State.modPwr_raised (s : State) (f : Pwr → Pwr) : (s.modPwr f).raised = s.raised := rfl
@[simp] theorem State.modPwr_caught (s : State) (f : Pwr → Pwr) : (s.modPwr f).caught = s.caught := rfl
@[simp] theorem State.modPwr_full (s : State) (f : Pwr → Pwr) : (s.modPwr f).full = s.full := rfl
@[simp] theorem State.modPwr_rcSeen (s : State) (f : Pwr → Pwr) : (s.modPwr f).rcSeen = s.rcSeen := rfl
@[simp] theorem State.modPwr_wrote (s : State) (f : Pwr → Pwr) : (s.modPwr f).wrote = s.wrote := rfl
@[simp] theorem State.modPwr_undo (s : State) (f : Pwr → Pwr) : (s.modPwr f).undo = s.undo := rfl

/-! modStr changes str alone. -/

@[simp] theorem State.modStr_tick (s : State) (f : Str → Str) : (s.modStr f).tick = s.tick := rfl
@[simp] theorem State.modStr_ident (s : State) (f : Str → Str) : (s.modStr f).ident = s.ident := rfl
@[simp] theorem State.modStr_pins (s : State) (f : Str → Str) : (s.modStr f).pins = s.pins := rfl
@[simp] theorem State.modStr_boot (s : State) (f : Str → Str) : (s.modStr f).boot = s.boot := rfl
@[simp] theorem State.modStr_fw (s : State) (f : Str → Str) : (s.modStr f).fw = s.fw := rfl
@[simp] theorem State.modStr_tap (s : State) (f : Str → Str) : (s.modStr f).tap = s.tap := rfl
@[simp] theorem State.modStr_pst (s : State) (f : Str → Str) : (s.modStr f).pst = s.pst := rfl
@[simp] theorem State.modStr_flt (s : State) (f : Str → Str) : (s.modStr f).flt = s.flt := rfl
@[simp] theorem State.modStr_quarters (s : State) (f : Str → Str) : (s.modStr f).quarters = s.quarters := rfl
@[simp] theorem State.modStr_clk (s : State) (f : Str → Str) : (s.modStr f).clk = s.clk := rfl
@[simp] theorem State.modStr_chanters (s : State) (f : Str → Str) : (s.modStr f).chanters = s.chanters := rfl
@[simp] theorem State.modStr_zones (s : State) (f : Str → Str) : (s.modStr f).zones = s.zones := rfl
@[simp] theorem State.modStr_belays (s : State) (f : Str → Str) : (s.modStr f).belays = s.belays := rfl
@[simp] theorem State.modStr_pwr (s : State) (f : Str → Str) : (s.modStr f).pwr = s.pwr := rfl
@[simp] theorem State.modStr_trims (s : State) (f : Str → Str) : (s.modStr f).trims = s.trims := rfl
@[simp] theorem State.modStr_latch (s : State) (f : Str → Str) : (s.modStr f).latch = s.latch := rfl
@[simp] theorem State.modStr_evt (s : State) (f : Str → Str) : (s.modStr f).evt = s.evt := rfl
@[simp] theorem State.modStr_cmdq (s : State) (f : Str → Str) : (s.modStr f).cmdq = s.cmdq := rfl
@[simp] theorem State.modStr_seqs (s : State) (f : Str → Str) : (s.modStr f).seqs = s.seqs := rfl
@[simp] theorem State.modStr_svc (s : State) (f : Str → Str) : (s.modStr f).svc = s.svc := rfl
@[simp] theorem State.modStr_fab (s : State) (f : Str → Str) : (s.modStr f).fab = s.fab := rfl
@[simp] theorem State.modStr_links (s : State) (f : Str → Str) : (s.modStr f).links = s.links := rfl
@[simp] theorem State.modStr_pitons (s : State) (f : Str → Str) : (s.modStr f).pitons = s.pitons := rfl
@[simp] theorem State.modStr_pitq (s : State) (f : Str → Str) : (s.modStr f).pitq = s.pitq := rfl
@[simp] theorem State.modStr_ws (s : State) (f : Str → Str) : (s.modStr f).ws = s.ws := rfl
@[simp] theorem State.modStr_ks (s : State) (f : Str → Str) : (s.modStr f).ks = s.ks := rfl
@[simp] theorem State.modStr_host (s : State) (f : Str → Str) : (s.modStr f).host = s.host := rfl
@[simp] theorem State.modStr_cfgq (s : State) (f : Str → Str) : (s.modStr f).cfgq = s.cfgq := rfl
@[simp] theorem State.modStr_chans (s : State) (f : Str → Str) : (s.modStr f).chans = s.chans := rfl
@[simp] theorem State.modStr_units (s : State) (f : Str → Str) : (s.modStr f).units = s.units := rfl
@[simp] theorem State.modStr_cfgOf (s : State) (f : Str → Str) : (s.modStr f).cfgOf = s.cfgOf := rfl
@[simp] theorem State.modStr_entryOf (s : State) (f : Str → Str) : (s.modStr f).entryOf = s.entryOf := rfl
@[simp] theorem State.modStr_entryDue (s : State) (f : Str → Str) : (s.modStr f).entryDue = s.entryDue := rfl
@[simp] theorem State.modStr_askSince (s : State) (f : Str → Str) : (s.modStr f).askSince = s.askSince := rfl
@[simp] theorem State.modStr_zpages (s : State) (f : Str → Str) : (s.modStr f).zpages = s.zpages := rfl
@[simp] theorem State.modStr_pending (s : State) (f : Str → Str) : (s.modStr f).pending = s.pending := rfl
@[simp] theorem State.modStr_free (s : State) (f : Str → Str) : (s.modStr f).free = s.free := rfl
@[simp] theorem State.modStr_found (s : State) (f : Str → Str) : (s.modStr f).found = s.found := rfl
@[simp] theorem State.modStr_raised (s : State) (f : Str → Str) : (s.modStr f).raised = s.raised := rfl
@[simp] theorem State.modStr_caught (s : State) (f : Str → Str) : (s.modStr f).caught = s.caught := rfl
@[simp] theorem State.modStr_full (s : State) (f : Str → Str) : (s.modStr f).full = s.full := rfl
@[simp] theorem State.modStr_rcSeen (s : State) (f : Str → Str) : (s.modStr f).rcSeen = s.rcSeen := rfl
@[simp] theorem State.modStr_wrote (s : State) (f : Str → Str) : (s.modStr f).wrote = s.wrote := rfl
@[simp] theorem State.modStr_undo (s : State) (f : Str → Str) : (s.modStr f).undo = s.undo := rfl

/-! modFlt changes flt alone. -/

@[simp] theorem State.modFlt_tick (s : State) (f : Flt → Flt) : (s.modFlt f).tick = s.tick := rfl
@[simp] theorem State.modFlt_ident (s : State) (f : Flt → Flt) : (s.modFlt f).ident = s.ident := rfl
@[simp] theorem State.modFlt_pins (s : State) (f : Flt → Flt) : (s.modFlt f).pins = s.pins := rfl
@[simp] theorem State.modFlt_boot (s : State) (f : Flt → Flt) : (s.modFlt f).boot = s.boot := rfl
@[simp] theorem State.modFlt_fw (s : State) (f : Flt → Flt) : (s.modFlt f).fw = s.fw := rfl
@[simp] theorem State.modFlt_tap (s : State) (f : Flt → Flt) : (s.modFlt f).tap = s.tap := rfl
@[simp] theorem State.modFlt_pst (s : State) (f : Flt → Flt) : (s.modFlt f).pst = s.pst := rfl
@[simp] theorem State.modFlt_quarters (s : State) (f : Flt → Flt) : (s.modFlt f).quarters = s.quarters := rfl
@[simp] theorem State.modFlt_clk (s : State) (f : Flt → Flt) : (s.modFlt f).clk = s.clk := rfl
@[simp] theorem State.modFlt_chanters (s : State) (f : Flt → Flt) : (s.modFlt f).chanters = s.chanters := rfl
@[simp] theorem State.modFlt_zones (s : State) (f : Flt → Flt) : (s.modFlt f).zones = s.zones := rfl
@[simp] theorem State.modFlt_str (s : State) (f : Flt → Flt) : (s.modFlt f).str = s.str := rfl
@[simp] theorem State.modFlt_belays (s : State) (f : Flt → Flt) : (s.modFlt f).belays = s.belays := rfl
@[simp] theorem State.modFlt_pwr (s : State) (f : Flt → Flt) : (s.modFlt f).pwr = s.pwr := rfl
@[simp] theorem State.modFlt_trims (s : State) (f : Flt → Flt) : (s.modFlt f).trims = s.trims := rfl
@[simp] theorem State.modFlt_latch (s : State) (f : Flt → Flt) : (s.modFlt f).latch = s.latch := rfl
@[simp] theorem State.modFlt_evt (s : State) (f : Flt → Flt) : (s.modFlt f).evt = s.evt := rfl
@[simp] theorem State.modFlt_cmdq (s : State) (f : Flt → Flt) : (s.modFlt f).cmdq = s.cmdq := rfl
@[simp] theorem State.modFlt_seqs (s : State) (f : Flt → Flt) : (s.modFlt f).seqs = s.seqs := rfl
@[simp] theorem State.modFlt_svc (s : State) (f : Flt → Flt) : (s.modFlt f).svc = s.svc := rfl
@[simp] theorem State.modFlt_fab (s : State) (f : Flt → Flt) : (s.modFlt f).fab = s.fab := rfl
@[simp] theorem State.modFlt_links (s : State) (f : Flt → Flt) : (s.modFlt f).links = s.links := rfl
@[simp] theorem State.modFlt_pitons (s : State) (f : Flt → Flt) : (s.modFlt f).pitons = s.pitons := rfl
@[simp] theorem State.modFlt_pitq (s : State) (f : Flt → Flt) : (s.modFlt f).pitq = s.pitq := rfl
@[simp] theorem State.modFlt_ws (s : State) (f : Flt → Flt) : (s.modFlt f).ws = s.ws := rfl
@[simp] theorem State.modFlt_ks (s : State) (f : Flt → Flt) : (s.modFlt f).ks = s.ks := rfl
@[simp] theorem State.modFlt_host (s : State) (f : Flt → Flt) : (s.modFlt f).host = s.host := rfl
@[simp] theorem State.modFlt_cfgq (s : State) (f : Flt → Flt) : (s.modFlt f).cfgq = s.cfgq := rfl
@[simp] theorem State.modFlt_chans (s : State) (f : Flt → Flt) : (s.modFlt f).chans = s.chans := rfl
@[simp] theorem State.modFlt_units (s : State) (f : Flt → Flt) : (s.modFlt f).units = s.units := rfl
@[simp] theorem State.modFlt_cfgOf (s : State) (f : Flt → Flt) : (s.modFlt f).cfgOf = s.cfgOf := rfl
@[simp] theorem State.modFlt_entryOf (s : State) (f : Flt → Flt) : (s.modFlt f).entryOf = s.entryOf := rfl
@[simp] theorem State.modFlt_entryDue (s : State) (f : Flt → Flt) : (s.modFlt f).entryDue = s.entryDue := rfl
@[simp] theorem State.modFlt_askSince (s : State) (f : Flt → Flt) : (s.modFlt f).askSince = s.askSince := rfl
@[simp] theorem State.modFlt_zpages (s : State) (f : Flt → Flt) : (s.modFlt f).zpages = s.zpages := rfl
@[simp] theorem State.modFlt_pending (s : State) (f : Flt → Flt) : (s.modFlt f).pending = s.pending := rfl
@[simp] theorem State.modFlt_free (s : State) (f : Flt → Flt) : (s.modFlt f).free = s.free := rfl
@[simp] theorem State.modFlt_found (s : State) (f : Flt → Flt) : (s.modFlt f).found = s.found := rfl
@[simp] theorem State.modFlt_raised (s : State) (f : Flt → Flt) : (s.modFlt f).raised = s.raised := rfl
@[simp] theorem State.modFlt_caught (s : State) (f : Flt → Flt) : (s.modFlt f).caught = s.caught := rfl
@[simp] theorem State.modFlt_full (s : State) (f : Flt → Flt) : (s.modFlt f).full = s.full := rfl
@[simp] theorem State.modFlt_rcSeen (s : State) (f : Flt → Flt) : (s.modFlt f).rcSeen = s.rcSeen := rfl
@[simp] theorem State.modFlt_wrote (s : State) (f : Flt → Flt) : (s.modFlt f).wrote = s.wrote := rfl
@[simp] theorem State.modFlt_undo (s : State) (f : Flt → Flt) : (s.modFlt f).undo = s.undo := rfl

/-! modPst changes pst alone. -/

@[simp] theorem State.modPst_tick (s : State) (f : Pst → Pst) : (s.modPst f).tick = s.tick := rfl
@[simp] theorem State.modPst_ident (s : State) (f : Pst → Pst) : (s.modPst f).ident = s.ident := rfl
@[simp] theorem State.modPst_pins (s : State) (f : Pst → Pst) : (s.modPst f).pins = s.pins := rfl
@[simp] theorem State.modPst_boot (s : State) (f : Pst → Pst) : (s.modPst f).boot = s.boot := rfl
@[simp] theorem State.modPst_fw (s : State) (f : Pst → Pst) : (s.modPst f).fw = s.fw := rfl
@[simp] theorem State.modPst_tap (s : State) (f : Pst → Pst) : (s.modPst f).tap = s.tap := rfl
@[simp] theorem State.modPst_flt (s : State) (f : Pst → Pst) : (s.modPst f).flt = s.flt := rfl
@[simp] theorem State.modPst_quarters (s : State) (f : Pst → Pst) : (s.modPst f).quarters = s.quarters := rfl
@[simp] theorem State.modPst_clk (s : State) (f : Pst → Pst) : (s.modPst f).clk = s.clk := rfl
@[simp] theorem State.modPst_chanters (s : State) (f : Pst → Pst) : (s.modPst f).chanters = s.chanters := rfl
@[simp] theorem State.modPst_zones (s : State) (f : Pst → Pst) : (s.modPst f).zones = s.zones := rfl
@[simp] theorem State.modPst_str (s : State) (f : Pst → Pst) : (s.modPst f).str = s.str := rfl
@[simp] theorem State.modPst_belays (s : State) (f : Pst → Pst) : (s.modPst f).belays = s.belays := rfl
@[simp] theorem State.modPst_pwr (s : State) (f : Pst → Pst) : (s.modPst f).pwr = s.pwr := rfl
@[simp] theorem State.modPst_trims (s : State) (f : Pst → Pst) : (s.modPst f).trims = s.trims := rfl
@[simp] theorem State.modPst_latch (s : State) (f : Pst → Pst) : (s.modPst f).latch = s.latch := rfl
@[simp] theorem State.modPst_evt (s : State) (f : Pst → Pst) : (s.modPst f).evt = s.evt := rfl
@[simp] theorem State.modPst_cmdq (s : State) (f : Pst → Pst) : (s.modPst f).cmdq = s.cmdq := rfl
@[simp] theorem State.modPst_seqs (s : State) (f : Pst → Pst) : (s.modPst f).seqs = s.seqs := rfl
@[simp] theorem State.modPst_svc (s : State) (f : Pst → Pst) : (s.modPst f).svc = s.svc := rfl
@[simp] theorem State.modPst_fab (s : State) (f : Pst → Pst) : (s.modPst f).fab = s.fab := rfl
@[simp] theorem State.modPst_links (s : State) (f : Pst → Pst) : (s.modPst f).links = s.links := rfl
@[simp] theorem State.modPst_pitons (s : State) (f : Pst → Pst) : (s.modPst f).pitons = s.pitons := rfl
@[simp] theorem State.modPst_pitq (s : State) (f : Pst → Pst) : (s.modPst f).pitq = s.pitq := rfl
@[simp] theorem State.modPst_ws (s : State) (f : Pst → Pst) : (s.modPst f).ws = s.ws := rfl
@[simp] theorem State.modPst_ks (s : State) (f : Pst → Pst) : (s.modPst f).ks = s.ks := rfl
@[simp] theorem State.modPst_host (s : State) (f : Pst → Pst) : (s.modPst f).host = s.host := rfl
@[simp] theorem State.modPst_cfgq (s : State) (f : Pst → Pst) : (s.modPst f).cfgq = s.cfgq := rfl
@[simp] theorem State.modPst_chans (s : State) (f : Pst → Pst) : (s.modPst f).chans = s.chans := rfl
@[simp] theorem State.modPst_units (s : State) (f : Pst → Pst) : (s.modPst f).units = s.units := rfl
@[simp] theorem State.modPst_cfgOf (s : State) (f : Pst → Pst) : (s.modPst f).cfgOf = s.cfgOf := rfl
@[simp] theorem State.modPst_entryOf (s : State) (f : Pst → Pst) : (s.modPst f).entryOf = s.entryOf := rfl
@[simp] theorem State.modPst_entryDue (s : State) (f : Pst → Pst) : (s.modPst f).entryDue = s.entryDue := rfl
@[simp] theorem State.modPst_askSince (s : State) (f : Pst → Pst) : (s.modPst f).askSince = s.askSince := rfl
@[simp] theorem State.modPst_zpages (s : State) (f : Pst → Pst) : (s.modPst f).zpages = s.zpages := rfl
@[simp] theorem State.modPst_pending (s : State) (f : Pst → Pst) : (s.modPst f).pending = s.pending := rfl
@[simp] theorem State.modPst_free (s : State) (f : Pst → Pst) : (s.modPst f).free = s.free := rfl
@[simp] theorem State.modPst_found (s : State) (f : Pst → Pst) : (s.modPst f).found = s.found := rfl
@[simp] theorem State.modPst_raised (s : State) (f : Pst → Pst) : (s.modPst f).raised = s.raised := rfl
@[simp] theorem State.modPst_caught (s : State) (f : Pst → Pst) : (s.modPst f).caught = s.caught := rfl
@[simp] theorem State.modPst_full (s : State) (f : Pst → Pst) : (s.modPst f).full = s.full := rfl
@[simp] theorem State.modPst_rcSeen (s : State) (f : Pst → Pst) : (s.modPst f).rcSeen = s.rcSeen := rfl
@[simp] theorem State.modPst_wrote (s : State) (f : Pst → Pst) : (s.modPst f).wrote = s.wrote := rfl
@[simp] theorem State.modPst_undo (s : State) (f : Pst → Pst) : (s.modPst f).undo = s.undo := rfl

/-! modBoot changes boot alone. -/

@[simp] theorem State.modBoot_tick (s : State) (f : Boot → Boot) : (s.modBoot f).tick = s.tick := rfl
@[simp] theorem State.modBoot_ident (s : State) (f : Boot → Boot) : (s.modBoot f).ident = s.ident := rfl
@[simp] theorem State.modBoot_pins (s : State) (f : Boot → Boot) : (s.modBoot f).pins = s.pins := rfl
@[simp] theorem State.modBoot_fw (s : State) (f : Boot → Boot) : (s.modBoot f).fw = s.fw := rfl
@[simp] theorem State.modBoot_tap (s : State) (f : Boot → Boot) : (s.modBoot f).tap = s.tap := rfl
@[simp] theorem State.modBoot_pst (s : State) (f : Boot → Boot) : (s.modBoot f).pst = s.pst := rfl
@[simp] theorem State.modBoot_flt (s : State) (f : Boot → Boot) : (s.modBoot f).flt = s.flt := rfl
@[simp] theorem State.modBoot_quarters (s : State) (f : Boot → Boot) : (s.modBoot f).quarters = s.quarters := rfl
@[simp] theorem State.modBoot_clk (s : State) (f : Boot → Boot) : (s.modBoot f).clk = s.clk := rfl
@[simp] theorem State.modBoot_chanters (s : State) (f : Boot → Boot) : (s.modBoot f).chanters = s.chanters := rfl
@[simp] theorem State.modBoot_zones (s : State) (f : Boot → Boot) : (s.modBoot f).zones = s.zones := rfl
@[simp] theorem State.modBoot_str (s : State) (f : Boot → Boot) : (s.modBoot f).str = s.str := rfl
@[simp] theorem State.modBoot_belays (s : State) (f : Boot → Boot) : (s.modBoot f).belays = s.belays := rfl
@[simp] theorem State.modBoot_pwr (s : State) (f : Boot → Boot) : (s.modBoot f).pwr = s.pwr := rfl
@[simp] theorem State.modBoot_trims (s : State) (f : Boot → Boot) : (s.modBoot f).trims = s.trims := rfl
@[simp] theorem State.modBoot_latch (s : State) (f : Boot → Boot) : (s.modBoot f).latch = s.latch := rfl
@[simp] theorem State.modBoot_evt (s : State) (f : Boot → Boot) : (s.modBoot f).evt = s.evt := rfl
@[simp] theorem State.modBoot_cmdq (s : State) (f : Boot → Boot) : (s.modBoot f).cmdq = s.cmdq := rfl
@[simp] theorem State.modBoot_seqs (s : State) (f : Boot → Boot) : (s.modBoot f).seqs = s.seqs := rfl
@[simp] theorem State.modBoot_svc (s : State) (f : Boot → Boot) : (s.modBoot f).svc = s.svc := rfl
@[simp] theorem State.modBoot_fab (s : State) (f : Boot → Boot) : (s.modBoot f).fab = s.fab := rfl
@[simp] theorem State.modBoot_links (s : State) (f : Boot → Boot) : (s.modBoot f).links = s.links := rfl
@[simp] theorem State.modBoot_pitons (s : State) (f : Boot → Boot) : (s.modBoot f).pitons = s.pitons := rfl
@[simp] theorem State.modBoot_pitq (s : State) (f : Boot → Boot) : (s.modBoot f).pitq = s.pitq := rfl
@[simp] theorem State.modBoot_ws (s : State) (f : Boot → Boot) : (s.modBoot f).ws = s.ws := rfl
@[simp] theorem State.modBoot_ks (s : State) (f : Boot → Boot) : (s.modBoot f).ks = s.ks := rfl
@[simp] theorem State.modBoot_host (s : State) (f : Boot → Boot) : (s.modBoot f).host = s.host := rfl
@[simp] theorem State.modBoot_cfgq (s : State) (f : Boot → Boot) : (s.modBoot f).cfgq = s.cfgq := rfl
@[simp] theorem State.modBoot_chans (s : State) (f : Boot → Boot) : (s.modBoot f).chans = s.chans := rfl
@[simp] theorem State.modBoot_units (s : State) (f : Boot → Boot) : (s.modBoot f).units = s.units := rfl
@[simp] theorem State.modBoot_cfgOf (s : State) (f : Boot → Boot) : (s.modBoot f).cfgOf = s.cfgOf := rfl
@[simp] theorem State.modBoot_entryOf (s : State) (f : Boot → Boot) : (s.modBoot f).entryOf = s.entryOf := rfl
@[simp] theorem State.modBoot_entryDue (s : State) (f : Boot → Boot) : (s.modBoot f).entryDue = s.entryDue := rfl
@[simp] theorem State.modBoot_askSince (s : State) (f : Boot → Boot) : (s.modBoot f).askSince = s.askSince := rfl
@[simp] theorem State.modBoot_zpages (s : State) (f : Boot → Boot) : (s.modBoot f).zpages = s.zpages := rfl
@[simp] theorem State.modBoot_pending (s : State) (f : Boot → Boot) : (s.modBoot f).pending = s.pending := rfl
@[simp] theorem State.modBoot_free (s : State) (f : Boot → Boot) : (s.modBoot f).free = s.free := rfl
@[simp] theorem State.modBoot_found (s : State) (f : Boot → Boot) : (s.modBoot f).found = s.found := rfl
@[simp] theorem State.modBoot_raised (s : State) (f : Boot → Boot) : (s.modBoot f).raised = s.raised := rfl
@[simp] theorem State.modBoot_caught (s : State) (f : Boot → Boot) : (s.modBoot f).caught = s.caught := rfl
@[simp] theorem State.modBoot_full (s : State) (f : Boot → Boot) : (s.modBoot f).full = s.full := rfl
@[simp] theorem State.modBoot_rcSeen (s : State) (f : Boot → Boot) : (s.modBoot f).rcSeen = s.rcSeen := rfl
@[simp] theorem State.modBoot_wrote (s : State) (f : Boot → Boot) : (s.modBoot f).wrote = s.wrote := rfl
@[simp] theorem State.modBoot_undo (s : State) (f : Boot → Boot) : (s.modBoot f).undo = s.undo := rfl

/-! modFw changes fw alone. -/

@[simp] theorem State.modFw_tick (s : State) (f : Fw → Fw) : (s.modFw f).tick = s.tick := rfl
@[simp] theorem State.modFw_ident (s : State) (f : Fw → Fw) : (s.modFw f).ident = s.ident := rfl
@[simp] theorem State.modFw_pins (s : State) (f : Fw → Fw) : (s.modFw f).pins = s.pins := rfl
@[simp] theorem State.modFw_boot (s : State) (f : Fw → Fw) : (s.modFw f).boot = s.boot := rfl
@[simp] theorem State.modFw_tap (s : State) (f : Fw → Fw) : (s.modFw f).tap = s.tap := rfl
@[simp] theorem State.modFw_pst (s : State) (f : Fw → Fw) : (s.modFw f).pst = s.pst := rfl
@[simp] theorem State.modFw_flt (s : State) (f : Fw → Fw) : (s.modFw f).flt = s.flt := rfl
@[simp] theorem State.modFw_quarters (s : State) (f : Fw → Fw) : (s.modFw f).quarters = s.quarters := rfl
@[simp] theorem State.modFw_clk (s : State) (f : Fw → Fw) : (s.modFw f).clk = s.clk := rfl
@[simp] theorem State.modFw_chanters (s : State) (f : Fw → Fw) : (s.modFw f).chanters = s.chanters := rfl
@[simp] theorem State.modFw_zones (s : State) (f : Fw → Fw) : (s.modFw f).zones = s.zones := rfl
@[simp] theorem State.modFw_str (s : State) (f : Fw → Fw) : (s.modFw f).str = s.str := rfl
@[simp] theorem State.modFw_belays (s : State) (f : Fw → Fw) : (s.modFw f).belays = s.belays := rfl
@[simp] theorem State.modFw_pwr (s : State) (f : Fw → Fw) : (s.modFw f).pwr = s.pwr := rfl
@[simp] theorem State.modFw_trims (s : State) (f : Fw → Fw) : (s.modFw f).trims = s.trims := rfl
@[simp] theorem State.modFw_latch (s : State) (f : Fw → Fw) : (s.modFw f).latch = s.latch := rfl
@[simp] theorem State.modFw_evt (s : State) (f : Fw → Fw) : (s.modFw f).evt = s.evt := rfl
@[simp] theorem State.modFw_cmdq (s : State) (f : Fw → Fw) : (s.modFw f).cmdq = s.cmdq := rfl
@[simp] theorem State.modFw_seqs (s : State) (f : Fw → Fw) : (s.modFw f).seqs = s.seqs := rfl
@[simp] theorem State.modFw_svc (s : State) (f : Fw → Fw) : (s.modFw f).svc = s.svc := rfl
@[simp] theorem State.modFw_fab (s : State) (f : Fw → Fw) : (s.modFw f).fab = s.fab := rfl
@[simp] theorem State.modFw_links (s : State) (f : Fw → Fw) : (s.modFw f).links = s.links := rfl
@[simp] theorem State.modFw_pitons (s : State) (f : Fw → Fw) : (s.modFw f).pitons = s.pitons := rfl
@[simp] theorem State.modFw_pitq (s : State) (f : Fw → Fw) : (s.modFw f).pitq = s.pitq := rfl
@[simp] theorem State.modFw_ws (s : State) (f : Fw → Fw) : (s.modFw f).ws = s.ws := rfl
@[simp] theorem State.modFw_ks (s : State) (f : Fw → Fw) : (s.modFw f).ks = s.ks := rfl
@[simp] theorem State.modFw_host (s : State) (f : Fw → Fw) : (s.modFw f).host = s.host := rfl
@[simp] theorem State.modFw_cfgq (s : State) (f : Fw → Fw) : (s.modFw f).cfgq = s.cfgq := rfl
@[simp] theorem State.modFw_chans (s : State) (f : Fw → Fw) : (s.modFw f).chans = s.chans := rfl
@[simp] theorem State.modFw_units (s : State) (f : Fw → Fw) : (s.modFw f).units = s.units := rfl
@[simp] theorem State.modFw_cfgOf (s : State) (f : Fw → Fw) : (s.modFw f).cfgOf = s.cfgOf := rfl
@[simp] theorem State.modFw_entryOf (s : State) (f : Fw → Fw) : (s.modFw f).entryOf = s.entryOf := rfl
@[simp] theorem State.modFw_entryDue (s : State) (f : Fw → Fw) : (s.modFw f).entryDue = s.entryDue := rfl
@[simp] theorem State.modFw_askSince (s : State) (f : Fw → Fw) : (s.modFw f).askSince = s.askSince := rfl
@[simp] theorem State.modFw_zpages (s : State) (f : Fw → Fw) : (s.modFw f).zpages = s.zpages := rfl
@[simp] theorem State.modFw_pending (s : State) (f : Fw → Fw) : (s.modFw f).pending = s.pending := rfl
@[simp] theorem State.modFw_free (s : State) (f : Fw → Fw) : (s.modFw f).free = s.free := rfl
@[simp] theorem State.modFw_found (s : State) (f : Fw → Fw) : (s.modFw f).found = s.found := rfl
@[simp] theorem State.modFw_raised (s : State) (f : Fw → Fw) : (s.modFw f).raised = s.raised := rfl
@[simp] theorem State.modFw_caught (s : State) (f : Fw → Fw) : (s.modFw f).caught = s.caught := rfl
@[simp] theorem State.modFw_full (s : State) (f : Fw → Fw) : (s.modFw f).full = s.full := rfl
@[simp] theorem State.modFw_rcSeen (s : State) (f : Fw → Fw) : (s.modFw f).rcSeen = s.rcSeen := rfl
@[simp] theorem State.modFw_wrote (s : State) (f : Fw → Fw) : (s.modFw f).wrote = s.wrote := rfl
@[simp] theorem State.modFw_undo (s : State) (f : Fw → Fw) : (s.modFw f).undo = s.undo := rfl

/-! modEvt changes evt alone. -/

@[simp] theorem State.modEvt_tick (s : State) (f : Evt → Evt) : (s.modEvt f).tick = s.tick := rfl
@[simp] theorem State.modEvt_ident (s : State) (f : Evt → Evt) : (s.modEvt f).ident = s.ident := rfl
@[simp] theorem State.modEvt_pins (s : State) (f : Evt → Evt) : (s.modEvt f).pins = s.pins := rfl
@[simp] theorem State.modEvt_boot (s : State) (f : Evt → Evt) : (s.modEvt f).boot = s.boot := rfl
@[simp] theorem State.modEvt_fw (s : State) (f : Evt → Evt) : (s.modEvt f).fw = s.fw := rfl
@[simp] theorem State.modEvt_tap (s : State) (f : Evt → Evt) : (s.modEvt f).tap = s.tap := rfl
@[simp] theorem State.modEvt_pst (s : State) (f : Evt → Evt) : (s.modEvt f).pst = s.pst := rfl
@[simp] theorem State.modEvt_flt (s : State) (f : Evt → Evt) : (s.modEvt f).flt = s.flt := rfl
@[simp] theorem State.modEvt_quarters (s : State) (f : Evt → Evt) : (s.modEvt f).quarters = s.quarters := rfl
@[simp] theorem State.modEvt_clk (s : State) (f : Evt → Evt) : (s.modEvt f).clk = s.clk := rfl
@[simp] theorem State.modEvt_chanters (s : State) (f : Evt → Evt) : (s.modEvt f).chanters = s.chanters := rfl
@[simp] theorem State.modEvt_zones (s : State) (f : Evt → Evt) : (s.modEvt f).zones = s.zones := rfl
@[simp] theorem State.modEvt_str (s : State) (f : Evt → Evt) : (s.modEvt f).str = s.str := rfl
@[simp] theorem State.modEvt_belays (s : State) (f : Evt → Evt) : (s.modEvt f).belays = s.belays := rfl
@[simp] theorem State.modEvt_pwr (s : State) (f : Evt → Evt) : (s.modEvt f).pwr = s.pwr := rfl
@[simp] theorem State.modEvt_trims (s : State) (f : Evt → Evt) : (s.modEvt f).trims = s.trims := rfl
@[simp] theorem State.modEvt_latch (s : State) (f : Evt → Evt) : (s.modEvt f).latch = s.latch := rfl
@[simp] theorem State.modEvt_cmdq (s : State) (f : Evt → Evt) : (s.modEvt f).cmdq = s.cmdq := rfl
@[simp] theorem State.modEvt_seqs (s : State) (f : Evt → Evt) : (s.modEvt f).seqs = s.seqs := rfl
@[simp] theorem State.modEvt_svc (s : State) (f : Evt → Evt) : (s.modEvt f).svc = s.svc := rfl
@[simp] theorem State.modEvt_fab (s : State) (f : Evt → Evt) : (s.modEvt f).fab = s.fab := rfl
@[simp] theorem State.modEvt_links (s : State) (f : Evt → Evt) : (s.modEvt f).links = s.links := rfl
@[simp] theorem State.modEvt_pitons (s : State) (f : Evt → Evt) : (s.modEvt f).pitons = s.pitons := rfl
@[simp] theorem State.modEvt_pitq (s : State) (f : Evt → Evt) : (s.modEvt f).pitq = s.pitq := rfl
@[simp] theorem State.modEvt_ws (s : State) (f : Evt → Evt) : (s.modEvt f).ws = s.ws := rfl
@[simp] theorem State.modEvt_ks (s : State) (f : Evt → Evt) : (s.modEvt f).ks = s.ks := rfl
@[simp] theorem State.modEvt_host (s : State) (f : Evt → Evt) : (s.modEvt f).host = s.host := rfl
@[simp] theorem State.modEvt_cfgq (s : State) (f : Evt → Evt) : (s.modEvt f).cfgq = s.cfgq := rfl
@[simp] theorem State.modEvt_chans (s : State) (f : Evt → Evt) : (s.modEvt f).chans = s.chans := rfl
@[simp] theorem State.modEvt_units (s : State) (f : Evt → Evt) : (s.modEvt f).units = s.units := rfl
@[simp] theorem State.modEvt_cfgOf (s : State) (f : Evt → Evt) : (s.modEvt f).cfgOf = s.cfgOf := rfl
@[simp] theorem State.modEvt_entryOf (s : State) (f : Evt → Evt) : (s.modEvt f).entryOf = s.entryOf := rfl
@[simp] theorem State.modEvt_entryDue (s : State) (f : Evt → Evt) : (s.modEvt f).entryDue = s.entryDue := rfl
@[simp] theorem State.modEvt_askSince (s : State) (f : Evt → Evt) : (s.modEvt f).askSince = s.askSince := rfl
@[simp] theorem State.modEvt_zpages (s : State) (f : Evt → Evt) : (s.modEvt f).zpages = s.zpages := rfl
@[simp] theorem State.modEvt_pending (s : State) (f : Evt → Evt) : (s.modEvt f).pending = s.pending := rfl
@[simp] theorem State.modEvt_free (s : State) (f : Evt → Evt) : (s.modEvt f).free = s.free := rfl
@[simp] theorem State.modEvt_found (s : State) (f : Evt → Evt) : (s.modEvt f).found = s.found := rfl
@[simp] theorem State.modEvt_raised (s : State) (f : Evt → Evt) : (s.modEvt f).raised = s.raised := rfl
@[simp] theorem State.modEvt_caught (s : State) (f : Evt → Evt) : (s.modEvt f).caught = s.caught := rfl
@[simp] theorem State.modEvt_full (s : State) (f : Evt → Evt) : (s.modEvt f).full = s.full := rfl
@[simp] theorem State.modEvt_rcSeen (s : State) (f : Evt → Evt) : (s.modEvt f).rcSeen = s.rcSeen := rfl
@[simp] theorem State.modEvt_wrote (s : State) (f : Evt → Evt) : (s.modEvt f).wrote = s.wrote := rfl
@[simp] theorem State.modEvt_undo (s : State) (f : Evt → Evt) : (s.modEvt f).undo = s.undo := rfl

/-! modPins changes pins alone. -/

@[simp] theorem State.modPins_tick (s : State) (f : Pins → Pins) : (s.modPins f).tick = s.tick := rfl
@[simp] theorem State.modPins_ident (s : State) (f : Pins → Pins) : (s.modPins f).ident = s.ident := rfl
@[simp] theorem State.modPins_boot (s : State) (f : Pins → Pins) : (s.modPins f).boot = s.boot := rfl
@[simp] theorem State.modPins_fw (s : State) (f : Pins → Pins) : (s.modPins f).fw = s.fw := rfl
@[simp] theorem State.modPins_tap (s : State) (f : Pins → Pins) : (s.modPins f).tap = s.tap := rfl
@[simp] theorem State.modPins_pst (s : State) (f : Pins → Pins) : (s.modPins f).pst = s.pst := rfl
@[simp] theorem State.modPins_flt (s : State) (f : Pins → Pins) : (s.modPins f).flt = s.flt := rfl
@[simp] theorem State.modPins_quarters (s : State) (f : Pins → Pins) : (s.modPins f).quarters = s.quarters := rfl
@[simp] theorem State.modPins_clk (s : State) (f : Pins → Pins) : (s.modPins f).clk = s.clk := rfl
@[simp] theorem State.modPins_chanters (s : State) (f : Pins → Pins) : (s.modPins f).chanters = s.chanters := rfl
@[simp] theorem State.modPins_zones (s : State) (f : Pins → Pins) : (s.modPins f).zones = s.zones := rfl
@[simp] theorem State.modPins_str (s : State) (f : Pins → Pins) : (s.modPins f).str = s.str := rfl
@[simp] theorem State.modPins_belays (s : State) (f : Pins → Pins) : (s.modPins f).belays = s.belays := rfl
@[simp] theorem State.modPins_pwr (s : State) (f : Pins → Pins) : (s.modPins f).pwr = s.pwr := rfl
@[simp] theorem State.modPins_trims (s : State) (f : Pins → Pins) : (s.modPins f).trims = s.trims := rfl
@[simp] theorem State.modPins_latch (s : State) (f : Pins → Pins) : (s.modPins f).latch = s.latch := rfl
@[simp] theorem State.modPins_evt (s : State) (f : Pins → Pins) : (s.modPins f).evt = s.evt := rfl
@[simp] theorem State.modPins_cmdq (s : State) (f : Pins → Pins) : (s.modPins f).cmdq = s.cmdq := rfl
@[simp] theorem State.modPins_seqs (s : State) (f : Pins → Pins) : (s.modPins f).seqs = s.seqs := rfl
@[simp] theorem State.modPins_svc (s : State) (f : Pins → Pins) : (s.modPins f).svc = s.svc := rfl
@[simp] theorem State.modPins_fab (s : State) (f : Pins → Pins) : (s.modPins f).fab = s.fab := rfl
@[simp] theorem State.modPins_links (s : State) (f : Pins → Pins) : (s.modPins f).links = s.links := rfl
@[simp] theorem State.modPins_pitons (s : State) (f : Pins → Pins) : (s.modPins f).pitons = s.pitons := rfl
@[simp] theorem State.modPins_pitq (s : State) (f : Pins → Pins) : (s.modPins f).pitq = s.pitq := rfl
@[simp] theorem State.modPins_ws (s : State) (f : Pins → Pins) : (s.modPins f).ws = s.ws := rfl
@[simp] theorem State.modPins_ks (s : State) (f : Pins → Pins) : (s.modPins f).ks = s.ks := rfl
@[simp] theorem State.modPins_host (s : State) (f : Pins → Pins) : (s.modPins f).host = s.host := rfl
@[simp] theorem State.modPins_cfgq (s : State) (f : Pins → Pins) : (s.modPins f).cfgq = s.cfgq := rfl
@[simp] theorem State.modPins_chans (s : State) (f : Pins → Pins) : (s.modPins f).chans = s.chans := rfl
@[simp] theorem State.modPins_units (s : State) (f : Pins → Pins) : (s.modPins f).units = s.units := rfl
@[simp] theorem State.modPins_cfgOf (s : State) (f : Pins → Pins) : (s.modPins f).cfgOf = s.cfgOf := rfl
@[simp] theorem State.modPins_entryOf (s : State) (f : Pins → Pins) : (s.modPins f).entryOf = s.entryOf := rfl
@[simp] theorem State.modPins_entryDue (s : State) (f : Pins → Pins) : (s.modPins f).entryDue = s.entryDue := rfl
@[simp] theorem State.modPins_askSince (s : State) (f : Pins → Pins) : (s.modPins f).askSince = s.askSince := rfl
@[simp] theorem State.modPins_zpages (s : State) (f : Pins → Pins) : (s.modPins f).zpages = s.zpages := rfl
@[simp] theorem State.modPins_pending (s : State) (f : Pins → Pins) : (s.modPins f).pending = s.pending := rfl
@[simp] theorem State.modPins_free (s : State) (f : Pins → Pins) : (s.modPins f).free = s.free := rfl
@[simp] theorem State.modPins_found (s : State) (f : Pins → Pins) : (s.modPins f).found = s.found := rfl
@[simp] theorem State.modPins_raised (s : State) (f : Pins → Pins) : (s.modPins f).raised = s.raised := rfl
@[simp] theorem State.modPins_caught (s : State) (f : Pins → Pins) : (s.modPins f).caught = s.caught := rfl
@[simp] theorem State.modPins_full (s : State) (f : Pins → Pins) : (s.modPins f).full = s.full := rfl
@[simp] theorem State.modPins_rcSeen (s : State) (f : Pins → Pins) : (s.modPins f).rcSeen = s.rcSeen := rfl
@[simp] theorem State.modPins_wrote (s : State) (f : Pins → Pins) : (s.modPins f).wrote = s.wrote := rfl
@[simp] theorem State.modPins_undo (s : State) (f : Pins → Pins) : (s.modPins f).undo = s.undo := rfl

/-! modTap changes tap alone. -/

@[simp] theorem State.modTap_tick (s : State) (f : Tap → Tap) : (s.modTap f).tick = s.tick := rfl
@[simp] theorem State.modTap_ident (s : State) (f : Tap → Tap) : (s.modTap f).ident = s.ident := rfl
@[simp] theorem State.modTap_pins (s : State) (f : Tap → Tap) : (s.modTap f).pins = s.pins := rfl
@[simp] theorem State.modTap_boot (s : State) (f : Tap → Tap) : (s.modTap f).boot = s.boot := rfl
@[simp] theorem State.modTap_fw (s : State) (f : Tap → Tap) : (s.modTap f).fw = s.fw := rfl
@[simp] theorem State.modTap_pst (s : State) (f : Tap → Tap) : (s.modTap f).pst = s.pst := rfl
@[simp] theorem State.modTap_flt (s : State) (f : Tap → Tap) : (s.modTap f).flt = s.flt := rfl
@[simp] theorem State.modTap_quarters (s : State) (f : Tap → Tap) : (s.modTap f).quarters = s.quarters := rfl
@[simp] theorem State.modTap_clk (s : State) (f : Tap → Tap) : (s.modTap f).clk = s.clk := rfl
@[simp] theorem State.modTap_chanters (s : State) (f : Tap → Tap) : (s.modTap f).chanters = s.chanters := rfl
@[simp] theorem State.modTap_zones (s : State) (f : Tap → Tap) : (s.modTap f).zones = s.zones := rfl
@[simp] theorem State.modTap_str (s : State) (f : Tap → Tap) : (s.modTap f).str = s.str := rfl
@[simp] theorem State.modTap_belays (s : State) (f : Tap → Tap) : (s.modTap f).belays = s.belays := rfl
@[simp] theorem State.modTap_pwr (s : State) (f : Tap → Tap) : (s.modTap f).pwr = s.pwr := rfl
@[simp] theorem State.modTap_trims (s : State) (f : Tap → Tap) : (s.modTap f).trims = s.trims := rfl
@[simp] theorem State.modTap_latch (s : State) (f : Tap → Tap) : (s.modTap f).latch = s.latch := rfl
@[simp] theorem State.modTap_evt (s : State) (f : Tap → Tap) : (s.modTap f).evt = s.evt := rfl
@[simp] theorem State.modTap_cmdq (s : State) (f : Tap → Tap) : (s.modTap f).cmdq = s.cmdq := rfl
@[simp] theorem State.modTap_seqs (s : State) (f : Tap → Tap) : (s.modTap f).seqs = s.seqs := rfl
@[simp] theorem State.modTap_svc (s : State) (f : Tap → Tap) : (s.modTap f).svc = s.svc := rfl
@[simp] theorem State.modTap_fab (s : State) (f : Tap → Tap) : (s.modTap f).fab = s.fab := rfl
@[simp] theorem State.modTap_links (s : State) (f : Tap → Tap) : (s.modTap f).links = s.links := rfl
@[simp] theorem State.modTap_pitons (s : State) (f : Tap → Tap) : (s.modTap f).pitons = s.pitons := rfl
@[simp] theorem State.modTap_pitq (s : State) (f : Tap → Tap) : (s.modTap f).pitq = s.pitq := rfl
@[simp] theorem State.modTap_ws (s : State) (f : Tap → Tap) : (s.modTap f).ws = s.ws := rfl
@[simp] theorem State.modTap_ks (s : State) (f : Tap → Tap) : (s.modTap f).ks = s.ks := rfl
@[simp] theorem State.modTap_host (s : State) (f : Tap → Tap) : (s.modTap f).host = s.host := rfl
@[simp] theorem State.modTap_cfgq (s : State) (f : Tap → Tap) : (s.modTap f).cfgq = s.cfgq := rfl
@[simp] theorem State.modTap_chans (s : State) (f : Tap → Tap) : (s.modTap f).chans = s.chans := rfl
@[simp] theorem State.modTap_units (s : State) (f : Tap → Tap) : (s.modTap f).units = s.units := rfl
@[simp] theorem State.modTap_cfgOf (s : State) (f : Tap → Tap) : (s.modTap f).cfgOf = s.cfgOf := rfl
@[simp] theorem State.modTap_entryOf (s : State) (f : Tap → Tap) : (s.modTap f).entryOf = s.entryOf := rfl
@[simp] theorem State.modTap_entryDue (s : State) (f : Tap → Tap) : (s.modTap f).entryDue = s.entryDue := rfl
@[simp] theorem State.modTap_askSince (s : State) (f : Tap → Tap) : (s.modTap f).askSince = s.askSince := rfl
@[simp] theorem State.modTap_zpages (s : State) (f : Tap → Tap) : (s.modTap f).zpages = s.zpages := rfl
@[simp] theorem State.modTap_pending (s : State) (f : Tap → Tap) : (s.modTap f).pending = s.pending := rfl
@[simp] theorem State.modTap_free (s : State) (f : Tap → Tap) : (s.modTap f).free = s.free := rfl
@[simp] theorem State.modTap_found (s : State) (f : Tap → Tap) : (s.modTap f).found = s.found := rfl
@[simp] theorem State.modTap_raised (s : State) (f : Tap → Tap) : (s.modTap f).raised = s.raised := rfl
@[simp] theorem State.modTap_caught (s : State) (f : Tap → Tap) : (s.modTap f).caught = s.caught := rfl
@[simp] theorem State.modTap_full (s : State) (f : Tap → Tap) : (s.modTap f).full = s.full := rfl
@[simp] theorem State.modTap_rcSeen (s : State) (f : Tap → Tap) : (s.modTap f).rcSeen = s.rcSeen := rfl
@[simp] theorem State.modTap_wrote (s : State) (f : Tap → Tap) : (s.modTap f).wrote = s.wrote := rfl
@[simp] theorem State.modTap_undo (s : State) (f : Tap → Tap) : (s.modTap f).undo = s.undo := rfl

/-! tickTime changes the tick and what a tick forgets. -/

@[simp] theorem tickTime_tick (s : State) : (tickTime s).tick = s.tick + 1 := rfl
@[simp] theorem tickTime_ident (s : State) : (tickTime s).ident = s.ident := rfl
@[simp] theorem tickTime_pins (s : State) : (tickTime s).pins = s.pins := rfl
@[simp] theorem tickTime_boot (s : State) : (tickTime s).boot = s.boot := rfl
@[simp] theorem tickTime_fw (s : State) : (tickTime s).fw = s.fw := rfl
@[simp] theorem tickTime_tap (s : State) : (tickTime s).tap = s.tap := rfl
@[simp] theorem tickTime_pst (s : State) : (tickTime s).pst = s.pst := rfl
@[simp] theorem tickTime_flt (s : State) : (tickTime s).flt = s.flt := rfl
@[simp] theorem tickTime_quarters (s : State) : (tickTime s).quarters = s.quarters := rfl
@[simp] theorem tickTime_clk (s : State) : (tickTime s).clk = s.clk := rfl
@[simp] theorem tickTime_chanters (s : State) : (tickTime s).chanters = s.chanters := rfl
@[simp] theorem tickTime_zones (s : State) : (tickTime s).zones = s.zones := rfl
@[simp] theorem tickTime_str (s : State) : (tickTime s).str = s.str := rfl
@[simp] theorem tickTime_belays (s : State) : (tickTime s).belays = s.belays := rfl
@[simp] theorem tickTime_pwr (s : State) : (tickTime s).pwr = s.pwr := rfl
@[simp] theorem tickTime_trims (s : State) : (tickTime s).trims = s.trims := rfl
@[simp] theorem tickTime_latch (s : State) : (tickTime s).latch = s.latch := rfl
@[simp] theorem tickTime_evt (s : State) : (tickTime s).evt = s.evt := rfl
@[simp] theorem tickTime_cmdq (s : State) : (tickTime s).cmdq = s.cmdq := rfl
@[simp] theorem tickTime_seqs (s : State) : (tickTime s).seqs = s.seqs := rfl
@[simp] theorem tickTime_svc (s : State) : (tickTime s).svc = s.svc := rfl
@[simp] theorem tickTime_fab (s : State) : (tickTime s).fab = s.fab := rfl
@[simp] theorem tickTime_links (s : State) : (tickTime s).links = s.links := rfl
@[simp] theorem tickTime_pitons (s : State) : (tickTime s).pitons = s.pitons := rfl
@[simp] theorem tickTime_pitq (s : State) : (tickTime s).pitq = s.pitq := rfl
@[simp] theorem tickTime_ws (s : State) : (tickTime s).ws = s.ws := rfl
@[simp] theorem tickTime_ks (s : State) : (tickTime s).ks = s.ks := rfl
@[simp] theorem tickTime_host (s : State) : (tickTime s).host = s.host := rfl
@[simp] theorem tickTime_cfgq (s : State) : (tickTime s).cfgq = s.cfgq := rfl
@[simp] theorem tickTime_chans (s : State) : (tickTime s).chans = s.chans := rfl
@[simp] theorem tickTime_units (s : State) : (tickTime s).units = s.units := rfl
@[simp] theorem tickTime_cfgOf (s : State) : (tickTime s).cfgOf = s.cfgOf := rfl
@[simp] theorem tickTime_entryOf (s : State) : (tickTime s).entryOf = s.entryOf := rfl
@[simp] theorem tickTime_entryDue (s : State) : (tickTime s).entryDue = s.entryDue := rfl
@[simp] theorem tickTime_askSince (s : State) : (tickTime s).askSince = s.askSince := rfl
@[simp] theorem tickTime_zpages (s : State) : (tickTime s).zpages = s.zpages := rfl
@[simp] theorem tickTime_pending (s : State) : (tickTime s).pending = s.pending := rfl
@[simp] theorem tickTime_free (s : State) : (tickTime s).free = s.free := rfl
@[simp] theorem tickTime_found (s : State) : (tickTime s).found = s.found := rfl
@[simp] theorem tickTime_raised (s : State) : (tickTime s).raised = [] := rfl
@[simp] theorem tickTime_caught (s : State) : (tickTime s).caught = [] := rfl
@[simp] theorem tickTime_full (s : State) : (tickTime s).full = [] := rfl
@[simp] theorem tickTime_rcSeen (s : State) : (tickTime s).rcSeen = [] := rfl
@[simp] theorem tickTime_wrote (s : State) : (tickTime s).wrote = [] := rfl
@[simp] theorem tickTime_undo (s : State) : (tickTime s).undo = none := rfl

/-! raise changes raised alone. -/

@[simp] theorem State.raise_tick (s : State) (off : Nat) (m : Word) : (s.raise off m).tick = s.tick := rfl
@[simp] theorem State.raise_ident (s : State) (off : Nat) (m : Word) : (s.raise off m).ident = s.ident := rfl
@[simp] theorem State.raise_pins (s : State) (off : Nat) (m : Word) : (s.raise off m).pins = s.pins := rfl
@[simp] theorem State.raise_boot (s : State) (off : Nat) (m : Word) : (s.raise off m).boot = s.boot := rfl
@[simp] theorem State.raise_fw (s : State) (off : Nat) (m : Word) : (s.raise off m).fw = s.fw := rfl
@[simp] theorem State.raise_tap (s : State) (off : Nat) (m : Word) : (s.raise off m).tap = s.tap := rfl
@[simp] theorem State.raise_pst (s : State) (off : Nat) (m : Word) : (s.raise off m).pst = s.pst := rfl
@[simp] theorem State.raise_flt (s : State) (off : Nat) (m : Word) : (s.raise off m).flt = s.flt := rfl
@[simp] theorem State.raise_quarters (s : State) (off : Nat) (m : Word) : (s.raise off m).quarters = s.quarters := rfl
@[simp] theorem State.raise_clk (s : State) (off : Nat) (m : Word) : (s.raise off m).clk = s.clk := rfl
@[simp] theorem State.raise_chanters (s : State) (off : Nat) (m : Word) : (s.raise off m).chanters = s.chanters := rfl
@[simp] theorem State.raise_zones (s : State) (off : Nat) (m : Word) : (s.raise off m).zones = s.zones := rfl
@[simp] theorem State.raise_str (s : State) (off : Nat) (m : Word) : (s.raise off m).str = s.str := rfl
@[simp] theorem State.raise_belays (s : State) (off : Nat) (m : Word) : (s.raise off m).belays = s.belays := rfl
@[simp] theorem State.raise_pwr (s : State) (off : Nat) (m : Word) : (s.raise off m).pwr = s.pwr := rfl
@[simp] theorem State.raise_trims (s : State) (off : Nat) (m : Word) : (s.raise off m).trims = s.trims := rfl
@[simp] theorem State.raise_latch (s : State) (off : Nat) (m : Word) : (s.raise off m).latch = s.latch := rfl
@[simp] theorem State.raise_evt (s : State) (off : Nat) (m : Word) : (s.raise off m).evt = s.evt := rfl
@[simp] theorem State.raise_cmdq (s : State) (off : Nat) (m : Word) : (s.raise off m).cmdq = s.cmdq := rfl
@[simp] theorem State.raise_seqs (s : State) (off : Nat) (m : Word) : (s.raise off m).seqs = s.seqs := rfl
@[simp] theorem State.raise_svc (s : State) (off : Nat) (m : Word) : (s.raise off m).svc = s.svc := rfl
@[simp] theorem State.raise_fab (s : State) (off : Nat) (m : Word) : (s.raise off m).fab = s.fab := rfl
@[simp] theorem State.raise_links (s : State) (off : Nat) (m : Word) : (s.raise off m).links = s.links := rfl
@[simp] theorem State.raise_pitons (s : State) (off : Nat) (m : Word) : (s.raise off m).pitons = s.pitons := rfl
@[simp] theorem State.raise_pitq (s : State) (off : Nat) (m : Word) : (s.raise off m).pitq = s.pitq := rfl
@[simp] theorem State.raise_ws (s : State) (off : Nat) (m : Word) : (s.raise off m).ws = s.ws := rfl
@[simp] theorem State.raise_ks (s : State) (off : Nat) (m : Word) : (s.raise off m).ks = s.ks := rfl
@[simp] theorem State.raise_host (s : State) (off : Nat) (m : Word) : (s.raise off m).host = s.host := rfl
@[simp] theorem State.raise_cfgq (s : State) (off : Nat) (m : Word) : (s.raise off m).cfgq = s.cfgq := rfl
@[simp] theorem State.raise_chans (s : State) (off : Nat) (m : Word) : (s.raise off m).chans = s.chans := rfl
@[simp] theorem State.raise_units (s : State) (off : Nat) (m : Word) : (s.raise off m).units = s.units := rfl
@[simp] theorem State.raise_cfgOf (s : State) (off : Nat) (m : Word) : (s.raise off m).cfgOf = s.cfgOf := rfl
@[simp] theorem State.raise_entryOf (s : State) (off : Nat) (m : Word) : (s.raise off m).entryOf = s.entryOf := rfl
@[simp] theorem State.raise_entryDue (s : State) (off : Nat) (m : Word) : (s.raise off m).entryDue = s.entryDue := rfl
@[simp] theorem State.raise_askSince (s : State) (off : Nat) (m : Word) : (s.raise off m).askSince = s.askSince := rfl
@[simp] theorem State.raise_zpages (s : State) (off : Nat) (m : Word) : (s.raise off m).zpages = s.zpages := rfl
@[simp] theorem State.raise_pending (s : State) (off : Nat) (m : Word) : (s.raise off m).pending = s.pending := rfl
@[simp] theorem State.raise_free (s : State) (off : Nat) (m : Word) : (s.raise off m).free = s.free := rfl
@[simp] theorem State.raise_found (s : State) (off : Nat) (m : Word) : (s.raise off m).found = s.found := rfl
@[simp] theorem State.raise_caught (s : State) (off : Nat) (m : Word) : (s.raise off m).caught = s.caught := rfl
@[simp] theorem State.raise_full (s : State) (off : Nat) (m : Word) : (s.raise off m).full = s.full := rfl
@[simp] theorem State.raise_rcSeen (s : State) (off : Nat) (m : Word) : (s.raise off m).rcSeen = s.rcSeen := rfl
@[simp] theorem State.raise_wrote (s : State) (off : Nat) (m : Word) : (s.raise off m).wrote = s.wrote := rfl
@[simp] theorem State.raise_undo (s : State) (off : Nat) (m : Word) : (s.raise off m).undo = s.undo := rfl

/-! catchFirst changes caught alone. -/

@[simp] theorem State.catchFirst_tick (s : State) (off : Nat) (v : Word) : (s.catchFirst off v).tick = s.tick := rfl
@[simp] theorem State.catchFirst_ident (s : State) (off : Nat) (v : Word) : (s.catchFirst off v).ident = s.ident := rfl
@[simp] theorem State.catchFirst_pins (s : State) (off : Nat) (v : Word) : (s.catchFirst off v).pins = s.pins := rfl
@[simp] theorem State.catchFirst_boot (s : State) (off : Nat) (v : Word) : (s.catchFirst off v).boot = s.boot := rfl
@[simp] theorem State.catchFirst_fw (s : State) (off : Nat) (v : Word) : (s.catchFirst off v).fw = s.fw := rfl
@[simp] theorem State.catchFirst_tap (s : State) (off : Nat) (v : Word) : (s.catchFirst off v).tap = s.tap := rfl
@[simp] theorem State.catchFirst_pst (s : State) (off : Nat) (v : Word) : (s.catchFirst off v).pst = s.pst := rfl
@[simp] theorem State.catchFirst_flt (s : State) (off : Nat) (v : Word) : (s.catchFirst off v).flt = s.flt := rfl
@[simp] theorem State.catchFirst_quarters (s : State) (off : Nat) (v : Word) : (s.catchFirst off v).quarters = s.quarters := rfl
@[simp] theorem State.catchFirst_clk (s : State) (off : Nat) (v : Word) : (s.catchFirst off v).clk = s.clk := rfl
@[simp] theorem State.catchFirst_chanters (s : State) (off : Nat) (v : Word) : (s.catchFirst off v).chanters = s.chanters := rfl
@[simp] theorem State.catchFirst_zones (s : State) (off : Nat) (v : Word) : (s.catchFirst off v).zones = s.zones := rfl
@[simp] theorem State.catchFirst_str (s : State) (off : Nat) (v : Word) : (s.catchFirst off v).str = s.str := rfl
@[simp] theorem State.catchFirst_belays (s : State) (off : Nat) (v : Word) : (s.catchFirst off v).belays = s.belays := rfl
@[simp] theorem State.catchFirst_pwr (s : State) (off : Nat) (v : Word) : (s.catchFirst off v).pwr = s.pwr := rfl
@[simp] theorem State.catchFirst_trims (s : State) (off : Nat) (v : Word) : (s.catchFirst off v).trims = s.trims := rfl
@[simp] theorem State.catchFirst_latch (s : State) (off : Nat) (v : Word) : (s.catchFirst off v).latch = s.latch := rfl
@[simp] theorem State.catchFirst_evt (s : State) (off : Nat) (v : Word) : (s.catchFirst off v).evt = s.evt := rfl
@[simp] theorem State.catchFirst_cmdq (s : State) (off : Nat) (v : Word) : (s.catchFirst off v).cmdq = s.cmdq := rfl
@[simp] theorem State.catchFirst_seqs (s : State) (off : Nat) (v : Word) : (s.catchFirst off v).seqs = s.seqs := rfl
@[simp] theorem State.catchFirst_svc (s : State) (off : Nat) (v : Word) : (s.catchFirst off v).svc = s.svc := rfl
@[simp] theorem State.catchFirst_fab (s : State) (off : Nat) (v : Word) : (s.catchFirst off v).fab = s.fab := rfl
@[simp] theorem State.catchFirst_links (s : State) (off : Nat) (v : Word) : (s.catchFirst off v).links = s.links := rfl
@[simp] theorem State.catchFirst_pitons (s : State) (off : Nat) (v : Word) : (s.catchFirst off v).pitons = s.pitons := rfl
@[simp] theorem State.catchFirst_pitq (s : State) (off : Nat) (v : Word) : (s.catchFirst off v).pitq = s.pitq := rfl
@[simp] theorem State.catchFirst_ws (s : State) (off : Nat) (v : Word) : (s.catchFirst off v).ws = s.ws := rfl
@[simp] theorem State.catchFirst_ks (s : State) (off : Nat) (v : Word) : (s.catchFirst off v).ks = s.ks := rfl
@[simp] theorem State.catchFirst_host (s : State) (off : Nat) (v : Word) : (s.catchFirst off v).host = s.host := rfl
@[simp] theorem State.catchFirst_cfgq (s : State) (off : Nat) (v : Word) : (s.catchFirst off v).cfgq = s.cfgq := rfl
@[simp] theorem State.catchFirst_chans (s : State) (off : Nat) (v : Word) : (s.catchFirst off v).chans = s.chans := rfl
@[simp] theorem State.catchFirst_units (s : State) (off : Nat) (v : Word) : (s.catchFirst off v).units = s.units := rfl
@[simp] theorem State.catchFirst_cfgOf (s : State) (off : Nat) (v : Word) : (s.catchFirst off v).cfgOf = s.cfgOf := rfl
@[simp] theorem State.catchFirst_entryOf (s : State) (off : Nat) (v : Word) : (s.catchFirst off v).entryOf = s.entryOf := rfl
@[simp] theorem State.catchFirst_entryDue (s : State) (off : Nat) (v : Word) : (s.catchFirst off v).entryDue = s.entryDue := rfl
@[simp] theorem State.catchFirst_askSince (s : State) (off : Nat) (v : Word) : (s.catchFirst off v).askSince = s.askSince := rfl
@[simp] theorem State.catchFirst_zpages (s : State) (off : Nat) (v : Word) : (s.catchFirst off v).zpages = s.zpages := rfl
@[simp] theorem State.catchFirst_pending (s : State) (off : Nat) (v : Word) : (s.catchFirst off v).pending = s.pending := rfl
@[simp] theorem State.catchFirst_free (s : State) (off : Nat) (v : Word) : (s.catchFirst off v).free = s.free := rfl
@[simp] theorem State.catchFirst_found (s : State) (off : Nat) (v : Word) : (s.catchFirst off v).found = s.found := rfl
@[simp] theorem State.catchFirst_raised (s : State) (off : Nat) (v : Word) : (s.catchFirst off v).raised = s.raised := rfl
@[simp] theorem State.catchFirst_full (s : State) (off : Nat) (v : Word) : (s.catchFirst off v).full = s.full := rfl
@[simp] theorem State.catchFirst_rcSeen (s : State) (off : Nat) (v : Word) : (s.catchFirst off v).rcSeen = s.rcSeen := rfl
@[simp] theorem State.catchFirst_wrote (s : State) (off : Nat) (v : Word) : (s.catchFirst off v).wrote = s.wrote := rfl
@[simp] theorem State.catchFirst_undo (s : State) (off : Nat) (v : Word) : (s.catchFirst off v).undo = s.undo := rfl

/-! takeFree advances the count of free values alone. -/

@[simp] theorem State.takeFree_tick (s : State) (w : Nat) : (s.takeFree w).2.tick = s.tick := rfl
@[simp] theorem State.takeFree_ident (s : State) (w : Nat) : (s.takeFree w).2.ident = s.ident := rfl
@[simp] theorem State.takeFree_pins (s : State) (w : Nat) : (s.takeFree w).2.pins = s.pins := rfl
@[simp] theorem State.takeFree_boot (s : State) (w : Nat) : (s.takeFree w).2.boot = s.boot := rfl
@[simp] theorem State.takeFree_fw (s : State) (w : Nat) : (s.takeFree w).2.fw = s.fw := rfl
@[simp] theorem State.takeFree_tap (s : State) (w : Nat) : (s.takeFree w).2.tap = s.tap := rfl
@[simp] theorem State.takeFree_pst (s : State) (w : Nat) : (s.takeFree w).2.pst = s.pst := rfl
@[simp] theorem State.takeFree_flt (s : State) (w : Nat) : (s.takeFree w).2.flt = s.flt := rfl
@[simp] theorem State.takeFree_quarters (s : State) (w : Nat) : (s.takeFree w).2.quarters = s.quarters := rfl
@[simp] theorem State.takeFree_clk (s : State) (w : Nat) : (s.takeFree w).2.clk = s.clk := rfl
@[simp] theorem State.takeFree_chanters (s : State) (w : Nat) : (s.takeFree w).2.chanters = s.chanters := rfl
@[simp] theorem State.takeFree_zones (s : State) (w : Nat) : (s.takeFree w).2.zones = s.zones := rfl
@[simp] theorem State.takeFree_str (s : State) (w : Nat) : (s.takeFree w).2.str = s.str := rfl
@[simp] theorem State.takeFree_belays (s : State) (w : Nat) : (s.takeFree w).2.belays = s.belays := rfl
@[simp] theorem State.takeFree_pwr (s : State) (w : Nat) : (s.takeFree w).2.pwr = s.pwr := rfl
@[simp] theorem State.takeFree_trims (s : State) (w : Nat) : (s.takeFree w).2.trims = s.trims := rfl
@[simp] theorem State.takeFree_latch (s : State) (w : Nat) : (s.takeFree w).2.latch = s.latch := rfl
@[simp] theorem State.takeFree_evt (s : State) (w : Nat) : (s.takeFree w).2.evt = s.evt := rfl
@[simp] theorem State.takeFree_cmdq (s : State) (w : Nat) : (s.takeFree w).2.cmdq = s.cmdq := rfl
@[simp] theorem State.takeFree_seqs (s : State) (w : Nat) : (s.takeFree w).2.seqs = s.seqs := rfl
@[simp] theorem State.takeFree_svc (s : State) (w : Nat) : (s.takeFree w).2.svc = s.svc := rfl
@[simp] theorem State.takeFree_fab (s : State) (w : Nat) : (s.takeFree w).2.fab = s.fab := rfl
@[simp] theorem State.takeFree_links (s : State) (w : Nat) : (s.takeFree w).2.links = s.links := rfl
@[simp] theorem State.takeFree_pitons (s : State) (w : Nat) : (s.takeFree w).2.pitons = s.pitons := rfl
@[simp] theorem State.takeFree_pitq (s : State) (w : Nat) : (s.takeFree w).2.pitq = s.pitq := rfl
@[simp] theorem State.takeFree_ws (s : State) (w : Nat) : (s.takeFree w).2.ws = s.ws := rfl
@[simp] theorem State.takeFree_ks (s : State) (w : Nat) : (s.takeFree w).2.ks = s.ks := rfl
@[simp] theorem State.takeFree_host (s : State) (w : Nat) : (s.takeFree w).2.host = s.host := rfl
@[simp] theorem State.takeFree_cfgq (s : State) (w : Nat) : (s.takeFree w).2.cfgq = s.cfgq := rfl
@[simp] theorem State.takeFree_chans (s : State) (w : Nat) : (s.takeFree w).2.chans = s.chans := rfl
@[simp] theorem State.takeFree_units (s : State) (w : Nat) : (s.takeFree w).2.units = s.units := rfl
@[simp] theorem State.takeFree_cfgOf (s : State) (w : Nat) : (s.takeFree w).2.cfgOf = s.cfgOf := rfl
@[simp] theorem State.takeFree_entryOf (s : State) (w : Nat) : (s.takeFree w).2.entryOf = s.entryOf := rfl
@[simp] theorem State.takeFree_entryDue (s : State) (w : Nat) : (s.takeFree w).2.entryDue = s.entryDue := rfl
@[simp] theorem State.takeFree_askSince (s : State) (w : Nat) : (s.takeFree w).2.askSince = s.askSince := rfl
@[simp] theorem State.takeFree_zpages (s : State) (w : Nat) : (s.takeFree w).2.zpages = s.zpages := rfl
@[simp] theorem State.takeFree_pending (s : State) (w : Nat) : (s.takeFree w).2.pending = s.pending := rfl
@[simp] theorem State.takeFree_found (s : State) (w : Nat) : (s.takeFree w).2.found = s.found := rfl
@[simp] theorem State.takeFree_raised (s : State) (w : Nat) : (s.takeFree w).2.raised = s.raised := rfl
@[simp] theorem State.takeFree_caught (s : State) (w : Nat) : (s.takeFree w).2.caught = s.caught := rfl
@[simp] theorem State.takeFree_full (s : State) (w : Nat) : (s.takeFree w).2.full = s.full := rfl
@[simp] theorem State.takeFree_rcSeen (s : State) (w : Nat) : (s.takeFree w).2.rcSeen = s.rcSeen := rfl
@[simp] theorem State.takeFree_wrote (s : State) (w : Nat) : (s.takeFree w).2.wrote = s.wrote := rfl
@[simp] theorem State.takeFree_undo (s : State) (w : Nat) : (s.takeFree w).2.undo = s.undo := rfl
@[simp] theorem State.takeFree_free (s : State) (w : Nat) : (s.takeFree w).2.free = s.free + 1 := rfl

end Sys2Proof.Machine
end

