-- ==== Sys2Proof/Laws/Tables.lean ====
section
/-! SUPPORT. The tables of Machine/Ops.lean: reading after writing, writing elsewhere, and that every operation keeps the canonical form; the same for a byte memory. -/

namespace Sys2Proof.Machine

variable {α : Type}

theorem sget_sinsert (d : α) (k : Nat) (v : α) (m : Sparse α) (j : Nat) (h : ∀ c ∈ m, c.1 ≠ k) :
    sget d (sinsert k v m) j = if j = k then v else sget d m j := by
  induction m with
  | nil =>
    by_cases hj : j = k
    · simp [sinsert, sget, hj]
    · have hj' : ¬ k = j := fun e => hj e.symm
      simp [sinsert, sget, hj, hj']
  | cons c m ih =>
    obtain ⟨i, w⟩ := c
    have hi : i ≠ k := h (i, w) (by simp)
    have ih := ih fun c hc => h c (by simp [hc])
    unfold sinsert
    split
    · by_cases hj : j = k
      · simp [sget, hj]
      · have hj' : ¬ k = j := fun e => hj e.symm
        simp [sget, hj, hj']
    · by_cases hj : j = k
      · subst hj; simp [sget, hi, ih]
      · simp only [sget, ih, hj, if_false]

theorem serase_ne (m : Sparse α) (k : Nat) : ∀ c ∈ serase m k, c.1 ≠ k := by
  intro c hc
  simpa [serase] using (List.mem_filter.1 hc).2

theorem sget_serase (d : α) (m : Sparse α) (k j : Nat) : sget d (serase m k) j = if j = k then d else sget d m j := by
  induction m with
  | nil => simp [serase, sget]
  | cons c m ih =>
    obtain ⟨i, w⟩ := c
    simp only [serase, List.filter_cons]
    simp only [serase] at ih
    by_cases hi : i = k
    · subst hi
      simp only [bne_self_eq_false, Bool.false_eq_true, if_false, ih, sget]
      by_cases hj : j = i
      · simp [hj]
      · have hj' : ¬ i = j := fun e => hj e.symm
        simp [hj, hj']
    · have : (i != k) = true := by simpa using hi
      simp only [this, if_true, sget, ih]
      by_cases hj : j = k
      · subst hj; simp [hi]
      · simp [hj]

section
variable [DecidableEq α]

/-- Reading a table after a write. -/
theorem sget_sset (d : α) (m : Sparse α) (k : Nat) (v : α) (j : Nat) :
    sget d (sset d m k v) j = if j = k then v else sget d m j := by
  unfold sset
  split
  · next h => subst h; exact sget_serase v m k j
  · rw [sget_sinsert _ _ _ _ _ (serase_ne m k), sget_serase]
    by_cases hj : j = k <;> simp [hj]

@[simp] theorem sget_sset_same (d : α) (m : Sparse α) (k : Nat) (v : α) : sget d (sset d m k v) k = v := by simp [sget_sset]
theorem sget_sset_other (d : α) (m : Sparse α) (k : Nat) (v : α) (j : Nat) (h : j ≠ k) : sget d (sset d m k v) j = sget d m j := by
  simp [sget_sset, h]
@[simp] theorem sget_smod_same (d : α) (m : Sparse α) (k : Nat) (f : α → α) : sget d (smod d m k f) k = f (sget d m k) := by
  simp [smod]
theorem sget_smod_other (d : α) (m : Sparse α) (k : Nat) (f : α → α) (j : Nat) (h : j ≠ k) : sget d (smod d m k f) j = sget d m j := by
  simp [smod, sget_sset, h]

/-! The canonical form. -/

theorem wf_cons (d : α) (j : Nat) (v : α) (m : Sparse α) :
    Sparse.wf d ((j, v) :: m) = true ↔ v ≠ d ∧ (∀ c ∈ m, j < c.1) ∧ Sparse.wf d m = true := by
  simp [Sparse.wf, and_assoc]

theorem wf_filter (d : α) (m : Sparse α) (p : Nat × α → Bool) (h : Sparse.wf d m = true) : Sparse.wf d (m.filter p) = true := by
  induction m with
  | nil => simp [Sparse.wf]
  | cons c m ih =>
    obtain ⟨i, w⟩ := c
    rw [wf_cons] at h
    obtain ⟨h1, h2, h3⟩ := h
    rw [List.filter_cons]
    split
    · rw [wf_cons]
      exact ⟨h1, fun c hc => h2 c (List.mem_filter.1 hc).1, ih h3⟩
    · exact ih h3

theorem mem_sinsert (k : Nat) (v : α) (m : Sparse α) (c : Nat × α) : c ∈ sinsert k v m ↔ c = (k, v) ∨ c ∈ m := by
  induction m with
  | nil => simp [sinsert]
  | cons e m ih =>
    obtain ⟨i, w⟩ := e
    unfold sinsert
    split
    · simp
    · simp [ih]; tauto

theorem wf_sinsert (d : α) (k : Nat) (v : α) (m : Sparse α) (hv : v ≠ d) (hk : ∀ c ∈ m, c.1 ≠ k) (h : Sparse.wf d m = true) :
    Sparse.wf d (sinsert k v m) = true := by
  induction m with
  | nil => simp [sinsert, Sparse.wf, hv]
  | cons c m ih =>
    obtain ⟨i, w⟩ := c
    have h' := h
    rw [wf_cons] at h'
    obtain ⟨h1, h2, h3⟩ := h'
    unfold sinsert
    split
    · next hlt =>
      rw [wf_cons]
      refine ⟨hv, ?_, h⟩
      intro c hc
      rcases List.mem_cons.1 hc with rfl | hc
      · exact hlt
      · exact lt_trans hlt (h2 c hc)
    · next hlt =>
      rw [wf_cons]
      refine ⟨h1, ?_, ih (fun c hc => hk c (by simp [hc])) h3⟩
      intro c hc
      rcases (mem_sinsert k v m c).1 hc with rfl | hc
      · have : i ≠ k := hk (i, w) (by simp)
        show i < k
        omega
      · exact h2 c hc

/-- A write keeps the canonical form. -/
theorem wf_sset (d : α) (m : Sparse α) (k : Nat) (v : α) (h : Sparse.wf d m = true) : Sparse.wf d (sset d m k v) = true := by
  unfold sset
  split
  · exact wf_filter d m _ h
  · next hv => exact wf_sinsert d k v _ hv (serase_ne m k) (wf_filter d m _ h)
theorem wf_smod (d : α) (m : Sparse α) (k : Nat) (f : α → α) (h : Sparse.wf d m = true) : Sparse.wf d (smod d m k f) = true :=
  wf_sset d m k _ h

end

/-! A byte memory. -/

theorem wf_writeByte (m : Memory) (a : Nat) (b : Byte) (h : Memory.wf m = true) : Memory.wf (writeByte m a b) = true := wf_sset _ _ _ _ h
theorem wf_writeNat (m : Memory) (a v n : Nat) (h : Memory.wf m = true) : Memory.wf (writeNat m a v n) = true := by
  induction n with
  | zero => exact h
  | succ n ih => exact wf_writeByte _ _ _ ih
theorem wf_writeRowAt (m : Memory) (a : Nat) (r : Row) (h : Memory.wf m = true) : Memory.wf (writeRowAt m a r) = true := wf_writeNat _ _ _ _ h
theorem wf_clearRange (m : Memory) (a n : Nat) (h : Memory.wf m = true) : Memory.wf (clearRange m a n) = true := wf_filter _ _ _ h
theorem wf_append (d : Byte) (l m : Memory) (hl : Sparse.wf d l = true) (hm : Sparse.wf d m = true)
    (h : ∀ a ∈ l, ∀ b ∈ m, a.1 < b.1) : Sparse.wf d (l ++ m) = true := by
  induction l with
  | nil => exact hm
  | cons c l ih =>
    obtain ⟨i, w⟩ := c
    rw [wf_cons] at hl
    rw [List.cons_append, wf_cons]
    refine ⟨hl.1, ?_, ih hl.2.2 fun a ha => h a (by simp [ha])⟩
    intro c hc
    rcases List.mem_append.1 hc with hc | hc
    · exact hl.2.1 c hc
    · exact h (i, w) (by simp) c hc
theorem wf_shift (d : Byte) (m : Memory) (a b : Nat) (h : Sparse.wf d m = true) (ha : ∀ c ∈ m, a ≤ c.1) :
    Sparse.wf d (m.map fun c => (c.1 - a + b, c.2)) = true := by
  induction m with
  | nil => rfl
  | cons c m ih =>
    obtain ⟨i, w⟩ := c
    rw [wf_cons] at h
    rw [List.map_cons, wf_cons]
    refine ⟨h.1, ?_, ih h.2.2 fun c hc => ha c (by simp [hc])⟩
    intro c hc
    obtain ⟨e, he, rfl⟩ := List.mem_map.1 hc
    have h1 := h.2.1 e he
    have h2 := ha (i, w) (by simp)
    show i - a + b < e.1 - a + b
    simp only at h2
    omega
/-- Copying a run keeps the canonical form. -/
theorem wf_copyRange (src : Memory) (a len : Nat) (dst : Memory) (b : Nat) (hs : Memory.wf src = true) (hd : Memory.wf dst = true) :
    Memory.wf (copyRange src a len dst b) = true := by
  have hsl : ∀ c ∈ sliceTo src a len b, b ≤ c.1 ∧ c.1 < b + len := by
    intro c hc
    obtain ⟨e, he, rfl⟩ := List.mem_map.1 hc
    have := (List.mem_filter.1 he).2
    simp only [decide_eq_true_eq] at this
    simp only
    omega
  refine wf_append _ _ _ (wf_append _ _ _ (wf_filter _ _ _ (wf_clearRange _ _ _ hd)) ?_ ?_) (wf_filter _ _ _ (wf_clearRange _ _ _ hd)) ?_
  · refine wf_shift _ _ _ _ (wf_filter _ _ _ hs) ?_
    intro c hc
    have := (List.mem_filter.1 hc).2
    simp only [decide_eq_true_eq] at this
    exact this.1
  · intro x hx y hy
    have h1 := (List.mem_filter.1 hx).2
    have h2 := hsl y hy
    simp only [decide_eq_true_eq] at h1
    omega
  · intro x hx y hy
    have h2 := List.mem_filter.1 hy
    have h3 := (List.mem_filter.1 h2.1).2
    have h4 := h2.2
    simp only [decide_eq_true_eq] at h3 h4
    rcases List.mem_append.1 hx with hx | hx
    · have h1 := (List.mem_filter.1 hx).2
      simp only [decide_eq_true_eq] at h1
      omega
    · have := hsl x hx
      omega
@[simp] theorem readByte_writeByte_same (m : Memory) (a : Nat) (b : Byte) : readByte (writeByte m a b) a = b := by
  simp [readByte, writeByte]
theorem readByte_writeByte_other (m : Memory) (a j : Nat) (b : Byte) (h : j ≠ a) : readByte (writeByte m a b) j = readByte m j := by
  simp [readByte, writeByte, sget_sset, h]
/-- Bytes outside a run written keep their value. -/
theorem readByte_writeNat_other (m : Memory) (a v n j : Nat) (h : j < a ∨ a + n ≤ j) : readByte (writeNat m a v n) j = readByte m j := by
  induction n with
  | zero => rfl
  | succ n ih =>
    show readByte (writeByte (writeNat m a v n) (a + n) _) j = _
    rw [readByte_writeByte_other _ _ _ _ (by omega), ih (by omega)]

end Sys2Proof.Machine
end

