-- ==== Sys2Proof/Laws/Units.lean ====
section
/-! SUPPORT. Units and their compute-unit parts: what the shared operations of the stages leave as it was, timed registers, vectors by lane. -/

namespace Sys2Proof.Machine

@[simp] theorem unit_modUnit_same (s : State) (u : Nat) (f : UnitSt → UnitSt) : (s.modUnit u f).unit u = f (s.unit u) := by
  simp [State.modUnit, State.unit, sget_smod_same]

theorem unit_modUnit_other (s : State) {u v : Nat} (f : UnitSt → UnitSt) (h : v ≠ u) : (s.modUnit u f).unit v = s.unit v := by
  simp [State.modUnit, State.unit, sget_smod_other _ _ _ _ _ h]

theorem unit_modUnit (s : State) (u v : Nat) (f : UnitSt → UnitSt) :
    (s.modUnit u f).unit v = if v = u then f (s.unit v) else s.unit v := by
  split
  · next h => subst h; simp
  · next h => exact unit_modUnit_other s f h

@[simp] theorem unit_modCu_same (s : State) (u : Nat) (f : Cu → Cu) :
    (s.modCu u f).unit u = { s.unit u with cu := f (s.unit u).cu } := by simp [State.modCu]

@[simp] theorem unit_modMu_same (s : State) (u : Nat) (f : Mu → Mu) :
    (s.modMu u f).unit u = { s.unit u with mu := f (s.unit u).mu } := by simp [State.modMu]

@[simp] theorem unit_modZpage (s : State) (z v : Nat) (f : ZonePage → ZonePage) : (s.modZpage z f).unit v = s.unit v := rfl
@[simp] theorem unit_modFlt (s : State) (v : Nat) (f : Flt → Flt) : (s.modFlt f).unit v = s.unit v := rfl
@[simp] theorem unit_raise (s : State) (v off : Nat) (m : Word) : (s.raise off m).unit v = s.unit v := rfl
@[simp] theorem unit_spill {w : Nat} (s : State) (v k : Nat) (x : BitVec w) (n : Nat) : (s.spill k x n).unit v = s.unit v := rfl
@[simp] theorem unit_takeFree (s : State) (w v : Nat) : (s.takeFree w).2.unit v = s.unit v := rfl

/-- The latest value written shows from its cycle on. -/
theorem timedGet_timedPut {α : Type} (d : α) (l : Timed α) (t r : Nat) (v : α) :
    timedGet d (timedPut l t r v) r = v := by
  have key : ∀ a b c : Timed α, (∀ p ∈ c, r < p.1) →
      timedGet d (a ++ b ++ [(r, v)] ++ c) r = v := by
    intro a b c hc
    have : (c.filter fun p => decide (p.1 ≤ r)) = [] := by
      apply List.filter_eq_nil_iff.2
      intro p hp
      have := hc p hp
      simp; omega
    simp [timedGet, List.filter_append, this]
  unfold timedPut
  exact key _ _ _ (by intro p hp; simpa using (List.mem_filter.1 hp).2)

/-- The k-bit digits of x make x again. -/
theorem packNat_digits (k x : Nat) : ∀ n, packNat k (fun i => x / 2 ^ (k * i) % 2 ^ k) n = x % 2 ^ (k * n)
  | 0 => by simp [packNat, Nat.mod_one]
  | n + 1 => by
    rw [packNat, packNat_digits k x n, Nat.mul_succ, Nat.pow_add, Nat.mod_mul]
    ring

theorem packNat_congr (k : Nat) {f g : Nat → Nat} : ∀ n, (∀ i < n, f i = g i) → packNat k f n = packNat k g n
  | 0, _ => rfl
  | n + 1, h => by
    rw [packNat, packNat, packNat_congr k n (fun i hi => h i (by omega)), h n (by omega)]

theorem mkVec_congr {f g : Nat → Word} (h : ∀ i < 32, f i = g i) : mkVec f = mkVec g := by
  unfold mkVec
  rw [packNat_congr 32 (g := fun i => (g i).toNat) 32 (fun i hi => by rw [h i hi])]

/-- A vector is made of its lanes. -/
theorem mkVec_lane (v : Vec) : mkVec (lane v) = v := by
  unfold mkVec
  rw [packNat_congr 32 (g := fun i => v.toNat / 2 ^ (32 * i) % 2 ^ 32) 32 (fun i _ => by
    simp [lane, BitVec.extractLsb'_toNat, Nat.shiftRight_eq_div_pow]), packNat_digits]
  apply BitVec.eq_of_toNat_eq
  rw [BitVec.toNat_ofNat, Nat.mod_eq_of_lt v.isLt, Nat.mod_eq_of_lt v.isLt]

/-- What raising sticky flags changes. -/
theorem setFlags_unit (s : State) (u : Nat) (f : BitVec 5) :
    ∃ g, ∀ v, (setFlags s u f).unit v = if v = u then { s.unit v with cu := { (s.unit v).cu with flags := g } } else s.unit v := by
  unfold setFlags
  split
  · exact ⟨(s.unit u).cu.flags, fun v => by split <;> simp_all⟩
  · exact ⟨(s.unit u).cu.flags ||| f, fun v => by
      rw [unit_raise, unit_raise, unit_modZpage, State.modCu, unit_modUnit]; split
      · next h => subst h; rfl
      · rfl⟩

/-- What counting in an arithmetic item changes. -/
theorem addItem_unit (s : State) (u i n : Nat) :
    ∃ g, ∀ v, (addItem s u i n).unit v = if v = u then { s.unit v with cu := { (s.unit v).cu with items := g } } else s.unit v := by
  unfold addItem
  split
  · exact ⟨(s.unit u).cu.items, fun v => by split <;> simp_all⟩
  · exact ⟨smod 0 (s.unit u).cu.items i fun v => satAdd v n, fun v => by
      rw [State.modCu, unit_modUnit, unit_spill]; split
      · next h => subst h; rfl
      · rfl⟩

/-- Counting NaN and saturation events changes a unit's flags and items only. -/
theorem countFp_unit (s : State) (u a b : Nat) :
    ∃ g i, ∀ v, (countFp s u a b).unit v =
      if v = u then { s.unit v with cu := { (s.unit v).cu with flags := g, items := i } } else s.unit v := by
  unfold countFp
  obtain ⟨i1, h1⟩ := addItem_unit s u itNan a
  obtain ⟨i2, h2⟩ := addItem_unit (addItem s u itNan a) u itSat b
  obtain ⟨g, h3⟩ := setFlags_unit (addItem (addItem s u itNan a) u itSat b) u (BitVec.ofNat 5 (b2n (a != 0) + 2 * b2n (b != 0)))
  exact ⟨g, i2, fun v => by rw [h3, h2, h1]; split <;> rfl⟩

/-- Counting in a unit's counters changes its counters only. -/
theorem bump_unit (s : State) (u i : Nat) :
    ∃ c, ∀ v, (bump s u i).unit v = if v = u then { s.unit v with ctr := c } else s.unit v := by
  refine ⟨smod 0 (s.unit u).ctr i satInc, fun v => ?_⟩
  rw [bump, unit_modUnit]
  split
  · next h => subst h; rfl
  · rfl

theorem bumps_unit {α : Type} (u i : Nat) : ∀ (l : List α) (s : State),
    ∃ c, ∀ v, (forEach l s fun s _ => bump s u i).unit v = if v = u then { s.unit v with ctr := c } else s.unit v
  | [], s => ⟨(s.unit u).ctr, fun v => by
      show s.unit v = _
      split
      · next h => subst h; rfl
      · rfl⟩
  | _ :: l, s => by
    obtain ⟨c, hc⟩ := bumps_unit u i l (bump s u i)
    obtain ⟨d, hd⟩ := bump_unit s u i
    refine ⟨c, fun v => ?_⟩
    show (forEach l (bump s u i) fun s _ => bump s u i).unit v = _
    rw [hc, hd]
    split <;> rfl

/-- Accounting for the pocket accesses of past cycles changes a unit's accesses, its deferred ones and its counters only. -/
theorem closeBanks_unit (s : State) (u : Nat) (o : List Nat) :
    ∃ b w c, ∀ v, (closeBanks s u o).unit v =
      if v = u then { s.unit v with ctr := c, cu := { (s.unit v).cu with banks := b, waiting := w } } else s.unit v := by
  unfold closeBanks
  extract_lets c past d wait s1
  obtain ⟨k, hk⟩ := bumps_unit u itBank d s1
  refine ⟨c.banks.filter fun a => o.contains a.1, if wait then c.waiting ++ d else c.waiting, k, fun v => ?_⟩
  rw [hk]
  simp only [s1, State.modCu, unit_modUnit]
  split
  · next h => subst h; rfl
  · rfl

/-- Using banks changes a unit's accesses, its deferred ones and its counters only. -/
theorem useBanks_unit (s : State) (u rank : Nat) (bs : List Nat) :
    ∃ b w c, ∀ v, (useBanks s u rank bs).unit v =
      if v = u then { s.unit v with ctr := c, cu := { (s.unit v).cu with banks := b, waiting := w } } else s.unit v := by
  unfold useBanks useBanksAt
  split
  · exact ⟨(s.unit u).cu.banks, (s.unit u).cu.waiting, (s.unit u).ctr, fun v => by
      show s.unit v = _
      split
      · next h => subst h; rfl
      · rfl⟩
  · obtain ⟨b, w, c, h⟩ := closeBanks_unit s u ((s.zone (physZone u)).sched :: (s.unit u).cu.stepped.toList)
    refine ⟨b ++ [((s.unit u).cu.stepped.getD (s.zone (physZone u)).sched, rank, bs)], w, c, fun v => ?_⟩
    rw [State.modCu, unit_modUnit, h]
    split <;> rfl

/-- Noting the cycle in which a CU has drained leaves its parts as they are. -/
@[simp] theorem settle_cu (s : State) (u v : Nat) : ((settle s u).unit v).cu = (s.unit v).cu := by
  unfold settle
  split
  · rw [unit_modUnit]; split <;> rfl
  · rfl

/-- A fault of a unit may stop it; nothing else of a unit changes. -/
theorem unitFault_unit (s : State) (u : Nat) (c : BitVec 8) (d : BitVec 64) :
    ∃ x, ∀ v, (unitFault s u c d).unit v = if v = u then { s.unit v with stopped := x } else s.unit v := by
  unfold unitFault
  have h : ∀ v, (detect s u c d).unit v = s.unit v := fun v => rfl
  split
  · exact ⟨true, fun v => by rw [unit_modUnit, h]⟩
  · exact ⟨(s.unit u).stopped, fun v => by
      show s.unit v = _
      split
      · next h => subst h; rfl
      · rfl⟩

/-- What the check codes show changes a unit's counters, and whether it is stopped, only. -/
theorem pocketEcc_unit (s : State) (u : Nat) (e : Ecc) (rows : List Nat) :
    ∃ c x, ∀ v, (pocketEcc s u e rows).unit v =
      if v = u then { s.unit v with ctr := c, stopped := x } else s.unit v := by
  unfold pocketEcc
  extract_lets s1
  have h1 : ∃ c, ∀ v, s1.unit v = if v = u then { s.unit v with ctr := c } else s.unit v := by
    simp only [s1, bumpBy]
    split
    · exact ⟨(s.unit u).ctr, fun v => by
        split
        · next h => subst h; rfl
        · rfl⟩
    · exact ⟨smod 0 (s.unit u).ctr itCorr fun v => satAdd v (min e.corrected (4 * rows.length)), fun v => by
        rw [unit_modUnit]
        split
        · next h => subst h; rfl
        · rfl⟩
  obtain ⟨c, h1⟩ := h1
  have h2 : ∃ c x, ∀ v, s1.unit v = if v = u then { s.unit v with ctr := c, stopped := x } else s.unit v :=
    ⟨c, (s.unit u).stopped, fun v => by
      rw [h1]
      split
      · next h => subst h; rfl
      · rfl⟩
  split
  · split
    · next i _ _ =>
      obtain ⟨x, h3⟩ := unitFault_unit s1 u cPocket (BitVec.ofNat 64 (nth 0 rows (i / 4)))
      exact ⟨c, x, fun v => by rw [h3, h1]; split <;> rfl⟩
    · exact h2
  · exact h2

theorem nth_map_upto {α : Type} (d : α) (f : Nat → α) (n i : Nat) (h : i < n) : nth d ((upto n).map f) i = f i := by
  simp [nth, upto, List.getD, h]

/-! The pocket. -/

theorem wf_pocketWrite (m : Memory) (a v n : Nat) (h : Memory.wf m = true) : Memory.wf (pocketWrite m a v n) = true := by
  induction n with
  | zero => exact h
  | succ n ih => exact wf_writeByte _ _ _ ih
/-- A byte outside what a pocket write covers keeps its value. -/
theorem readByte_pocketWrite_other (m : Memory) (a v n j : Nat) (h : ∀ i, i < n → j ≠ (a + i) % 65536) :
    readByte (pocketWrite m a v n) j = readByte m j := by
  induction n with
  | zero => rfl
  | succ n ih =>
    show readByte (writeByte (pocketWrite m a v n) ((a + n) % 65536) _) j = _
    rw [readByte_writeByte_other _ _ _ _ (h n (by omega)), ih fun i hi => h i (by omega)]
/-- A byte that a pocket write covers. -/
theorem readByte_pocketWrite (m : Memory) (a v n i : Nat) (hn : n ≤ 65536) (h : i < n) :
    readByte (pocketWrite m a v n) ((a + i) % 65536) = BitVec.ofNat 8 (v / 256 ^ i) := by
  induction n with
  | zero => omega
  | succ n ih =>
    show readByte (writeByte (pocketWrite m a v n) ((a + n) % 65536) _) _ = _
    by_cases e : i = n
    · subst e; simp
    · rw [readByte_writeByte_other _ _ _ _ (by omega), ih (by omega) (by omega)]

end Sys2Proof.Machine
end

