-- ==== Sys2Proof/Laws/Compute.lean ====
section
/-! SUPPORT. What the stages' shared operations do. -/

namespace Sys2Proof.Machine

/-- A stage 3 result to a register. -/
theorem selWrite_reg (s : State) (u : Nat) (w : Word) (t : Nat) (v : Option Vec) (h : uSD w ≠ 21) :
  (selWrite s u w t v).unit u = { s.unit u with cu := { (s.unit u).cu with regs := smod [] (s.unit u).cu.regs (uSD w) fun l => timedPut l t (t + uopLatency 3 (uOp w)) v } } := by
  simp [selWrite, h]

/-- The word that is due has the OP asked for. -/
theorem dueOp_op {s : State} {u st op k : Nat} {w : Word} (h : dueOp s u st op = some (w, k)) : uOp w = op := by
  unfold dueOp at h
  split at h
  · cases h
  · split at h
    · dsimp only at h
      split at h
      · next hc => 
        simp only [Option.some.injEq, Prod.mk.injEq] at h
        simp only [Bool.and_eq_true, beq_iff_eq, decide_eq_true_eq] at hc
        rw [← h.1]; exact hc.2
      · cases h
    · cases h

/-- What a stage 3 operation with valid operands and a register destination does. -/
theorem stage3_completes (op lat : Nat) (hop : op ≠ 0) (f : Word → Nat → Vec → Vec → Vec → Fp) (hl : uopLatency 3 op = lat)
   (hb : 8 ≤ op → ∀ w i a b b' d, f w i a b d = f w i a b' d) (hd : op ≠ 7 → ∀ w i a b d d', f w i a b d = f w i a b d')
   (s : State) (u : Nat) (ecc : Ecc) (w : Word) (k : Nat) (a b d : Vec)
   (h : dueOp s u 3 op = some (w, k)) (hr : stage3Ready (s.unit u).cu w k = true) (hs : uSD w ≠ 21)
   (ha : (selRead (s.unit u).cu (uSA w) (uImm w) k).2 = some a)
   (hB : (selRead (s.unit u).cu (uSB w) (uImm w) k).2 = some b ∨ 8 ≤ op)
   (hD : (selRead (s.unit u).cu (uSD w) (uImm w) k).2 = some d ∨ op ≠ 7) :
   regAtCycle ((stage3 s u op ecc f).unit u).cu (uSD w) (k + lat) = some (mkVec fun i => (f w i a b d).v) ∧ ((stage3 s u op ecc f).unit u).cu.due = (s.unit u).cu.due.erase ⟨3, k⟩ ∧
     sget 0 ((stage3 s u op ecc f).unit u).cu.pcs 3 = (sget 0 (s.unit u).cu.pcs 3 + 1) % 64 := by
  have ho := dueOp_op h
  have hu : uopUsesB op = decide (op < 8) := by
    by_cases h8 : op < 8
    · simp [uopUsesB, h8]; omega
    · simp [uopUsesB, h8]; omega
  obtain ⟨b', hb', hbb⟩ : ∃ b', (if uopUsesB op then (selRead (s.unit u).cu (uSB w) (uImm w) k).2 else some 0) = some b' ∧ ∀ i d, f w i a b' d = f w i a b d := by
    by_cases h8 : 8 ≤ op
    · refine ⟨0, ?_, fun i d => hb h8 _ _ _ _ _ _⟩
      simp [hu]; omega
    · refine ⟨b, ?_, fun _ _ => rfl⟩
      simp [hu, Nat.lt_of_not_le h8, hB.resolve_right h8]
  obtain ⟨d', hd', hdd⟩ : ∃ d', (if op = 7 then (selRead (s.unit u).cu (uSD w) (uImm w) k).2 else some 0) = some d' ∧ ∀ i b, f w i a b d' = f w i a b d := by
    by_cases h7 : op = 7
    · refine ⟨d, ?_, fun _ _ => rfl⟩
      simp [h7, hD.resolve_right (by omega)]
    · exact ⟨0, by simp [h7], fun i b => hd h7 _ _ _ _ _ _⟩
  simp only [stage3, h, hr, ha, hb', hd', Bool.not_true, Bool.false_eq_true, if_false]
  obtain ⟨b1, w1, c1, e0⟩ := useBanks_unit s u 2 ((stage3Rows w).map (· % 16))
  obtain ⟨c2, x2, e1⟩ := pocketEcc_unit (useBanks s u 2 ((stage3Rows w).map (· % 16))) u ecc (stage3Rows w)
  generalize pocketEcc (useBanks s u 2 ((stage3Rows w).map (· % 16))) u ecc (stage3Rows w) = s1 at e1 ⊢
  have e1 := e1 u
  rw [if_pos rfl, e0 u, if_pos rfl] at e1
  obtain ⟨g, it, e2⟩ := countFp_unit s1 u ((upto 32).map fun i => f w i a b' d' |>.nan).sum ((upto 32).map fun i => f w i a b' d' |>.sat).sum
  have e2 := e2 u
  rw [if_pos rfl, e1] at e2
  simp only [retire, settle_cu, unit_modCu_same, selWrite_reg _ _ _ _ _ hs, List.map_map, Function.comp_def, e2]
  refine ⟨?_, ?_, ?_⟩
  · unfold regAtCycle
    rw [sget_smod_same, ho, hl, timedGet_timedPut]
    refine congrArg some (mkVec_congr fun i hi => ?_)
    rw [nth_map_upto _ _ _ _ hi, hdd, hbb]
  · trivial
  · simp

end Sys2Proof.Machine
end

