-- ==== Sys2Proof/Laws/Window.lean ====
section
/-! SUPPORT. A ring write in the tick of a fabric write of the same register (R435): what it goes back to. -/

namespace Sys2Proof.Machine

/-- A fabric write of a register with bits W1C or W1S keeps what a later ring write of the tick goes back to; any other write keeps what was kept. -/
theorem keepUndo_undo (s : State) (p : WinPort) (off : Nat) (t : State) :
    (keepUndo s p off t).undo = if p = .fabric ∧ w1Bits off ≠ 0 then some ⟨off, s.toBody, t.toBody⟩ else t.undo := by
  unfold keepUndo; split <;> rfl
@[simp] theorem keepUndo_toBody (s : State) (p : WinPort) (off : Nat) (t : State) : (keepUndo s p off t).toBody = t.toBody := by
  unfold keepUndo; split <;> rfl
/-- With nothing between it and the fabric's write, a ring write acts first, on the region before that write. -/
theorem writeBefore_goesBack {s : State} {u : Undo} {off : Nat} (env : BootEnv) (v f : Word) (h : s.undo = some u) (hw : w1Bits off ≠ 0)
    (ho : u.off = off) (hb : s.toBody = u.after) :
    writeBefore s env off v f =
      (let t := applyWrite { s with toBody := u.before } .ring env off (writtenValue s off v)
       let r := if writeOpen t off && !ignoredWrite t .fabric off f then applyWrite t .fabric env off (writtenValue t off f) else t
       { r with undo := some ⟨off, t.toBody, r.toBody⟩ }) := by
  simp only [writeBefore, h, if_pos (And.intro hw (And.intro ho hb))]
/-- With nothing kept, or another event in between, it acts on the region as it stands, and the fabric's RW fields stand. -/
theorem writeBefore_over {s : State} {off : Nat} (env : BootEnv) (v f : Word) (h : ∀ u, s.undo = some u → u.off ≠ off ∨ s.toBody ≠ u.after) :
    writeBefore s env off v f = writeOver s env off v f := by
  unfold writeBefore
  split
  · next u hu => exact if_neg fun ⟨_, ho, hb⟩ => (h u hu).elim (· ho) (· hb)
  · rfl
/-- A region of which nothing is kept meets the invariant of what is kept. -/
theorem undoWf_none {s : State} (h : s.undo = none) : UndoWf s := fun _ e => by simp [h] at e

end Sys2Proof.Machine
end

