-- ==== Sys2Proof/Tests/Slice0.lean ====
section
/-! SUPPORT. Tests of single commands, a smoke test of the well-formedness checks, and for every statement with hypotheses a concrete state and operands that meet them. -/

namespace Sys2Proof.Tests

set_option Elab.async false

open Sys2Proof Sys2Proof.Machine

/-! Well-formedness: an ill-formed command for each check. -/

theorem test_wf_size : (Instr.registerWrite .ring 0 3 0).wf = false ∧ (Instr.registerWrite .ring 0 4 0).wf = true := by decide
theorem test_wf_thermal : (Instr.thermalSample [0, 0]).wf = false ∧ (Instr.thermalSample (List.replicate 64 0)).wf = true := by decide +kernel
theorem test_wf_calib : (Instr.trainingEnd 0 ⟨true, 0, 0, 0, [1]⟩).wf = false := by decide
theorem test_wf_eye : (Instr.linkEye 0 (List.replicate 64 1)).wf = false ∧ (Instr.linkEye 0 (List.replicate 1096 1)).wf = true := by decide +kernel

/-! Small states. -/

/-- A region whose zone 0 runs, with one physical unit. -/
def oneUnit (u : Nat) (x : UnitSt) : State :=
  { State.reset with units := [(u, x)], zones := [(0, { ZoneClk.init with running := true })],
                     quarters := [(0, { Quarter.init with inReset := false })] }
/-- A configuration with word w at index i. -/
def cfgAt (i : Nat) (w : Word) : UnitCfg := (w.zeroExtend 16384) <<< (32 * i)
/-- A CU about to execute word w at index 0 of stage st in schedule cycle 4. -/
def dueCu (st : Nat) (w : Word) (f : Cu → Cu) : State :=
  oneUnit 0 { UnitSt.blank with cfg := cfgAt (128 + 64 * st) w, loaded := true,
                                cu := f { Cu.init with cyc := 5, due := [⟨st, 4⟩] } }
/-- A region that is READY, quarters running. -/
def readyState : State :=
  { State.reset with boot := { Boot.init with phase := .ready, step := 10 }, pins := { Pins.init with rstN := true },
                     quarters := (List.range 4).map fun q => (q, { Quarter.init with inReset := false }) }

/-- In a region whose tick has seen no access and no update, no register is touched. -/
theorem writable_of (off : Nat) : Writable readyState off := ⟨rfl, rfl, rfl⟩
/-- A READY region changed by f. -/
abbrev rdy (f : State → State) : State := f readyState
/-- A READY region whose queue 3 is q. -/
def withQ (q : CmdQ) : State := rdy fun s => { s with cmdq := [(3, q)] }
/-- A manifest of the mirrored layout. -/
def manifestM : Manifest := ⟨0, 1, 1, 0, 0, 1, 0, 0, 0, 0, []⟩
/-- A row of a descriptor: TYPE ty, and a value v at byte k. -/
def dRow (ty k v : Nat) : Row := BitVec.ofNat 512 (ty + v * 2 ^ (8 * k))

/-! Machine, window, queues, persistent store, keys. -/

theorem witness_step_front : ({ State.reset with pending := [.stepIssue, .reconcile] } : State).pending = .stepIssue :: [.reconcile] ∧
    State.reset.pending = [] ∧ ({ State.reset with boot := { Boot.init with phase := .unpowered } } : State).boot.phase = .unpowered := by
  decide +kernel
theorem witness_keeps : Memory.wf ({ State.reset with host := [(5, 1)], pending := [.vinRise] } : State).host = true ∧
    Sparse.wf Chanter.init ({ State.reset with chanters := [(2, { Chanter.init with losses := 1 })] } : State).chanters = true := by decide +kernel
theorem witness_memories : MemoriesWf State.reset := ⟨by decide +kernel, fun _ => rfl, fun _ => rfl⟩
theorem witness_refused_access : ((2 : Nat) ≠ 4 ∨ (0 : BitVec 24).toNat % 4 ≠ 0) ∧ ((4 : Nat) ≠ 4 ∨ (0x41 : BitVec 24).toNat % 4 ≠ 0) := by decide
theorem witness_before_ready : State.reset.boot.phase = .held ∧ earlyWrite 0x10000 = false ∧ earlyWrite 0x334 = false ∧ earlyWrite 0x330 = true ∧
    ({ State.reset with boot := { Boot.init with phase := .bringup } } : State).boot.phase ≠ .ready := by decide +kernel
theorem witness_ready : readyState.boot.phase = .ready ∧ readyState.fab.op = none ∧ readyState.evt.overflow = 0 := by decide +kernel
theorem witness_fabctl : (0x102 : Word).getLsbD (if (0x102 : Word).getLsbD 8 then 1 else 0) = true ∧
    (0x101 : Word).getLsbD (if (0x101 : Word).getLsbD 8 then 1 else 0) = false := by decide
/-- An endpoint entry of router 0, key 5, version 1, and an operation on it. -/
def tblS (shadow : BitVec 2) (entry : BitVec 64) (bits : BitVec 3) : State :=
  rdy fun s => { s with fab := { s.fab with shadow := shadow, ep := [(1 * 2 ^ 24 + 5, entry)],
                                            op := some ⟨0, 0, b2n true, 5, 0x8000000000000000, bits⟩ } }
theorem witness_tbl_live : bit (tblS 1 0 2).fab.shadow 1 = false ∧ (tblS 1 0 2).fab.op.isSome = true := by decide +kernel
theorem witness_tbl_valid : let s := tblS 2 0x8000000000000000 1
    s.fab.op = some ⟨0, 0, b2n true, 5, 0x8000000000000000, 1⟩ ∧ bit s.fab.shadow (b2n true) = true ∧
    eValid (epEntry s 0 true 5) = true ∧ eValid 0x8000000000000000 = true ∧ epRefused 0 0x8000000000000000 = false := by decide +kernel
theorem witness_tbl_invalid : eValid (epEntry (tblS 2 1 2) 0 true 5) = false := by decide +kernel
theorem witness_q_disabled : queueState ((withQ CmdQ.init).queue (3 : Fin 64)) = 0 ∧
    ((withQ CmdQ.init).queue (3 : Fin 64)).dbTail = ((withQ CmdQ.init).queue (3 : Fin 64)).fetchHead := by decide +kernel
theorem witness_q_resetting : queueState ((withQ { CmdQ.init with resetting := true }).queue (3 : Fin 64)) = 3 := by decide +kernel
theorem witness_q_running : queueState ((withQ { CmdQ.init with enable := true }).queue (3 : Fin 64)) = 1 ∧
    sqSize ((withQ { CmdQ.init with enable := true }).queue (3 : Fin 64)) = 64 ∧ (64 : Nat) ≤ (64 : Word).toNat % 2 ^ 16 ∧
    (63 : Word).toNat % 2 ^ 16 < 64 ∧ ((withQ { CmdQ.init with enable := true }).queue (3 : Fin 64)).held = [] := by decide +kernel
theorem witness_q_reset : let s := withQ { CmdQ.init with enable := true, dbTail := 5 }
    (s.queue (3 : Fin 64)).resetting = false ∧ (s.queue (3 : Fin 64)).run = none ∧ s.svc = [] := by decide +kernel
theorem witness_evt_head : evtSize readyState.evt = 64 ∧ 64 ≤ (64 : Word).toNat % 2 ^ 16 ∧ (63 : Word).toNat % 2 ^ 16 < 64 := by decide +kernel
/-- A READY region whose store holds p. -/
def withPst (f : Pst → Pst) : State := rdy fun s => { s with pst := f s.pst }
theorem witness_wp_free : let s := withPst fun p => { p with writes := [(0x44, 99999)] }
    sget 0 s.pst.writes 0x44 < 100000 ∧ pstBusy s 0x44 = false := by decide +kernel
theorem witness_wp_busy : let s := withPst fun p => { p with writes := [(0x44, 1)], busy := [(0x44, 7)] }
    sget 0 s.pst.writes 0x44 < 100000 ∧ pstBusy s 0x44 = true := by decide +kernel
theorem witness_wp_worn : let s := withPst fun p => { p with writes := [(0x44, 100000)] }
    100000 ≤ sget 0 s.pst.writes 0x44 ∧ pstBusy s 0x44 = false := by decide +kernel
theorem witness_ack : let s := withPst fun p => { p with busy := [(0x44, 7)], held := [(0x44, 9)] }
    s.pst.busy = [((0x44 : Fin 4096).val, 7)] ∧ (0x44 : Fin 4096).val ≥ 0x44 ∧ s.pst.held = ((0x44 : Fin 4096).val, 9) :: [] ∧
    (withPst fun p => { p with busy := [(0x3F, 7)] }).pst.busy = [((0x3F : Fin 4096).val, 7)] := by decide +kernel
theorem witness_writes : Writable readyState 0x21C ∧ Writable readyState (0x40028 + 0x40 * (63 : Fin 64).val) ∧ Writable readyState (0x30040 + 4 * (7 : Fin 8).val) ∧
    Writable readyState 0x60018 ∧ ((0x200, 0xFFFFFFC0) : Nat × Word) ∈ plainRegs ∧ ((0x30040, 4, 8, 0xFFFF) : Nat × Nat × Nat × Word) ∈ plainBanks ∧
    Writable readyState 0x200 ∧ Writable readyState (0x30040 + 4 * 7) :=
  ⟨writable_of _, writable_of _, writable_of _, writable_of _, by decide, by decide, writable_of _, writable_of _⟩
theorem witness_ring_write : wpWord (0x4C : BitVec 24).toNat = some 0x44 ∧ pstBusy readyState 0x44 = false ∧ wpWord (0x21C : BitVec 24).toNat = none ∧
    pstBusy { readyState with pst := { readyState.pst with busy := [(0x44, 7)] } } 0x44 = true := by decide +kernel
theorem witness_empty_blocks : (0x70000 : BitVec 24).toNat / 0x10000 ∈ [0x7, 0xE, 0xF] ∧ 0x1C0000 ≤ (0x1C0000 : BitVec 24).toNat ∧
    (0x1C0000 : BitVec 24).toNat < 0x400000 ∧ 0x440000 ≤ (0xFFFFFC : BitVec 24).toNat ∧ (0xFFFFFC : BitVec 24).toNat % 4 = 0 := by decide
/-- A region that the fabric port has written 5 to REGION_EVT_MSI_DATA in, in this tick. -/
def wroteS : State := noteWrite readyState .fabric 0x21C 5
theorem witness_two_writes : wroteS.boot.phase = .ready ∧ wroteS.raisedAt 0x21C = 0 ∧ sget none wroteS.wrote (2 * 0x21C + 1) = some (5 : Word) := by decide +kernel
/-- A fabric write of the tick stands against the ring's. -/
theorem test_fabric_stands : (match exec (.registerWrite .ring 0x21C 4 9) wroteS with | .next t => t.evt.msiData | _ => 0) =
    (match exec (.registerWrite .ring 0x21C 4 5) readyState with | .next t => t.evt.msiData | _ => 0) := by decide +kernel
/-- A bit that hardware set in the tick is not cleared by a write of 1. -/
theorem test_w1c_tick : (match exec (.registerWrite .ring 0xB0000 4 0xFFFFFFFF) (setSummary { readyState with flt := { readyState.flt with summary := 2 } } 5) with
    | .next t => t.flt.summary | _ => 0) = 0x20 := by decide +kernel
theorem witness_early : ({ State.reset with boot := { Boot.init with phase := .bringup } } : State).boot.phase = .bringup ∧
    Untouched State.reset 0x10028 ∧ Untouched State.reset 0x58 ∧ Untouched State.reset 0x300 := ⟨by decide, ⟨rfl, rfl⟩, ⟨rfl, rfl⟩, ⟨rfl, rfl⟩⟩
theorem witness_controls : Writable readyState 0x30008 ∧ Writable readyState 0x30000 ∧ Writable readyState 0x60000 ∧ Writable readyState 0x60020 :=
  ⟨writable_of _, writable_of _, writable_of _, writable_of _⟩
theorem witness_queue_writes : Writable (withQ CmdQ.init) (0x40010 + 0x40 * 3) ∧ Writable (withQ CmdQ.init) (0x40014 + 0x40 * 3) ∧
    Writable (withQ { CmdQ.init with enable := true }) (0x400000 + 0x1000 * 3) ∧
    Writable (withQ { CmdQ.init with enable := true }) (0x400004 + 0x1000 * 3) ∧ Writable readyState 0x20C :=
  ⟨⟨rfl, rfl, rfl⟩, ⟨rfl, rfl, rfl⟩, ⟨rfl, rfl, rfl⟩, ⟨rfl, rfl, rfl⟩, writable_of _⟩
theorem witness_wp_writable (f : Pst → Pst) : Writable (withPst f) 0x4C := ⟨rfl, rfl, rfl⟩
theorem witness_reads : readyState.boot.phase ≠ .held ∧ readyState.boot.phase ≠ .unpowered ∧ readyState.rcSeen.contains 0x60030 = false ∧
    readyState.rcSeen.contains (0xA0014 + 0x40 * (3 : Fin 4).val) = false ∧ readyState.caughtAt (0xA0018 + 0x40 * (3 : Fin 4).val) = none ∧
    readyState.rcSeen.contains (0x100804 + 0x4000 * (0 : Fin 48).val + 2 ^ 24 * ((readyState.zpage (0 : Fin 48)).arithUnit.toNat * 64 + 37)) = false := by
  decide +kernel
theorem witness_read_twice : ({ readyState with rcSeen := [0x60030] } : State).rcSeen.contains 0x60030 = true := by decide
/-- The second read of the tick answers what the tick found and clears nothing. -/
theorem test_read_twice : (winRead { readyState with rcSeen := [0x60030], fab := { readyState.fab with unroute := 3 } } .ring 0x60030 4).2.1 = 0 := by
  decide +kernel
theorem witness_arith : (readyState.quarter ((0 : Fin 48).val / 12)).inReset = false ∧ (readyState.zpage (0 : Fin 48)).arithUnit.toNat < 204 ∧
    isMu (204 * (0 : Fin 48).val + (readyState.zpage (0 : Fin 48)).arithUnit.toNat) = false ∧
    ({ ZonePage.init with arithItem := 37 } : ZonePage).arithItem = 37 ∧ (readyState.zpage (0 : Fin 48)).arithItem ≠ 37 := by decide +kernel
theorem witness_key_used : bit (rdy fun s => { s with fw := { s.fw with enabled := 1 } }).fw.enabled (0 : Fin 4) = true ∧
    bit (rdy fun s => { s with fw := { s.fw with revoked := 8 } }).fw.revoked (3 : Fin 4) = true := by decide +kernel
theorem witness_key_new : bit readyState.fw.enabled (0 : Fin 4) = false ∧ bit readyState.fw.revoked (0 : Fin 4) = false ∧
    fld (sget 0 readyState.fw.key 12) 8 24 = 0 ∧ readyState.pst.writes = [] := by decide +kernel
theorem witness_fw : readyState.fw.update ≠ 1 ∧ (fwSlot readyState.fw (!readyState.fw.active)).updates < 1000 ∧
    (rdy fun s => { s with fw := { s.fw with update := 1 } }).fw.update = 1 := by decide +kernel
theorem witness_fw_worn : let s := rdy fun s => { s with fw := { s.fw with active := false, slotB := { s.fw.slotB with updates := 1000 } } }
    s.fw.update ≠ 1 ∧ 1000 ≤ (fwSlot s.fw (!s.fw.active)).updates := by decide +kernel
/-- The base point of P-384 in the key registers (FIPS 186-5; SEC 1 for its compressed form). -/
def keyFw (f : Fw) : Fw :=
  { f with key := (List.range 13).map fun i => (i, BitVec.ofNat 32
      (beNat ((3 :: beBytes p384g.1 48) ++ [0, 0, 0]).reverse / 2 ^ (32 * i))) }
theorem witness_key_point : let f := keyFw readyState.fw
    onCurve (keyRegs f.key) = true ∧ onCurve (keyRegs readyState.fw.key) = false ∧ fld (sget 0 f.key 12) 8 24 = 0 ∧ bit f.enabled (3 : Fin 4) = false ∧
    bit f.revoked (3 : Fin 4) = false := by decide +kernel
theorem witness_key_writable : Writable readyState 0x340 ∧ Writable readyState 0x60 := ⟨writable_of _, writable_of _⟩
/-- SHA-384 of the message abc (FIPS 180-4's example). -/
theorem test_sha384 : sha384 [0x61, 0x62, 0x63] = BitVec.ofNat 384 (beNat (beBytes
    0xcb00753f45a35e8bb5a03d699ac65007272c32ab0eded1631a8b605a43ff5bed8086072ba1e7cc2358baeca134c825a7 48).reverse) := by decide +kernel
theorem witness_ignored : ignoredWrite readyState .fabric 0x340 1 = true ∧ wpWord 0x340 = none ∧ fabricFirst readyState .fabric 0x340 = none ∧
    ignoredWrite readyState .ring 0x21C 5 = false := by decide +kernel
theorem witness_trim_ack (b : Bool) : let s := rdy fun s => { s with pst := { s.pst with busy := [(0x40, 7)] }, trims := [(0, { Trim.init with lowering := b })] }
    s.pst.busy = [(0x40 + (0 : Fin 4).val, 7)] ∧ s.pst.held = [] ∧ (s.trim (0 : Fin 4)).lowering = b ∧ trimFree s = true := by
  cases b <;> decide +kernel
theorem witness_trim_moving : trimFree (rdy fun s => { s with clk := { s.clk with moving := true } }) = false := by decide +kernel
/-- A READY region with a key operation in progress on slot 1. -/
def keyS (install : Bool) (pos : Nat) (w : Nat) : State :=
  rdy fun s => { s with fw := { s.fw with install := install, instSlot := 1, instPos := pos, revoke := !install, revoking := !install, revSlot := 1 },
                        pst := { s.pst with busy := [(w, 7)] } }
theorem witness_key_word : ∀ i : Fin 13, let s := keyS true i.val (0x48 + 13 + i.val)
    s.fw.install = true ∧ s.fw.instPos = i.val ∧ s.pst.busy = [(0x48 + 13 * s.fw.instSlot.toNat + i.val, 7)] ∧ s.pst.held = [] ∧ s.fw.revoke = false ∧
    bit s.fw.revoked s.fw.instSlot.toNat = false ∧ s.pst.writes = [] := by decide +kernel
theorem witness_key_last : (keyS true 14 0x7C).fw.instPos = 14 ∧ (keyS true 14 0x7C).fw.revoking = false ∧ (keyS true 14 0x7C).pst.busy = [(0x7C, 7)] ∧
    (keyS false 0 0x7C).fw.install = false ∧ (keyS false 0 0x7C).fw.revoke = true ∧ (keyS false 0 0x7C).fw.revoking = true ∧
    pstBusy (keyS false 0 0x7C) 0x7C = true := by decide +kernel
/-- The thirteenth word of a key done, the slot is still not enabled; the word of ENABLED done, it is. -/
theorem test_key_steps : (match exec (.persistAck 0x61) (keyS true 12 0x61) with | .next t => (t.fw.enabled, t.fw.install) | _ => (15, false)) = (0, true) ∧
    (match exec (.persistAck 0x7C) (keyS true 14 0x7C) with | .next t => (t.fw.enabled, t.fw.install, t.fw.result) | _ => (15, true, 0)) = (2, false, 1) := by
  decide +kernel
theorem witness_image : let s := rdy fun s => { s with fw := { s.fw with update := 1, got := fwBytes } }
    s.fw.update = 1 ∧ s.fw.got = fwBytes ∧ (rdy fun s => { s with fw := { s.fw with update := 1 } }).fw.got ≠ fwBytes := by decide +kernel
/-- A ring write of this tick may go back to the region as it stands. -/
theorem witness_undo : UndoWf readyState ∧
    UndoWf { readyState with undo := some ⟨0xB0000, readyState.toBody, readyState.toBody⟩ } :=
  ⟨fun _ h => by simp [readyState, State.reset] at h,
   fun _ h => by cases h; exact ⟨rfl, ⟨by decide +kernel, fun _ => rfl, fun _ => rfl⟩, by decide +kernel⟩⟩
theorem witness_undo_elsewhere : readyState.undo = none ∧
    ∀ u, ({ readyState with undo := some ⟨0x60020, readyState.toBody, readyState.toBody⟩ } : State).undo = some u → u.off ≠ 0xB0000 :=
  ⟨rfl, fun _ h => by cases h; decide⟩
/-- The region after a fabric READ of a table. -/
def readS : State := winWrite readyState .fabric 0x60020 2
theorem readS_of : exec (.tblRead .fabric 0) readyState = .next readS := rfl
/-- A ring WRITE in the tick of a fabric READ of a table goes first, so that it is its operation that runs. -/
theorem test_table_ring_first : ∃ u, exec (.tblWrite .ring 0) readS = .next u ∧ u.fab.op.map TblOp.bits = some 1 := by
  refine ⟨_, rfl, ?_⟩
  have e : winWrite readS .ring 0x60020 (0 ||| 1) = noteWrite (writeBefore readS .good 0x60020 1 2) .ring 0x60020 1 := rfl
  show (winWrite readS .ring 0x60020 (0 ||| 1)).fab.op.map TblOp.bits = some 1
  rw [e, writeBefore_goesBack (u := ⟨0x60020, readyState.toBody, readS.toBody⟩) .good 1 2 rfl (by decide) rfl rfl]
  decide +kernel
/-- Endpoint entries of router 0, version 1, in the set of key 5, and an operation on table tab. -/
def setS (keys : List Nat) (tab k : Nat) (d : BitVec 64) (b : BitVec 3) : State :=
  rdy fun s => { s with fab := { s.fab with shadow := 2, ep := keys.map fun k => (1 * 2 ^ 24 + k, 0x8000000000000000),
                                            rope := [(1 * 4096 + 7, 0x8000000000000000)], op := some ⟨0, tab, b2n true, k, d, b⟩ } }
theorem witness_tbl_new : let s := setS [4100, 8199, 12294] 0 5 0x8000000000000000 1
    bit s.fab.shadow (b2n true) = true ∧ eValid (epEntry s 0 true 5) = false ∧ setHeld s 0 true 5 = 3 ∧ epRefused 0 0x8000000000000000 = false := by
  decide +kernel
theorem witness_tbl_full : let s := setS [4100, 8199, 12294, 16385] 0 5 0x8000000000000000 1
    eValid (epEntry s 0 true 5) = false ∧ setHeld s 0 true 5 = 4 ∧ [4100, 8199, 12294, 16385].Nodup ∧
    ∀ x ∈ [4100, 8199, 12294, 16385], x < 2 ^ 24 ∧ epSet 0 x = epSet 0 5 ∧ eValid (epEntry s 0 true x) = true := by decide +kernel
theorem witness_tbl_refused : eValid 0 = false ∧ epRefused 0 0x8000000000000001 = true ∧ (16777215 : Nat) = 2 ^ 24 - 1 ∧
    ((⟨52, 0, 1, 5, 0, 1⟩ : TblOp).router > 51 ∧ (⟨48, 2, 1, 5, 0, 1⟩ : TblOp).router > 47 ∧ (⟨0, 1, 1, 4096, 0, 1⟩ : TblOp).key > 4095) ∧
    (3 : BitVec 3) ∉ [1, 2, 4] ∧ ropeRefused 0 0x8000000000000001 = true := by decide +kernel
theorem witness_tbl_rope : let s (k : Nat) (b : BitVec 3) := setS [] 1 k 0x8000000000000000 b
    (s 7 2).fab.op = some ⟨0, 1, b2n true, 7, 0x8000000000000000, 2⟩ ∧ eValid (ropeEntry (s 7 2) 0 true 7) = true ∧
    eValid (ropeEntry (s 4095 4) 0 true 4095) = false ∧ ropeRefused 0 0x8000000000000000 = false ∧
    (s 7 2).wroteTo 0x60018 = false ∧ (s 7 2).wroteTo 0x6001C = false := by decide +kernel
theorem witness_tbl_list : (setS [] 2 4095 11 1).fab.op = some ⟨0, 2, b2n true, 4095, 11, 1⟩ ∧ fld (11 : BitVec 64) 8 56 = 0 ∧
    fld (11 : BitVec 64) 0 4 ≤ 11 ∧ 11 < fld (12 : BitVec 64) 0 4 := by decide +kernel
theorem witness_q_enable_resetting : Writable (withQ { CmdQ.init with resetting := true }) (0x40014 + 0x40 * (3 : Fin 64).val) ∧
    ((withQ { CmdQ.init with resetting := true }).queue (3 : Fin 64)).resetting = true := ⟨⟨rfl, rfl, rfl⟩, rfl⟩
theorem witness_wp_regs : WpReg 0x4C 0x044 0x00FFFFFF ∧ WpReg 0x50 0x045 0xFFFFFFFF ∧ WpReg (0xC0000 + 4 * 0x100) 0x100 0xFFFFFFFF ∧
    WpReg (0xC0000 + 4 * 0x10F) 0x10F 0xFFFFFFFF ∧ WpReg (0xC0000 + 4 * 0x800) 0x800 0xFFFFFFFF ∧ WpReg (0xC0000 + 4 * 0xFFF) 0xFFF 0xFFFFFFFF := by
  simp [WpReg]
theorem witness_wp_words : Writable readyState 0xC0400 ∧ Writable readyState 0xC3FFC ∧ sget 0 readyState.pst.writes 0xFFF < 100000 ∧
    pstBusy readyState 0xFFF = false ∧ wpWord 0xC0400 = some 0x100 ∧ wpWord 0xC043C = some 0x10F ∧ wpWord 0xC2000 = some 0x800 ∧ wpWord 0xC3FFC = some 0xFFF :=
  ⟨writable_of _, writable_of _, by decide, by decide, by decide, by decide, by decide, by decide⟩
/-! Compute units. -/

/-- The word of Table 3-6 with OP op, SA 1, SB 2, SD d. -/
def w3 (op d : Nat) : Word := BitVec.ofNat 32 (op * 2 ^ 26 + 2 ^ 21 + 2 * 2 ^ 16 + d * 2 ^ 11)
/-- A word with OP op only. -/
def wOp (op : Nat) : Word := BitVec.ofNat 32 (op * 2 ^ 26)
/-- A CU with a vector in stage 3's OUT, or in stage 4's result. -/
def withReg (r : Nat) (v : Vec) (c : Cu) : Cu := { c with regs := [(r, [(3, some v)])] }

theorem witness_stage3 : ∀ op ∈ [1, 2, 3, 4, 5, 6, 7, 8, 9, 10, 11],
    dueOp (dueCu 3 (w3 op 3) id) (0 : Fin 9792) 3 op = some (w3 op 3, 4) ∧
    stage3Ready ((dueCu 3 (w3 op 3) id).unit 0).cu (w3 op 3) 4 = true ∧ uSD (w3 op 3) ≠ 21 ∧
    (selRead ((dueCu 3 (w3 op 3) id).unit 0).cu (uSA (w3 op 3)) (uImm (w3 op 3)) 4).2 = some 0 ∧
    (selRead ((dueCu 3 (w3 op 3) id).unit 0).cu (uSB (w3 op 3)) (uImm (w3 op 3)) 4).2 = some 0 ∧
    (selRead ((dueCu 3 (w3 op 3) id).unit 0).cu (uSD (w3 op 3)) (uImm (w3 op 3)) 4).2 = some 0 := by decide +kernel
theorem witness_pocket : dueOp (dueCu 3 (w3 8 21) id) (0 : Fin 9792) 3 8 = some (w3 8 21, 4) ∧
    stage3Ready ((dueCu 3 (w3 8 21) id).unit 0).cu (w3 8 21) 4 = true ∧ uSD (w3 8 21) = 21 ∧
    (selRead ((dueCu 3 (w3 8 21) id).unit 0).cu (uSA (w3 8 21)) (uImm (w3 8 21)) 4).2 = some 0 := by decide +kernel
/-- FADD of IN, not valid, and V2. -/
def wIn : Word := BitVec.ofNat 32 (2 ^ 26 + 20 * 2 ^ 21 + 2 * 2 ^ 16 + 3 * 2 ^ 11)
theorem witness_invalid_stage3 : dueOp (dueCu 3 wIn id) (0 : Fin 9792) 3 1 = some (wIn, 4) ∧
    stage3Ready ((dueCu 3 wIn id).unit 0).cu wIn 4 = true ∧ uSA wIn ≠ 21 ∧ uSB wIn ≠ 21 ∧ uSD wIn ≠ 21 ∧
    (selRead ((dueCu 3 wIn id).unit 0).cu (uSA wIn) (uImm wIn) 4).2 = none := by decide +kernel
theorem witness_invalid_stage4 : dueOp (dueCu 4 (wOp 1) id) (0 : Fin 9792) 4 1 = some (wOp 1, 4) ∧
    regAtCycle ((dueCu 4 (wOp 1) id).unit 0).cu 22 4 = none := by decide +kernel
theorem witness_invalid_stage5 : dueOp (dueCu 5 (wOp 2) id) (0 : Fin 9792) 5 2 = some (wOp 2, 4) ∧
    regAtCycle ((dueCu 5 (wOp 2) id).unit 0).cu regOut4 4 = none := by decide +kernel
theorem witness_invalid_dot : dueOp (dueCu 1 (wOp 1) id) (0 : Fin 9792) 1 1 = some (wOp 1, 4) ∧
    timedGet none ((dueCu 1 (wOp 1) id).unit 0).cu.wOp 4 = none := by decide +kernel
theorem witness_stage4 : ∀ op ∈ [1, 2, 3, 4, 5, 6, 7, 8, 9, 10, 11, 16],
    dueOp (dueCu 4 (wOp op) (withReg 22 7)) (0 : Fin 9792) 4 op = some (wOp op, 4) ∧
    regAtCycle ((dueCu 4 (wOp op) (withReg 22 7)).unit 0).cu 22 4 = some 7 := by decide +kernel
theorem witness_stage5 : ∀ op ∈ [1, 2, 3],
    dueOp (dueCu 5 (wOp op) (withReg 32 7)) (0 : Fin 9792) 5 op = some (wOp op, 4) ∧
    regAtCycle ((dueCu 5 (wOp op) (withReg 32 7)).unit 0).cu regOut4 4 = some 7 ∧
    cuOfmt ((dueCu 5 (wOp op) (withReg 32 7)).unit 0).cfg < 9 := by decide +kernel
theorem witness_nop_wrap : ∀ st : Fin 6, dueOp (dueCu st (wOp 0) id) (0 : Fin 9792) st 0 = some (wOp 0, 4) ∧
    dueOp (dueCu st (wOp 0x3F) id) (0 : Fin 9792) st 0x3F = some (wOp 0x3F, 4) := by decide +kernel
theorem witness_frame : ∃ t, exec (.nop 0 3) (dueCu 3 (w3 1 3) id) = .next t := ⟨_, (rfl : exec (.nop 0 3) (dueCu 3 (w3 1 3) id) = .next _)⟩

/-- A ring binding of 1,000 tokens at row 0, port 0, NEED 1, as binding 0. -/
def ringW : BitVec 64 := BitVec.ofNat 64 (2 ^ 63 + 1000 * 2 ^ 38 + 1)
/-- A CU with an input ring that holds 900 tokens, about to execute w in stage 0. -/
def ringState (w h1 : Word) : State :=
  oneUnit 0 { UnitSt.blank with
    cfg := cfgAt 128 w ||| cfgAt 1 h1 ||| ((ringW.zeroExtend 16384) <<< 512), loaded := true,
    cu := { Cu.init with cyc := 5, due := [⟨0, 4⟩], rings := [(0, ⟨900, 0, 900, 0⟩)] } }
theorem witness_ldv : dueOp (ringState (wOp 2) 0) (0 : Fin 9792) 0 2 = some (wOp 2, 4) ∧
    ringBind ((ringState (wOp 2) 0).unit 0) (uWRing (wOp 2)) = some ringW ∧ ldvReady ((ringState (wOp 2) 0).unit 0) (wOp 2) = true := by
  decide +kernel
theorem witness_ldb_none : dueOp (ringState 0x04000000 0x00080000) (0 : Fin 9792) 0 1 = some (0x04000000, 4) ∧
    ldbReady ((ringState 0x04000000 0x00080000).unit 0) 0x04000000 = true ∧ uLdbW 0x04000000 = false ∧ uLdbA 0x04000000 = false := by
  decide +kernel
theorem witness_ldb_acts : dueOp (ringState 0x05000000 0x00080000) (0 : Fin 9792) 0 1 = some (0x05000000, 4) ∧
    ldbReady ((ringState 0x05000000 0x00080000).unit 0) 0x05000000 = true ∧ uLdbA 0x05000000 = true := by decide +kernel
theorem witness_ldb_weights : dueOp (ringState (0x06000000) 0) (0 : Fin 9792) 0 1 = some (0x06000000, 4) ∧
    ldbReady ((ringState (0x06000000) 0).unit 0) (0x06000000) = true ∧
    uLdbW 0x06000000 = true := by decide +kernel
/-- A CU with valid operands for DOT, terms for ACC, and a closing slot. -/
def accCu (u : Nat) (c : Cu) : Cu :=
  { c with wOp := [(3, some [])], aOp := [(3, some [])], terms := [(3, some ⟨[], u⟩)], slots := [(0, { Slot.init with closing := [(1, 2, 7)] })] }
theorem witness_dot : dueOp (dueCu 1 (wOp 1) (accCu 0)) (0 : Fin 9792) 1 1 = some (wOp 1, 4) ∧
    timedGet none ((dueCu 1 (wOp 1) (accCu 0)).unit 0).cu.wOp 4 = some [] ∧
    timedGet none ((dueCu 1 (wOp 1) (accCu 0)).unit 0).cu.aOp 4 = some [] ∧
    (let d := dotLane (cuMode ((dueCu 1 (wOp 1) (accCu 0)).unit 0).cfg) 0 Term.zero ⟨[], 1, 0⟩ ⟨[], 1, 0⟩
     d.1.terms ≠ [] ∧ residuesOk d.1.terms = true) := by decide +kernel
theorem witness_acc_partial : dueOp (dueCu 2 (wOp 1) (accCu 0)) (0 : Fin 9792) 2 1 = some (wOp 1, 4) ∧
    timedGet none ((dueCu 2 (wOp 1) (accCu 0)).unit 0).cu.terms 4 = some ⟨[], 0⟩ ∧
    uSlot (wOp 1) < cuSlots ((dueCu 2 (wOp 1) (accCu 0)).unit 0).cfg ∧
    (sget .init ((dueCu 2 (wOp 1) (accCu 0)).unit 0).cu.slots (uSlot (wOp 1))).units + 0 < modeClose (cuMode ((dueCu 2 (wOp 1) (accCu 0)).unit 0).cfg) := by
  decide +kernel
theorem witness_acc_close : dueOp (dueCu 2 (wOp 1) (accCu 128)) (0 : Fin 9792) 2 1 = some (wOp 1, 4) ∧
    timedGet none ((dueCu 2 (wOp 1) (accCu 128)).unit 0).cu.terms 4 = some ⟨[], 128⟩ ∧
    uSlot (wOp 1) < cuSlots ((dueCu 2 (wOp 1) (accCu 128)).unit 0).cfg ∧
    modeClose (cuMode ((dueCu 2 (wOp 1) (accCu 128)).unit 0).cfg) ≤ (sget .init ((dueCu 2 (wOp 1) (accCu 128)).unit 0).cu.slots (uSlot (wOp 1))).units + 128 ∧
    cuGroups ((dueCu 2 (wOp 1) (accCu 128)).unit 0).cfg ≤ (sget .init ((dueCu 2 (wOp 1) (accCu 128)).unit 0).cu.slots (uSlot (wOp 1))).groups + 1 := by
  decide +kernel
theorem witness_acc_none : dueOp (dueCu 2 (wOp 1) id) (0 : Fin 9792) 2 1 = some (wOp 1, 4) ∧
    timedGet none ((dueCu 2 (wOp 1) id).unit 0).cu.terms 4 = none ∧
    cuSlots ((dueCu 2 (BitVec.ofNat 32 (2 ^ 26 + 1)) id).unit 0).cfg ≤ uSlot (BitVec.ofNat 32 (2 ^ 26 + 1)) := by decide +kernel
theorem witness_slot_ready : (sget .init ((dueCu 2 (wOp 1) (accCu 0)).unit 0).cu.slots 0).closing = (1, 2, 7) :: [] ∧
    2 < ((dueCu 2 (wOp 1) (accCu 0)).unit 0).cu.cyc ∧ cuRuns (dueCu 2 (wOp 1) (accCu 0)) 0 = true := by decide +kernel

/-- A loaded CU with schedule word w at entry 0. -/
def schedCu (w : Word) (f : UnitSt → UnitSt) : State :=
  oneUnit 0 (f { UnitSt.blank with cfg := cfgAt 48 w, loaded := true })
theorem witness_fire : (schedCu 0 id).logical (0 : Fin 9792) = some 0 ∧ unitRuns (schedCu 0 id) 0 = true ∧ canFire (schedCu 0 id) 0 0 = true := by
  decide +kernel
theorem witness_loop : cuRuns (schedCu 0x40000080 fun x => { x with firing := true }) 0 = true ∧
    schKind (schedWord ((schedCu 0x40000080 fun x => { x with firing := true }).unit 0).cfg 0) = 1 := by decide +kernel
theorem witness_end : cuRuns (schedCu 0x80000000 fun x => { x with firing := true }) 0 = true ∧
    schKind (schedWord ((schedCu 0x80000000 fun x => { x with firing := true }).unit 0).cfg 0) = 2 := by decide +kernel
/-- The schedule cycle of a STEP that does nothing but advance stage 3. -/
def stepS : State := schedCu 0x00000040 fun x => { x with firing := true }
/-- The conditions of CycleFree, as what can be evaluated. -/
theorem cycleFree_of (s : State) (u : Fin 9792) (lu : Nat)
    (h : (s.logical u = some lu ∧ cuRuns s u = true ∧ (s.unit u).loaded = true ∧ slotDue (s.unit u) = false ∧ cycleOpen s u = true) ∧
      ((closeBanks s u [(s.zone (physZone u)).sched]).unit u).cu.waiting = [] ∧ cycleFree (s.unit u) = true) : CycleFree s u lu :=
  ⟨h.1.1, h.1.2.1, h.1.2.2.1, h.1.2.2.2.1, h.1.2.2.2.2, h.2.1, h.2.2⟩
theorem witness_step : CycleFree stepS 0 0 ∧ (stepS.unit 0).firing = true ∧ (stepS.unit 0).cu.pushes = [] ∧
    (let w := schedWord (stepS.unit 0).cfg (stepS.unit 0).cu.entry; schKind w = 0 ∧ schPopA w = none ∧ schPopB w = none) ∧
    schPush (schedWord (stepS.unit 0).cfg 0) = none ∧ schAdv (schedWord (stepS.unit 0).cfg 0) 3 = true :=
  ⟨cycleFree_of _ _ _ (by decide +kernel), by decide +kernel, by decide +kernel, by decide +kernel, by decide +kernel, by decide +kernel⟩
theorem witness_step_push : schPush (schedWord ((schedCu 0x00000A40 id).unit 0).cfg 0) = some 2 := by decide +kernel
/-- The pocket holds a result of stage 3 that is due. -/
def pkS : State := schedCu 0x00000040 fun x => { x with cu := { x.cu with cyc := 5, pk := [(4, 65500, 7)] } }
theorem witness_pk : CycleFree pkS 0 0 ∧ (pkS.unit 0).cu.pushes = [] ∧ (pkS.unit 0).firing = false ∧ (pkS.unit 0).cu.pk = [(4, 65500, 7)] ∧
    4 ≤ (pkS.unit 0).cu.cyc := ⟨cycleFree_of _ _ _ (by decide +kernel), by decide +kernel, by decide +kernel, by decide +kernel, by decide +kernel⟩
def stallS : State := schedCu 0 fun x => { x with cu := { x.cu with waiting := [(3, [1])] } }
theorem witness_stall : stallS.logical (0 : Fin 9792) = some 0 ∧ cuRuns stallS 0 = true ∧ (stallS.unit 0).loaded = true ∧
    slotDue (stallS.unit 0) = false ∧ cycleOpen stallS 0 = true ∧
    ((closeBanks stallS 0 [(stallS.zone (physZone 0)).sched]).unit 0).cu.waiting = (3, [1]) :: [] := by decide +kernel
/-- Unit 0 lies at the array's north-west corner: its port 0 (north) has no neighbour and no credit. -/
def blockS : State := schedCu 0 fun x => { x with firing := true, cu := { x.cu with cyc := 9, pushes := [⟨5, 5, 0, false⟩] } }
theorem witness_block : CycleFree blockS 0 0 ∧ (⟨5, 5, 0, false⟩ : PushDue) ∈ (blockS.unit 0).cu.pushes ∧ 5 ≤ (blockS.unit 0).cu.cyc ∧
    creditsOut blockS 0 (bPort (bindWord (blockS.unit 0).cfg 0)) = 0 :=
  ⟨cycleFree_of _ _ _ (by decide +kernel), by decide +kernel, by decide +kernel, by decide +kernel⟩
/-- A STEP that pops binding 0, whose port holds no token. -/
def popS (b : BitVec 64) : State :=
  schedCu 0x00080000 fun x => { x with firing := true, cfg := x.cfg ||| ((b.zeroExtend 16384) <<< 512) }
theorem witness_pop : let w := schedWord ((popS 0).unit 0).cfg ((popS 0).unit 0).cu.entry
    schKind w = 0 ∧ schPopA w = some 0 ∧ schPopB w = none ∧ ((popS 0).unit 0).firing = true ∧
    curTokens ((popS 0).unit 0) ((popS 0).chan 0 (bPort (bindWord ((popS 0).unit 0).cfg 0))) = 0 := by decide +kernel
theorem witness_pop_free : CycleFree (popS 0) 0 0 := cycleFree_of _ _ _ (by decide +kernel)
theorem witness_ldb_rings : ringBind ((ringState 0x06000000 0).unit 0) (uWRing 0x06000000) = some ringW ∧
    ringBind ((ringState 0x05000000 0x00080000).unit 0) (uARing 0x05000000) = some ringW ∧ uLdbW 0x05000000 = false := by decide +kernel
/-- A CU of two groups an accumulation, about to take terms that fill the first. -/
def accGroup : State := oneUnit 0 { UnitSt.blank with cfg := cfgAt (128 + 64 * 2) (wOp 1) ||| cfgAt 4 1, loaded := true,
                                                      cu := accCu 128 { Cu.init with cyc := 5, due := [⟨2, 4⟩] } }
theorem witness_acc_group : dueOp accGroup (0 : Fin 9792) 2 1 = some (wOp 1, 4) ∧
    timedGet none (accGroup.unit 0).cu.terms 4 = some ⟨[], 128⟩ ∧ uSlot (wOp 1) < cuSlots (accGroup.unit 0).cfg ∧
    modeClose (cuMode (accGroup.unit 0).cfg) ≤ (sget .init (accGroup.unit 0).cu.slots (uSlot (wOp 1))).units + 128 ∧
    (sget .init (accGroup.unit 0).cu.slots (uSlot (wOp 1))).groups + 1 < cuGroups (accGroup.unit 0).cfg := by decide +kernel
/-- MOV of IN, which is not valid, to the pocket. -/
def wPk : Word := BitVec.ofNat 32 (8 * 2 ^ 26 + 20 * 2 ^ 21 + 21 * 2 ^ 11)
theorem witness_invalid_pocket : dueOp (dueCu 3 wPk id) (0 : Fin 9792) 3 8 = some (wPk, 4) ∧
    stage3Ready ((dueCu 3 wPk id).unit 0).cu wPk 4 = true ∧ uSD wPk = 21 ∧
    (selRead ((dueCu 3 wPk id).unit 0).cu (uSA wPk) (uImm wPk) 4).2 = none := by decide +kernel
/-! Channels, memory units, configuration. Logical unit 0 is physical unit 0, a CU; logical unit 96, below it, is physical unit 1, an MU. -/

/-- A token of generation 0 with its parity set. -/
def tok0 : Token := mkToken 0 0 false
/-- One channel. -/
def withChan (lu p : Nat) (c : Chan) (s : State) : State := { s with chans := [(16 * lu + p, c)] }
theorem witness_arrival : (withChan 96 1 { Chan.init with landed := [tok0] } readyState).phys (96 : Fin 9216) = some 1 ∧
    ((withChan 96 1 { Chan.init with landed := [tok0] } readyState).chan (96 : Fin 9216) (1 : Fin 9)).landed = [tok0] ∧
    chanParked (withChan 96 1 { Chan.init with landed := [tok0] } readyState) (96 : Fin 9216) (1 : Fin 9) = false ∧ isMu 1 = true ∧
    arrivedNow (withChan 96 1 { Chan.init with landed := [tok0] } readyState) (96 : Fin 9216) (1 : Fin 9) = false ∧
    arrivedNow (withChan 96 1 { Chan.init with landed := [tok0], arrived := some 0 } readyState) (96 : Fin 9216) (1 : Fin 9) = true := by decide +kernel
theorem witness_credit : 0 ∈ ((withChan 96 1 { Chan.init with back := [0] } readyState).chan (96 : Fin 9216) (1 : Fin 9)).back ∧
    chanParked (withChan 96 1 { Chan.init with back := [0] } readyState) (96 : Fin 9216) (1 : Fin 9) = false := by decide +kernel
/-- A bore of rows 16 to 31 on port 1. -/
def boreCfg : UnitCfg := cfgAt 1 (BitVec.ofNat 32 (2 ^ 31 + 2 ^ 27 + 15 * 2 ^ 13 + 16)) ||| cfgAt 0 1
def boreS (c : Chan) : State := withChan 96 1 c (oneUnit 1 { UnitSt.blank with cfg := boreCfg, loaded := true })
theorem witness_bore_write : let s := boreS { Chan.init with spill := [tok0] }
    s.phys (96 : Fin 9216) = some 1 ∧ (s.chan (96 : Fin 9216) (1 : Fin 9)).spill = [tok0] ∧ boreNow s 96 1 1 = some (16, 16) ∧
    (s.chan (96 : Fin 9216) (1 : Fin 9)).boreRows.length < 16 ∧ s.quarterRuns (physZone 1 / 12) = true ∧
    (rankBank s 96 1 .boreWrite (16 + (s.chan (96 : Fin 9216) (1 : Fin 9)).boreNext % 16)).1 = true := by decide +kernel
/-- The bore lies in a replay window of rows 0 to 31. -/
def boreInWindow : State := withChan 96 1 { Chan.init with spill := [tok0] }
  (oneUnit 1 { UnitSt.blank with cfg := boreCfg ||| cfgAt 5 (BitVec.ofNat 32 (2 ^ 31 + 31 * 2 ^ 13)), loaded := true })
theorem witness_bore_window : (boreS { Chan.init with spill := [tok0] }).unit 1 = { UnitSt.blank with cfg := boreCfg, loaded := true } ∧
    inReplay boreCfg (16 + 0 % 16) = false ∧ inReplay (boreInWindow.unit 1).cfg (16 + 0 % 16) = true ∧
    boreNow boreInWindow 96 1 1 = some (16, 16) ∧ (boreInWindow.unit 1).stopped = false := by decide +kernel
theorem witness_bore_straight : let s := boreS { Chan.init with spill := [tok0] }
    (s.chan (96 : Fin 9216) (1 : Fin 9)).boreRows = [] ∧ (s.chan (96 : Fin 9216) (1 : Fin 9)).spill = tok0 :: [] ∧
    (s.chan (96 : Fin 9216) (1 : Fin 9)).queue.length < 16 := by decide +kernel
def backS : State :=
  let s := boreS { Chan.init with boreRows := [(16, 0, 0)] }
  { s with zones := [(0, { ZoneClk.init with running := true, sched := 2 })] }
theorem witness_bore_back : backS.phys (96 : Fin 9216) = some 1 ∧ (backS.chan (96 : Fin 9216) (1 : Fin 9)).boreRows = [(16, 0, 0)] ∧
    (backS.chan (96 : Fin 9216) (1 : Fin 9)).queue.length < 16 ∧ 0 + 2 ≤ (backS.zone (physZone 1)).sched ∧
    backS.quarterRuns (physZone 1 / 12) = true ∧ (rankBank backS 96 1 .boreRead 16).1 = true := by decide +kernel

/-- An MU of one context whose AG 0 is of the given kind (STK 2), rows 0 to 8,191 allowed, binding 0 port p in the given direction. -/
def agCfg (kind p : Nat) (out : Bool) : UnitCfg :=
  cfgAt 0 1 ||| cfgAt 64 (BitVec.ofNat 32 (kind * 2 ^ 29 + 2 * 2 ^ 20)) ||| cfgAt 67 (BitVec.ofNat 32 (8191 * 2 ^ 13)) |||
    (((BitVec.ofNat 64 (2 ^ 63 + b2n out * 2 ^ 62 + p * 2 ^ 58 + 1)).zeroExtend 16384) <<< 1024)
def agMu (kind p : Nat) (out : Bool) (f : Mu → Mu) : State :=
  oneUnit 1 { UnitSt.blank with cfg := agCfg kind p out, loaded := true, firing := true, mu := f Mu.init }
/-- A present index entry, 0, of AG 0. -/
def idx0 (m : Mu) : Mu := { m with ags := [(0, { AgSt.init with idx := some 0 })] }
theorem agFree_of {s : State} {u a k n : Nat} {w : Bool} (e : Nat)
    (h : agTurn s u a k && !(curAg (s.unit u) a).follow && wrapOk (s.unit u) a ((agSt (s.unit u) a).issued + n - 1) &&
      (if isGather (curAg (s.unit u) a) then (agSt (s.unit u) a).idx.map BitVec.toNat == some e else e == 0) &&
      (List.range n).all (fun i => !rowBad s u (curAg (s.unit u) a) (agSram (curAg (s.unit u) a) ((agSt (s.unit u) a).pos + i) e) w) = true) :
    AgFree s u a k w e n := by
  simp only [Bool.and_eq_true, List.all_eq_true, List.mem_range, Bool.not_eq_true'] at h
  obtain ⟨⟨⟨⟨h1, h2⟩, h3⟩, h4⟩, h5⟩ := h
  refine ⟨h1, h2, h3, ?_, by simpa using h5⟩
  split at h4 <;> simp_all
theorem witness_send : (agMu 1 8 true id).logical (1 : Fin 9792) = some 96 ∧ AgFree (agMu 1 8 true id) (1 : Fin 9792) (0 : Fin 4) 1 false 0 1 ∧
    ((((agMu 1 8 true id).unit 1).mu.sends.filter fun d => d.2.1 == 8).length < creditsOut (agMu 1 8 true id) 96 8) ∧
    bPort (muBindWord ((agMu 1 8 true id).unit 1).cfg 0 0) = 8 ∧
    (rankBank (agMu 1 8 true id) 96 1 (.send 0) (agSram (curAg ((agMu 1 8 true id).unit 1) 0) 0 0).toNat).1 = true :=
  ⟨by decide +kernel, agFree_of 0 (by decide +kernel), by decide +kernel, by decide +kernel, by decide +kernel⟩
theorem witness_sgather : AgFree (agMu 6 8 true idx0) (1 : Fin 9792) (0 : Fin 4) 6 false 0 1 := agFree_of 0 (by decide +kernel)
def recvS : State := withChan 96 1 { Chan.init with queue := [tok0] } (agMu 2 1 false id)
theorem witness_recv : recvS.logical (1 : Fin 9792) = some 96 ∧ AgFree recvS (1 : Fin 9792) (0 : Fin 4) 2 true 0 1 ∧
    HeadIs recvS 96 1 (bPort (muBindWord (recvS.unit 1).cfg 0 0)) tok0 [] :=
  ⟨by decide +kernel, agFree_of 0 (by decide +kernel), by decide +kernel, by decide +kernel, by decide +kernel⟩
theorem witness_fetch : let s := agMu 3 1 false id
    s.logical (1 : Fin 9792) = some 96 ∧ runLen (curAg (s.unit 1) 0) 0 0 63 = 1 ∧
    AgFree s (1 : Fin 9792) (0 : Fin 4) 3 true 0 (runLen (curAg (s.unit 1) 0) 0 (agSt (s.unit 1) 0).pos 63) ∧
    (∀ j < 1, 0 ≤ agStack (curAg (s.unit 1) 0) (0 + j) 0 ∧ agStack (curAg (s.unit 1) 0) (0 + j) 0 < stackRows (curAg (s.unit 1) 0).stk) ∧
    ((s.unit 1).mu.runs.filter fun r => r.ag == 0).length < 16 ∧ (s.unit 1).mu.landing.length < 8 :=
  ⟨by decide +kernel, by decide +kernel, agFree_of 0 (by decide +kernel), by decide +kernel, by decide +kernel, by decide +kernel⟩
theorem witness_gather : AgFree (agMu 5 1 false idx0) (1 : Fin 9792) (0 : Fin 4) 5 true 0 1 ∧
    runLen (curAg ((agMu 5 1 false idx0).unit 1) 0) 0 0 63 = 1 := ⟨agFree_of 0 (by decide +kernel), by decide +kernel⟩
/-- A trained work stack 0. -/
def withKs (s : State) : State := { s with ks := [(0, { Ks.init 0 with trained := true })] }
def storeS : State := withKs (agMu 4 1 false fun m => { m with stores := [⟨0, 0, 5, 0, 7⟩] })
theorem witness_store : storeS.logical (1 : Fin 9792) = some 96 ∧ AgFree storeS (1 : Fin 9792) (0 : Fin 4) 4 false 0 1 ∧
    (rankBank storeS 96 1 .low (agSram (curAg (storeS.unit 1) 0) 0 0).toNat).1 = true ∧
    (0 ≤ agStack (curAg (storeS.unit 1) 0) 0 0 ∧ agStack (curAg (storeS.unit 1) 0) 0 0 < 1500000000) ∧ ReadErr.clean ≠ .uncorrectable :=
  ⟨by decide +kernel, agFree_of 0 (by decide +kernel), by decide +kernel, by decide +kernel, by decide⟩
theorem witness_storeAck : (storeS.unit (1 : Fin 9792)).mu.stores.find? (fun e => e.ag == (0 : Fin 4).val) = some ⟨0, 0, 5, 0, 7⟩ := by decide +kernel
theorem witness_ks : (storeS.kst (physZone 1 / 12)).trained = true ∧ (storeS.kst (physZone 1 / 12)).failed = false := ⟨rfl, rfl⟩
/-- An outstanding run on stack st, of a page in block b of the stack and pb of its partner. -/
def runOf (st : BitVec 2) (b pb : Nat) : StkRun := ⟨3, 0, 0, 2, st, 5, 0, b, pb, 0⟩
def landS (st : BitVec 2) (b pb : Nat) : State :=
  let s := withKs (agMu 3 1 false fun m => { m with runs := [runOf st b pb] })
  { s with ws := [(0, { Ws.init 0 with image := 1, manifest := some manifestM }), (1, { Ws.init 1 with image := 1, manifest := some manifestM })] }
theorem witness_landing : ∀ x ∈ [((0 : Nat), 0, 0), (0, 7, 8), (1, 7, 8), (2, 0, 0)], let y := ((landS (BitVec.ofNat 2 x.1) x.2.1 x.2.2).unit (1 : Fin 9792)).mu
    y.runs.find? (fun r => r.id == 3) = some (runOf (BitVec.ofNat 2 x.1) x.2.1 x.2.2) ∧ y.arriving.any (fun l => l.run == 3) = false ∧
    y.landing.any (fun l => l.run == 3) = false := by decide +kernel
theorem witness_landing_stacks : ((landS 2 0 0).kst (physZone 1 / 12)).trained = true ∧ ((landS 2 0 0).kst (physZone 1 / 12)).failed = false ∧
    ((landS 0 7 8).wst (2 * (physZone 1 / 12) + (runOf 0 7 8).stk.toNat)).image = 1 ∧ (runOf 0 7 8).stk = 0 ∧ (runOf 2 0 0).stk = 2 ∧
    partnerServes (landS 0 7 8) (2 * (physZone 1 / 12) + (runOf 0 7 8).stk.toNat) = true := by decide +kernel
/-- A row that the crossbar has still to deliver to the landing buffer. -/
def lateS : State :=
  { agMu 3 1 false (fun m => { m with runs := [runOf 2 0 0], arriving := [⟨3, 0, 0, 9, 5⟩] }) with
    zones := [(0, { ZoneClk.init with running := true, sched := 4 })] }
theorem witness_late : (lateS.unit 1).mu.landing = [] ∧ (lateS.unit 1).mu.arriving = [⟨3, 0, 0, 9, 5⟩] ∧
    (lateS.unit 1).mu.bankCyc ≠ (lateS.zone (physZone 1)).sched ∧ (lateS.unit 1).mu.recvs = [] := by decide +kernel
def scrubS : State := { agMu 0 1 false id with zones := [(0, { ZoneClk.init with running := true, sched := 300 })] }
theorem witness_scrub : isMu (1 : Fin 9792) = true ∧ (scrubS.zone (physZone 1)).running = true ∧
    (scrubS.unit 1).mu.scrubCyc + 256 ≤ (scrubS.zone (physZone 1)).sched ∧ (scrubS.unit 1).mu.bankCyc ≠ (scrubS.zone (physZone 1)).sched ∧
    recvClaims scrubS 1 (scrubS.unit 1).mu.scrubRow = false ∧
    (∀ lu, scrubS.logical (1 : Fin 9792) = some lu → outranked scrubS lu 1 .low (scrubS.unit 1).mu.scrubRow = false ∧
      storeClaims scrubS lu 1 (scrubS.unit 1).mu.scrubRow = false) := by
  refine ⟨by decide +kernel, by decide +kernel, by decide +kernel, by decide +kernel, by decide +kernel, ?_⟩
  intro lu h
  have e : scrubS.logical (1 : Fin 9792) = some 96 := by decide +kernel
  rw [e] at h; cases h; exact ⟨by decide +kernel, by decide +kernel⟩
/-- An MU with context select on port 1 and a waiting token for context k. -/
def ctxS (k : Nat) : State :=
  withChan 96 1 { Chan.init with queue := [mkToken (BitVec.ofNat 512 k) 0 false] }
    (oneUnit 1 { UnitSt.blank with cfg := cfgAt 0 (BitVec.ofNat 32 (2 ^ 23 + 2 ^ 16 + 1)), loaded := true })
theorem witness_context : ∀ k ∈ [(0 : Nat), 3], (ctxS k).logical (1 : Fin 9792) = some 96 ∧ unitRuns (ctxS k) 1 = true ∧
    ((ctxS k).unit 1).loaded = true ∧ ((ctxS k).unit 1).firing = false ∧ ((ctxS k).unit 1).mu.switching = false ∧
    muCtxselEn ((ctxS k).unit 1).cfg = true ∧ ((ctxS k).unit 1).stopped = false ∧ ((ctxS k).unit 1).switched = none ∧ ((ctxS k).unit 1).mu.used = [] ∧ isMu (1 : Fin 9792) = true ∧ muCtxValid ((ctxS k).unit 1).cfg k = (k == 0) := by decide +kernel
theorem witness_context_head : ∀ k ∈ [(0 : Nat), 3],
    ((ctxS k).chan 96 (muCtxsel ((ctxS k).unit 1).cfg)).queue = [mkToken (BitVec.ofNat 512 k) 0 false] ∧
    parOk (mkToken (BitVec.ofNat 512 k) 0 false) = true := by decide +kernel

/-- A unit with a configuration token at port 1's head. -/
def cfgTokS (k : Nat) (tok : Token) : State :=
  withChan 96 1 { Chan.init with queue := [tok], absorbing := k } (oneUnit 1 UnitSt.blank)
theorem witness_absorb : ∀ k ∈ [(0 : Nat), 5, 31], let tok := mkToken 0 1 (k != 5)
    (cfgTokS k tok).phys (96 : Fin 9216) = some 1 ∧ ((cfgTokS k tok).chan (96 : Fin 9216) (1 : Fin 9)).queue = [tok] ∧
    headIsCfg ((cfgTokS k tok).unit 1) ((cfgTokS k tok).chan (96 : Fin 9216) (1 : Fin 9)) (1 : Fin 9) = true ∧
    unitRuns (cfgTokS k tok) 1 = true ∧ parOk tok = true ∧ ((cfgTokS k tok).chan (96 : Fin 9216) (1 : Fin 9)).absorbing = k ∧
    ((cfgTokS k tok).chan (96 : Fin 9216) (1 : Fin 9)).absorbCyc ≠ some ((cfgTokS k tok).zone (physZone 1)).sched := by decide +kernel
theorem witness_absorb_again : let s := withChan 96 1 { Chan.init with queue := [mkToken 0 1 false], absorbCyc := some 0 } (oneUnit 1 UnitSt.blank)
    (s.chan (96 : Fin 9216) (1 : Fin 9)).absorbCyc = some (s.zone (physZone 1)).sched ∧
    headIsCfg (s.unit 1) (s.chan (96 : Fin 9216) (1 : Fin 9)) (1 : Fin 9) = true := by decide +kernel
def switchS : State := oneUnit 1 { UnitSt.blank with shadow := { Shadow.init with carriers := 1 } }
theorem witness_switch : switchS.logical (1 : Fin 9792) = some 96 ∧ unitRuns switchS (1 : Fin 9792) = true ∧
    switchReady (switchS.unit (1 : Fin 9792)) (isMu (1 : Fin 9792)) = true ∧
    (switchS.unit (1 : Fin 9792)).settled ≠ some (switchS.zone (physZone 1)).sched ∧
    ((oneUnit 1 { UnitSt.blank with settled := some 0 }).unit (1 : Fin 9792)).settled = some ((oneUnit 1 UnitSt.blank).zone (physZone 1)).sched := by decide +kernel
def deadS : State := { readyState with zpages := [(0, { ZonePage.init with dlwCount := 65536 })] }
theorem witness_deadlock : 65536 ≤ (deadS.zpage (0 : Fin 48)).dlwCount.toNat ∧ (deadS.zpage (0 : Fin 48)).tripped = false := by decide +kernel
/-- A streamer of quarter 0 in a READY region. -/
def cfgS (c : CfgQ) : State := { readyState with cfgq := [(0, c)] }
theorem witness_start : ∀ n ∈ [(0 : Nat), 2], let s := cfgS { CfgQ.init with entries := BitVec.ofNat 16 n, planHi := 1 }
    s.boot.phase = .ready ∧ (s.cfgQ (0 : Fin 4)).start = false ∧ (s.cfgQ (0 : Fin 4)).aborted = false ∧
    (s.quarter (0 : Fin 4)).inReset = false ∧ (s.cfgQ (0 : Fin 4)).entries = BitVec.ofNat 16 n := by decide +kernel
def abortS : State := { cfgS { CfgQ.init with start := true } with quarters := [(0, { Quarter.init with inReset := false, halted := true })] }
theorem witness_abort : abortS.boot.phase = .ready ∧ (abortS.cfgQ (0 : Fin 4)).start = true ∧ (abortS.cfgQ (0 : Fin 4)).owner = none ∧
    quarterHalted abortS (0 : Fin 4) = true := by decide +kernel
theorem witness_streamer_writable : Writable abortS (0xD000C + 0x40 * (0 : Fin 4).val) ∧
    Writable (cfgS CfgQ.init) (0xD000C + 0x40 * (3 : Fin 4).val) ∧ Writable abortS (0xA001C + 0x40 * (0 : Fin 4).val) :=
  ⟨⟨rfl, rfl, rfl⟩, ⟨rfl, rfl, rfl⟩, ⟨rfl, rfl, rfl⟩⟩
/-- A plan of one entry at host address 0; with carrier 15 it names unit 0, an entry of zeros names port 0 of a blank unit. -/
def planS (carrier : Nat) : State :=
  { cfgS { CfgQ.init with start := true, planLen := 1, planSrc := true } with host := writeNat [] 0 (carrier * 2 ^ 20) 4 }
theorem witness_plan : ∀ k ∈ [(15 : Nat), 0], ((planS k).cfgQ (0 : Fin 4)).start = true ∧
    ((planS k).cfgQ (0 : Fin 4)).taken < ((planS k).cfgQ (0 : Fin 4)).planLen ∧ ((planS k).cfgQ (0 : Fin 4)).planSrc = true ∧
    (entryError (planS k) (0 : Fin 4) (nth 0 (entryRows (planS k) (0 : Fin 4) 0) 0) = if k = 15 then 0 else 2) := by decide +kernel
/-- An item still to be delivered to logical unit 96: a carrier by port 1, the fabric barrier, or the staging carrier. -/
def item (ports : List (Nat × Nat)) (f g : Bool) : PlanItem := ⟨0, 96, 1, 4, f, 0, ports, f, 0, false, true, g⟩
def itemS (i : PlanItem) : State :=
  { cfgS { CfgQ.init with start := true, planLen := 2, taken := 1, items := [i] } with
    pitons := [(4, { Piton.init with done := true })] }
theorem witness_inject : let s := itemS (item [(1, 0)] false false)
    (s.cfgQ (0 : Fin 4)).items.find? (fun j => j.lu == (96 : Fin 9216).val && j.ports.any fun e => e.1 == (1 : Fin 9).val) = some (item [(1, 0)] false false) ∧
    neighbour (96 : Fin 9216) (1 : Fin 9) = some 97 ∧
    (item [(1, 0)] false false).ports.find? (fun e => e.1 == (1 : Fin 9).val) = some (1, 0) ∧ producerDone s 97 ((s.chan 96 1).marked.getD 0) = true ∧ sendPending s 96 1 = false ∧ injSlot s 0 96 1 = true ∧
    0 < creditsIn s 96 1 ∧ (s.quarter (0 : Fin 4)).inReset = false ∧ (s.cfgQ (0 : Fin 4)).owner = none := by decide +kernel
theorem witness_barrier : let s := itemS (item [] true false)
    s.phys (96 : Fin 9216) = some 1 ∧ (s.cfgQ (0 : Fin 4)).items.find? (fun j => j.lu == (96 : Fin 9216).val && j.fabricWait) = some (item [] true false) ∧
    (item [] true false).ready = true ∧ isMu 1 = true ∧ (s.cfgQ (0 : Fin 4)).owner = none ∧ 0 < port8Room s 96 ∧ injSlot s 0 96 8 = true := by decide +kernel
theorem witness_staging : (itemS (item [] false true)).phys (96 : Fin 9216) = some 1 ∧
    ((itemS (item [] false true)).cfgQ (0 : Fin 4)).items.find? (fun j => j.lu == (96 : Fin 9216).val && j.staging) = some (item [] false true) := by decide +kernel

/-! Pitons. -/

/-- The engine of hub 0 with one operation on piton 4. -/
def pitS (p : Piton) (op arg inl : Nat) (last : Bool) : State :=
  { readyState with pitons := [(4, p)], pitq := [(0, { PitQ.init with inbox :=
      [⟨0, 4, true, 0, BitVec.ofNat 4 op, BitVec.ofNat 28 arg, BitVec.ofNat 256 inl, last, 9, 1, 2, false, false, none, 0⟩] })] }
def pitM (op arg inl : Nat) (last : Bool) : PitMsg :=
  ⟨0, 4, true, 0, BitVec.ofNat 4 op, BitVec.ofNat 28 arg, BitVec.ofNat 256 inl, last, 9, 1, 2, false, false, none, 0⟩
theorem witness_ops : ∀ x ∈ [(0, 0, 5), (4, 0, 5), (1, 1, 7), (1, 0, 7), (2, 0, 0), (3, 0, 2 ^ 17 + 6), (3, 0, 6), (5, 0, 0)],
    firstOp ((pitS Piton.init x.1 x.2.1 x.2.2 false).pitQ (0 : Fin 4)).inbox = some (pitM x.1 x.2.1 x.2.2 false) ∧
    (pitM x.1 x.2.1 x.2.2 false).op.toNat = x.1 ∧ pitBad (pitM x.1 x.2.1 x.2.2 false) = false ∧
    ((pitS Piton.init x.1 x.2.1 x.2.2 false).piton 4).done = false := by decide +kernel
theorem witness_arrive_last : firstOp ((pitS Piton.init 0 0 5 true).pitQ (0 : Fin 4)).inbox = some (pitM 0 0 5 true) ∧
    pitBad (pitM 0 0 5 true) = false ∧ (pitM 0 0 5 true).last = true := by decide +kernel
/-- Targets 6, 5 and 4 for an arrival of 5. -/
theorem witness_arrive_cases : ∀ tg ∈ [(6 : Nat), 5, 4],
    let s := pitS { Piton.init with tgtValid := true, target := BitVec.ofNat 32 tg } 0 0 5 false
    (s.piton 4).count.toNat + fld (pitM 0 0 5 false).inl 0 32 = 5 ∧ (s.piton 4).target.toNat = tg ∧ (s.piton 4).overrun = false := by decide +kernel
theorem witness_second_target : let s := pitS { Piton.init with tgtValid := true, target := 8 } 1 0 7 false
    (s.piton 4).tgtValid = true ∧ fld (pitM 1 0 7 false).inl 0 32 ≠ (s.piton 4).target.toNat ∧ bit (pitM 1 0 7 false).arg 0 = false ∧
    bit (pitM 1 1 7 false).arg 0 = true ∧ bit (pitM 1 1 7 false).arg 2 = false := by decide +kernel
theorem witness_four_waiters : 4 ≤ ((pitS { Piton.init with waiters := List.replicate 4 ⟨0, 0, 0, 0, false, 0, 0, false⟩ } 2 0 0 false).piton 4).waiters.length := by
  decide +kernel
theorem witness_clearAll : abortS.boot.phase = .ready ∧ quarterHalted abortS (0 : Fin 4) = true := by decide +kernel
theorem witness_malformed : firstOp ((pitS Piton.init 0 3 5 false).pitQ (0 : Fin 4)).inbox = some (pitM 0 3 5 false) ∧
    pitBad (pitM 0 3 5 false) = true ∧ (pitM 0 3 5 false).op = 0 := by decide +kernel


/-- Two AGs that SEND row 0 in one schedule cycle. -/
def sendPair : State :=
  oneUnit 1 { UnitSt.blank with
    cfg := agCfg 1 8 true ||| cfgAt 80 (BitVec.ofNat 32 (2 ^ 29 + 2 * 2 ^ 20)) ||| cfgAt 83 (BitVec.ofNat 32 (8191 * 2 ^ 13)),
    loaded := true, firing := true }
/-- The higher AG is deferred to the lower one, and the context then holds for it (R120). -/
theorem test_bank_rank : (match exec (.send 1 1 .good) sendPair with
    | .next t => (t.unit 1).mu.late == [1] && (t.unit 1).mu.sends.isEmpty && sget 0 (t.unit 1).ctr 4 == 1
    | _ => false) = true := by decide +kernel

/-- A context-select token whose parity does not hold. -/
def badCtx : Token := { tok0 with par := !tok0.par }
theorem witness_context_parity : let s := withChan 96 1 { Chan.init with queue := [badCtx] } (ctxS 0)
    (s.chan 96 (muCtxsel (s.unit 1).cfg)).queue = [badCtx] ∧ badCtx.gen = (s.unit 1).gen ∧ parOk badCtx = false := by decide +kernel
theorem witness_context_switched : (oneUnit 1 { UnitSt.blank with switched := some 0 }).unit (1 : Fin 9792) = { UnitSt.blank with switched := some 0 } ∧
    some 0 = some ((oneUnit 1 UnitSt.blank).zone (physZone 1)).sched := by decide +kernel
/-- A plan in the work stack of quarter 0. -/
theorem witness_plan_ks : let s := withKs (cfgS { CfgQ.init with start := true, planLen := 1 })
    (s.cfgQ (0 : Fin 4)).start = true ∧ (s.cfgQ (0 : Fin 4)).taken < (s.cfgQ (0 : Fin 4)).planLen ∧ (s.cfgQ (0 : Fin 4)).planSrc = false ∧
    (s.kst (0 : Fin 4)).trained = true ∧ (s.kst (0 : Fin 4)).failed = false ∧ (s.cfgQ (0 : Fin 4)).owner = none := by decide +kernel
theorem witness_inject_sent : let s := withChan 96 1 { Chan.init with sent := some 0 } (itemS (item [(1, 3)] false false))
    (s.chan (96 : Fin 9216) (1 : Fin 9)).sent = some (sendCycle s 96 1) ∧
    (item [(1, 3)] false false).ports.find? (fun e => e.1 == (1 : Fin 9).val) = some (1, 3) ∧
    ((itemS (item [(1, 3)] false false)).chan (96 : Fin 9216) (1 : Fin 9)).sent = none := by decide +kernel
theorem witness_barrier_queues : let s := withChan 96 8 { Chan.init with queue := List.replicate 16 tok0 } { itemS (item [] true false) with
      units := [(1, { UnitSt.blank with cfg := cfgAt 1 (BitVec.ofNat 32 (2 ^ 31 + 8 * 2 ^ 27 + 15 * 2 ^ 13 + 16)) ||| cfgAt 0 1, loaded := true })] }
    16 ≤ (s.chan 96 8).queue.length ∧ curBind (s.unit 1) (isMu 1) false 8 = none ∧ 0 < port8Room s 96 ∧
    ((itemS (item [] true false)).chan 96 8).boreRows = [] ∧ ((itemS (item [] true false)).chan 96 8).spill = [] ∧
    ((itemS (item [] true false)).chan 96 8).queue.length < 16 := by decide +kernel
/-- A waiter in each mode. -/
def waiters3 : List Waiter := [⟨0, 7, 3, 4, false, 5, 0, false⟩, ⟨1, 7, 3, 4, false, 5, 0, false⟩, ⟨2, 7, 3, 4, false, 5, 9, false⟩]
/-- Reaching its target, a piton answers the three waiters, in their order, and forgets them. -/
theorem test_notified : (match exec (.arrive 0) (pitS { Piton.init with tgtValid := true, target := 5, waiters := waiters3 } 0 0 5 false) with
    | .next t => ((t.piton 4).waiters, (sget [] t.fab.localq 7).map fun n => (hKind n.1, hDest n.1, n.2.length))
    | _ => (waiters3, [])) = ([], [(3, 3, 0), (0, 7, 1), (7, 7, 0)]) := by decide +kernel
theorem witness_malformed_ops : ∀ k ∈ [(1 : Nat), 2, 3, 4, 5],
    firstOp ((pitS Piton.init k (2 ^ 20) 5 false).pitQ (0 : Fin 4)).inbox = some (pitM k (2 ^ 20) 5 false) ∧
    pitBad (pitM k (2 ^ 20) 5 false) = true ∧ (pitM k (2 ^ 20) 5 false).op.toNat = k := by decide +kernel
/-- A halted quarter with a fault that only a reset ends. -/
def haltS : State := { readyState with quarters := [(0, { Quarter.init with inReset := false, halted := true, faults := [⟨0, none, .reset, 1, true⟩] })] }
theorem witness_deadlock_halt : (⟨0, none, .reset, 1, true⟩ : PendFault) ∈ (haltS.quarter (0 : Fin 4)).faults ∧
    (⟨0, none, .reset, 1, true⟩ : PendFault).action = .reset ∧ (haltS.quarter (0 : Fin 4)).inReset = false ∧ unreported haltS (0 : Fin 4) = false ∧
    quarterHalted haltS (0 : Fin 4) = true := by decide +kernel
/-- DEADLOCK, then FAULT_HALT: halted for good, no replay. -/
theorem test_deadlock_halts : (match exec (.deadlock 0) deadS with
    | .next t => (match exec (.faultHalt 0) t with | .next u => ((u.quarter 0).halted, (u.quarter 0).lockHalt, (u.quarter 0).replay) | _ => (false, false, none))
    | _ => (false, false, none)) = (true, true, none) := by decide +kernel

/-! Fabric and links. -/

/-- A packet with identifier 0 at a place. -/
def pk (loc : Loc) (h : HdrF) (d : List (Row × Bool)) : Packet :=
  { id := 0, hdr := mkHdr h, data := d, loc := loc, inVc := 0, escape := false, since := 0, fromLink := false, by_ := none }
/-- A READY region with one packet. -/
def withPk (loc : Loc) (h : HdrF) (d : List (Row × Bool)) (f : State → State) : State :=
  f { readyState with fab := { readyState.fab with pkts := [pk loc h d] } }
/-- A packet that waits at local injector 1 of hub 2. -/
def hubS (k : Nat) (b : Bucket) : State := { readyState with fab := { readyState.fab with
    buckets := [(injKey (.hub 2 1), b)],
    localq := [(17, [(mkHdr { dest := 5, src := 1, kind := k }, []), (mkHdr { dest := 5, src := 1, kind := 3 }, [])])] } }
theorem witness_inject_hub : sget [] (hubS 0 Bucket.init).fab.localq (8 * (2 : Fin 4).val + (1 : Fin 8).val) =
      (mkHdr { dest := 5, src := 1, kind := 0 }, []) :: [(mkHdr { dest := 5, src := 1, kind := 3 }, [])] ∧
    bucketOpen (hubS 0 Bucket.init) (.hub 2 1) (mkHdr { dest := 5, src := 1, kind := 0 }) = true ∧
    bucketOpen (hubS 0 { Bucket.init with fill := 0, rate := 0 }) (.hub 2 1) (mkHdr { dest := 5, src := 1, kind := 0 }) = false ∧
    bucketOpen (hubS 0 { Bucket.init with fill := 0, rate := 0 }) (.hub 2 1) (mkHdr { dest := 5, src := 1, kind := 3 }) = true := by decide +kernel
/-- Unit 96's injection queue holds a header of kind k and one data token. -/
def injS (k : Nat) : State :=
  { readyState with fab := { readyState.fab with injq :=
      [(96, [(true, mkToken (mkHdr { dest := 5, src := 1, kind := k, len := 1 }) 0 false), (false, mkToken 7 0 true)])] } }
theorem witness_inject_unit : ((injS 0).quarter (zoneOf (96 : Fin 9216) / 12)).inReset = false ∧ sget none (injS 0).fab.asm (96 : Fin 9216) = none ∧
    (sget [] (injS 0).fab.injq (96 : Fin 9216)).length = 2 ∧
    hLen (mkToken (mkHdr { dest := 5, src := 1, kind := 0, len := 1 }) 0 false).payload ≤ 1 ∧
    hdrBad (mkToken (mkHdr { dest := 5, src := 1, kind := 0, len := 1 }) 0 false).payload = false ∧
    hdrBad (mkToken (mkHdr { dest := 5, src := 1, kind := 9, len := 1 }) 0 false).payload = true ∧
    bucketOpen (injS 0) (.unit 96) (mkToken (mkHdr { dest := 5, src := 1, kind := 0, len := 1 }) 0 false).payload = true := by decide +kernel
theorem witness_hop_shadow : let s := withPk (.router 51 3) { dest := 5, src := 1, kind := 0 } [] id
    findPacket s 0 = some (pk (.router 51 3) { dest := 5, src := 1, kind := 0 } []) ∧ bit s.fab.shadow (b2n (hCairn (mkHdr { dest := 5, src := 1, kind := 0 }))) = true ∧
    s.fab.armed = true ∧ FlitEcc.good ≠ .double := by decide +kernel
/-- Router 0, version 0 live, sends endpoint 5 to the zone's column 0, row 1. -/
def hopS : State := withPk (.router 0 3) { dest := 5, src := 1, kind := 0 } [] fun s =>
  { s with fab := { s.fab with shadow := 2, ep := [(5, 0x8000000000000000 + 2 ^ 52)] } }
theorem witness_hop_unit : eValid (epEntry hopS 0 false 5) = true ∧ eOut (epEntry hopS 0 false 5) = 0 ∧ bit hopS.fab.shadow 0 = false ∧
    (hopS.phys (luAt 0 (eK (epEntry hopS 0 false 5)) (eJ (epEntry hopS 0 false 5)))).isSome = true ∧
    findPacket hopS 0 = some (pk (.router 0 3) { dest := 5, src := 1, kind := 0 } []) ∧
    hKind (mkHdr { dest := 5, src := 1, kind := 0 }) = 0 ∧ hRope (mkHdr { dest := 5, src := 1, kind := 0 }) = false ∧
    hSet (mkHdr { dest := 5, src := 1, kind := 0 }) = false ∧ hHops (mkHdr { dest := 5, src := 1, kind := 0 }) < 63 ∧
    hCairn (mkHdr { dest := 5, src := 1, kind := 0 }) = false ∧ hDest (mkHdr { dest := 5, src := 1, kind := 0 }) = 5 ∧
    orderAhead hopS (pk (.router 0 3) { dest := 5, src := 1, kind := 0 } []) = false := by decide +kernel
/-- A SPREAD packet at zone router 0 bound for zone 1, whose input from the west may hold 65 flits of VC 1. -/
def spreadS (full : Bool) (t : Nat) : State :=
  { readyState with tick := t, fab := { readyState.fab with
      shadow := 2, ep := [(5, 0x8000000000000000 + 2 ^ 61 + 2 ^ 57)],
      pkts := pk (.router 0 4) { dest := 5, src := 1, kind := 0, cls := true } [] ::
        (if full then [{ pk (.router 1 3) { dest := 5, src := 1, kind := 0, cls := true, len := 64 } [] with id := 1, inVc := 1 }] else []) } }
theorem witness_escape : ∀ full : Bool, let p := pk (.router 0 4) { dest := 5, src := 1, kind := 0, cls := true } []
    findPacket (spreadS full 64) 0 = some p ∧ pVc p = 1 ∧ p.since + 64 ≤ (spreadS full 64).tick ∧ findsCredit (spreadS full 64) p = !full ∧
    (spreadS full 63).tick < p.since + 64 := by decide +kernel
theorem witness_recovery : let b : Bucket := { Bucket.init with rate := 1 / 2 }
    let s : State := { readyState with fab := { readyState.fab with buckets := [(injKey (.hub 1 0), b)] } }
    (sget Bucket.init s.fab.buckets (injKey (.hub 1 0))).rising = none ∧ (sget Bucket.init s.fab.buckets (injKey (.hub 1 0))).rate < 1 ∧
    (sget Bucket.init s.fab.buckets (injKey (.hub 1 0))).used = [] := by decide +kernel
theorem witness_deliver : let s := withPk (.unit 96) { dest := 5, src := 1, kind := 0, len := 1 } [(7, true)] id
    let p := pk (.unit 96) { dest := 5, src := 1, kind := 0, len := 1 } [(7, true)]
    findPacket s 0 = some p ∧ hKind p.hdr = 0 ∧ oldestAt s p = true ∧ (s.quarter (zoneOf 96 / 12)).steering = [] ∧ s.phys 96 = some 1 ∧
    p.data.length ≤ port8Room s 96 ∧ isMu 1 = true ∧ (s.chan 96 8).boreRows = [] ∧ (s.chan 96 8).spill = [] ∧
    (s.chan 96 8).queue.length + p.data.length ≤ 16 := by decide +kernel
theorem witness_resp : let h : HdrF := { dest := 5, src := 1, kind := 3, inl := 9 * 2 ^ 32 + 4 }
    let s := withPk (.func 1 6) h [] id
    findPacket s 0 = some (pk (.func 1 6) h []) ∧ hKind (mkHdr h) = 3 ∧ oldestAt s (pk (.func 1 6) h []) = true ∧
    fld (hInline (mkHdr h)) 24 8 = 0 := by decide +kernel
theorem witness_stk_rd : let s := withPk (.func 1 0) { dest := 5, src := 1, kind := 1, arg := 64 } [] id
    let p := pk (.func 1 0) { dest := 5, src := 1, kind := 1, arg := 64 } []
    findPacket s 0 = some p ∧ hKind p.hdr = 1 ∧ oldestAt s p = true ∧ hArg p.hdr ≤ 64 := by decide +kernel
theorem witness_stk_rd_ks : let h : HdrF := { dest := 5, src := 1, kind := 1, arg := 64, addr := 2 ^ 63 }
    hAddr (mkHdr h) / 2 ^ 62 = 2 ∧ (({ readyState with ks := [(1, { Ks.init 1 with trained := true })] } : State).kst (1 : Fin 4)).trained = true ∧
    (({ readyState with ks := [(1, { Ks.init 1 with trained := true })] } : State).kst (1 : Fin 4)).failed = false := by decide +kernel
theorem witness_stk_wr : let d : List (Row × Bool) := (List.range 64).map fun i => (BitVec.ofNat 512 i, false)
    let s := withPk (.func 1 0) { dest := 5, src := 1, kind := 2, len := 64, addr := 64 } d fun s => { s with ks := [(1, { Ks.init 1 with trained := true })] }
    let p := pk (.func 1 0) { dest := 5, src := 1, kind := 2, len := 64, addr := 64 } d
    findPacket s 0 = some p ∧ hKind p.hdr = 2 ∧ oldestAt s p = true ∧ (s.kst (1 : Fin 4)).trained = true ∧ (s.kst (1 : Fin 4)).failed = false ∧
    p.data.length ≤ 64 ∧ hAddr p.hdr % 2 ^ 32 % 4 = 0 ∧ p.data.length % 4 = 0 := by decide +kernel
theorem witness_win : (feTakes (withPk (.func 0 1) { dest := 5, src := 1, kind := 5, pv := true } [] id) 0 5).isSome = true ∧
    (feTakes (withPk (.func 0 1) { dest := 5, src := 1, kind := 6 } [] id) 0 6).isSome = true ∧
    hPv (mkHdr { dest := 5, src := 1, kind := 5, pv := true }) = true ∧ (readyState.quarter (pitonQuarter 0)).inReset = false := by decide +kernel
theorem witness_host : let l (h : HdrF) : Link := { Link.init with state := .up, wire := [pk (.router 48 0) h []] }
    let s (h : HdrF) : State := { readyState with links := [(9, l h)] }
    bridgeHead ((s { dest := 5, src := 1, kind := 7, arg := 32 }).link (9 : Fin 32)) 7 = some (pk (.router 48 0) { dest := 5, src := 1, kind := 7, arg := 32 } []) ∧
    hLen (mkHdr { dest := 5, src := 1, kind := 7, arg := 32 }) = 0 ∧ hArg (mkHdr { dest := 5, src := 1, kind := 7, arg := 32 }) = 32 ∧
    bridgeHead ((s { dest := 5, src := 1, kind := 8, arg := 4096 }).link (9 : Fin 32)) 8 = some (pk (.router 48 0) { dest := 5, src := 1, kind := 8, arg := 4096 } []) ∧
    hArg (mkHdr { dest := 5, src := 1, kind := 8, arg := 4096 }) = 4096 := by decide +kernel
/-- A READY region whose link 9 is l. -/
def withLink (l : Link) : State := { readyState with links := [(9, l)] }
/-- A frame with control word c and its good CRC. -/
def goodFrame (c : BitVec 64) : LinkFrame := { data := 0, ctl := c, crc := frameCrc { data := 0, ctl := c, crc := 0 } }
/-- The same frame with its CRC inverted. -/
def badFrame (c : BitVec 64) : LinkFrame := { data := 0, ctl := c, crc := ~~~ frameCrc { data := 0, ctl := c, crc := 0 } }
theorem ne_not_of (x : BitVec 32) : x ≠ ~~~ x := by
  intro h
  have h := congrArg (fun y => y.getLsbD 0) h
  simp at h
theorem witness_frame_bad : frameCrc (badFrame 0) ≠ (badFrame 0).crc ∧
    ((withLink { Link.init with state := .up }).link (9 : Fin 32)).state = .up ∧ (readyState.link (9 : Fin 32)).state ≠ .up :=
  ⟨by simp only [frameCrc, badFrame]; exact ne_not_of _, by decide +kernel, by decide +kernel⟩
theorem witness_frame_idle : frameCrc (goodFrame 0) = (goodFrame 0).crc ∧ cType (goodFrame 0).ctl = 0 :=
  ⟨by simp only [frameCrc, goodFrame], by decide⟩
theorem witness_frame_data : frameCrc (goodFrame 0x2000000000) = (goodFrame 0x2000000000).crc ∧ cType (goodFrame 0x2000000000).ctl = 1 ∧
    cSeq (goodFrame 0x2000000000).ctl = ((withLink { Link.init with state := .up }).link (9 : Fin 32)).rxSeq ∧
    rxRoom ((withLink { Link.init with state := .up }).link (9 : Fin 32)) (goodFrame 0x2000000000).ctl = true :=
  ⟨by simp only [frameCrc, goodFrame], by decide, by decide +kernel, by decide +kernel⟩
theorem witness_link_writable : Writable (withLink { Link.init with state := .up }) (0x80000 + 0x10 * (9 : Fin 32).val) ∧
    Writable (withLink { Link.init with enable := false, state := .disabled }) (0x80000 + 0x10 * (9 : Fin 32).val) := ⟨⟨rfl, rfl, rfl⟩, ⟨rfl, rfl, rfl⟩⟩
theorem witness_training_result : (⟨true, 0, 16, 16, []⟩ : TrainResult).sparesTx.toNat ≤ 16 ∧ (⟨true, 0, 16, 16, []⟩ : TrainResult).sparesRx.toNat ≤ 16 ∧
    16 < (⟨true, 0, 17, 0, []⟩ : TrainResult).sparesTx.toNat := by decide
theorem witness_resend : let l : Link := { Link.init with state := .up, replay := [⟨0, 0, 0, none, true⟩] }
    ((withLink l).link (9 : Fin 32)).replay ≠ [] ∧ ((withLink l).link (9 : Fin 32)).ackTick + 1600 ≤ ({ withLink l with tick := 1600 } : State).tick ∧
    (withLink l).tick < 1600 := by decide +kernel
theorem witness_quick : 8 ≤ ((withLink { Link.init with state := .up, resends := 8 }).link (9 : Fin 32)).resends ∧
    ((withLink { Link.init with state := .retraining, quickFails := 1 }).link (9 : Fin 32)).quickFails < 2 ∧
    ((withLink { Link.init with state := .retraining, quickFails := 2 }).link (9 : Fin 32)).enable = true ∧
    (readyState.quarter (linkHub 9)).inReset = false := by decide +kernel
theorem witness_link_enable : (readyState.link (9 : Fin 32)).enable = true ∧
    ((withLink { Link.init with enable := false, state := .disabled }).link (9 : Fin 32)).enable = false := by decide +kernel
theorem witness_training : let l : Link := { Link.init with state := .training }
    ((withLink l).link (9 : Fin 32)).state = .training ∧ ((withLink l).link (9 : Fin 32)).detected = false ∧
    ((withLink l).link (9 : Fin 32)).trainTick + 4000000 ≤ ({ withLink l with tick := 4000000 } : State).tick ∧ (withLink l).boot.phase ≠ .bringup ∧
    ((withLink { l with detected := true }).link (9 : Fin 32)).detected = true := by decide +kernel
/-- An issued arrival for piton i at hub 1, on input 3. -/
def pitPk (i : Nat) (issued : Bool) : Packet :=
  { pk (.router 49 3) { dest := 0xFFFFFF, src := 1, kind := 4, piton := i, inl := 5 } [] with issued := issued }
def pitPkS (i : Nat) (issued : Bool) (shadow : BitVec 2) : State :=
  { readyState with fab := { readyState.fab with shadow := shadow, pkts := [pitPk i issued] } }
theorem witness_piton_path : ∀ x ∈ [((32768 : Nat), true, (3 : BitVec 2)), (32768, false, 2), (98304, true, 3)], let s := pitPkS x.1 x.2.1 x.2.2
    let p := pitPk x.1 x.2.1
    findPacket s 0 = some p ∧ p.loc = .router (48 + (1 : Fin 4).val) 3 ∧ hKind p.hdr = 4 ∧ hDest p.hdr = 0xFFFFFF ∧ hRope p.hdr = false ∧
    hHops p.hdr < 63 ∧ orderAhead s p = false ∧ (p.issued = true ∨ bit s.fab.shadow (b2n (hCairn p.hdr)) = false) ∧
    (s.quarter (pitonQuarter (hPiton p.hdr))).inReset = false ∧ (pitonQuarter (hPiton p.hdr) = (1 : Fin 4)) = (x.1 = 32768) ∧
    0 < freeCredits s (48 + 3) (hubPortOfHub 3 1) (pVc p) := by decide +kernel
/-- It goes on to hub 3, and there into the engine. -/
theorem test_piton_path : (match exec (.routerHop 0 .good) (pitPkS 98304 true 3) with
    | .next t => (match exec (.routerHop 0 .good) t with
        | .next u => ((findPacket t 0).map fun p => (p.loc, hHops p.hdr), (u.pitQ 3).inbox.map fun m => (m.port, m.piton.toNat, m.inl.toNat))
        | _ => (none, []))
    | _ => (none, [])) = (some (.router 51 (hubPortOfHub 3 1), 1), [(hubPortOfHub 3 1, 98304, 5)]) := by decide +kernel
theorem witness_win_piton : ∀ i ∈ [(0 : Nat), 32768], let h : HdrF := { dest := 5, src := 1, kind := 5, pv := true, piton := i }
    feTakes (withPk (.func 0 1) h [] id) 0 5 = some (pk (.func 0 1) h []) ∧ hPv (mkHdr h) = true ∧
    (pitonQuarter (hPiton (mkHdr h)) = 0) = (i = 0) ∧ (readyState.quarter 0).inReset = false := by decide +kernel
theorem witness_host_piton : let h : HdrF := { dest := 5, src := 1, kind := 7, arg := 32, pv := true, piton := 32768 }
    let s : State := { readyState with links := [(9, { Link.init with state := .up, wire := [pk (.router 48 0) h []] })] }
    bridgeHead (s.link (9 : Fin 32)) 7 = some (pk (.router 48 0) h []) ∧ hLen (mkHdr h) = 0 ∧ hArg (mkHdr h) ≤ 32 ∧ hPv (mkHdr h) = true := by decide +kernel

/-! Clocks, power, stacks. -/

/-- A READY region with the clock registers changed. -/
def withClk (f : Clk → Clk) : State := rdy fun s => { s with clk := f s.clk }
theorem witness_lock : (withClk fun c => { c with drone := .acquiring, refPresent := true }).clk.drone = .acquiring ∧
    (withClk fun c => { c with drone := .locked }).clk.drone = .locked ∧ (withClk fun c => { c with drone := .walking }).clk.drone = .walking ∧
    (withClk fun c => { c with drone := .holdover }).clk.drone = .holdover ∧ readyState.boot.phase = .ready := by decide +kernel
theorem witness_walk : let s : State := { withClk (fun c => { c with drone := .walking, walk := some (-50, 0) }) with tick := 32 }
    s.clk.drone = .walking ∧ s.clk.walk = some (-50, 0) ∧ (-50 : Int).natAbs ≤ 10 * ((s.tick - 0) / 8) + 10 := by decide +kernel
theorem witness_pattern : let s : State := { withClk (fun c => { c with started := some 3 }) with tick := 131 }
    s.clk.started = some 3 ∧ (s.tick - 3) % 128 = 0 := by decide +kernel
/-- A READY region whose zone 13 has chanter c, at a tick. -/
def chS (c : Chanter) (tick : Nat) : State := rdy fun s => { s with chanters := [(13, c)], tick := tick }
theorem witness_chanter_start : ((chS Chanter.init 0).chanter (13 : Fin 48)).state = .reset ∧ 512 ≤ fld (512 : Word) 0 11 ∧ fld (1215 : Word) 0 11 ≤ 1215 ∧
    ¬(512 ≤ fld (511 : Word) 0 11) ∧ ¬(fld (1216 : Word) 0 11 ≤ 1215) := by decide +kernel
theorem witness_ch_reset : bit (0x40000000 : Word) 31 = false ∧ quarterHalted readyState ((13 : Fin 48).val / 12) = false ∧
    (readyState.quarter ((13 : Fin 48).val / 12)).inReset = false ∧
    quarterHalted (rdy fun s => { s with quarters := [(1, { Quarter.init with inReset := false, halted := true })] }) ((13 : Fin 48).val / 12) = true := by
  decide +kernel
theorem witness_window : let s := chS { Chanter.init with state := .acquiring, code := 600, good := 3 } 512
    let t := chS { Chanter.init with state := .locked, code := 600 } 512
    isBeat { s with clk := { s.clk with firstLock := some 0 } } = true ∧ (s.chanter (13 : Fin 48)).windowTick ≠ some s.tick ∧
    s.clk.lastBeat ≠ some s.tick ∧ s.boot.phase ≠ .bringup ∧ (s.chanter (13 : Fin 48)).state = .acquiring ∧
    within 601 (s.chanter (13 : Fin 48)).code 1 = true ∧ (t.chanter (13 : Fin 48)).state = .locked ∧
    within 602 (t.chanter (13 : Fin 48)).code ((t.chanter (13 : Fin 48)).widen + 2) = true ∧
    within 603 (t.chanter (13 : Fin 48)).code ((t.chanter (13 : Fin 48)).widen + 2) = false := by decide +kernel
theorem witness_coast : let s := chS { Chanter.init with state := .coasting, coastTick := 5 } 160005
    (s.chanter (13 : Fin 48)).state = .coasting ∧ (s.chanter (13 : Fin 48)).expired = false ∧ (s.chanter (13 : Fin 48)).coastTick + 160000 ≤ s.tick := by
  decide +kernel
theorem witness_ch_fail : let s := chS { Chanter.init with state := .acquiring, startTick := 5 } 16005
    (s.chanter (13 : Fin 48)).state = .acquiring ∧ (s.chanter (13 : Fin 48)).startTick + 16000 ≤ s.tick ∧ s.boot.phase ≠ .bringup ∧
    (s.quarter ((13 : Fin 48).val / 12)).inReset = false := by decide +kernel
theorem witness_rails : let s := rdy fun s => { s with clk := { s.clk with railWait := true }, pwr := { s.pwr with vcore := [(0, 705), (1, 700), (2, 695), (3, 700)], vtarget := [(0, 700), (1, 700), (2, 700), (3, 700)] } }
    s.clk.railWait = true ∧ railsSettled s = true ∧ s.boot.phase ≠ .bringup := by decide +kernel
/-- A move from the code of P2 towards the code of a point. -/
def moveS (target : BitVec 3) : State :=
  { chS { Chanter.init with state := .locked, code := 768 } 800 with clk := { Clk.init with moving := true, code := 768, target := target } }
theorem witness_step_issue : (moveS 3).clk.moving = true ∧ (moveS 3).clk.railWait = false ∧ (moveS 3).tick % 800 = 0 ∧
    (moveS 3).clk.code ≠ pointCode (moveS 3).clk.target.toNat ∧ passed (moveS 3) (moveS 3).clk.lastStep 800 = true ∧ clkPaused (moveS 3) = false ∧
    Sparse.wf Chanter.init (moveS 3).chanters = true ∧ (moveS 3).clk.code.toNat < (pointCode (moveS 3).clk.target.toNat).toNat ∧
    (pointCode (moveS 1).clk.target.toNat).toNat < (moveS 1).clk.code.toNat ∧ ((moveS 3).chanter 13).state = .locked ∧
    ((moveS 3).chanter 13).pend = [] ∧ within ((moveS 3).chanter 13).code.toNat 772 4 = true := by decide +kernel
theorem witness_beat : let s : State := { chS { Chanter.init with state := .locked, code := 768, pend := [(772, 0, 0, false)] } 512 with clk := { Clk.init with firstLock := some 0 } }
    isBeat s = true ∧ s.clk.lastBeat ≠ some s.tick ∧ Sparse.wf Chanter.init s.chanters = true ∧
    (s.chanter 13).pend = [(772, 0, 0, false)] ∧ 0 < s.tick ∧ (s.zone 13).level = 0 := by decide +kernel
/-- A READY region whose zone 13 is c, its chanter LOCKED. -/
def zoneS (c : ZoneClk) : State := rdy fun s => { s with zones := [(13, c)], chanters := [(13, { Chanter.init with state := .locked })] }
theorem witness_cycle : chanterRuns ((zoneS ZoneClk.init).chanter (13 : Fin 48)) = true ∧ fenceOut ((zoneS ZoneClk.init).fenceWord (13 : Fin 48)) = false ∧
    ((zoneS { ZoneClk.init with running := true, kind := .advance }).zone (13 : Fin 48)).kind = .advance ∧
    ((zoneS { ZoneClk.init with running := true, kind := .advance }).zone (13 : Fin 48)).running = true ∧
    ((zoneS ZoneClk.init).zone (13 : Fin 48)).running = false := by decide +kernel
theorem witness_stretch : ((zoneS { ZoneClk.init with l3run := 17 }).zone (13 : Fin 48)).l3run = 17 ∧
    ((zoneS { ZoneClk.init with l3run := 17 }).zone (13 : Fin 48)).l3seen = false ∧ ((zoneS { ZoneClk.init with l3run := 16 }).zone (13 : Fin 48)).l3run ≤ 16 := by
  decide +kernel
theorem witness_slip : let s := zoneS { ZoneClk.init with running := true, cycles := 64 }
    (s.zone (13 : Fin 48)).running = true ∧ s.quarterRuns ((13 : Fin 48).val / 12) = true ∧ (s.zone (13 : Fin 48)).cycles ≠ 0 ∧
    (s.zone (13 : Fin 48)).cycles % 64 = 0 := by decide +kernel
theorem witness_reconcile : let s : State := { zoneS { ZoneClk.init with running := true } with tick := 128, str := { Str.init with seen := [(13, 9)] } }
    s.tick % 128 = 0 ∧ (127 : Nat) % 128 ≠ 0 ∧ tQuarter s 1 ≠ none ∧ tQuarter s 0 = none ∧ tQuarter s 2 = none ∧ tQuarter s 3 = none := by decide +kernel
theorem witness_load : let s := withClk fun c => { c with arm := true, firstLock := some 0, force := true }
    s.clk.arm = true ∧ s.clk.firstLock.isSome = true ∧ s.boot.phase = .ready ∧ s.clk.force = true ∧ s.boot.phase ≠ .bringup ∧
    (withClk fun c => { c with arm := true, firstLock := some 0 }).clk.force = false ∧ bit (0x4 : Word) 1 = false ∧ readyState.clk.arm = false := by decide +kernel
theorem witness_stamp : let s : State := { withClk (fun c => { c with firstLock := some 1, slewLeft := -1 }) with tick := 1025 }
    s.clk.firstLock = some 1 ∧ (s.tick - 1) % 1024 = 0 ∧ s.clk.lastStamp ≠ some s.tick ∧ s.clk.slewLeft < 0 ∧
    ((zoneS { ZoneClk.init with delay := 2 }).zone 13).delay ≠ 0 := by decide +kernel
/-- Quarter 1 halted, its unfenced zones LOCKED, its alignment a. -/
def alignS (a : AlignRec) (tick : Nat) : State := rdy fun s =>
  { s with quarters := [(1, { Quarter.init with inReset := false, halted := true })], tick := tick, clk := { s.clk with firstLock := some 0 },
           chanters := (List.range 12).map fun i => (12 + i, { Chanter.init with state := .locked }), str := { Str.init with al := [(1, a)] } }
theorem witness_align : let s := alignS AlignRec.init 0
    quarterHalted s (1 : Fin 4) = true ∧ (s.quarter (1 : Fin 4)).inReset = false ∧ (s.align (1 : Fin 4)).phase = 0 ∧
    (alZones s (1 : Fin 4)).all (fun z => (s.chanter z).state == .locked) = true := by decide +kernel
theorem witness_align_begin : let s := alignS { AlignRec.init with phase := 1 } 512
    (s.align (1 : Fin 4)).phase = 1 ∧ isBeat s = true ∧
    (alZones s (1 : Fin 4)).all (fun z => (s.chanter z).state == .locked && !(s.zone z).running) = true := by decide +kernel
theorem witness_align_set : let s := alignS { AlignRec.init with phase := 2, begun := 512 } 1024
    (s.align (1 : Fin 4)).phase = 2 ∧ s.tick = (s.align (1 : Fin 4)).begun + 512 ∧ zoneNext 12 1 = some 13 ∧
    (alZones s (1 : Fin 4)).contains 12 = true ∧ (alZones s (1 : Fin 4)).contains 13 = true := by decide +kernel
theorem witness_align_release : let s (bad : List Nat) (fw : Bool) := alignS { AlignRec.init with phase := 3, begun := 512, bad := bad, firmware := fw } 34304
    ((s [] true).align (1 : Fin 4)).phase = 3 ∧ (s [] true).tick = ((s [] true).align (1 : Fin 4)).begun + 66 * 512 ∧
    ((s [48] true).align (1 : Fin 4)).bad ≠ [] ∧ ((s [48] true).align (1 : Fin 4)).fails = 0 ∧ ((s [] false).align (1 : Fin 4)).firmware = false ∧
    ((s [] false).quarter (1 : Fin 4)).lockHalt = false ∧ bit (s [] false).pwr.quiesced 1 = false ∧ ((s [] false).quarter (1 : Fin 4)).replay = none := by
  decide +kernel

theorem witness_margin : (300 : Int) ≤ 300 ∧ (299 : Int) < 300 ∧ passed readyState (readyState.trim ((13 : Fin 48).val / 12)).raiseTick (60 * 800000000) = true ∧
    (readyState.trim ((13 : Fin 48).val / 12)).ageAdded.toNat < 20 ∧ (readyState.trim ((13 : Fin 48).val / 12)).worn = false ∧
    sget 0 readyState.pst.writes (0x40 + (13 : Fin 48).val / 12) < 100000 ∧ readyState.clk.moving = false ∧ clkPaused readyState = false := by decide +kernel
/-- A READY region whose quarter 1 has trim t, at a tick. -/
def trimS (t : Trim) (tick : Nat) : State := rdy fun s => { s with trims := [(1, t)], tick := tick }
theorem witness_trim : let s := trimS { Trim.init with guard_ := 35, held := [(7, 100000)], slack := [(7, some 600)] } hourTicks
    (s.trim (1 : Fin 4)).hourTick + hourTicks ≤ s.tick ∧ 35 ≤ (s.trim (1 : Fin 4)).guard_.toNat ∧ (s.trim (1 : Fin 4)).raised = false ∧
    (s.trim (1 : Fin 4)).worn = false ∧ (s.trim (1 : Fin 4)).lowering = false ∧ (s.trim (1 : Fin 4)).lowerDue = false ∧ (s.trim (1 : Fin 4)).raiseDue = false ∧
    slackOk (s.trim (1 : Fin 4)) = true ∧ (s.trim (1 : Fin 4)).held ≠ [] ∧ sget 0 s.pst.writes (0x40 + (1 : Fin 4).val) < 100000 ∧ readyState.tick < (readyState.trim (1 : Fin 4)).hourTick + hourTicks := by decide +kernel

theorem witness_clk_writable : Writable (chS Chanter.init 0) (0x10100 + 8 * (13 : Fin 48).val) ∧ Untouched readyState 0x10004 ∧ Writable readyState 0x10030 ∧
    (∀ a t, Writable (alignS a t) 0x20004) :=
  ⟨⟨rfl, rfl, rfl⟩, ⟨rfl, rfl⟩, writable_of _, fun _ _ => ⟨rfl, rfl, rfl⟩⟩
theorem witness_step_whole : tooFar (moveS 3) (BitVec.ofNat 11 (min (pointCode (moveS 3).clk.target.toNat).toNat ((moveS 3).clk.code.toNat + 4))) = none ∧
    takesStep ((moveS 3).chanter 13) = true := by decide +kernel
/-- A chanter that has kept a code 8 below the region's. -/
theorem witness_step_rejected : let s := { moveS 3 with chanters := [(13, { Chanter.init with state := .locked, code := 760 })] }
    (tooFar s (BitVec.ofNat 11 (min (pointCode s.clk.target.toNat).toNat (s.clk.code.toNat + 4)))).isSome = true ∧ takesStep (s.chanter 13) = true := by
  decide +kernel
theorem witness_beat_old : (0 : Nat) < (chS { Chanter.init with state := .locked } 512).tick ∧
    ((chS { Chanter.init with state := .locked } 512).chanter 13).lockTick ≠ some 512 := by decide +kernel
theorem witness_cycle_report : reportDue (zoneS ZoneClk.init) (13 : Fin 48) = false ∧ (16 : Nat) < ((zoneS { ZoneClk.init with l3run := 17 }).zone (13 : Fin 48)).l3run := by
  decide +kernel
theorem witness_load_untouched : (withClk fun c => { c with arm := true }).wroteTo 0x10030 = false := by decide +kernel
/-- Quarter 0's zone 2 runs beside zone 12 of the quarter that is aligned. -/
theorem witness_align_edge : let s := { alignS { AlignRec.init with phase := 2, begun := 512 } 1024 with zones := [(2, { ZoneClk.init with running := true })] }
    zoneNext 12 3 = some 2 ∧ (alZones s (1 : Fin 4)).contains 12 = true ∧ (alZones s (1 : Fin 4)).contains 2 = false ∧ (s.zone 2).running = true := by decide +kernel
theorem witness_align_quiet : ((alignS { AlignRec.init with phase := 3, firmware := true } 0).quarter (1 : Fin 4)).replay = none ∧
    ((alignS { AlignRec.init with phase := 3 } 0).quarter (1 : Fin 4)).inReset = false := by decide +kernel

/-- A reading at the threshold of level 2 asserts levels 1 and 2 alone; one 5 points below it then releases levels 2 and 3, one 4 points below it level 3 alone. -/
theorem test_droop_levels : let n := droopLevel (readyState.zone 13).cons 2
    let after (c : Instr) (s : State) : List Bool := match exec c s with
      | .next t => [bit (t.zone 13).d1 3, bit (t.zone 13).d2 3, bit (t.zone 13).d3 3]
      | _ => []
    let all := zoneS { ZoneClk.init with d1 := 8, d2 := 8, d3 := 8 }
    after (.droopAssert 13 3 n) readyState = [true, true, false] ∧ after (.droopDeassert 13 3 (n - 5)) all = [true, false, false] ∧
    after (.droopDeassert 13 3 (n - 4)) all = [true, true, false] := by decide +kernel
theorem witness_align_edge_out : let s := { alignS { AlignRec.init with phase := 2, begun := 512 } 1024 with
      quarters := [(0, { Quarter.init with inReset := false }), (1, { Quarter.init with inReset := false, halted := true })] }
    (s.quarter (1 : Fin 4)).inReset = false ∧ (s.quarter (2 / 12)).inReset = false := by decide +kernel
/-- A READY region with one registered hint, whose descriptor 4 of queue 3 is open or not. -/
def hintS (open_ : List Nat) (tick : Nat) : State := rdy fun s =>
  { s with pwr := { s.pwr with hintq := [⟨3, 0, some 0, none, 3, 4⟩] }, cmdq := [(3, { CmdQ.init with open_ := open_ })], tick := tick }
theorem witness_hint : (hintS [] 0).pwr.hintq[(0 : Fin 16).val]? = some ⟨3, 0, some 0, none, 3, 4⟩ ∧ 4 ∉ ((hintS [] 0).queue 3).open_ ∧
    4 ∈ ((hintS [4] 7999999).queue 3).open_ ∧ (hintS [4] 7999999).tick < 0 + 8000000 ∧ 0 + 8000000 ≤ (hintS [4] 8000000).tick := by decide +kernel
theorem witness_margin_report : (299 : Int) < 300 ∧ passed readyState (readyState.trim ((0 : Fin 48).val / 12)).raiseTick (60 * 800000000) = true ∧
    (readyState.trim ((0 : Fin 48).val / 12)).ageAdded.toNat < 20 ∧ (readyState.trim ((0 : Fin 48).val / 12)).worn = false ∧
    sget 0 readyState.pst.writes (0x40 + (0 : Fin 48).val / 12) < 100000 ∧ readyState.clk.moving = false ∧ clkPaused readyState = false := by decide +kernel
theorem witness_trim_lower : let s : State := rdy fun s => { s with tick := hourTicks, trims := [(0, { Trim.init with guard_ := 35 })] }
    s.boot.phase = .ready ∧ (s.trim (0 : Fin 4)).hourTick + hourTicks ≤ s.tick ∧ 35 ≤ (s.trim (0 : Fin 4)).guard_.toNat ∧
    (s.trim (0 : Fin 4)).raised = false ∧ (s.trim (0 : Fin 4)).worn = false ∧ (s.trim (0 : Fin 4)).lowering = false ∧
    (s.trim (0 : Fin 4)).lowerDue = false ∧ (s.trim (0 : Fin 4)).raiseDue = false ∧ slackOk (s.trim (0 : Fin 4)) = true ∧
    sget 0 s.pst.writes (0x40 + (0 : Fin 4).val) < 100000 ∧ readyState.tick < (readyState.trim (0 : Fin 4)).hourTick + hourTicks := by decide +kernel
theorem witness_need : let s : State := { readyState with tick := 80000 }
    s.tick % 80000 = 0 ∧ s.pwr.needTick ≠ some s.tick ∧ s.boot.phase = .ready := by decide +kernel
theorem witness_sample : let s : State := rdy fun s => { s with tick := 8000, pwr := { s.pwr with vInt := true } }
    s.tick % 8000 = 0 ∧ s.pwr.sampleTick ≠ some s.tick ∧ s.pwr.vInt = true ∧ readyState.pwr.vInt = false := by decide +kernel
theorem witness_vin_warn : let s := rdy fun s => { s with pwr := { s.pwr with vinHigh := true }, clk := { s.clk with point := 1 } }
    s.pwr.vinWarn = false ∧ s.pwr.vinHigh = true ∧ 0 < s.clk.point.toNat ∧ movesAllowed s = true ∧
    (rdy fun s => { s with pwr := { s.pwr with vinWarn := true } }).pwr.vinWarn = true := by decide +kernel
/-- A region at P0 that moves up to P1. -/
theorem witness_vin_warn_move : let s := rdy fun s => { s with clk := { s.clk with moving := true, point := 0, target := 1 } }
    s.clk.point = 0 ∧ 0 < aimPoint s ∧ movesAllowed s = true := by decide +kernel
theorem witness_calib : 0 ≤ readyState.pwr.k := by decide +kernel
theorem witness_thermal : (List.replicate 64 (1680 : BitVec 16)).length = 64 ∧ 1680 ≤ ((List.replicate 64 (1680 : BitVec 16)).getD (16 * 3 + 15) 0).toInt ∧
    atBoundary readyState 3 = true ∧ (readyState.quarter 3).inReset = false ∧ readyState.pwr.quiesceDue = 0 ∧
    ((List.replicate 64 (1679 : BitVec 16)).all fun r => decide (r.toInt < 1680)) = true := by decide +kernel
theorem witness_trip_sample : 1840 ≤ ((List.replicate 64 (1840 : BitVec 16)).getD 63 0).toInt := by decide
theorem witness_resume : let s := rdy fun s => { s with tick := 8000000, pwr := { s.pwr with quiesced := 2, coolSince := [(1, some 0)] } }
    bit s.pwr.quiesced (1 : Fin 4) = true ∧ cooled s (1 : Fin 4) = true ∧ (s.quarter (1 : Fin 4)).inReset = false ∧ (s.align (1 : Fin 4)).phase = 0 := by
  decide +kernel

/-- A READY region whose weight stack 0 is w. -/
def wsS (w : Ws) : State := rdy fun s => { s with ws := [(0, w)] }
theorem witness_wear : let s : State := { wsS { Ws.init 0 with wearTick := 0 } with tick := 168 * hourTicks }
    (s.wst (0 : Fin 8)).wearTick + 168 * hourTicks ≤ s.tick ∧ ((s.wst (0 : Fin 8)).wearBlock = 1 ∨ (s.wst (0 : Fin 8)).wearBlock = 2) ∧
    readyState.tick < 0 + 168 * hourTicks ∧ readyState.pwr.ageTick + hourTicks ≤ hourTicks ∧ readyState.tick < readyState.pwr.ageTick + hourTicks := by
  decide +kernel
/-- Page 3 of weight stack 0 in its refresh from block 20 to block 21, the page table naming block b; the partner is SEALED in the mirrored layout or not there. -/
def refS (copied mirrored : Bool) (b : Nat) : State := rdy fun s =>
  { s with ws := [(0, { Ws.init 0 with
      refresh := some ⟨3, 20, 21, copied⟩, table := [(3, b)], image := 1, manifest := some manifestM })] ++
    (if mirrored then [(1, { Ws.init 1 with
      image := 1, manifest := some manifestM, table := [(3, 30)] })] else []) }
theorem witness_copy : ((refS false true 20).wst (0 : Fin 8)).refresh = some ⟨3, 20, 21, false⟩ ∧ ((refS false true 20).wst (0 : Fin 8)).commit = none ∧
    partnerServes (refS false false 20) (0 : Fin 8) = false ∧ partnerServes (refS false true 20) (0 : Fin 8) = true ∧
    sget 0 ((refS false true 20).wst (partner (0 : Fin 8))).table 3 ≠ 0 := by decide +kernel
theorem witness_remap : ((refS true false 20).wst (0 : Fin 8)).refresh = some ⟨3, 20, 21, true⟩ ∧ atBoundary (refS true false 20) ((0 : Fin 8).val / 2) = true ∧
    ((refS true false 20).wst (0 : Fin 8)).commit = none ∧ sget 0 ((refS true false 20).wst (0 : Fin 8)).table 3 = 20 ∧
    sget 0 ((refS true false 25).wst (0 : Fin 8)).table 3 ≠ 20 ∧
    atBoundary (rdy fun s => { s with svc := [(0, { Svc.init with state := .serving, qmask := 1, stepping := true, table := (1 : BitVec 1536) <<< (8 * 84) })] })
      ((0 : Fin 8).val / 2) = false := by decide +kernel
theorem witness_ks_upkeep : let s : State := rdy fun s => { s with ks := [(2, { Ks.init 2 with trained := true })] }
    (s.kst (2 : Fin 4)).trained = true ∧ s.tick < (s.kst (2 : Fin 4)).scrubTick + 24 * hourTicks ∧
    (s.kst (2 : Fin 4)).scrubTick + 24 * hourTicks ≤ 24 * hourTicks := by decide +kernel
/-- A manifest in host memory: FORMAT 1, SEQ 3, image 1 of one row of zeros, signed by the key of slot 0. -/
def headV : Nat := 1 + 3 * 2 ^ 32 + 2 ^ 64 + 2 ^ 128 + 2 ^ 192
def digV : Nat := 0xbedeb6978ebaba4a4c8869036162440c1b287320bce48f3c8b381a70c3f2133ad2c099709326686c637c453b8daa16c5
/-- SHA-384 of its signed part, the bytes of r and of s both. -/
def sigV : Nat := 0xbfad18773a2e751717634aa28b7e92084fae4de95321d172a3dc4def8fc42329c12737a1ea065cbb6b616566d70724e3
def keyV : Nat := 0x8cddd54696bd6b9b57aa6d9590d60cd43407c04eb9f1d711d9eae8b72cd08b05115f3b267aefe004f4a3f7f1909e621803
def sigBytes : Nat := beNat (beBytes sigV 48 ++ beBytes sigV 48).reverse
/-- The page of one row of zeros has that digest. -/
theorem test_zero_row : (sha384 (List.replicate 64 0)).toNat = digV := by decide +kernel
/-- A STACK_COMMIT for stack 0 of the given kind at the head of queue 3, its manifest at host address 4096 and its data at 65536, with page list address 32768 of n pages. -/
def commitRow (kind n : Nat) : Row := BitVec.ofNat 512 (6 + kind * 2 ^ 104 + 4096 * 2 ^ 128 + 65536 * 2 ^ 192 + 32768 * 2 ^ 256 + n * 2 ^ 320)
def commitS (kind n : Nat) (sig : Nat) (w : Ws) : State :=
  { withQ { CmdQ.init with enable := true, ready := [⟨0, commitRow kind n⟩], open_ := [0] } with
    ws := [(0, w)], fw := { readyState.fw with enabled := 1 },
    host := writeNat (writeNat (writeNat [] 4096 headV 28) 4224 sig 96) 4352 digV 48,
    pst := { readyState.pst with words := (List.range 13).map fun i => (0x48 + i, BitVec.ofNat 32 (keyV / 2 ^ (32 * i))) } }
theorem witness_commit : nextCommit (commitS 0 0 0 (Ws.init 0)) (0 : Fin 8) 0 = some (3, ⟨0, commitRow 0 0⟩) ∧
    nextCommit (commitS 1 1 0 (Ws.init 0)) (0 : Fin 8) 1 = some (3, ⟨0, commitRow 1 1⟩) ∧
    nextCommit (commitS 2 0 0 (Ws.init 0)) (0 : Fin 8) 2 = some (3, ⟨0, commitRow 2 0⟩) ∧
    ((commitS 0 0 0 (Ws.init 0)).quarter ((0 : Fin 8).val / 2)).inReset = false := by decide +kernel
/-- The manifest that a commit of these tests reads. -/
def manV (s : State) : Manifest := readManifest s 4096
theorem witness_full : let s := commitS 0 0 sigBytes (Ws.init 0)
    commitError (takeCommit s 3 ⟨0, commitRow 0 0⟩) 0 0 (manV s) [] = 0 := by decide +kernel
theorem witness_full_rejected : let s := commitS 0 0 0 (Ws.init 0)
    commitError (takeCommit s 3 ⟨0, commitRow 0 0⟩) 0 0 (manV s) [] ≠ 0 := by decide +kernel
/-- A SEALED stack under an older manifest of the same image. -/
def sealedW : Ws := { Ws.init 0 with
  image := 1, manifest := some ⟨1, 2, 1, 1, 1, 0, 0, 0, 0, 0, [0]⟩ }
theorem witness_delta : let s := commitS 1 1 sigBytes sealedW
    commitError (takeCommit s 3 ⟨0, commitRow 1 1⟩) 0 1 (manV s) [0] = 0 := by decide +kernel
theorem witness_delta_rejected : let s := commitS 1 1 0 sealedW
    commitError (takeCommit s 3 ⟨0, commitRow 1 1⟩) 0 1 (manV s) [0] ≠ 0 := by decide +kernel
/-- A stack with a journal record at position 1 under the manifest of these tests. -/
def journalW : Ws := { Ws.init 0 with
  image := 2, jValid := true, journal := [⟨1, manifestDigest (manV (commitS 2 0 sigBytes (Ws.init 0))), HashSt.start, true⟩] }
theorem witness_resume_commit : let s := commitS 2 0 sigBytes journalW
    commitError (takeCommit s 3 ⟨0, commitRow 2 0⟩) 0 2 (manV s) [] = 0 ∧ (∀ j ∈ commitStacks (0 : Fin 8) (manV s).layout, resumeRoom (s.wst j) = true) := by
  decide +kernel
/-- The same stack with every data block mapped. -/
def fullW (w : Ws) : Ws := { w with blocks := (List.range' 6 2426).map fun i => (i, { Block.init with use := 1 }) }
theorem sget_range_of {α : Type} (d v : α) (n a k : Nat) (h : a ≤ k) (h2 : k < a + n) : sget d ((List.range' a n).map fun i => (i, v)) k = v := by
  induction n generalizing a with
  | zero => omega
  | succ n ih =>
    by_cases e : a = k
    · simp [List.range'_succ, sget, e]
    · simp only [List.range'_succ, List.map_cons, sget, e, if_false]
      exact ih (a + 1) (by omega) (by omega)
theorem full_free_of (w : Ws) (h : w.blocks = (fullW w).blocks) : freeBlocks w = [] := by
  rw [freeBlocks, List.filter_eq_nil_iff, h]
  intro b hb
  simp only [dataBlocks, upto, List.mem_map, List.mem_range] at hb
  obtain ⟨i, hi, rfl⟩ := hb
  rw [fullW, sget_range_of _ _ _ _ _ (by omega) (by omega)]
  decide
theorem witness_resume_full : let s := commitS 2 0 sigBytes (fullW journalW)
    commitError (takeCommit s 3 ⟨0, commitRow 2 0⟩) 0 2 (manV s) [] = 0 ∧ commitStacks (0 : Fin 8) (manV s).layout = [0] := by decide +kernel
theorem witness_resume_room : resumeRoom ((commitS 2 0 sigBytes (fullW journalW)).wst 0) = false := by
  have h : freeBlocks (dropLater (fullW journalW) (15625000 * (lastRecord (fullW journalW)).k / 1048576)) = [] := full_free_of _ rfl
  show decide (8 < (freeBlocks (dropLater (fullW journalW) (15625000 * (lastRecord (fullW journalW)).k / 1048576))).length) = false
  rw [h]; rfl
theorem witness_resume_rejected : let s := commitS 2 0 sigBytes (Ws.init 0)
    commitError (takeCommit s 3 ⟨0, commitRow 2 0⟩) 0 2 (manV s) [] ≠ 0 := by decide +kernel
/-- A manifest of some rows, in one layout. -/
def manS (rows : Nat) (digests : List (BitVec 384)) : Manifest :=
  { format := 1, seq := 1, imageId := 1, rows := BitVec.ofNat 64 rows, pages := 1, layout := 0, keySlot := 0, head := 0, sig := 0, tail := 0, digests := digests }
/-- A commit of a kind in progress, its data in host memory. -/
def comS (kind : BitVec 2) (m : Manifest) : Commit :=
  { kind := kind, manifest := m, table := [(0, 40)], taken := [40], src := false, addr := 0, base := 0, pos := 0, hash := HashSt.start, list := [0], queue := 3, seq := 0 }
/-- Stack 0 in such a commit. -/
def comW (c : Commit) : Ws := { Ws.init 0 with
  commit := some c, op := 1 }
theorem witness_journal : let c := comS 0 (manS 15625000 [])
    leadCommit (wsS (comW c)) (0 : Fin 8) = some c ∧ c.kind ≠ 1 ∧ 15625000 * (c.pos + 1) ≤ c.manifest.rows.toNat ∧
    (sourceRead (wsS (comW c)) ((0 : Fin 8).val / 2) c.src true ⟨0, 0⟩).1 = true := by decide +kernel
theorem program_space_of (s : State) (k : Nat) (c : Commit) (a b : Nat) (h : a < b) (ht : (s.wst k).table = []) (hf : takeBlock (s.wst k) 8 = none) :
    programRows s k c a b = none := by
  rw [programRows, if_neg (by omega), upto, List.range_succ_eq_map, List.map_cons, List.foldlM_cons]
  simp only [ht, sget, hf]
  rfl
theorem program_all_space_of (s : State) (k : Nat) (c : Commit) (a b : Nat) (hl : commitStacks k c.manifest.layout = [k]) (h : a < b)
    (ht : (s.wst k).table = []) (hf : takeBlock (s.wst k) 8 = none) : (programAll s k c a b).1 = 5 := by
  simp only [programAll, hl, List.foldlM_cons, program_space_of s k c a b h ht hf]
  rfl
theorem take_full_of (w : Ws) (h : w.blocks = (fullW w).blocks) : takeBlock w 8 = none := by
  rw [takeBlock, full_free_of w h]; rfl
theorem witness_journal_space : let c := comS 0 (manS 15625000 [])
    let s := wsS { fullW (comW c) with table := [] }
    (programAll (sourceRead s ((0 : Fin 8).val / 2) c.src true ⟨0, 0⟩).2 (0 : Fin 8) c (15625000 * c.pos) (15625000 * (c.pos + 1))).1 ≠ 0 := by
  intro c s h
  have e := program_all_space_of s 0 c 0 15625000 rfl (by decide) rfl (take_full_of _ rfl)
  exact absurd (e.symm.trans h) (by decide)
theorem program_mapped_of (s : State) (k : Nat) (c : Commit) (a b : Nat)
    (h : ∀ p, p ≤ (b - 1) / 1048576 → sget 0 (s.wst k).table p ≠ 0) : ∃ t, programRows s k c a b = some t := by
  rw [programRows]
  split
  · exact ⟨_, rfl⟩
  · next hb =>
    have hl : ∀ p ∈ (upto ((b - 1) / 1048576 - a / 1048576 + 1)).map (a / 1048576 + ·), sget 0 (s.wst k).table p ≠ 0 := by
      intro p hp
      simp only [upto, List.mem_map, List.mem_range] at hp
      obtain ⟨i, hi, rfl⟩ := hp
      exact h _ (by have : a / 1048576 ≤ (b - 1) / 1048576 := Nat.div_le_div_right (by omega)
                    omega)
    revert hl
    generalize (upto ((b - 1) / 1048576 - a / 1048576 + 1)).map (a / 1048576 + ·) = l
    induction l generalizing s with
    | nil => exact fun _ => ⟨_, rfl⟩
    | cons p l ih =>
      intro hl
      rw [List.foldlM_cons]
      obtain ⟨m, e⟩ := Nat.exists_eq_succ_of_ne_zero (hl p (by simp))
      simp only [e]
      exact ih _ (fun p hq => by simpa [State.modWs, State.wst, sget_smod_same] using h p hq) (fun q hq => by simpa [State.modWs, State.wst, sget_smod_same] using hl q (by simp [hq]))
/-- Digests of 14 pages of zeros, by the hash that a commit forms. -/
def zeroDig (p : Nat) : BitVec 384 := (HashSt.start.absorb (memBytes [] (67108864 * p) 67108864)).finish
def jC : Commit := comS 0 (manS 2500000000 ((List.range' 0 14).map zeroDig))
theorem foldl_fst_of {α β : Type} (f : Bool × α → β → Bool × α) (l : List β) (h : ∀ p ∈ l, ∀ x, (f (true, x) p).1 = true) (x : α) :
    (l.foldl f (true, x)).1 = true := by
  induction l generalizing x with
  | nil => rfl
  | cons p l ih =>
    have e : f (true, x) p = (true, (f (true, x) p).2) := Prod.ext (h p (by simp) x) rfl
    rw [List.foldl_cons, e]
    exact ih (fun q hq => h q (by simp [hq])) _
theorem hash_zero_of (s : State) (hs : s.host = []) (k : Nat) : (hashRows s k jC 0 15625000).1 = true := by
  refine foldl_fst_of _ _ ?_ _
  intro p hp h
  have hp : p < 15 := by
    simp only [List.mem_filter, upto, List.mem_range] at hp
    exact lt_of_lt_of_le hp.1 (by decide)
  have e1 : max 0 (1048576 * p) = 1048576 * p := by omega
  have e2 : jC.addr + 64 * (1048576 * p - jC.base) = 67108864 * p := by show 0 + 64 * (1048576 * p - 0) = _; omega
  have e3 : pageRows jC.manifest p = 1048576 := by show min 1048576 (2500000000 - 1048576 * p) = 1048576; omega
  simp only [e1, e2, e3, if_true]
  by_cases h14 : p < 14
  · have e4 : 64 * (min 15625000 (1048576 * (p + 1)) - 1048576 * p) = 67108864 := by omega
    have e5 : nth 0 jC.manifest.digests p = zeroDig p := by
      show nth 0 ((List.range' 0 14).map zeroDig) p = zeroDig p
      simp [nth, h14]
    have e6 : sourceMem s (k / 2) jC.src (67108864 * p) 67108864 = [] := hs
    rw [e4, e5, e6, if_pos (by omega)]
    simp [zeroDig]
  · rw [if_neg (by omega)]
theorem witness_journal_programs : let s := wsS { comW jC with table := (List.range' 0 15).map fun i => (i, 40) }
    leadCommit s (0 : Fin 8) = some jC ∧ 15625000 * (jC.pos + 1) ≤ jC.manifest.rows.toNat ∧
    (sourceRead s ((0 : Fin 8).val / 2) jC.src true ⟨0, 0⟩).1 = true ∧
    (programAll (sourceRead s ((0 : Fin 8).val / 2) jC.src true ⟨0, 0⟩).2 (0 : Fin 8) jC (15625000 * jC.pos) (15625000 * (jC.pos + 1))).1 = 0 := by
  intro s
  have hs : s.host = [] := rfl
  have hj : leadCommit s 0 = some jC := rfl
  refine ⟨hj, by decide, rfl, ?_⟩
  obtain ⟨t, ht⟩ := program_mapped_of s 0 jC 0 15625000 (fun p hp => by
    show sget 0 ((List.range' 0 15).map fun i => (i, 40)) p ≠ 0
    rw [sget_range_of _ _ _ _ _ (by omega) (by omega)]; decide)
  show (programAll s 0 jC 0 15625000).1 = 0
  have hc : commitStacks 0 jC.manifest.layout = [0] := rfl
  simp [programAll, hc, ht, hash_zero_of s hs 0]
theorem witness_seal : let c := comS 2 (manS 15624999 [])
    leadCommit (wsS (comW c)) (0 : Fin 8) = some c ∧ c.kind ≠ 1 ∧ c.manifest.rows.toNat < 15625000 * (c.pos + 1) ∧
    (if 15625000 * c.pos < c.manifest.rows.toNat then sourceRead (wsS (comW c)) ((0 : Fin 8).val / 2) c.src true ⟨0, 0⟩ else (true, wsS (comW c))).1 = true := by
  decide +kernel
/-- The commit of the signed manifest whose one row is in host memory. -/
def sealS (sig : Nat) : State :=
  { commitS 0 0 sig (Ws.init 0) with ws := [(0, comW { comS 0 (manV (commitS 0 0 sig (Ws.init 0))) with addr := 65536 })] }
def sealC (sig : Nat) : Commit := { comS 0 (manV (commitS 0 0 sig (Ws.init 0))) with addr := 65536 }
theorem witness_seal_verifies : let r := programAll (sealS sigBytes) (0 : Fin 8) (sealC sigBytes) 0 1
    leadCommit (sealS sigBytes) (0 : Fin 8) = some (sealC sigBytes) ∧ (sealC sigBytes).manifest.rows.toNat = 1 ∧
    r.1 = 0 ∧ manifestVerifies r.2 (sealC sigBytes).manifest = true ∧ activeCopy ((sealS sigBytes).wst 0) = 0 := by decide +kernel
theorem witness_seal_fails : let r := programAll (sealS 0) (0 : Fin 8) (sealC 0) 0 1
    leadCommit (sealS 0) (0 : Fin 8) = some (sealC 0) ∧ r.1 = 0 ∧ manifestVerifies r.2 (sealC 0).manifest = false := by decide +kernel
/-- A data source in the work stack of the quarter, which is not trained. -/
theorem witness_seal_unread : let c := { comS 2 (manS 1 []) with src := true }
    leadCommit (wsS (comW c)) (0 : Fin 8) = some c ∧ 15625000 * c.pos < c.manifest.rows.toNat ∧ c.manifest.rows.toNat < 15625000 * (c.pos + 1) ∧
    (sourceRead (wsS (comW c)) ((0 : Fin 8).val / 2) c.src true ⟨0, 0⟩).1 = false := by decide +kernel
/-- A manifest that lists a wrong digest for its page. -/
theorem witness_seal_digest : let c := comS 0 (manS 1 [7])
    leadCommit (wsS (comW c)) (0 : Fin 8) = some c ∧ (sourceRead (wsS (comW c)) ((0 : Fin 8).val / 2) c.src true ⟨0, 0⟩).1 = true ∧
    (programAll (sourceRead (wsS (comW c)) ((0 : Fin 8).val / 2) c.src true ⟨0, 0⟩).2 (0 : Fin 8) c 0 1).1 ≠ 0 := by decide +kernel
theorem witness_delta_switch : let c := comS 1 (manS 64 [])
    let s := wsS { comW c with switchWait := true, table := [(0, 20)] }
    leadCommit s (0 : Fin 8) = some c ∧ c.kind = 1 ∧ (s.wst (0 : Fin 8)).switchWait = true ∧ atBoundary s ((0 : Fin 8).val / 2) = true ∧
    (0, 20) ∈ (s.wst (0 : Fin 8)).table ∧ (0, 20) ∉ (copyAt (s.wst (0 : Fin 8)) (inactiveCopy (s.wst (0 : Fin 8)))).table ∧
    atBoundary { s with svc := [(0, { Svc.init with state := .serving, qmask := 1, stepping := true, table := (1 : BitVec 1536) <<< (8 * 84) })] }
      ((0 : Fin 8).val / 2) = false := by decide +kernel

/-! Supply, bring-up, resets. -/

/-- A region in bring-up at a step. -/
def bootS (step : Nat) (f : State → State) : State :=
  f { State.reset with boot := { Boot.init with phase := .bringup, step := BitVec.ofNat 4 step }, pins := { Pins.init with rstN := true } }
theorem witness_unpowered : ({ State.reset with boot := { Boot.init with phase := .unpowered } } : State).boot.phase = .unpowered ∧
    readyState.boot.phase ≠ .unpowered := by decide +kernel
theorem witness_vin : State.reset.pwr.vinHigh = false ∧ ({ State.reset with pwr := { Pwr.init with vinHigh := true } } : State).pwr.vinHigh = true ∧
    ({ State.reset with pwr := { Pwr.init with vinHigh := true } } : State).pwr.vinGood = false ∧ (bootS 0 id).boot.phase = .bringup ∧ (bootS 0 id).boot.isWarm = false := by
  decide +kernel
theorem witness_trip_valid : let s : State := { State.reset with pwr := { Pwr.init with vinHigh := true, vinTick := some 0 }, tick := 1600000 }
    s.pwr.vinTick = some 0 ∧ 0 + 1600000 ≤ s.tick ∧ State.reset.tick < 0 + 1600000 := by decide +kernel
theorem witness_trip : 1840 ≤ (1840 : BitVec 16).toInt ∧ (1839 : BitVec 16).toInt < 1840 := by decide
theorem witness_bringup : State.reset.boot.phase = .held ∧ State.reset.pins.rstN = false ∧ State.reset.boot.powerFail = false := by decide +kernel
/-- A region that a power-fail holds, whose V_IN_40 came back at tick 0. -/
def failS (rst : Bool) (tick : Nat) : State :=
  { State.reset with
    boot := { Boot.init with phase := .held, powerFail := true }, pins := { Pins.init with rstN := rst },
    pwr := { Pwr.init with vinHigh := true, vinTick := some 0 }, tick := tick }
theorem witness_power_fail : (failS true 800000).boot.phase = .held ∧ (failS true 800000).boot.powerFail = true ∧ (failS true 800000).pins.rstN = true ∧
    vinBack (failS true 800000) = true ∧ vinBack (failS true 799999) = false ∧ (failS false 800000).pins.rstN = false := by decide +kernel
theorem witness_rail : let s := bootS 0 fun s => { s with tick := 1880000, pwr := { s.pwr with softStart := some 0, vIo := true } }
    s.boot.phase = .bringup ∧ s.pwr.softStart = some 0 ∧ 0 + railBound (.vCore 3) ≤ s.tick ∧ railGood s.pwr (.vCore 3) = false ∧
    0 + railBound .vIo ≤ s.tick ∧ railGood s.pwr .vIo = true := by decide +kernel
theorem witness_step_1 : let s := bootS 0 fun s => { s with tick := 16000000 }
    s.boot.phase = .bringup ∧ s.boot.step = 0 ∧ s.boot.startTick + 16000000 ≤ s.tick := by decide +kernel
theorem witness_step_2 : let s := bootS 1 fun s => { s with tick := 16000000, clk := { s.clk with drone := .acquiring } }
    s.boot.step = 1 ∧ s.boot.startTick + 16000000 ≤ s.tick ∧ s.clk.drone = .acquiring := by decide +kernel
theorem witness_step_6 : let s := bootS 5 fun s => { s with tick := 32000000 }
    s.boot.step = 5 ∧ s.boot.stepTick + 32000000 ≤ s.tick := by decide +kernel
theorem witness_step_4 : let s := bootS 3 fun s =>
      { s with tick := 800000, chanters := (List.range 36).map fun i => (12 + i, { Chanter.init with state := .locked }) }
    s.boot.step = 3 ∧ s.boot.qfailed = 0 ∧ s.boot.stepTick + 800000 ≤ s.tick ∧ s.str.al = [] ∧
    (∀ z, z < 12 → fenceOut (s.fenceWord z) = false ∧ (s.chanter z).state ≠ .locked) ∧
    (∀ z, z < 48 → 12 ≤ z → (s.chanter z).state = .locked) := by decide +kernel
theorem witness_step_3 : let s (e : BootEnv) := bootS 2 fun s => { s with tick := 8000000, boot := { s.boot with env := e } }
    (s .good).boot.step = 2 ∧ (s .good).boot.stepTick + 8000000 ≤ (s .good).tick ∧ (s ⟨[], 0, true, true, 0⟩).boot.env.pstLate = true ∧
    (s ⟨[], 0, false, true, 0⟩).boot.env.pstLate = false ∧ (s ⟨[], 0, false, true, 0⟩).boot.env.fwLate = true := by decide +kernel
/-- Quarter 0 is not through with step 4; in step 5 the check has named no quarter. -/
theorem witness_steps_4_5 : let s (n : Nat) (locked : List Nat) := bootS n fun s =>
      { s with tick := 800000, chanters := locked.map fun z => (z, { Chanter.init with state := .locked }) }
    (s 3 (List.range' 12 36)).boot.phase = .bringup ∧ (s 3 (List.range' 12 36)).boot.qfailed ≠ 15 ∧ (s 3 (List.range' 12 36)).boot.step = 3 ∧
    (s 3 (List.range' 12 36)).boot.stepTick + 800000 ≤ (s 3 (List.range' 12 36)).tick ∧
    bootUnready (s 3 (List.range' 12 36)) 0 = true ∧ bootUnready (s 3 (List.range' 12 36)) 1 = false ∧ bit (s 3 (List.range' 12 36)).boot.qfailed 0 = false ∧
    (s 4 (List.range 48)).boot.step = 4 ∧ (liveQuarters (s 4 (List.range 48))).any (bootUnready (s 4 (List.range 48))) = false := by decide +kernel
theorem witness_step_7 : let s := bootS 6 fun s => { s with tick := 72000000, boot := { s.boot with env := ⟨[], 0, false, false, 4⟩ } }
    s.boot.phase = .bringup ∧ s.boot.step = 6 ∧ s.boot.qfailed ≠ 15 ∧ s.boot.stepTick + 72000000 ≤ s.tick ∧ bit s.boot.env.stkLate 2 = true := by decide +kernel
theorem witness_step_8 : let s := bootS 7 fun s => { s with tick := 8000000 }
    s.boot.step = 7 ∧ s.boot.stepTick + 8000000 ≤ s.tick := by decide +kernel
theorem witness_step_early : ∀ x ∈ ([(3, 10), (4, 1), (5, 1), (6, 40), (7, 90)] : List (Nat × Nat)),
    let s := bootS (x.1 - 1) fun s => { s with tick := 800000 * x.2 - 1 }
    s.boot.step.toNat + 1 = x.1 ∧ s.tick < s.boot.stepTick + 800000 * x.2 := by decide +kernel
theorem witness_pulse : readyState.boot.phase ≠ .unpowered ∧ readyState.pins.rstN = true ∧ readyState.boot.powerFail = false ∧
    (failS true 0).boot.phase ≠ .unpowered ∧ (failS true 0).pins.rstN = true ∧ (failS true 0).boot.phase = .held ∧
    (799 : Nat) < 800 ∧ (800 : Nat) ≤ 1199 ∧ (1199 : Nat) < 1200 := by decide +kernel
theorem witness_qreset : bit readyState.boot.qfailed (2 : Fin 4) = false ∧ (readyState.quarter (2 : Fin 4)).inReset = false ∧ readyState.ws = [] ∧
    ∀ k : Fin 8, (readyState.wst k).commit = none := by decide +kernel
theorem witness_reset_writes : Writable readyState 0x40 := writable_of _
theorem witness_qreset_start : let s := rdy fun s => { s with quarters := [(2, { Quarter.init with inReset := true, stage := 1 })], clk := { s.clk with code := 1215 } }
    (s.quarter (2 : Fin 4)).stage = 1 ∧ s.clk.moving = false ∧ fenceOut (s.fenceWord 24) = false ∧ (s.chanter 24).state = .reset ∧
    512 ≤ s.clk.code.toNat ∧ s.clk.code.toNat ≤ 1215 ∧ (readyState.quarter (2 : Fin 4)).stage ≠ 1 := by decide +kernel
theorem witness_step_8_early : let s := bootS 7 fun s => { s with tick := 7999999, links := [(9, { Link.init with state := .training })] }
    s.boot.step = 7 ∧ s.tick < s.boot.stepTick + 8000000 ∧ (s.links.any fun l => l.2.state == .training) = true := by decide +kernel
theorem witness_rail_early : let s := bootS 0 fun s => { s with tick := 799999, pwr := { s.pwr with softStart := some 0 } }
    s.pwr.softStart = some 0 ∧ s.tick < 0 + railBound .vInt := by decide +kernel
/-- A step 3 whose firmware check is late, with and without a bad word that it needs. -/
theorem witness_step_3_bad (w : Fin 4096) : let s := bootS 2 fun s => { s with tick := 8000000, boot := { s.boot with env := ⟨[w], 0, false, true, 0⟩ } }
    s.boot.step = 2 ∧ s.boot.stepTick + 8000000 ≤ s.tick ∧ s.boot.env.pstLate = false ∧ s.boot.env.fwLate = true ∧ s.boot.env.pstBad = [w] :=
  ⟨rfl, (by decide : (0 : Nat) + 8000000 ≤ 8000000), rfl, rfl, rfl⟩
/-- A commit that waited for its quarter's reset, beside a descriptor behind it that holds the queue. -/
theorem witness_commit_beside : let s := withQ { CmdQ.init with
      enable := true, ready := [⟨0, commitRow 0 0⟩], open_ := [0, 1], run := some ⟨⟨1, dRow 8 8 9⟩, 0, 0, 0, [], 0, false, 0⟩ }
    nextCommit s (0 : Fin 8) 0 = some (3, ⟨0, commitRow 0 0⟩) ∧ (s.queue 3).run ≠ none := by decide +kernel
/-- A commit of an exact number of gigabytes, all of them recorded. -/
theorem witness_seal_exact : let c := { comS 2 (manS 15625000 []) with pos := 1 }
    leadCommit (wsS (comW c)) (0 : Fin 8) = some c ∧ c.kind ≠ 1 ∧ c.manifest.rows.toNat < 15625000 * (c.pos + 1) ∧
    (programAll (wsS (comW c)) (0 : Fin 8) c (15625000 * c.pos) c.manifest.rows.toNat).1 = 0 := by decide +kernel

/-! Queues, services, the management port, faults. -/

/-- Queue 3 with one descriptor of the given type waiting. -/
def headS (r : Row) : State := withQ { CmdQ.init with enable := true, ready := [⟨4, r⟩], open_ := [4] }
theorem at_head_of (r : Row) (ty : Nat) (h : dType r = ty ∧ descBad r = false ∧ commitWaits (headS r) r = false) :
    AtHead (headS r) (3 : Fin 64) ty ⟨4, r⟩ [] := by
  refine ⟨rfl, ?_, ?_, rfl, h.1, h.2.1⟩
  · show List.find? (fun d => !commitWaits (headS r) d.row) [(⟨4, r⟩ : Desc)] = _
    simp [h.2.2]
  · show [(⟨4, r⟩ : Desc)].erase _ = []
    simp
/-- Queue 3 held by a descriptor. -/
def runS (r : Row) (phase : Nat) (awaits : List (Nat × Nat)) (tick : Nat) : State :=
  { withQ { CmdQ.init with enable := true, run := some ⟨⟨4, r⟩, 0, 0, phase, awaits, 0, false, 0⟩, open_ := [4] } with tick := tick }
theorem witness_fetch_failed : let s := withQ { CmdQ.init with enable := true, fetches := [⟨0, 1, none⟩] }
    (s.queue (3 : Fin 64)).fetches = ⟨0, 1, none⟩ :: [] ∧ (s.queue (3 : Fin 64)).resetting = false ∧ (s.queue (3 : Fin 64)).inError = false := by decide +kernel
theorem witness_fetched : let s := withQ { CmdQ.init with enable := true, fetches := [⟨0, 1, some [dRow 0 8 7]⟩] }
    (s.queue (3 : Fin 64)).fetches = ⟨0, 1, some [dRow 0 8 7]⟩ :: [] ∧ descBad (dRow 0 8 7) = false ∧ descBad (dRow 9 8 7) = true ∧
    descBad (dRow 8 24 1) = true ∧ descBad (dRow 3 8 7) = true ∧ dType (dRow 3 8 7) = 3 := by decide +kernel
theorem witness_arrival_waits : ((runS (dRow 1 12 2) 2 [] 0).queue (3 : Fin 64)).run ≠ none ∧ ((runS (dRow 1 12 2) 2 [] 0).queue (3 : Fin 64)).ready = [] ∧
    dType (dRow 9 8 7) ≠ 3 ∧ (∀ e, (CmdQ.init).ready.head? = some e → descBad e.row = false) := ⟨by decide +kernel, by decide +kernel, by decide +kernel, by simp [CmdQ.init]⟩
/-- A STACK_COMMIT for a stack of quarter 3, which is in reset, waits alone. -/
theorem witness_arrival_passes : let s : State := { withQ { CmdQ.init with enable := true, ready := [⟨0, dRow 6 12 6⟩], open_ := [0], fetches := [⟨1, 1, some [dRow 9 8 7]⟩] } with
      quarters := (List.range 3).map fun q => (q, { Quarter.init with inReset := false }) }
    (s.queue (3 : Fin 64)).run = none ∧ (∀ e ∈ (s.queue (3 : Fin 64)).ready, commitWaits s e.row = true) ∧
    (∀ e ∈ (s.queue (3 : Fin 64)).ready.takeWhile (fun e => descBad e.row || commitWaits s e.row), descBad e.row = false) ∧ descBad (dRow 9 8 7) = true ∧
    turnOf s 3 = none := by decide +kernel
theorem witness_irq : let s : State := { withQ { CmdQ.init with irqPend := 1, irqCount := 2, irqDelay := 1 } with tick := 800 }
    (s.queue (3 : Fin 64)).irqPend ≠ 0 ∧ (s.queue (3 : Fin 64)).irqTick + us (s.queue (3 : Fin 64)).irqDelay.toNat ≤ s.tick ∧
    (799 : Nat) < (s.queue (3 : Fin 64)).irqTick + us (s.queue (3 : Fin 64)).irqDelay.toNat ∧ (s.queue (3 : Fin 64)).irqPend < max 1 (s.queue (3 : Fin 64)).irqCount.toNat := by
  decide +kernel
theorem witness_nop : AtHead (headS (dRow 0 8 7)) (3 : Fin 64) 0 ⟨4, dRow 0 8 7⟩ [] := at_head_of _ _ (by decide +kernel)
theorem witness_graph : AtHead (headS (dRow 1 8 7)) (3 : Fin 64) 1 ⟨4, dRow 1 8 7⟩ [] ∧ graphRefused (headS (dRow 1 8 7)) (qsrcQ (dRow 1 8 7) 26) = false ∧
    ((headS (dRow 1 8 7)).quarter (qsrcQ (dRow 1 8 7) 26)).inReset = false ∧ dBytes (dRow 1 8 7) 24 2 = 0 ∧ dBytes (dRow 1 24 65535) 24 2 = 65535 ∧
    ((headS (dRow 1 24 65535)).cfgQ (qsrcQ (dRow 1 24 65535) 26)).start = false ∧ ((headS (dRow 1 24 65535)).cfgQ 0).aborted = false :=
  ⟨at_head_of _ _ (by decide +kernel), by decide +kernel⟩
theorem witness_graph_start : dBytes (dRow 1 28 0xFFFFFF) 28 3 = 0xFFFFFF ∧ dBytes (dRow 1 28 0xFFFFFE) 28 3 ≠ 0xFFFFFF ∧ dBytes (dRow 1 28 0xFFFFFE) 24 2 = 0 ∧
    AtHead (headS (dRow 1 28 0xFFFFFF)) (3 : Fin 64) 1 ⟨4, dRow 1 28 0xFFFFFF⟩ [] ∧ AtHead (headS (dRow 1 28 0xFFFFFE)) (3 : Fin 64) 1 ⟨4, dRow 1 28 0xFFFFFE⟩ [] :=
  ⟨by decide +kernel, by decide +kernel, by decide +kernel, at_head_of _ _ (by decide +kernel), at_head_of _ _ (by decide +kernel)⟩
theorem witness_graph_refused : graphRefused { headS (dRow 1 8 7) with svc := [(0, { Svc.init with state := .serving, qmask := 1 })] } (qsrcQ (dRow 1 8 7) 26) = true ∧
    graphRefused { headS (dRow 2 24 1) with svc := [(0, { Svc.init with state := .serving, qmask := 1 })] } (qsrcQ (dRow 2 24 1) 12) = true := by decide +kernel
theorem witness_graph_limit : let s := runS (dRow 1 12 2) 2 [] 1600
    (s.queue (3 : Fin 64)).run = some ⟨⟨4, dRow 1 12 2⟩, 0, 0, 2, [], 0, false, 0⟩ ∧ dType (dRow 1 12 2) = 1 ∧ dBytes (dRow 1 12 2) 12 4 ≠ 0 ∧
    (s.queue (3 : Fin 64)).resetting = false ∧ 0 + us (dBytes (dRow 1 12 2) 12 4) ≤ s.tick ∧ (1599 : Nat) < 0 + us (dBytes (dRow 1 12 2) 12 4) := by decide +kernel
theorem witness_config : AtHead (headS (dRow 2 24 1)) (3 : Fin 64) 2 ⟨4, dRow 2 24 1⟩ [] ∧ graphRefused (headS (dRow 2 24 1)) (qsrcQ (dRow 2 24 1) 12) = false ∧
    dBytes (dRow 2 24 1) 24 2 ≠ 0 := ⟨at_head_of _ _ (by decide +kernel), by decide +kernel⟩
theorem witness_piton_op : AtHead (headS (dRow 4 16 2)) (3 : Fin 64) 4 ⟨4, dRow 4 16 2⟩ [] ∧ fld (dRow 4 16 2) 128 4 = 2 ∧ fld (dRow 4 16 2) 160 2 = 0 ∧
    fld (dRow 4 16 (2 + 2 ^ 32)) 160 2 ≠ 0 ∧ fld (dRow 4 16 5) 128 4 ≠ 2 :=
  ⟨at_head_of _ _ (by decide +kernel), by decide +kernel⟩
theorem witness_copy_op : AtHead (headS (dRow 5 32 64)) (3 : Fin 64) 5 ⟨4, dRow 5 32 64⟩ [] ∧ cpDown (headS (dRow 5 32 64)) (dRow 5 32 64) = false ∧
    cpDst (dRow 5 32 64) = 0 ∧ cpSrcKs (dRow 5 32 64) = false ∧ cpSrcKs (dRow 5 12 1) = true ∧
    cpDown { headS (dRow 5 12 1) with ks := [(0, { Ks.init 0 with trained := true })] } (dRow 5 12 1) = false ∧ cpDst (dRow 5 12 16) = 1 ∧ cpDst (dRow 5 12 32) = 2 ∧ cpDown (headS (dRow 5 12 16)) (dRow 5 12 16) = true :=
  ⟨at_head_of _ _ (by decide +kernel), by decide +kernel⟩
theorem witness_fence : AtHead (headS (dRow 7 16 (2 ^ 64 - 1))) (3 : Fin 64) 7 ⟨4, dRow 7 16 (2 ^ 64 - 1)⟩ [] :=
  at_head_of _ _ (by decide +kernel)
theorem witness_fence_done : (((runS (dRow 7 16 1) 0 [(3, 2)] 0).queue (3 : Fin 64)).run = some ⟨⟨4, dRow 7 16 1⟩, 0, 0, 0, [(3, 2)], 0, false, 0⟩) ∧
    dType (dRow 7 16 1) = 7 ∧ 2 ∉ ((runS (dRow 7 16 1) 0 [(3, 2)] 0).queue 3).open_ ∧ 4 ∈ ((runS (dRow 7 16 1) 0 [(3, 4)] 0).queue 3).open_ := by decide +kernel
theorem witness_mark : AtHead (headS (dRow 8 16 9)) (3 : Fin 64) 8 ⟨4, dRow 8 16 9⟩ [] ∧ (headS (dRow 8 16 9)).clk.count.toNat < dBytes (dRow 8 16 9) 16 8 ∧
    dBytes (dRow 8 8 9) 16 8 ≤ (headS (dRow 8 8 9)).clk.count.toNat :=
  ⟨at_head_of _ _ (by decide +kernel), by decide +kernel⟩
theorem witness_mark_reached : (((runS (dRow 8 16 9) 0 [] 0).queue (3 : Fin 64)).run = some ⟨⟨4, dRow 8 16 9⟩, 0, 0, 0, [], 0, false, 0⟩) ∧
    dType (dRow 8 16 9) = 8 ∧ dBytes (dRow 8 16 9) 16 8 ≤ (9 : BitVec 64).toNat ∧ (8 : BitVec 64).toNat < dBytes (dRow 8 16 9) 16 8 := by decide +kernel
/-- A manifest as both stacks of quarter 0 hold it, SEALED. -/
def sealedK (k : Nat) : Ws := { Ws.init k with image := 1, manifest := some manifestM, loaded := true }
/-- A service of quarter 0 that is SERVING, MAX_CONTEXT 100. -/
def serveS (r : Row) (v : Svc) : State :=
  { headS r with ws := [(0, sealedK 0), (1, sealedK 1)],
                 svc := [(0, { v with state := .serving, qmask := 1, table := (100 : BitVec 1536) <<< 128 })] }
theorem witness_serve : let s := serveS (dRow 3 12 99) Svc.init
    ((s.queue (3 : Fin 64)).ready.find? fun d => dType d.row == 3) = some ⟨4, dRow 3 12 99⟩ ∧ (s.queue (3 : Fin 64)).resetting = false ∧
    serveReason s (queueQuarter (3 : Fin 64)) = 0 ∧ serviceOf s (queueQuarter (3 : Fin 64)) = some 0 ∧
    dBytes (dRow 3 12 99) 12 4 < tMaxContext (s.service 0).table ∧ tMaxContext (s.service 0).table ≤ dBytes (dRow 3 12 100) 12 4 ∧
    serveReason (headS (dRow 3 12 99)) (queueQuarter (3 : Fin 64)) ≠ 0 := by decide +kernel

/-- The fields of a service table of one group, on quarter 0. -/
def table0 : BitVec 1536 :=
  BitVec.ofNat 1536 (1 + 1 * 2 ^ 32 + 1 * 2 ^ 40 + 1 * 2 ^ 48 + 100 * 2 ^ 64 + 1 * 2 ^ 96 + 100 * 2 ^ 128 + 1 * 2 ^ 208 + 1 * 2 ^ 224 + 1 * 2 ^ 384)
/-- Quarter 0's table lies in the host at 0, its stacks SEALED. -/
def startS : State :=
  rdy fun s => { s with ws := [(0, sealedK 0), (1, sealedK 1)], seqs := [(0, { SeqQ.init with src := true })],
                        host := [(0, 1), (4, 1), (5, 1), (6, 1), (8, 100), (12, 1), (16, 100), (26, 1), (28, 1), (48, 1)] }
theorem witness_seq_start : (startS.service (0 : Fin 4)).state = .off ∧
    startOk (readTable startS (0 : Fin 4)).2 (0 : Fin 4) ((readTable startS (0 : Fin 4)).1.getD 0) = true ∧
    startOk (readTable { startS with host := [] } (0 : Fin 4)).2 (0 : Fin 4) ((readTable { startS with host := [] } (0 : Fin 4)).1.getD 0) = false ∧
    startS.cfgq = [] := by decide +kernel
theorem witness_seq_write : Writable startS (0x50008 + 0x40 * (0 : Fin 4).val) := ⟨rfl, rfl, rfl⟩
theorem witness_cfg_busy : ({ startS with cfgq := (List.range 4).map fun q => (q, { CfgQ.init with start := true }) } : State).cfgq.all (fun e => e.2.start) = true := by
  decide +kernel
/-- Quarter 0 serves; one step piton, piton 9. -/
def svcS (v : Svc) (p : Piton) : State :=
  rdy fun s => { s with svc := [(0, { v with state := .serving, qmask := 1, table := (table0 ||| BitVec.ofNat 1536 (9 * 2 ^ 640 + 1 * 2 ^ 672)) })],
                        pitons := [(9, p)] }
theorem witness_stop : ((svcS Svc.init Piton.init).service (0 : Fin 4)).state ≠ .off ∧ ((svcS Svc.init Piton.init).service (0 : Fin 4)).stepping = false ∧
    ((svcS { Svc.init with stepping := true } Piton.init).service (0 : Fin 4)).stepping = true ∧ ((svcS Svc.init Piton.init).service (0 : Fin 4)).seated = [] ∧
    (readyState.service (0 : Fin 4)).state = .off := by decide +kernel
theorem witness_stop_halted : let s := rdy fun s => { s with svc := [(0, { Svc.init with state := .halted, qmask := 1 })] }
    (s.service (0 : Fin 4)).state = .halted ∧ (s.service (0 : Fin 4)).stepping = false ∧ Writable s (0x50008 + 0x40 * (0 : Fin 4).val) := ⟨rfl, rfl, ⟨rfl, rfl, rfl⟩⟩
theorem witness_boundary : let s := svcS { Svc.init with stepping := true, stepNo := 7 } { Piton.init with done := true }
    stepDone s (0 : Fin 4) = true ∧ stepFenced s (0 : Fin 4) = false ∧ (s.service (0 : Fin 4)).stopping = false ∧
    (∀ k, k < 4 → bit (s.service (0 : Fin 4)).qmask k = true → quarterFaulty s k = false ∧ s.quarterStopped k = false ∧
      fencedCrossing s k = none ∧ (s.quarter k).crossDue = none ∧ bit s.pwr.quiesceDue k = false) ∧
    ((svcS { Svc.init with stepping := true, stopping := true } Piton.init).service (0 : Fin 4)).stopping = true := by decide +kernel
theorem witness_step_timeout : let s := svcS { Svc.init with stepping := true } Piton.init
    stepDone s (0 : Fin 4) = false ∧ s.tick < (s.service (0 : Fin 4)).stepTick + us (tStepLimit (s.service (0 : Fin 4)).table) ∧
    (s.service (0 : Fin 4)).stepTick + us (tStepLimit (s.service (0 : Fin 4)).table) ≤ ({ s with tick := 80000 } : State).tick ∧
    (s.service (0 : Fin 4)).timedOut = false := by decide +kernel
/-- A draining service, its spanned quarter having replayed its step n times. -/
def drainS (n : Nat) : State := rdy fun s =>
  { s with svc := [(0, { Svc.init with stepping := true, state := .draining, qmask := 1, table := (table0 ||| BitVec.ofNat 1536 (9 * 2 ^ 640 + 1 * 2 ^ 672)) })],
           quarters := [(0, { Quarter.init with inReset := false, replays := n })], tick := 80000 }
theorem witness_step_timeout_drain : ((drainS 0).service (0 : Fin 4)).state = .draining ∧ stepDone (drainS 0) (0 : Fin 4) = false ∧
    ((drainS 0).service (0 : Fin 4)).stepTick + us (tStepLimit ((drainS 0).service (0 : Fin 4)).table) ≤ (drainS 0).tick ∧
    (∀ k, k < 4 → bit ((drainS 1).service (0 : Fin 4)).qmask k = true → ((drainS 1).quarter k).replays < 2) ∧
    bit ((drainS 2).service (0 : Fin 4)).qmask 0 = true ∧ 2 ≤ ((drainS 2).quarter 0).replays ∧ ((drainS 2).service (0 : Fin 4)).timedOut = false := by decide +kernel

/-- A READY region of site 7. -/
def siteS : State := rdy fun s => { s with ident := ⟨7, true, 0⟩ }
/-- A good frame of site 7. -/
def frame7 (op off data : Nat) : BitVec 128 := mbaoFrame siteS op 5 off 0 data
theorem witness_frames : consumed siteS (frame7 1 4 0) 1 = true ∧ consumed siteS (frame7 2 0x21C 9) 2 = true ∧ consumed siteS (frame7 4 0 0xAAAA) 4 = true ∧
    consumed siteS (frame7 15 0 0) (fOp (frame7 15 0 0)) = true ∧ 6 ≤ fOp (frame7 6 0 0) ∧ siteS.boot.phase ≠ .unpowered := by decide +kernel
theorem witness_frame_else : fSite (0 : BitVec 128) ≠ siteS.ident.site.toNat ∧ fSite (frame7 1 4 0) = siteS.ident.site.toNat ∧
    (frame7 1 4 0 ^^^ 1).extractLsb' 0 16 ≠ frameCrc16 (frame7 1 4 0 ^^^ 1) := by decide +kernel
theorem witness_rd : heldInReset siteS = false ∧ fOff (frame7 1 4 0) % 4 = 0 ∧ fOff (frame7 1 6 0) % 4 ≠ 0 ∧ wpWord (fOff (frame7 2 0x21C 9)) = none ∧
    heldInReset State.reset = true := by decide +kernel
/-- A region of site 7 held in reset. -/
def heldS : State := { State.reset with ident := ⟨7, true, 0⟩ }
theorem witness_rd_held : heldInReset heldS = true ∧ consumed heldS (frame7 1 0x48 0) 1 = true ∧ fOff (frame7 1 0x48 0) ∈ [0x00, 0x04, 0x08, 0x0C, 0x10, 0x44, 0x48] ∧
    fOff (frame7 1 0x48 0) % 4 = 0 ∧ consumed heldS (frame7 1 0x40 0) 1 = true ∧ fOff (frame7 1 0x40 0) ∉ [0x00, 0x04, 0x08, 0x0C, 0x10, 0x44, 0x48] ∧
    consumed heldS (frame7 2 0x21C 9) 2 = true := by decide +kernel
/-- The same region with its port in a state of the controller, an instrument selected. -/
def tapS (x : TapState) (i : Instrument) : State := { siteS with tap := { Tap.init with fsm := x, inst := i } }
theorem witness_tap : consumed (tapS .shiftDr .idcode) (frame7 4 0 0x5555) 4 = true ∧ 8 ≤ instWidth (tapS .shiftDr .idcode).tap.inst ∧
    (∀ i, i < 8 → (frame7 4 0 0x5555).getLsbD (16 + 2 * i + 1) = false) ∧ (∀ i, i < 8 → 3 ≤ i → (frame7 4 0 0xAAAA).getLsbD (16 + 2 * i + 1) = true) ∧
    instWidth .bypass < 8 := by decide +kernel
theorem witness_tap_capture : ∀ i ∈ [Instrument.idcode, .thermScan, .railScan, .linkEye, .pstRead, .fieldRecord, .bypass], ∀ x ∈ [TapState.captureDr, .updateIr],
    consumed (tapS x i) (frame7 4 0 0x5555) 4 = true ∧ (tapS x i).tap.fsm = x ∧ (tapS x i).tap.inst = i := by decide +kernel
/-- V_CORE up on quarter 3 at the top of its range; the input measured. -/
theorem witness_tap_rails : let s := { tapS .captureDr .railScan with pwr := { Pwr.init with vinMv := 40000, coreGood := 8, vcore := [(3, 870)] } }
    s.pwr.vinMv ≠ 0 ∧ bit s.pwr.coreGood 3 = true ∧ sget 0 s.pwr.vcore 3 ≤ 870 ∧ bit s.pwr.coreGood 0 = false := by decide +kernel
theorem witness_tap_field : ({ siteS with flt := { siteS.flt with field := some [7] } } : State).flt.field = some [7] ∧ siteS.flt.field = none := by decide +kernel
theorem witness_tap_pst : ∀ k, sget 0 (tapS .captureDr .pstRead).pst.writes k < 2 ^ 32 := by
  intro k; show sget 0 ([] : Sparse Nat) k < _; simp [sget]
theorem witness_tap_bypass : (tapS .captureDr .bypass).tap.inst = .bypass ∧ 2 ≤ (2 : Nat) := by decide +kernel
theorem witness_unit_fault : (0x21 : BitVec 8) &&& 0x7F ≠ 0 ∧ bit (0x21 : BitVec 8) 5 = true ∧ (readyState.quarter (physZone (9791 : Fin 9792) / 12)).inReset = false ∧
    (State.reset.quarter (physZone (9791 : Fin 9792) / 12)).inReset = true := by decide +kernel
/-- Unit 9791 has met a fault. -/
def detS : State := rdy fun s => { s with flt := { s.flt with detected := [⟨9791, 5, 0x21, 7, 9, 1⟩] } }
theorem witness_detected : detS.flt.detected.find? (fun d => d.unit == (9791 : Fin 9792).val) = some ⟨9791, 5, 0x21, 7, 9, 1⟩ ∧
    ∀ d ∈ readyState.flt.detected, d.unit ≠ (9791 : Fin 9792).val := by decide +kernel
theorem witness_zone_fault : (7 : BitVec 8) ≠ 0 ∧ (7 : BitVec 8).toNat ≤ 7 ∧ (readyState.quarter ((47 : Fin 48).val / 12)).inReset = false := by decide +kernel
/-- A READY region whose quarter 0 is x. -/
def qS (x : Quarter) : State := rdy fun s => { s with quarters := [(0, { x with inReset := false })] }
theorem witness_fault_halt : let s (a : Action) := qS { Quarter.init with faults := [⟨0, some 0, a, 1, false⟩] }
    ((s .replay).quarter (0 : Fin 4)).faults ≠ [] ∧ ((s .replay).quarter (0 : Fin 4)).inReset = false ∧ unreported (s .replay) (0 : Fin 4) = false ∧ unreported detS (3 : Fin 4) = true ∧ atBoundary (s .replay) (0 : Fin 4) = true ∧
    worstAction ((s .replay).quarter (0 : Fin 4)) = .replay ∧ worstAction ((s .stop).quarter (0 : Fin 4)) = .stop := by decide +kernel
theorem witness_steering : let s := { qS { Quarter.init with steering := [(11, 0)] } with tick := 8196 }
    (s.quarter ((11 : Fin 48).val / 12)).steering = [((11 : Fin 48).val, 0)] ∧
    steerOver { s with chanters := [(11, { Chanter.init with code := 512 })] } (11 : Fin 48) 0 = true ∧
    steerOver { s with chanters := [(11, { Chanter.init with code := 511 })] } (11 : Fin 48) 0 = false := by decide +kernel
theorem witness_step_replay : let s := { qS { Quarter.init with halted := true, replay := some 0 } with
      zones := (List.range 12).map fun z => (z, { ZoneClk.init with running := true }) }
    let t : State := { s with str := { s.str with aligned := 1 } }
    (t.quarter (0 : Fin 4)).replay = some 0 ∧ replayReady t (0 : Fin 4) = true ∧ serviceOf t (0 : Fin 4) = none ∧ graphOn t (0 : Fin 4) = none ∧
    replayReady s (0 : Fin 4) = false ∧ serviceOf { t with svc := [(0, { Svc.init with state := .halted, qmask := 1 })] } (0 : Fin 4) = some 0 := by decide +kernel
theorem witness_reset_port : Writable readyState 0xB0008 := writable_of _
theorem witness_rearm : bit readyState.flt.fenceStk (8 + (0 : Fin 4).val) = false ∧ bit (0x100 : BitVec 12) (8 + (0 : Fin 4).val) = true := by decide +kernel
theorem witness_stack_dead : let r : StkRun := { id := 0, ag := 0, first := 0, len := 1, stk := 2, row := 0, sram := 0, blk := 0, pblk := 0, since := 0 }
    let s : State := { oneUnit 1 { UnitSt.blank with mu := { Mu.init with runs := [r] } } with tick := 800000 }
    unanswered s (8 : Fin 12) = true ∧ bit s.flt.fenceStk (8 : Fin 12) = false ∧ unanswered readyState (8 : Fin 12) = false := by decide +kernel
theorem witness_life : sget 0 readyState.pst.writes 0x080 < 100000 ∧ readyState.pst.badWords = [] ∧ readyState.tick < readyState.pst.lifeTick + hourTicks ∧
    readyState.pst.lifeTick + hourTicks ≤ hourTicks := by decide +kernel
end Sys2Proof.Tests
end

section
/-! SUPPORT. Accesses that the window refuses (R7), and what the registers read right after a cold reset (R12). -/

namespace Sys2Proof.Machine

/-- Settles O5: the window's first test refuses such an access (R7). -/
theorem misalignedAccessesAreRefused : Obligations.MisalignedAccessesAreRefused := by
  intro s p off size v h
  have hw : size ≠ 4 ∨ off.toNat % 4 ≠ 0 ∨ (!writeOpen s off.toNat) = true := h.imp_right Or.inl
  have hr : size ≠ 4 ∨ off.toNat % 4 ≠ 0 ∨ (heldInReset s && !heldRead off.toNat) = true := h.imp_right Or.inl
  constructor
  · show Host.Outcome.next (winWriteEnv s p .good off.toNat size v).2 = _
    rw [winWriteEnv, if_pos hw]
  · rw [winRead, if_pos hr]

/-- Right after a cold reset the registers with a reset value of their own read it, through either port. -/
theorem regValue_reset (p : WinPort) :
    regValue State.reset p 0x00 = 0x0EF14E57 ∧ regValue State.reset p 0x04 = 0x00004200 ∧
    regValue State.reset p 0x10000 = 0 ∧ regValue State.reset p 0x10040 = 0x02020300 ∧ regValue State.reset p 0x10100 = 768 ∧
    regValue State.reset p 0x30008 = 1250 ∧ regValue State.reset p 0x30004 = 0x701 ∧ regValue State.reset p 0x30044 = 80 ∧
    regValue State.reset p 0x208 = 6 ∧ regValue State.reset p 0x60000 = 3 ∧
    regValue State.reset p 0x80000 = 1 ∧ regValue State.reset p 0x80004 = 0xFF00 ∧ regValue State.reset p 0xB0008 = 0x20 := by
  cases p <;> decide +kernel

/-- Right after a cold reset every CMD_Q_CFG reads ring sizes 2^6 and an interrupt count of 1. -/
theorem regValue_reset_cmdQCfg (p : WinPort) (n : Fin 64) : regValue State.reset p (0x40010 + 0x40 * n.val) = 0x31800100 := by
  revert n
  cases p <;> decide +kernel

/-- Settles O4: every table of the reset state lists nothing, so that each part holds its reset value; the registers are computed. -/
theorem resetRegisters : Obligations.ResetRegisters := by
  refine ⟨rfl, rfl, ⟨rfl, fun _ => rfl, fun _ => rfl⟩, rfl, undoWf_none rfl, fun p => ?_, rfl, rfl, rfl, fun _ => rfl, fun _ => rfl, fun _ => rfl⟩
  obtain ⟨h1, h2, h3, h4, h5, h6, h7, h8, h9, h10, h11, h12, h13⟩ := regValue_reset p
  exact ⟨h1, h2, h3, h4, h5, h6, h7, h8, h9, h10, h11, h12, h13, regValue_reset_cmdQCfg p⟩

end Sys2Proof.Machine
end

section
/-! SUPPORT. Reads through the management window and what they clear (R10, R435, R436). -/

namespace Sys2Proof.Machine

/-! Reads through the window. -/

theorem heldInReset_eq_false {s : State} (hh : s.boot.phase ≠ .held) (hu : s.boot.phase ≠ .unpowered) : heldInReset s = false := by
  simp [heldInReset, hh, hu]

/-- A read of an aligned word that the window takes. -/
theorem winRead_taken {s : State} (p : WinPort) {off : Nat} (ha : off % 4 = 0) (h : heldInReset s = false ∨ heldRead off = true) :
    winRead s p off 4 = (0, portValue s p off, readEffect s p off) := by
  rw [winRead, if_neg (by rcases h with h | h <;> simp [ha, h])]
  rfl

/-- A register without a field that software writes reads as the tick found it (R10). -/
theorem portValue_readOnly {s : State} (p : WinPort) {off : Nat} (hr : rwBits off = 0) (hw : w1Bits off = 0) :
    portValue s p off = regValue (s.before off) p off := by
  rw [portValue, hr, hw]
  exact (congrArg _ (BitVec.and_allOnes (x := regValue (s.before off) p off))).trans (by simp)

theorem readEffect_latches {s : State} {p : WinPort} {off : Nat} {v : BitVec 64} (hl : live64 (s.before off) off = some v) :
    readEffect s p off = { s with latch := sset 0 s.latch (2 * off + portNo p) (v.extractLsb' 32 32) } := by
  rw [readEffect, hl]

theorem readEffect_plain {s : State} {p : WinPort} {off : Nat} (hl : live64 (s.before off) off = none) (hk : rcField s off = none) :
    readEffect s p off = s := by
  rw [readEffect, hl, hk]

theorem readEffect_clears {s : State} {p : WinPort} {off k : Nat} (hl : live64 (s.before off) off = none) (hk : rcField s off = some k)
    (hs : s.rcSeen.contains k = false) : readEffect s p off = { rcClear s off with rcSeen := k :: s.rcSeen } := by
  rw [readEffect, hl, hk]
  exact if_neg (by simpa using hs)

theorem readEffect_again {s : State} {p : WinPort} {off k : Nat} (hl : live64 (s.before off) off = none) (hk : rcField s off = some k)
    (hs : s.rcSeen.contains k = true) : readEffect s p off = s := by
  rw [readEffect, hl, hk]
  exact if_pos hs

/-- The identity registers of Table 15-2 read in every phase, and their reads change nothing. -/
theorem winRead_identity (s : State) (p : WinPort) {off : Nat} (h : off ∈ [0x00, 0x04, 0x08, 0x0C, 0x10]) :
    winRead s p off 4 = (0, readRegion { s with toBody := s.found } off, s) := by
  simp only [List.mem_cons, List.not_mem_nil, or_false] at h
  rcases h with rfl | rfl | rfl | rfl | rfl <;>
    rw [winRead_taken p rfl (.inr rfl), portValue_readOnly p rfl rfl, readEffect_plain rfl rfl] <;> rfl

theorem toNat_w32_enabled_site (e : Bool) (x : BitVec 8) : (w32 (b2n e * 256 + x.toNat)).toNat = (if e then 256 else 0) + x.toNat := by
  have := x.isLt
  cases e <;> simp [w32, b2n] <;> omega

theorem toNat_eq_halves (x : BitVec 64) : x.toNat = (x.extractLsb' 32 32).toNat * 2 ^ 32 + (x.extractLsb' 0 32).toNat := by
  have := x.isLt
  simp only [BitVec.extractLsb'_toNat, Nat.shiftRight_eq_div_pow]
  omega

/-! The reads that act. -/

theorem latchedLoRead_droneCount (s : State) (p : WinPort) (ho : heldInReset s = false) :
    exec (.latchedLoRead p 0x10020) s =
      .next { s with latch := sset 0 s.latch (2 * 0x10020 + portNo p) (s.found.clk.count.extractLsb' 32 32) } := by
  show Host.Outcome.next (winRead s p 0x10020 4).2.2 = _
  rw [winRead_taken p rfl (.inl ho), readEffect_latches (v := s.found.clk.count) rfl]

theorem regValue_droneCountHi (s : State) (p : WinPort) : regValue s p 0x10024 = sget 0 s.latch (2 * 0x10020 + portNo p) := rfl

theorem portNo_injective {p r : WinPort} (h : portNo r = portNo p) : r = p := by
  cases p <;> cases r <;> simp [portNo] at h ⊢

theorem rcLeft_of_no_update {w : Nat} (s : State) (key : Nat) (x : BitVec w) (hf : sget 0 s.full key = 0) : rcLeft s key x x = 0 := by
  have : 0 < 2 ^ w := Nat.two_pow_pos w
  simp [rcLeft, hf, satAdd, this]

theorem exec_unrouteCountRead (s : State) (p : WinPort) (ho : heldInReset s = false) :
    exec (.unrouteCountRead p) s = .next (readEffect s p 0x60030) := by
  show Host.Outcome.next (winRead s p 0x60030 4).2.2 = _
  rw [winRead_taken p rfl (.inl ho)]

theorem value_unrouteCount (s : State) (p : WinPort) (ho : heldInReset s = false) : (winRead s p 0x60030 4).2.1 = s.found.fab.unroute := by
  rw [winRead_taken p rfl (.inl ho), portValue_readOnly p rfl rfl]
  rfl

theorem exec_pitErrRead_first (s : State) (p : WinPort) (q : Fin 4) (ho : heldInReset s = false)
    (hs : s.rcSeen.contains (0xA0014 + 0x40 * q.val) = false) :
    exec (.pitErrRead p q) s =
      .next { rcClear s (0xA0014 + 0x40 * q.val) with rcSeen := (0xA0014 + 0x40 * q.val) :: s.rcSeen } := by
  show Host.Outcome.next (winRead s p (0xA0014 + 0x40 * q.val) 4).2.2 = _
  have ha : (0xA0014 + 0x40 * q.val) % 4 = 0 := by omega
  have hl : live64 (s.before (0xA0014 + 0x40 * q.val)) (0xA0014 + 0x40 * q.val) = none := by fin_cases q <;> rfl
  have hk : rcField s (0xA0014 + 0x40 * q.val) = some (0xA0014 + 0x40 * q.val) := by fin_cases q <;> rfl
  rw [winRead_taken p ha (.inl ho), readEffect_clears hl hk hs]

/-- PIT_ERR after a read: the counts keep what this tick has added, and the capture takes what waits for it, or is armed (R269). -/
def pitErrCleared (s : State) (q : Nat) (x : PitQ) : PitQ :=
  let y := sget PitQ.init s.found.pitq q
  let key := rcKey (0xA0014 + 0x40 * q)
  let c := s.caughtAt (0xA0018 + 0x40 * q)
  { x with overruns := rcLeft s (key 0) x.overruns y.overruns, refused := rcLeft s (key 1) x.refused y.refused,
           badOp := rcLeft s (key 2) x.badOp y.badOp, armed := c.isNone,
           errCause := (c.map fun v => v.extractLsb' 24 2).getD x.errCause,
           errPiton := (c.map fun v => v.extractLsb' 0 17).getD x.errPiton }

theorem pitErrCleared_idle {s : State} {q : Nat} (hc : s.caughtAt (0xA0018 + 0x40 * q) = none) :
    pitErrCleared s q = fun x =>
      { x with overruns := rcLeft s (rcKey (0xA0014 + 0x40 * q) 0) x.overruns (sget PitQ.init s.found.pitq q).overruns,
               refused := rcLeft s (rcKey (0xA0014 + 0x40 * q) 1) x.refused (sget PitQ.init s.found.pitq q).refused,
               badOp := rcLeft s (rcKey (0xA0014 + 0x40 * q) 2) x.badOp (sget PitQ.init s.found.pitq q).badOp, armed := true } := by
  funext x
  rw [pitErrCleared, hc]
  rfl

theorem rcClear_pitErr (s : State) (q : Fin 4) :
    rcClear s (0xA0014 + 0x40 * q.val) =
      match s.caughtAt (0xA0018 + 0x40 * q.val) with
      | some v =>
        if (sget PitQ.init s.found.pitq q).armed then s.modPitQ q (pitErrCleared s q)
        else event (s.modPitQ q (pitErrCleared s q)) 0x0011 (some q) v.toNat
      | none => s.modPitQ q (pitErrCleared s q) := by
  fin_cases q <;> rfl

theorem evtWrite_changes (s : State) (e : Event) : ∃ v f, evtWrite s e = { s with evt := v, fab := f } := by
  refine ⟨(evtWrite s e).evt, (evtWrite s e).fab, ?_⟩
  unfold evtWrite
  dsimp only
  split <;> rfl

theorem spill_modEvt_changes {w : Nat} (s : State) (f g : Evt → Evt) (k : Nat) (v : BitVec w) (n : Nat) :
    ∃ e l, ((s.modEvt f).spill k v n).modEvt g = { s with evt := e, full := l } := ⟨_, _, rfl⟩

/-- Posting an event changes the event ring, what waits at the injectors, and the lost events noted, only. -/
theorem postEvent_changes (s : State) (e : Event) : ∃ v f l, postEvent s e = { s with evt := v, fab := f, full := l } := by
  unfold postEvent
  generalize (fun r : Evt => { r with history := (e :: r.history).take 512 }) = g
  generalize (fun r : Evt => { r with lost := satInc r.lost, overflow := satInc r.overflow }) = g'
  dsimp only
  split
  · exact ⟨_, s.fab, s.full, rfl⟩
  · split
    · obtain ⟨v, l, h⟩ := spill_modEvt_changes s g g' (rcKey 0x220 0) (s.modEvt g).evt.lost 1
      exact ⟨v, s.fab, l, h⟩
    · obtain ⟨v, f, h⟩ := evtWrite_changes (s.modEvt g) e
      exact ⟨v, f, s.full, h⟩

/-- The RC field behind ZONE_ARITH_DATA of zone z counts the unit and item selected (R437). -/
theorem rcField_zoneArithData (s : State) (z : Fin 48) :
    rcField s (0x100804 + 0x4000 * z.val) =
      some (0x100804 + 0x4000 * z.val + 2 ^ 24 * ((s.zpage z).arithUnit.toNat * 64 + (s.zpage z).arithItem.toNat)) := by
  fin_cases z <;> rfl

theorem live64_zoneArithData (s : State) (z : Fin 48) : live64 s (0x100804 + 0x4000 * z.val) = none := by
  fin_cases z <;> rfl

theorem rcClear_zoneArithData (s : State) (z : Fin 48) : rcClear s (0x100804 + 0x4000 * z.val) = rcArith s z := by
  fin_cases z <;> rfl

theorem exec_zoneArithDataRead_first (s : State) (p : WinPort) (z : Fin 48) (ho : heldInReset s = false)
    (hs : s.rcSeen.contains (0x100804 + 0x4000 * z.val + 2 ^ 24 * ((s.zpage z).arithUnit.toNat * 64 + (s.zpage z).arithItem.toNat)) = false) :
    ∃ k, exec (.zoneArithDataRead p z) s = .next { rcArith s z with rcSeen := k :: s.rcSeen } := by
  refine ⟨0x100804 + 0x4000 * z.val + 2 ^ 24 * ((s.zpage z).arithUnit.toNat * 64 + (s.zpage z).arithItem.toNat), ?_⟩
  show Host.Outcome.next (winRead s p (0x100804 + 0x4000 * z.val) 4).2.2 = _
  rw [winRead_taken p (by omega) (.inl ho), readEffect_clears (live64_zoneArithData _ z) (rcField_zoneArithData s z) hs,
    rcClear_zoneArithData]

/-- A CU's arithmetic item i, or its sticky flags for item 37, after a read: what this tick has added is left (R79). -/
def arithCleared (s : State) (u : Nat) (i : BitVec 6) (c : Cu) : Cu :=
  if i = 37 then { c with flags := (s.raisedAt (flagsKey u)).setWidth 5 }
  else { c with items := sset 0 c.items i.toNat
                  (rcLeft s (itemKey u i.toNat) (sget 0 c.items i.toNat) (sget 0 (sget UnitSt.blank s.found.units u).cu.items i.toNat)) }

theorem rcArith_selected {s : State} {z : Nat} (hq : (s.quarter (z / 12)).inReset = false) (hu : (s.zpage z).arithUnit.toNat < 204)
    (hm : isMu (204 * z + (s.zpage z).arithUnit.toNat) = false) :
    rcArith s z =
      s.modCu (204 * z + (s.zpage z).arithUnit.toNat) (arithCleared s (204 * z + (s.zpage z).arithUnit.toNat) (s.zpage z).arithItem) := by
  have hi : (s.zpage z).arithItem.toNat = 37 ↔ (s.zpage z).arithItem = 37 := BitVec.toNat_inj (y := 37#6)
  have hu' : ¬ 203 < (s.zpage z).arithUnit.toNat := by omega
  have hskip : ((s.quarter (z / 12)).inReset || decide (203 < (s.zpage z).arithUnit.toNat) ||
      isMu (204 * z + (s.zpage z).arithUnit.toNat)) = false := by simp [hq, hu', hm]
  simp only [rcArith, hskip, Bool.false_eq_true, if_false, hi]
  split
  · next h => exact congrArg (s.modCu _) (funext fun _ => (if_pos h).symm)
  · next h => exact congrArg (s.modCu _) (funext fun _ => (if_neg h).symm)

/-- Settles O12, clause by clause from what a read of each register does. -/
theorem readsThatAct : Obligations.ReadsThatAct := by
  refine ⟨fun s p => ?_, fun s p hh hu => ?_, fun s p hh hu hs => ?_, fun s p hh hu hs => ?_, fun s p q hh hu hs hc => ?_,
    fun s p q c hh hu hs hc => ?_, fun s p z hh hu => ?_⟩
  · exact ⟨winRead_identity s p (by decide), winRead_identity s p (by decide),
      ⟨_, winRead_identity s p (by decide), toNat_w32_enabled_site _ _⟩,
      _, _, winRead_identity s p (by decide), winRead_identity s p (by decide), toNat_eq_halves _⟩
  · have ho := heldInReset_eq_false hh hu
    refine ⟨?_, _, latchedLoRead_droneCount s p ho, rfl, ?_, fun r hr => ?_⟩
    · rw [winRead_taken p rfl (.inl ho), portValue_readOnly p rfl rfl]
      rfl
    · rw [regValue_droneCountHi]
      exact sget_sset_same _ _ _ _
    · rw [regValue_droneCountHi, regValue_droneCountHi]
      exact sget_sset_other _ _ _ _ _ fun e => hr (portNo_injective (by omega))
  · have ho := heldInReset_eq_false hh hu
    refine ⟨value_unrouteCount s p ho, ?_, fun he hf => ?_⟩
    · rw [exec_unrouteCountRead s p ho, readEffect_clears (k := 0x60030) rfl rfl hs]
      rfl
    · rw [he]
      exact rcLeft_of_no_update s _ _ hf
  · have ho := heldInReset_eq_false hh hu
    refine ⟨value_unrouteCount s p ho, ?_⟩
    rw [exec_unrouteCountRead s p ho, readEffect_again (k := 0x60030) rfl rfl hs]
  · refine ⟨_, exec_pitErrRead_first s p q (heldInReset_eq_false hh hu) hs, ?_⟩
    rw [rcClear_pitErr, hc, pitErrCleared_idle hc]
  · refine ⟨_, exec_pitErrRead_first s p q (heldInReset_eq_false hh hu) hs, ?_⟩
    rw [rcClear_pitErr, hc]
    have hx : ((s.modPitQ q (pitErrCleared s q)).pitQ q).armed = false ∧
        ((s.modPitQ q (pitErrCleared s q)).pitQ q).errPiton = c.extractLsb' 0 17 ∧
        ((s.modPitQ q (pitErrCleared s q)).pitQ q).errCause = c.extractLsb' 24 2 := by
      simp [State.pitQ, State.modPitQ, pitErrCleared, hc]
    dsimp only
    split
    · exact hx
    · obtain ⟨e, f, l, he⟩ := postEvent_changes (s.modPitQ q (pitErrCleared s q)) _
      rw [event, he]
      exact hx
  · intro x u hq hx hm hs
    obtain ⟨k, hk⟩ := exec_zoneArithDataRead_first s p z (heldInReset_eq_false hh hu) hs
    refine ⟨_, hk, ?_⟩
    rw [rcArith_selected hq hx hm]
    have hu : (s.modCu u (arithCleared s u x.arithItem)).unit u =
        { s.unit u with cu := arithCleared s u x.arithItem (s.unit u).cu } := unit_modCu_same s u _
    refine ⟨rfl, fun v hv => unit_modUnit_other s _ hv, fun h => ?_, fun h => ?_⟩
    · exact hu.trans (by rw [arithCleared, if_pos h])
    · rw [arithCleared, if_neg h] at hu
      refine ⟨?_, hu.trans ?_⟩
      · exact (congrArg (fun y : UnitSt => sget 0 y.cu.items x.arithItem.toNat) hu).trans (sget_sset_same _ _ _ _)
      · exact congrArg (fun i => { s.unit u with cu := { (s.unit u).cu with items := i } })
          (congrArg (fun y : UnitSt => y.cu.items) hu).symm

end Sys2Proof.Machine
end

section
/-! SUPPORT. Writes of the persistent store through the window, and its acknowledgements (R11, R332, R425, R426). -/

namespace Sys2Proof.Machine

/-! Writes through the window. -/

/-- Of an untouched register nothing that hardware has set holds a bit against a write. -/
theorem writtenValue_of_untouched {s : State} {off : Nat} (h : Untouched s off) (v : Word) : writtenValue s off v = v := by
  rw [writtenValue, show s.raisedAt off = 0 from h.1]
  exact BitVec.and_allOnes

theorem fabricFirst_of_untouched {s : State} {off : Nat} (h : Untouched s off) (p : WinPort) : fabricFirst s p off = none := by
  have hw := h.2
  simp only [State.wroteTo, Bool.or_eq_false_iff, Option.isSome_eq_false_iff, Option.isNone_iff_eq_none] at hw
  cases p
  · exact hw.2
  · rfl

theorem writeOpen_of_ready {s : State} (h : s.boot.phase = .ready) (off : Nat) : writeOpen s off = true := by
  simp [writeOpen, heldInReset, State.ready, h]

/-- A write of an untouched word of the persistent store: a ring write is BUSY while one persists, any other is applied (R11). -/
theorem winWrite_wp {s : State} {p : WinPort} {off w : Nat} (v : Word) (hw : Writable s off) (ha : off % 4 = 0)
    (hwp : wpWord off = some w) (h1 : w1Bits off = 0) :
    winWrite s p off v = if p == .ring && pstBusy s w then s else noteWrite (applyWrite s p .good off v) p off v := by
  obtain ⟨hready, hun⟩ := hw
  have hopen : ¬ ((4 : Nat) ≠ 4 ∨ off % 4 ≠ 0 ∨ (!writeOpen s off) = true) := by simp [ha, writeOpen_of_ready hready]
  rw [winWrite, winWriteEnv, if_neg hopen, hwp, fabricFirst_of_untouched hun]
  dsimp only
  split
  · rfl
  · rw [plainWrite, writtenValue_of_untouched hun, keepUndo, if_neg (by simp [h1])]

/-! The words of the persistent store (R11, R425, R426). -/

theorem regIdx_at (base n : Nat) {stride k : Nat} (hs : 0 < stride) (hk : k < n) : regIdx base stride n (base + stride * k) = some k := by
  have hd : (base + stride * k - base) / stride = k := by rw [Nat.add_sub_cancel_left, Nat.mul_div_cancel_left _ hs]
  rw [regIdx, hd, if_pos ⟨Nat.le_add_right _ _, by rw [Nat.add_sub_cancel_left, Nat.mul_mod_right], hk⟩]

/-- An offset of a WP register is an aligned one of the window, and its word is written with the bits it holds. -/
theorem wpReg_facts {off w : Nat} {m : Word} (h : WpReg off w m) :
    off % 4 = 0 ∧ off < 2 ^ 24 ∧ w < 4096 ∧ wpWord off = some w ∧ w1Bits off = 0 ∧
      ∀ (s : State) (p : WinPort) (v : Word), applyWrite s p .good off v = pstWrite s w (v &&& m) := by
  rcases h with ⟨rfl, rfl, rfl⟩ | ⟨rfl, rfl, rfl⟩ | ⟨rfl, rfl, h⟩
  · exact ⟨rfl, by decide, by decide, rfl, rfl, fun _ _ _ => rfl⟩
  · refine ⟨rfl, by decide, by decide, rfl, rfl, fun s p v => ?_⟩
    show pstWrite s 0x45 v = _
    rw [show v &&& 0xFFFFFFFF = v from BitVec.and_allOnes]
  · have hd : (0xC0000 + 4 * w) / 0x10000 = 0xC := by omega
    have hm : (0xC0000 + 4 * w) % 0x10000 = 4 * w := by omega
    have hhost : pstHostWord w = true := by simpa [pstHostWord] using h
    refine ⟨by omega, by omega, by omega, ?_, ?_, fun s p v => ?_⟩
    · rw [wpWord, if_neg (by omega), if_neg (by omega), regIdx_at _ _ (by omega) (by omega)]
      exact if_pos hhost
    · simp only [w1Bits, hd, hm]
      exact if_neg (by omega)
    · have hidx : regIdx 0 4 4096 (4 * w) = some w := by simpa using regIdx_at 0 4096 (stride := 4) (k := w) (by omega) (by omega)
      rw [show v &&& 0xFFFFFFFF = v from BitVec.and_allOnes]
      simp only [applyWrite, hd, hm, writePst]
      split
      · omega
      · omega
      · rw [hidx]
        exact if_pos hhost

theorem exec_wpWrite {s : State} (p : WinPort) {off w : Nat} {m : Word} (v : Word) (h : WpReg off w m) (hw : Writable s off) :
    exec (.wpWrite p (BitVec.ofNat 24 off) v) s =
      .next (if p == .ring && pstBusy s w then s else noteWrite (pstWrite s w (v &&& m)) p off v) := by
  obtain ⟨ha, hlt, -, hwp, h1, happ⟩ := wpReg_facts h
  show execWpWrite p (BitVec.ofNat 24 off) v s = _
  rw [execWpWrite, BitVec.toNat_ofNat, Nat.mod_eq_of_lt hlt, hwp, ← happ s p v, ← winWrite_wp v hw ha hwp h1]
  rfl

theorem pstWrite_begins {s : State} {w : Nat} (v : Word) (hn : sget 0 s.pst.writes w < 100000) (hb : pstBusy s w = false) :
    pstWrite s w v = s.modPst fun p =>
      { p with words := sset 0 p.words w v, writes := smod 0 p.writes w (· + 1), busy := p.busy ++ [(w, v)] } := by
  rw [pstWrite, if_neg (by omega)]
  simp only [State.modPst, show (s.pst.busy.any fun b => b.1 == w) = false from hb, Bool.false_eq_true, if_false]

theorem pstWrite_holds {s : State} {w : Nat} (v : Word) (hn : sget 0 s.pst.writes w < 100000) (hb : pstBusy s w = true) :
    pstWrite s w v = s.modPst fun p =>
      { p with words := sset 0 p.words w v, writes := smod 0 p.writes w (· + 1), held := p.held ++ [(w, v)] } := by
  rw [pstWrite, if_neg (by omega)]
  simp only [State.modPst, show (s.pst.busy.any fun b => b.1 == w) = true from hb, if_true]

theorem pstWrite_worn {s : State} {w : Nat} (v : Word) (hn : 100000 ≤ sget 0 s.pst.writes w) :
    pstWrite s w v =
      setSummary ((s.modPst fun p => { p with worn := true, wornWord := BitVec.ofNat 12 w }).raise 0xC4000 (oneBit 30)) sumPst := by
  rw [pstWrite, if_pos hn]

theorem bit_setBit_true {w : Nat} (v : BitVec w) {i : Nat} (h : i < w) : bit (setBit v i true) i = true := by
  simp [bit, setBit, h]

/-- The trim words apart, and word 0x07C with the words of the key slots, nothing waits for an acknowledgement of the store. -/
theorem keyAck_other {s : State} {w : Nat} (h : w < 0x48 ∨ 0x7D ≤ w) : keyAck s w = s := by
  have hslot := s.fw.instSlot.isLt
  rw [keyAck, if_neg (by omega), if_neg]
  simp only [Bool.and_eq_true, decide_eq_true_eq, beq_iff_eq, keyWord]
  omega

theorem regIdx_trim_none {w : Nat} (h : w < 0x40 ∨ 0x44 ≤ w) : regIdx 0x40 1 4 w = none := by
  rw [regIdx, if_neg (by omega)]

/-- The store after the acknowledgement of word w's only persisting write. -/
def pstAcked (p : Pst) (w : Nat) : Pst := pstNext { p with busy := [], badWords := p.badWords.filter (· != w) } w

theorem execPersistAck_only {s : State} {w : Fin 4096} {v : Word} (hb : s.pst.busy = [(w.val, v)]) :
    (∀ q, regIdx 0x040 1 4 w = some q → execPersistAck w s = .next (trimAck (s.modPst fun p => pstAcked p w) q)) ∧
    (regIdx 0x040 1 4 w = none → execPersistAck w s = .next (keyAck (s.modPst fun p => pstAcked p w) w)) := by
  have hm : (s.modPst fun p => pstNext { p with busy := p.busy.erase (w.val, v), badWords := p.badWords.filter (· != w.val) } w) =
      s.modPst fun p => pstAcked p w := by
    simp [State.modPst, pstAcked, hb]
  have hf : (s.pst.busy.find? fun b => b.1 == w.val) = some (w.val, v) := by simp [hb]
  constructor
  · intro q hq
    simp only [execPersistAck, hf, hm, hq]
  · intro hq
    simp only [execPersistAck, hf, hm, hq]

theorem pstAcked_words (p : Pst) (w : Nat) : (pstAcked p w).words = p.words := by
  unfold pstAcked pstNext
  split <;> rfl

theorem pstAcked_badWords (p : Pst) (w : Nat) : (pstAcked p w).badWords = p.badWords.filter (· != w) := by
  unfold pstAcked pstNext
  split <;> rfl

theorem pstAcked_idle {p : Pst} (w : Nat) (h : p.held = []) : pstAcked p w = { p with busy := [], badWords := p.badWords.filter (· != w) } := by
  simp [pstAcked, pstNext, h]

theorem pstAcked_next {p : Pst} {w : Nat} {x : Word} {rest : List (Nat × Word)} (h : p.held = (w, x) :: rest) :
    pstAcked p w = { p with busy := [(w, x)], held := rest, badWords := p.badWords.filter (· != w) } := by
  simp [pstAcked, pstNext, h]

@[simp] theorem trim_modTrim_same (s : State) (q : Nat) (f : Trim → Trim) : (s.modTrim q f).trim q = f (s.trim q) :=
  sget_smod_same _ _ _ _

theorem aimTrim_trims (s : State) (q : Nat) : (aimTrim s q).trims = s.trims := by
  rw [aimTrim, State.modPwr_trims]

theorem lowerTrim_pst (s : State) (q : Nat) : (lowerTrim s q).pst = s.pst := by
  rw [lowerTrim, aimTrim, State.modPwr_pst, State.modTrim_pst]

theorem trim_lowerTrim_same (s : State) (q : Nat) :
    (lowerTrim s q).trim q = { s.trim q with guard_ := (s.trim q).guard_ - 5, lowering := false, lowerDue := false } := by
  rw [lowerTrim, State.trim, aimTrim_trims]
  exact trim_modTrim_same s q _

/-- Without a lowering that waits, an acknowledged trim word changes nothing. -/
theorem trimAck_idle {s : State} {q : Nat} (hl : (s.trim q).lowering = false) : trimAck s q = s := by
  rw [trimAck, hl]
  rfl

/-- A lowering that waits for its acknowledgement is applied, or, during a move, is due (R332). -/
theorem trimAck_lowering {s : State} {q : Nat} (hl : (s.trim q).lowering = true) :
    (trimAck s q).pst = s.pst ∧ ((trimAck s q).trim q).lowering = false ∧
      (trimFree s = true → ((trimAck s q).trim q).guard_ = (s.trim q).guard_ - 5 ∧ ((trimAck s q).trim q).lowerDue = false) ∧
      (trimFree s = false → ((trimAck s q).trim q).guard_ = (s.trim q).guard_ ∧ ((trimAck s q).trim q).lowerDue = true) := by
  cases hf : trimFree s with
  | true =>
    rw [show trimAck s q = lowerTrim s q by rw [trimAck, hl, hf]; rfl, trim_lowerTrim_same, lowerTrim_pst]
    exact ⟨rfl, rfl, fun _ => ⟨rfl, rfl⟩, nofun⟩
  | false =>
    rw [show trimAck s q = s.modTrim q fun t => { t with lowering := false, lowerDue := true } by rw [trimAck, hl, hf]; rfl,
      trim_modTrim_same]
    exact ⟨rfl, rfl, nofun, fun _ => ⟨rfl, rfl⟩⟩

/-- Settles O11. -/
theorem persistentStoreWrites : Obligations.PersistentStoreWrites := by
  refine ⟨fun s p v m off w hreg hw hn hb => ?_, fun s v m off w hreg hw hn hb => ?_, fun s p v m off w hreg hw hn hb => ?_,
    fun s w v hb hw => ?_, fun s q v hb hh => ?_⟩
  · refine ⟨_, exec_wpWrite p v hreg hw, ?_⟩
    rw [hb, Bool.and_false, if_neg (by simp), pstWrite_begins _ hn hb]
    exact ⟨rfl, rfl, rfl, sget_sset_same _ _ _ _, sget_smod_same 0 s.pst.writes w (· + 1),
      fun x hx => ⟨sget_sset_other _ _ _ _ _ hx, sget_smod_other 0 s.pst.writes w (· + 1) x hx⟩⟩
  · refine ⟨(exec_wpWrite .ring v hreg hw).trans (by rw [hb]; rfl), _, exec_wpWrite .fabric v hreg hw, ?_⟩
    rw [if_neg (by simp), pstWrite_holds _ hn hb]
    exact ⟨rfl, rfl, sget_sset_same _ _ _ _, sget_smod_same 0 s.pst.writes w (· + 1)⟩
  · refine ⟨_, exec_wpWrite p v hreg hw, ?_⟩
    obtain ⟨-, -, hlt, -⟩ := wpReg_facts hreg
    rw [hb, Bool.and_false, if_neg (by simp), pstWrite_worn _ hn]
    exact ⟨rfl, (BitVec.toNat_ofNat _ _).trans (Nat.mod_eq_of_lt hlt), bit_setBit_true _ (by decide)⟩
  · refine ⟨_, (execPersistAck_only hb).2 (regIdx_trim_none (by omega)), ?_⟩
    rw [keyAck_other (by omega)]
    refine ⟨rfl, pstAcked_words _ _, ?_, fun hh => ?_, fun x rest hh => ?_⟩
    · have hbad : ((pstAcked s.pst w).badWords.contains w.val) = false := by simp [pstAcked_badWords]
      rw [pstRead, if_neg (by simp only [State.modPst, hbad]; simp)]
      exact congrArg (sget 0 · w.val) (pstAcked_words s.pst w)
    · simp [pstBusy, State.modPst, pstAcked_idle _ hh]
    · simp [State.modPst, pstAcked_next hh]
  · have hidx : regIdx 0x40 1 4 (0x40 + q.val) = some q.val := by simpa using regIdx_at 0x40 4 (stride := 1) (k := q.val) (by omega) q.isLt
    refine ⟨_, (execPersistAck_only (w := ⟨0x40 + q.val, by omega⟩) hb).1 q hidx, ?_⟩
    generalize hs : (s.modPst fun p => pstAcked p (0x40 + q.val)) = s1
    have hwords : s1.pst.words = s.pst.words := by rw [← hs]; exact pstAcked_words _ _
    have hbusy : s1.pst.busy = [] := by rw [← hs]; simp [State.modPst, pstAcked_idle _ hh]
    have htrim : s1.trim q = s.trim q := by rw [← hs]; rfl
    have hfree : trimFree s1 = trimFree s := by rw [← hs]; rfl
    have hpst : s1 = { s with pst := s1.pst } := by rw [← hs]; rfl
    rw [← hwords, ← htrim, ← hfree]
    cases hl : (s1.trim q).lowering with
    | false =>
      rw [trimAck_idle hl]
      exact ⟨rfl, hbusy, fun _ => hpst, nofun⟩
    | true =>
      obtain ⟨hp, hlow, hgo, hwait⟩ := trimAck_lowering hl
      rw [hp]
      exact ⟨rfl, hbusy, nofun, fun _ => ⟨hlow, hgo, hwait⟩⟩

end Sys2Proof.Machine
end

section
/-! SUPPORT. Load plans: reading entries, injecting sequences and barriers, staging carriers (R163 to R169). -/

namespace Sys2Proof.Machine

/-! What leaves the streamers as they are. -/

/-- What each step of a loop keeps, the loop keeps. -/
theorem forEach_keeps {α β σ : Type} (g : σ → β) (f : σ → α → σ) (h : ∀ s a, g (f s a) = g s) :
    ∀ (l : List α) (s : σ), g (forEach l s f) = g s
  | [], _ => rfl
  | a :: l, s => (forEach_keeps g f h l (f s a)).trans (h s a)

theorem postEvent_cfgq (s : State) (e : Event) : (postEvent s e).cfgq = s.cfgq := by
  obtain ⟨v, f, l, h⟩ := postEvent_changes s e
  rw [h]

theorem spill_cfgq {w : Nat} (s : State) (key : Nat) (v : BitVec w) (n : Nat) : (s.spill key v n).cfgq = s.cfgq := rfl

theorem setSummary_cfgq (s : State) (i : Nat) : (setSummary s i).cfgq = s.cfgq := rfl

theorem pstWrite_cfgq (s : State) (w : Nat) (v : Word) : (pstWrite s w v).cfgq = s.cfgq := by
  unfold pstWrite
  split <;> rfl

theorem recordStack_cfgq (s : State) (k cause : Nat) (act : Action) : (recordStack s k cause act).cfgq = s.cfgq := by
  unfold recordStack
  dsimp only
  split
  · rw [postEvent_cfgq, setSummary_cfgq]; rfl
  · rw [State.modQuarter_cfgq, postEvent_cfgq, setSummary_cfgq]; rfl

theorem degrade_cfgq (s : State) (q reason : Nat) : (degrade s q reason).cfgq = s.cfgq := by
  unfold degrade event
  dsimp only
  split
  · rfl
  · rw [postEvent_cfgq, setSummary_cfgq, State.modQuarter_cfgq]

theorem failStack_cfgq (s : State) (st cause : Nat) : (failStack s st cause).cfgq = s.cfgq := by
  unfold failStack
  dsimp only
  split
  · rfl
  · have h (s1 : State) (hs : s1.cfgq = s.cfgq) (act : Action) : (recordStack (fenceStack s1 st) st cause act).cfgq = s.cfgq := by
      rw [recordStack_cfgq, fenceStack, pstWrite_cfgq]
      exact hs
    split
    · rw [degrade_cfgq]
      exact h _ (by split <;> rfl) _
    · exact h _ (by split <;> rfl) _

theorem ksUncorr_cfgq (s : State) (k : Nat) : (ksUncorr s k).cfgq = s.cfgq := by
  unfold ksUncorr
  dsimp only
  split
  · rw [failStack_cfgq, State.modKs_cfgq, spill_cfgq]
  · rw [State.modKs_cfgq, spill_cfgq]

theorem unitFault_cfgq (s : State) (u : Nat) (c : BitVec 8) (d : BitVec 64) : (unitFault s u c d).cfgq = s.cfgq := by
  unfold unitFault
  dsimp only
  split <;> rfl

theorem unitFault_chans (s : State) (u : Nat) (c : BitVec 8) (d : BitVec 64) : (unitFault s u c d).chans = s.chans := by
  unfold unitFault
  dsimp only
  split <;> rfl

theorem checkStranded_cfgq (s : State) (lu u : Nat) : (checkStranded s lu u).cfgq = s.cfgq := by
  unfold checkStranded
  split
  · exact unitFault_cfgq _ _ _ _
  · rfl

theorem checkStranded_chans (s : State) (lu u : Nat) : (checkStranded s lu u).chans = s.chans := by
  unfold checkStranded
  split
  · exact unitFault_chans _ _ _ _
  · rfl

theorem markChans_cfgq (s : State) (lu : Nat) (cfg : UnitCfg) : (markChans s lu cfg).cfgq = s.cfgq := by
  unfold markChans
  split
  · rfl
  · refine forEach_keeps (fun s : State => s.cfgq) _ (fun s p => ?_) _ s
    dsimp only
    split <;> rfl

@[simp] theorem cfgQ_modCfg_same (s : State) (q : Nat) (f : CfgQ → CfgQ) : (s.modCfg q f).cfgQ q = f (s.cfgQ q) :=
  sget_smod_same _ _ _ _

theorem cfgQ_congr {s t : State} (h : t.cfgq = s.cfgq) (q : Nat) : t.cfgQ q = s.cfgQ q := by
  rw [State.cfgQ, State.cfgQ, h]

/-! Channels. -/

@[simp] theorem chan_modChan_same (s : State) (lu p : Nat) (f : Chan → Chan) : (s.modChan lu p f).chan lu p = f (s.chan lu p) :=
  sget_smod_same _ _ _ _

theorem chan_congr {s t : State} (h : t.chans = s.chans) (lu p : Nat) : t.chan lu p = s.chan lu p := by
  rw [State.chan, State.chan, h]

/-- The table of channels lists a port with one value alone. -/
def ChanListed (s : State) (lu p : Nat) : Prop := ∀ c ∈ s.chans, c.1 = 16 * lu + p → c.2 = s.chan lu p

theorem ChanListed.congr {s t : State} {lu p : Nat} (hs : ChanListed s lu p) (h : t.chans = s.chans) : ChanListed t lu p := by
  intro c hc hk
  rw [h] at hc
  rw [chan_congr h, hs c hc hk]

theorem chanListed_modChan (s : State) (lu p : Nat) (f : Chan → Chan) : ChanListed (s.modChan lu p f) lu p := by
  intro c hc hk
  rw [chan_modChan_same]
  have hc : c ∈ sset Chan.init s.chans (16 * lu + p) (f (s.chan lu p)) := hc
  have hne := serase_ne s.chans (16 * lu + p)
  unfold sset at hc
  split at hc
  · exact absurd hk (hne c hc)
  · rcases (mem_sinsert _ _ _ _).1 hc with rfl | hc
    · rfl
    · exact absurd hk (hne c hc)

/-- A channel whose mark is taken off. -/
def unmarked (c : Chan) : Chan := { c with marked := none, closed := false }

theorem sget_eq_default_or_listed {α : Type} (d : α) (k : Nat) : ∀ m : Sparse α, sget d m k = d ∨ (k, sget d m k) ∈ m
  | [] => .inl rfl
  | (j, v) :: m => by
    rw [sget]
    split
    · next h => exact .inr (by simp [h])
    · exact (sget_eq_default_or_listed d k m).imp_right (List.mem_cons_of_mem _)

/-- Taking the marks off the channels whose numbers meet Q, and leaving out what has come to the reset value. -/
def unmarkTable (Q : Nat → Bool) (l : Sparse Chan) : Sparse Chan :=
  (l.filter fun c => !Q c.1 || unmarked c.2 != Chan.init).map fun c => if Q c.1 then (c.1, unmarked c.2) else c

theorem unmarkAll_chans (s : State) (q : Nat) : (unmarkAll s q).chans = unmarkTable (fun k => zoneOf (k / 16) / 12 == q) s.chans := rfl

theorem unmarkTable_cons (Q : Nat → Bool) (c : Nat × Chan) (l : Sparse Chan) :
    unmarkTable Q (c :: l) =
      if Q c.1 then (if unmarked c.2 = Chan.init then unmarkTable Q l else (c.1, unmarked c.2) :: unmarkTable Q l)
      else c :: unmarkTable Q l := by
  cases hQ : Q c.1 <;> by_cases h : unmarked c.2 = Chan.init <;> simp [unmarkTable, hQ, h]

theorem sget_unmarkTable (Q : Nat → Bool) (k : Nat) (v : Chan) : ∀ l : Sparse Chan, (∀ c ∈ l, c.1 = k → c.2 = v) →
    sget Chan.init (unmarkTable Q l) k = if Q k then unmarked (sget Chan.init l k) else sget Chan.init l k
  | [], _ => by
    show Chan.init = _
    split <;> rfl
  | (j, w) :: l, h => by
    have ih := sget_unmarkTable Q k v l fun c hc => h c (by simp [hc])
    rw [unmarkTable_cons]
    by_cases hj : j = k
    · subst hj
      obtain rfl : w = v := h (j, w) (by simp) rfl
      cases hQ : Q j with
      | false => simp [sget]
      | true =>
        by_cases hw : unmarked w = Chan.init
        · rw [hQ, if_pos rfl] at ih
          rw [if_pos rfl, if_pos hw, ih, if_pos rfl, sget, if_pos rfl]
          rcases sget_eq_default_or_listed Chan.init j l with hl | hl
          · rw [hl, hw]
            rfl
          · exact congrArg unmarked (h _ (List.mem_cons_of_mem _ hl) rfl)
        · simp [sget, hw]
    · rw [sget, if_neg hj, ← ih]
      split
      · split
        · rfl
        · rw [sget, if_neg hj]
      · rw [sget, if_neg hj]

/-- A channel listed once, after the marks of a quarter's channels have been taken off. -/
theorem chan_unmarkAll {s : State} {lu p : Nat} (q : Nat) (h : ChanListed s lu p) :
    (unmarkAll s q).chan lu p = if zoneOf ((16 * lu + p) / 16) / 12 == q then unmarked (s.chan lu p) else s.chan lu p := by
  rw [State.chan, unmarkAll_chans]
  exact sget_unmarkTable (fun k => zoneOf (k / 16) / 12 == q) _ _ s.chans h

/-! The end of a plan (R167, R168). -/

theorem dropEntry_changes (s : State) (it : PlanItem) : ∃ d, dropEntry s it = { s with entryDue := d } := by
  unfold dropEntry
  split
  · exact ⟨_, rfl⟩
  · exact ⟨s.entryDue, rfl⟩

theorem dropEntries_changes : ∀ (l : List PlanItem) (s : State), ∃ d, forEach l s dropEntry = { s with entryDue := d }
  | [], s => ⟨s.entryDue, rfl⟩
  | it :: l, s => by
    obtain ⟨d, hd⟩ := dropEntry_changes s it
    obtain ⟨e, he⟩ := dropEntries_changes l (dropEntry s it)
    exact ⟨e, he.trans (by rw [hd])⟩

/-- A streamer whose plan has ended with an error, 0 for none. -/
def planEnded (error : Nat) (c : CfgQ) : CfgQ :=
  { c with start := false, abort := false, state := if error = 0 then 2 else 3, error := BitVec.ofNat 6 error,
           items := [], owner := none, aborted := c.aborted || error = 4 }

/-- The end of a plan that firmware started changes its streamer, the marks of the quarter's channels and the entries due, only. -/
theorem planEnd_unowned {s : State} {q : Nat} (error : Nat) (ho : (s.cfgQ q).owner = none) :
    ∃ d, planEnd s q error = ({ unmarkAll s q with entryDue := d } : State).modCfg q (planEnded error) := by
  obtain ⟨d, hd⟩ := dropEntries_changes (s.cfgQ q).items.reverse (unmarkAll s q)
  refine ⟨d, ?_⟩
  unfold planEnd
  simp only [ho, hd]
  rfl

theorem planEnd_cfgQ {s : State} {q : Nat} (error : Nat) (ho : (s.cfgQ q).owner = none) :
    (planEnd s q error).cfgQ q = planEnded error (s.cfgQ q) := by
  obtain ⟨d, h⟩ := planEnd_unowned error ho
  rw [h, cfgQ_modCfg_same]
  rfl

theorem planEnd_units {s : State} {q : Nat} (error : Nat) (ho : (s.cfgQ q).owner = none) : (planEnd s q error).units = s.units := by
  obtain ⟨d, h⟩ := planEnd_unowned error ho
  rw [h]
  rfl

theorem planEnd_chans {s : State} {q : Nat} (error : Nat) (ho : (s.cfgQ q).owner = none) :
    (planEnd s q error).chans = (unmarkAll s q).chans := by
  obtain ⟨d, h⟩ := planEnd_unowned error ho
  rw [h]
  rfl

/-! Items of a plan after a delivery. -/

/-- The items of a plan once one of them has been put back. -/
def itemsPut (l : List PlanItem) (it : PlanItem) : List PlanItem :=
  if it.ports.isEmpty && !it.fabricWait && !it.staging then l.filter fun j => j.idx != it.idx
  else l.map fun j => if j.idx = it.idx then it else j

theorem itemsPut_idx {l : List PlanItem} {it j : PlanItem} (hj : j ∈ itemsPut l it) (hi : j.idx = it.idx) : j = it := by
  unfold itemsPut at hj
  split at hj
  · exact absurd hi (by simpa using (List.mem_filter.1 hj).2)
  · obtain ⟨k, -, rfl⟩ := List.mem_map.1 hj
    by_cases h : k.idx = it.idx
    · exact if_pos h
    · exact absurd hi (by rwa [if_neg h])

theorem mem_itemsPut {l : List PlanItem} {it j : PlanItem} (hj : j ∈ l) (hi : j.idx = it.idx) (hp : it.ports ≠ []) : it ∈ itemsPut l it := by
  rw [itemsPut, if_neg (by simp [hp])]
  exact List.mem_map.2 ⟨j, hj, if_pos hi⟩

/-- Putting an item back changes the streamer alone, and then ends the plan where nothing of it is left. -/
theorem putItem_cases (s : State) (q : Nat) (it : PlanItem) :
    ∃ e, let s1 := s.modCfg q fun c => { c with items := itemsPut (s.cfgQ q).items it, entry := e }
      putItem s q it = s1 ∨ (itemsPut (s.cfgQ q).items it = [] ∧ putItem s q it = planEnd s1 q 0) := by
  refine ⟨BitVec.ofNat 16 (match itemsPut (s.cfgQ q).items it with
    | j :: _ => j.idx
    | [] => if (s.cfgQ q).taken < (s.cfgQ q).planLen then (s.cfgQ q).taken else (s.cfgQ q).planLen - 1), ?_⟩
  by_cases h : ((itemsPut (s.cfgQ q).items it).isEmpty && (s.cfgQ q).taken == (s.cfgQ q).planLen) = true
  · exact .inr ⟨List.isEmpty_iff.1 (Bool.and_eq_true_iff.1 h).1, if_pos h⟩
  · exact .inl (if_neg h)

theorem putItem_items {s : State} {q : Nat} (it : PlanItem) (ho : (s.cfgQ q).owner = none) :
    ((putItem s q it).cfgQ q).items = itemsPut (s.cfgQ q).items it := by
  obtain ⟨e, h | ⟨hn, h⟩⟩ := putItem_cases s q it
  · rw [h, cfgQ_modCfg_same]
  · rw [h, planEnd_cfgQ 0 (by rw [cfgQ_modCfg_same]; exact ho), hn]
    rfl

theorem putItem_units {s : State} {q : Nat} (it : PlanItem) (ho : (s.cfgQ q).owner = none) : (putItem s q it).units = s.units := by
  obtain ⟨e, h | ⟨-, h⟩⟩ := putItem_cases s q it
  · rw [h, State.modCfg_units]
  · rw [h, planEnd_units 0 (by rw [cfgQ_modCfg_same]; exact ho), State.modCfg_units]

/-- Putting an item back leaves a channel as it is, but may take its mark off. -/
theorem putItem_chan {s : State} {q lu p : Nat} (it : PlanItem) (ho : (s.cfgQ q).owner = none) (hc : ChanListed s lu p) :
    (putItem s q it).chan lu p = s.chan lu p ∨ (putItem s q it).chan lu p = unmarked (s.chan lu p) := by
  obtain ⟨e, h | ⟨-, h⟩⟩ := putItem_cases s q it
  · exact .inl (by rw [h]; rfl)
  · have hl := hc.congr (State.modCfg_chans s q fun c => { c with items := itemsPut (s.cfgQ q).items it, entry := e })
    rw [h, chan_congr (planEnd_chans 0 (by rw [cfgQ_modCfg_same]; exact ho)), chan_unmarkAll q hl]
    split
    · exact .inr rfl
    · exact .inl rfl

/-! STAGING_CARRIER (R165). -/

theorem carrierIn_cfgq (s : State) (lu u port : Nat) : (carrierIn s lu u port).cfgq = s.cfgq := by
  unfold carrierIn
  dsimp only
  split
  · exact unitFault_cfgq _ _ _ _
  · split
    · rfl
    · exact unitFault_cfgq _ _ _ _

/-- A unit whose shadow has taken in a whole carrier through a port. -/
def carrierTaken (now port : Nat) (x : UnitSt) : UnitSt :=
  { x with settled := some now, shadow := { x.shadow with carriers := x.shadow.carriers + 1, carrierPort := port } }

/-- A whole carrier is counted in its unit's shadow; a check that fails may stop the unit. -/
theorem carrierIn_unit (s : State) (lu u port : Nat) :
    ∃ x, (carrierIn s lu u port).unit u = { carrierTaken (s.zone (physZone u)).sched port (s.unit u) with stopped := x } := by
  have hmod := unit_modUnit_same s u (carrierTaken (s.zone (physZone u)).sched port)
  have hfault : ∃ x, (unitFault (s.modUnit u (carrierTaken (s.zone (physZone u)).sched port)) u cConfig 0).unit u =
      { carrierTaken (s.zone (physZone u)).sched port (s.unit u) with stopped := x } := by
    obtain ⟨x, hx⟩ := unitFault_unit (s.modUnit u (carrierTaken (s.zone (physZone u)).sched port)) u cConfig 0
    exact ⟨x, by rw [hx, if_pos rfl, hmod]⟩
  unfold carrierIn
  dsimp only
  split
  · exact hfault
  · split
    · exact ⟨(s.unit u).stopped, hmod⟩
    · exact hfault

theorem stagingCarrier_writesShadow (s : State) (q : Fin 4) (lu : Fin 9216) (it : PlanItem) (u : Nat) (hu : s.phys lu = some u)
    (hit : (s.cfgQ q).items.find? (fun j => j.lu == lu.val && j.staging) = some it) (ho : (s.cfgQ q).owner = none) :
    ∃ t, exec (.stagingCarrier q lu) s = .next t ∧ (t.unit u).shadow.cfg = it.cfg ∧ (t.unit u).shadow.count = 32 ∧
      (t.unit u).shadow.carriers = (s.unit u).shadow.carriers + 1 ∧ (t.unit u).cfg = (s.unit u).cfg := by
  let s1 := s.modUnit u fun x => { x with shadow := { x.shadow with cfg := it.cfg, count := 32 } }
  have hx : exec (.stagingCarrier q lu) s = .next (putItem (carrierIn s1 lu u 15) q { it with staging := false }) := by
    show execStagingCarrier q lu s = _
    simp only [execStagingCarrier, hit, hu]
    rfl
  have ho1 : ((carrierIn s1 lu u 15).cfgQ q).owner = none := by rw [cfgQ_congr (carrierIn_cfgq s1 lu u 15)]; exact ho
  obtain ⟨x, hunit⟩ := carrierIn_unit s1 lu u 15
  refine ⟨_, hx, ?_⟩
  rw [State.unit, putItem_units _ ho1, ← State.unit, hunit, unit_modUnit_same]
  exact ⟨rfl, rfl, rfl, rfl⟩

/-! FABRIC_BARRIER_INJECT (R164). -/

/-- A port without a ring to fill keeps its tokens. -/
theorem ringFill_idle {s : State} {lu u p : Nat} (h : isMu u = true ∨ curBind (s.unit u) (isMu u) false p = none) (n : Nat) :
    ringFill s lu u p n = s := by
  cases n with
  | zero => rfl
  | succ n =>
    rw [ringFill]
    split
    · next hb =>
      rcases h with h | h
      · simp [h]
      · simp [h] at hb
    · rfl

theorem unitFault_curBind (s : State) (u : Nat) (c : BitVec 8) (d : BitVec 64) (mu out : Bool) (p : Nat) :
    curBind ((unitFault s u c d).unit u) mu out p = curBind (s.unit u) mu out p := by
  obtain ⟨x, hx⟩ := unitFault_unit s u c d
  rw [hx, if_pos rfl]
  rfl

/-- A channel that a token has reached: behind a bore that holds tokens, or a full queue, it waits for the bore (R169). -/
def enqueued (t : Token) (c : Chan) : Chan :=
  if !c.boreRows.isEmpty || !c.spill.isEmpty || decide (16 ≤ c.queue.length) then { c with spill := c.spill ++ [t] }
  else { c with queue := c.queue ++ [t] }

/-- At a port without a ring to fill, a token that comes changes its channel, and no other, nor a streamer. -/
theorem enqueue_idle {s : State} {lu u p : Nat} (t : Token) (h : isMu u = true ∨ curBind (s.unit u) (isMu u) false p = none) :
    (enqueue s lu u p t).chans = (s.modChan lu p (enqueued t)).chans ∧ (enqueue s lu u p t).cfgq = s.cfgq := by
  have hmod : (s.modChan lu p fun c => if (!(s.chan lu p).boreRows.isEmpty || !(s.chan lu p).spill.isEmpty ||
      decide (16 ≤ (s.chan lu p).queue.length)) = true then { c with spill := c.spill ++ [t] } else { c with queue := c.queue ++ [t] }) =
      s.modChan lu p (enqueued t) := rfl
  unfold enqueue
  dsimp only
  rw [hmod]
  split
  · rw [ringFill_idle (s := s.modChan lu p (enqueued t)) h]
    exact ⟨checkStranded_chans _ _ _, checkStranded_cfgq _ _ _⟩
  · rw [ringFill_idle (by rw [unitFault_curBind]; exact h)]
    exact ⟨(checkStranded_chans _ _ _).trans (unitFault_chans _ _ _ _), (checkStranded_cfgq _ _ _).trans (unitFault_cfgq _ _ _ _)⟩

theorem parOk_mkToken (payload : Row) (gen : BitVec 2) (last : Bool) : parOk (mkToken payload gen last) = true := by
  simp [parOk, mkToken]


/-! PLAN_ENTRY (R166, R167). -/

/-- The units that plans may name are what the fences and the units of the state say. -/
theorem entryError_congr {s t : State} (hf : t.flt = s.flt) (hu : t.units = s.units) (q : Nat) (h : Row) :
    entryError t q h = entryError s q h := by
  have hw : t.fenceWord = s.fenceWord := funext fun z => by rw [State.fenceWord, State.fenceWord, hf]
  have hp : t.phys = s.phys := funext fun lu => by rw [State.phys, State.phys, hw]
  have hx : t.unit = s.unit := funext fun u => by rw [State.unit, State.unit, hu]
  unfold entryError
  rw [hp, hx]

/-- What a streamer does with the rows of entry i: it takes the entry up, with a sequence to send to each of the ports it feeds, or stops its plan where they could not be read or are refused. -/
def entryTried (c : CfgQ) (s : State) (q i : Nat) (rows : List Row) (readable : Bool) (feed : List Nat) : State :=
  let h := nth 0 rows 0
  let e := if readable then entryError s q h else 3
  if e ≠ 0 then planEnd (s.modCfg q fun c => { c with entry := BitVec.ofNat 16 i }) q e
  else
    let lu := entryLu h
    let cfg := entryCfg rows
    let s1 := markChans s lu cfg
    let fabg := bit h 31
    let s2 := { s1 with entryDue := smod [] s1.entryDue lu (· ++ [(c.planSrc, c.planAddr + 2112 * i)]) }
    let tag := (s2.cfgQ q).waitTag
    let s3 := if fabg then streamerWait s2 q (fld h 32 17) tag else s2
    s3.modCfg q fun c =>
      { c with taken := i + 1, asked := s3.tick, waitTag := if fabg then tag + 1 else tag,
               items := c.items ++ [{ idx := i, lu := lu, carrier := fld h 20 4, piton := h.extractLsb' 32 17, fabg := fabg,
                                      cfg := cfg, ports := feed.map fun p => (p, 0), fabricWait := fabg, tag := tag,
                                      asked := fabg, ready := false, staging := decide (fld h 20 4 = 15) }] }

theorem spill_flt {w : Nat} (s : State) (key : Nat) (v : BitVec w) (n : Nat) : (s.spill key v n).flt = s.flt := rfl

theorem spill_units {w : Nat} (s : State) (key : Nat) (v : BitVec w) (n : Nat) : (s.spill key v n).units = s.units := rfl

/-- A corrected read counts its correction and changes no streamer, fence or unit. -/
theorem ksCorrected_frame (s : State) (k n : Nat) :
    (ksCorrected s k n).cfgq = s.cfgq ∧ (ksCorrected s k n).flt = s.flt ∧ (ksCorrected s k n).units = s.units := by
  unfold ksCorrected
  rw [State.modKs_cfgq, State.modKs_flt, State.modKs_units, spill_cfgq, spill_flt, spill_units]
  exact ⟨rfl, rfl, rfl⟩

/-- An entry read without an error is what the checks of R167 see; the read leaves the streamers as they are. -/
theorem exec_planEntry {s : State} {q : Fin 4} (r : ReadErr) (hs : (s.cfgQ q).start = true) (hl : (s.cfgQ q).taken < (s.cfgQ q).planLen)
    (hk : (s.cfgQ q).planSrc = true ∨ ((s.kst q).trained = true ∧ (s.kst q).failed = false)) :
    ∃ u, u.cfgq = s.cfgq ∧ (r ≠ .uncorrectable → u.flt = s.flt ∧ u.units = s.units) ∧
      ∃ feed, exec (.planEntry q r) s =
        .next (entryTried (s.cfgQ q) u q (s.cfgQ q).taken (entryRows s q (s.cfgQ q).taken) (decide (r ≠ .uncorrectable)) feed) := by
  have hx : exec (.planEntry q r) s = execPlanEntry q r s := rfl
  have hgo : (!(s.cfgQ q).start || decide ((s.cfgQ q).planLen ≤ (s.cfgQ q).taken)) = false := by simp [hs, hl]
  rw [hx]
  unfold execPlanEntry entryTried
  simp only [hgo, Bool.false_eq_true, if_false]
  cases hp : (s.cfgQ q).planSrc with
  | true => exact ⟨s, rfl, fun _ => ⟨rfl, rfl⟩, _, rfl⟩
  | false =>
    obtain ⟨ht, hf⟩ := hk.resolve_left (by simp [hp])
    have hgone : ¬ ((s.kst q).failed || !(s.kst q).trained) = true := by simp [ht, hf]
    unfold ksRead
    simp only [hgone, if_false, Bool.false_eq_true]
    cases r with
    | clean => exact ⟨s, rfl, fun _ => ⟨rfl, rfl⟩, _, rfl⟩
    | corrected b => 
      obtain ⟨hc, hfu⟩ := ksCorrected_frame s q 1
      exact ⟨ksCorrected s q 1, hc, fun _ => hfu, _, rfl⟩
    | uncorrectable => exact ⟨ksUncorr s q, ksUncorr_cfgq s q, fun h => absurd rfl h, _, rfl⟩

/-- Asking for a piton sends a packet and changes no streamer. -/
theorem streamerWait_cfgq (s : State) (q i : Nat) (tag : Word) : (streamerWait s q i tag).cfgq = s.cfgq := rfl

/-- An entry that passes the checks becomes the youngest item of the plan. -/
theorem entryTried_takesUp {s : State} {q : Nat} (c : CfgQ) (i : Nat) (rows : List Row) (feed : List Nat)
    (he : entryError s q (nth 0 rows 0) = 0) :
    ((entryTried c s q i rows true feed).cfgQ q).taken = i + 1 ∧
      ∃ it, ((entryTried c s q i rows true feed).cfgQ q).items = (s.cfgQ q).items ++ [it] ∧ it.idx = i ∧
        it.lu = entryLu (nth 0 rows 0) ∧ it.cfg = entryCfg rows := by
  unfold entryTried
  simp only [he, if_true, ne_eq, not_true_eq_false, if_false, cfgQ_modCfg_same]
  refine ⟨trivial, _, congrArg (fun x : CfgQ => x.items ++ _) (cfgQ_congr ?_ q), rfl, rfl, rfl⟩
  split
  · exact (streamerWait_cfgq _ _ _ _).trans (markChans_cfgq s _ _)
  · exact markChans_cfgq s _ _

/-- An entry that cannot be read, or fails a check, stops the plan with the error that says so. -/
theorem entryTried_stops {s : State} {q : Nat} (c : CfgQ) (i : Nat) (rows : List Row) (readable : Bool) (feed : List Nat) {e : Nat}
    (he : (if readable then entryError s q (nth 0 rows 0) else 3) = e) (h0 : e ≠ 0) (ho : (s.cfgQ q).owner = none) :
    ((entryTried c s q i rows readable feed).cfgQ q).start = false ∧ ((entryTried c s q i rows readable feed).cfgQ q).state = 3 ∧
      ((entryTried c s q i rows readable feed).cfgQ q).entry = BitVec.ofNat 16 i ∧
      ((entryTried c s q i rows readable feed).cfgQ q).error = BitVec.ofNat 6 e := by
  unfold entryTried
  simp only [he]
  rw [if_pos h0, planEnd_cfgQ e (by rw [cfgQ_modCfg_same]; exact ho), cfgQ_modCfg_same]
  exact ⟨rfl, if_neg h0, rfl, rfl⟩

theorem planEntry_takesUpOrStops (s : State) (q : Fin 4) (r : ReadErr) (hs : (s.cfgQ q).start = true)
    (hl : (s.cfgQ q).taken < (s.cfgQ q).planLen)
    (hk : (s.cfgQ q).planSrc = true ∨ ((s.kst q).trained = true ∧ (s.kst q).failed = false)) :
    ∃ t, exec (.planEntry q r) s = .next t ∧
      (r ≠ .uncorrectable → entryError s q (nth 0 (entryRows s q (s.cfgQ q).taken) 0) = 0 →
        (t.cfgQ q).taken = (s.cfgQ q).taken + 1 ∧ ∃ it, (t.cfgQ q).items = (s.cfgQ q).items ++ [it] ∧ it.idx = (s.cfgQ q).taken ∧
          it.lu = entryLu (nth 0 (entryRows s q (s.cfgQ q).taken) 0) ∧ it.cfg = entryCfg (entryRows s q (s.cfgQ q).taken)) ∧
      (r ≠ .uncorrectable → entryError s q (nth 0 (entryRows s q (s.cfgQ q).taken) 0) ≠ 0 → (s.cfgQ q).owner = none →
        (t.cfgQ q).start = false ∧ (t.cfgQ q).state = 3 ∧ (t.cfgQ q).entry = BitVec.ofNat 16 (s.cfgQ q).taken ∧
        (t.cfgQ q).error = BitVec.ofNat 6 (entryError s q (nth 0 (entryRows s q (s.cfgQ q).taken) 0))) ∧
      (r = .uncorrectable → (s.cfgQ q).owner = none →
        (t.cfgQ q).start = false ∧ (t.cfgQ q).state = 3 ∧ (t.cfgQ q).entry = BitVec.ofNat 16 (s.cfgQ q).taken ∧ (t.cfgQ q).error = 3) := by
  obtain ⟨u, hc, hr, feed, hx⟩ := exec_planEntry r hs hl hk
  have hq : u.cfgQ q = s.cfgQ q := cfgQ_congr hc q
  refine ⟨_, hx, fun h he => ?_, fun h he ho => ?_, fun h ho => ?_⟩
  · obtain ⟨hf, hu⟩ := hr h
    rw [decide_eq_true h, ← hq]
    exact entryTried_takesUp _ _ _ _ (by rw [entryError_congr hf hu, hq, he])
  · obtain ⟨hf, hu⟩ := hr h
    exact entryTried_stops _ _ _ _ _ (by rw [decide_eq_true h, if_pos rfl, entryError_congr hf hu]) he (by rw [hq, ho])
  · exact entryTried_stops _ _ _ _ _ (if_neg (by simp [h])) (by decide) (by rw [hq, ho])


/-! Injection of a streamer's tokens (R167). -/

/-- On its way from s to t, the streamer of quarter q has brought channel p of lu to c, and its plan's items are as they were. -/
structure Injected (s t : State) (q lu p : Nat) (c : Chan) : Prop where
  chan : t.chan lu p = c
  listed : ChanListed t lu p
  items : (t.cfgQ q).items = (s.cfgQ q).items
  owner : (t.cfgQ q).owner = (s.cfgQ q).owner

/-- What changes neither the channels nor the streamers leaves it so. -/
theorem Injected.congr {s t t' : State} {q lu p : Nat} {c : Chan} (h : Injected s t q lu p c) (hch : t'.chans = t.chans)
    (hcf : t'.cfgq = t.cfgq) : Injected s t' q lu p c where
  chan := by rw [chan_congr hch, h.chan]
  listed := h.listed.congr hch
  items := by rw [cfgQ_congr hcf, h.items]
  owner := by rw [cfgQ_congr hcf, h.owner]

theorem Injected.modChan {s t : State} {q lu p : Nat} {c : Chan} (h : Injected s t q lu p c) (f : Chan → Chan) :
    Injected s (t.modChan lu p f) q lu p (f c) where
  chan := by rw [chan_modChan_same, h.chan]
  listed := chanListed_modChan t lu p f
  items := h.items
  owner := h.owner

/-- The use of a slot of the streamer changes no channel, and no item. -/
theorem useInjSlot_keeps (s : State) (q lu p : Nat) :
    (useInjSlot s q lu p).chans = s.chans ∧
      ((useInjSlot s q lu p).cfgQ q).items = (s.cfgQ q).items ∧ ((useInjSlot s q lu p).cfgQ q).owner = (s.cfgQ q).owner := by
  unfold useInjSlot
  rw [cfgQ_modCfg_same]
  exact ⟨rfl, rfl, rfl⟩

/-- A streamer that injects changes the channel. -/
theorem injected_useInjSlot (s : State) (q lu p : Nat) (f : Chan → Chan) :
    Injected s ((useInjSlot s q lu p).modChan lu p f) q lu p (f (s.chan lu p)) := by
  obtain ⟨hc, hi, ho⟩ := useInjSlot_keeps s q lu p
  exact ⟨by rw [chan_modChan_same, chan_congr hc], chanListed_modChan _ lu p f, hi, ho⟩

/-- After the injection the item is put back, and the end of the plan may take the channel's mark off. -/
theorem Injected.putItem {s t : State} {q lu p : Nat} {c : Chan} (h : Injected s t q lu p c) (it : PlanItem)
    (ho : (s.cfgQ q).owner = none) :
    ((putItem t q it).cfgQ q).items = itemsPut (s.cfgQ q).items it ∧
      ∃ m x, (putItem t q it).chan lu p = { c with marked := m, closed := x } ∧ (m = c.marked ∨ m = none) := by
  have ho' : (t.cfgQ q).owner = none := h.owner.trans ho
  refine ⟨by rw [putItem_items it ho', h.items], ?_⟩
  rw [← h.chan]
  rcases putItem_chan it ho' h.listed with hc | hc
  · exact ⟨_, _, hc, .inl rfl⟩
  · exact ⟨none, false, hc, .inr rfl⟩

/-- The first token of a sequence opens the next generation of its channel (R157). -/
def generationOpened (c : Chan) : Chan := { c with gen := c.gen + 1 }

theorem enqueued_gen (t : Token) (c : Chan) : (enqueued t c).gen = c.gen ∧ (enqueued t c).boreRows = c.boreRows := by
  unfold enqueued
  split <;> exact ⟨rfl, rfl⟩

theorem enqueued_of_room {t : Token} {c : Chan} (hb : c.boreRows = []) (hs : c.spill = []) (hl : c.queue.length < 16) :
    enqueued t c = { c with queue := c.queue ++ [t] } :=
  if_neg (by simp [hb, hs, hl])

theorem enqueued_of_full {t : Token} {c : Chan} (h : c.boreRows ≠ [] ∨ c.spill ≠ [] ∨ 16 ≤ c.queue.length) :
    enqueued t c = { c with spill := c.spill ++ [t] } :=
  if_pos (by simpa [or_assoc] using h)

/-- The barrier's one-token sequence of the next generation. -/
def barrierToken (c : Chan) : Token := mkToken 0 (c.gen + 1) true

/-- A barrier that may be injected joins port 8, and its item no longer waits for it. -/
theorem exec_fabricBarrierInject {s : State} {q : Fin 4} {lu : Fin 9216} {it : PlanItem} {u : Nat} (hu : s.phys lu = some u)
    (hit : (s.cfgQ q).items.find? (fun j => j.lu == lu.val && j.fabricWait) = some it) (hr : it.ready = true)
    (hroom : 0 < port8Room s lu) (hslot : injSlot s q lu 8 = true) :
    exec (.fabricBarrierInject q lu) s = .next (putItem
      (enqueue (noteMove ((useInjSlot s q lu 8).modChan lu 8 generationOpened) (zoneOf lu)) lu u 8 (barrierToken (s.chan lu 8))) q
      { it with fabricWait := false }) := by
  have hgo : ¬ (!it.ready || decide (port8Room s lu = 0) || !injSlot s q lu 8) = true := by simp [hr, hslot, hroom.ne']
  have hgen := (injected_useInjSlot s q lu 8 generationOpened).chan
  have htok : mkToken 0 (((useInjSlot s q lu 8).modChan lu 8 generationOpened).chan lu 8).gen true = barrierToken (s.chan lu 8) := by
    rw [hgen]
    rfl
  have hx : exec (.fabricBarrierInject q lu) s = execFabricBarrierInject q lu s := rfl
  rw [hx, ← htok]
  simp only [execFabricBarrierInject, hit, hu]
  rw [if_neg hgo]
  rfl

theorem fabricBarrierInject_joinsQueue (s : State) (q : Fin 4) (lu : Fin 9216) (it : PlanItem) (u : Nat) (hu : s.phys lu = some u)
    (hb : isMu u = true ∨ curBind (s.unit u) (isMu u) false 8 = none)
    (hit : (s.cfgQ q).items.find? (fun j => j.lu == lu.val && j.fabricWait) = some it) (hr : it.ready = true)
    (hroom : 0 < port8Room s lu) (hslot : injSlot s q lu 8 = true) (ho : (s.cfgQ q).owner = none) :
    let c := s.chan lu 8
    ∃ t tok, exec (.fabricBarrierInject q lu) s = .next t ∧ (t.chan lu 8).gen = c.gen + 1 ∧
      tok.payload = 0 ∧ tok.last = true ∧ tok.gen = c.gen + 1 ∧ parOk tok = true ∧ (t.chan lu 8).boreRows = c.boreRows ∧
      (c.boreRows = [] ∧ c.spill = [] ∧ c.queue.length < 16 → (t.chan lu 8).queue = c.queue ++ [tok] ∧ (t.chan lu 8).spill = []) ∧
      (c.boreRows ≠ [] ∨ c.spill ≠ [] ∨ 16 ≤ c.queue.length →
        (t.chan lu 8).queue = c.queue ∧ (t.chan lu 8).spill = c.spill ++ [tok]) := by
  intro c
  have h1 : Injected s (noteMove ((useInjSlot s q lu 8).modChan lu 8 generationOpened) (zoneOf lu)) q lu 8 (generationOpened c) :=
    (injected_useInjSlot s q lu 8 generationOpened).congr rfl rfl
  obtain ⟨hch, hcf⟩ := enqueue_idle (s := noteMove ((useInjSlot s q lu 8).modChan lu 8 generationOpened) (zoneOf lu))
    (barrierToken c) hb
  obtain ⟨-, m, x, hchan, -⟩ := ((h1.modChan (enqueued (barrierToken c))).congr hch hcf).putItem { it with fabricWait := false } ho
  refine ⟨_, barrierToken c, exec_fabricBarrierInject hu hit hr hroom hslot, ?_⟩
  obtain ⟨hg, hbr⟩ := enqueued_gen (barrierToken c) (generationOpened c)
  rw [hchan]
  refine ⟨hg, rfl, rfl, rfl, parOk_mkToken _ _ _, hbr, fun ⟨hb0, hs0, hl⟩ => ?_, fun hf => ?_⟩
  · rw [enqueued_of_room (c := generationOpened c) hb0 hs0 hl]
    exact ⟨rfl, hs0⟩
  · rw [enqueued_of_full (c := generationOpened c) hf]
    exact ⟨rfl, rfl⟩


/-! SEQUENCE_INJECT (R157, R160, R163). -/

/-- Token k of the sequence that an item sends to port p: a carrier's holds 512 bits of the configuration, any other's is a barrier. -/
def sequenceToken (it : PlanItem) (p k : Nat) (gen : BitVec 2) : Token :=
  mkToken (if it.carrier == p then it.cfg.extractLsb' (512 * k) 512 else 0) gen (!(it.carrier == p) || k == 31)

/-- A channel that a token has entered, a credit spent, in schedule cycle n. -/
def tokenSent (lu p n : Nat) (t : Token) (c : Chan) : Chan :=
  { c with spent := c.spent + 1, flight := c.flight ++ [⟨t, chanLocal p, (chanBelay lu p).isSome⟩], sent := some n }

/-- A channel after token k of a sequence: the first opens a generation, the last takes the mark off. -/
def sequenceSent (it : PlanItem) (lu p k n : Nat) (c : Chan) : Chan :=
  let c1 := if k = 0 then generationOpened c else c
  let c2 := tokenSent lu p n (sequenceToken it p k c1.gen) c1
  if !(it.carrier == p) || k == 31 then unmarked c2 else c2

/-- Ports that an item has still to serve after token k to port p. -/
def portsAfter (it : PlanItem) (p k : Nat) : List (Nat × Nat) :=
  if !(it.carrier == p) || k == 31 then it.ports.filter fun e => e.1 != p
  else it.ports.map fun e => if e.1 = p then (e.1, k + 1) else e

theorem sequenceSent_fields (it : PlanItem) (lu p k n : Nat) (c : Chan) :
    (sequenceSent it lu p k n c).gen = (if k = 0 then c.gen + 1 else c.gen) ∧ (sequenceSent it lu p k n c).spent = c.spent + 1 ∧
      (sequenceSent it lu p k n c).sent = some n ∧
      (sequenceSent it lu p k n c).flight =
        c.flight ++ [⟨sequenceToken it p k (if k = 0 then c.gen + 1 else c.gen), chanLocal p, (chanBelay lu p).isSome⟩] := by
  unfold sequenceSent
  by_cases hk : k = 0
  · simp only [if_pos hk]
    split <;> exact ⟨rfl, rfl, rfl, rfl⟩
  · simp only [if_neg hk]
    split <;> exact ⟨rfl, rfl, rfl, rfl⟩

theorem sequenceSent_marked {it : PlanItem} {p k : Nat} (hl : (!(it.carrier == p) || k == 31) = true) (lu n : Nat) (c : Chan) :
    (sequenceSent it lu p k n c).marked = none := by
  unfold sequenceSent
  rw [if_pos hl]
  rfl

theorem portsAfter_last {it : PlanItem} {p k : Nat} (hl : (!(it.carrier == p) || k == 31) = true) : ∀ e ∈ portsAfter it p k, e.1 ≠ p := by
  intro e he
  rw [portsAfter, if_pos hl] at he
  simpa using (List.mem_filter.1 he).2

theorem portsAfter_next {it : PlanItem} {p k : Nat} (hl : (!(it.carrier == p) || k == 31) = false)
    (hk : it.ports.find? (fun e => e.1 == p) = some (p, k)) : (p, k + 1) ∈ portsAfter it p k := by
  rw [portsAfter, if_neg (by simp [hl])]
  exact List.mem_map.2 ⟨(p, k), List.mem_of_find?_eq_some hk, if_pos rfl⟩

/-- The state with token k of the item's sequence in channel p of lu, the item not yet put back. -/
def sequenceInjected (s : State) (q lu p : Nat) (it : PlanItem) (k : Nat) : State :=
  let s := useInjSlot s q lu p
  let s := if k = 0 then s.modChan lu p generationOpened else s
  let s := sendInto s lu p (sequenceToken it p k (s.chan lu p).gen)
  if !(it.carrier == p) || k == 31 then s.modChan lu p unmarked else s

/-- A token that enters a channel changes that channel, and no item of a plan. -/
theorem injected_sendInto {s t : State} {q lu p : Nat} {c : Chan} (tok : Token) (hc : t.chan lu p = c)
    (hi : (t.cfgQ q).items = (s.cfgQ q).items) (ho : (t.cfgQ q).owner = (s.cfgQ q).owner) :
    Injected s (sendInto t lu p tok) q lu p (tokenSent lu p (sendCycle t lu p) tok c) := by
  have h : Injected s (t.modChan lu p (tokenSent lu p (sendCycle t lu p) tok)) q lu p (tokenSent lu p (sendCycle t lu p) tok c) :=
    ⟨by rw [chan_modChan_same, hc], chanListed_modChan _ _ _ _, hi, ho⟩
  exact h.congr rfl rfl

theorem injected_sequence (s : State) (q lu p : Nat) (it : PlanItem) (k : Nat) :
    Injected s (sequenceInjected s q lu p it k) q lu p (sequenceSent it lu p k (sendCycle s lu p) (s.chan lu p)) := by
  obtain ⟨hc, hi, ho⟩ := useInjSlot_keeps s q lu p
  have hmark {t : State} {c : Chan} (h : Injected s t q lu p c) :
      Injected s (if !(it.carrier == p) || k == 31 then t.modChan lu p unmarked else t) q lu p
        (if !(it.carrier == p) || k == 31 then unmarked c else c) := by
    split
    · exact h.modChan unmarked
    · exact h
  unfold sequenceInjected sequenceSent
  refine hmark ?_
  split
  · have h1 := injected_useInjSlot s q lu p generationOpened
    rw [h1.chan]
    exact injected_sendInto _ h1.chan h1.items h1.owner
  · rw [chan_congr hc]
    exact injected_sendInto _ (chan_congr hc lu p) hi ho

/-- The streamer may send a token of a sequence where its producer is done, the channel has a credit and took no token in this cycle. -/
theorem exec_sequenceInject {s : State} {q : Fin 4} {lu : Fin 9216} {p : Fin 9} {it : PlanItem} {k : Nat}
    (hit : (s.cfgQ q).items.find? (fun j => j.lu == lu.val && j.ports.any fun e => e.1 == p.val) = some it)
    (hk : it.ports.find? (fun e => e.1 == p.val) = some (p.val, k))
    (hready : ∀ w, neighbour lu p = some w →
      (((s.chan lu p).closed = true ∨ producerDone s w ((s.chan lu p).marked.getD 0) = true) ∧ sendPending s lu p = false) ∨ 0 < k)
    (hslot : injSlot s q lu p = true) (hcred : 0 < creditsIn s lu p) (hq : (s.quarter q).inReset = false) :
    ((s.chan lu p).sent = some (sendCycle s lu p) → exec (.sequenceInject q lu p) s = .next s) ∧
    ((s.chan lu p).sent ≠ some (sendCycle s lu p) →
      ∃ t, exec (.sequenceInject q lu p) s = .next (putItem t q { it with ports := portsAfter it p k }) ∧
        Injected s t q lu p (sequenceSent it lu p k (sendCycle s lu p) (s.chan lu p))) := by
  have hx : exec (.sequenceInject q lu p) s =
      .next (if (s.chan lu p).sent == some (sendCycle s lu p) then s
        else putItem (sequenceInjected s q lu p it k) q { it with ports := portsAfter it p k }) := by
    have hexec : exec (.sequenceInject q lu p) s = execSequenceInject q lu p s := rfl
    rw [hexec]
    simp only [execSequenceInject, hit, hk, Option.map_some, Option.getD_some, hslot, hq, hcred.ne']
    cases hn : neighbour lu p with
    | none =>
      simp only [Bool.not_true, decide_false, Bool.false_or, Bool.or_false]
      rfl
    | some w =>
      have hr : ((((s.chan lu p).closed || producerDone s w ((s.chan lu p).marked.getD 0)) && !sendPending s lu p) || decide (0 < k)) = true := by
        simpa using hready w hn
      simp only [hr, Bool.not_true, decide_false, Bool.false_or, Bool.or_false]
      rfl
  refine ⟨fun h => ?_, fun h => ⟨_, ?_, injected_sequence s q lu p it k⟩⟩
  · rw [hx, if_pos (by simp [h])]
  · rw [hx, if_neg (by simpa using h)]

theorem sequenceInject_sendsNext (s : State) (q : Fin 4) (lu : Fin 9216) (p : Fin 9) (it : PlanItem) (k : Nat)
    (hit : (s.cfgQ q).items.find? (fun j => j.lu == lu.val && j.ports.any fun e => e.1 == p.val) = some it)
    (hk : it.ports.find? (fun e => e.1 == p.val) = some (p.val, k))
    (hready : ∀ w, neighbour lu p = some w →
      (((s.chan lu p).closed = true ∨ producerDone s w ((s.chan lu p).marked.getD 0) = true) ∧ sendPending s lu p = false) ∨ 0 < k)
    (hslot : injSlot s q lu p = true) (hcred : 0 < creditsIn s lu p) (hq : (s.quarter q).inReset = false)
    (ho : (s.cfgQ q).owner = none) :
    let carrier := it.carrier == p.val
    ((s.chan lu p).sent = some (sendCycle s lu p) → exec (.sequenceInject q lu p) s = .next s) ∧
    ((s.chan lu p).sent ≠ some (sendCycle s lu p) →
      ∃ t tok, exec (.sequenceInject q lu p) s = .next t ∧
        (t.chan lu p).gen = (if k = 0 then (s.chan lu p).gen + 1 else (s.chan lu p).gen) ∧
        (t.chan lu p).spent = (s.chan lu p).spent + 1 ∧ (t.chan lu p).sent = some (sendCycle s lu p) ∧
        (t.chan lu p).flight = (s.chan lu p).flight ++ [⟨tok, chanLocal p, (chanBelay lu p).isSome⟩] ∧
        tok.gen = (t.chan lu p).gen ∧ parOk tok = true ∧ tok.last = (!carrier || k == 31) ∧
        tok.payload = (if carrier then it.cfg.extractLsb' (512 * k) 512 else 0) ∧
        (tok.last = true → (t.chan lu p).marked = none ∧ ∀ j ∈ (t.cfgQ q).items, j.idx = it.idx → ∀ e ∈ j.ports, e.1 ≠ p.val) ∧
        (tok.last = false → ∃ j ∈ (t.cfgQ q).items, j.idx = it.idx ∧ (p.val, k + 1) ∈ j.ports)) := by
  obtain ⟨hbusy, hsend⟩ := exec_sequenceInject hit hk hready hslot hcred hq
  refine ⟨hbusy, fun h => ?_⟩
  obtain ⟨u, hx, hu⟩ := hsend h
  obtain ⟨hitems, m, x, hchan, hm⟩ := hu.putItem { it with ports := portsAfter it p k } ho
  refine ⟨_, sequenceToken it p k (if k = 0 then (s.chan lu p).gen + 1 else (s.chan lu p).gen), hx, ?_⟩
  obtain ⟨hg, hsp, hse, hf⟩ := sequenceSent_fields it lu p k (sendCycle s lu p) (s.chan lu p)
  rw [hitems, hchan]
  refine ⟨hg, hsp, hse, hf, hg.symm, parOk_mkToken _ _ _, rfl, rfl, fun hl => ⟨?_, fun j hj hi => ?_⟩, fun hl => ?_⟩
  · exact hm.elim (·.trans (sequenceSent_marked hl _ _ _)) id
  · rw [itemsPut_idx hj hi]
    exact portsAfter_last hl
  · have hnext := portsAfter_next hl hk
    exact ⟨_, mem_itemsPut (List.mem_of_find?_eq_some hit) rfl (List.ne_nil_of_mem hnext), rfl, hnext⟩

/-- Settles O35: an entry is taken up or stops its plan with its error, and each of the three deliveries changes the channel or the shadow it is for and its item. -/
theorem planDeliveryCompletes : Obligations.PlanDeliveryCompletes :=
  ⟨planEntry_takesUpOrStops, sequenceInject_sendsNext, fabricBarrierInject_joinsQueue, stagingCarrier_writesShadow⟩

end Sys2Proof.Machine
end

section
/-! SUPPORT. A window read by packet in a tick in which the read also posts an event (R6, R10, R269). -/

namespace Sys2Proof.Machine

/-- A WIN_RD packet at the command front end that reads PIT_ERR of quarter 0. -/
def pitErrRead : Packet :=
  { id := 7, hdr := mkHdr { dest := 1, src := 2, kind := 6, addr := 0xA0014 }, data := [], loc := .func 0 1, inVc := 0, escape := false,
    since := 0, fromLink := false }
/-- A piton engine whose overrun capture has taken piton 5, with n overruns counted. -/
def overrunPitQ (n : BitVec 16) : PitQ := { PitQ.init with overruns := n, armed := false, errCause := 1, errPiton := 5 }
/-- A READY region with an event ring: quarter 0 has met its second overrun, of piton 9, in this tick, so that the capture is to take it at the next read of PIT_ERR, which a WIN_RD brings. -/
def secondOverrun : State :=
  { State.reset with
    boot := { Boot.init with phase := .ready, step := 10 }, evt := { Evt.init with enable := true },
    fab := { Fab.init with pkts := [pitErrRead] }, pitq := [(0, overrunPitQ 2)],
    found := { Body.reset with pitq := [(0, overrunPitQ 1)] }, caught := [(0xA0018, some 0x01000009)] }

theorem feTakes_secondOverrun : feTakes secondOverrun 7 6 = some pitErrRead := by decide +kernel

/-- What the WIN_RD leaves before the front end's injector: the HOST_WR of PITON_OVERRUN and, behind it, the RESP. -/
theorem localq_length_winRd_secondOverrun :
    (match execWinRd 7 secondOverrun with | .next t => (sget [] t.fab.localq 1).length | _ => 0) = 2 := by decide +kernel

/-- Refutes O37 in its WIN_RD clause: a WIN_RD of PIT_ERR whose read hands a waiting overrun to the capture posts PITON_OVERRUN through the same injector, so that the RESP is not all that is added there. -/
theorem not_packetsAreDelivered : ¬ Obligations.PacketsAreDelivered := by
  rintro ⟨-, -, -, -, -, winRd, -⟩
  obtain ⟨t, ht, -, hq⟩ := winRd secondOverrun 7 pitErrRead feTakes_secondOverrun
  have hlen := localq_length_winRd_secondOverrun
  rw [show execWinRd 7 secondOverrun = .next t from ht] at hlen
  rw [show sget [] secondOverrun.fab.localq 1 = [] from rfl, List.nil_append] at hq
  simp [hq] at hlen

end Sys2Proof.Machine
end

section
/-! SUPPORT. Which commands stop the model (R33), what events, completions and the loss of a link leave as it was, and the low pulse on RST_REGION_N (R33, R404). -/

namespace Sys2Proof.Machine

/-! Commands that stop. -/

theorem execLatchedLoRead_answers (p : WinPort) (off : BitVec 24) (s : State) : ∃ t, exec (.latchedLoRead p off) s = .next t := by
  show ∃ t, (if (live64 s off.toNat).isSome then rdRow s p off.toNat else .next s) = .next t
  split <;> exact ⟨_, rfl⟩

theorem execWpWrite_answers (p : WinPort) (off : BitVec 24) (v : Word) (s : State) : ∃ t, exec (.wpWrite p off v) s = .next t := by
  show ∃ t, execWpWrite p off v s = .next t
  unfold execWpWrite
  split <;> exact ⟨_, rfl⟩

/-- A pulse that R33 lets pass. -/
theorem rstRegionLow_short {ns : Nat} (s : State) (h : ns < 800) : exec (.rstRegionLow ns) s = .next s := if_pos h

/-- A pulse that the wafer must not drive. -/
theorem rstRegionLow_forbidden {ns : Nat} (s : State) (h : 800 ≤ ns) (h' : ns < 1200) :
    exec (.rstRegionLow ns) s = .fault .forbiddenPulse :=
  (if_neg (Nat.not_lt.2 h)).trans (if_pos h')

/-- A pulse that resets. -/
theorem rstRegionLow_long {ns : Nat} (s : State) (h : 1200 ≤ ns) :
    exec (.rstRegionLow ns) s = .next
      (if !s.pins.rstN then s
        else if s.boot.phase = .unpowered then s.modPins fun p => { p with rstN := false }
        else coldReset (s.modPins fun p => { p with rstN := false }) 1 s.boot.powerFail true) :=
  (if_neg (Nat.not_lt.2 ((by decide : 800 ≤ 1200).trans h))).trans (if_neg (Nat.not_lt.2 h))

/-- Settles O2: only the meaning of RST_REGION_LOW has an arm that does not answer a next state. -/
theorem onlyForbiddenPulseStops : Obligations.OnlyForbiddenPulseStops := by
  intro c s
  cases c with
  | rstRegionLow ns =>
    by_cases hs : ns < 800
    · exact .inl ⟨s, rstRegionLow_short s hs⟩
    by_cases hl : 1200 ≤ ns
    · exact .inl ⟨_, rstRegionLow_long s hl⟩
    · exact .inr ⟨⟨ns, rfl, Nat.not_lt.1 hs, Nat.not_le.1 hl⟩, rstRegionLow_forbidden s (Nat.not_lt.1 hs) (Nat.not_le.1 hl)⟩
  | latchedLoRead p off => exact .inl (execLatchedLoRead_answers p off s)
  | wpWrite p off v => exact .inl (execWpWrite_answers p off v s)
  | _ => exact .inl ⟨_, rfl⟩

/-! What events and completions leave as it was. -/

/-- Bring-up, the host's memory, and the pins but for ALERT_N, which follows the summary (R34). -/
def State.steady (s : State) : Boot × Memory × Pins := (s.boot, s.host, { s.pins with alert := false })

theorem steady_eq {s t : State} (hb : t.boot = s.boot) (hh : t.host = s.host)
    (hp : { t.pins with alert := false } = { s.pins with alert := false }) : t.steady = s.steady := by
  rw [State.steady, State.steady, hb, hh, hp]
theorem steady_boot {s t : State} (h : t.steady = s.steady) : t.boot = s.boot := congrArg Prod.fst h
theorem steady_host {s t : State} (h : t.steady = s.steady) : t.host = s.host := congrArg (fun x => x.2.1) h
theorem steady_rstN {s t : State} (h : t.steady = s.steady) : t.pins.rstN = s.pins.rstN := congrArg (fun x => x.2.2.rstN) h
theorem steady_vAux {s t : State} (h : t.steady = s.steady) : t.pins.vAux = s.pins.vAux := congrArg (fun x => x.2.2.vAux) h

theorem modWs_steady (s : State) (k : Nat) (f : Ws → Ws) : (s.modWs k f).steady = s.steady := steady_eq rfl rfl rfl
theorem modQueue_steady (s : State) (n : Nat) (f : CmdQ → CmdQ) : (s.modQueue n f).steady = s.steady := steady_eq rfl rfl rfl

theorem postEvent_steady (s : State) (e : Event) : (postEvent s e).steady = s.steady := by
  obtain ⟨v, f, l, h⟩ := postEvent_changes s e
  rw [h]
  rfl

theorem event_steady (s : State) (code : Nat) (q : Option Nat) (arg : Nat) (d : BitVec 128) : (event s code q arg d).steady = s.steady :=
  postEvent_steady s _

theorem setSummary_steady (s : State) (i : Nat) : (setSummary s i).steady = s.steady := steady_eq rfl rfl rfl

theorem hostWrite_steady (s : State) (addr n v : Nat) : (hostWrite s addr n v).steady = s.steady := steady_eq rfl rfl rfl

theorem checkMsi_steady (s : State) (n : Nat) : (checkMsi s n).steady = s.steady := by
  unfold checkMsi sendMsi
  dsimp only
  split
  · rw [modQueue_steady, hostWrite_steady]
  · rfl

theorem writeCompl_steady (s : State) (n : Nat) (c : Compl) : (writeCompl s n c).steady = s.steady := by
  unfold writeCompl
  dsimp only
  split
  · rw [checkMsi_steady, modQueue_steady, modQueue_steady, hostWrite_steady]
  · rw [modQueue_steady, hostWrite_steady]

theorem postCompl_steady (s : State) (n : Nat) (c : Compl) : (postCompl s n c).steady = s.steady := by
  unfold postCompl
  dsimp only
  split
  · rfl
  split
  · exact writeCompl_steady s n c
  · exact modQueue_steady _ _ _

theorem completeDesc_steady (s : State) (n : Nat) (x : Exec) (status result : Nat) :
    (completeDesc s n x status result).steady = s.steady := by
  unfold completeDesc
  rw [postCompl_steady, modQueue_steady]
  exact steady_eq rfl rfl rfl

theorem commitCompl_steady (s : State) (c : Commit) (status result : Nat) : (commitCompl s c status result).steady = s.steady := by
  unfold commitCompl
  split
  · rw [completeDesc_steady, modQueue_steady]
  · rfl

theorem wearWrite_steady (s : State) (k : Nat) : (wearWrite s k).steady = s.steady := modWs_steady _ _ _

theorem commitFail_steady (s : State) (k err : Nat) : (commitFail s k err).steady = s.steady := by
  unfold commitFail
  split
  · rfl
  · extract_lets s1 s2 s3
    have h1 : s1.steady = s.steady := forEach_keeps State.steady _ (fun s k => by rw [wearWrite_steady, modWs_steady]) _ s
    have h2 : s2.steady = s1.steady := event_steady _ _ _ _ _
    have h3 : s3.steady = s2.steady := commitCompl_steady _ _ _ _
    rw [forEach_keeps State.steady refreshKick fun s k => modWs_steady s k _, h3, h2, h1]

theorem commitsReset_steady (s : State) (q : Nat) : (commitsReset s q).steady = s.steady :=
  forEach_keeps State.steady _ (fun s k => commitFail_steady s k 9) _ s

theorem stacksKeep_steady (s : State) : (stacksKeep s).steady = s.steady := by
  unfold stacksKeep
  extract_lets t
  have h : t.steady = s.steady := forEach_keeps State.steady commitsReset commitsReset_steady (upto 4) s
  generalize t = t at h ⊢
  exact (steady_eq rfl rfl rfl).trans h

/-! The cold reset (R404). -/

theorem regionReset_outside (s : State) :
    (regionReset s).host = s.host ∧ (regionReset s).pins.rstN = s.pins.rstN ∧ (regionReset s).pins.vAux = s.pins.vAux := by
  have hh := steady_host (stacksKeep_steady s)
  have hr := steady_rstN (stacksKeep_steady s)
  have hv := steady_vAux (stacksKeep_steady s)
  unfold regionReset
  generalize stacksKeep s = t at hh hr hv ⊢
  exact ⟨hh, hr, hv⟩

/-- What a cold reset leaves of the region, whatever it was. -/
theorem coldReset_boot (s : State) (cause : Nat) (held vin : Bool) :
    (coldReset s cause held vin).boot =
      { Boot.init with phase := .held, cause := BitVec.ofNat 3 cause, powerFail := held, stepTick := s.tick } := rfl
theorem coldReset_pwr (s : State) (cause : Nat) (held : Bool) :
    (coldReset s cause held true).pwr =
      { Pwr.init with ageTick := s.tick, vinHigh := s.pwr.vinHigh, vinGood := s.pwr.vinGood, vinTick := s.pwr.vinTick } := rfl
theorem coldReset_blank (s : State) (cause : Nat) (held vin : Bool) :
    (coldReset s cause held vin).clk = Clk.init ∧ (coldReset s cause held vin).units = [] ∧ (coldReset s cause held vin).pitons = [] :=
  ⟨rfl, rfl, rfl⟩

theorem coldReset_outside (s : State) (cause : Nat) (held vin : Bool) :
    (coldReset s cause held vin).host = s.host ∧ (coldReset s cause held vin).pins.rstN = s.pins.rstN ∧
      (coldReset s cause held vin).pins.vAux = s.pins.vAux := by
  have h := regionReset_outside s
  unfold coldReset
  generalize regionReset s = t at h ⊢
  exact h

/-- RST_REGION_N returning high begins the bring-up of a region that is held in reset by no power-fail. -/
theorem exec_bringupStart {s : State} (e : BootEnv) (hp : s.boot.phase = .held) (hf : s.boot.powerFail = false) (hr : s.pins.rstN = false) :
    exec (.bringupStart e) s = .next (bootBegin (s.modPins fun p => { p with rstN := true }) e) :=
  congrArg Host.Outcome.next (if_pos ⟨hp, by simp [hf], by simp [hr]⟩)

/-- Bring-up as it begins (R389, R276). -/
theorem bootBegin_boot (s : State) (e : BootEnv) :
    (bootBegin s e).boot = { s.boot with phase := .bringup, startTick := s.tick, stepTick := s.tick, env := e } := rfl
theorem bootBegin_pins (s : State) (e : BootEnv) : (bootBegin s e).pins = s.pins := rfl
theorem bootBegin_clk (s : State) (e : BootEnv) :
    (bootBegin s e).clk =
      { s.clk with drone := .acquiring, started := some s.tick, refPresent := true, lockAdv := Config.lockAdv s.tick } := rfl
theorem bootBegin_pwr (s : State) (e : BootEnv) :
    (bootBegin s e).pwr = { s.pwr with softStart := if s.pwr.vinGood then some s.tick else none } := rfl

/-- Settles O54: from 1,200 ns on the pulse is a cold reset with cause 1, and what bring-up then begins from is the region that it leaves. -/
theorem resetPulseOnThePin : Obligations.ResetPulseOnThePin := by
  intro s ns
  refine ⟨rstRegionLow_short s, rstRegionLow_forbidden s, fun hns hp hr => ?_⟩
  have hex := rstRegionLow_long s hns
  rw [if_neg (by simp [hr]), if_neg hp] at hex
  obtain ⟨hhost, hrst, haux⟩ := coldReset_outside (s.modPins fun p => { p with rstN := false }) 1 s.boot.powerFail true
  have hboot := coldReset_boot (s.modPins fun p => { p with rstN := false }) 1 s.boot.powerFail true
  have hpwr := coldReset_pwr (s.modPins fun p => { p with rstN := false }) 1 s.boot.powerFail
  obtain ⟨hclk, hunits, hpitons⟩ := coldReset_blank (s.modPins fun p => { p with rstN := false }) 1 s.boot.powerFail true
  generalize coldReset (s.modPins fun p => { p with rstN := false }) 1 s.boot.powerFail true = t at *
  have hphase : t.boot.phase = .held := congrArg Boot.phase hboot
  have hstep : t.boot.step = 0 := congrArg Boot.step hboot
  have hfail : t.boot.powerFail = s.boot.powerFail := by rw [hboot]
  have hunit (u : Nat) : t.unit u = UnitSt.blank := by rw [State.unit, hunits]; rfl
  have hpiton (i : Nat) : t.piton i = Piton.init := by rw [State.piton, hpitons]; rfl
  refine ⟨t, hex, hphase, hstep, congrArg Boot.cause hboot, hrst, hfail, haux, congrArg Pwr.vInt hpwr, congrArg Pwr.vIo hpwr,
    congrArg Pwr.vSram hpwr, congrArg Pwr.vStack hpwr, congrArg Pwr.coreGood hpwr, congrArg Clk.drone hclk, congrArg Clk.count hclk,
    hunit, hpiton, hhost, fun hf e => ?_⟩
  exact ⟨_, exec_bringupStart e hphase (hfail.trans hf) hrst, rfl, hstep, rfl, rfl, rfl⟩

end Sys2Proof.Machine
end

section
/-! SUPPORT. Quarters that bring-up gives up, and how bring-up goes on without them (R389, R391). -/

namespace Sys2Proof.Machine

/-! What else leaves bring-up as it was. -/

theorem modBelay_steady (s : State) (k : Nat) (f : Belay → Belay) : (s.modBelay k f).steady = s.steady := steady_eq rfl rfl rfl
theorem modZone_steady (s : State) (z : Nat) (f : ZoneClk → ZoneClk) : (s.modZone z f).steady = s.steady := steady_eq rfl rfl rfl
theorem modChanter_steady (s : State) (z : Nat) (f : Chanter → Chanter) : (s.modChanter z f).steady = s.steady := steady_eq rfl rfl rfl
theorem modQuarter_steady (s : State) (q : Nat) (f : Quarter → Quarter) : (s.modQuarter q f).steady = s.steady := steady_eq rfl rfl rfl
theorem modLink_steady (s : State) (n : Nat) (f : Link → Link) : (s.modLink n f).steady = s.steady := steady_eq rfl rfl rfl
theorem spill_steady {w : Nat} (s : State) (k : Nat) (v : BitVec w) (n : Nat) : (s.spill k v n).steady = s.steady := steady_eq rfl rfl rfl

theorem updAvail_steady (s : State) (q : Nat) : (updAvail s q).steady = s.steady := modQuarter_steady _ _ _

theorem degrade_steady (s : State) (q reason : Nat) : (degrade s q reason).steady = s.steady := by
  unfold degrade
  dsimp only
  split
  · rfl
  · rw [event_steady, setSummary_steady, modQuarter_steady]

theorem degradeIfUnbacked_steady (s : State) (q : Nat) : (degradeIfUnbacked s q).steady = s.steady := by
  unfold degradeIfUnbacked
  extract_lets s1 out s2
  have h2 : s2.steady = s.steady := by
    simp only [s2]
    split
    · rw [degrade_steady]; exact updAvail_steady s q
    · exact updAvail_steady s q
  split
  · rw [degrade_steady, h2]
  · exact h2

theorem stopZones_steady (s : State) (q : Nat) : (stopZones s q).steady = s.steady := by
  unfold stopZones
  extract_lets t
  have h : t.steady = s.steady := forEach_keeps State.steady _ (fun s z => modZone_steady s z _) _ s
  rw [forEach_keeps State.steady _ fun s k => modBelay_steady s k _, h]

theorem resetChanter_steady (s : State) (z : Nat) : (resetChanter s z).steady = s.steady := by
  rw [resetChanter, modZone_steady, modChanter_steady]

theorem pitDeposit_steady (s : State) (q : Nat) (m : PitMsg) : (pitDeposit s q m).steady = s.steady := by
  unfold pitDeposit
  split
  · rfl
  · exact steady_eq rfl rfl rfl

theorem issueArrival_steady (s : State) (r i n : Nat) (proxy last : Bool) (total : Word) (by_ : Option Nat) (fq : BitVec 4) :
    (issueArrival s r i n proxy last total by_ fq).steady = s.steady := by
  unfold issueArrival
  dsimp only
  split
  · rfl
  split
  · exact pitDeposit_steady _ _ _
  · exact steady_eq rfl rfl rfl

theorem proxyHdr_steady (s : State) (r : Nat) (h : Row) (by_ : Option Nat) (fq : BitVec 4) :
    (proxyHdr s r h by_ fq).steady = s.steady := by
  unfold proxyHdr
  split
  · exact issueArrival_steady _ _ _ _ _ _ _ _ _
  · rfl

theorem discardLink_steady (s : State) (n : Nat) : (discardLink s n).steady = s.steady := by
  unfold discardLink
  extract_lets l gone t
  have h : t.steady = s.steady := by rw [modLink_steady, spill_steady]
  rw [← h]
  refine forEach_keeps State.steady _ (fun u e => ?_) l.rx t
  split
  · exact proxyHdr_steady _ _ _ _ _
  · rfl

theorem linkTrain_steady (s : State) (n : Nat) : (linkTrain s n).steady = s.steady := by
  unfold linkTrain
  split
  · rfl
  · rw [modLink_steady, discardLink_steady]

theorem loadWs_steady (s : State) (k : Nat) : (loadWs s k).steady = s.steady := by
  unfold loadWs
  dsimp only
  repeat' split
  all_goals simp only [modWs_steady]

/-! Bring-up over a quarter that it gives up. -/

theorem bootFail_boot (s : State) (cause : Nat) :
    (bootFail s cause).boot = { s.boot with phase := .failed, fail := BitVec.ofNat 6 cause } := rfl
theorem bootFail_quarters (s : State) (cause : Nat) : (bootFail s cause).quarters = s.quarters := rfl
theorem bootFail_chanters (s : State) (cause : Nat) : (bootFail s cause).chanters = s.chanters := rfl

/-- Bring-up goes on while a quarter is left, and has failed with cause 7 once none is (R391). -/
def Boot.Settled (b : Boot) : Prop :=
  (b.qfailed ≠ 15 → b.phase = .bringup) ∧ (b.qfailed = 15 → b.phase = .failed ∧ b.fail = 7)

/-- What giving quarters up does to bring-up: no quarter comes back, and the step in progress stays. -/
structure Boot.GaveUp (b c : Boot) : Prop where
  more : ∀ i, bit b.qfailed i = true → bit c.qfailed i = true
  settled : b.Settled → c.Settled
  step : c.step = b.step
  env : c.env = b.env

theorem Boot.GaveUp.refl (b : Boot) : b.GaveUp b := ⟨fun _ h => h, id, rfl, rfl⟩
theorem Boot.GaveUp.trans {a b c : Boot} (h : a.GaveUp b) (h' : b.GaveUp c) : a.GaveUp c :=
  ⟨fun i hi => h'.more i (h.more i hi), h'.settled ∘ h.settled, h'.step.trans h.step, h'.env.trans h.env⟩

theorem gaveUp_forEach {α : Type} {f : State → α → State} {l : List α} (h : ∀ s : State, ∀ a ∈ l, s.boot.GaveUp (f s a).boot) (s : State) :
    s.boot.GaveUp (forEach l s f).boot := by
  induction l generalizing s with
  | nil => exact .refl _
  | cons a l ih => exact (h s a (by simp)).trans (ih (fun s b hb => h s b (by simp [hb])) (f s a))

theorem bit_setBit_or {w : Nat} (v : BitVec w) {i : Nat} (h : i < w) (j : Nat) : bit (setBit v i true) j = (bit v j || decide (j = i)) := by
  by_cases hj : j = i
  · subst hj; simp [bit, setBit, h]
  · simp only [bit, setBit, if_true, BitVec.getLsbD_or, BitVec.getLsbD_shiftLeft, hj, decide_false]
    rcases Nat.lt_or_ge j i with hlt | hge
    · simp [hlt]
    · simp [show j - i ≠ 0 by omega]

theorem qfail_again {s : State} {q : Nat} (h : bit s.boot.qfailed q = true) : qfail s q = s := if_pos h

/-- A quarter that bring-up gives up, before it is seen whether any is left: it is in reset, its zones stopped and its chanters reset. -/
def qheld (s : State) (q : Nat) : State :=
  let s := s.modBoot fun b => { b with qfailed := setBit b.qfailed q true }
  let s := stopZones (s.modQuarter q fun x => { x with inReset := true }) q
  let s := forEach (boundaryBelays q) s fun s k => s.modBelay k fun b => { b with slots := [], fenced := true }
  let s := forEach (zonesOf q) s resetChanter
  s.modStr fun r => { r with aligned := setBit r.aligned q false }

theorem qfail_first {s : State} {q : Nat} (h : bit s.boot.qfailed q = false) :
    qfail s q = if (qheld s q).boot.qfailed = 15 then bootFail (qheld s q) 7 else qheld s q :=
  if_neg (by simp [h])

theorem qheld_boot (s : State) (q : Nat) : (qheld s q).boot = { s.boot with qfailed := setBit s.boot.qfailed q true } := by
  unfold qheld
  extract_lets s1 s2 s3 s4
  have h2 : s2.boot = s1.boot := steady_boot ((stopZones_steady _ q).trans (modQuarter_steady _ _ _))
  have h3 : s3.boot = s2.boot := steady_boot (forEach_keeps State.steady _ (fun s k => modBelay_steady s k _) _ s2)
  have h4 : s4.boot = s3.boot := steady_boot (forEach_keeps State.steady _ resetChanter_steady _ s3)
  rw [State.modStr_boot, h4, h3, h2]
  rfl

theorem qfail_gaveUp (s : State) {q : Nat} (hq : q < 4) : s.boot.GaveUp (qfail s q).boot := by
  cases hb : bit s.boot.qfailed q with
  | true => rw [qfail_again hb]; exact .refl _
  | false =>
    have hne : s.boot.qfailed ≠ 15 := by
      intro h
      rw [h] at hb
      interval_cases q <;> simp [bit] at hb
    have hmore : ∀ i, bit s.boot.qfailed i = true → bit (setBit s.boot.qfailed q true) i = true := fun i hi => by
      rw [bit_setBit_or _ hq, hi, Bool.true_or]
    have hheld := qheld_boot s q
    rw [qfail_first hb]
    split
    · next h15 =>
      rw [hheld] at h15
      rw [bootFail_boot, hheld]
      exact ⟨hmore, fun _ => ⟨fun h => absurd h15 h, fun _ => ⟨rfl, rfl⟩⟩, rfl, rfl⟩
    · next h15 =>
      rw [hheld] at h15 ⊢
      exact ⟨hmore, fun hs => ⟨fun _ => hs.1 hne, fun h => absurd h h15⟩, rfl, rfl⟩

theorem bit_qfailed_qfail (s : State) {q : Nat} (hq : q < 4) (i : Nat) :
    bit (qfail s q).boot.qfailed i = (bit s.boot.qfailed i || decide (i = q)) := by
  cases hb : bit s.boot.qfailed q with
  | true =>
    rw [qfail_again hb]
    by_cases hi : i = q
    · rw [hi, hb]; rfl
    · simp [hi]
  | false =>
    have h : (qfail s q).boot.qfailed = (qheld s q).boot.qfailed := by
      rw [qfail_first hb]
      split
      · rw [bootFail_boot]
      · rfl
    rw [h, qheld_boot, bit_setBit_or _ hq]

theorem bit_qfailed_forEach {l : List Nat} (hl : ∀ q ∈ l, q < 4) (s : State) (i : Nat) :
    bit (forEach l s qfail).boot.qfailed i = (bit s.boot.qfailed i || decide (i ∈ l)) := by
  induction l generalizing s with
  | nil => simp [forEach]
  | cons q l ih =>
    have h : bit (forEach l (qfail s q) qfail).boot.qfailed i = _ := ih (fun r hr => hl r (by simp [hr])) (qfail s q)
    show bit (forEach l (qfail s q) qfail).boot.qfailed i = _
    rw [h, bit_qfailed_qfail s (hl q (by simp)), Bool.or_assoc]
    simp

theorem qfails_gaveUp {l : List Nat} (hl : ∀ q ∈ l, q < 4) (s : State) : s.boot.GaveUp (forEach l s qfail).boot :=
  gaveUp_forEach (fun s q hq => qfail_gaveUp s (hl q hq)) s

/-- A quarter in reset with its chanters. -/
def QuarterHeld (s : State) (q : Nat) : Prop :=
  (s.quarter q).inReset = true ∧ ∀ z, z / 12 = q → (s.chanter z).state = .reset

theorem QuarterHeld.congr {s t : State} {q : Nat} (h : QuarterHeld s q) (hq : t.quarters = s.quarters) (hc : t.chanters = s.chanters) :
    QuarterHeld t q := by
  obtain ⟨hr, hz⟩ := h
  constructor
  · rw [State.quarter, hq]; exact hr
  · intro z h
    rw [State.chanter, hc]
    exact hz z h

theorem chanter_resetChanter (s : State) (z i : Nat) :
    ((resetChanter s z).chanter i).state = if i = z then .reset else (s.chanter i).state := by
  rw [resetChanter, State.chanter, State.modZone_chanters, State.modChanter]
  split
  · next h => rw [h, sget_smod_same]; rfl
  · next h => rw [sget_smod_other _ _ _ _ _ h]; rfl

theorem chanter_resetChanters (l : List Nat) (s : State) (i : Nat) :
    ((forEach l s resetChanter).chanter i).state = if i ∈ l then .reset else (s.chanter i).state := by
  induction l generalizing s with
  | nil => rfl
  | cons z l ih =>
    have h : ((forEach l (resetChanter s z) resetChanter).chanter i).state = _ := ih (resetChanter s z)
    show ((forEach l (resetChanter s z) resetChanter).chanter i).state = _
    rw [h, chanter_resetChanter]
    by_cases hz : i = z <;> simp [hz]

theorem mem_zonesOf {q z : Nat} : z ∈ zonesOf q ↔ z / 12 = q := by
  simp only [zonesOf, upto, List.mem_map, List.mem_range]
  constructor
  · rintro ⟨i, hi, rfl⟩
    omega
  · exact fun h => ⟨z % 12, by omega, by omega⟩

theorem resetChanters_quarters (l : List Nat) (s : State) : (forEach l s resetChanter).quarters = s.quarters :=
  forEach_keeps (fun s : State => s.quarters) resetChanter (fun _ _ => rfl) l s

theorem stopZones_quarters (s : State) (q : Nat) : (stopZones s q).quarters = s.quarters := by
  unfold stopZones
  extract_lets t
  have h : t.quarters = s.quarters := forEach_keeps (fun s : State => s.quarters) _ (fun s z => State.modZone_quarters s z _) _ s
  rw [← h]
  exact forEach_keeps (fun s : State => s.quarters) _ (fun s k => State.modBelay_quarters s k _) _ t

theorem stopZones_chanters (s : State) (q : Nat) : (stopZones s q).chanters = s.chanters := by
  unfold stopZones
  extract_lets t
  have h : t.chanters = s.chanters := forEach_keeps (fun s : State => s.chanters) _ (fun s z => State.modZone_chanters s z _) _ s
  rw [← h]
  exact forEach_keeps (fun s : State => s.chanters) _ (fun s k => State.modBelay_chanters s k _) _ t

theorem qheld_quarters (s : State) (q : Nat) : (qheld s q).quarters = smod .init s.quarters q fun x => { x with inReset := true } := by
  unfold qheld
  extract_lets s1 s2 s3 s4
  have h2 : s2.quarters = (s1.modQuarter q fun x => { x with inReset := true }).quarters := stopZones_quarters _ q
  have h3 : s3.quarters = s2.quarters := forEach_keeps (fun s : State => s.quarters) _ (fun s k => State.modBelay_quarters s k _) _ s2
  have h4 : s4.quarters = s3.quarters := resetChanters_quarters _ s3
  rw [State.modStr_quarters, h4, h3, h2]
  rfl

theorem qheld_chanters (s : State) (q : Nat) :
    ∃ t : State, t.chanters = s.chanters ∧ (qheld s q).chanters = (forEach (zonesOf q) t resetChanter).chanters := by
  unfold qheld
  extract_lets s1 s2 s3 s4
  have h1 : s1.chanters = s.chanters := State.modBoot_chanters s _
  have h2 : s2.chanters = s1.chanters := (stopZones_chanters _ q).trans (State.modQuarter_chanters s1 q _)
  have h3 : s3.chanters = s2.chanters := forEach_keeps (fun s : State => s.chanters) _ (fun s k => State.modBelay_chanters s k _) _ s2
  exact ⟨s3, h3.trans (h2.trans h1), State.modStr_chanters s4 _⟩

theorem chanter_qheld (s : State) (q i : Nat) : ((qheld s q).chanter i).state = if i / 12 = q then .reset else (s.chanter i).state := by
  obtain ⟨t, ht, h⟩ := qheld_chanters s q
  have hi := chanter_resetChanters (zonesOf q) t i
  simp only [State.chanter, mem_zonesOf, ht] at hi ⊢
  rw [h, hi]

theorem quarterHeld_qheld (s : State) (q : Nat) : QuarterHeld (qheld s q) q := by
  constructor
  · rw [State.quarter, qheld_quarters, sget_smod_same]
  · intro z hz
    rw [chanter_qheld, if_pos hz]

theorem QuarterHeld.qheld {s : State} {i : Nat} (h : QuarterHeld s i) (q : Nat) : QuarterHeld (qheld s q) i := by
  obtain ⟨hr, hz⟩ := h
  by_cases hi : i = q
  · rw [hi]; exact quarterHeld_qheld s q
  constructor
  · rw [State.quarter, qheld_quarters, sget_smod_other _ _ _ _ _ hi]
    exact hr
  · intro z h
    rw [chanter_qheld, hz z h, ite_self]

theorem qfail_cases (s : State) (q : Nat) (P : State → Prop) (again : bit s.boot.qfailed q = true → P s)
    (first : ∀ t : State, t.quarters = (qheld s q).quarters → t.chanters = (qheld s q).chanters → P t) : P (qfail s q) := by
  cases hb : bit s.boot.qfailed q with
  | true => rw [qfail_again hb]; exact again hb
  | false =>
    rw [qfail_first hb]
    split
    · exact first _ (bootFail_quarters _ _) (bootFail_chanters _ _)
    · exact first _ rfl rfl

theorem QuarterHeld.qfail {s : State} {i : Nat} (h : QuarterHeld s i) (q : Nat) : QuarterHeld (qfail s q) i :=
  qfail_cases s q _ (fun _ => h) fun _ hq hc => (h.qheld q).congr hq hc

theorem quarterHeld_qfails {q : Nat} : ∀ (l : List Nat) (s : State), q ∈ l ∧ bit s.boot.qfailed q = false ∨ QuarterHeld s q →
    (∀ r ∈ l, r < 4) → QuarterHeld (forEach l s Machine.qfail) q
  | [], _, h, _ => h.resolve_left (by simp)
  | r :: l, s, h, hl => by
    refine quarterHeld_qfails l (Machine.qfail s r) ?_ fun i hi => hl i (by simp [hi])
    rcases h with ⟨hm, hb⟩ | h
    · by_cases hr : q = r
      · subst hr
        exact .inr (qfail_cases s q _ (fun h => by simp [h] at hb) fun _ hq hc => (quarterHeld_qheld s q).congr hq hc)
      · refine .inl ⟨by simpa [hr] using hm, ?_⟩
        rw [bit_qfailed_qfail s (hl r (by simp)), hb]
        simp [hr]
    · exact .inr (h.qfail r)

end Sys2Proof.Machine
end

section
/-! SUPPORT. The supply, the pins, the start of bring-up, and the bounds of its steps and rails (R34 to R36, R325, R351, R389 to R392). -/

namespace Sys2Proof.Machine

/-! Supply and pins. -/

theorem exec_vinRise {s : State} (h : s.pwr.vinHigh = false) :
    exec .vinRise s = .next (updAlert (s.modPwr fun w => { w with vinHigh := true, vinTick := some s.tick })) :=
  congrArg Host.Outcome.next (if_neg (by simp [h]))

theorem exec_vinGood {s : State} (h : s.pwr.vinHigh = true) (hg : s.pwr.vinGood = false) :
    exec .vinGood s = .next (s.modPwr fun w =>
      { w with vinGood := true, softStart := if s.boot.phase = .bringup ∧ !s.boot.isWarm then some s.tick else w.softStart }) :=
  congrArg Host.Outcome.next (if_pos (by simp [h, hg]))

theorem exec_thermTripValid {s : State} {b : Nat} (h : s.pwr.vinTick = some b) :
    exec .thermTripValid s =
      .next (if b + 2 * msTicks ≤ s.tick then s.modPins fun p => { p with thermValid := true } else s) := by
  show Host.Outcome.next _ = _
  rw [h]

theorem tripCheck_hot {s : State} {i : Nat} (hi : i < 64) (h : 1840 ≤ sensor s i) :
    tripCheck s = s.modPins fun p => { p with thermTrip := true } :=
  if_pos (List.any_eq_true.2 ⟨i, List.mem_range.2 hi, decide_eq_true h⟩)

theorem exec_thermTrip_hot (s : State) (i : Fin 64) {r : BitVec 16} (h : 1840 ≤ r.toInt) :
    exec (.thermTrip i r) s =
      .next ((s.modPwr fun w => { w with temp := sset 0 w.temp i.val r }).modPins fun p => { p with thermTrip := true }) := by
  refine congrArg Host.Outcome.next ((if_pos h).trans (tripCheck_hot i.isLt ?_))
  rw [sensor, State.modPwr, sget_sset_same]
  exact h

theorem exec_thermTrip_cold (s : State) (i : Fin 64) {r : BitVec 16} (h : r.toInt < 1840) : exec (.thermTrip i r) s = .next s :=
  congrArg Host.Outcome.next (if_neg (Int.not_le.2 h))

theorem exec_bringupStart_powerFail {s : State} (e : BootEnv) (h : s.boot.powerFail = true) :
    exec (.bringupStart e) s = .next { s with pins := { s.pins with rstN := true } } :=
  congrArg Host.Outcome.next (if_neg (by simp [h]))

theorem exec_powerFailRelease {s : State} (e : BootEnv) (hp : s.boot.phase = .held) (hf : s.boot.powerFail = true)
    (hr : s.pins.rstN = true) (hv : vinBack s = true) :
    exec (.powerFailRelease e) s = .next (bootBegin (s.modBoot fun b => { b with powerFail := false }) e) :=
  congrArg Host.Outcome.next (if_pos ⟨hp, hf, hr, hv⟩)

theorem exec_powerFailRelease_early {s : State} (e : BootEnv) (h : s.pins.rstN = false ∨ vinBack s = false) :
    exec (.powerFailRelease e) s = .next s :=
  congrArg Host.Outcome.next (if_neg (by rintro ⟨-, -, hr, hv⟩; simp [hr, hv] at h))

/-! The bounds of the rails (R325). -/

theorem exec_railStartTimeout {s : State} {b : Nat} (r : Rail) (h : s.pwr.softStart = some b) :
    exec (.railStartTimeout r) s =
      .next (if s.boot.phase = .bringup ∧ b + railBound r ≤ s.tick ∧ !railGood s.pwr r then
        bootFail (s.modPwr fun w => { w with softStart := none }) 2 else s) := by
  show Host.Outcome.next _ = _
  rw [h]

/-! The bounds of the steps (R389, R391, R392). -/

theorem bootGo_stopped {s : State} (h : s.boot.phase ≠ .bringup) : bootGo s = s := if_pos h

theorem bootGo_chanters {s : State} (hp : s.boot.phase = .bringup) (hs : s.boot.step = 3) :
    bootGo s = if !s.clk.railWait && (bootZones s).all fun z => (s.chanter z).state == .locked then
      (stepTo s 4).modStr fun r => { r with al := sset .init r.al 4 { AlignRec.init with phase := 1 } } else s := by
  show bootAdvance (10 + 1) s = _
  rw [bootAdvance, if_neg (by simp [hp]), hs]
  rfl

theorem bootAdvance_links {s : State} (n : Nat) (hp : s.boot.phase = .bringup) (hs : s.boot.step = 7) :
    bootAdvance (n + 1) s = if !(s.links.any fun l => l.2.state == .training) || decide (s.boot.stepTick + 10 * msTicks ≤ s.tick) then
      bootReady (stepTo (bootFabric (stepTo s 8)) 9) else s := by
  rw [bootAdvance, if_neg (by simp [hp]), hs]
  rfl

theorem bootGo_links {s : State} (hp : s.boot.phase = .bringup) (hs : s.boot.step = 7) :
    bootGo s = if !(s.links.any fun l => l.2.state == .training) || decide (s.boot.stepTick + 10 * msTicks ≤ s.tick) then
      bootReady (stepTo (bootFabric (stepTo s 8)) 9) else s :=
  bootAdvance_links 10 hp hs

theorem stepTo_boot (s : State) (n : Nat) : (stepTo s n).boot = { s.boot with step := BitVec.ofNat 4 n, stepTick := s.tick } := rfl

theorem bootReady_boot (s : State) :
    (bootReady s).boot = { s.boot with step := 10, stepTick := s.tick, phase := .ready,
                                       bootMs := BitVec.ofNat 12 (min 4095 ((s.tick - s.boot.startTick) / msTicks)) } := by
  unfold bootReady
  extract_lets t
  have h : (forEach (liveQuarters t) t degradeIfUnbacked).boot = t.boot :=
    steady_boot (forEach_keeps State.steady _ degradeIfUnbacked_steady _ t)
  exact (State.modPins_boot _ _).trans h

/-- Reaching READY once the fabric stands (R393, R394). -/
theorem ready_boot (s : State) :
    (bootReady (stepTo (bootFabric (stepTo s 8)) 9)).boot.phase = .ready ∧ (bootReady (stepTo (bootFabric (stepTo s 8)) 9)).boot.step = 10 ∧
      (bootReady (stepTo (bootFabric (stepTo s 8)) 9)).boot.qfailed = s.boot.qfailed := by
  rw [bootReady_boot]
  exact ⟨rfl, rfl, rfl⟩

/-- The quarters that are given up at the bound of step 5: those not through, or all where the check has named none (log 88). -/
def unalignedQuarters (s : State) : List Nat :=
  let qs := (liveQuarters s).filter (bootUnready s)
  if qs.isEmpty then liveQuarters s else qs
/-- The quarters that are left are to be aligned afresh. -/
def alignAgain (s : State) : State :=
  if s.boot.phase = .bringup then
    forEach (liveQuarters s) (s.modStr fun r => { r with al := sset .init r.al 4 { AlignRec.init with phase := 1 } }) stopZones
  else s

theorem stepTimeout_rails (s : State) :
    execBringupStepTimeout 1 s =
      .next (if s.boot.phase = .bringup ∧ s.boot.step = 0 ∧ s.boot.startTick + 20 * msTicks ≤ s.tick then
        bootFail s (if s.pwr.vinGood then 2 else 1) else s) := by
  unfold execBringupStepTimeout
  by_cases hp : s.boot.phase = .bringup
  · cases hk : s.boot.step.toNat with
    | zero =>
      have h0 : s.boot.step = 0 := BitVec.eq_of_toNat_eq hk
      simp [hp, h0]
    | succ k =>
      have h0 : s.boot.step ≠ 0#4 := fun h => by simp [h] at hk
      simp [hp, hk, h0]
  · simp [hp]

theorem stepTimeout_lock {s : State} (hp : s.boot.phase = .bringup) :
    execBringupStepTimeout 2 s =
      .next (if s.boot.step.toNat < 2 ∧ s.boot.startTick + 20 * msTicks ≤ s.tick ∧ !(s.clk.drone == .locked && s.clk.confirm) then
        bootFail s 3 else s) := by
  simp [execBringupStepTimeout, hp]

theorem stepTimeout_load {s : State} (hp : s.boot.phase = .bringup) (hs : s.boot.step = 2) :
    execBringupStepTimeout 3 s = .next (if s.boot.stepTick + 10 * msTicks ≤ s.tick then
      (if s.boot.env.pstLate then bootFail s 4
        else if s.boot.env.fwLate then bootFail (bootLoad s).2 (if (bootLoad s).1 = 4 then 4 else 5) else s) else s) := by
  simp [execBringupStepTimeout, hp, hs]

theorem stepTimeout_chanters {s : State} (hp : s.boot.phase = .bringup) (hs : s.boot.step = 3) :
    execBringupStepTimeout 4 s = .next (if s.boot.stepTick + 1 * msTicks ≤ s.tick then
      bootGo (forEach ((liveQuarters s).filter (bootUnready s)) s qfail) else s) := by
  simp [execBringupStepTimeout, hp, hs]

theorem stepTimeout_alignment {s : State} (hp : s.boot.phase = .bringup) (hs : s.boot.step = 4) :
    execBringupStepTimeout 5 s = .next (if s.boot.stepTick + 1 * msTicks ≤ s.tick then alignAgain (forEach (unalignedQuarters s) s qfail) else s) := by
  simp [execBringupStepTimeout, hp, hs, alignAgain, unalignedQuarters]

theorem stepTimeout_sync {s : State} (hp : s.boot.phase = .bringup) (hs : s.boot.step = 5) :
    execBringupStepTimeout 6 s = .next (if s.boot.stepTick + 40 * msTicks ≤ s.tick then bootFail s 6 else s) := by
  simp [execBringupStepTimeout, hp, hs]

theorem stepTimeout_stacks {s : State} (hp : s.boot.phase = .bringup) (hs : s.boot.step = 6) :
    execBringupStepTimeout 7 s = .next (if s.boot.stepTick + 90 * msTicks ≤ s.tick then
      bootGo (forEach ((liveQuarters s).filter (bit s.boot.env.stkLate)) s qfail) else s) := by
  simp [execBringupStepTimeout, hp, hs]

theorem stepTimeout_links {s : State} (hp : s.boot.phase = .bringup) (hs : s.boot.step = 7) : execBringupStepTimeout 8 s = .next (bootGo s) := by
  simp [execBringupStepTimeout, hp, hs]

/-! Quarters that miss the bound of step 4, 5 or 7 (R391, log 88). -/

theorem mem_liveQuarters {s : State} {q : Nat} : q ∈ liveQuarters s ↔ q < 4 ∧ bit s.boot.qfailed q = false := by
  simp [liveQuarters, upto]

/-- A work stack that does not come up gives its quarter up; bring-up is else as it was. -/
theorem loadKs_gaveUp (s : State) {k : Nat} (hk : k < 4) : s.boot.GaveUp (loadKs s k).boot := by
  unfold loadKs
  extract_lets ok s1
  have h1 (f : Ks → Ks) : (s1.modKs k f).boot = s.boot := (State.modKs_boot s1 k f).trans (State.modKs_boot s k _)
  split
  · rw [h1]; exact .refl _
  split
  · rw [← h1]; exact qfail_gaveUp _ hk
  · rw [h1]; exact .refl _

/-- The stacks loaded from their blocks and trained (R389 step 7). -/
def stacksLoaded (s : State) : State := forEach (upto 4) (forEach (upto 8) s loadWs) loadKs

theorem stacksLoaded_gaveUp (s : State) : s.boot.GaveUp (stacksLoaded s).boot := by
  have hw : (forEach (upto 8) s loadWs).boot = s.boot := steady_boot (forEach_keeps State.steady _ loadWs_steady _ s)
  unfold stacksLoaded
  rw [← hw]
  exact gaveUp_forEach (fun u k hk => loadKs_gaveUp u (List.mem_range.1 hk)) _

/-- With the stacks loaded, the links are set training. -/
theorem bootGo_stacks {s : State} (hp : s.boot.phase = .bringup) (hs : s.boot.step = 6)
    (hl : ∀ q ∈ liveQuarters s, bit s.boot.env.stkLate q = false) :
    bootGo s = if (stacksLoaded s).boot.phase ≠ .bringup then stacksLoaded s
      else bootAdvance (9 + 1) (forEach (upto 32) (stepTo (stacksLoaded s) 7) linkTrain) := by
  show bootAdvance (10 + 1) s = _
  rw [bootAdvance, if_neg (by simp [hp]), hs]
  exact if_neg (by simpa using hl)

/-- The clauses' conclusion for a bound that fails quarters: `lost` names those it fails. -/
theorem qfails_outcome {s : State} {l : List Nat} {lost : Nat → Bool} (hp : s.boot.phase = .bringup) (h15 : s.boot.qfailed ≠ 15)
    (hl : ∀ q, q ∈ l ↔ q ∈ liveQuarters s ∧ lost q = true) :
    let u := forEach l s qfail
    (∀ q, q < 4 → bit u.boot.qfailed q = (bit s.boot.qfailed q || lost q)) ∧
      (∀ q, q < 4 → bit s.boot.qfailed q = false → lost q = true → QuarterHeld u q) ∧ u.boot.Settled ∧
      u.boot.step = s.boot.step ∧ u.boot.env = s.boot.env := by
  intro u
  have hlt : ∀ q ∈ l, q < 4 := fun q hq => (mem_liveQuarters.1 ((hl q).1 hq).1).1
  have hu : s.boot.GaveUp u.boot := qfails_gaveUp hlt s
  refine ⟨fun q hq => ?_, fun q hq hb hq' => ?_, hu.settled ⟨fun _ => hp, fun h => absurd h h15⟩, hu.step, hu.env⟩
  · rw [bit_qfailed_forEach hlt s q]
    cases hb : bit s.boot.qfailed q with
    | true => simp
    | false => simp [hl, mem_liveQuarters, hq, hb]
  · exact quarterHeld_qfails l s (.inl ⟨(hl q).2 ⟨mem_liveQuarters.2 ⟨hq, hb⟩, hq'⟩, hb⟩) hlt

/-- What bring-up does next in step 4 touches no quarter and no chanter. -/
theorem bootGo_chanters_keeps {s : State} (hs : s.boot.step = 3) :
    (bootGo s).boot.qfailed = s.boot.qfailed ∧ (bootGo s).boot.phase = s.boot.phase ∧ (bootGo s).boot.fail = s.boot.fail ∧
      (bootGo s).quarters = s.quarters ∧ (bootGo s).chanters = s.chanters := by
  by_cases hp : s.boot.phase = .bringup
  · rw [bootGo_chanters hp hs]
    split <;> exact ⟨rfl, rfl, rfl, rfl, rfl⟩
  · rw [bootGo_stopped hp]
    exact ⟨rfl, rfl, rfl, rfl, rfl⟩

theorem alignAgain_keeps (s : State) :
    (alignAgain s).boot = s.boot ∧ (alignAgain s).quarters = s.quarters ∧ (alignAgain s).chanters = s.chanters := by
  unfold alignAgain
  split
  · exact ⟨(steady_boot (forEach_keeps State.steady _ stopZones_steady _ _)).trans (State.modStr_boot _ _),
      (forEach_keeps (fun s : State => s.quarters) _ stopZones_quarters _ _).trans (State.modStr_quarters _ _),
      (forEach_keeps (fun s : State => s.chanters) _ stopZones_chanters _ _).trans (State.modStr_chanters _ _)⟩
  · exact ⟨rfl, rfl, rfl⟩

theorem mem_unalignedQuarters (s : State) (q : Nat) :
    q ∈ unalignedQuarters s ↔ q ∈ liveQuarters s ∧ (bootUnready s q || !(liveQuarters s).any (bootUnready s)) = true := by
  unfold unalignedQuarters
  extract_lets qs
  by_cases he : qs = []
  · have hn : (liveQuarters s).any (bootUnready s) = false := by
      rw [List.any_eq_false]
      exact List.filter_eq_nil_iff.1 he
    simp [he, hn]
  · have hn : (liveQuarters s).any (bootUnready s) = true := by
      obtain ⟨r, hr⟩ := List.exists_mem_of_ne_nil _ he
      exact List.any_eq_true.2 ⟨r, List.mem_filter.1 hr⟩
    simp [he, hn, qs]

/-- Clause of steps 4 and 5: bring-up goes on without the quarters lost, or has failed. -/
theorem stepTimeout_failsQuarters (s : State) (lost : Nat → Bool) (n : Fin 11) (hp : s.boot.phase = .bringup) (h15 : s.boot.qfailed ≠ 15)
    (ht : s.boot.stepTick + 800000 ≤ s.tick)
    (hn : n = 4 ∧ s.boot.step = 3 ∧ (∀ q, lost q = bootUnready s q) ∨
      n = 5 ∧ s.boot.step = 4 ∧ ∀ q, lost q = (bootUnready s q || !(liveQuarters s).any (bootUnready s))) :
    ∃ t, exec (.bringupStepTimeout n) s = .next t ∧
      (∀ q, q < 4 → bit t.boot.qfailed q = (bit s.boot.qfailed q || lost q)) ∧
      (∀ q, q < 4 → bit s.boot.qfailed q = false → lost q = true → QuarterHeld t q) ∧ t.boot.Settled := by
  have hlate : s.boot.stepTick + 1 * msTicks ≤ s.tick := by simp only [msTicks]; omega
  rcases hn with ⟨rfl, hs, hlost⟩ | ⟨rfl, hs, hlost⟩
  · obtain ⟨hq, hh, hset, hstep, -⟩ := qfails_outcome (l := (liveQuarters s).filter (bootUnready s)) (lost := lost) hp h15
      fun q => by rw [List.mem_filter, hlost]
    generalize hu : forEach ((liveQuarters s).filter (bootUnready s)) s qfail = u at hq hh hset hstep
    obtain ⟨k1, k2, k3, k4, k5⟩ := bootGo_chanters_keeps (hstep.trans hs)
    refine ⟨bootGo u, ?_, fun q h => k1 ▸ hq q h, fun q h hb hl => (hh q h hb hl).congr k4 k5, ?_⟩
    · rw [← hu]
      exact (stepTimeout_chanters hp hs).trans (congrArg _ (if_pos hlate))
    · rw [Boot.Settled, k1, k2, k3]
      exact hset
  · obtain ⟨hq, hh, hset, -, -⟩ := qfails_outcome (l := unalignedQuarters s) (lost := lost) hp h15
      fun q => by rw [mem_unalignedQuarters, hlost]
    generalize hu : forEach (unalignedQuarters s) s qfail = u at hq hh hset
    obtain ⟨k1, k2, k3⟩ := alignAgain_keeps u
    refine ⟨alignAgain u, ?_, fun q h => k1 ▸ hq q h, fun q h hb hl => (hh q h hb hl).congr k2 k3, k1 ▸ hset⟩
    rw [← hu]
    exact (stepTimeout_alignment hp hs).trans (congrArg _ (if_pos hlate))

theorem linksTraining_boot (s : State) :
    (forEach (upto 32) (stepTo s 7) linkTrain).boot.qfailed = s.boot.qfailed ∧
      (forEach (upto 32) (stepTo s 7) linkTrain).boot.phase = s.boot.phase ∧ (forEach (upto 32) (stepTo s 7) linkTrain).boot.step = 7 := by
  have h : (forEach (upto 32) (stepTo s 7) linkTrain).boot = (stepTo s 7).boot :=
    steady_boot (forEach_keeps State.steady _ linkTrain_steady _ _)
  rw [h, stepTo_boot]
  exact ⟨rfl, rfl, rfl⟩

/-- Loading the stacks may give quarters up, and bring-up then goes on to step 8 or 10, or has failed (R389, R391). -/
theorem bootGo_stacks_outcome {s : State} (hset : s.boot.Settled) (hs : s.boot.step = 6)
    (hl : ∀ q ∈ liveQuarters s, bit s.boot.env.stkLate q = false) :
    (∀ q, bit s.boot.qfailed q = true → bit (bootGo s).boot.qfailed q = true) ∧
      ((bootGo s).boot.qfailed ≠ 15 → (bootGo s).boot.phase ≠ .failed) ∧
      ((bootGo s).boot.qfailed = 15 → (bootGo s).boot.phase = .failed ∧ (bootGo s).boot.fail = 7) := by
  by_cases hp : s.boot.phase = .bringup
  case neg =>
    rw [bootGo_stopped hp]
    exact ⟨fun _ h => h, fun h => absurd (hset.1 h) hp, hset.2⟩
  rw [bootGo_stacks hp hs hl]
  have ht := stacksLoaded_gaveUp s
  obtain ⟨h1, h2⟩ := ht.settled hset
  generalize stacksLoaded s = t at ht h1 h2 ⊢
  split
  case isTrue hpt => exact ⟨ht.more, fun h => absurd (h1 h) hpt, h2⟩
  case isFalse hpt =>
    have hpt : t.boot.phase = .bringup := not_not.1 hpt
    have h15 : t.boot.qfailed ≠ 15 := fun h => by simp [(h2 h).1] at hpt
    obtain ⟨hqu, hpu, hsu⟩ := linksTraining_boot t
    generalize forEach (upto 32) (stepTo t 7) linkTrain = u at hqu hpu hsu ⊢
    rw [hpt] at hpu
    rw [bootAdvance_links 9 hpu hsu]
    split
    · obtain ⟨hr, -, hq⟩ := ready_boot u
      rw [hr, hq, hqu]
      exact ⟨ht.more, fun _ => by simp, fun h => absurd h h15⟩
    · rw [hpu, hqu]
      exact ⟨ht.more, fun _ => by simp, fun h => absurd h h15⟩

/-- Clause of step 7: the quarters whose stacks are late are failed. -/
theorem stepTimeout_failsLateStacks (s : State) (hp : s.boot.phase = .bringup) (hs : s.boot.step = 6) (h15 : s.boot.qfailed ≠ 15)
    (ht : s.boot.stepTick + 72000000 ≤ s.tick) :
    ∃ t, exec (.bringupStepTimeout 7) s = .next t ∧
      (∀ q, q < 4 → bit s.boot.qfailed q = true ∨ bit s.boot.env.stkLate q = true → bit t.boot.qfailed q = true) ∧
      (t.boot.qfailed ≠ 15 → t.boot.phase ≠ .failed) ∧ (t.boot.qfailed = 15 → t.boot.phase = .failed ∧ t.boot.fail = 7) := by
  obtain ⟨hq, -, hset, hstep, henv⟩ := qfails_outcome (l := (liveQuarters s).filter (bit s.boot.env.stkLate)) (lost := bit s.boot.env.stkLate)
    hp h15 fun q => List.mem_filter
  generalize hu : forEach ((liveQuarters s).filter (bit s.boot.env.stkLate)) s qfail = u at hq hset hstep henv
  have hlive : ∀ q ∈ liveQuarters u, bit u.boot.env.stkLate q = false := fun q h => by
    obtain ⟨hlt, hb⟩ := mem_liveQuarters.1 h
    rw [hq q hlt, Bool.or_eq_false_iff] at hb
    rw [henv]
    exact hb.2
  obtain ⟨hmore, h1, h2⟩ := bootGo_stacks_outcome hset (hstep.trans hs) hlive
  refine ⟨bootGo u, ?_, fun q hlt h => hmore q ?_, h1, h2⟩
  · rw [← hu]
    exact (stepTimeout_stacks hp hs).trans (congrArg _ (if_pos (by simp only [msTicks]; omega)))
  · rw [hq q hlt, Bool.or_eq_true]
    exact h

/-- Whether step 3 fails for the persistent store. -/
theorem bootLoad_store (s : State) : (bootLoad s).1 = 4 ↔ s.boot.env.pstBad.any (fun w => decide (w.val < 0x080)) = true := by
  unfold bootLoad
  split
  · next h => simp [h]
  · next h =>
    dsimp only
    split <;> simp [h]

theorem stepTimeout_load_store {s : State} (hp : s.boot.phase = .bringup) (hs : s.boot.step = 2) (ht : s.boot.stepTick + 8000000 ≤ s.tick)
    (h : s.boot.env.pstLate = true) : exec (.bringupStepTimeout 3) s = .next (bootFail s 4) := by
  rw [show exec (.bringupStepTimeout 3) s = _ from stepTimeout_load hp hs, if_pos (by simp only [msTicks]; omega), if_pos h]

theorem stepTimeout_load_firmware {s : State} (hp : s.boot.phase = .bringup) (hs : s.boot.step = 2) (ht : s.boot.stepTick + 8000000 ≤ s.tick)
    (h : s.boot.env.pstLate = false) (hf : s.boot.env.fwLate = true) :
    exec (.bringupStepTimeout 3) s =
      .next (bootFail (bootLoad s).2 (if s.boot.env.pstBad.any (fun w => decide (w.val < 0x080)) then 4 else 5)) := by
  rw [show exec (.bringupStepTimeout 3) s = _ from stepTimeout_load hp hs, if_pos (by simp only [msTicks]; omega), if_neg (by simp [h]),
    if_pos hf]
  simp only [bootLoad_store]

/-- Before its bound step 3, 4, 5, 6 or 7 is left to go on. -/
theorem stepTimeout_early {s : State} (hp : s.boot.phase = .bringup) {n : Fin 11} {ms : Nat}
    (hn : (n.val, ms) ∈ [(3, 10), (4, 1), (5, 1), (6, 40), (7, 90)]) (hs : s.boot.step.toNat + 1 = n.val)
    (ht : s.tick < s.boot.stepTick + 800000 * ms) : exec (.bringupStepTimeout n) s = .next s := by
  obtain ⟨n, hlt⟩ := n
  have hstep (k : BitVec 4) (hk : s.boot.step.toNat = k.toNat) : s.boot.step = k := BitVec.eq_of_toNat_eq hk
  simp only [List.mem_cons, Prod.mk.injEq, List.not_mem_nil, or_false] at hn hs
  rcases hn with ⟨rfl, rfl⟩ | ⟨rfl, rfl⟩ | ⟨rfl, rfl⟩ | ⟨rfl, rfl⟩ | ⟨rfl, rfl⟩
  · exact (stepTimeout_load hp (hstep 2 (by simp; omega))).trans (congrArg _ (if_neg (by simp only [msTicks]; omega)))
  · exact (stepTimeout_chanters hp (hstep 3 (by simp; omega))).trans (congrArg _ (if_neg (by simp only [msTicks]; omega)))
  · exact (stepTimeout_alignment hp (hstep 4 (by simp; omega))).trans (congrArg _ (if_neg (by simp only [msTicks]; omega)))
  · exact (stepTimeout_sync hp (hstep 5 (by simp; omega))).trans (congrArg _ (if_neg (by simp only [msTicks]; omega)))
  · exact (stepTimeout_stacks hp (hstep 6 (by simp; omega))).trans (congrArg _ (if_neg (by simp only [msTicks]; omega)))

/-- Before 20 ms have passed the bounds of steps 1 and 2 do nothing. -/
theorem stepTimeout_rails_early {s : State} (ht : s.tick < s.boot.startTick + 16000000) : exec (.bringupStepTimeout 1) s = .next s :=
  (stepTimeout_rails s).trans (congrArg _ (if_neg (by simp only [msTicks]; omega)))

theorem stepTimeout_lock_early {s : State} (hp : s.boot.phase = .bringup) (ht : s.tick < s.boot.startTick + 16000000) :
    exec (.bringupStepTimeout 2) s = .next s :=
  (stepTimeout_lock hp).trans (congrArg _ (if_neg (by simp only [msTicks]; omega)))

theorem railStartTimeout_late {s : State} {r : Rail} {b : Nat} (hp : s.boot.phase = .bringup) (hb : s.pwr.softStart = some b)
    (ht : b + railBound r ≤ s.tick) (hg : railGood s.pwr r = false) :
    exec (.railStartTimeout r) s = .next (bootFail (s.modPwr fun w => { w with softStart := none }) 2) := by
  rw [exec_railStartTimeout r hb, if_pos ⟨hp, ht, by simp [hg]⟩]

/-- Settles O53. -/
theorem supplyPinsAndBringup : Obligations.SupplyPinsAndBringup := by
  unfold Obligations.SupplyPinsAndBringup
  refine ⟨fun s h => ?_, fun s h => ?_, fun s h hg => ?_, fun s b h => ?_, fun s i r h => ?_, fun s i r h => exec_thermTrip_cold s i h,
    fun s e hp hr => ?_, fun s e hp hf => ?_, fun s r b hp hb ht => ?_, fun s r b hb ht => ?_, fun s hp => ?_,
    fun s lost n hp h15 ht hn => ?_, fun s hp hs h15 ht => stepTimeout_failsLateStacks s hp hs h15 ht⟩
  case refine_1 => exact congrArg Host.Outcome.next (if_pos h)
  case refine_2 =>
    refine ⟨_, exec_vinRise h, rfl, fun hr => ?_⟩
    simp [updAlert, alertOf, State.ready, hr, State.modPins, State.modPwr]
  case refine_3 =>
    refine ⟨_, exec_vinGood h hg, rfl, rfl, fun hp hw => if_pos ⟨hp, by simp [hw]⟩, fun hp => if_neg fun h => hp h.1⟩
  case refine_4 =>
    rw [exec_thermTripValid h]
    refine ⟨fun ht => ?_, fun ht => ?_⟩
    · rw [if_pos (by simp only [msTicks]; omega)]; rfl
    · rw [if_neg (by simp only [msTicks]; omega)]
  case refine_5 =>
    exact ⟨_, exec_thermTrip_hot s i h, rfl, sget_sset_same _ _ _ _, fun j hj => sget_sset_other _ _ _ _ _ hj⟩
  case refine_6 =>
    refine ⟨fun hf => ?_, exec_bringupStart_powerFail e⟩
    exact ⟨_, exec_bringupStart e hp hf hr, rfl, rfl, rfl, rfl, rfl, rfl, rfl, rfl⟩
  case refine_7 =>
    refine ⟨fun hr hv => ?_, exec_powerFailRelease_early e⟩
    exact ⟨_, exec_powerFailRelease e hp hf hr hv, rfl, rfl, rfl, rfl, rfl, rfl⟩
  case refine_8 =>
    refine ⟨fun hg => ?_, fun hg => ?_⟩
    · exact ⟨_, railStartTimeout_late hp hb ht hg, rfl, rfl, rfl, rfl, rfl⟩
    · rw [exec_railStartTimeout r hb, if_neg (by simp [hg])]
  case refine_9 => rw [exec_railStartTimeout r hb, if_neg (by omega)]
  case refine_10 =>
    refine ⟨fun hs ht => ?_, fun hs ht hd => ?_, fun hs ht => ?_, fun hs ht => ⟨fun h => ?_, fun h hf => ?_⟩, fun hs ht => ?_,
      fun ht => ⟨stepTimeout_rails_early ht, stepTimeout_lock_early hp ht⟩, fun n ms hn hs ht => stepTimeout_early hp hn hs ht,
      fun hs ht ha => ?_⟩
    · refine ⟨_, (stepTimeout_rails s).trans (congrArg _ (if_pos ⟨hp, hs, by simp only [msTicks]; omega⟩)), rfl, ?_⟩
      rw [bootFail_boot]
      split <;> rfl
    · refine ⟨_, (stepTimeout_lock hp).trans (congrArg _ (if_pos ⟨?_, ?_, by simp [hd]⟩)), rfl, rfl⟩
      · rw [hs]; decide
      · simp only [msTicks]; omega
    · exact ⟨_, (stepTimeout_sync hp hs).trans (congrArg _ (if_pos (by simp only [msTicks]; omega))), rfl, rfl⟩
    · exact ⟨_, stepTimeout_load_store hp hs ht h, rfl, rfl⟩
    · refine ⟨_, stepTimeout_load_firmware hp hs ht h hf, rfl, ?_⟩
      rw [bootFail_boot]
      split <;> rfl
    · have hgo : bootGo s = bootReady (stepTo (bootFabric (stepTo s 8)) 9) := by
        rw [bootGo_links hp hs, if_pos]
        rw [Bool.or_eq_true, decide_eq_true_eq]
        exact .inr (by simp only [msTicks]; omega)
      obtain ⟨hr, h10, -⟩ := ready_boot s
      exact ⟨_, (stepTimeout_links hp hs).trans (congrArg _ hgo), hr, h10⟩
    · refine (stepTimeout_links hp hs).trans (congrArg _ ?_)
      rw [bootGo_links hp hs, if_neg]
      rw [ha, Bool.not_true, Bool.false_or, decide_eq_true_eq]
      simp only [msTicks]
      omega
  case refine_11 =>
    obtain ⟨t, he, hq, hh, hset⟩ := stepTimeout_failsQuarters s lost n hp h15 ht hn
    exact ⟨t, he, hq, hh, hset.1, hset.2⟩

end Sys2Proof.Machine
end

section
/-! SUPPORT. Operating-point moves, the governor's sample, input warnings and calibration (R333 to R339, R348, R352 to R356). -/

namespace Sys2Proof.Machine

/-! Moves. -/

theorem forEach_vtarget (g : State → Nat → Sparse Nat) : ∀ (l : List Nat) (s : State),
    ∃ v, forEach l s (fun s q => s.modPwr fun w => { w with vtarget := g s q }) = { s with pwr := { s.pwr with vtarget := v } }
  | [], s => ⟨s.pwr.vtarget, rfl⟩
  | q :: l, s => forEach_vtarget g l (s.modPwr fun w => { w with vtarget := g s q })

theorem aimAt_changes (s : State) (p : Nat) : ∃ v, aimAt s p = { s with pwr := { s.pwr with vtarget := v } } :=
  forEach_vtarget (fun s q => sset 0 s.pwr.vtarget q (setpoint s q p)) (upto 4) s

/-- A move, where the region is not on its way to the point or there already, changes the clocks' aim and the rails' targets alone. -/
theorem moveTo_changes (s : State) (p : Nat) :
    ∃ c v, moveTo s p = { s with clk := c, pwr := { s.pwr with vtarget := v } } ∧
      (aimPoint s ≠ p → c.moving = true ∧ c.target = BitVec.ofNat 3 p) := by
  unfold moveTo
  split
  · next h => exact ⟨s.clk, s.pwr.vtarget, rfl, fun h' => absurd h h'⟩
  · extract_lets up t
    split
    · obtain ⟨v, hv⟩ := aimAt_changes t p
      exact ⟨t.clk, v, hv, fun _ => ⟨rfl, rfl⟩⟩
    · exact ⟨t.clk, s.pwr.vtarget, rfl, fun _ => ⟨rfl, rfl⟩⟩

theorem countDescent_changes (s : State) (p n why : Nat) :
    ∃ d a b c, countDescent s p n why = { s with pwr := { s.pwr with descTick := d, dSummit := a, dThermal := b, dAllot := c } } := by
  unfold countDescent
  split
  · exact ⟨_, _, _, _, rfl⟩
  · exact ⟨s.pwr.descTick, s.pwr.dSummit, s.pwr.dThermal, s.pwr.dAllot, rfl⟩

theorem vinMove_changes (s : State) :
    ∃ c v n d, vinMove s = { s with clk := c, pwr := { s.pwr with vtarget := v, dVin := n, descTick := d } } ∧
      (movesAllowed s = true → 0 < s.clk.point.toNat ∨ 0 < aimPoint s → c.moving = true ∧ c.target = 0) := by
  unfold vinMove
  split
  · next h =>
    rw [Bool.and_eq_true, decide_eq_true_eq] at h
    obtain ⟨c, v, hm, hc⟩ := moveTo_changes (s.modPwr fun w => { w with dVin := w.dVin + 1, descTick := some s.tick }) 0
    refine ⟨c, v, s.pwr.dVin + 1, some s.tick, hm, fun _ _ => hc ?_⟩
    exact Nat.ne_of_gt h.2
  · next h =>
    refine ⟨s.clk, s.pwr.vtarget, s.pwr.dVin, s.pwr.descTick, rfl, fun ha hp => ?_⟩
    have h0 : aimPoint s = 0 := by simpa [ha] using h
    have hpt : 0 < s.clk.point.toNat := by omega
    unfold aimPoint at h0
    split at h0
    · next hm => exact ⟨hm, BitVec.eq_of_toNat_eq h0⟩
    · omega

/-! Input warnings (R348, R352). -/

theorem exec_vinWarning {s : State} (h : s.pwr.vinWarn = false) (hh : s.pwr.vinHigh = true) :
    exec .vinWarning s = .next
      (let t := lifeInc (s.modPwr fun w =>
          { w with vinWarn := true, warnCount := satInc w.warnCount, savedPoint := if w.recovered then w.savedPoint else s.clk.point,
                   savedDuty := w.duty, recovered := false, duty := if 4 < w.duty.toNat then 4 else w.duty }) lifeVinWarnings
       if t.ready then vinMove t else t) :=
  congrArg Host.Outcome.next (if_neg (by simp [h, hh]))

theorem toNat_dutyAtMost4 (d : BitVec 4) : (if 4 < d.toNat then 4 else d : BitVec 4).toNat = min 4 d.toNat := by
  split
  · show 4 = _; omega
  · omega

/-- Clause of VIN_WARNING. -/
theorem vinWarning_descends (s : State) (hw : s.pwr.vinWarn = false) (hh : s.pwr.vinHigh = true) :
    ∃ t, exec .vinWarning s = .next t ∧ t.pwr.vinWarn = true ∧ t.pwr.warnCount = satInc s.pwr.warnCount ∧
      t.pwr.savedDuty = s.pwr.duty ∧ t.pwr.duty.toNat = min 4 s.pwr.duty.toNat ∧
      (s.boot.phase = .ready → 0 < s.clk.point.toNat ∨ 0 < aimPoint s → movesAllowed s = true →
        t.clk.moving = true ∧ t.clk.target = 0) := by
  refine ⟨_, exec_vinWarning hw hh, ?_⟩
  extract_lets t
  have hduty : t.pwr.duty.toNat = min 4 s.pwr.duty.toNat := toNat_dutyAtMost4 s.pwr.duty
  split
  · obtain ⟨c, v, n, d, hv, hc⟩ := vinMove_changes t
    rw [hv]
    exact ⟨rfl, rfl, rfl, hduty, fun _ hp ha => hc ha hp⟩
  · next hr => exact ⟨rfl, rfl, rfl, hduty, fun hp => absurd (decide_eq_true hp) hr⟩

theorem exec_vinWarningEnd {s : State} (h : s.pwr.vinWarn = true) :
    exec .vinWarningEnd s = .next
      (let t := s.modPwr fun w => { w with vinWarn := false, recovered := true, duty := w.savedDuty }
       if t.ready && movesAllowed t then moveTo (countDescent t (recoverTo t).1 (recoverTo t).2 (descentField t)) (recoverTo t).1 else t) :=
  congrArg Host.Outcome.next (if_neg (by simp [h]))

/-- Clause of VIN_WARNING_END. -/
theorem vinWarningEnd_restores (s : State) (hw : s.pwr.vinWarn = true) :
    ∃ t, exec .vinWarningEnd s = .next t ∧ t.pwr.vinWarn = false ∧ t.pwr.recovered = true ∧ t.pwr.duty = s.pwr.savedDuty := by
  refine ⟨_, exec_vinWarningEnd hw, ?_⟩
  extract_lets t
  split
  · obtain ⟨d, a, b, c, hd⟩ := countDescent_changes t (recoverTo t).1 (recoverTo t).2 (descentField t)
    obtain ⟨k, v, hm, -⟩ := moveTo_changes (countDescent t (recoverTo t).1 (recoverTo t).2 (descentField t)) (recoverTo t).1
    rw [hm, hd]
    exact ⟨rfl, rfl, rfl⟩
  · exact ⟨rfl, rfl, rfl⟩

/-! Calibration (R354). -/

theorem calibrated_bounds {k : Rat} (hk : 0 ≤ k) (x : Rat) :
    99 / 100 * k ≤ k * max (99 / 100) (min (101 / 100) x) ∧ k * max (99 / 100) (min (101 / 100) x) ≤ 101 / 100 * k := by
  have h1 : (99 / 100 : Rat) ≤ max (99 / 100) (min (101 / 100) x) := le_max_left _ _
  have h2 : max (99 / 100) (min (101 / 100) x) ≤ (101 / 100 : Rat) := max_le (by norm_num) (min_le_left _ _)
  constructor
  · rw [mul_comm]; exact mul_le_mul_of_nonneg_left h1 hk
  · rw [mul_comm (101 / 100)]; exact mul_le_mul_of_nonneg_left h2 hk

/-- Clause of CALIBRATION_UPDATE. -/
theorem calibrationUpdate_moves (s : State) (v i : BitVec 16) (m : Nat) (hk : 0 ≤ s.pwr.k) :
    ∃ t, exec (.calibrationUpdate v i m) s = .next t ∧ t = { s with pwr := t.pwr, free := t.free } ∧ t.pwr.vinMv = v ∧
      t.pwr.iinMa = i ∧ t.pwr.estMs = 0 ∧ 99 / 100 * s.pwr.k ≤ t.pwr.k ∧ t.pwr.k ≤ 101 / 100 * s.pwr.k := by
  have hkeep : 99 / 100 * s.pwr.k ≤ s.pwr.k ∧ s.pwr.k ≤ 101 / 100 * s.pwr.k := by constructor <;> linarith
  obtain ⟨f, n, he⟩ : ∃ f n, exec (.calibrationUpdate v i m) s = .next { s with free := n, pwr :=
      { s.pwr with vinMv := v, iinMa := i, calErr := f, estMs := 0,
                   k := if s.pwr.k * s.pwr.estMs = 0 then s.pwr.k
                     else s.pwr.k * max (99 / 100) (min (101 / 100) ((m : Rat) / (s.pwr.k * s.pwr.estMs))) } } := by
    show ∃ f n, execCalibrationUpdate v i m s = _
    unfold execCalibrationUpdate
    dsimp only
    split
    · exact ⟨_, _, rfl⟩
    · exact ⟨_, s.free, rfl⟩
  refine ⟨_, he, rfl, rfl, rfl, rfl, ?_⟩
  dsimp only
  split
  · exact hkeep
  · exact calibrated_bounds hk _

end Sys2Proof.Machine
end

section
/-! SUPPORT. The governor's sample (R333, R334, R336, R339, R353, R356). -/

namespace Sys2Proof.Machine

/-! Trims that wait for a move (R332). -/

/-- What a trim change leaves of the clocks, bring-up and the power block: all but the rails' targets. -/
def State.untrimmed (s : State) : Nat × Boot × Clk × Pwr := (s.tick, s.boot, s.clk, { s.pwr with vtarget := [] })

theorem untrimmed_eq {s t : State} (ht : t.tick = s.tick) (hb : t.boot = s.boot) (hc : t.clk = s.clk)
    (hw : { t.pwr with vtarget := [] } = { s.pwr with vtarget := [] }) : t.untrimmed = s.untrimmed := by
  rw [State.untrimmed, State.untrimmed, ht, hb, hc, hw]

theorem modTrim_untrimmed (s : State) (q : Nat) (f : Trim → Trim) : (s.modTrim q f).untrimmed = s.untrimmed := untrimmed_eq rfl rfl rfl rfl
theorem aimTrim_untrimmed (s : State) (q : Nat) : (aimTrim s q).untrimmed = s.untrimmed := untrimmed_eq rfl rfl rfl rfl
theorem storeTrim_untrimmed (s : State) (q : Nat) (t : Trim) : (storeTrim s q t).untrimmed = s.untrimmed := by
  unfold storeTrim pstWrite
  split
  · exact untrimmed_eq rfl rfl rfl rfl
  · exact untrimmed_eq rfl rfl rfl rfl

theorem raiseTrim_untrimmed (s : State) (q : Nat) : (raiseTrim s q).untrimmed = s.untrimmed := by
  unfold raiseTrim
  dsimp only
  split
  · exact modTrim_untrimmed _ _ _
  · rw [aimTrim_untrimmed, storeTrim_untrimmed, modTrim_untrimmed]

theorem lowerTrim_untrimmed (s : State) (q : Nat) : (lowerTrim s q).untrimmed = s.untrimmed := by
  rw [lowerTrim, aimTrim_untrimmed, modTrim_untrimmed]

theorem applyTrims_untrimmed (s : State) : (applyTrims s).untrimmed = s.untrimmed := by
  unfold applyTrims
  split
  · rfl
  · refine forEach_keeps State.untrimmed _ (fun s q => ?_) _ s
    split
    · exact raiseTrim_untrimmed s q
    split
    · exact lowerTrim_untrimmed s q
    · rfl

/-! Crediting energy (R353, R356). -/

/-- t is s with f k µJ more in each energy counter k of a quarter or shared, and perhaps more credited to queues and descriptors. -/
structure Credited (s t : State) (f : Nat → Rat) : Prop where
  tick : t.tick = s.tick
  boot : t.boot = s.boot
  clk : t.clk = s.clk
  pwr : { t.pwr with energy := [] } = { s.pwr with energy := [] }
  energy : ∀ k < 8, sget 0 t.pwr.energy k = sget 0 s.pwr.energy k + f k

theorem Credited.trans {s t u : State} {f g : Nat → Rat} (h : Credited s t f) (h' : Credited t u g) :
    Credited s u fun k => f k + g k :=
  ⟨h'.tick.trans h.tick, h'.boot.trans h.boot, h'.clk.trans h.clk, h'.pwr.trans h.pwr, fun k hk => by rw [h'.energy k hk, h.energy k hk, add_assoc]⟩

theorem Credited.of_eq {s t : State} (ht : t.tick = s.tick) (hb : t.boot = s.boot) (hc : t.clk = s.clk) (hw : t.pwr = s.pwr) : Credited s t fun _ => 0 :=
  ⟨ht, hb, hc, by rw [hw], fun k _ => by rw [hw, add_zero]⟩

theorem creditCtr_credited (s : State) (k : Nat) (e : Rat) : Credited s (creditCtr s k e) fun i => if i = k then e else 0 := by
  refine ⟨rfl, rfl, rfl, rfl, fun i _ => ?_⟩
  show sget 0 (smod 0 s.pwr.energy k (· + e)) i = _
  split
  · next h => rw [h, sget_smod_same]
  · next h => rw [sget_smod_other _ _ _ _ _ h, add_zero]

theorem creditExec_credited (s : State) (n : Nat) (x : Executor) (e : Rat) : Credited s (creditExec s n x e) fun _ => 0 := by
  cases x <;> exact .of_eq rfl rfl rfl rfl

theorem Credited.andNothing {s t u : State} {f : Nat → Rat} (h : Credited s t f) (h' : Credited t u fun _ => 0) : Credited s u f := by
  have := h.trans h'
  simpa only [add_zero] using this

theorem forEach_credited {α : Type} {f : State → α → State} (h : ∀ s a, Credited s (f s a) fun _ => 0) :
    ∀ (l : List α) (s : State), Credited s (forEach l s f) fun _ => 0
  | [], _ => .of_eq rfl rfl rfl rfl
  | a :: l, s => (h s a).andNothing (forEach_credited h l (f s a))

/-- A quarter's energy goes to its own counter; the counters of the queues stand behind those of the quarters. -/
theorem creditQuarter_credited (s : State) (q : Nat) (e : Rat) : Credited s (creditQuarter s q e) fun i => if i = q then e else 0 := by
  unfold creditQuarter
  extract_lets xs ns t
  have hqueue (u : State) (n : Nat) (x : Rat) : Credited u (creditCtr u (8 + n) x) fun _ => 0 := by
    obtain ⟨ht, hb, hc, hw, he⟩ := creditCtr_credited u (8 + n) x
    exact ⟨ht, hb, hc, hw, fun k hk => by rw [he k hk, if_neg (by omega)]⟩
  refine (creditCtr_credited s q e).andNothing (forEach_credited (fun u n => ?_) ns t)
  exact (hqueue u n _).andNothing (forEach_credited (fun s (x : Nat × Executor) => creditExec_credited s n x.2 _) _ _)

/-! The loop's decisions leave what has been measured (R339). -/

/-- What a sample measures: its tick, the energy counters, p, U, the window, the allotment in effect and the times at the points. -/
def Pwr.measured (w : Pwr) := (w.sampleTick, w.energy, w.p, w.u, w.win, w.allotNow, w.pointTens)

theorem moveTo_measured (s : State) (p : Nat) : (moveTo s p).pwr.measured = s.pwr.measured := by
  obtain ⟨c, v, h, -⟩ := moveTo_changes s p
  rw [h]
  rfl

theorem countDescent_measured (s : State) (p n why : Nat) : (countDescent s p n why).pwr.measured = s.pwr.measured := by
  obtain ⟨d, a, b, c, h⟩ := countDescent_changes s p n why
  rw [h]
  rfl

theorem vinMove_measured (s : State) : (vinMove s).pwr.measured = s.pwr.measured := by
  obtain ⟨c, v, n, d, h, -⟩ := vinMove_changes s
  rw [h]
  rfl

theorem hintMove_measured (s : State) (why : Nat) : (hintMove s why).pwr.measured = s.pwr.measured := by
  unfold hintMove
  split
  · split
    · rw [moveTo_measured, countDescent_measured]
    · rfl
  · rfl

theorem loopMove_measured (s : State) (want n why : Nat) : (loopMove s want n why).pwr.measured = s.pwr.measured := by
  unfold loopMove
  split
  · rfl
  split
  · exact vinMove_measured s
  extract_lets t u
  have ht : t.pwr.measured = s.pwr.measured := by
    simp only [t]
    split <;> rfl
  have hu : u.pwr.measured = t.pwr.measured := by
    simp only [u]
    split <;> rfl
  have hmove (c : Prop) [Decidable c] :
      (if c then hintMove u why else moveTo (countDescent u want n why) want).pwr.measured = s.pwr.measured := by
    split
    · rw [hintMove_measured, hu, ht]
    · rw [moveTo_measured, countDescent_measured, hu, ht]
  exact hmove _

theorem nextDuty_measured (s : State) (past canDescend : Bool) (S g : Rat) :
    (nextDuty s past canDescend S g).pwr.measured = s.pwr.measured := by
  unfold nextDuty
  extract_lets w t v set u
  have ht : t.pwr.measured = s.pwr.measured := by
    simp only [t]
    split <;> rfl
  have hset (x : State) (d : Nat) : (set x d).pwr.measured = x.pwr.measured := by
    simp only [set]
    split <;> rfl
  have hu : u.pwr.measured = t.pwr.measured := by
    simp only [u]
    split
    · exact hset _ _
    split
    · exact hset _ _
    split
    · exact hset _ _
    · rfl
  split
  · exact hu.trans ht
  · exact hu.trans ht

theorem governLoop_measured (s : State) : (governLoop s).pwr.measured = s.pwr.measured := by
  unfold governLoop
  extract_lets S H g hot past can t
  have ht : t.pwr.measured = s.pwr.measured := nextDuty_measured _ _ _ _ _
  exact (loopMove_measured _ _ _ _).trans ht

/-! GOVERNOR_SAMPLE. -/

/-- A sample credits each quarter and what the quarters share. -/
theorem creditSample_credited (s : State) (f : Nat → Rat) (x : Rat) :
    Credited s (creditCtr (forEach (upto 4) s fun s q => creditQuarter s q (f q)) 4 x) fun i =>
      (if i = 0 then f 0 else 0) + (if i = 1 then f 1 else 0) + (if i = 2 then f 2 else 0) + (if i = 3 then f 3 else 0) +
        (if i = 4 then x else 0) := by
  have h4 : upto 4 = [0, 1, 2, 3] := by decide
  rw [h4]
  simp only [forEach, List.foldl]
  exact ((((creditQuarter_credited s 0 _).trans (creditQuarter_credited _ 1 _)).trans (creditQuarter_credited _ 2 _)).trans
    (creditQuarter_credited _ 3 _)).trans (creditCtr_credited _ 4 _)

theorem untrimmed_pwr_fields {v w : Pwr} (h : { v with vtarget := [] } = { w with vtarget := [] }) :
    v.k = w.k ∧ v.u = w.u ∧ v.win = w.win ∧ v.allot = w.allot ∧ v.pointTens = w.pointTens ∧ v.energy = w.energy :=
  ⟨(congrArg Pwr.k h :), (congrArg Pwr.u h :), (congrArg Pwr.win h :), (congrArg Pwr.allot h :), (congrArg Pwr.pointTens h :),
    (congrArg Pwr.energy h :)⟩

theorem unmetered_pwr_fields {v w : Pwr} (h : { v with energy := [] } = { w with energy := [] }) :
    v.u = w.u ∧ v.win = w.win ∧ v.allot = w.allot ∧ v.pointTens = w.pointTens :=
  ⟨(congrArg Pwr.u h :), (congrArg Pwr.win h :), (congrArg Pwr.allot h :), (congrArg Pwr.pointTens h :)⟩

/-- What a sample works on once the trims that waited are applied and its energy is credited. -/
theorem sampled_facts {s t u : State} {f : Nat → Rat} (h : t.untrimmed = s.untrimmed) (h' : Credited t u f) :
    (u.tick = s.tick ∧ u.boot = s.boot ∧ u.clk = s.clk) ∧ t.pwr.k = s.pwr.k ∧
      (u.pwr.u = s.pwr.u ∧ u.pwr.win = s.pwr.win ∧ u.pwr.allot = s.pwr.allot ∧ u.pwr.pointTens = s.pwr.pointTens) ∧
      ∀ k < 8, sget 0 u.pwr.energy k = sget 0 s.pwr.energy k + f k := by
  obtain ⟨ht, hb, hc, hw, he⟩ := h'
  simp only [State.untrimmed, Prod.mk.injEq] at h
  obtain ⟨ht', hb', hc', hw'⟩ := h
  obtain ⟨hk, hu', hwin', hallot', htens', hen⟩ := untrimmed_pwr_fields hw'
  obtain ⟨hu, hwin, hallot, htens⟩ := unmetered_pwr_fields hw
  exact ⟨⟨ht.trans ht', hb.trans hb', hc.trans hc'⟩, hk, ⟨hu.trans hu', hwin.trans hwin', hallot.trans hallot', htens.trans htens'⟩,
    fun k hk => by rw [he k hk, hen]⟩

theorem measured_fields {v w : Pwr} (h : v.measured = w.measured) :
    v.sampleTick = w.sampleTick ∧ v.energy = w.energy ∧ v.p = w.p ∧ v.u = w.u ∧ v.win = w.win ∧ v.allotNow = w.allotNow ∧
      v.pointTens = w.pointTens := by
  simpa only [Pwr.measured, Prod.mk.injEq] using h

/-- Clause of GOVERNOR_SAMPLE where one is due. -/
theorem governorSample_measures (s : State) (e : EnergyEst) (h8 : s.tick % 8000 = 0) (hs : s.pwr.sampleTick ≠ some s.tick)
    (hv : s.pwr.vInt = true) :
    ∃ t, exec (.governorSample e) s = .next t ∧ t.pwr.sampleTick = some s.tick ∧
      sget 0 t.pwr.energy 0 = sget 0 s.pwr.energy 0 + s.pwr.k * (e.q0 : Rat) / 1000 ∧
      sget 0 t.pwr.energy 1 = sget 0 s.pwr.energy 1 + s.pwr.k * (e.q1 : Rat) / 1000 ∧
      sget 0 t.pwr.energy 2 = sget 0 s.pwr.energy 2 + s.pwr.k * (e.q2 : Rat) / 1000 ∧
      sget 0 t.pwr.energy 3 = sget 0 s.pwr.energy 3 + s.pwr.k * (e.q3 : Rat) / 1000 ∧
      sget 0 t.pwr.energy 4 = sget 0 s.pwr.energy 4 + s.pwr.k * (e.shared : Rat) / 1000 ∧
      (s.boot.phase = .ready →
        t.pwr.p = s.pwr.k * ((e.q0 + e.q1 + e.q2 + e.q3 + e.shared : Nat) : Rat) / 10000 ∧
        t.pwr.u = s.pwr.u + (t.pwr.p - s.pwr.u) / 5000 ∧ t.pwr.win = (t.pwr.p :: s.pwr.win).take 200 ∧ t.pwr.allotNow = s.pwr.allot ∧
        sget 0 t.pwr.pointTens s.clk.point.toNat = sget 0 s.pwr.pointTens s.clk.point.toNat + 1) := by
  have hdue : ¬ (s.tick % 8000 ≠ 0 ∨ s.pwr.sampleTick = some s.tick ∨ (!s.pwr.vInt) = true) := by simp [h8, hs, hv]
  show ∃ t, execGovernorSample e s = .next t ∧ _
  unfold execGovernorSample
  rw [if_neg hdue]
  extract_lets s1 est qs k s2 s3 s4 p s5 s6
  have h1 : s1.untrimmed = s.untrimmed := applyTrims_untrimmed s
  have h3 : Credited s1 s3 _ := creditSample_credited s1 (fun q => k * (est q : Rat) / 1000) (k * (e.shared : Rat) / 1000)
  obtain ⟨⟨htick, hboot, hclk⟩, hk, ⟨hu, hwin, hallot, htens⟩, hen⟩ := sampled_facts h1 h3
  have hen0 : sget 0 s3.pwr.energy 0 = sget 0 s.pwr.energy 0 + s.pwr.k * (e.q0 : Rat) / 1000 := by
    simpa [k, hk, est] using hen 0 (by omega)
  have hen1 : sget 0 s3.pwr.energy 1 = sget 0 s.pwr.energy 1 + s.pwr.k * (e.q1 : Rat) / 1000 := by
    simpa [k, hk, est] using hen 1 (by omega)
  have hen2 : sget 0 s3.pwr.energy 2 = sget 0 s.pwr.energy 2 + s.pwr.k * (e.q2 : Rat) / 1000 := by
    simpa [k, hk, est] using hen 2 (by omega)
  have hen3 : sget 0 s3.pwr.energy 3 = sget 0 s.pwr.energy 3 + s.pwr.k * (e.q3 : Rat) / 1000 := by
    simpa [k, hk, est] using hen 3 (by omega)
  have hen4 : sget 0 s3.pwr.energy 4 = sget 0 s.pwr.energy 4 + s.pwr.k * (e.shared : Rat) / 1000 := by
    simpa [k, hk, est] using hen 4 (by omega)
  have hp : p = s.pwr.k * ((e.q0 + e.q1 + e.q2 + e.q3 + e.shared : Nat) : Rat) / 10000 := by simp only [p, k, hk, qs]
  clear_value s1 est qs k s2 s3
  by_cases hr : s.boot.phase = .ready
  · have hready : s4.ready = true := decide_eq_true ((congrArg Boot.phase hboot).trans hr)
    rw [if_neg (by simp [hready])]
    have h6 : (governLoop s6).pwr.measured = s5.pwr.measured := by
      rw [governLoop_measured]
      exact congrArg Pwr.measured (forEach_keeps (fun s : State => s.pwr) _ (fun s q => State.modTrim_pwr s q _) _ s5)
    obtain ⟨m1, m2, m3, m4, m5, m6, m7⟩ := measured_fields h6
    refine ⟨_, rfl, ?_⟩
    rw [m1, m2, m3, m4, m5, m6, m7]
    refine ⟨congrArg some htick, hen0, hen1, hen2, hen3, hen4, fun _ => ⟨hp, ?_, ?_, hallot, ?_⟩⟩
    · show s3.pwr.u + (p - s3.pwr.u) / 5000 = s.pwr.u + (p - s.pwr.u) / 5000
      rw [hu]
    · show (p :: s3.pwr.win).take 200 = (p :: s.pwr.win).take 200
      rw [hwin]
    · show sget 0 (smod 0 s3.pwr.pointTens s3.clk.point.toNat (· + 1)) s.clk.point.toNat = _
      rw [hclk, htens, sget_smod_same]
  · have hready : s4.ready = false := decide_eq_false fun h => hr ((congrArg Boot.phase hboot).symm.trans h)
    rw [if_pos (by simp [hready])]
    exact ⟨s4, rfl, congrArg some htick, hen0, hen1, hen2, hen3, hen4, fun h => absurd h hr⟩

end Sys2Proof.Machine
end

section
/-! SUPPORT. Thermal samples and quiescing (R35, R315, R357, R359), and O46. -/

namespace Sys2Proof.Machine

/-! Readings (R357). -/

theorem sget_foldl_sset (g : Nat → BitVec 16) (m : Sparse (BitVec 16)) (n : Nat) {i : Nat} (hi : i < n) :
    sget 0 ((upto n).foldl (fun m i => sset 0 m i (g i)) m) i = g i := by
  induction n with
  | zero => omega
  | succ n ih =>
    rw [upto, List.range_succ, List.foldl_append, List.foldl_cons, List.foldl_nil, sget_sset]
    split
    · next h => rw [h]
    · exact ih (by omega)

theorem sameReadings {s t : State} (h : t.pwr.temp = s.pwr.temp) : sensor t = sensor s ∧ hottest t = hottest s := by
  have hs : sensor t = sensor s := by
    funext i
    rw [sensor, sensor, h]
  refine ⟨hs, ?_⟩
  unfold hottest
  rw [hs]

theorem hottest_succ (s : State) (a n : Nat) :
    hottest s a (n + 1) = if sensor s (hottest s a n) < sensor s (a + n) then a + n else hottest s a n := by
  rw [hottest, upto, List.range_succ, List.foldl_append, List.foldl_cons, List.foldl_nil]
  rfl

theorem sensor_le_hottest (s : State) (a : Nat) {n i : Nat} (hi : i < n) : sensor s (a + i) ≤ sensor s (hottest s a n) := by
  induction n with
  | zero => omega
  | succ n ih =>
    rw [hottest_succ]
    rcases Nat.lt_succ_iff_lt_or_eq.1 hi with h | rfl
    · have := ih h
      split <;> omega
    · split <;> omega

theorem hottest_among (s : State) (a n : Nat) : ∃ j ≤ n, hottest s a (n + 1) = a + j := by
  induction n with
  | zero =>
    rw [hottest_succ]
    exact ⟨0, le_rfl, ite_self _⟩
  | succ n ih =>
    obtain ⟨j, hj, h⟩ := ih
    rw [hottest_succ, h]
    split
    · exact ⟨n + 1, le_rfl, rfl⟩
    · exact ⟨j, by omega, rfl⟩

/-! Packets on their way (R224, R375). -/

/-- No packet joins those under way, and only writes to the host those waiting. -/
structure OnlyHostWrites (s t : State) : Prop where
  pkts : t.fab.pkts = s.fab.pkts
  waiting : ∀ l ∈ t.fab.localq, ∀ x ∈ l.2, hKind x.1 = 7 ∨ ∃ m ∈ s.fab.localq, x ∈ m.2

theorem OnlyHostWrites.of_eq {s t : State} (h : t.fab = s.fab) : OnlyHostWrites s t :=
  ⟨by rw [h], fun l hl x hx => .inr ⟨l, h ▸ hl, hx⟩⟩

theorem OnlyHostWrites.trans {s t u : State} (h : OnlyHostWrites s t) (h' : OnlyHostWrites t u) : OnlyHostWrites s u :=
  ⟨h'.pkts.trans h.pkts, fun l hl x hx => (h'.waiting l hl x hx).elim .inl fun ⟨m, hm, hxm⟩ => h.waiting m hm x hxm⟩

theorem hKind_mkHdr (f : HdrF) (hd : f.kind < 16) : hKind (mkHdr f) = f.kind := by
  rw [hKind, fld, mkHdr, BitVec.extractLsb'_toNat, BitVec.toNat_ofNat, Nat.shiftRight_eq_div_pow]
  omega

theorem mem_smod {α : Type} [DecidableEq α] {d : α} {m : Sparse α} {k : Nat} {f : α → α} {c : Nat × α} (h : c ∈ smod d m k f) :
    c = (k, f (sget d m k)) ∨ c ∈ m := by
  have he (h' : c ∈ serase m k) : c ∈ m := List.mem_of_mem_filter h'
  unfold smod sset at h
  split at h
  · exact .inr (he h)
  · exact ((mem_sinsert _ _ _ _).1 h).imp_right he

theorem localSend_onlyHostWrites (s : State) (q f : Nat) {h : Row} (hk : hKind h = 7) (d : List (Row × Bool)) :
    OnlyHostWrites s (localSend s q f h d) := by
  refine ⟨rfl, fun l hl x hx => ?_⟩
  have hl : l ∈ smod [] s.fab.localq (8 * q + f) (· ++ [(h, d)]) := hl
  rcases mem_smod hl with rfl | hl
  · rcases List.mem_append.1 hx with hx | hx
    · rcases sget_eq_default_or_listed [] (8 * q + f) s.fab.localq with h0 | h0
      · rw [h0] at hx
        cases hx
      · exact .inr ⟨_, h0, hx⟩
    · rw [List.mem_singleton.1 hx]
      exact .inl hk
  · exact .inr ⟨l, hl, hx⟩

theorem hostWrite_onlyHostWrites (s : State) (addr n v : Nat) : OnlyHostWrites s (hostWrite s addr n v) :=
  localSend_onlyHostWrites s 0 1 (hKind_mkHdr _ (by norm_num)) []

theorem evtWrite_onlyHostWrites (s : State) (e : Event) : OnlyHostWrites s (evtWrite s e) := by
  unfold evtWrite
  extract_lets r t u
  have ht : OnlyHostWrites s t := hostWrite_onlyHostWrites s _ _ _
  have hu : OnlyHostWrites s u := ht.trans (.of_eq rfl)
  split
  · exact hu.trans (hostWrite_onlyHostWrites u _ _ _)
  · exact hu

theorem postEvent_onlyHostWrites (s : State) (e : Event) : OnlyHostWrites s (postEvent s e) := by
  unfold postEvent
  extract_lets t
  have ht : OnlyHostWrites s t := .of_eq rfl
  split
  · exact ht
  split
  · exact ht.trans (.of_eq rfl)
  · exact ht.trans (evtWrite_onlyHostWrites t e)

/-! Step boundaries. -/

/-- t has s's pitons, queues and services, but for services on that halt, and no more SET_TARGETs under way: all that tells a step boundary. -/
structure SameSteps (s t : State) : Prop where
  cmdq : t.cmdq = s.cmdq
  pitons : t.pitons = s.pitons
  pitq : t.pitq = s.pitq
  off : ∀ l, (t.service l).state = .off ↔ (s.service l).state = .off
  svc : ∀ l, { t.service l with state := .off } = { s.service l with state := .off }
  sends : OnlyHostWrites s t

theorem SameSteps.trans {s t u : State} (h : SameSteps s t) (h' : SameSteps t u) : SameSteps s u :=
  ⟨h'.cmdq.trans h.cmdq, h'.pitons.trans h.pitons, h'.pitq.trans h.pitq, fun l => (h'.off l).trans (h.off l),
    fun l => (h'.svc l).trans (h.svc l), h.sends.trans h'.sends⟩

theorem SameSteps.of_eq {s t : State} (hc : t.cmdq = s.cmdq) (hp : t.pitons = s.pitons) (hpq : t.pitq = s.pitq) (hs : t.svc = s.svc)
    (hf : t.fab = s.fab) : SameSteps s t :=
  ⟨hc, hp, hpq, fun l => by rw [State.service, hs, State.service], fun l => by rw [State.service, hs, State.service], .of_eq hf⟩

theorem SameSteps.restartComing {s t : State} (h : SameSteps s t) {i : Nat} (hr : restartComing t i = true) :
    Machine.restartComing s i = true := by
  unfold Machine.restartComing at hr ⊢
  simp only [State.pitQ, h.pitq, h.sends.pkts, Bool.or_eq_true] at hr ⊢
  refine hr.imp_left (Or.imp_left fun hl => ?_)
  obtain ⟨l, hl, hx⟩ := List.any_eq_true.1 hl
  obtain ⟨x, hx, hk⟩ := List.any_eq_true.1 hx
  rcases h.sends.waiting l hl x hx with h7 | ⟨m, hm, hxm⟩
  · simp [h7] at hk
  · exact List.any_eq_true.2 ⟨m, hm, List.any_eq_true.2 ⟨x, hxm, hk⟩⟩

theorem SameSteps.serviceOf {s t : State} (h : SameSteps s t) (q : Nat) : serviceOf t q = Machine.serviceOf s q := by
  unfold Machine.serviceOf
  have hm (l : Nat) : (t.service l).qmask = (s.service l).qmask := (congrArg Svc.qmask (h.svc l) :)
  simp only [ne_eq, h.off, hm]

theorem SameSteps.stepEnded {s t : State} (h : SameSteps s t) {l q : Nat} (he : stepEnded s (s.service l) q = true) :
    stepEnded t (t.service l) q = true := by
  have ht : (t.service l).table = (s.service l).table := (congrArg Svc.table (h.svc l) :)
  unfold Machine.stepEnded at he ⊢
  rw [ht]
  simp only [List.all_eq_true, Bool.and_eq_true, State.piton, h.pitons] at he ⊢
  intro i hi
  obtain ⟨hd, hr⟩ := he i hi
  refine ⟨hd, ?_⟩
  rw [Bool.not_eq_true'] at hr ⊢
  exact Bool.eq_false_iff.2 fun h' => Bool.eq_false_iff.1 hr (h.restartComing h')

/-- A quarter that stands at a step boundary still does. -/
theorem SameSteps.atBoundary {s t : State} (h : SameSteps s t) {q : Nat} (hb : atBoundary s q = true) : atBoundary t q = true := by
  unfold Machine.atBoundary at hb ⊢
  rw [h.serviceOf q]
  have hg : graphOn t q = graphOn s q := by simp only [graphOn, State.queue, h.cmdq]
  have hge (n : Nat) : graphEnded t n = graphEnded s n := by simp only [graphEnded, State.queue, h.cmdq]
  rw [Bool.and_eq_true] at hb ⊢
  obtain ⟨h1, h2⟩ := hb
  constructor
  · cases hs : Machine.serviceOf s q with
    | none => rfl
    | some l =>
      rw [hs] at h1
      have hst : (t.service l).stepping = (s.service l).stepping := (congrArg Svc.stepping (h.svc l) :)
      simp only [Bool.or_eq_true, hst] at h1 ⊢
      exact h1.imp_right h.stepEnded
  · simpa only [hg, hge] using h2

/-! What a quiescing leaves (R359). -/

/-- t has s's readings, trip pin and quarters, and its steps. -/
structure Undisturbed (s t : State) : Prop extends SameSteps s t where
  temp : t.pwr.temp = s.pwr.temp
  trip : t.pins.thermTrip = s.pins.thermTrip
  quarters : t.quarters = s.quarters

theorem Undisturbed.refl (s : State) : Undisturbed s s := ⟨.of_eq rfl rfl rfl rfl rfl, rfl, rfl, rfl⟩

theorem Undisturbed.trans {s t u : State} (h : Undisturbed s t) (h' : Undisturbed t u) : Undisturbed s u :=
  ⟨h.toSameSteps.trans h'.toSameSteps, h'.temp.trans h.temp, h'.trip.trans h.trip, h'.quarters.trans h.quarters⟩


theorem forEach_modZone_changes (f : ZoneClk → ZoneClk) : ∀ (l : List Nat) (s : State),
    ∃ z, forEach l s (fun s k => s.modZone k f) = { s with zones := z }
  | [], s => ⟨s.zones, rfl⟩
  | k :: l, s => forEach_modZone_changes f l (s.modZone k f)

theorem forEach_modBelay_changes (f : Belay → Belay) : ∀ (l : List Nat) (s : State),
    ∃ b, forEach l s (fun s k => s.modBelay k f) = { s with belays := b }
  | [], s => ⟨s.belays, rfl⟩
  | k :: l, s => forEach_modBelay_changes f l (s.modBelay k f)

theorem stopZones_changes (s : State) (q : Nat) : ∃ z b, stopZones s q = { s with zones := z, belays := b } := by
  obtain ⟨z, hz⟩ := forEach_modZone_changes (fun c => { c with running := false }) (zonesOf q) s
  obtain ⟨b, hb⟩ := forEach_modBelay_changes (fun b => { b with parked := true }) (boundaryBelays q) { s with zones := z }
  refine ⟨z, b, ?_⟩
  rw [stopZones, hz]
  exact hb

theorem event_undisturbed (s : State) (code : Nat) (q : Option Nat) (arg : Nat) (d : BitVec 128) : Undisturbed s (event s code q arg d) := by
  have hs : OnlyHostWrites s (event s code q arg d) := postEvent_onlyHostWrites s _
  obtain ⟨v, f, l, h⟩ := postEvent_changes s ⟨BitVec.ofNat 16 code, q.map (BitVec.ofNat 2), BitVec.ofNat 32 arg, s.clk.count, d⟩
  have h : event s code q arg d = { s with evt := v, fab := f, full := l } := h
  rw [h] at hs ⊢
  exact ⟨⟨rfl, rfl, rfl, fun _ => .rfl, fun _ => rfl, hs⟩, rfl, rfl, rfl⟩

theorem event_pwr (s : State) (code : Nat) (q : Option Nat) (arg : Nat) (d : BitVec 128) : (event s code q arg d).pwr = s.pwr := by
  obtain ⟨v, f, l, h⟩ := postEvent_changes s ⟨BitVec.ofNat 16 code, q.map (BitVec.ofNat 2), BitVec.ofNat 32 arg, s.clk.count, d⟩
  have h : event s code q arg d = { s with evt := v, fab := f, full := l } := h
  rw [h]

theorem service_modSvc (s : State) (l k : Nat) (f : Svc → Svc) : (s.modSvc l f).service k = if k = l then f (s.service l) else s.service k := by
  rw [State.service, State.modSvc]
  split
  · next h => rw [h, sget_smod_same, State.service]
  · next h => rw [sget_smod_other _ _ _ _ _ h, State.service]

theorem modSvc_halted_undisturbed {s : State} {l : Nat} (h : (s.service l).state = .serving) :
    Undisturbed s (s.modSvc l fun v => { v with state := .halted }) := by
  refine ⟨⟨rfl, rfl, rfl, fun k => ?_, fun k => ?_, .of_eq rfl⟩, rfl, rfl, rfl⟩
  · rw [service_modSvc]
    split
    · next hk => simp [hk, h]
    · rfl
  · rw [service_modSvc]
    split
    · next hk => rw [hk]
    · rfl

theorem postSvcState_undisturbed (s : State) (l : Nat) : Undisturbed s (postSvcState s l) :=
  (⟨.of_eq rfl rfl rfl rfl rfl, rfl, rfl, rfl⟩ : Undisturbed s { s with free := s.free + 1 }).trans (event_undisturbed _ _ _ _ _)

/-- What a service that serves leaves where it halts. -/
theorem setSvcState_halted {s : State} {l : Nat} (h : (s.service l).state = .serving) :
    Undisturbed s (setSvcState s l .halted) ∧ (setSvcState s l .halted).pwr = s.pwr := by
  rw [setSvcState, if_neg (by simp [h])]
  exact ⟨(modSvc_halted_undisturbed h).trans (postSvcState_undisturbed _ l), event_pwr _ _ _ _ _⟩

theorem quiesce_again {s : State} {q : Nat} (h : bit s.pwr.quiesced q = true) : quiesce s q = s := if_pos h

/-- A quiescing marks the quarter and leaves the readings, the quarters and the steps. -/
theorem quiesce_first {s : State} {q : Nat} (h : bit s.pwr.quiesced q = false) :
    Undisturbed s (quiesce s q) ∧ (quiesce s q).pwr.quiesced = setBit s.pwr.quiesced q true := by
  rw [quiesce, if_neg (by simp [h])]
  extract_lets s1 s2 s3
  have h2 : Undisturbed s s2 ∧ s2.pwr.quiesced = setBit s.pwr.quiesced q true := by
    obtain ⟨z, b, hz⟩ := stopZones_changes s1 q
    simp only [s2]
    rw [hz]
    exact ⟨⟨.of_eq rfl rfl rfl rfl rfl, rfl, rfl, rfl⟩, rfl⟩
  clear_value s2
  have h3 : Undisturbed s s3 ∧ s3.pwr.quiesced = setBit s.pwr.quiesced q true := by
    simp only [s3]
    split
    · split
      · next l _ hl =>
        obtain ⟨hu, hp⟩ := setSvcState_halted hl
        exact ⟨h2.1.trans hu, by rw [hp]; exact h2.2⟩
      · exact h2
    · exact h2
  have hmark : Undisturbed s3 (setSummary s3 sumThermal) := ⟨.of_eq rfl rfl rfl rfl rfl, rfl, rfl, rfl⟩
  exact ⟨(h3.1.trans hmark).trans (event_undisturbed _ _ _ _ _), by rw [event_pwr]; exact h3.2⟩

/-- t is s but for quarters that quiesced meanwhile. -/
structure Quieter (s t : State) : Prop extends Undisturbed s t where
  quiesced : ∀ i, bit s.pwr.quiesced i = true → bit t.pwr.quiesced i = true

theorem Quieter.trans {s t u : State} (h : Quieter s t) (h' : Quieter t u) : Quieter s u :=
  ⟨h.toUndisturbed.trans h'.toUndisturbed, fun i hi => h'.quiesced i (h.quiesced i hi)⟩

theorem quiesce_quieter (s : State) {q : Nat} (hq : q < 4) : Quieter s (quiesce s q) ∧ bit (quiesce s q).pwr.quiesced q = true := by
  cases h : bit s.pwr.quiesced q with
  | true =>
    rw [quiesce_again h]
    exact ⟨⟨.refl s, fun _ => id⟩, h⟩
  | false =>
    obtain ⟨hu, hp⟩ := quiesce_first h
    rw [hp]
    exact ⟨⟨hu, fun i hi => by rw [hp, bit_setBit_or _ hq, hi, Bool.true_or]⟩, bit_setBit_true _ hq⟩

/-! THERMAL_SAMPLE (R35, R188, R357, R359). -/

/-- The readings stored, and the last warm tick noted. -/
def heatStored (l : List (BitVec 16)) (s : State) : State :=
  let s := s.modPwr fun w => { w with temp := (upto 64).foldl (fun m i => sset 0 m i (l.getD i (sget 0 w.temp i))) w.temp }
  s.modPwr fun w => { w with warmTick := if t97 < hottestAll s then some s.tick else w.warmTick }

/-- Quarter q's reading h noted: hot, cool, or due to quiesce. -/
def heatNoted (s : State) (q : Nat) (h : Int) : State :=
  let s := s.modPwr fun w =>
    { w with hourMax := smod 0 w.hourMax q (fun m => if m.toInt < h then BitVec.ofInt 16 h else m),
             coolSince := smod none w.coolSince q fun c => if h ≤ t95 then (match c with | some t => some t | none => some s.tick) else none,
             quiesceDue := if t105 ≤ h ∧ !bit w.quiesced q ∧ !(s.quarter q).inReset then setBit w.quiesceDue q true else w.quiesceDue }
  let s := s.modPst fun p => { p with hot := p.hot || decide (t95 < h) }
  s.modKs q fun k => { k with hot := decide (1360 < h) }

/-- Quarter q judged on its hottest reading. -/
def heatStep (s : State) (q : Nat) : State := quiesceIfDue (heatNoted s q (sensor s (hottest s (16 * q) 16))) q

theorem exec_thermalSample (l : List (BitVec 16)) (s : State) :
    exec (.thermalSample l) s = .next (forEach (upto 4) (tripCheck (heatStored l s)) heatStep) :=
  rfl

theorem heatNoted_quieter (s : State) (q : Nat) (h : Int) : Quieter s (heatNoted s q h) :=
  ⟨⟨.of_eq rfl rfl rfl rfl rfl, rfl, rfl, rfl⟩, fun _ => id⟩

theorem heatNoted_due (s : State) (q : Nat) (h : Int) : (heatNoted s q h).pwr.quiesceDue =
    if t105 ≤ h ∧ !bit s.pwr.quiesced q ∧ !(s.quarter q).inReset then setBit s.pwr.quiesceDue q true else s.pwr.quiesceDue := rfl

theorem quiesceIfDue_quieter (s : State) {q : Nat} (hq : q < 4) : Quieter s (quiesceIfDue s q) := by
  unfold quiesceIfDue
  split
  · exact (quiesce_quieter s hq).1
  · exact ⟨.refl s, fun _ => id⟩

theorem heatStep_quieter (s : State) {q : Nat} (hq : q < 4) : Quieter s (heatStep s q) :=
  (heatNoted_quieter s q _).trans (quiesceIfDue_quieter _ hq)

theorem heatSteps_quieter {l : List Nat} (hl : ∀ q ∈ l, q < 4) (s : State) : Quieter s (forEach l s heatStep) := by
  induction l generalizing s with
  | nil => exact ⟨.refl s, fun _ => id⟩
  | cons q l ih => exact (heatStep_quieter s (hl q (by simp))).trans (ih (fun r hr => hl r (by simp [hr])) (heatStep s q))

/-- A quarter with a sensor at 105 °C or more, at a step boundary and not in reset, is quiesced. -/
theorem heatStep_hot {s : State} {q : Nat} (hq : q < 4) (hh : 1680 ≤ sensor s (hottest s (16 * q) 16)) (hb : atBoundary s q = true)
    (hr : (s.quarter q).inReset = false) : bit (heatStep s q).pwr.quiesced q = true := by
  generalize hg : sensor s (hottest s (16 * q) 16) = h at hh
  have hn : heatStep s q = quiesceIfDue (heatNoted s q h) q := by rw [heatStep, hg]
  have hquiet := heatNoted_quieter s q h
  rw [hn]
  cases hz : bit s.pwr.quiesced q with
  | true => exact (quiesceIfDue_quieter _ hq).quiesced q (hquiet.quiesced q hz)
  | false =>
    have hdue : bit (heatNoted s q h).pwr.quiesceDue q = true := by
      rw [heatNoted_due, if_pos (by simp [t105, hh, hz, hr]), bit_setBit_true _ hq]
    rw [quiesceIfDue, if_pos]
    · exact (quiesce_quieter _ hq).2
    · have hr' : ((heatNoted s q h).quarter q).inReset = false := hr
      rw [hdue, hquiet.toSameSteps.atBoundary hb, hr']
      rfl

theorem heatSteps_hot {l : List Nat} (hl : ∀ q ∈ l, q < 4) {s : State} {q : Nat} (hq : q ∈ l)
    (hh : 1680 ≤ sensor s (hottest s (16 * q) 16)) (hb : atBoundary s q = true) (hr : (s.quarter q).inReset = false) :
    bit (forEach l s heatStep).pwr.quiesced q = true := by
  induction l generalizing s with
  | nil => cases hq
  | cons r l ih =>
    have hl' : ∀ q ∈ l, q < 4 := fun q hq => hl q (List.mem_cons_of_mem _ hq)
    rcases List.mem_cons.1 hq with rfl | hq
    · exact (heatSteps_quieter hl' _).quiesced q (heatStep_hot (hl q (List.mem_cons_self ..)) hh hb hr)
    · have hquiet := heatStep_quieter s (hl r (List.mem_cons_self ..))
      obtain ⟨hsensor, hhottest⟩ := sameReadings hquiet.temp
      refine ih hl' hq ?_ (hquiet.toSameSteps.atBoundary hb) ?_
      · rwa [hsensor, hhottest]
      · rw [State.quarter, hquiet.quarters]
        exact hr

/-- Where every sensor is below 105 °C and no quarter is due, a quarter's judging quiesces nothing. -/
theorem heatStep_cold {s : State} {q : Nat} (hq : q < 4) (hh : ∀ i < 64, sensor s i < 1680) (hd : s.pwr.quiesceDue = 0) :
    heatStep s q = heatNoted s q (sensor s (hottest s (16 * q) 16)) ∧ (heatStep s q).pwr.quiesceDue = 0 := by
  obtain ⟨j, hj, hi⟩ := hottest_among s (16 * q) 15
  have hcold : sensor s (hottest s (16 * q) 16) < 1680 := by
    rw [hi]
    exact hh _ (by omega)
  have hdue : (heatNoted s q (sensor s (hottest s (16 * q) 16))).pwr.quiesceDue = 0 := by
    rw [heatNoted_due, if_neg fun h => absurd h.1 (Int.not_le.2 hcold), hd]
  have h : heatStep s q = heatNoted s q (sensor s (hottest s (16 * q) 16)) := by
    rw [heatStep, quiesceIfDue, if_neg]
    rw [hdue]
    simp [bit]
  exact ⟨h, by rw [h, hdue]⟩

theorem heatSteps_cold {l : List Nat} (hl : ∀ q ∈ l, q < 4) {s : State} (hh : ∀ i < 64, sensor s i < 1680) (hd : s.pwr.quiesceDue = 0) :
    (forEach l s heatStep).pwr.quiesced = s.pwr.quiesced ∧ (forEach l s heatStep).quarters = s.quarters ∧
      (forEach l s heatStep).zones = s.zones := by
  induction l generalizing s with
  | nil => exact ⟨rfl, rfl, rfl⟩
  | cons q l ih =>
    obtain ⟨h, hd'⟩ := heatStep_cold (hl q (by simp)) hh hd
    have hh' : ∀ i < 64, sensor (heatStep s q) i < 1680 := by
      rw [h]
      exact hh
    obtain ⟨h1, h2, h3⟩ := ih (fun r hr => hl r (by simp [hr])) hh' hd'
    have hs : (heatStep s q).pwr.quiesced = s.pwr.quiesced ∧ (heatStep s q).quarters = s.quarters ∧ (heatStep s q).zones = s.zones := by
      rw [h]
      exact ⟨rfl, rfl, rfl⟩
    exact ⟨h1.trans hs.1, h2.trans hs.2.1, h3.trans hs.2.2⟩

theorem heatStored_temp {l : List (BitVec 16)} (hl : l.length = 64) (s : State) {i : Nat} (hi : i < 64) :
    sget 0 (heatStored l s).pwr.temp i = l.getD i 0 := by
  have h : sget 0 (heatStored l s).pwr.temp i = l.getD i (sget 0 s.pwr.temp i) :=
    sget_foldl_sset (fun i => l.getD i (sget 0 s.pwr.temp i)) s.pwr.temp 64 hi
  rw [h, List.getD_eq_getElem _ _ (by omega), List.getD_eq_getElem _ _ (by omega)]

theorem heatStored_sensor {l : List (BitVec 16)} (hl : l.length = 64) (s : State) {i : Nat} (hi : i < 64) :
    sensor (heatStored l s) i = (l.getD i 0).toInt := by
  rw [sensor, heatStored_temp hl s hi]

/-- The trip check changes the trip pin at most. -/
theorem tripCheck_changes (s : State) : ∃ p, tripCheck s = { s with pins := p } := by
  unfold tripCheck
  split
  · exact ⟨_, rfl⟩
  · exact ⟨s.pins, rfl⟩

theorem upto4_lt : ∀ q ∈ upto 4, q < 4 := fun _ => List.mem_range.1

/-- Clause of THERMAL_SAMPLE. -/
theorem thermalSample_judges (s : State) (l : List (BitVec 16)) (hl : l.length = 64) :
    ∃ t, exec (.thermalSample l) s = .next t ∧ (∀ i, i < 64 → sget 0 t.pwr.temp i = l.getD i 0) ∧
      (∀ q, q < 4 → (∃ i, i < 16 ∧ 1680 ≤ (l.getD (16 * q + i) 0).toInt) → atBoundary s q = true → (s.quarter q).inReset = false →
        bit t.pwr.quiesced q = true) ∧
      ((∃ i, i < 64 ∧ 1840 ≤ (l.getD i 0).toInt) → t.pins.thermTrip = true) ∧
      ((∀ i, i < 64 → (l.getD i 0).toInt < 1680) → s.pwr.quiesceDue = 0 →
        t.pwr.quiesced = s.pwr.quiesced ∧ t.quarters = s.quarters ∧ t.zones = s.zones) := by
  refine ⟨_, exec_thermalSample l s, ?_⟩
  have htemp := fun i => heatStored_temp hl s (i := i)
  have hsensor := fun i => heatStored_sensor hl s (i := i)
  have hstored : SameSteps s (heatStored l s) ∧ (heatStored l s).quarters = s.quarters ∧ (heatStored l s).zones = s.zones ∧
      (heatStored l s).pwr.quiesced = s.pwr.quiesced ∧ (heatStored l s).pwr.quiesceDue = s.pwr.quiesceDue :=
    ⟨.of_eq rfl rfl rfl rfl rfl, rfl, rfl, rfl, rfl⟩
  generalize heatStored l s = u at htemp hsensor hstored ⊢
  obtain ⟨hsteps, hquarters, hzones, hquiesced, hdue⟩ := hstored
  have htrip : (∃ i, i < 64 ∧ 1840 ≤ (l.getD i 0).toInt) → (tripCheck u).pins.thermTrip = true := by
    rintro ⟨i, hi, h⟩
    rw [tripCheck_hot hi ((hsensor i hi).symm ▸ h)]
    rfl
  obtain ⟨p, hp⟩ := tripCheck_changes u
  rw [hp] at htrip ⊢
  have hquiet := heatSteps_quieter upto4_lt { u with pins := p }
  refine ⟨fun i hi => ?_, fun q hq hhot hb hr => ?_, fun h => ?_, fun hcold hd => ?_⟩
  · rw [hquiet.temp]
    exact htemp i hi
  · obtain ⟨i, hi, h⟩ := hhot
    refine heatSteps_hot upto4_lt (List.mem_range.2 hq) ?_ ?_ ?_
    · have hle : sensor u (16 * q + i) ≤ sensor u (hottest u (16 * q) 16) := sensor_le_hottest u (16 * q) hi
      rw [hsensor _ (by omega)] at hle
      exact h.trans hle
    · exact (hsteps.trans (.of_eq rfl rfl rfl rfl rfl)).atBoundary hb
    · show (sget .init u.quarters q).inReset = false
      rw [hquarters]
      exact hr
  · rw [hquiet.trip]
    exact htrip h
  · obtain ⟨h1, h2, h3⟩ := heatSteps_cold upto4_lt (s := { u with pins := p }) (fun i hi => (hsensor i hi).symm ▸ hcold i hi) (hdue.trans hd)
    exact ⟨h1.trans hquiesced, h2.trans hquarters, h3.trans hzones⟩

/-! THERMAL_RESUME (R315, R359). -/

theorem align_requestAlign (s : State) (q : Nat) (fw : Bool) :
    (requestAlign s q fw).align q = { AlignRec.init with phase := 1, firmware := fw } := by
  simp only [State.align, requestAlign, State.modStr, sget_sset_same]

/-- Clause of THERMAL_RESUME. -/
theorem thermalResume_aligns (s : State) (q : Fin 4) :
    let ok := bit s.pwr.quiesced q = true ∧ cooled s q = true ∧ (s.quarter q).inReset = false ∧ (s.align q).phase = 0
    (ok → ∃ t, exec (.thermalResume q) s = .next t ∧ (t.align q).phase = 1 ∧ (t.align q).firmware = false ∧ t.pwr = s.pwr) ∧
    (¬ok → exec (.thermalResume q) s = .next s) := by
  intro ok
  have hok : (bit s.pwr.quiesced q && cooled s q && !(s.quarter q).inReset && (sget AlignRec.init s.str.al q).phase == 0) = true ↔ ok := by
    simp only [ok, Bool.and_eq_true, Bool.not_eq_true', beq_iff_eq, and_assoc, State.align]
  refine ⟨fun h => ⟨requestAlign s q false, congrArg Host.Outcome.next (if_pos (hok.2 h)), ?_⟩, fun h =>
    congrArg Host.Outcome.next (if_neg (mt hok.1 h))⟩
  obtain ⟨z, b, hz⟩ := stopZones_changes s q
  rw [align_requestAlign]
  refine ⟨rfl, rfl, ?_⟩
  rw [requestAlign, State.modStr_pwr, hz]

/-- Settles O46: the governor's clauses by what a sample credits and its loop leaves, the heat's by what a quiescing leaves. -/
theorem governorSupplyAndHeat : Obligations.GovernorSupplyAndHeat :=
  ⟨fun s e h => congrArg Host.Outcome.next (if_pos (by simpa using h)), governorSample_measures, vinWarning_descends, vinWarningEnd_restores,
    calibrationUpdate_moves, thermalSample_judges, thermalResume_aligns⟩

end Sys2Proof.Machine
end

section
/-! SUPPORT. What a compute unit's bookkeeping changes - counters, flags, pocket accesses, fault reports - and the turn of a micro-operation (R10, R78, R87, R88, R109). -/

namespace Sys2Proof.Machine

/-! Steps that touch one unit. -/

theorem summary_or_zero (p : ZonePage) : p = { p with summary := p.summary ||| 0 } := by simp

theorem onlyUnit_of_units {s t : State} {u : Nat} (h : t = { s with units := t.units }) (hv : ∀ v, v ≠ u → t.unit v = s.unit v) :
    OnlyUnit s t u := by
  rw [h] at hv ⊢
  exact ⟨rfl, hv, fun _ _ => rfl, ⟨0, summary_or_zero _⟩, fun _ _ _ => rfl, fun _ _ => rfl, le_rfl, rfl⟩

theorem onlyUnit_refl (s : State) (u : Nat) : OnlyUnit s s u := onlyUnit_of_units rfl fun _ _ => rfl

theorem onlyUnit_modUnit (s : State) (u : Nat) (f : UnitSt → UnitSt) : OnlyUnit s (s.modUnit u f) u :=
  onlyUnit_of_units rfl fun _ => unit_modUnit_other s f

theorem onlyUnit_trans {s t r : State} {u : Nat} (h : OnlyUnit s t u) (h' : OnlyUnit t r u) : OnlyUnit s r u := by
  obtain ⟨hrec, hunit, hpage, ⟨m, hown⟩, hraised, hfull, hfree, hdet⟩ := h
  obtain ⟨hrec', hunit', hpage', ⟨m', hown'⟩, hraised', hfull', hfree', hdet'⟩ := h'
  refine ⟨hrec'.trans (by rw [hrec]), fun v hv => (hunit' v hv).trans (hunit v hv), fun z hz => (hpage' z hz).trans (hpage z hz),
    ⟨m ||| m', ?_⟩, fun off h1 h2 => (hraised' off h1 h2).trans (hraised off h1 h2), fun k hk => (hfull' k hk).trans (hfull k hk),
    hfree.trans hfree', hdet'.trans hdet⟩
  rw [hown', hown, BitVec.or_assoc]

theorem onlyUnit_forEach {α : Type} {u : Nat} {f : State → α → State} (h : ∀ s a, OnlyUnit s (f s a) u) :
    ∀ (l : List α) (s : State), OnlyUnit s (forEach l s f) u
  | [], s => onlyUnit_refl s u
  | a :: l, s => onlyUnit_trans (h s a) (onlyUnit_forEach h l (f s a))

theorem zpage_modZpage_same (s : State) (z : Nat) (f : ZonePage → ZonePage) : (s.modZpage z f).zpage z = f (s.zpage z) :=
  sget_smod_same _ _ _ _
theorem zpage_modZpage_other (s : State) {z i : Nat} (f : ZonePage → ZonePage) (h : i ≠ z) : (s.modZpage z f).zpage i = s.zpage i :=
  sget_smod_other _ _ _ _ _ h
theorem raisedAt_raise_other (s : State) {k off : Nat} (m : Word) (h : off ≠ k) : (s.raise k m).raisedAt off = s.raisedAt off :=
  sget_smod_other (0 : Word) s.raised k (· ||| m) off h
theorem full_spill_other {w : Nat} (s : State) {key k : Nat} (v : BitVec w) (n : Nat) (h : k ≠ key) :
    sget 0 (s.spill key v n).full k = sget 0 s.full k :=
  sget_smod_other 0 s.full key (· + (v.toNat + n - (2 ^ w - 1))) k h

/-- Summary bits of its own zone, raised with the flags of unit u (R78). -/
theorem onlyUnit_raiseSummary (s : State) (u : Nat) (f : BitVec 5) (m : Word) :
    OnlyUnit s (((s.modZpage (physZone u) fun p => { p with summary := p.summary ||| f }).raise (flagsKey u) m).raise
      (0x100808 + 0x4000 * physZone u) m) u :=
  ⟨rfl, fun _ _ => rfl, fun _ hz => zpage_modZpage_other s _ hz, ⟨f, zpage_modZpage_same s _ _⟩,
    fun _ h1 h2 => (raisedAt_raise_other _ m h2).trans (raisedAt_raise_other _ m h1), fun _ _ => rfl, le_rfl, rfl⟩

theorem onlyUnit_setFlags (s : State) (u : Nat) (f : BitVec 5) : OnlyUnit s (setFlags s u f) u := by
  unfold setFlags
  split
  · exact onlyUnit_refl s u
  · exact onlyUnit_trans (onlyUnit_modUnit s u _) (onlyUnit_raiseSummary _ u f _)

theorem onlyUnit_spill {w : Nat} (s : State) (u i : Nat) (v : BitVec w) (n : Nat) : OnlyUnit s (s.spill (itemKey u i) v n) u :=
  ⟨rfl, fun _ _ => rfl, fun _ _ => rfl, ⟨0, summary_or_zero _⟩, fun _ _ _ => rfl, fun _ hk => full_spill_other s v n (hk i), le_rfl, rfl⟩

theorem onlyUnit_addItem (s : State) (u i n : Nat) : OnlyUnit s (addItem s u i n) u := by
  unfold addItem
  split
  · exact onlyUnit_refl s u
  · exact onlyUnit_trans (onlyUnit_spill s u i _ n) (onlyUnit_modUnit _ u _)

/-- A detection of unit u leaves those of other units as they were. -/
theorem detected_filter (l : List Detected) (u t : Nat) (d : Detected) (hd : d.unit = u) (g : Detected → Detected)
    (hg : ∀ x, (g x).unit = x.unit) :
    (if l.any fun x => x.unit == u && x.cyc == t then l.map fun x => if x.unit == u && x.cyc == t then g x else x
      else l ++ [d]).filter (fun x => x.unit ≠ u) = l.filter fun x => x.unit ≠ u := by
  split
  · rw [List.filter_map]
    have hp : ((fun x : Detected => decide (x.unit ≠ u)) ∘ fun x => if x.unit == u && x.cyc == t then g x else x) =
        fun x => decide (x.unit ≠ u) := by
      funext x
      show decide ((ite _ _ _ : Detected).unit ≠ u) = _
      split
      · rw [hg]
      · rfl
    rw [hp, List.map_congr_left (g := id), List.map_id]
    intro x hx
    have hx := of_decide_eq_true (List.mem_filter.1 hx).2
    exact if_neg (by simp [hx])
  · simp [List.filter_append, hd]

theorem onlyUnit_unitFault (s : State) (u : Nat) (c : BitVec 8) (d : BitVec 64) : OnlyUnit s (unitFault s u c d) u := by
  have hdet : OnlyUnit s (detect s u c d) u :=
    ⟨rfl, fun _ _ => rfl, fun _ _ => rfl, ⟨0, summary_or_zero _⟩, fun _ _ _ => rfl, fun _ _ => rfl, le_rfl,
      detected_filter s.flt.detected u (s.zone (physZone u)).sched ⟨u, _, c, d, _, _⟩ rfl
        (fun x => { x with causes := x.causes ||| c, detail := if x.detail = 0 then d else x.detail }) fun _ => rfl⟩
  unfold unitFault
  dsimp only
  split
  · exact onlyUnit_trans hdet (onlyUnit_modUnit _ u _)
  · exact hdet

/-! Bookkeeping. -/

/-- What of a unit its bookkeeping leaves as it was: all but its counters, whether it is stopped or has drained, its accounted pocket accesses, arithmetic items and flags. -/
def UnitSt.work (x : UnitSt) : UnitSt :=
  { x with ctr := [], stopped := false, settled := none, cu := { x.cu with banks := [], waiting := [], items := [], flags := 0 } }

/-- From s to t unit u has kept its books and done nothing else. -/
structure Booked (s t : State) (u : Nat) : Prop where
  only : OnlyUnit s t u
  work : (t.unit u).work = (s.unit u).work

theorem Booked.refl (s : State) (u : Nat) : Booked s s u := ⟨onlyUnit_refl s u, rfl⟩
theorem Booked.trans {s t r : State} {u : Nat} (h : Booked s t u) (h' : Booked t r u) : Booked s r u :=
  ⟨onlyUnit_trans h.only h'.only, h'.work.trans h.work⟩
theorem booked_forEach {α : Type} {u : Nat} {f : State → α → State} (h : ∀ s a, Booked s (f s a) u) (l : List α) (s : State) :
    Booked s (forEach l s f) u :=
  ⟨onlyUnit_forEach (fun s a => (h s a).only) l s, forEach_keeps (fun s : State => (s.unit u).work) f (fun s a => (h s a).work) l s⟩

/-- The compute part of a unit that has kept its books. -/
theorem Booked.cu {s t : State} {u : Nat} (h : Booked s t u) :
    ∃ b w i g, (t.unit u).cu = { (s.unit u).cu with banks := b, waiting := w, items := i, flags := g } :=
  ⟨_, _, _, _, congrArg (fun x : UnitSt => { x.cu with banks := (t.unit u).cu.banks, waiting := (t.unit u).cu.waiting,
                                                       items := (t.unit u).cu.items, flags := (t.unit u).cu.flags }) h.work⟩

theorem setFlags_booked (s : State) (u : Nat) (f : BitVec 5) : Booked s (setFlags s u f) u := by
  obtain ⟨g, h⟩ := setFlags_unit s u f
  exact ⟨onlyUnit_setFlags s u f, by rw [h, if_pos rfl]; rfl⟩

theorem addItem_booked (s : State) (u i n : Nat) : Booked s (addItem s u i n) u := by
  obtain ⟨g, h⟩ := addItem_unit s u i n
  exact ⟨onlyUnit_addItem s u i n, by rw [h, if_pos rfl]; rfl⟩

theorem countFp_booked (s : State) (u a b : Nat) : Booked s (countFp s u a b) u :=
  ((addItem_booked s u itNan a).trans (addItem_booked _ u itSat b)).trans (setFlags_booked _ u _)

theorem bump_booked (s : State) (u i : Nat) : Booked s (bump s u i) u := ⟨onlyUnit_modUnit s u _, by rw [bump, unit_modUnit_same]; rfl⟩

theorem bumpBy_booked (s : State) (u i n : Nat) : Booked s (bumpBy s u i n) u := by
  unfold bumpBy
  split
  · exact .refl s u
  · exact ⟨onlyUnit_modUnit s u _, by rw [unit_modUnit_same]; rfl⟩

/-- Of the compute part only what bookkeeping changes has changed. -/
theorem booked_modCu (s : State) (u : Nat) (f : Cu → Cu)
    (h : ∀ c, { f c with banks := [], waiting := [], items := [], flags := 0 } = { c with banks := [], waiting := [], items := [], flags := 0 }) :
    Booked s (s.modCu u f) u := by
  refine ⟨onlyUnit_modUnit s u _, ?_⟩
  rw [unit_modCu_same, UnitSt.work, h]
  rfl

theorem closeBanks_booked (s : State) (u : Nat) (o : List Nat) : Booked s (closeBanks s u o) u := by
  unfold closeBanks
  extract_lets c past d wait s1
  have h1 : Booked s s1 u := booked_modCu s u _ fun _ => rfl
  exact h1.trans (booked_forEach (fun s _ => bump_booked s u itBank) d s1)

theorem useBanksAt_booked (s : State) (u t rank : Nat) (bs : List Nat) : Booked s (useBanksAt s u t rank bs) u := by
  unfold useBanksAt
  split
  · exact .refl s u
  · exact (closeBanks_booked s u _).trans (booked_modCu _ u _ fun _ => rfl)

theorem useBanks_booked (s : State) (u rank : Nat) (bs : List Nat) : Booked s (useBanks s u rank bs) u := useBanksAt_booked s u _ rank bs

theorem unitFault_booked (s : State) (u : Nat) (c : BitVec 8) (d : BitVec 64) : Booked s (unitFault s u c d) u := by
  obtain ⟨x, h⟩ := unitFault_unit s u c d
  exact ⟨onlyUnit_unitFault s u c d, by rw [h, if_pos rfl]; rfl⟩

theorem pocketEcc_booked (s : State) (u : Nat) (e : Ecc) (rows : List Nat) : Booked s (pocketEcc s u e rows) u := by
  unfold pocketEcc
  have hb := bumpBy_booked s u itCorr (min e.corrected (4 * rows.length))
  dsimp only
  split
  · split
    · exact hb.trans (unitFault_booked _ u _ _)
    · exact hb
  · exact hb

theorem settle_booked (s : State) (u : Nat) : Booked s (settle s u) u := by
  unfold settle
  split
  · exact ⟨onlyUnit_modUnit s u _, by rw [unit_modUnit_same]; rfl⟩
  · exact .refl s u

/-! The turn of a micro-operation (R109). -/

theorem retire_cu (s : State) (u st t : Nat) :
    ((retire s u st t).unit u).cu =
      { (s.unit u).cu with due := (s.unit u).cu.due.erase ⟨st, t⟩
                           pcs := sset 0 (s.unit u).cu.pcs st ((sget 0 (s.unit u).cu.pcs st + 1) % 64) } := by
  rw [retire, settle_cu, unit_modCu_same]

/-- A micro-operation that retires from a state whose unit has the counters and the list of s has had its turn. -/
theorem stageDone_retire {s t : State} {u : Nat} (st k : Nat) (hp : (t.unit u).cu.pcs = (s.unit u).cu.pcs)
    (hd : (t.unit u).cu.due = (s.unit u).cu.due) : StageDone s (retire t u st k) u st k := by
  rw [StageDone, retire_cu, hp, hd]
  exact ⟨sget_sset_same _ _ _ _, rfl⟩

/-! Steps of the compute part. -/

/-- From s to t nothing differs but what a micro-operation of unit u may change: the frame of O20. -/
def ComputeOnly (s t : State) (u : Nat) : Prop :=
  OnlyUnit s t u ∧ (t.unit u).cfg = (s.unit u).cfg ∧ (t.unit u).firings = (s.unit u).firings ∧
    (t.unit u).firing = (s.unit u).firing ∧ (t.unit u).gen = (s.unit u).gen ∧ (t.unit u).mu = (s.unit u).mu

theorem ComputeOnly.refl (s : State) (u : Nat) : ComputeOnly s s u := ⟨onlyUnit_refl s u, rfl, rfl, rfl, rfl, rfl⟩

theorem ComputeOnly.trans {s t r : State} {u : Nat} (h : ComputeOnly s t u) (h' : ComputeOnly t r u) : ComputeOnly s r u := by
  obtain ⟨ho, hc, hn, hf, hg, hm⟩ := h
  obtain ⟨ho', hc', hn', hf', hg', hm'⟩ := h'
  exact ⟨onlyUnit_trans ho ho', hc'.trans hc, hn'.trans hn, hf'.trans hf, hg'.trans hg, hm'.trans hm⟩

theorem Booked.computeOnly {s t : State} {u : Nat} (h : Booked s t u) : ComputeOnly s t u :=
  ⟨h.only, (congrArg UnitSt.cfg h.work :), (congrArg UnitSt.firings h.work :), (congrArg UnitSt.firing h.work :),
    (congrArg UnitSt.gen h.work :), (congrArg UnitSt.mu h.work :)⟩

theorem computeOnly_modCu (s : State) (u : Nat) (f : Cu → Cu) : ComputeOnly s (s.modCu u f) u := by
  refine ⟨onlyUnit_modUnit s u _, ?_⟩
  rw [unit_modCu_same]
  exact ⟨rfl, rfl, rfl, rfl, rfl⟩

theorem computeOnly_retire (s : State) (u st t : Nat) : ComputeOnly s (retire s u st t) u :=
  (computeOnly_modCu s u _).trans (settle_booked _ u).computeOnly

end Sys2Proof.Machine
end

section
/-! SUPPORT. Stage 3: its rows with valid and with invalid operands (R84, R98 to R100, Table 3-6), and O14. -/

namespace Sys2Proof.Machine

/-- The state after a stage 3 operation w has read its operands (R86 to R88). -/
def stage3Read (s : State) (u : Nat) (ecc : Ecc) (w : Word) : State :=
  pocketEcc (useBanks s u 2 ((stage3Rows w).map (· % 16))) u ecc (stage3Rows w)
/-- The operands SB and old SD of a stage 3 operation, where its row reads them. -/
def stage3B (c : Cu) (op : Nat) (w : Word) (k : Nat) : Option Vec := if uopUsesB op then (selRead c (uSB w) (uImm w) k).2 else some 0
def stage3D (c : Cu) (op : Nat) (w : Word) (k : Nat) : Option Vec := if op = 7 then (selRead c (uSD w) (uImm w) k).2 else some 0

theorem uopUsesB_iff {op : Nat} (hop : op ≠ 0) : uopUsesB op = true ↔ op < 8 := by
  simp only [uopUsesB, Bool.and_eq_true, decide_eq_true_eq]
  omega

/-- Reading the operands changes a unit's counters, whether it is stopped, and its pocket accesses only. -/
theorem stage3Read_unit (s : State) (u : Nat) (ecc : Ecc) (w : Word) :
    ∃ c x b l, (stage3Read s u ecc w).unit u =
      { s.unit u with ctr := c, stopped := x, cu := { (s.unit u).cu with banks := b, waiting := l } } := by
  obtain ⟨b, l, c, hb⟩ := useBanks_unit s u 2 ((stage3Rows w).map (· % 16))
  obtain ⟨c', x, he⟩ := pocketEcc_unit (useBanks s u 2 ((stage3Rows w).map (· % 16))) u ecc (stage3Rows w)
  exact ⟨c', x, b, l, by rw [stage3Read, he, hb, if_pos rfl, if_pos rfl]⟩

theorem stage3Read_booked (s : State) (u : Nat) (ecc : Ecc) (w : Word) : Booked s (stage3Read s u ecc w) u :=
  (useBanks_booked s u 2 _).trans (pocketEcc_booked _ u ecc _)

section
variable {s : State} {u op k : Nat} {w : Word} (ecc : Ecc) (f : Word → Nat → Vec → Vec → Vec → Fp)
  (h : dueOp s u 3 op = some (w, k)) (hr : stage3Ready (s.unit u).cu w k = true)
include h hr

/-- With valid operands, a stage 3 row writes its lanes and counts their events. -/
theorem stage3_valid {a b d : Vec} (ha : (selRead (s.unit u).cu (uSA w) (uImm w) k).2 = some a)
    (hb : stage3B (s.unit u).cu op w k = some b) (hd : stage3D (s.unit u).cu op w k = some d) :
    ∃ m n, stage3 s u op ecc f =
      retire (selWrite (countFp (stage3Read s u ecc w) u m n) u w k (some (mkVec fun i => (f w i a b d).v))) u 3 k := by
  unfold stage3B at hb
  unfold stage3D at hd
  simp only [stage3, h, hr, ha, hb, hd, Bool.not_true, Bool.false_eq_true, if_false]
  have hv : (mkVec fun i => (nth ⟨0, 0, 0⟩ ((upto 32).map fun i => f w i a b d) i).v) = mkVec fun i => (f w i a b d).v :=
    mkVec_congr fun i hi => by rw [nth_map_upto _ _ _ _ hi]
  rw [hv]
  exact ⟨_, _, rfl⟩

/-- With an operand that is not valid, the result is not valid and nothing is counted (R84). -/
theorem stage3_invalid (hn : (selRead (s.unit u).cu (uSA w) (uImm w) k).2 = none ∨ stage3B (s.unit u).cu op w k = none ∨
      stage3D (s.unit u).cu op w k = none) :
    stage3 s u op ecc f = retire (selWrite (stage3Read s u ecc w) u w k none) u 3 k := by
  unfold stage3B stage3D at hn
  simp only [stage3, h, hr, Bool.not_true, Bool.false_eq_true, if_false]
  split
  · next ha hb hd => exact absurd hn (by rw [ha, hb, hd]; simp)
  · rfl

end

/-- A stage 3 operation with valid operands and the destination PK (R86, R98). -/
theorem stage3_toPocket {s : State} {u op k : Nat} {w : Word} {a b d : Vec} (ecc : Ecc) (f : Word → Nat → Vec → Vec → Vec → Fp)
    (h : dueOp s u 3 op = some (w, k)) (hr : stage3Ready (s.unit u).cu w k = true)
    (ha : (selRead (s.unit u).cu (uSA w) (uImm w) k).2 = some a)
    (hb : stage3B (s.unit u).cu op w k = some b) (hd : stage3D (s.unit u).cu op w k = some d) (hs : uSD w = 21) :
    StageDone s (stage3 s u op ecc f) u 3 k ∧
      ((stage3 s u op ecc f).unit u).cu.pk =
        (s.unit u).cu.pk ++ [(k + uopLatency 3 op, 32 * uImm w, mkVec fun i => (f w i a b d).v)] ∧
      ((stage3 s u op ecc f).unit u).cu.pocket = (s.unit u).cu.pocket ∧
      ((stage3 s u op ecc f).unit u).cu.regs = (s.unit u).cu.regs := by
  obtain ⟨m, n, e⟩ := stage3_valid ecc f h hr ha hb hd
  obtain ⟨bk, l, i, g, hcu⟩ := ((stage3Read_booked s u ecc w).trans (countFp_booked _ u m n)).cu
  generalize countFp (stage3Read s u ecc w) u m n = s1 at e hcu
  have hw (v : Vec) : selWrite s1 u w k (some v) =
      s1.modCu u fun c => { c with pk := c.pk ++ [(k + uopLatency 3 op, 32 * uImm w, v)] } := by
    rw [selWrite, if_pos hs, dueOp_op h]
  rw [e, hw]
  refine ⟨stageDone_retire 3 k ?_ ?_, ?_⟩
  · rw [unit_modCu_same, hcu]
  · rw [unit_modCu_same, hcu]
  · rw [retire_cu, unit_modCu_same, hcu]
    exact ⟨rfl, rfl, rfl⟩

theorem stage3Row_of_exec {c : Fin 9792 → Ecc → Instr} {op lat : Nat} {f : Word → Nat → Vec → Vec → Vec → Fp}
    (hc : ∀ u e s, exec (c u e) s = .next (stage3 s u op e f)) (hop : op ≠ 0) (hl : uopLatency 3 op = lat)
    (hb : 8 ≤ op → ∀ w i a b b' d, f w i a b d = f w i a b' d) (hd : op ≠ 7 → ∀ w i a b d d', f w i a b d = f w i a b d') :
    Stage3Row c op lat fun w i a b d => (f w i a b d).v := by
  intro s u e w k a b d h hr ha hB hD
  refine ⟨_, hc u e s, ?_⟩
  by_cases hs : uSD w = 21
  · have hB' : ∃ b', stage3B (s.unit u).cu op w k = some b' ∧ ∀ i d, f w i a b' d = f w i a b d := by
      by_cases h8 : op < 8
      · exact ⟨b, by rw [stage3B, if_pos ((uopUsesB_iff hop).2 h8), hB.resolve_right (Nat.not_le.2 h8)], fun _ _ => rfl⟩
      · exact ⟨0, by rw [stage3B, if_neg (mt (uopUsesB_iff hop).1 h8)], fun i d => hb (Nat.not_lt.1 h8) w i a 0 b d⟩
    have hD' : ∃ d', stage3D (s.unit u).cu op w k = some d' ∧ ∀ i b, f w i a b d' = f w i a b d := by
      by_cases h7 : op = 7
      · exact ⟨d, by rw [stage3D, if_pos h7, hD.resolve_right (not_not.2 h7)], fun _ _ => rfl⟩
      · exact ⟨0, by rw [stage3D, if_neg h7], fun i b => hd h7 w i a b 0 d⟩
    obtain ⟨b', hb', hbf⟩ := hB'
    obtain ⟨d', hd', hdf⟩ := hD'
    obtain ⟨hdone, hpk, hpocket, -⟩ := stage3_toPocket e f h hr ha hb' hd' hs
    rw [hl] at hpk
    refine ⟨hdone, fun hn => absurd hs hn, fun _ => ⟨?_, hpocket⟩⟩
    simpa only [hbf, hdf] using hpk
  · obtain ⟨hreg, hdue, hpc⟩ := stage3_completes op lat hop f hl hb hd s u e w k a b d h hr hs ha hB hD
    exact ⟨⟨hpc, hdue⟩, fun _ => hreg, fun he => absurd he hs⟩

/-- A row of two operands, lane by lane. -/
theorem stage3Row_binary {c : Fin 9792 → Ecc → Instr} {op lat : Nat} (g : Word → Word → Fp)
    (hc : ∀ u e s, exec (c u e) s = .next (stage3 s u op e fun _ i a b _ => g (lane a i) (lane b i))) (hop : op ≠ 0 ∧ op < 8)
    (hl : uopLatency 3 op = lat) : Stage3Row c op lat fun _ i a b _ => (g (lane a i) (lane b i)).v :=
  stage3Row_of_exec hc hop.1 hl (fun h => absurd h (Nat.not_le.2 hop.2)) fun _ _ _ _ _ _ _ => rfl

/-- A row of one operand. -/
theorem stage3Row_unary {c : Fin 9792 → Ecc → Instr} {op lat : Nat} (g : Word → Nat → Vec → Fp)
    (hc : ∀ u e s, exec (c u e) s = .next (stage3 s u op e fun w i a _ _ => g w i a)) (hop : op ≠ 0)
    (hl : uopLatency 3 op = lat) : Stage3Row c op lat fun w i a _ _ => (g w i a).v :=
  stage3Row_of_exec hc hop hl (fun _ _ _ _ _ _ _ => rfl) fun _ _ _ _ _ _ _ => rfl

/-- A lane of SEL: SA where the old SD is not 0, else SB (Table 3-6). -/
def selLane (a b d : Word) : Fp :=
  ⟨if fld (fpIn d).v 0 31 ≠ 0 then (fpIn a).v else (fpIn b).v, (fpIn d).nan + (fpIn a).nan + (fpIn b).nan,
    (fpIn d).sat + (fpIn a).sat + (fpIn b).sat⟩

/-- Settles O14: each row is `stage3` with its own lane function. -/
theorem stage3RowsComplete : Obligations.Stage3RowsComplete :=
  ⟨stage3Row_binary fpAdd (fun _ _ _ => rfl) (by decide) rfl, stage3Row_binary fpMul (fun _ _ _ => rfl) (by decide) rfl,
    stage3Row_binary fpMin (fun _ _ _ => rfl) (by decide) rfl, stage3Row_binary fpMaxOp (fun _ _ _ => rfl) (by decide) rfl,
    stage3Row_binary fpLt (fun _ _ _ => rfl) (by decide) rfl, stage3Row_binary fpEq (fun _ _ _ => rfl) (by decide) rfl,
    stage3Row_of_exec (f := fun _ i a b d => selLane (lane a i) (lane b i) (lane d i)) (fun _ _ _ => rfl) (by decide) rfl
      (fun h => absurd h (by decide)) fun h => absurd rfl h,
    stage3Row_unary (fun _ i a => fpIn (lane a i)) (fun _ _ _ => rfl) (by decide) rfl,
    stage3Row_unary (fun w i a => fpIn (lane a ((i + uImm w % 32) % 32))) (fun _ _ _ => rfl) (by decide) rfl,
    stage3Row_unary (fun _ i a => fpOp1 fpToBf16 (lane a i)) (fun _ _ _ => rfl) (by decide) rfl,
    stage3Row_unary (fun w i a => fpOp1 (fpScale ((uImm w % 512 : Int) - 256)) (lane a i)) (fun _ _ _ => rfl) (by decide) rfl⟩

end Sys2Proof.Machine
end

section
/-! SUPPORT. Stages 4 and 5: their rows with valid operands (R69 to R75, R101, R102, Table 3-7), and O17, O18. -/

namespace Sys2Proof.Machine

/-! Stage 4. -/

/-- Stage 4's result v of cycle k, seen after the operation's latency. -/
def putOut4 (s : State) (u op k : Nat) (v : Option Vec) : State :=
  s.modCu u fun c => { c with regs := smod [] c.regs regOut4 fun l => timedPut l k (k + uopLatency 4 op) v }

theorem putOut4_shows (s : State) (u op k : Nat) (v : Option Vec) :
    regAtCycle ((retire (putOut4 s u op k v) u 4 k).unit u).cu regOut4 (k + uopLatency 4 op) = v := by
  rw [retire_cu, putOut4, unit_modCu_same, regAtCycle, sget_smod_same, timedGet_timedPut]

theorem stageDone_putOut4 {s t : State} {u : Nat} (op k : Nat) (v : Option Vec) (h : Booked s t u) :
    StageDone s (retire (putOut4 t u op k v) u 4 k) u 4 k := by
  obtain ⟨b, w, i, g, hcu⟩ := h.cu
  refine stageDone_retire 4 k ?_ ?_ <;> rw [putOut4, unit_modCu_same, hcu]

theorem stage4_valid {s : State} {u op k : Nat} {w : Word} {v : Vec} (f : Word → Fp) (h : dueOp s u 4 op = some (w, k))
    (hv : regAtCycle (s.unit u).cu 22 k = some v) :
    ∃ m n, stage4 s u op f = retire (putOut4 (countFp s u m n) u op k (some (mkVec fun i => (f (lane v i)).v))) u 4 k := by
  have hm : (mkVec fun i => (nth ⟨0, 0, 0⟩ ((upto 32).map fun i => f (lane v i)) i).v) = mkVec fun i => (f (lane v i)).v :=
    mkVec_congr fun i hi => by rw [nth_map_upto _ _ _ _ hi]
  simp only [stage4, h, hv, hm]
  exact ⟨_, _, rfl⟩

theorem stage4_invalid {s : State} {u op k : Nat} {w : Word} (f : Word → Fp) (h : dueOp s u 4 op = some (w, k))
    (hv : regAtCycle (s.unit u).cu 22 k = none) : stage4 s u op f = retire (putOut4 s u op k none) u 4 k := by
  simp only [stage4, h, hv]
  rfl

theorem stage4Row_of_exec {c : Fin 9792 → Instr} {op lat : Nat} (f : Word → Fp) (hc : ∀ u s, exec (c u) s = .next (stage4 s u op f))
    (hl : uopLatency 4 op = lat) : Stage4Row c op lat fun x => (f x).v := by
  intro s u w k v h hv
  obtain ⟨m, n, e⟩ := stage4_valid f h hv
  refine ⟨_, hc u s, ?_⟩
  rw [e, ← hl]
  exact ⟨putOut4_shows _ _ _ _ _, stageDone_putOut4 _ _ _ (countFp_booked _ _ _ _)⟩

/-- Where Table 3-7 names no boundary result, what a function returns lies within the table's error of the correctly rounded value. -/
theorem stage4Fn_near {op : Nat} {x : Word} (h : stage4Bound op (fpIn x).v = none) :
    (stage4Fn op x).v = (stage4Exact op (fpIn x).v).v ∨
      (stage4Fn op x).v ∈ ulpBall (stage4Exact op (fpIn x).v).v (stage4Ulps op) := by
  have nth_near (l : List Word) (d : Word) (i : Nat) : nth d l i = d ∨ nth d l i ∈ l := by
    by_cases hi : i < l.length
    · exact .inr (by rw [nth, List.getD_eq_getElem _ _ hi]; exact List.getElem_mem hi)
    · exact .inl (List.getD_eq_default _ _ (Nat.not_lt.1 hi))
  unfold stage4Fn
  simp only [h, Fp.withIn]
  split
  · exact nth_near _ _ _
  · exact .inl rfl

theorem stage4Fn_bound {op : Nat} {x : Word} {r : Fp} (h : stage4Bound op (fpIn x).v = some r) : (stage4Fn op x).v = r.v := by
  simp only [stage4Fn, h, Fp.withIn]

/-- Settles O17: each row is `stage4` with its own function; what the functions return is Config's choice within their error. -/
theorem stage4RowsComplete : Obligations.Stage4RowsComplete := by
  refine ⟨stage4Row_of_exec (stage4Fn 1) (fun _ _ => rfl) rfl, stage4Row_of_exec (stage4Fn 2) (fun _ _ => rfl) rfl,
    stage4Row_of_exec (stage4Fn 3) (fun _ _ => rfl) rfl, stage4Row_of_exec (stage4Fn 4) (fun _ _ => rfl) rfl,
    stage4Row_of_exec (stage4Fn 5) (fun _ _ => rfl) rfl, stage4Row_of_exec (stage4Fn 6) (fun _ _ => rfl) rfl,
    stage4Row_of_exec (stage4Fn 7) (fun _ _ => rfl) rfl, stage4Row_of_exec (stage4Fn 8) (fun _ _ => rfl) rfl,
    stage4Row_of_exec (stage4Fn 9) (fun _ _ => rfl) rfl, stage4Row_of_exec (stage4Fn 10) (fun _ _ => rfl) rfl,
    stage4Row_of_exec (stage4Fn 11) (fun _ _ => rfl) rfl, fun s u w k v h hv => ?_, fun op x => ⟨fun _ => stage4Fn_bound, stage4Fn_near⟩⟩
  have h := stage4Row_of_exec (c := .pass) (op := 16) (fun x => ⟨x, 0, 0⟩) (fun _ _ => rfl) rfl s u w k v h hv
  rwa [show (mkVec fun i => (⟨lane v i, 0, 0⟩ : Fp).v) = v from mkVec_lane v] at h

/-! Stage 5. -/

theorem outFor_append (q : List (Nat × List (Option Row))) (k : Nat) (l : List (Option Row)) : outFor (q ++ [(k, l)]) k = some (k, l) := by
  simp [outFor, List.filter_append]

/-- Stage 5's result of a cycle is what a push of the cycle takes. -/
theorem outFor_outPut (s : State) (u k : Nat) (l : List (Option Row)) :
    outFor ((retire (outPut s u k l) u 5 k).unit u).cu.outq k = some (k, l) := by
  rw [retire_cu, outPut, unit_modCu_same, outFor_append]

theorem stageDone_outPut {s t : State} {u : Nat} (k : Nat) (l : List (Option Row)) (hp : (t.unit u).cu.pcs = (s.unit u).cu.pcs)
    (hd : (t.unit u).cu.due = (s.unit u).cu.due) : StageDone s (retire (outPut t u k l) u 5 k) u 5 k := by
  refine stageDone_retire 5 k ?_ ?_ <;> rw [outPut, unit_modCu_same] <;> assumption

theorem exec_pkf {s : State} {u : Fin 9792} {w : Word} {k : Nat} {v : Vec} (h : dueOp s u 5 3 = some (w, k))
    (hv : regAtCycle (s.unit u).cu regOut4 k = some v) :
    exec (.pkf u) s = .next (retire (outPut s u k ((fp32Rows v).map some)) u 5 k) := by
  show execPkf u s = _
  simp only [execPkf, h, hv]

/-- The lanes of a vector rounded to BF16, as PKB and QNT pack them. -/
theorem bf16Row_rounded (v : Vec) :
    (bf16Row fun i => (nth ⟨0, 0, 0⟩ ((upto 32).map fun i => fpOp1 fpToBf16 (lane v i)) i).v) =
      bf16Row fun i => (fpOp1 fpToBf16 (lane v i)).v := by
  unfold bf16Row mkRow
  exact congrArg (BitVec.ofNat 512) (packNat_congr 16 32 fun i hi => by dsimp only; rw [nth_map_upto _ _ _ _ hi])

theorem exec_pkb {s : State} {u : Fin 9792} {w : Word} {k : Nat} {v : Vec} (h : dueOp s u 5 2 = some (w, k))
    (hv : regAtCycle (s.unit u).cu regOut4 k = some v) :
    ∃ m n, exec (.pkb u) s =
      .next (retire (outPut (countFp s u m n) u k [some (bf16Row fun i => (fpOp1 fpToBf16 (lane v i)).v)]) u 5 k) := by
  show ∃ m n, execPkb u s = _
  simp only [execPkb, h, hv, bf16Row_rounded]
  exact ⟨_, _, rfl⟩

/-- Loading seed tokens changes SEED, STEP, BLK and the tokens still to come only. -/
theorem loadSeeds_changes (c : Cu) (k : Nat) : ∃ l s n b, loadSeeds c k = { c with seeds := l, seed := s, step := n, blk := b } := by
  unfold loadSeeds
  generalize (c.seeds.filter fun d => decide (d.1 ≤ k)) = l
  generalize (c.seeds.filter fun d => decide (k < d.1)) = r
  suffices ∀ l : List (Nat × BitVec 64 × BitVec 32), ∀ c : Cu, ∃ s n b,
      l.foldl (fun c d => { c with seed := d.2.1, step := d.2.2, blk := 0 }) c = { c with seed := s, step := n, blk := b } by
    obtain ⟨s, n, b, h⟩ := this l { c with seeds := r }
    exact ⟨r, s, n, b, h⟩
  intro l
  induction l with
  | nil => exact fun c => ⟨c.seed, c.step, c.blk, rfl⟩
  | cons d l ih =>
    intro c
    obtain ⟨s, n, b, h⟩ := ih { c with seed := d.2.1, step := d.2.2, blk := 0 }
    exact ⟨s, n, b, h⟩

/-- A QNT that draws has its seeds loaded and BLK moved on. -/
def qntDrawn (s : State) (u k : Nat) : State :=
  (s.modCu u fun c => loadSeeds c k).modCu u fun c => { c with blk := c.blk + 2 }

/-- The low 2n bits of a row that holds the records at its bottom are the records. -/
theorem row_records {n : Nat} (hn : 2 * n ≤ 512) (recs pad : Nat) :
    (BitVec.ofNat 512 (recs + pad * 2 ^ (2 * n))).toNat % 2 ^ (2 * n) = recs % 2 ^ (2 * n) := by
  rw [BitVec.toNat_ofNat, Nat.mod_mod_of_dvd _ (pow_dvd_pow 2 hn), Nat.add_mul_mod_self_right]

/-- A QNT of a valid input puts its rows by its output format, after counting. -/
theorem exec_qnt {s : State} {u : Fin 9792} {w : Word} {k : Nat} {v : Vec} (h : dueOp s u 5 1 = some (w, k))
    (hv : regAtCycle (s.unit u).cu regOut4 k = some v) :
    let x := { s.unit u with cu := loadSeeds (s.unit u).cu k }
    let f := cuOfmt x.cfg
    let n := if f = 5 then 72 else 136
    ∃ t l, exec (.qnt u) s = .next (retire (outPut t u k l) u 5 k) ∧ Booked (qntDrawn s u k) t u ∧
      (f = 10 → l = (fp32Rows v).map some) ∧ (f = 9 → l = [some (bf16Row fun i => (fpOp1 fpToBf16 (lane v i)).v)]) ∧
      (f < 9 → ∃ r : Row, l = [some r] ∧
        r.toNat % 2 ^ (2 * n) = (qRecord f (qHalf x v 0) + qRecord f (qHalf x v 1) * 2 ^ n) % 2 ^ (2 * n)) := by
  obtain ⟨ls, sd, st, b, hc⟩ := loadSeeds_changes (s.unit u).cu k
  have hv' : regAtCycle (loadSeeds (s.unit u).cu k) regOut4 k = some v := by
    rw [hc]
    exact hv
  intro x f n
  have hexec : exec (.qnt u) s = execQnt u s := rfl
  rw [hexec]
  simp only [execQnt, h, unit_modCu_same, hv']
  split
  · next h10 =>
    have h10 : f = 10 := h10
    exact ⟨_, _, rfl, .refl _ _, fun _ => rfl, fun h => by omega, fun h => by omega⟩
  split
  · next h9 =>
    have h9 : f = 9 := h9
    rw [bf16Row_rounded]
    exact ⟨_, _, rfl, countFp_booked _ _ _ _, fun h => by omega, fun _ => rfl, fun h => by omega⟩
  · next h10 h9 =>
    refine ⟨_, _, rfl, ?_, fun h => absurd h h10, fun h => absurd h h9, fun _ => ⟨_, rfl, row_records (n := n) ?_ _ _⟩⟩
    · exact (((booked_forEach (fun s i => addItem_booked s u i _) _ _).trans (addItem_booked _ u 32 _)).trans
        (addItem_booked _ u 33 _)).trans (setFlags_booked _ u _)
    · simp only [n]
      split <;> decide

/-- Settles O18: what each row puts is what a push of its cycle takes. -/
theorem stage5RowsComplete : Obligations.Stage5RowsComplete := by
  refine ⟨fun s u w k v h hv => ?_, fun s u w k v h hv => ?_, fun s u w k v h hv => ?_⟩
  · exact ⟨_, exec_pkf h hv, outFor_outPut _ _ _ _, stageDone_outPut _ _ rfl rfl⟩
  · obtain ⟨m, n, e⟩ := exec_pkb h hv
    obtain ⟨b, l, i, g, hcu⟩ := (countFp_booked s u m n).cu
    exact ⟨_, e, outFor_outPut _ _ _ _, stageDone_outPut _ _ (by rw [hcu]) (by rw [hcu])⟩
  · intro x f n
    obtain ⟨t, l, e, hw, h10, h9, hlt⟩ := exec_qnt h hv
    obtain ⟨ls, sd, st, b, hc⟩ := loadSeeds_changes (s.unit u).cu k
    obtain ⟨bk, wt, i, g, hcu⟩ := hw.cu
    rw [qntDrawn, unit_modCu_same, unit_modCu_same] at hcu
    have hout := outFor_outPut t u k l
    refine ⟨_, e, ?_, ?_, ?_, stageDone_outPut _ _ ?_ ?_, fun hf => ?_, fun hf => ?_, fun hf => ?_⟩
    · rw [retire_cu, outPut, unit_modCu_same, hcu]
    · rw [retire_cu, outPut, unit_modCu_same, hcu]
    · rw [retire_cu, outPut, unit_modCu_same, hcu]
    · rw [hcu]
      exact (congrArg Cu.pcs hc :)
    · rw [hcu]
      exact (congrArg Cu.due hc :)
    · rw [hout, h10 hf]
      rfl
    · rw [hout, h9 hf]
    · obtain ⟨r, hr, hrec⟩ := hlt hf
      exact ⟨r, by rw [hout, hr], hrec⟩

end Sys2Proof.Machine
end

section
/-! SUPPORT. NOP and WRAP (R100), the frame of the rows of stages 3 to 5, and O19, O20. -/

namespace Sys2Proof.Machine

/-! NOP and WRAP. -/

theorem settle_eq (s : State) (u : Nat) :
    settle s u = { s with units := (settle s u).units } ∧ (∀ v, v ≠ u → (settle s u).unit v = s.unit v) ∧
      (settle s u).unit u =
        { s.unit u with settled := if drained (s.unit u) then some (s.zone (physZone u)).sched else (s.unit u).settled } := by
  unfold settle
  split
  · exact ⟨rfl, fun v hv => unit_modUnit_other s _ hv, unit_modUnit_same s u _⟩
  · exact ⟨rfl, fun _ _ => rfl, rfl⟩

theorem exec_nop {s : State} {u : Fin 9792} {st : Fin 6} {w : Word} {k : Nat} (h : dueOp s u st 0 = some (w, k)) :
    exec (.nop u st) s = .next (retire s u st k) := by
  show execNop u st s = _
  simp only [execNop, h]

theorem exec_wrap {s : State} {u : Fin 9792} {st : Fin 6} {w : Word} {k : Nat} (h : dueOp s u st 0x3F = some (w, k)) :
    exec (.wrap u st) s = .next (s.modCu u fun c => { c with pcs := sset 0 c.pcs st 0 }) := by
  show execWrap u st s = _
  simp only [execWrap, h]

/-- Settles O19: a NOP retires; a WRAP writes its stage's counter. -/
theorem nopAndWrapComplete : Obligations.NopAndWrapComplete := by
  refine ⟨fun s u st w k h => ?_, fun s u st w k h => ?_⟩
  · intro x due
    refine ⟨_, exec_nop h, ?_⟩
    have hcu := retire_cu s u st k
    obtain ⟨hrec, hother, hsame⟩ := settle_eq (s.modCu u fun c =>
      { c with due := c.due.erase ⟨st, k⟩, pcs := sset 0 c.pcs st ((sget 0 c.pcs st + 1) % 64) }) u
    refine ⟨hrec, fun v hv => (hother v hv).trans (unit_modUnit_other s _ hv), ?_, fun i hi => ?_, ?_⟩
    · rw [hcu]
      exact sget_sset_same _ _ _ _
    · rw [hcu]
      exact sget_sset_other 0 (s.unit u).cu.pcs _ _ i hi
    · rw [hcu]
      rw [unit_modCu_same] at hsame
      exact hsame
  · refine ⟨_, exec_wrap h, rfl, fun v hv => unit_modUnit_other s _ hv, ?_⟩
    rw [unit_modCu_same]
    exact ⟨sget_sset_same 0 (s.unit u).cu.pcs st 0, fun i hi => sget_sset_other 0 (s.unit u).cu.pcs st 0 i hi, rfl⟩

/-! The frame. -/

theorem stage3_only (s : State) (u op : Nat) (ecc : Ecc) (f : Word → Nat → Vec → Vec → Vec → Fp) :
    ComputeOnly s (stage3 s u op ecc f) u := by
  have write (t : State) (w : Word) (k : Nat) (v : Option Vec) : ComputeOnly t (retire (selWrite t u w k v) u 3 k) u := by
    refine .trans ?_ (computeOnly_retire _ u 3 k)
    unfold selWrite
    dsimp only
    split
    · split
      · exact computeOnly_modCu t u _
      · exact .refl t u
    · exact computeOnly_modCu t u _
  rcases h : dueOp s u 3 op with _ | ⟨w, k⟩
  · rw [stage3, h]
    exact .refl s u
  · by_cases hr : stage3Ready (s.unit u).cu w k = true
    · have invalid (hn : (selRead (s.unit u).cu (uSA w) (uImm w) k).2 = none ∨ stage3B (s.unit u).cu op w k = none ∨
          stage3D (s.unit u).cu op w k = none) : ComputeOnly s (stage3 s u op ecc f) u := by
        rw [stage3_invalid ecc f h hr hn]
        exact (stage3Read_booked s u ecc w).computeOnly.trans (write _ w k none)
      rcases ha : (selRead (s.unit u).cu (uSA w) (uImm w) k).2 with _ | a
      · exact invalid (.inl ha)
      rcases hb : stage3B (s.unit u).cu op w k with _ | b
      · exact invalid (.inr (.inl hb))
      rcases hd : stage3D (s.unit u).cu op w k with _ | d
      · exact invalid (.inr (.inr hd))
      obtain ⟨m, n, e⟩ := stage3_valid ecc f h hr ha hb hd
      rw [e]
      exact ((stage3Read_booked s u ecc w).trans (countFp_booked _ u m n)).computeOnly.trans (write _ w k _)
    · simp only [stage3, h, hr]
      exact .refl s u

theorem stage4_only (s : State) (u op : Nat) (f : Word → Fp) : ComputeOnly s (stage4 s u op f) u := by
  have put (t : State) (k : Nat) (v : Option Vec) : ComputeOnly t (retire (putOut4 t u op k v) u 4 k) u :=
    (computeOnly_modCu t u _).trans (computeOnly_retire _ u 4 k)
  rcases h : dueOp s u 4 op with _ | ⟨w, k⟩
  · rw [stage4, h]
    exact .refl s u
  · rcases hv : regAtCycle (s.unit u).cu 22 k with _ | v
    · rw [stage4_invalid f h hv]
      exact put s k none
    · obtain ⟨m, n, e⟩ := stage4_valid f h hv
      rw [e]
      exact (countFp_booked s u m n).computeOnly.trans (put _ k _)

theorem outPut_only (s : State) (u k : Nat) (l : List (Option Row)) : ComputeOnly s (retire (outPut s u k l) u 5 k) u :=
  (computeOnly_modCu s u _).trans (computeOnly_retire _ u 5 k)

theorem exec_qnt_invalid {s : State} {u : Fin 9792} {w : Word} {k : Nat} (h : dueOp s u 5 1 = some (w, k))
    (hv : regAtCycle (s.unit u).cu regOut4 k = none) :
    exec (.qnt u) s = .next (retire (outPut (s.modCu u fun c => loadSeeds c k) u k [none]) u 5 k) := by
  obtain ⟨ls, sd, st, b, hc⟩ := loadSeeds_changes (s.unit u).cu k
  have hv' : regAtCycle (loadSeeds (s.unit u).cu k) regOut4 k = none := by
    rw [hc]
    exact hv
  show execQnt u s = _
  simp only [execQnt, h, unit_modCu_same, hv']

theorem exec_pkb_invalid {s : State} {u : Fin 9792} {w : Word} {k : Nat} (h : dueOp s u 5 2 = some (w, k))
    (hv : regAtCycle (s.unit u).cu regOut4 k = none) : exec (.pkb u) s = .next (retire (outPut s u k [none]) u 5 k) := by
  show execPkb u s = _
  simp only [execPkb, h, hv]

theorem exec_pkf_invalid {s : State} {u : Fin 9792} {w : Word} {k : Nat} (h : dueOp s u 5 3 = some (w, k))
    (hv : regAtCycle (s.unit u).cu regOut4 k = none) : exec (.pkf u) s = .next (retire (outPut s u k [none, none]) u 5 k) := by
  show execPkf u s = _
  simp only [execPkf, h, hv]

/-- The rows of stage 5 answer a state in which only the compute part has moved. -/
theorem stage5_only (s : State) (u : Fin 9792) : ∀ c ∈ [Instr.qnt u, .pkb u, .pkf u], ∃ t, exec c s = .next t ∧ ComputeOnly s t u := by
  simp only [List.forall_mem_cons]
  refine ⟨?_, ?_, ?_, fun _ h => absurd h List.not_mem_nil⟩
  · rcases h : dueOp s u 5 1 with _ | ⟨w, k⟩
    · refine ⟨s, ?_, .refl s u⟩
      show execQnt u s = _
      simp only [execQnt, h]
    rcases hv : regAtCycle (s.unit u).cu regOut4 k with _ | v
    · exact ⟨_, exec_qnt_invalid h hv, (computeOnly_modCu s u _).trans (outPut_only _ u k _)⟩
    · obtain ⟨t, l, e, hb, -⟩ := exec_qnt h hv
      exact ⟨_, e, (((computeOnly_modCu s u _).trans (computeOnly_modCu _ u _)).trans hb.computeOnly).trans (outPut_only t u k l)⟩
  · rcases h : dueOp s u 5 2 with _ | ⟨w, k⟩
    · refine ⟨s, ?_, .refl s u⟩
      show execPkb u s = _
      simp only [execPkb, h]
    rcases hv : regAtCycle (s.unit u).cu regOut4 k with _ | v
    · exact ⟨_, exec_pkb_invalid h hv, outPut_only s u k _⟩
    · obtain ⟨m, n, e⟩ := exec_pkb h hv
      exact ⟨_, e, (countFp_booked s u m n).computeOnly.trans (outPut_only _ u k _)⟩
  · rcases h : dueOp s u 5 3 with _ | ⟨w, k⟩
    · refine ⟨s, ?_, .refl s u⟩
      show execPkf u s = _
      simp only [execPkf, h]
    rcases hv : regAtCycle (s.unit u).cu regOut4 k with _ | v
    · exact ⟨_, exec_pkf_invalid h hv, outPut_only s u k _⟩
    · exact ⟨_, exec_pkf h hv, outPut_only s u k _⟩

theorem nop_only (s : State) (u : Fin 9792) (st : Fin 6) : ∃ t, exec (.nop u st) s = .next t ∧ ComputeOnly s t u := by
  rcases h : dueOp s u st 0 with _ | ⟨w, k⟩
  · refine ⟨s, ?_, .refl s u⟩
    show execNop u st s = _
    simp only [execNop, h]
  · exact ⟨_, exec_nop h, computeOnly_retire s u st k⟩

theorem wrap_only (s : State) (u : Fin 9792) (st : Fin 6) : ∃ t, exec (.wrap u st) s = .next t ∧ ComputeOnly s t u := by
  rcases h : dueOp s u st 0x3F with _ | ⟨w, k⟩
  · refine ⟨s, ?_, .refl s u⟩
    show execWrap u st s = _
    simp only [execWrap, h]
  · exact ⟨_, exec_wrap h, computeOnly_modCu s u _⟩

theorem slotResultReady_only (s : State) (u : Fin 9792) (k : Fin 4) : ∃ t, exec (.slotResultReady u k) s = .next t ∧ ComputeOnly s t u := by
  have hexec : exec (.slotResultReady u k) s = execSlotResultReady u k s := rfl
  rw [hexec]
  unfold execSlotResultReady
  refine ⟨_, rfl, ?_⟩
  dsimp only
  split
  · split
    · exact computeOnly_modCu s u _
    · exact .refl s u
  · exact .refl s u

theorem stage3Rows_run (s : State) (u : Fin 9792) (e : Ecc) :
    ∀ c ∈ [Instr.fadd u e, .fmul u e, .fmin u e, .fmax u e, .cmplt u e, .cmpeq u e, .sel u e, .mov u e, .rot u e, .bfr u e, .scl u e],
      ∃ op f, exec c s = .next (stage3 s u op e f) := by
  simp only [List.forall_mem_cons]
  exact ⟨⟨_, _, rfl⟩, ⟨_, _, rfl⟩, ⟨_, _, rfl⟩, ⟨_, _, rfl⟩, ⟨_, _, rfl⟩, ⟨_, _, rfl⟩, ⟨_, _, rfl⟩, ⟨_, _, rfl⟩, ⟨_, _, rfl⟩,
    ⟨_, _, rfl⟩, ⟨_, _, rfl⟩, fun _ h => absurd h List.not_mem_nil⟩

theorem stage4Rows_run (s : State) (u : Fin 9792) :
    ∀ c ∈ [Instr.exp u, .exp2 u, .log u, .rsqrt u, .rcp u, .tanh u, .sigm u, .gelut u, .gelue u, .silu u, .sqrt u, .pass u],
      ∃ op f, exec c s = .next (stage4 s u op f) := by
  simp only [List.forall_mem_cons]
  exact ⟨⟨_, _, rfl⟩, ⟨_, _, rfl⟩, ⟨_, _, rfl⟩, ⟨_, _, rfl⟩, ⟨_, _, rfl⟩, ⟨_, _, rfl⟩, ⟨_, _, rfl⟩, ⟨_, _, rfl⟩, ⟨_, _, rfl⟩,
    ⟨_, _, rfl⟩, ⟨_, _, rfl⟩, ⟨_, _, rfl⟩, fun _ h => absurd h List.not_mem_nil⟩

/-- Settles O20: every such row answers a state reached by bookkeeping and changes of the compute part. -/
theorem computeRowsTouchOneUnit : Obligations.ComputeRowsTouchOneUnit := by
  intro s t u c hc ht
  have conclude : (∃ r, exec c s = .next r ∧ ComputeOnly s r u) → ComputeOnly s t u := by
    rintro ⟨r, hr, h⟩
    obtain rfl : r = t := Host.Outcome.next.inj (hr.symm.trans ht)
    exact h
  refine conclude ?_
  rcases hc with ⟨e, hc⟩ | hc | ⟨st, rfl | rfl⟩ | ⟨k, rfl⟩
  · obtain ⟨op, f, h⟩ := stage3Rows_run s u e c hc
    exact ⟨_, h, stage3_only s u op e f⟩
  · rcases List.mem_append.1 (show c ∈ [Instr.exp u, .exp2 u, .log u, .rsqrt u, .rcp u, .tanh u, .sigm u, .gelut u, .gelue u, .silu u,
        .sqrt u, .pass u] ++ [Instr.qnt u, .pkb u, .pkf u] from hc) with hc | hc
    · obtain ⟨op, f, h⟩ := stage4Rows_run s u c hc
      exact ⟨_, h, stage4_only s u op f⟩
    · exact stage5_only s u c hc
  · exact nop_only s u st
  · exact wrap_only s u st
  · exact slotResultReady_only s u k

end Sys2Proof.Machine
end

section
/-! SUPPORT. Stages 1 and 2: DOT, ACC and the slots' results (R63 to R67, R80 to R82, R94 to R96), and O22. -/

namespace Sys2Proof.Machine

/-! Faults and digits. -/

theorem retire_flt (s : State) (u st k : Nat) : (retire s u st k).flt = s.flt := by
  unfold retire settle
  split <;> rfl

theorem unitFault_detects (s : State) (u : Nat) (c : BitVec 8) (d : BitVec 64) :
    (unitFault s u c d).flt.detected = (detect s u c d).flt.detected := by
  unfold unitFault
  dsimp only
  split <;> rfl

/-- A fault of a unit stands among the detections, with its causes. -/
theorem unitFault_detected (s : State) (u : Nat) (c : BitVec 8) (d : BitVec 64) :
    ∃ y ∈ (unitFault s u c d).flt.detected, y.unit = u ∧ ∀ i, bit c i = true → bit y.causes i = true := by
  rw [unitFault_detects]
  simp only [detect, State.modFlt]
  split
  · next h =>
    obtain ⟨x, hx, hh⟩ := List.any_eq_true.1 h
    refine ⟨_, List.mem_map_of_mem hx, ?_⟩
    rw [if_pos hh]
    rw [Bool.and_eq_true, beq_iff_eq] at hh
    exact ⟨hh.1, fun i hi => by
      have hi : c.getLsbD i = true := hi
      simp [bit, hi]⟩
  · exact ⟨_, List.mem_append_right _ List.mem_cons_self, rfl, fun _ hi => hi⟩

theorem packNat_lt {k : Nat} {f : Nat → Nat} : ∀ n, (∀ i < n, f i < 2 ^ k) → packNat k f n < 2 ^ (k * n)
  | 0, _ => Nat.one_pos
  | n + 1, h => by
    have ih := packNat_lt n fun i hi => h i (by omega)
    have hn : (f n + 1) * 2 ^ (k * n) ≤ 2 ^ k * 2 ^ (k * n) := Nat.mul_le_mul_right _ (h n (by omega))
    rw [packNat, Nat.mul_succ, Nat.pow_add, Nat.mul_comm (2 ^ (k * n))]
    rw [Nat.add_mul, Nat.one_mul] at hn
    omega

theorem packNat_digit {k : Nat} {f : Nat → Nat} {i : Nat} : ∀ n, (∀ i < n, f i < 2 ^ k) → i < n →
    packNat k f n / 2 ^ (k * i) % 2 ^ k = f i
  | n + 1, h, hi => by
    have hlt := packNat_lt n fun i hi => h i (by omega)
    rw [packNat]
    rcases Nat.lt_succ_iff_lt_or_eq.1 hi with hin | rfl
    · have hd : k * n = k * i + k + k * (n - i - 1) := by
        rw [← Nat.mul_succ, ← Nat.mul_add]
        congr 1
        omega
      rw [hd, Nat.pow_add, Nat.pow_add, show f n * (2 ^ (k * i) * 2 ^ k * 2 ^ (k * (n - i - 1))) =
        f n * 2 ^ (k * (n - i - 1)) * 2 ^ k * 2 ^ (k * i) by ring, Nat.add_mul_div_right _ _ (Nat.two_pow_pos _), Nat.add_mul_mod_self_right]
      exact packNat_digit n (fun j hj => h j (by omega)) hin
    · rw [Nat.add_mul_div_right _ _ (Nat.two_pow_pos _), Nat.div_eq_of_lt hlt, Nat.zero_add, Nat.mod_eq_of_lt (h i hi)]

/-- A vector's lanes are those it is made of. -/
theorem lane_mkVec (f : Nat → Word) {l : Nat} (hl : l < 32) : lane (mkVec f) l = f l := by
  apply BitVec.eq_of_toNat_eq
  have hf : ∀ i < 32, (f i).toNat < 2 ^ 32 := fun i _ => (f i).isLt
  rw [lane, mkVec, BitVec.extractLsb'_toNat, BitVec.toNat_ofNat, Nat.mod_eq_of_lt (packNat_lt 32 hf), Nat.shiftRight_eq_div_pow]
  exact packNat_digit 32 hf hl

/-! DOT. -/

/-- An upset bit of an integer shows in its residue (R80). -/
theorem mod7_flipInt (i : Int) (b : Nat) : mod7 (flipInt i b) ≠ mod7 i := by
  have h7 : ¬ (7 : Int) ∣ 2 ^ b := fun h => by
    have h2 := Int.Prime.dvd_pow' (by decide : Nat.Prime 7) h
    omega
  intro h
  have hmod : flipInt i b % 7 = i % 7 := by
    unfold mod7 at h
    omega
  have hsub := Int.emod_eq_emod_iff_emod_sub_eq_zero.1 hmod
  rw [flipInt] at hsub
  split at hsub
  · exact h7 (Int.dvd_neg.1 (Int.dvd_of_emod_eq_zero (by rwa [sub_sub_cancel_left] at hsub)))
  · exact h7 (Int.dvd_of_emod_eq_zero (by rwa [add_sub_cancel_left] at hsub))

theorem residuesOk_upset {ts : List Term} (b : Nat) (hn : ts ≠ []) (h : residuesOk ts = true) : residuesOk (upsetTerms ts b) = false := by
  cases ts with
  | nil => exact absurd rfl hn
  | cons t r =>
    rw [residuesOk, List.all_cons, Bool.and_eq_true, beq_iff_eq] at h
    have ht : mod7 (flipInt t.s b) ≠ t.r := h.1 ▸ mod7_flipInt t.s b
    simp [upsetTerms, residuesOk, ht]

/-- What a DOT forms from lane l's operands (R94). -/
def dotOf (x : UnitSt) (ws as_ : List LaneOp) (l : Nat) : LaneTerms × Term :=
  dotLane (cuMode x.cfg) x.cu.dotPart (nth Term.zero x.cu.partials l) (nth ⟨[], 1, 0⟩ ws l) (nth ⟨[], 1, 0⟩ as_ l)
/-- What a DOT forms from each lane's operands. -/
def dotsOf (x : UnitSt) (ws as_ : List LaneOp) : List (LaneTerms × Term) := (upto 32).map (dotOf x ws as_)
/-- The lanes' terms as they leave stage 1, one bit of one lane's first term upset or none. -/
def dotLanes (x : UnitSt) (ws as_ : List LaneOp) : Option (Fin 32 × Fin 24) → List LaneTerms
  | some (l, b) => (upto 32).map fun i =>
      let k := nth ⟨[], 1, 0⟩ ((dotsOf x ws as_).map Prod.fst) i
      if i = l.val then { k with terms := upsetTerms k.terms b } else k
  | none => (dotsOf x ws as_).map Prod.fst
/-- The terms that a DOT gives to stage 2. -/
def dotOut (x : UnitSt) (ws as_ : List LaneOp) (upset : Option (Fin 32 × Fin 24)) : TermOp :=
  ⟨dotLanes x ws as_ upset, partUnits (cuMode x.cfg) x.cu.dotPart (ldbBlocks x.cfg)⟩
/-- Stage 1's registers after a DOT of cycle k. -/
def dotPut (s : State) (u k : Nat) (ws as_ : List LaneOp) (upset : Option (Fin 32 × Fin 24)) : State :=
  let x := s.unit u
  s.modCu u fun c =>
    { c with terms := timedPut c.terms k (k + 3) (some (dotOut x ws as_ upset))
             dotPart := (x.cu.dotPart + 1) % modeParts (cuMode x.cfg), partials := (dotsOf x ws as_).map Prod.snd }

theorem exec_dot {s : State} {u : Fin 9792} {w : Word} {k : Nat} {ws as_ : List LaneOp} (x : Option (Fin 32 × Fin 24))
    (h : dueOp s u 1 1 = some (w, k)) (hw : timedGet none (s.unit u).cu.wOp k = some ws) (ha : timedGet none (s.unit u).cu.aOp k = some as_) :
    exec (.dot u x) s = .next (retire (if (dotLanes (s.unit u) ws as_ x).all fun l => residuesOk l.terms then dotPut s u k ws as_ x
      else unitFault (dotPut s u k ws as_ x) u cResidue 0) u 1 k) := by
  show execDot u x s = _
  simp only [execDot, h, hw, ha]
  cases x <;> rfl

/-- The upset lane's terms do not agree with their residues (R80). -/
theorem dotLanes_upset {x : UnitSt} {ws as_ : List LaneOp} (l : Fin 32) (b : Fin 24) (hn : (dotOf x ws as_ l).1.terms ≠ [])
    (h : residuesOk (dotOf x ws as_ l).1.terms = true) : ¬ (dotLanes x ws as_ (some (l, b))).all (fun k => residuesOk k.terms) = true := fun hall => by
  have hl := List.all_eq_true.1 hall _ (List.mem_map_of_mem (List.mem_range.2 l.isLt))
  rw [dotsOf, List.map_map, nth_map_upto _ _ _ _ l.isLt, if_pos rfl] at hl
  exact absurd (hl.symm.trans (residuesOk_upset _ hn h)) (by decide)

theorem exec_dot_invalid {s : State} {u : Fin 9792} {w : Word} {k : Nat} (x : Option (Fin 32 × Fin 24)) (h : dueOp s u 1 1 = some (w, k))
    (hn : timedGet none (s.unit u).cu.wOp k = none ∨ timedGet none (s.unit u).cu.aOp k = none) :
    exec (.dot u x) s = .next (retire (s.modCu u fun c => { c with terms := timedPut c.terms k (k + 3) none }) u 1 k) := by
  show execDot u x s = _
  simp only [execDot, h]
  split
  · next hw ha => exact absurd hn (by simp [hw, ha])
  · rfl

/-- A DOT on valid operands gives stage 2 its lanes' terms and keeps their partial sums (R94); an upset term is a fault (R80). -/
theorem dot_completes (s : State) (u : Fin 9792) (x : Option (Fin 32 × Fin 24)) (w : Word) (k : Nat) (ws as_ : List LaneOp)
    (h : dueOp s u 1 1 = some (w, k)) (hw : timedGet none (s.unit u).cu.wOp k = some ws)
    (ha : timedGet none (s.unit u).cu.aOp k = some as_) :
    ∃ t o, exec (.dot u x) s = .next t ∧ timedGet none (t.unit u).cu.terms (k + 3) = some o ∧ StageDone s t u 1 k ∧
      (t.unit u).cu.partials = (upto 32).map (fun l => (dotOf (s.unit u) ws as_ l).2) ∧
      (t.unit u).cu.dotPart = ((s.unit u).cu.dotPart + 1) % modeParts (cuMode (s.unit u).cfg) ∧
      (x = none → o.lanes = (upto 32).map fun l => (dotOf (s.unit u) ws as_ l).1) ∧
      (∀ l b, x = some (l, b) → (dotOf (s.unit u) ws as_ l).1.terms ≠ [] → residuesOk (dotOf (s.unit u) ws as_ l).1.terms = true →
        ∃ y ∈ t.flt.detected, y.unit = u.val ∧ bit y.causes 0 = true) := by
  have e := exec_dot x h hw ha
  have hb : Booked (dotPut s u k ws as_ x) (if (dotLanes (s.unit u) ws as_ x).all fun l => residuesOk l.terms then dotPut s u k ws as_ x
      else unitFault (dotPut s u k ws as_ x) u cResidue 0) u := by
    split
    · exact .refl _ u
    · exact unitFault_booked _ u _ _
  obtain ⟨bk, wt, i, g, hcu⟩ := hb.cu
  rw [dotPut, unit_modCu_same] at hcu
  refine ⟨_, dotOut (s.unit u) ws as_ x, e, ?_, stageDone_retire 1 k (congrArg Cu.pcs hcu :) (congrArg Cu.due hcu :), ?_, ?_, ?_, fun l b hx hn hok => ?_⟩
  · rw [retire_cu]
    exact (congrArg (fun c : Cu => timedGet none c.terms (k + 3)) hcu).trans (timedGet_timedPut _ _ _ _ _)
  · rw [retire_cu]
    exact (congrArg Cu.partials hcu).trans List.map_map
  · rw [retire_cu]
    exact (congrArg Cu.dotPart hcu :)
  · rintro rfl
    exact List.map_map
  · subst hx
    rw [retire_flt, if_neg (dotLanes_upset l b hn hok)]
    obtain ⟨y, hy, hu, hc⟩ := unitFault_detected (dotPut s u k ws as_ (some (l, b))) u cResidue 0
    exact ⟨y, hy, hu, hc 0 (by decide)⟩

/-! ACC. -/

/-- The lanes of slot j after terms o have joined them (R95). -/
def accLane (x : UnitSt) (j : Nat) (o : TermOp) (l : Nat) : LaneAcc :=
  laneAdd (nth LaneAcc.zero (slotLanes (sget .init x.cu.slots j)) l) (nth ⟨[], 1, 0⟩ o.lanes l)
/-- Slot j with terms o joined, its group not complete. -/
def accJoined (x : UnitSt) (j : Nat) (o : TermOp) : Slot :=
  { sget Slot.init x.cu.slots j with lanes := (upto 32).map (accLane x j o), units := (sget .init x.cu.slots j).units + o.units }
/-- The lanes of slot j as its group closes, a bit of one lane's partial upset or none (R65 to R67, R81). -/
def accCloses (x : UnitSt) (j : Nat) (o : TermOp) (upset : Option (Fin 32 × Fin 40)) : List (LaneAcc × Nat × Nat × Bool) :=
  (upto 32).map fun l =>
    laneClose (cuMode x.cfg) (match upset with | some (i, b) => if i.val = l then some b.val else none | none => none)
      (nth LaneAcc.zero (accJoined x j o).lanes l)
/-- Slot j with its group closed. -/
def accGroup (x : UnitSt) (j : Nat) (o : TermOp) (upset : Option (Fin 32 × Fin 40)) : Slot :=
  { accJoined x j o with lanes := (accCloses x j o upset).map Prod.fst, units := 0, groups := (accJoined x j o).groups + 1 }
/-- With the accumulation's last group the result of cycle k closes too (R95, R96). -/
def accClosed (x : UnitSt) (j : Nat) (o : TermOp) (upset : Option (Fin 32 × Fin 40)) (k : Nat) : Slot :=
  if cuGroups x.cfg ≤ (accGroup x j o upset).groups then (slotFinish (accGroup x j o upset) (cuGroups x.cfg) k).1 else accGroup x j o upset

theorem accClosed_final {x : UnitSt} {j : Nat} {o : TermOp} (upset : Option (Fin 32 × Fin 40)) (k : Nat)
    (hg : cuGroups x.cfg ≤ (sget .init x.cu.slots j).groups + 1) :
    accClosed x j o upset k = (slotFinish (accGroup x j o upset) (cuGroups x.cfg) k).1 := if_pos hg
theorem accClosed_group {x : UnitSt} {j : Nat} {o : TermOp} (upset : Option (Fin 32 × Fin 40)) (k : Nat)
    (hg : (sget .init x.cu.slots j).groups + 1 < cuGroups x.cfg) : accClosed x j o upset k = accGroup x j o upset :=
  if_neg (Nat.not_le.2 hg)

/-- Slot j of unit u holds sl. -/
def putSlot (s : State) (u j : Nat) (sl : Slot) : State := s.modCu u fun c => { c with slots := sset Slot.init c.slots j sl }

/-- An ACC that retires after bookkeeping over a slot's new value leaves that value. -/
theorem slot_retire {s t : State} {u j k : Nat} {sl : Slot} (hb : Booked (putSlot s u j sl) t u) :
    sget .init ((retire t u 2 k).unit u).cu.slots j = sl ∧ StageDone s (retire t u 2 k) u 2 k := by
  obtain ⟨b, w, i, g, hcu⟩ := hb.cu
  rw [putSlot, unit_modCu_same] at hcu
  refine ⟨?_, stageDone_retire 2 k (by rw [hcu]) (by rw [hcu])⟩
  rw [retire_cu, hcu]
  exact sget_sset_same _ _ _ _

section
variable {s : State} {u : Fin 9792} {w : Word} {k : Nat} (x : Option (Fin 32 × Fin 40)) (h : dueOp s u 2 1 = some (w, k))
include h

theorem exec_acc_idle (hn : timedGet none (s.unit u).cu.terms k = none ∨ cuSlots (s.unit u).cfg ≤ uSlot w) :
    exec (.acc u x) s = .next (retire s u 2 k) := by
  show execAcc u x s = _
  simp only [execAcc, h]
  split
  · next ht => rw [if_pos (hn.resolve_left (by simp [ht]))]
  · rfl

variable {o : TermOp} (ht : timedGet none (s.unit u).cu.terms k = some o) (hs : uSlot w < cuSlots (s.unit u).cfg)
include ht hs

theorem exec_acc_joins (hlt : (sget .init (s.unit u).cu.slots (uSlot w)).units + o.units < modeClose (cuMode (s.unit u).cfg)) :
    exec (.acc u x) s = .next (retire (putSlot s u (uSlot w) (accJoined (s.unit u) (uSlot w) o)) u 2 k) := by
  show execAcc u x s = _
  simp only [execAcc, h, ht, if_neg (Nat.not_le.2 hs), if_pos hlt]
  rfl

theorem exec_acc_closes (hle : modeClose (cuMode (s.unit u).cfg) ≤ (sget .init (s.unit u).cu.slots (uSlot w)).units + o.units) :
    ∃ t, exec (.acc u x) s = .next (retire t u 2 k) ∧ Booked (putSlot s u (uSlot w) (accClosed (s.unit u) (uSlot w) o x k)) t u := by
  show ∃ t, execAcc u x s = _ ∧ _
  simp only [execAcc, h, ht, if_neg (Nat.not_le.2 hs), if_neg (Nat.not_lt.2 hle)]
  have hbook : ∀ (q : State) (r n : Nat) (c : Bool), Booked q
      (if c then countFp (setFlags (addItem q u itAlign r) u (if r = 0 then 0 else 8)) u 0 n
        else unitFault (countFp (setFlags (addItem q u itAlign r) u (if r = 0 then 0 else 8)) u 0 n) u cResidue 0) u := fun q r n c => by
    have hb : Booked q (countFp (setFlags (addItem q u itAlign r) u (if r = 0 then 0 else 8)) u 0 n) u :=
      ((addItem_booked q u itAlign r).trans (setFlags_booked _ u _)).trans (countFp_booked _ u 0 n)
    split
    · exact hb
    · exact hb.trans (unitFault_booked _ u _ _)
  by_cases hf : cuGroups (s.unit u).cfg ≤ (sget .init (s.unit u).cu.slots (uSlot w)).groups + 1
  · simp only [hf, decide_true, if_true, slotFinish]
    refine ⟨_, rfl, ?_⟩
    rw [accClosed_final x k hf]
    exact hbook _ _ _ _
  · simp only [hf, decide_false, Bool.false_eq_true, if_false]
    refine ⟨_, rfl, ?_⟩
    rw [accClosed_group x k (Nat.lt_of_not_le hf)]
    exact hbook _ _ _ _

end

/-- The lanes of a group that closes without an upset: partial, conversion and tree (R65 to R67). -/
theorem accGroup_lane (x : UnitSt) (j : Nat) (o : TermOp) {l : Nat} (hl : l < 32) :
    let a := accLane x j o l
    let g := groupValue (alignTerms (modeC (cuMode x.cfg)) a.terms) a.f a.ef
    nth LaneAcc.zero (accGroup x j o none).lanes l = { a with terms := [], node := (treePush g.v g.sat a.node).1 } := by
  intro a g
  rw [accGroup, accCloses, List.map_map, nth_map_upto _ _ _ _ hl]
  simp only [Function.comp_apply, accJoined, nth_map_upto _ _ _ _ hl]
  rfl

/-- The fold of a closing slot's lanes stands in its result (R67, R96). -/
theorem slotFinish_closing (sl : Slot) (g k : Nat) : ∃ v, (slotFinish sl g k).1.closing = sl.closing ++ [(k, k + slotLatency g, v)] ∧
    ∀ l, l < 32 → lane v l = (treeFold (nth LaneAcc.zero sl.lanes l).node none 0).v := by
  refine ⟨_, rfl, fun l hl => ?_⟩
  rw [lane_mkVec _ hl]
  exact congrArg Fp.v (List.getD_map sl.lanes LaneAcc.zero fun a => treeFold a.node none 0)

/-- Settles O22: stage 1 and 2's registers are functions of their operands, and what an ACC books beside leaves its slot. -/
theorem stage1And2RowsComplete : Obligations.Stage1And2RowsComplete := by
  refine ⟨fun s u x w k ws as_ h hw ha => dot_completes s u x w k ws as_ h hw ha, ?_, ?_, ?_, ?_, ?_⟩
  · intro s u w k o h ht hs hlt
    obtain ⟨hslot, hdone⟩ := slot_retire (k := k) (.refl (putSlot s u (uSlot w) (accJoined (s.unit u) (uSlot w) o)) u)
    exact ⟨_, exec_acc_joins none h ht hs hlt, hdone, by rw [hslot]; rfl, by rw [hslot]; rfl⟩
  · intro s u x w k o h ht hs hle hg a g
    obtain ⟨t, e, hb⟩ := exec_acc_closes x h ht hs hle
    obtain ⟨hslot, hdone⟩ := slot_retire (k := k) hb
    rw [accClosed_final x k hg] at hslot
    obtain ⟨v, hc, hv⟩ := slotFinish_closing (accGroup (s.unit u) (uSlot w) o x) (cuGroups (s.unit u).cfg) k
    refine ⟨_, v, e, hdone, by rw [hslot, hc]; rfl, ?_, by rw [hslot]; rfl⟩
    rintro rfl l hl
    rw [hv l hl, accGroup_lane _ _ _ hl]
    rfl
  · intro s u x w k o h ht hs hle hg a g
    obtain ⟨t, e, hb⟩ := exec_acc_closes x h ht hs hle
    obtain ⟨hslot, hdone⟩ := slot_retire (k := k) hb
    rw [accClosed_group x k hg] at hslot
    refine ⟨_, e, hdone, by rw [hslot]; rfl, by rw [hslot]; rfl, ?_⟩
    rintro rfl l hl
    rw [hslot]
    exact accGroup_lane _ _ _ hl
  · intro s u x w k h hn
    exact ⟨_, exec_acc_idle x h hn, stageDone_retire 2 k rfl rfl, by rw [retire_cu]⟩
  · intro s u k a r v rest hc hr hrun
    have e : exec (.slotResultReady u k) s = .next (putSlot s u k { sget Slot.init (s.unit u).cu.slots k with closing := rest, result := some v }) := by
      show execSlotResultReady u k s = _
      simp only [execSlotResultReady, hc, hr, hrun, decide_true, Bool.and_self, if_true]
      rfl
    refine ⟨_, e, ?_, ?_⟩ <;> rw [putSlot, unit_modCu_same] <;> exact congrArg _ (sget_sset_same ..)

end Sys2Proof.Machine
end

section
/-! SUPPORT. Operands that are not valid (R84), and O16. -/

namespace Sys2Proof.Machine

/-- An operation of stage 3 that retires with no valid result (R84). -/
theorem stage3_invalid_effect (s : State) (u : Nat) (ecc : Ecc) (w : Word) (k : Nat) :
    let t := retire (selWrite (stage3Read s u ecc w) u w k none) u 3 k
    (uSD w ≠ 21 → regAtCycle (t.unit u).cu (uSD w) (k + uopLatency 3 (uOp w)) = none) ∧ StageDone s t u 3 k ∧
      (t.unit u).cu.pk = (s.unit u).cu.pk ∧ (t.unit u).cu.items = (s.unit u).cu.items ∧
      (t.unit u).cu.flags = (s.unit u).cu.flags ∧ (t.unit u).cu.pocket = (s.unit u).cu.pocket := by
  intro t
  obtain ⟨c, x, b, l, hread⟩ := stage3Read_unit s u ecc w
  by_cases hs : uSD w = 21
  · have ht : t = retire (stage3Read s u ecc w) u 3 k := by
      simp only [t, selWrite, if_pos hs]
    rw [ht, retire_cu]
    exact ⟨fun h => absurd hs h, stageDone_retire 3 k (by rw [hread]) (by rw [hread]), by rw [hread], by rw [hread], by rw [hread],
      by rw [hread]⟩
  · have ht : t = retire ((stage3Read s u ecc w).modCu u fun c =>
        { c with regs := smod [] c.regs (uSD w) fun l => timedPut l k (k + uopLatency 3 (uOp w)) none }) u 3 k := by
      simp only [t, selWrite, if_neg hs]
    rw [ht, retire_cu, unit_modCu_same]
    refine ⟨fun _ => ?_, stageDone_retire 3 k ?_ ?_, by rw [hread], by rw [hread], by rw [hread], by rw [hread]⟩
    · rw [regAtCycle, sget_smod_same, timedGet_timedPut]
    · rw [unit_modCu_same, hread]
    · rw [unit_modCu_same, hread]

/-- A row of stage 3 with an operand that it reads not valid. -/
theorem stage3Row_invalid {c : Fin 9792 → Ecc → Instr} {op lat : Nat} {f : Word → Nat → Vec → Vec → Vec → Fp}
    (hc : ∀ u e s, exec (c u e) s = .next (stage3 s u op e f)) (hop : op ≠ 0) (hl : uopLatency 3 op = lat) {s : State} {u : Fin 9792}
    {e : Ecc} {w : Word} {k : Nat} (h : dueOp s u 3 op = some (w, k)) (hr : stage3Ready (s.unit u).cu w k = true)
    (hn : (selRead (s.unit u).cu (uSA w) (uImm w) k).2 = none ∨ (op < 8 ∧ (selRead (s.unit u).cu (uSB w) (uImm w) k).2 = none) ∨
      (op = 7 ∧ (selRead (s.unit u).cu (uSD w) (uImm w) k).2 = none)) :
    ∃ t, exec (c u e) s = .next t ∧ (uSD w ≠ 21 → regAtCycle (t.unit u).cu (uSD w) (k + lat) = none) ∧ StageDone s t u 3 k ∧
      (t.unit u).cu.pk = (s.unit u).cu.pk ∧ (t.unit u).cu.items = (s.unit u).cu.items ∧
      (t.unit u).cu.flags = (s.unit u).cu.flags ∧ (t.unit u).cu.pocket = (s.unit u).cu.pocket := by
  have hB : op < 8 ∧ (selRead (s.unit u).cu (uSB w) (uImm w) k).2 = none → stage3B (s.unit u).cu op w k = none := fun ⟨h8, hb⟩ => by
    rw [stage3B, if_pos ((uopUsesB_iff hop).2 h8), hb]
  have hD : op = 7 ∧ (selRead (s.unit u).cu (uSD w) (uImm w) k).2 = none → stage3D (s.unit u).cu op w k = none := fun ⟨h7, hd⟩ => by
    rw [stage3D, if_pos h7, hd]
  have heffect := stage3_invalid_effect s u e w k
  rw [dueOp_op h, hl] at heffect
  exact ⟨_, (hc u e s).trans (congrArg _ (stage3_invalid e f h hr (hn.imp_right (Or.imp hB hD)))), heffect⟩

/-- A row of stage 4 with OUT not valid. -/
theorem stage4Row_invalid {c : Fin 9792 → Instr} {op lat : Nat} {f : Word → Fp} (hc : ∀ u s, exec (c u) s = .next (stage4 s u op f))
    (hl : uopLatency 4 op = lat) {s : State} {u : Fin 9792} {w : Word} {k : Nat} (h : dueOp s u 4 op = some (w, k))
    (hv : regAtCycle (s.unit u).cu 22 k = none) :
    ∃ t, exec (c u) s = .next t ∧ regAtCycle (t.unit u).cu regOut4 (k + lat) = none ∧ StageDone s t u 4 k ∧
      (t.unit u).cu.items = (s.unit u).cu.items ∧ (t.unit u).cu.flags = (s.unit u).cu.flags := by
  refine ⟨_, (hc u s).trans (congrArg _ (stage4_invalid f h hv)), ?_, stageDone_putOut4 op k none (.refl s u), ?_⟩
  · rw [← hl]
    exact putOut4_shows s u op k none
  · rw [retire_cu, putOut4, unit_modCu_same]
    exact ⟨rfl, rfl⟩

/-- A push of a stage 5 row whose input is not valid (R84). -/
theorem outPut_invalid_effect {s t : State} {u : Nat} (k : Nat) (l : List (Option Row))
    (ht : ∃ ls sd st b, (t.unit u).cu = { (s.unit u).cu with seeds := ls, seed := sd, step := st, blk := b }) :
    let r := retire (outPut t u k l) u 5 k
    outFor (r.unit u).cu.outq k = some (k, l) ∧ StageDone s r u 5 k ∧ (r.unit u).cu.items = (s.unit u).cu.items ∧
      (r.unit u).cu.flags = (s.unit u).cu.flags := by
  intro r
  obtain ⟨ls, sd, st, b, hcu⟩ := ht
  refine ⟨outFor_outPut t u k l, stageDone_outPut k l (by rw [hcu]) (by rw [hcu]), ?_⟩
  rw [retire_cu, outPut, unit_modCu_same, hcu]
  exact ⟨rfl, rfl⟩

/-- Each row of stage 3 is `stage3` with its number, its latency and a lane function (Table 3-6). -/
theorem stage3Rows_table : ∀ x ∈ ([(.fadd, 1, 3), (.fmul, 2, 3), (.fmin, 3, 1), (.fmax, 4, 1), (.cmplt, 5, 1), (.cmpeq, 6, 1), (.sel, 7, 1),
      (.mov, 8, 1), (.rot, 9, 1), (.bfr, 10, 2), (.scl, 11, 1)] : List ((Fin 9792 → Ecc → Instr) × Nat × Nat)),
    (∃ f, ∀ u e s, exec (x.1 u e) s = .next (stage3 s u x.2.1 e f)) ∧ x.2.1 ≠ 0 ∧ uopLatency 3 x.2.1 = x.2.2 := by
  simp only [List.forall_mem_cons]
  exact ⟨⟨⟨_, fun _ _ _ => rfl⟩, by decide⟩, ⟨⟨_, fun _ _ _ => rfl⟩, by decide⟩, ⟨⟨_, fun _ _ _ => rfl⟩, by decide⟩,
    ⟨⟨_, fun _ _ _ => rfl⟩, by decide⟩, ⟨⟨_, fun _ _ _ => rfl⟩, by decide⟩, ⟨⟨_, fun _ _ _ => rfl⟩, by decide⟩,
    ⟨⟨_, fun _ _ _ => rfl⟩, by decide⟩, ⟨⟨_, fun _ _ _ => rfl⟩, by decide⟩, ⟨⟨_, fun _ _ _ => rfl⟩, by decide⟩,
    ⟨⟨_, fun _ _ _ => rfl⟩, by decide⟩, ⟨⟨_, fun _ _ _ => rfl⟩, by decide⟩, fun _ h => absurd h List.not_mem_nil⟩

/-- Each row of stage 4 is `stage4` with its number, its latency and a function (Table 3-7). -/
theorem stage4Rows_table : ∀ x ∈ ([(.exp, 1, 8), (.exp2, 2, 6), (.log, 3, 8), (.rsqrt, 4, 6), (.rcp, 5, 6), (.tanh, 6, 8), (.sigm, 7, 8),
      (.gelut, 8, 10), (.gelue, 9, 10), (.silu, 10, 10), (.sqrt, 11, 6), (.pass, 16, 1)] : List ((Fin 9792 → Instr) × Nat × Nat)),
    (∃ f, ∀ u s, exec (x.1 u) s = .next (stage4 s u x.2.1 f)) ∧ uopLatency 4 x.2.1 = x.2.2 := by
  simp only [List.forall_mem_cons]
  exact ⟨⟨⟨_, fun _ _ => rfl⟩, rfl⟩, ⟨⟨_, fun _ _ => rfl⟩, rfl⟩, ⟨⟨_, fun _ _ => rfl⟩, rfl⟩, ⟨⟨_, fun _ _ => rfl⟩, rfl⟩,
    ⟨⟨_, fun _ _ => rfl⟩, rfl⟩, ⟨⟨_, fun _ _ => rfl⟩, rfl⟩, ⟨⟨_, fun _ _ => rfl⟩, rfl⟩, ⟨⟨_, fun _ _ => rfl⟩, rfl⟩,
    ⟨⟨_, fun _ _ => rfl⟩, rfl⟩, ⟨⟨_, fun _ _ => rfl⟩, rfl⟩, ⟨⟨_, fun _ _ => rfl⟩, rfl⟩, ⟨⟨_, fun _ _ => rfl⟩, rfl⟩,
    fun _ h => absurd h List.not_mem_nil⟩

/-- Settles O16: each row's branch for operands that are not valid. -/
theorem invalidOperandGivesInvalidResult : Obligations.InvalidOperandGivesInvalidResult := by
  refine ⟨?_, ?_, ?_, ?_, ?_⟩
  · intro s u e w k x hx h hr hn
    obtain ⟨⟨f, hc⟩, hop, hl⟩ := stage3Rows_table x hx
    exact stage3Row_invalid hc hop hl h hr hn
  · intro s u w k x hx h hv
    obtain ⟨⟨f, hc⟩, hl⟩ := stage4Rows_table x hx
    exact stage4Row_invalid hc hl h hv
  · intro s u w k x hx
    revert x
    simp only [List.forall_mem_cons]
    have hsame : ∃ ls sd st b, (s.unit u).cu = { (s.unit u).cu with seeds := ls, seed := sd, step := st, blk := b } := ⟨_, _, _, _, rfl⟩
    refine ⟨fun h hv => ?_, fun h hv => ?_, fun h hv => ?_, fun _ h => absurd h List.not_mem_nil⟩
    · refine ⟨_, exec_qnt_invalid h hv, outPut_invalid_effect k [none] ?_⟩
      rw [unit_modCu_same]
      exact loadSeeds_changes (s.unit u).cu k
    · exact ⟨_, exec_pkb_invalid h hv, outPut_invalid_effect k [none] hsame⟩
    · exact ⟨_, exec_pkf_invalid h hv, outPut_invalid_effect k [none, none] hsame⟩
  · intro s u w k x h hn
    refine ⟨_, exec_dot_invalid x h hn, ?_, stageDone_retire 1 k ?_ ?_, ?_⟩
    · rw [retire_cu, unit_modCu_same, timedGet_timedPut]
    · rw [unit_modCu_same]
    · rw [unit_modCu_same]
    · rw [retire_cu, unit_modCu_same]
      exact ⟨rfl, rfl⟩
  · intro s u w k x h hn
    refine ⟨_, exec_acc_idle x h (.inl hn), ?_, stageDone_retire 2 k rfl rfl, ?_⟩
    · rw [retire_cu]
    · rw [retire_cu]
      exact ⟨rfl, rfl⟩

end Sys2Proof.Machine
end

section
/-! SUPPORT. What filling and reading the rings of the pocket leaves as it was (R89 to R91), and O23. -/

namespace Sys2Proof.Machine

/-- What of a unit, its books aside, the filling and the reading of its rings leaves as it was. -/
def UnitSt.core (x : UnitSt) : UnitSt := { x.work with cu := { x.work.cu with pocket := [], rings := [] } }

/-- From s to t unit u, its books aside, has filled or read its rings and done nothing else of its own. -/
def Filled (s t : State) (u : Nat) : Prop := (t.unit u).core = (s.unit u).core

theorem Filled.refl (s : State) (u : Nat) : Filled s s u := rfl
theorem Filled.trans {s t r : State} {u : Nat} (h : Filled s t u) (h' : Filled t r u) : Filled s r u := Eq.trans h' h
theorem Booked.filled {s t : State} {u : Nat} (h : Booked s t u) : Filled s t u :=
  (congrArg (fun x : UnitSt => { x with cu := { x.cu with pocket := [], rings := [] } }) h.work :)
theorem filled_of_units {s t : State} (u : Nat) (h : t.units = s.units) : Filled s t u := by
  rw [Filled, State.unit, h, ← State.unit]

/-- The compute part of a unit that has filled or read its rings. -/
theorem Filled.cu {s t : State} {u : Nat} (h : Filled s t u) :
    ∃ b w i g p r, (t.unit u).cu = { (s.unit u).cu with banks := b, waiting := w, items := i, flags := g, pocket := p, rings := r } :=
  ⟨_, _, _, _, _, _, congrArg (fun x : UnitSt =>
    { x.cu with banks := (t.unit u).cu.banks, waiting := (t.unit u).cu.waiting, items := (t.unit u).cu.items
                flags := (t.unit u).cu.flags, pocket := (t.unit u).cu.pocket, rings := (t.unit u).cu.rings }) h⟩

/-- Of the compute part only the pocket and its rings have changed. -/
theorem filled_modCu (s : State) (u : Nat) (f : Cu → Cu) (h : ∀ c, { f c with pocket := [], rings := [] } = { c with pocket := [], rings := [] }) :
    Filled s (s.modCu u f) u := by
  rw [Filled, unit_modCu_same]
  exact congrArg (fun c : Cu => { (s.unit u).core with cu := { c with banks := [], waiting := [], items := [], flags := 0 } }) (h (s.unit u).cu)

theorem ringTake_filled (s : State) (u b n : Nat) : Filled s (ringTake s u b n) u := filled_modCu s u _ fun _ => rfl
theorem ringSkip_filled (s : State) (u b n len : Nat) : Filled s (ringSkip s u b n len) u := filled_modCu s u _ fun _ => rfl

theorem popToken_filled (s : State) (lu u p : Nat) : Filled s (popToken s lu u p).2 u := by
  have hdrop : Filled s (dropHead s lu p) u := filled_of_units u rfl
  unfold popToken
  split
  · split
    · dsimp only
      split
      · exact hdrop
      · exact (hdrop.trans (unitFault_booked _ u _ _).filled).trans (filled_of_units u rfl)
    · exact .refl s u
  · exact .refl s u

theorem ringFill_filled (lu u p : Nat) : ∀ n s, Filled s (ringFill s lu u p n) u
  | 0, s => .refl s u
  | n + 1, s => by
    rw [ringFill]
    split
    · next b w hb =>
      dsimp only
      split
      · exact .refl s u
      · have hpop := popToken_filled s lu u p
        split
        · next t s' hs =>
          rw [hs] at hpop
          refine ((hpop.trans (useBanksAt_booked _ u _ _ _).filled).trans (filled_modCu _ u _ ?_)).trans (ringFill_filled lu u p n _)
          exact fun _ => rfl
        · next s' hs =>
          rw [hs] at hpop
          exact hpop.trans (ringFill_filled lu u p n _)
    · exact .refl s u

theorem filled_forEach {α : Type} {u : Nat} {f : State → α → State} (h : ∀ s a, Filled s (f s a) u) (l : List α) (s : State) :
    Filled s (forEach l s f) u := forEach_keeps (fun s : State => (s.unit u).core) f h l s

theorem refill_filled (s : State) (u : Nat) : Filled s (refill s u) u := by
  unfold refill
  split
  · next lu _ => exact filled_forEach (fun s p => ringFill_filled lu u p 16 s) _ s
  · exact .refl s u

theorem releaseKeep_filled (s : State) (u : Nat) : Filled s (releaseKeep s u) u := by
  unfold releaseKeep
  refine filled_forEach (fun s b => ?_) _ s
  split
  · exact filled_modCu s u _ fun _ => rfl
  · exact .refl s u

theorem checkStranded_filled (s : State) (lu u : Nat) : Filled s (checkStranded s lu u) u := by
  unfold checkStranded
  split
  · exact (unitFault_booked s u _ _).filled
  · exact .refl s u

/-! Firings. -/

theorem seedToken_filled (s : State) (lu u : Nat) (b : Nat × BitVec 64) (e : Ecc) : Filled s (seedToken s lu u b e).2 u := by
  unfold seedToken
  split
  · next w _ =>
    have hecc (rows : List Nat) : Filled s (pocketEcc s u e rows) u := (pocketEcc_booked s u e rows).filled
    dsimp only
    split
    · exact (hecc _).trans (ringSkip_filled _ u _ _ _)
    · exact ((hecc _).trans (ringTake_filled _ u _ _)).trans (refill_filled _ u)
  · exact popToken_filled s lu u _

theorem takeSeed_firings (s : State) (lu u : Nat) (e : Ecc) : ((takeSeed s lu u e).unit u).firings = (s.unit u).firings := by
  unfold takeSeed
  dsimp only
  split
  · rfl
  · split
    · next b _ =>
      have hfilled : ((seedToken s lu u b e).2.unit u).firings = (s.unit u).firings :=
        (congrArg UnitSt.firings (seedToken_filled s lu u b e) :)
      split
      · next p s' hs =>
        rw [hs] at hfilled
        rw [unit_modCu_same]
        exact hfilled
      · next s' hs =>
        rw [hs] at hfilled
        exact hfilled
    · rfl

/-- Settles O23: each row writes its registers, and neither the seed nor the rings of a firing are among them. -/
theorem firingRowsComplete : Obligations.FiringRowsComplete := by
  refine ⟨fun s u e lu hl hr hc => ?_, fun s u hr hf hk => ?_, fun s u hr hf hk hd => ?_⟩
  · have he : exec (.unitFire u e) s = .next ((takeSeed s lu u e).modUnit u fun x =>
        { x with firing := true, elasticHold := false
                 cu := { x.cu with entry := 0, rep := 0, loops := [] }
                 mu := { x.mu with ags := [], fireCyc := 0, late := [], holding := false } }) := by
      show execUnitFire u e s = _
      simp only [execUnitFire, hl, hr, hc, Bool.and_self, if_true]
    refine ⟨_, he, ?_⟩
    rw [unit_modUnit_same]
    exact ⟨rfl, rfl, rfl, rfl, takeSeed_firings s lu u e⟩
  · have he : exec (.schedLoop u) s = .next (s.modCu u fun c =>
        let e := (s.unit u).cu.entry
        let w := schedWord (s.unit u).cfg e
        let n := loopTimes c e + 1
        let rest := c.loops.filter fun l => l.1 != e
        if n ≤ schCount w then { c with entry := schTarget w, loops := (e, n) :: rest } else { c with entry := e + 1, loops := rest }) := by
      show execSchedLoop u s = _
      simp only [execSchedLoop, hr, hf, hk, beq_self_eq_true, Bool.and_self, if_true]
    refine ⟨_, he, ?_, ?_, onlyUnit_modUnit s u _⟩
    · rw [unit_modCu_same]
      dsimp only
      split <;> rfl
    · rw [unit_modCu_same]
      dsimp only
      split <;> rfl
  · have hdue : ((s.unit u).cu.due.any fun d => d.stage == 0) = false :=
      List.any_eq_false.2 fun d h => by simp [hd d h]
    let s1 := s.modUnit u fun x => { x with firing := false, firings := x.firings + 1, settled := some (s.zone (physZone u)).sched }
    have hend : ∃ t, exec (.schedEnd u) s = .next t ∧ Filled s1 t u := by
      have hfill : Filled s1 (refill (releaseKeep s1 u) u) u := (releaseKeep_filled s1 u).trans (refill_filled _ u)
      show ∃ t, execSchedEnd u s = _ ∧ _
      simp only [execSchedEnd, hr, hf, hk, hdue, beq_self_eq_true, Bool.and_self, Bool.not_false, if_true]
      refine ⟨_, rfl, ?_⟩
      split
      · exact hfill.trans (checkStranded_filled _ _ u)
      · exact hfill
    obtain ⟨t, he, hfill⟩ := hend
    have hs1 := unit_modUnit_same s u fun x => { x with firing := false, firings := x.firings + 1, settled := some (s.zone (physZone u)).sched }
    refine ⟨t, he, (congrArg UnitSt.firing hfill :).trans ?_, (congrArg UnitSt.firings hfill :).trans ?_⟩
    · exact (congrArg UnitSt.firing hs1 :)
    · exact (congrArg UnitSt.firings hs1 :)

end Sys2Proof.Machine
end

section
/-! SUPPORT. Stage 0: LDV and LDB (R76, R89 to R93), and O21. -/

namespace Sys2Proof.Machine

theorem stage0Reads_booked (s : State) (u : Nat) (rows : List (List Nat)) : Booked s (stage0Reads s u rows) u :=
  booked_forEach (fun s bs => useBanks_booked s u 3 bs) _ s

/-- Filling the rings takes no micro-operation's turn. -/
theorem stageDone_refill {s t : State} {u st k : Nat} (h : StageDone s t u st k) : StageDone s (refill t u) u st k := by
  obtain ⟨b, w, i, g, p, r, hcu⟩ := (refill_filled t u).cu
  rw [StageDone, hcu]
  exact h

/-! LDV. -/

/-- Stage 0's vector v of cycle k, seen two cycles later. -/
def putIn (s : State) (u k : Nat) (v : Vec) : State :=
  s.modCu u fun c => { c with regs := smod [] c.regs 20 fun l => timedPut l k (k + 2) (some v) }

theorem exec_ldv {s : State} {u : Fin 9792} {w : Word} {k : Nat} {b : BitVec 64} (e : Ecc) (h : dueOp s u 0 2 = some (w, k))
    (hb : ringBind (s.unit u) (uWRing w) = some b) (hr : ldvReady (s.unit u) w = true) :
    ∃ s1, Booked s s1 u ∧ exec (.ldv u e) s = .next (refill (retire (ringTake (putIn s1 u k (mkVec fun i =>
      (ldvLane (s.unit u) w b (sget .init (s.unit u).cu.rings (uWRing w)) i).v)) u (uWRing w) (ldvBytes w)) u 0 k) u) := by
  have hv (x : UnitSt) (r : Ring) : (mkVec fun i => (nth ⟨0, 0, 0⟩ ((upto 32).map fun i => ldvLane x w b r i) i).v) =
      mkVec fun i => (ldvLane x w b r i).v := mkVec_congr fun i hi => by rw [nth_map_upto _ _ _ _ hi]
  show ∃ s1, _ ∧ execLdv u e s = _
  simp only [execLdv, h, hb, hr, Bool.not_true, Bool.false_eq_true, if_false, hv]
  refine ⟨_, ?_, rfl⟩
  exact ((stage0Reads_booked s u _).trans (pocketEcc_booked _ u e _)).trans (countFp_booked _ u _ _)

/-! LDB. -/

/-- The weight operands that an LDB takes (R55 to R59, R90). -/
def weightOps (x : UnitSt) (op : Word) (b : BitVec 64) : List LaneOp :=
  let r := sget Ring.init x.cu.rings (uWRing op)
  (upto 32).map fun l =>
    let f := if cuFine x.cfg then fineOf (recHead x b r (recAt x r l)) else (1, 0, 0)
    ⟨(upto (ldbBlocks x.cfg)).map fun j => (weightBlk x b r l (x.cu.wBlock + j) (nth [] (ldbOuts x op b r) l)).blk, f.1, f.2.1⟩
/-- The activation operands that an LDB takes (R60, R91). -/
def actOps (x : UnitSt) (op : Word) (b : BitVec 64) : List LaneOp :=
  let r := sget Ring.init x.cu.rings (uARing op)
  (upto 32).map fun l =>
    ⟨(upto (ldbBlocks x.cfg)).map fun j => (actBlk x b r r.rdByte ((if isMx (cuAfmt x.cfg) then r.half else 0) +
      (if uLdbPer op then ldbBlocks x.cfg * l + j else j))).blk, 1, 0⟩

/-- The lanes' operands, formed block by block and then gathered. -/
theorem weightOps_gathered (x : UnitSt) (op : Word) (b : BitVec 64) :
    let r := sget Ring.init x.cu.rings (uWRing op)
    ((upto 32).map fun l =>
      (⟨(nth [] ((upto 32).map fun l => (upto (ldbBlocks x.cfg)).map fun j =>
            weightBlk x b r l (x.cu.wBlock + j) (nth [] (ldbOuts x op b r) l)) l).map BlkIn.blk,
        (nth (1, 0, 0) ((upto 32).map fun l => if cuFine x.cfg then fineOf (recHead x b r (recAt x r l)) else (1, 0, 0)) l).1,
        (nth (1, 0, 0) ((upto 32).map fun l => if cuFine x.cfg then fineOf (recHead x b r (recAt x r l)) else (1, 0, 0)) l).2.1⟩ : LaneOp)) =
      weightOps x op b := by
  intro r
  unfold weightOps
  refine List.map_congr_left fun l hl => ?_
  have hl : l < 32 := List.mem_range.1 hl
  rw [nth_map_upto _ _ _ _ hl, nth_map_upto _ _ _ _ hl, List.map_map]
  rfl

/-- From s to t unit u has only moved the read positions of rings among l. -/
def ReadsRings (s t : State) (u : Nat) (l : List Nat) : Prop :=
  ∃ rings, (∀ i, i ∉ l → sget Ring.init rings i = sget .init (s.unit u).cu.rings i) ∧
    t.unit u = { s.unit u with cu := { (s.unit u).cu with rings := rings } }

theorem ReadsRings.refl (s : State) (u : Nat) (l : List Nat) : ReadsRings s s u l := ⟨_, fun _ _ => rfl, rfl⟩
theorem ReadsRings.trans {s t r : State} {u : Nat} {l : List Nat} (h : ReadsRings s t u l) (h' : ReadsRings t r u l) : ReadsRings s r u l := by
  obtain ⟨rings, hr, ht⟩ := h
  obtain ⟨rings', hr', ht'⟩ := h'
  refine ⟨rings', fun i hi => ?_, by rw [ht', ht]⟩
  rw [hr' i hi, ht]
  exact hr i hi
theorem ringTake_reads (s : State) (u n : Nat) {b : Nat} {l : List Nat} (hb : b ∈ l) : ReadsRings s (ringTake s u b n) u l :=
  ⟨_, fun _ hi => sget_smod_other _ _ _ _ _ (ne_of_mem_of_not_mem hb hi).symm, unit_modCu_same s u _⟩
theorem ringSkip_reads (s : State) (u n len : Nat) {b : Nat} {l : List Nat} (hb : b ∈ l) : ReadsRings s (ringSkip s u b n len) u l :=
  ⟨_, fun _ hi => sget_smod_other _ _ _ _ _ (ne_of_mem_of_not_mem hb hi).symm, unit_modCu_same s u _⟩

/-- Weight operands of cycle k, seen two cycles later. -/
def putWeights (s : State) (u k : Nat) (ops : List LaneOp) (outs : List (List (Nat × Nat × Word))) (blk : Nat) : State :=
  s.modCu u fun c => { c with wOp := timedPut c.wOp k (k + 2) (some ops), outs := outs, wBlock := blk }
/-- Activation operands of cycle k, seen two cycles later; a half of an MX block may be left (R91). -/
def putActs (s : State) (u k ring half : Nat) (ops : List LaneOp) : State :=
  s.modCu u fun c =>
    { c with aOp := timedPut c.aOp k (k + 2) (some ops), rings := smod .init c.rings ring fun r => { r with half := half } }

/-- The weight side of an LDB puts its operands, and then reads on in its rings. -/
theorem ldbWeights_puts (s : State) (u : Nat) {op : Word} (k : Nat) {b : BitVec 64} (h : ringBind (s.unit u) (uWRing op) = some b) :
    ∃ s1 outs, Booked s s1 u ∧
      ReadsRings (putWeights s1 u k (weightOps (s.unit u) op b) outs (((s.unit u).cu.wBlock + ldbBlocks (s.unit u).cfg) % 8))
        (ldbWeights s u op k) u [uWRing op, uORing op] := by
  unfold ldbWeights
  simp only [h, weightOps_gathered]
  split
  · exact ⟨_, _, countFp_booked s u _ _, .refl _ u _⟩
  · split
    · exact ⟨_, _, countFp_booked s u _ _, ringTake_reads _ u _ (by simp)⟩
    · exact ⟨_, _, countFp_booked s u _ _, (ringTake_reads _ u _ (by simp)).trans (ringTake_reads _ u _ (by simp))⟩

/-- The blocks that an LDB takes hold each lane's operands. -/
theorem actOps_gathered (x : UnitSt) (op : Word) (b : BitVec 64) :
    let r := sget Ring.init x.cu.rings (uARing op)
    let h := if isMx (cuAfmt x.cfg) then r.half else 0
    ((upto 32).map fun l => (⟨(upto (ldbBlocks x.cfg)).map fun j => (nth ⟨⟨[], 0, []⟩, 0, 0⟩
        ((upto (actCount x.cfg (uLdbPer op))).map fun i => actBlk x b r r.rdByte (h + i))
        (if uLdbPer op then ldbBlocks x.cfg * l + j else j)).blk, 1, 0⟩ : LaneOp)) = actOps x op b := by
  intro r h
  unfold actOps
  refine List.map_congr_left fun l hl => congrArg (LaneOp.mk · 1 0) (List.map_congr_left fun j hj => ?_)
  have hl : l < 32 := List.mem_range.1 hl
  have hj : j < ldbBlocks x.cfg := List.mem_range.1 hj
  have hi : (if uLdbPer op then ldbBlocks x.cfg * l + j else j) < actCount x.cfg (uLdbPer op) := by
    unfold actCount
    split
    · calc ldbBlocks x.cfg * l + j < ldbBlocks x.cfg * (l + 1) := by rw [Nat.mul_succ]; omega
        _ ≤ ldbBlocks x.cfg * 32 := Nat.mul_le_mul_left _ hl
    · omega
  rw [nth_map_upto _ _ _ _ hi]

/-- The activation side of an LDB puts its operands, and then reads on in its ring. -/
theorem ldbActs_puts (s : State) (u : Nat) {op : Word} (k : Nat) {b : BitVec 64} (h : ringBind (s.unit u) (uARing op) = some b) :
    ∃ s1 half, Booked s s1 u ∧ ReadsRings (putActs s1 u k (uARing op) half (actOps (s.unit u) op b)) (ldbActs s u op k) u [uARing op] := by
  unfold ldbActs
  simp only [h, actOps_gathered]
  split
  · exact ⟨_, _, countFp_booked s u _ _, ringSkip_reads _ u _ _ (by simp)⟩
  · exact ⟨_, _, countFp_booked s u _ _, ringTake_reads _ u _ (by simp)⟩

/-- An LDB that is ready has the rings that it reads. -/
theorem ldbReady_rings {x : UnitSt} {op : Word} (h : ldbReady x op = true) :
    (uLdbW op = true → ∃ b, ringBind x (uWRing op) = some b) ∧ (uLdbA op = true → ∃ b, ringBind x (uARing op) = some b) := by
  simp only [ldbReady, ldbLacks, List.isEmpty_iff, List.append_eq_nil_iff] at h
  obtain ⟨hw, ha⟩ := h
  refine ⟨fun hW => ?_, fun hA => ?_⟩
  · rcases hb : ringBind x (uWRing op) with _ | b
    · simp [hW, hb] at hw
    · exact ⟨b, rfl⟩
  · rcases hb : ringBind x (uARing op) with _ | b
    · simp [hA, hb] at ha
    · exact ⟨b, rfl⟩

/-! Bookkeeping leaves what an LDB's operands are read from as it was. -/

theorem outRecs_work (x : UnitSt) (w : BitVec 64) (r : Ring) : ∀ ls o, outRecs x.work w r ls o = outRecs x w r ls o
  | [], _ => rfl
  | l :: ls, o => by
    rw [outRecs, outRecs, outRecs_work x w r ls]
    rfl
theorem weightOps_work (x : UnitSt) (op : Word) (b : BitVec 64) : weightOps x.work op b = weightOps x op b := by
  unfold weightOps ldbOuts
  simp only [outRecs_work]
  rfl
theorem weightOps_booked {s t : State} {u : Nat} (h : Booked s t u) (op : Word) (b : BitVec 64) :
    weightOps (t.unit u) op b = weightOps (s.unit u) op b := by
  rw [← weightOps_work, h.work, weightOps_work]

/-- Activation operands come from the configuration, the pocket and their ring. -/
theorem actOps_congr {x y : UnitSt} {op : Word} (hc : y.cfg = x.cfg) (hp : y.cu.pocket = x.cu.pocket)
    (hr : sget Ring.init y.cu.rings (uARing op) = sget .init x.cu.rings (uARing op)) (b : BitVec 64) : actOps y op b = actOps x op b := by
  unfold actOps actBlk ringNat ringByte
  rw [hc, hp, hr]

/-- What of unit u either side of an LDB leaves as it was. -/
structure Stage0Keeps (s t : State) (u : Nat) : Prop where
  cfg : (t.unit u).cfg = (s.unit u).cfg
  loaded : (t.unit u).loaded = (s.unit u).loaded
  pocket : (t.unit u).cu.pocket = (s.unit u).cu.pocket
  pcs : (t.unit u).cu.pcs = (s.unit u).cu.pcs
  due : (t.unit u).cu.due = (s.unit u).cu.due

theorem Stage0Keeps.trans {s t r : State} {u : Nat} (h : Stage0Keeps s t u) (h' : Stage0Keeps t r u) : Stage0Keeps s r u :=
  ⟨h'.cfg.trans h.cfg, h'.loaded.trans h.loaded, h'.pocket.trans h.pocket, h'.pcs.trans h.pcs, h'.due.trans h.due⟩
theorem Booked.stage0Keeps {s t : State} {u : Nat} (h : Booked s t u) : Stage0Keeps s t u :=
  ⟨(congrArg UnitSt.cfg h.work :), (congrArg UnitSt.loaded h.work :), (congrArg (fun x => x.cu.pocket) h.work :),
    (congrArg (fun x => x.cu.pcs) h.work :), (congrArg (fun x => x.cu.due) h.work :)⟩
theorem ReadsRings.stage0Keeps {s t : State} {u : Nat} {l : List Nat} (h : ReadsRings s t u l) : Stage0Keeps s t u := by
  obtain ⟨rings, -, ht⟩ := h
  exact ⟨by rw [ht], by rw [ht], by rw [ht], by rw [ht], by rw [ht]⟩
theorem Stage0Keeps.ringBind {s t : State} {u : Nat} (h : Stage0Keeps s t u) (b : Nat) : ringBind (t.unit u) b = ringBind (s.unit u) b := by
  rw [Machine.ringBind, h.cfg, h.loaded, ← Machine.ringBind]

/-- The weight side of an LDB that takes weights or not. -/
def ldbW (s : State) (u : Nat) (op : Word) (k : Nat) : State := if uLdbW op then ldbWeights s u op k else s
/-- The activation side of an LDB that takes activations or not. -/
def ldbA (s : State) (u : Nat) (op : Word) (k : Nat) : State := if uLdbA op then ldbActs s u op k else s

theorem ldbW_idle (s : State) (u k : Nat) {op : Word} (h : uLdbW op = false) : ldbW s u op k = s := by
  rw [ldbW, h]
  rfl
theorem ldbA_idle (s : State) (u k : Nat) {op : Word} (h : uLdbA op = false) : ldbA s u op k = s := by
  rw [ldbA, h]
  rfl

theorem ldbW_keeps (s : State) (u k : Nat) {op : Word} (h : uLdbW op = true → ∃ b, ringBind (s.unit u) (uWRing op) = some b) :
    Stage0Keeps s (ldbW s u op k) u ∧ ((ldbW s u op k).unit u).cu.aOp = (s.unit u).cu.aOp ∧
      (uLdbW op = false ∨ (uWRing op ≠ uARing op ∧ uORing op ≠ uARing op) →
        sget Ring.init ((ldbW s u op k).unit u).cu.rings (uARing op) = sget .init (s.unit u).cu.rings (uARing op)) := by
  rcases hW : uLdbW op with _ | _
  · rw [ldbW_idle s u k hW]
    exact ⟨(Booked.refl s u).stage0Keeps, rfl, fun _ => rfl⟩
  · obtain ⟨b, hb⟩ := h hW
    obtain ⟨s1, outs, hbk, hread⟩ := ldbWeights_puts s u k hb
    rw [ldbW, if_pos hW]
    have hput : Stage0Keeps s1 (putWeights s1 u k (weightOps (s.unit u) op b) outs (((s.unit u).cu.wBlock + ldbBlocks (s.unit u).cfg) % 8)) u := by
      constructor <;> rw [putWeights, unit_modCu_same]
    refine ⟨(hbk.stage0Keeps.trans hput).trans hread.stage0Keeps, ?_, fun hne => ?_⟩
    · obtain ⟨rings, -, ht⟩ := hread
      rw [ht, putWeights, unit_modCu_same]
      exact (congrArg (fun x => x.cu.aOp) hbk.work :)
    · obtain ⟨hwa, hoa⟩ := hne.resolve_left (by simp)
      obtain ⟨rings, hr, ht⟩ := hread
      rw [ht]
      refine (hr _ ?_).trans ?_
      · simp [hwa.symm, hoa.symm]
      · rw [putWeights, unit_modCu_same]
        exact (congrArg (fun x => sget Ring.init x.cu.rings (uARing op)) hbk.work :)

theorem ldbW_puts (s : State) (u k : Nat) {op : Word} {b : BitVec 64} (hW : uLdbW op = true) (h : ringBind (s.unit u) (uWRing op) = some b) :
    timedGet none ((ldbW s u op k).unit u).cu.wOp (k + 2) = some (weightOps (s.unit u) op b) ∧
      ((ldbW s u op k).unit u).cu.wBlock = ((s.unit u).cu.wBlock + ldbBlocks (s.unit u).cfg) % 8 := by
  obtain ⟨s1, outs, hbk, rings, -, ht⟩ := ldbWeights_puts s u k h
  rw [ldbW, if_pos hW, ht, putWeights, unit_modCu_same]
  exact ⟨timedGet_timedPut _ _ _ _ _, rfl⟩

theorem ldbA_keeps (s : State) (u k : Nat) {op : Word} (h : uLdbA op = true → ∃ b, ringBind (s.unit u) (uARing op) = some b) :
    Stage0Keeps s (ldbA s u op k) u ∧ ((ldbA s u op k).unit u).cu.wOp = (s.unit u).cu.wOp ∧
      ((ldbA s u op k).unit u).cu.wBlock = (s.unit u).cu.wBlock := by
  rcases hA : uLdbA op with _ | _
  · rw [ldbA_idle s u k hA]
    exact ⟨(Booked.refl s u).stage0Keeps, rfl, rfl⟩
  · obtain ⟨b, hb⟩ := h hA
    obtain ⟨s1, half, hbk, hread⟩ := ldbActs_puts s u k hb
    rw [ldbA, if_pos hA]
    have hput : Stage0Keeps s1 (putActs s1 u k (uARing op) half (actOps (s.unit u) op b)) u := by
      constructor <;> rw [putActs, unit_modCu_same]
    refine ⟨(hbk.stage0Keeps.trans hput).trans hread.stage0Keeps, ?_⟩
    obtain ⟨rings, -, ht⟩ := hread
    rw [ht, putActs, unit_modCu_same]
    exact ⟨(congrArg (fun x => x.cu.wOp) hbk.work :), (congrArg (fun x => x.cu.wBlock) hbk.work :)⟩

theorem ldbA_puts (s : State) (u k : Nat) {op : Word} {b : BitVec 64} (hA : uLdbA op = true) (h : ringBind (s.unit u) (uARing op) = some b) :
    timedGet none ((ldbA s u op k).unit u).cu.aOp (k + 2) = some (actOps (s.unit u) op b) := by
  obtain ⟨s1, half, hbk, rings, -, ht⟩ := ldbActs_puts s u k h
  rw [ldbA, if_pos hA, ht, putActs, unit_modCu_same]
  exact timedGet_timedPut _ _ _ _ _

/-- An LDB reads the pocket, takes weights, takes activations, retires and fills its rings again. -/
theorem exec_ldb {s : State} {u : Fin 9792} {w : Word} {k : Nat} (e : Ecc) (h : dueOp s u 0 1 = some (w, k))
    (hr : ldbReady (s.unit u) w = true) :
    ∃ s1, Booked s s1 u ∧ exec (.ldb u e) s = .next (refill (retire (ldbA (ldbW s1 u w k) u w k) u 0 k) u) := by
  show ∃ s1, _ ∧ execLdb u e s = _
  simp only [execLdb, h, hr, Bool.not_true, Bool.false_eq_true, if_false]
  exact ⟨_, (stage0Reads_booked s u _).trans (pocketEcc_booked _ u e _), rfl⟩

/-- A micro-operation of stage 0 that retires, and the rings' filling after it, leave the stage's registers. -/
theorem stage0_done (t : State) (u k : Nat) :
    let r := refill (retire t u 0 k) u
    (r.unit u).cu.regs = (t.unit u).cu.regs ∧ (r.unit u).cu.wOp = (t.unit u).cu.wOp ∧ (r.unit u).cu.aOp = (t.unit u).cu.aOp ∧
      (r.unit u).cu.wBlock = (t.unit u).cu.wBlock := by
  intro r
  obtain ⟨b, w, i, g, p, rings, hcu⟩ := (refill_filled (retire t u 0 k) u).cu
  rw [hcu, retire_cu]
  exact ⟨rfl, rfl, rfl, rfl⟩

/-- IN shows what an LDV reads two cycles later (R76). -/
theorem ldv_completes {s : State} {u : Fin 9792} (e : Ecc) {w : Word} {k : Nat} {b : BitVec 64} (h : dueOp s u 0 2 = some (w, k))
    (hb : ringBind (s.unit u) (uWRing w) = some b) (hr : ldvReady (s.unit u) w = true) :
    ∃ t, exec (.ldv u e) s = .next t ∧ regAtCycle (t.unit u).cu 20 (k + 2) =
      some (mkVec fun i => (ldvLane (s.unit u) w b (sget .init (s.unit u).cu.rings (uWRing w)) i).v) ∧ StageDone s t u 0 k := by
  obtain ⟨s1, hbk, he⟩ := exec_ldv e h hb hr
  generalize (mkVec fun i => (ldvLane (s.unit u) w b (sget .init (s.unit u).cu.rings (uWRing w)) i).v) = v at he ⊢
  obtain ⟨rings, -, htake⟩ := ringTake_reads (putIn s1 u k v) u (ldvBytes w) (List.mem_singleton_self (uWRing w))
  rw [putIn, unit_modCu_same] at htake
  refine ⟨_, he, ?_, stageDone_refill (stageDone_retire 0 k ?_ ?_)⟩
  · rw [regAtCycle, (stage0_done _ u k).1, putIn, htake]
    dsimp only
    rw [sget_smod_same, timedGet_timedPut]
  · exact (congrArg (fun x => x.cu.pcs) htake :).trans hbk.stage0Keeps.pcs
  · exact (congrArg (fun x => x.cu.due) htake :).trans hbk.stage0Keeps.due

/-- The lane of an LDV, case by case (Table 2-14). -/
theorem ldvLane_v (x : UnitSt) (w : Word) (b : BitVec 64) (r : Ring) (i : Nat) : (ldvLane x w b r i).v =
    if uLdvBf16 w then
      if fpIsInf (BitVec.ofNat 32 (ringNat x b r (r.rdByte + 2 * i) 2 * 65536)) then
        (if fpSign (BitVec.ofNat 32 (ringNat x b r (r.rdByte + 2 * i) 2 * 65536)) then 0xFF7F0000 else 0x7F7F0000)
      else (fpIn (BitVec.ofNat 32 (ringNat x b r (r.rdByte + 2 * i) 2 * 65536))).v
    else (fpIn (BitVec.ofNat 32 (ringNat x b r (r.rdByte + 4 * i) 4))).v := by
  simp only [ldvLane]
  split
  · split <;> rfl
  · rfl

/-- Settles O21: both sides of an LDB put the operands that the rings hold as the operation starts. -/
theorem stage0RowsComplete : Obligations.Stage0RowsComplete := by
  refine ⟨fun s u e w k b h hb hr => ?_, fun s u e w k h hr => ?_⟩
  · obtain ⟨t, he, hreg, hdone⟩ := ldv_completes e h hb hr
    simp only [ldvLane_v] at hreg
    exact ⟨t, he, hreg, hdone⟩
  · obtain ⟨hWr, hAr⟩ := ldbReady_rings hr
    obtain ⟨s1, hbk, he⟩ := exec_ldb e h hr
    have hk1 := hbk.stage0Keeps
    obtain ⟨hkW, haOp, hring⟩ := ldbW_keeps s1 u k (op := w) fun hW => by rw [hk1.ringBind]; exact hWr hW
    have hk2 := hk1.trans hkW
    obtain ⟨hkA, hwOp, hwBlock⟩ := ldbA_keeps (ldbW s1 u w k) u k (op := w) fun hA => by rw [hk2.ringBind]; exact hAr hA
    have hk3 := hk2.trans hkA
    obtain ⟨-, hW', hA', hB'⟩ := stage0_done (ldbA (ldbW s1 u w k) u w k) u k
    have hput (b : BitVec 64) (hW : uLdbW w = true) (hb : ringBind (s.unit u) (uWRing w) = some b) :=
      ldbW_puts s1 u k hW ((hk1.ringBind _).trans hb)
    refine ⟨_, he, stageDone_refill (stageDone_retire 0 k hk3.pcs hk3.due), fun hW => ?_, fun b hW hb => ?_, fun b hA hb hne => ?_,
      fun hW => ?_, fun hA => ?_, fun hA => ?_⟩
    · obtain ⟨b, hb⟩ := hWr hW
      obtain ⟨hops, hblk⟩ := hput b hW hb
      rw [hW', hwOp, hops, hB', hwBlock, hblk, hk1.cfg]
      exact ⟨rfl, congrArg (fun n => (n + ldbBlocks (s.unit u).cfg) % 8) (congrArg (fun x => x.cu.wBlock) hbk.work :)⟩
    · rw [hW', hwOp, (hput b hW hb).1, weightOps_booked hbk]
      rfl
    · rw [hA', ldbA_puts _ u k hA ((hk2.ringBind _).trans hb)]
      exact congrArg some (actOps_congr hk2.cfg hk2.pocket ((hring hne).trans
        (congrArg (fun x => sget Ring.init x.cu.rings (uARing w)) hbk.work :)) b)
    · rw [hW', hwOp, hB', hwBlock, ldbW_idle s1 u k hW]
      exact ⟨(congrArg (fun x => x.cu.wOp) hbk.work :), (congrArg (fun x => x.cu.wBlock) hbk.work :)⟩
    · obtain ⟨b, hb⟩ := hAr hA
      rw [hA', ldbA_puts _ u k hA ((hk2.ringBind _).trans hb)]
      rfl
    · rw [hA', ldbA_idle _ u k hA, haOp]
      exact (congrArg (fun x => x.cu.aOp) hbk.work :)

end Sys2Proof.Machine
end

section
/-! SUPPORT. The schedule cycle (R86, R87, R107, R108, R110, R303), and O15, O24. -/

namespace Sys2Proof.Machine

/-! The pocket's accesses of a cycle. -/

/-- Of the accesses kept those of the open cycles stay; where no other is kept, none is deferred (R87). -/
theorem closeBanks_cu (s : State) (u : Nat) (o : List Nat) :
    ∃ d, ((∀ a ∈ (s.unit u).cu.banks, a.1 ∈ o) → d = []) ∧ ((closeBanks s u o).unit u).cu =
      { (s.unit u).cu with banks := (s.unit u).cu.banks.filter fun a => o.contains a.1, waiting := (s.unit u).cu.waiting ++ d } := by
  unfold closeBanks
  extract_lets c past d wait s1
  have hcu : ((forEach d s1 fun s _ => bump s u itBank).unit u).cu = (s1.unit u).cu :=
    forEach_keeps (fun s : State => (s.unit u).cu) _ (fun s _ => by rw [bump, unit_modUnit_same]) d s1
  have hd : (∀ a ∈ c.banks, a.1 ∈ o) → d = [] := fun h => by
    have hpast : past = [] := List.filter_eq_nil_iff.2 fun t ht => by
      obtain ⟨a, ha, rfl⟩ := List.mem_map.1 (List.mem_dedup.1 ht)
      simp [h a ha]
    simp only [d, hpast, List.flatMap_nil]
  refine ⟨if wait then d else [], fun h => by rw [hd h, ite_self], ?_⟩
  rw [hcu, unit_modCu_same]
  cases wait <;> simp [c]

theorem bump_ctr (s : State) (u i j : Nat) :
    sget 0 ((bump s u i).unit u).ctr j = if j = i then satInc (sget 0 (s.unit u).ctr j) else sget 0 (s.unit u).ctr j := by
  rw [bump, unit_modUnit_same]
  split
  · next h => rw [h, sget_smod_same]
  · next h => exact sget_smod_other 0 (s.unit u).ctr i satInc j h

/-- Accounting the pocket's accesses counts nothing but BANK_STALL. -/
theorem closeBanks_ctr (s : State) (u : Nat) (o : List Nat) {i : Nat} (h : i ≠ itBank) :
    sget 0 ((closeBanks s u o).unit u).ctr i = sget 0 (s.unit u).ctr i := by
  unfold closeBanks
  extract_lets c past d wait s1
  have hctr : sget 0 ((forEach d s1 fun s _ => bump s u itBank).unit u).ctr i = sget 0 (s1.unit u).ctr i :=
    forEach_keeps (fun s : State => sget 0 (s.unit u).ctr i) _ (fun s _ => by rw [bump_ctr, if_neg h]) d s1
  rw [hctr, unit_modCu_same]

/-! A cycle held. -/

theorem bumps_ctr_other (u j : Nat) {l : List Nat} (s : State) (h : j ∉ l) :
    sget 0 ((forEach l s fun s i => bump s u i).unit u).ctr j = sget 0 (s.unit u).ctr j := by
  induction l generalizing s with
  | nil => rfl
  | cons i l ih =>
    obtain ⟨hi, hl⟩ := not_or.1 (mt List.mem_cons.2 h)
    exact (ih (bump s u i) hl).trans (by rw [bump_ctr, if_neg hi])

theorem bumps_ctr (u j : Nat) {l : List Nat} (s : State) (hn : l.Nodup) (h : j ∈ l) :
    sget 0 ((forEach l s fun s i => bump s u i).unit u).ctr j = satInc (sget 0 (s.unit u).ctr j) := by
  induction l generalizing s with
  | nil => exact absurd h List.not_mem_nil
  | cons i l ih =>
    obtain ⟨hi, hl⟩ := List.nodup_cons.1 hn
    rcases List.mem_cons.1 h with rfl | hj
    · exact (bumps_ctr_other u j (bump s u j) hi).trans (by rw [bump_ctr, if_pos rfl])
    · exact (ih (bump s u i) hl hj).trans (by rw [bump_ctr, if_neg (ne_of_mem_of_not_mem hj hi)])

theorem holdItems_nodup (pops pushes : List (BitVec 64)) : (holdItems pops pushes).Nodup := by
  unfold holdItems
  split <;> split <;> split <;> decide

@[simp] theorem heldCycle_cyc (c : Cu) : (heldCycle c).cyc = c.cyc := rfl
@[simp] theorem heldCycle_entry (c : Cu) : (heldCycle c).entry = c.entry := rfl

theorem holdCycle_cu (s : State) (u : Nat) (is : List Nat) (ext : Bool) : ((holdCycle s u is ext).unit u).cu = heldCycle (s.unit u).cu := by
  have hcu : ((forEach is s fun s i => bump s u i).unit u).cu = (s.unit u).cu :=
    forEach_keeps (fun s : State => (s.unit u).cu) _ (fun s _ => by rw [bump, unit_modUnit_same]) is s
  rw [holdCycle, unit_modUnit_same, hcu]

/-- A cycle held counts once in each counter that it names. -/
theorem holdCycle_ctr (s : State) (u : Nat) {is : List Nat} (ext : Bool) {i : Nat} (hn : is.Nodup) (hi : i ∈ is) :
    sget 0 ((holdCycle s u is ext).unit u).ctr i = satInc (sget 0 (s.unit u).ctr i) := by
  rw [holdCycle, unit_modUnit_same]
  exact bumps_ctr u i s hn hi

/-! The cycle of a unit that is free. -/

/-- A STEP is at hand. -/
def atStep (x : UnitSt) : Bool := x.firing && schKind (schedWord x.cfg x.cu.entry) == 0
/-- The inputs that the STEP at hand lacks a token of (R110). -/
def stepLacks (s : State) (lu : Nat) (x : UnitSt) : List (BitVec 64) :=
  if atStep x then popLacks s lu x (schedWord x.cfg x.cu.entry) else []
/-- Unit u has accounted its accesses and taken the zone's cycle. -/
def taken (s : State) (u : Nat) : State := takeCycle (closeBanks s u [(s.zone (physZone u)).sched]) u

theorem stepLacks_booked {s t : State} {u : Nat} (h : Booked s t u) (r : State) (lu : Nat) :
    stepLacks r lu (t.unit u) = stepLacks r lu (s.unit u) := (congrArg (fun x => stepLacks r lu x) h.work :)
theorem pushLacks_booked {s t : State} {u : Nat} (h : Booked s t u) (r : State) (lu : Nat) :
    pushLacks r lu (t.unit u) = pushLacks r lu (s.unit u) := (congrArg (fun x => pushLacks r lu x) h.work :)

section
variable {s : State} {u : Fin 9792} {lu : Nat} (h : CycleFree s u lu)
include h

/-- A free unit that lacks a token or a credit is held for the cycle (R110). -/
theorem schedStep_holds (hl : stepLacks s lu (s.unit u) ≠ [] ∨ pushLacks s lu (s.unit u) ≠ []) :
    ∃ ext, exec (.schedStep u) s =
      .next (holdCycle (taken s u) u (holdItems (stepLacks s lu (s.unit u)) (pushLacks s lu (s.unit u))) ext) := by
  obtain ⟨hlog, hrun, hload, hslot, hopen, hwait, hfree⟩ := h
  have hb := closeBanks_booked s u [(s.zone (physZone u)).sched]
  rw [← stepLacks_booked hb, ← pushLacks_booked hb] at hl ⊢
  show ∃ ext, execSchedStep u s = _
  unfold execSchedStep taken
  generalize closeBanks s u [(s.zone (physZone u)).sched] = r at hwait hb hl ⊢
  have hfree' : cycleFree (r.unit u) = true := (congrArg cycleFree hb.work :).trans hfree
  have hlack : (!((stepLacks s lu (r.unit u)).isEmpty && (pushLacks s lu (r.unit u)).isEmpty)) = true := by
    simpa [imp_iff_not_or] using hl
  simp only [hlog, hrun, hload, hslot, hopen, hwait, hfree', Bool.not_true, Bool.or_false, Bool.false_eq_true, if_false, List.isEmpty_nil]
  exact ⟨_, congrArg Host.Outcome.next (if_pos hlack)⟩

/-- A free unit with no push that waits, at a STEP that lacks no token or past its firing's end, runs the cycle (R107, R108). -/
theorem schedStep_runs (hp : (s.unit u).cu.pushes = []) (hl : stepLacks s lu (s.unit u) = [])
    (hf : (s.unit u).firing = true → atStep (s.unit u) = true) :
    exec (.schedStep u) s = .next (nextCycle (if atStep (s.unit u) then
      issueStep (doPops (taken s u) lu u (schedWord (s.unit u).cfg (s.unit u).cu.entry)) u (schedWord (s.unit u).cfg (s.unit u).cu.entry)
      else taken s u) u) := by
  obtain ⟨hlog, hrun, hload, hslot, hopen, hwait, hfree⟩ := h
  have hb := closeBanks_booked s u [(s.zone (physZone u)).sched]
  show execSchedStep u s = _
  unfold execSchedStep taken
  generalize closeBanks s u [(s.zone (physZone u)).sched] = r at hwait hb ⊢
  have hfree' : cycleFree (r.unit u) = true := (congrArg cycleFree hb.work :).trans hfree
  have hpush : (r.unit u).cu.pushes = [] := (congrArg (fun x => x.cu.pushes) hb.work :).trans hp
  have hword : schedWord (r.unit u).cfg (r.unit u).cu.entry = schedWord (s.unit u).cfg (s.unit u).cu.entry :=
    (congrArg (fun x => schedWord x.cfg x.cu.entry) hb.work :)
  have hstep : atStep (r.unit u) = atStep (s.unit u) := (congrArg atStep hb.work :)
  have hfire : (r.unit u).firing = (s.unit u).firing := (congrArg UnitSt.firing hb.work :)
  have hnone : ¬ (!((stepLacks s lu (r.unit u)).isEmpty && (pushLacks s lu (r.unit u)).isEmpty)) = true := by
    simp [stepLacks_booked hb, hl, pushLacks, hpush]
  have hgo : ¬ ((r.unit u).firing && !atStep (r.unit u)) = true := by
    rw [hfire, hstep]
    simpa using hf
  have hnow : pushesNow s lu (r.unit u) = [] := by
    rw [pushesNow, hpush]
    rfl
  simp only [hlog, hrun, hload, hslot, hopen, hwait, hfree', Bool.not_true, Bool.or_false, Bool.false_eq_true, if_false, List.isEmpty_nil]
  rw [← hstep, ← hword]
  refine congrArg Host.Outcome.next ((if_neg hnone).trans ((if_neg hgo).trans ?_))
  rw [hnow]
  rfl

end

/-! The state after the cycle is taken, after a STEP is issued, after the cycle count moves on. -/

theorem taken_only (s : State) (u : Nat) : OnlyUnit s (taken s u) u :=
  onlyUnit_trans (closeBanks_booked s u _).only (onlyUnit_modUnit _ u _)

theorem taken_cfg (s : State) (u : Nat) : ((taken s u).unit u).cfg = (s.unit u).cfg := by
  rw [taken, takeCycle, unit_modCu_same]
  exact (congrArg UnitSt.cfg (closeBanks_booked s u _).work :)

/-- The compute part of a unit that has taken the zone's cycle: only accesses of that cycle are still kept. -/
theorem taken_cu (s : State) (u : Nat) :
    ∃ b, (∀ a ∈ b, a.1 = (s.zone (physZone u)).sched) ∧ ((taken s u).unit u).cu =
      { (s.unit u).cu with banks := b, waiting := ((closeBanks s u [(s.zone (physZone u)).sched]).unit u).cu.waiting
                           stepped := some (s.zone (physZone u)).sched } := by
  obtain ⟨d, -, hcu⟩ := closeBanks_cu s u [(s.zone (physZone u)).sched]
  have hz : (closeBanks s u [(s.zone (physZone u)).sched]).zone (physZone u) = s.zone (physZone u) :=
    (congrArg (fun t : State => t.zone (physZone u)) (closeBanks_booked s u [(s.zone (physZone u)).sched]).only.1 :)
  refine ⟨(s.unit u).cu.banks.filter fun a => [(s.zone (physZone u)).sched].contains a.1, fun a ha => ?_, ?_⟩
  · simpa using (List.mem_filter.1 ha).2
  · rw [taken, takeCycle, unit_modCu_same, hcu, hz]

/-- A cycle of the unit is counted. -/
def countCycle (s : State) (u : Nat) : State :=
  s.modUnit u fun x =>
    { x with elasticHold := false, cu := { x.cu with cyc := (s.unit u).cu.cyc + 1, pk := x.cu.pk.filter fun p => decide ((s.unit u).cu.cyc < p.1) } }
/-- A stage 3 result reaches the pocket (R86). -/
def toPocket (s : State) (u : Nat) (p : Nat × Nat × Vec) : State :=
  useBanks (s.modCu u fun c => { c with pocket := pocketWrite c.pocket p.2.1 p.2.2.toNat 128 }) u 1 (bankSpan p.2.1 128)

theorem nextCycle_eq (s : State) (u : Nat) :
    nextCycle s u = forEach ((s.unit u).cu.pk.filter fun p => decide (p.1 ≤ (s.unit u).cu.cyc)) (countCycle s u) fun s p => toPocket s u p := rfl

theorem toPocket_filled (s : State) (u : Nat) (p : Nat × Nat × Vec) : Filled s (toPocket s u p) u := by
  refine (filled_modCu s u _ ?_).trans (useBanks_booked _ u _ _).filled
  exact fun _ => rfl

theorem nextCycle_filled (s : State) (u : Nat) : Filled (countCycle s u) (nextCycle s u) u := by
  rw [nextCycle_eq]
  exact filled_forEach (fun s p => toPocket_filled s u p) _ _

theorem nextCycle_only (s : State) (u : Nat) : OnlyUnit s (nextCycle s u) u := by
  rw [nextCycle_eq]
  exact onlyUnit_trans (onlyUnit_modUnit s u _)
    (onlyUnit_forEach (fun s p => onlyUnit_trans (onlyUnit_modUnit s u _) (useBanks_booked _ u _ _).only) _ _)

theorem nextCycle_cu (s : State) (u : Nat) : ∃ b w i g p r, ((nextCycle s u).unit u).cu =
    { (s.unit u).cu with banks := b, waiting := w, items := i, flags := g, pocket := p, rings := r
                         cyc := (s.unit u).cu.cyc + 1, pk := (s.unit u).cu.pk.filter fun p => decide ((s.unit u).cu.cyc < p.1) } := by
  obtain ⟨b, w, i, g, p, r, hcu⟩ := (nextCycle_filled s u).cu
  rw [countCycle, unit_modUnit_same] at hcu
  exact ⟨b, w, i, g, p, r, hcu⟩

/-- A STEP's advances and its push fall due, and the next cycle of the STEP or the next entry follows. -/
theorem issueStep_cu (s : State) (u : Nat) (w : Word) :
    let x := s.unit u
    let c := ((issueStep s u w).unit u).cu
    c.cyc = x.cu.cyc ∧ c.entry = (if schRepeat w ≤ x.cu.rep then x.cu.entry + 1 else x.cu.entry) ∧
      (∀ st, st < 6 → schAdv w st = true → (⟨st, x.cu.cyc + cuOff x.cfg st⟩ : Due) ∈ c.due) ∧
      (schPush w = none → c.pushes = x.cu.pushes) ∧
      (∀ b, schPush w = some b → ∃ p, c.pushes = x.cu.pushes ++ [p] ∧ p.binding = b ∧ p.src = x.cu.cyc + cuOff x.cfg 5) := by
  intro x c
  have hc : ((issueStep s u w).unit u).cu = c := rfl
  rw [issueStep, unit_modUnit_same] at hc
  rw [← hc]
  refine ⟨rfl, rfl, fun st hst ha => ?_, fun hn => ?_, fun b hb => ?_⟩
  · exact List.mem_append_right _ (List.mem_filterMap.2 ⟨st, List.mem_range.2 hst, if_pos ha⟩)
  · simp only [hn, List.append_nil]
    rfl
  · simp only [hb]
    exact ⟨_, rfl, rfl, rfl⟩

theorem nextCycle_keeps (s : State) (u : Nat) :
    let c := ((nextCycle s u).unit u).cu
    c.cyc = (s.unit u).cu.cyc + 1 ∧ c.entry = (s.unit u).cu.entry ∧ c.due = (s.unit u).cu.due ∧ c.pushes = (s.unit u).cu.pushes := by
  obtain ⟨b, w, i, g, p, r, hcu⟩ := nextCycle_cu s u
  rw [hcu]
  exact ⟨rfl, rfl, rfl, rfl⟩

theorem taken_keeps (s : State) (u : Nat) :
    let c := ((taken s u).unit u).cu
    c.cyc = (s.unit u).cu.cyc ∧ c.entry = (s.unit u).cu.entry ∧ c.rep = (s.unit u).cu.rep ∧ c.pushes = (s.unit u).cu.pushes ∧
      c.pk = (s.unit u).cu.pk ∧ c.pocket = (s.unit u).cu.pocket := by
  obtain ⟨b, -, hcu⟩ := taken_cu s u
  rw [hcu]
  exact ⟨rfl, rfl, rfl, rfl, rfl, rfl⟩

/-! A STEP, a cycle that a deferred access holds, and one that a token or a credit holds. -/

/-- A STEP that pops nothing, with no push waiting, runs its cycle (R107, R108). -/
theorem schedStep_issues {s : State} {u : Fin 9792} {lu : Nat} (h : CycleFree s u lu) (hf : (s.unit u).firing = true)
    (hp : (s.unit u).cu.pushes = []) (hk : schKind (schedWord (s.unit u).cfg (s.unit u).cu.entry) = 0)
    (ha : schPopA (schedWord (s.unit u).cfg (s.unit u).cu.entry) = none) (hb : schPopB (schedWord (s.unit u).cfg (s.unit u).cu.entry) = none) :
    exec (.schedStep u) s = .next (nextCycle (issueStep (taken s u) u (schedWord (s.unit u).cfg (s.unit u).cu.entry)) u) := by
  have hstep : atStep (s.unit u) = true := by simp [atStep, hf, hk]
  have hl : stepLacks s lu (s.unit u) = [] := by simp [stepLacks, popLacks, ha, hb]
  rw [schedStep_runs h hp hl fun _ => hstep, if_pos hstep, doPops, ha, hb]

/-- An access of the cycle that the unit has stepped into defers none, where no other cycle's accesses are kept (R87). -/
theorem useBanks_stepped {s : State} {u z : Nat} (rank : Nat) (bs : List Nat) (hs : (s.unit u).cu.stepped = some z)
    (hb : ∀ a ∈ (s.unit u).cu.banks, a.1 = z) :
    let c := ((useBanks s u rank bs).unit u).cu
    c.waiting = (s.unit u).cu.waiting ∧ c.cyc = (s.unit u).cu.cyc ∧ c.entry = (s.unit u).cu.entry := by
  rw [useBanks, useBanksAt]
  split
  · exact ⟨rfl, rfl, rfl⟩
  · obtain ⟨d, hd, hcu⟩ := closeBanks_cu s u ((s.zone (physZone u)).sched :: (s.unit u).cu.stepped.toList)
    rw [hd fun a ha => by simp [hs, hb a ha], List.append_nil] at hcu
    rw [unit_modCu_same, hcu]
    exact ⟨rfl, rfl, rfl⟩

/-- A deferred access is served in the cycle that it holds, and defers no other (R87). -/
theorem stallCycle_taken {s : State} {u : Nat} {a : Nat × List Nat} {rest : List (Nat × List Nat)}
    (hw : ((closeBanks s u [(s.zone (physZone u)).sched]).unit u).cu.waiting = a :: rest) :
    let c := ((stallCycle (taken s u) u).unit u).cu
    c.waiting = rest ∧ c.cyc = (s.unit u).cu.cyc ∧ c.entry = (s.unit u).cu.entry := by
  obtain ⟨b, hb, hcu⟩ := taken_cu s u
  have hwait : ((taken s u).unit u).cu.waiting = a :: rest := by rw [hcu, hw]
  have hserved := unit_modCu_same (taken s u) u fun c => { heldCycle c with waiting := rest }
  rw [hcu] at hserved
  simp only [stallCycle, hwait]
  obtain ⟨hrest, hcyc, hentry⟩ := useBanks_stepped (z := (s.zone (physZone u)).sched) a.1 a.2
    (congrArg (fun x => x.cu.stepped) hserved :) fun x hx => hb x (by rw [hserved] at hx; exact hx)
  exact ⟨hrest.trans (congrArg (fun x => x.cu.waiting) hserved :), hcyc.trans (congrArg (fun x => x.cu.cyc) hserved :),
    hentry.trans (congrArg (fun x => x.cu.entry) hserved :)⟩

/-- A cycle held for tokens and credits counts once in each counter that it names (R110). -/
theorem holdCycle_taken_ctr (s : State) (u : Nat) (pops pushes : List (BitVec 64)) (ext : Bool) {i : Nat} (hi : i ∈ holdItems pops pushes)
    (hb : i ≠ itBank) :
    sget 0 ((holdCycle (taken s u) u (holdItems pops pushes) ext).unit u).ctr i = satInc (sget 0 (s.unit u).ctr i) := by
  have hctr : sget 0 ((taken s u).unit u).ctr i = sget 0 (s.unit u).ctr i := by
    rw [taken, takeCycle, unit_modCu_same]
    exact closeBanks_ctr s u _ hb
  rw [holdCycle_ctr (taken s u) u ext (holdItems_nodup pops pushes) hi, hctr]

/-- A cycle held runs no entry. -/
theorem holdCycle_taken_cu (s : State) (u : Nat) (is : List Nat) (ext : Bool) :
    ((holdCycle (taken s u) u is ext).unit u).cu.cyc = (s.unit u).cu.cyc ∧
      ((holdCycle (taken s u) u is ext).unit u).cu.entry = (s.unit u).cu.entry := by
  obtain ⟨hcyc, hentry, -⟩ := taken_keeps s u
  rw [holdCycle_cu, heldCycle_cyc, heldCycle_entry]
  exact ⟨hcyc, hentry⟩

/-- Settles O24: the cycle runs, serves a deferred access, or is held and counted. -/
theorem schedStepCompletes : Obligations.SchedStepCompletes := by
  refine ⟨fun s u lu h hf hp hw => ?_, fun s u lu a rest hlog hrun hload hslot hopen hwait => ?_, fun s u lu p h hp hat hcr => ?_,
    fun s u lu b h hf hw hcur => ?_⟩
  · obtain ⟨hk, ha, hb⟩ := hw
    have he := schedStep_issues h hf hp hk ha hb
    obtain ⟨hcyc, hentry, hrep, hpush, -⟩ := taken_keeps s u
    obtain ⟨hcyc', hentry', hdue', hnone', hsome'⟩ := issueStep_cu (taken s u) u (schedWord (s.unit u).cfg (s.unit u).cu.entry)
    obtain ⟨hcyc'', hentry'', hdue'', hpush''⟩ := nextCycle_keeps (issueStep (taken s u) u (schedWord (s.unit u).cfg (s.unit u).cu.entry)) u
    rw [hcyc, taken_cfg] at hdue' hsome'
    rw [hpush, hp] at hnone' hsome'
    refine ⟨_, he, ?_, ?_, fun st hst hadv => ?_, fun hn => ?_, fun b hb => ?_, ?_⟩
    · rw [hcyc'', hcyc', hcyc]
    · rw [hentry'', hentry', hentry, hrep]
    · rw [hdue'']
      exact hdue' st hst hadv
    · rw [hpush'', hnone' hn]
    · rw [hpush'']
      exact hsome' b hb
    · exact onlyUnit_trans (onlyUnit_trans (taken_only s u) (onlyUnit_modUnit _ u _)) (nextCycle_only _ u)
  · have he : exec (.schedStep u) s = .next (stallCycle (taken s u) u) := by
      show execSchedStep u s = _
      simp only [execSchedStep, hlog, hrun, hload, hslot, hopen, hwait, Bool.not_true, Bool.or_false, Bool.false_eq_true, if_false,
        List.isEmpty_cons, Bool.not_false, if_true]
      rfl
    exact ⟨_, he, stallCycle_taken hwait⟩
  · have hlack : pushLacks s lu (s.unit u) ≠ [] := by
      refine List.ne_nil_of_mem (a := bindWord (s.unit u).cfg p.binding) (List.mem_filter.2 ⟨List.mem_map_of_mem ?_, by simp [hcr]⟩)
      exact List.mem_filter.2 ⟨hp, by simp [hat]⟩
    obtain ⟨ext, he⟩ := schedStep_holds h (.inr hlack)
    refine ⟨_, he, holdCycle_taken_ctr s u _ _ ext ?_ (by decide), holdCycle_taken_cu s u _ ext⟩
    simp [holdItems, hlack, itCredit]
  · obtain ⟨hk, ha, hb⟩ := hw
    have hlacks : stepLacks s lu (s.unit u) = [bindWord (s.unit u).cfg b] := by
      simp [stepLacks, atStep, hf, hk, popLacks, ha, hb, hcur]
    obtain ⟨ext, he⟩ := schedStep_holds h (.inl (by simp [hlacks]))
    intro i
    refine ⟨_, he, holdCycle_taken_ctr s u _ _ ext ?_ ?_, holdCycle_taken_cu s u _ ext⟩
    · rw [hlacks]
      rcases hel : bElastic (bindWord (s.unit u).cfg b) <;> simp [holdItems, i, hel, itStatic, itElastic]
    · simp only [i]
      split <;> decide

theorem toPocket_cu (s : State) (u : Nat) (p : Nat × Nat × Vec) :
    let c := ((toPocket s u p).unit u).cu
    c.pocket = pocketWrite (s.unit u).cu.pocket p.2.1 p.2.2.toNat 128 ∧ c.pk = (s.unit u).cu.pk ∧ c.cyc = (s.unit u).cu.cyc := by
  obtain ⟨b, w, i, g, hcu⟩ := (useBanks_booked (s.modCu u fun c => { c with pocket := pocketWrite c.pocket p.2.1 p.2.2.toNat 128 }) u 1
    (bankSpan p.2.1 128)).cu
  rw [toPocket, hcu, unit_modCu_same]
  exact ⟨rfl, rfl, rfl⟩

/-- The one result that is due reaches the pocket as the next cycle begins. -/
theorem nextCycle_toPocket {s : State} {u : Nat} {p : Nat × Nat × Vec} (hp : (s.unit u).cu.pk = [p]) (hr : p.1 ≤ (s.unit u).cu.cyc) :
    let c := ((nextCycle s u).unit u).cu
    c.pk = [] ∧ c.cyc = (s.unit u).cu.cyc + 1 ∧ c.pocket = pocketWrite (s.unit u).cu.pocket p.2.1 p.2.2.toNat 128 := by
  have hdone : ((s.unit u).cu.pk.filter fun p => decide (p.1 ≤ (s.unit u).cu.cyc)) = [p] := by simp [hp, hr]
  have hrest : ((s.unit u).cu.pk.filter fun p => decide ((s.unit u).cu.cyc < p.1)) = [] := by simp [hp, hr]
  have hnext : nextCycle s u = toPocket (countCycle s u) u p := by
    rw [nextCycle_eq, hdone]
    rfl
  obtain ⟨hpocket, hpk, hcyc⟩ := toPocket_cu (countCycle s u) u p
  have hcount : ((countCycle s u).unit u).cu = { (s.unit u).cu with cyc := (s.unit u).cu.cyc + 1, pk := [] } := by
    rw [countCycle, unit_modUnit_same, hrest]
  rw [hcount] at hpocket hpk hcyc
  rw [hnext]
  exact ⟨hpk, hcyc, hpocket⟩

/-- A byte of a number, little-endian. -/
theorem ofNat_byte {n : Nat} (v : BitVec n) (i : Nat) : BitVec.ofNat 8 (v.toNat / 256 ^ i) = v.extractLsb' (8 * i) 8 := by
  apply BitVec.eq_of_toNat_eq
  rw [BitVec.toNat_ofNat, BitVec.extractLsb'_toNat, Nat.shiftRight_eq_div_pow, Nat.pow_mul]

/-- Settles O15: a MOV leaves its lanes due for the pocket; the cycle in which they are due writes them. -/
theorem stage3WritesThePocket : Obligations.Stage3WritesThePocket := by
  refine ⟨fun s u e w k a h hr hs ha => ?_, fun s u lu r a v h hp hf hpk hr => ?_⟩
  · exact ⟨_, rfl, stage3_toPocket e (fun _ i a _ _ => fpIn (lane a i)) h hr ha (b := 0) (d := 0) rfl rfl hs⟩
  · have hstep : atStep (s.unit u) = false := by simp [atStep, hf]
    have he := schedStep_runs h hp (by simp [stepLacks, hstep]) fun hfire => absurd hfire (by simp [hf])
    rw [hstep, if_neg Bool.false_ne_true] at he
    obtain ⟨hcyc, -, -, -, hpk', hpocket⟩ := taken_keeps s u
    obtain ⟨hnone, hnext, hwrite⟩ := nextCycle_toPocket (hpk'.trans hpk) (by rw [hcyc]; exact hr)
    rw [hpocket] at hwrite
    refine ⟨_, he, hnone, by rw [hnext, hcyc], fun i hi => ?_, fun b hb => ?_⟩
    · rw [hwrite, readByte_pocketWrite _ _ _ _ _ (by decide) hi, ofNat_byte]
    · rw [hwrite, readByte_pocketWrite_other _ _ _ _ _ hb]

end Sys2Proof.Machine
end

section
/-! SUPPORT. Runs of rows from the stacks: what a read leaves as it was, the landing buffer (R119, R121, R126, R179, R183 to R186), and O29. -/

namespace Sys2Proof.Machine

/-! What the failing of a stack leaves as it was. -/

/-- From s to t no unit and no weight stack has changed. -/
def StacksKept (s t : State) : Prop := t.units = s.units ∧ t.ws = s.ws

theorem StacksKept.trans {s t r : State} (h : StacksKept s t) (h' : StacksKept t r) : StacksKept s r := ⟨h'.1.trans h.1, h'.2.trans h.2⟩
theorem StacksKept.wst {s t : State} (h : StacksKept s t) (v : Nat) : t.wst v = s.wst v := by rw [State.wst, h.2, ← State.wst]

theorem postEvent_stacks (s : State) (e : Event) : StacksKept s (postEvent s e) := by
  obtain ⟨v, f, l, h⟩ := postEvent_changes s e
  rw [h]
  exact ⟨rfl, rfl⟩

theorem pstWrite_stacks (s : State) (w : Nat) (v : Word) : StacksKept s (pstWrite s w v) := by
  unfold pstWrite
  split <;> exact ⟨rfl, rfl⟩

theorem fenceStack_stacks (s : State) (st : Nat) : StacksKept s (fenceStack s st) := .trans ⟨rfl, rfl⟩ (pstWrite_stacks _ _ _)

theorem recordStack_stacks (s : State) (k cause : Nat) (act : Action) : StacksKept s (recordStack s k cause act) := by
  have h (r : FaultRec) (i : Nat) (e : Event) : StacksKept s (postEvent (setSummary (addRec s r) i) e) :=
    .trans ⟨rfl, rfl⟩ (postEvent_stacks _ _)
  unfold recordStack
  dsimp only
  split
  · exact h _ _ _
  · exact (h _ _ _).trans ⟨rfl, rfl⟩

theorem degrade_stacks (s : State) (q reason : Nat) : StacksKept s (degrade s q reason) := by
  unfold degrade event
  dsimp only
  split
  · exact ⟨rfl, rfl⟩
  · exact .trans ⟨rfl, rfl⟩ (postEvent_stacks _ _)

/-- From s to t no unit has changed, no weight stack but w, and of that neither the manifest nor the count of rescues. -/
structure OnlyStack (s t : State) (w : Nat) : Prop where
  units : t.units = s.units
  other : ∀ v, v ≠ w → t.wst v = s.wst v
  manifest : (t.wst w).manifest = (s.wst w).manifest
  rescue : (t.wst w).rescue = (s.wst w).rescue

theorem OnlyStack.trans {s t r : State} {w : Nat} (h : OnlyStack s t w) (h' : OnlyStack t r w) : OnlyStack s r w :=
  ⟨h'.units.trans h.units, fun v hv => (h'.other v hv).trans (h.other v hv), h'.manifest.trans h.manifest, h'.rescue.trans h.rescue⟩
theorem StacksKept.onlyStack {s t : State} (h : StacksKept s t) (w : Nat) : OnlyStack s t w :=
  ⟨h.1, fun v _ => h.wst v, by rw [h.wst], by rw [h.wst]⟩
theorem wst_modWs_same (s : State) (w : Nat) (f : Ws → Ws) : (s.modWs w f).wst w = f (s.wst w) := sget_smod_same _ _ _ _
theorem wst_modWs_other (s : State) {v w : Nat} (f : Ws → Ws) (h : v ≠ w) : (s.modWs w f).wst v = s.wst v := by
  unfold State.modWs State.wst smod sset
  dsimp only
  split
  · rw [sget_serase, if_neg h]
  · rw [sget_sinsert _ _ _ _ _ (serase_ne _ _), sget_serase, if_neg h, if_neg h]
theorem onlyStack_modWs (s : State) (w : Nat) (f : Ws → Ws) (h : ∀ x, (f x).manifest = x.manifest ∧ (f x).rescue = x.rescue) :
    OnlyStack s (s.modWs w f) w := by
  exact ⟨rfl, fun v hv => wst_modWs_other s f hv, by rw [wst_modWs_same, (h _).1], by rw [wst_modWs_same, (h _).2]⟩
theorem spill_stacks {n : Nat} (s : State) (key : Nat) (v : BitVec n) (k : Nat) : StacksKept s (s.spill key v k) := ⟨rfl, rfl⟩
theorem modKs_stacks (s : State) (k : Nat) (f : Ks → Ks) : StacksKept s (s.modKs k f) := ⟨rfl, rfl⟩

theorem failStack_only (s : State) (st cause : Nat) : OnlyStack s (failStack s st cause) st := by
  unfold failStack
  dsimp only
  split
  · exact StacksKept.onlyStack ⟨rfl, rfl⟩ st
  · have h (s1 : State) (h1 : OnlyStack s s1 st) (act : Action) : OnlyStack s (recordStack (fenceStack s1 st) st cause act) st :=
      h1.trans (((fenceStack_stacks s1 st).trans (recordStack_stacks _ st cause act)).onlyStack st)
    have hfail : OnlyStack s (if st < 8 then s.modWs st fun w => { w with image := 3 } else s.modKs (st - 8) fun k => { k with failed := true }) st := by
      split
      · exact onlyStack_modWs s st _ fun _ => ⟨rfl, rfl⟩
      · exact (modKs_stacks s _ _).onlyStack st
    split
    · exact (h _ hfail _).trans ((degrade_stacks _ _ _).onlyStack st)
    · exact h _ hfail _

theorem failStack_units (s : State) (st cause : Nat) : (failStack s st cause).units = s.units := (failStack_only s st cause).units

/-! What a read of a stack leaves as it was. -/

theorem wsUncorr_only (s : State) (ws b : Nat) : OnlyStack s (wsUncorr s ws b) ws := by
  unfold wsUncorr
  extract_lets s1
  have h1 : OnlyStack s s1 ws := ((spill_stacks s _ _ _).onlyStack ws).trans (onlyStack_modWs _ ws _ fun _ => ⟨rfl, rfl⟩)
  split
  · exact h1.trans (failStack_only s1 ws 2)
  · exact h1

theorem takeBlock_keeps {w w' : Ws} {k n : Nat} (h : takeBlock w k = some (n, w')) : w'.manifest = w.manifest ∧ w'.rescue = w.rescue := by
  unfold takeBlock at h
  split at h
  · exact absurd h (by simp)
  · obtain ⟨b, -, hb⟩ := Option.map_eq_some_iff.1 h
    obtain ⟨-, rfl⟩ := Prod.mk.inj hb
    exact ⟨rfl, rfl⟩

theorem wsCorrected_only (s : State) (ws b n : Nat) : OnlyStack s (wsCorrected s ws b n) ws := by
  unfold wsCorrected refreshKick
  refine (onlyStack_modWs s ws _ ?_).trans (onlyStack_modWs _ ws _ fun x => ?_)
  · exact fun _ => ⟨rfl, rfl⟩
  split
  · exact ⟨rfl, rfl⟩
  · split
    · split
      · next h =>
        obtain ⟨hm, hr⟩ := takeBlock_keeps h
        exact ⟨hm, hr⟩
      · exact ⟨rfl, rfl⟩
    · exact ⟨rfl, rfl⟩

theorem ksUncorr_units (s : State) (k : Nat) : (ksUncorr s k).units = s.units := by
  unfold ksUncorr
  dsimp only
  split
  · rw [failStack_units, State.modKs_units, spill_units]
  · rw [State.modKs_units, spill_units]

/-! Reads. -/

/-- A work stack that works serves what its code does not lose (R186). -/
theorem ksRead_serves {s : State} {k : Nat} (row n : Nat) {own : ReadErr} (ht : (s.kst k).trained = true) (hf : (s.kst k).failed = false)
    (ho : own ≠ .uncorrectable) :
    ∃ t, ksRead s k row n own = (some ((upto n).map fun i => (s.kst k).mem.read (row + i)), t) ∧ t.units = s.units := by
  cases own with
  | clean => exact ⟨s, by simp [ksRead, ht, hf], rfl⟩
  | corrected c =>
    obtain ⟨-, -, hunits⟩ := ksCorrected_frame s k 1
    exact ⟨ksCorrected s k 1, by simp [ksRead, ht, hf], hunits⟩
  | uncorrectable => exact absurd rfl ho

/-- A weight stack serves a block that its code does not lose, and zero rows of a page that is not mapped (R179, R183). -/
theorem wsReadOwn_serves (s : State) (ws row n : Nat) {b : Nat} {err : ReadErr} (h : err ≠ .uncorrectable ∨ b = 0) :
    ∃ t, wsReadOwn s ws b row n err = (some ((upto n).map fun i => wsRow (s.wst ws) b (row + i)), t) ∧ OnlyStack s t ws ∧
      (b = 0 → (t.wst ws).unmapped = satInc (s.wst ws).unmapped) := by
  by_cases hb : b = 0
  · refine ⟨(s.spill (rcKey (wsErrOff ws) 2) (s.wst ws).unmapped).modWs ws fun w => { w with unmapped := satInc w.unmapped },
      by simp only [wsReadOwn, if_pos hb], ?_, fun _ => ?_⟩
    · exact ((spill_stacks s _ _ _).onlyStack ws).trans (onlyStack_modWs _ ws _ fun _ => ⟨rfl, rfl⟩)
    · rw [wst_modWs_same, (spill_stacks s _ _ _).wst]
  · simp only [wsReadOwn, if_neg hb]
    cases err with
    | clean => exact ⟨s, rfl, StacksKept.onlyStack ⟨rfl, rfl⟩ ws, fun h => absurd h hb⟩
    | corrected c => exact ⟨_, rfl, wsCorrected_only s ws b c, fun h => absurd h hb⟩
    | uncorrectable => exact absurd (h.resolve_right hb) (by simp)

theorem partner_ne (ws : Nat) : partner ws ≠ ws := by
  unfold partner
  split <;> omega

theorem partnerServes_only {s t : State} {ws : Nat} (h : OnlyStack s t ws) : partnerServes t ws = partnerServes s ws := by
  rw [partnerServes, layoutMirrored, mirrored, h.manifest, h.other _ (partner_ne ws), ← mirrored, ← layoutMirrored, ← partnerServes]

/-- In the mirrored layout the SEALED partner serves what the stack's own code loses, counted in RESCUE (R184). -/
theorem wsRead_rescues {s : State} {ws row n b pb : Nat} {part : ReadErr} (hi : (s.wst ws).image = 1) (hb : b ≠ 0)
    (hp : part ≠ .uncorrectable) (hs : partnerServes s ws = true) :
    ∃ t, wsRead s ws b pb row n .uncorrectable part = (some ((upto n).map fun i => wsRow (s.wst (partner ws)) pb (row + i)), t) ∧
      t.units = s.units ∧ (t.wst ws).rescue = satInc (s.wst ws).rescue := by
  have h1 := wsUncorr_only s ws b
  obtain ⟨t, ht, h2, -⟩ := wsReadOwn_serves (wsUncorr s ws b) (partner ws) row n (b := pb) (.inl hp)
  rw [h1.other _ (partner_ne ws)] at ht
  have hserves := (partnerServes_only h1).trans hs
  have hlost : wsReadOwn s ws b row n .uncorrectable = (none, wsUncorr s ws b) := by simp only [wsReadOwn, if_neg hb]
  have hrescue : (t.wst ws).rescue = (s.wst ws).rescue := by rw [h2.other _ (partner_ne ws).symm, h1.rescue]
  refine ⟨(t.spill (rcKey (wsErrOff ws) 1) (t.wst ws).rescue).modWs ws fun w => { w with rescue := satInc w.rescue }, ?_, ?_, ?_⟩
  · simp only [wsRead, hi, beq_self_eq_true, if_true, hlost, hserves, ht]
  · exact h2.units.trans h1.units
  · rw [wst_modWs_same, (spill_stacks t _ _ _).wst, hrescue]

/-! Landings. -/

/-- A landing of rows brings them to the buffer, by the crossbar (R121). -/
def landRows (s : State) (u : Nat) (r : StkRun) (f : Nat → Row) : State :=
  s.modMu u fun m => { m with arriving := m.arriving ++ (upto r.len).map fun i => ⟨r.id, r.ag, r.first + i, r.sram + i, f i⟩ }

section
variable {s : State} {u : Fin 9792} {id : Nat} {r : StkRun} (own part : ReadErr)
  (hr : (s.unit u).mu.runs.find? (fun r => r.id == id) = some r) (ha : (s.unit u).mu.arriving.any (fun l => l.run == id) = false)
  (hl : (s.unit u).mu.landing.any (fun l => l.run == id) = false)
include hr ha hl

theorem exec_landing {f : Nat → Row} {t : State}
    (ht : stackRead s (physZone u / 12) r.stk.toNat r.blk r.pblk r.row r.len own part = (some ((upto r.len).map f), t)) :
    exec (.stackRunLanding u id own part) s = .next (landRows t u r f) := by
  have hm : ((upto r.len).map fun i => (⟨r.id, r.ag, r.first + i, r.sram + i, nth 0 ((upto r.len).map f) i⟩ : Landing)) =
      (upto r.len).map fun i => ⟨r.id, r.ag, r.first + i, r.sram + i, f i⟩ :=
    List.map_congr_left fun i hi => by rw [nth_map_upto _ _ _ _ (List.mem_range.1 hi)]
  show execStackRunLanding u id own part s = _
  simp only [execStackRunLanding, ha, hl, Bool.not_false, Bool.and_true, hr, ht, hm, Bool.false_eq_true, if_false]
  rfl

/-- A landing whose read serves rows, from a state in which no unit has changed, brings them. -/
theorem landing_brings {f : Nat → Row} {t : State} (hu : t.units = s.units)
    (ht : stackRead s (physZone u / 12) r.stk.toNat r.blk r.pblk r.row r.len own part = (some ((upto r.len).map f), t)) :
    exec (.stackRunLanding u id own part) s = .next (landRows t u r f) ∧
      ((landRows t u r f).unit u).mu.arriving = (s.unit u).mu.arriving ++ (upto r.len).map (fun i => ⟨id, r.ag, r.first + i, r.sram + i, f i⟩) ∧
      ((landRows t u r f).unit u).mu.runs = (s.unit u).mu.runs ∧ ((landRows t u r f).unit u).mu.sram = (s.unit u).mu.sram := by
  have hid : r.id = id := by simpa using List.find?_some hr
  refine ⟨exec_landing own part hr ha hl ht, ?_⟩
  rw [landRows, unit_modMu_same, State.unit, hu, ← State.unit, hid]
  exact ⟨rfl, rfl, rfl⟩

end

/-! A read that is lost. -/

/-- A cause i of a fault of unit u stands among the detections. -/
def Detects (s : State) (u i : Nat) : Prop := ∃ y ∈ s.flt.detected, y.unit = u ∧ bit y.causes i = true

theorem detects_unitFault {s : State} {u i : Nat} (v : Nat) (c : BitVec 8) (d : BitVec 64) (h : Detects s u i) : Detects (unitFault s v c d) u i := by
  obtain ⟨y, hy, hu, hi⟩ := h
  rw [Detects, unitFault_detects]
  simp only [detect, State.modFlt]
  split
  · refine ⟨_, List.mem_map_of_mem hy, ?_⟩
    have hi : y.causes.getLsbD i = true := hi
    split
    · exact ⟨hu, by simp [bit, hi]⟩
    · exact ⟨hu, hi⟩
  · exact ⟨y, List.mem_append_left _ hy, hu, hi⟩

theorem detects_checkStranded {s : State} {u i : Nat} (lu v : Nat) (h : Detects s u i) : Detects (checkStranded s lu v) u i := by
  unfold checkStranded
  split
  · exact detects_unitFault v _ _ h
  · exact h

theorem unitFault_mu (s : State) (u : Nat) (c : BitVec 8) (d : BitVec 64) : ((unitFault s u c d).unit u).mu = (s.unit u).mu :=
  (congrArg UnitSt.mu (unitFault_booked s u c d).work :)
theorem checkStranded_mu (s : State) (lu u : Nat) : ((checkStranded s lu u).unit u).mu = (s.unit u).mu :=
  (congrArg UnitSt.mu (checkStranded_filled s lu u) :)

/-- The end of a firing changes the context's count and the tags of what is on its way only. -/
theorem muEnd_mu (s : State) (u : Nat) : ∃ n l, ((muEnd s u).unit u).mu = { (s.unit u).mu with ctxFirings := n, sends := l } := by
  unfold muEnd
  dsimp only
  split
  · split
    · rw [checkStranded_mu, unit_modUnit_same]
      exact ⟨_, _, rfl⟩
    · rw [unit_modUnit_same]
      exact ⟨_, _, rfl⟩
  · exact ⟨_, _, rfl⟩

theorem detects_muEnd {s : State} {u i : Nat} (v : Nat) (h : Detects s u i) : Detects (muEnd s v) u i := by
  unfold muEnd
  dsimp only
  split
  · split
    · exact detects_checkStranded _ v h
    · exact h
  · exact h

/-- Accesses that complete change their AG only. -/
theorem completeAccs_mu (u a : Nat) (l : List Nat) (s : State) :
    ∃ g, ((forEach l s fun s n => modAg s u a fun st => completeAcc st n).unit u).mu = { (s.unit u).mu with ags := g } ∧
      (forEach l s fun s n => modAg s u a fun st => completeAcc st n).flt = s.flt := by
  have hmu := forEach_keeps (fun s : State => { (s.unit u).mu with ags := [] }) (fun s n => modAg s u a fun st => completeAcc st n)
    (fun s n => by rw [modAg, unit_modMu_same]) l s
  exact ⟨_, congrArg (fun m : Mu => { m with ags := ((forEach l s fun s n => modAg s u a fun st => completeAcc st n).unit u).mu.ags }) hmu,
    forEach_keeps (fun s : State => s.flt) (fun s n => modAg s u a fun st => completeAcc st n) (fun _ _ => rfl) l s⟩

section
variable {s : State} {u : Fin 9792} {id : Nat} {r : StkRun} (part : ReadErr)
  (hr : (s.unit u).mu.runs.find? (fun r => r.id == id) = some r) (ha : (s.unit u).mu.arriving.any (fun l => l.run == id) = false)
  (hl : (s.unit u).mu.landing.any (fun l => l.run == id) = false)
include hr ha hl

/-- A run of the work stack beyond its code lands nothing, is over, and is a fault (R126, R186). -/
theorem landing_lost (hs : r.stk = 2) (ht : (s.kst (physZone u / 12)).trained = true) (hf : (s.kst (physZone u / 12)).failed = false) :
    ∃ t, exec (.stackRunLanding u id .uncorrectable part) s = .next t ∧ (t.unit u).mu.runs = (s.unit u).mu.runs.erase r ∧
      (t.unit u).mu.sram = (s.unit u).mu.sram ∧ (t.unit u).mu.arriving = (s.unit u).mu.arriving ∧ Detects t u 4 := by
  have hread : stackRead s (physZone u / 12) r.stk.toNat r.blk r.pblk r.row r.len .uncorrectable part = (none, ksUncorr s (physZone u / 12)) := by
    simp [stackRead, hs, ksRead, ht, hf]
  let s1 := (ksUncorr s (physZone u / 12)).modMu u fun m => { m with runs := m.runs.erase r }
  let s2 := unitFault s1 u cStack (BitVec.ofNat 64 (r.stk.toNat * 2 ^ 62 + r.row))
  let s3 := forEach ((upto r.len).map (r.first + ·)) s2 fun s n => modAg s u r.ag fun st => completeAcc st n
  have he : exec (.stackRunLanding u id .uncorrectable part) s = .next (muEnd s3 u) := by
    show execStackRunLanding u id .uncorrectable part s = _
    simp only [execStackRunLanding, ha, hl, Bool.not_false, Bool.and_true, hr, hread, Bool.false_eq_true, if_false]
    rfl
  have hs1 : (s1.unit u).mu = { (s.unit u).mu with runs := (s.unit u).mu.runs.erase r } := by
    rw [unit_modMu_same, State.unit, ksUncorr_units, ← State.unit]
  have hs2 : (s2.unit u).mu = (s1.unit u).mu := unitFault_mu s1 u _ _
  obtain ⟨g, hs3, hflt⟩ := completeAccs_mu u r.ag ((upto r.len).map (r.first + ·)) s2
  obtain ⟨n, l, hend⟩ := muEnd_mu s3 u
  have hmu : ((muEnd s3 u).unit u).mu = { (s.unit u).mu with runs := (s.unit u).mu.runs.erase r, ags := g, ctxFirings := n, sends := l } := by
    rw [hend, hs3, hs2, hs1]
  have hdet : Detects s3 u 4 := by
    obtain ⟨y, hy, hu, hc⟩ := unitFault_detected s1 u cStack (BitVec.ofNat 64 (r.stk.toNat * 2 ^ 62 + r.row))
    exact ⟨y, hflt ▸ hy, hu, hc 4 (by decide)⟩
  refine ⟨_, he, ?_, ?_, ?_, detects_muEnd u hdet⟩ <;> rw [hmu]

end

/-! The end of a schedule cycle (R119, R121). -/

theorem muBank_mu (s : State) (u r : Nat) :
    ∃ n b, ((muBank s u r).2.unit u).mu = { (s.unit u).mu with bankCyc := n, banks := b } := by
  unfold muBank
  extract_lets t m served
  split
  · rw [bump, unit_modUnit_same]
    exact ⟨_, _, rfl⟩
  · rw [unit_modMu_same]
    exact ⟨_, _, rfl⟩

/-- A row of the landing buffer that lands leaves it; nothing else comes to it or to the crossbar. -/
theorem landRow_buffers (s : State) (u : Nat) (l : Landing) :
    ((landRow s u l).unit u).mu.arriving = (s.unit u).mu.arriving ∧
      ((landRow s u l).unit u).mu.landing.length ≤ (s.unit u).mu.landing.length := by
  obtain ⟨n, b, hmu⟩ := muBank_mu s u l.sram
  unfold landRow
  split
  · next s' hs =>
    rw [hs] at hmu
    rw [hmu]
    exact ⟨rfl, Nat.le_refl _⟩
  · next s' hs =>
    rw [hs] at hmu
    dsimp only
    rw [modAg, unit_modMu_same, unit_modMu_same, hmu]
    exact ⟨rfl, List.length_erase_le⟩

theorem recvWrite_buffers (s : State) (u : Nat) (r : Nat × Nat × Nat × Nat × Row) :
    ((recvWrite s u r).2.unit u).mu.arriving = (s.unit u).mu.arriving ∧ ((recvWrite s u r).2.unit u).mu.landing = (s.unit u).mu.landing := by
  obtain ⟨n, b, hmu⟩ := muBank_mu s u r.2.2.2.1
  unfold recvWrite
  split
  · next s' hs =>
    rw [hs] at hmu
    rw [hmu]
    exact ⟨rfl, rfl⟩
  · next s' hs =>
    rw [hs] at hmu
    dsimp only
    rw [modAg, unit_modMu_same, unit_modMu_same, hmu]
    exact ⟨rfl, rfl⟩

theorem landRows_buffers (u : Nat) (ls : List Landing) (s : State) :
    ((forEach ls s fun s l => landRow s u l).unit u).mu.arriving = (s.unit u).mu.arriving ∧
      ((forEach ls s fun s l => landRow s u l).unit u).mu.landing.length ≤ (s.unit u).mu.landing.length := by
  induction ls generalizing s with
  | nil => exact ⟨rfl, Nat.le_refl _⟩
  | cons l ls ih =>
    obtain ⟨ha, hl⟩ := landRow_buffers s u l
    obtain ⟨ha', hl'⟩ := ih (landRow s u l)
    exact ⟨ha'.trans ha, hl'.trans hl⟩

/-- The RECV writes of a cycle's end: the AGs that wait, and the state. -/
def lateRecvs (s : State) (u : Nat) (rs : List (Nat × Nat × Nat × Nat × Row)) (ws : List Nat) : List Nat × State :=
  rs.foldl (fun (ws, s) r =>
    match recvWrite s u r with
    | (true, s) => (ws, s)
    | (false, s) => (r.2.1 :: ws, s)) (ws, s)

theorem lateRecvs_buffers (u : Nat) (rs : List (Nat × Nat × Nat × Nat × Row)) (s : State) (ws : List Nat) :
    ((lateRecvs s u rs ws).2.unit u).mu.arriving = (s.unit u).mu.arriving ∧
      ((lateRecvs s u rs ws).2.unit u).mu.landing = (s.unit u).mu.landing := by
  induction rs generalizing s ws with
  | nil => exact ⟨rfl, rfl⟩
  | cons r rs ih =>
    obtain ⟨ha, hl⟩ := recvWrite_buffers s u r
    have hstep : ∃ ws', lateRecvs s u (r :: rs) ws = lateRecvs (recvWrite s u r).2 u rs ws' := by
      rcases h : recvWrite s u r with ⟨ok, s'⟩
      cases ok
      · exact ⟨r.2.1 :: ws, by simp only [lateRecvs, List.foldl_cons, h]⟩
      · exact ⟨ws, by simp only [lateRecvs, List.foldl_cons, h]⟩
    obtain ⟨ws', hs⟩ := hstep
    obtain ⟨ha', hl'⟩ := ih (recvWrite s u r).2 ws'
    rw [hs]
    exact ⟨ha'.trans ha, hl'.trans hl⟩

/-- The crossbar has delivered what the landing buffer has room for (R121). -/
def delivered (s : State) (u : Nat) : State :=
  s.modMu u fun m => { m with landing := m.landing ++ m.arriving.take (delivers m), arriving := m.arriving.drop (delivers m) }
/-- The rows of the landing buffer have asked for their banks. -/
def landed (s : State) (u : Nat) : State := forEach ((delivered s u).unit u).mu.landing (delivered s u) fun s l => landRow s u l

theorem muLate_eq (s : State) (u : Nat) :
    muLate s u = muEnd ((lateRecvs (landed s u) u (dueRecvs (landed s u) u true) []).2.modMu u fun m =>
      { m with used := (lateRecvs (landed s u) u (dueRecvs (landed s u) u true) []).1 }) u := rfl

theorem muLate_buffers (s : State) (u : Nat) :
    ((muLate s u).unit u).mu.arriving = (s.unit u).mu.arriving.drop (delivers (s.unit u).mu) ∧
      ((muLate s u).unit u).mu.landing.length ≤ ((s.unit u).mu.landing ++ (s.unit u).mu.arriving.take (delivers (s.unit u).mu)).length := by
  rw [muLate_eq]
  generalize hw : lateRecvs (landed s u) u (dueRecvs (landed s u) u true) [] = w
  obtain ⟨n, l, hend⟩ := muEnd_mu (w.2.modMu u fun m => { m with used := w.1 }) u
  obtain ⟨ha, hl⟩ := lateRecvs_buffers u (dueRecvs (landed s u) u true) (landed s u) []
  obtain ⟨ha', hl'⟩ := landRows_buffers u ((delivered s u).unit u).mu.landing (delivered s u)
  rw [hw] at ha hl
  rw [hend, unit_modMu_same]
  refine ⟨ha.trans (ha'.trans ?_), (hl ▸ hl').trans ?_⟩
  · rw [delivered, unit_modMu_same]
  · rw [delivered, unit_modMu_same]

/-- The one row that is delivered lands at once, where no access of the cycle has its bank: its run is over with it. -/
theorem muLate_lands {s : State} {u : Nat} {l : Landing} (hl : (s.unit u).mu.landing = []) (ha : (s.unit u).mu.arriving = [l])
    (hb : (s.unit u).mu.bankCyc ≠ (s.zone (physZone u)).sched) (hr : (s.unit u).mu.recvs = []) :
    ((muLate s u).unit u).mu.sram = (s.unit u).mu.sram.write l.sram l.row ∧ ((muLate s u).unit u).mu.landing = [] ∧
      ((muLate s u).unit u).mu.runs = (s.unit u).mu.runs.filter fun r => r.id != l.run := by
  have hdel : ((delivered s u).unit u).mu = { (s.unit u).mu with landing := [l], arriving := [] } := by
    rw [delivered, unit_modMu_same, delivers, hl, ha]
    rfl
  have hbank : muBank (delivered s u) u l.sram = (true, (delivered s u).modMu u fun m =>
      { m with bankCyc := (s.zone (physZone u)).sched, banks := [l.sram % 16] }) := by
    have hcyc : ((delivered s u).unit u).mu.bankCyc ≠ ((delivered s u).zone (physZone u)).sched := by
      rw [hdel]
      exact hb
    simp only [muBank, if_neg hcyc]
    rfl
  have hland : ∃ g, ((landed s u).unit u).mu = { (s.unit u).mu with
      landing := [], arriving := [], bankCyc := (s.zone (physZone u)).sched, banks := [l.sram % 16], ags := g
      sram := (s.unit u).mu.sram.write l.sram l.row, runs := (s.unit u).mu.runs.filter fun r => r.id != l.run } := by
    have hone : landed s u = landRow (delivered s u) u l := by
      rw [landed, hdel]
      rfl
    rw [hone]
    simp only [landRow, hbank]
    rw [modAg, unit_modMu_same, unit_modMu_same, unit_modMu_same, hdel]
    simp only [List.erase_cons_head, List.any_nil, Bool.or_self, Bool.false_eq_true, if_false]
    exact ⟨_, rfl⟩
  obtain ⟨g, hmu⟩ := hland
  have hdue : dueRecvs (landed s u) u true = [] := by
    simp [dueRecvs, hmu, hr]
  have hlate : lateRecvs (landed s u) u (dueRecvs (landed s u) u true) [] = ([], landed s u) := by
    rw [hdue]
    rfl
  obtain ⟨n, d, hend⟩ := muEnd_mu ((landed s u).modMu u fun m => { m with used := [] }) u
  rw [muLate_eq, hlate, hend, unit_modMu_same, hmu]
  exact ⟨rfl, rfl, rfl⟩

/-- Settles O29: what a stack serves comes to the buffer; a cycle's end delivers two rows at most, and lands them. -/
theorem runLandingCompletes : Obligations.RunLandingCompletes := by
  refine ⟨fun s u id r own part hr ha hl => ?_, fun s u => ⟨(muLate_buffers s u).1, fun hlen => ?_, fun l => muLate_lands⟩⟩
  · intro q w brings
    have hws : r.stk = 0 ∨ r.stk = 1 → ∀ own, stackRead s q r.stk.toNat r.blk r.pblk r.row r.len own part =
        wsRead s w r.blk r.pblk r.row r.len own part := fun hk own => by
      rw [stackRead, if_neg (by rcases hk with hk | hk <;> simp [hk])]
    refine ⟨fun hs ht hf ho => ?_, fun hk hi ho => ?_, fun hk hi hb hpb ho hp hserve => ?_, fun hs ht hf ho => ?_⟩
    · obtain ⟨t, hread, hu⟩ := ksRead_serves r.row r.len ht hf ho
      obtain ⟨he, hbrings⟩ := landing_brings own part hr ha hl hu (f := fun i => (s.kst q).mem.read (r.row + i)) (by
        rw [stackRead, if_pos (by rw [hs]; rfl)]
        exact hread)
      exact ⟨_, he, hbrings⟩
    · obtain ⟨t, hread, honly, hun⟩ := wsReadOwn_serves s w r.row r.len ho
      obtain ⟨he, hbrings⟩ := landing_brings own part hr ha hl honly.units (f := fun i => wsRow (s.wst w) r.blk (r.row + i)) (by
        rw [hws hk]
        simp only [wsRead, hi, beq_self_eq_true, if_true, hread])
      exact ⟨_, he, hbrings, hun⟩
    · subst ho
      obtain ⟨t, hread, hu, hrescue⟩ := wsRead_rescues (row := r.row) (n := r.len) (pb := r.pblk) hi hb hp hserve
      have hrow : (fun i => wsRow (s.wst (partner w)) r.pblk (r.row + i)) =
          fun i => readRowAt (s.wst (partner w)).mem (2 ^ 26 * r.pblk + 64 * ((r.row + i) % 1048576)) :=
        funext fun i => by rw [wsRow, if_neg hpb, blockAddr]
      rw [hrow] at hread
      obtain ⟨he, hbrings⟩ := landing_brings .uncorrectable part hr ha hl hu ((hws hk _).trans hread)
      exact ⟨_, he, hbrings, hrescue⟩
    · subst ho
      obtain ⟨t, he, hruns, hsram, harr, d, hd, hu, hc⟩ := landing_lost part hr ha hl hs ht hf
      exact ⟨t, d, he, hruns, hsram, harr, hd, hu, hc⟩
  · refine (muLate_buffers s u).2.trans ?_
    rw [List.length_append, List.length_take, delivers]
    omega

end Sys2Proof.Machine
end

section
/-! SUPPORT. Address generators whose access nothing holds or stops: their turn, the bank they take, the token they pop (R117, R119, R123, R125, R129, R150). -/

namespace Sys2Proof.Machine

/-- SRAM row of AG a's next access, with index entry i (R123). -/
def agRow (x : UnitSt) (a i : Nat) : Nat := (agSram (curAg x a) (agSt x a).pos i).toNat
/-- Stack row of AG a's next access, with index entry i (R123). -/
def agStackRow (x : UnitSt) (a i : Nat) : Nat := (agStack (curAg x a) (agSt x a).pos i).toNat
/-- Port of AG a's binding. -/
def agPort (x : UnitSt) (a : Nat) : Nat := bPort (muBindWord x.cfg x.mu.ctx.toNat (curAg x a).bind)

/-! An AG that may act. -/

theorem agFree_turn {s : State} {u a k i n : Nat} {w : Bool} (h : AgFree s u a k w i n) : agTurn s u a k = true := h.1

theorem agFree_row {s : State} {u a k i n j : Nat} {w : Bool} (h : AgFree s u a k w i n) (hj : j < n) :
    rowBad s u (curAg (s.unit u) a) (agSram (curAg (s.unit u) a) ((agSt (s.unit u) a).pos + j) i) w = false := by
  obtain ⟨-, -, -, -, hrow⟩ := h
  exact hrow j hj

/-- No rule between a leader and its followers holds the last of the accesses that may be issued (R129). -/
theorem agFree_unheld {s : State} {u a k i n : Nat} {w : Bool} (h : AgFree s u a k w i n) :
    (!followOk (s.unit u) a ((agSt (s.unit u) a).issued + n - 1) || !wrapOk (s.unit u) a ((agSt (s.unit u) a).issued + n - 1)) = false := by
  obtain ⟨-, hfollow, hwrap, -, -⟩ := h
  simp [followOk, hfollow, hwrap]

/-- Of one access that may be issued the row may be touched, and no rule between a leader and its followers holds it. -/
theorem agFree_one {s : State} {u a k i : Nat} {w : Bool} (h : AgFree s u a k w i 1) :
    rowBad s u (curAg (s.unit u) a) (agSram (curAg (s.unit u) a) (agSt (s.unit u) a).pos i) w = false ∧
      (!followOk (s.unit u) a (agSt (s.unit u) a).issued || !wrapOk (s.unit u) a (agSt (s.unit u) a).issued) = false := by
  have hheld := agFree_unheld h
  have hrow := agFree_row h Nat.one_pos
  rw [Nat.add_sub_cancel] at hheld
  rw [Nat.add_zero] at hrow
  exact ⟨hrow, hheld⟩

/-- The present entry of an AG that may act is known: making it known changes nothing. -/
theorem agFree_entry {s : State} {u a k i n : Nat} {w : Bool} (h : AgFree s u a k w i n) (lu : Nat) : agEntry s lu u a = (some i, s) := by
  obtain ⟨-, hfollow, -, hidx, -⟩ := h
  unfold agEntry
  by_cases hg : isGather (curAg (s.unit u) a) = true
  · rw [if_pos hg] at hidx
    obtain ⟨e, he, rfl⟩ := Option.map_eq_some_iff.1 hidx
    simp only [if_pos hg, he]
  · rw [if_neg hg] at hidx
    simp [hg, followsGather, hfollow, hidx]

/-! What the rules of banks and check codes leave as it was. -/

/-- A bank that serves an access is noted, and nothing else changes. -/
theorem muBank_serves {s : State} {u r : Nat} (h : (muBank s u r).1 = true) :
    ∃ n b, muBank s u r = (true, s.modMu u fun m => { m with bankCyc := n, banks := b }) := by
  by_cases hb : (if (s.unit u).mu.bankCyc = (s.zone (physZone u)).sched then (s.unit u).mu.banks else []).contains (r % 16) = true
  · have hdefer : muBank s u r = (false, bump s u itBank) := if_pos hb
    rw [hdefer] at h
    exact absurd h Bool.false_ne_true
  · exact ⟨_, _, if_neg hb⟩

theorem rankBank_serves {s : State} {lu u r : Nat} {w : BankUser} (h : (rankBank s lu u w r).1 = true) :
    ∃ n b, rankBank s lu u w r = (true, s.modMu u fun m => { m with bankCyc := n, banks := b }) := by
  by_cases ho : outranked s lu u w r = true
  · have hdefer : rankBank s lu u w r = (false, bump s u itBank) := if_pos ho
    rw [hdefer] at h
    exact absurd h Bool.false_ne_true
  · have hfirst : rankBank s lu u w r = muBank s u r := if_neg ho
    rw [hfirst] at h ⊢
    exact muBank_serves h

theorem sramEcc_booked (s : State) (u r : Nat) (e : Ecc) : Booked s (sramEcc s u r e) u := by
  unfold sramEcc
  dsimp only
  split
  · exact (bumpBy_booked s u itCorr _).trans (unitFault_booked _ u _ _)
  · exact bumpBy_booked s u itCorr _

theorem sramEcc_mu (s : State) (u r : Nat) (e : Ecc) : ((sramEcc s u r e).unit u).mu = (s.unit u).mu :=
  (congrArg UnitSt.mu (sramEcc_booked s u r e).work :)

/-- What touches one unit leaves clocks and work stacks. -/
theorem onlyUnit_outside {s t : State} {u : Nat} (h : OnlyUnit s t u) : t.zones = s.zones ∧ t.ks = s.ks ∧ t.tick = s.tick := by
  obtain ⟨hrec, -⟩ := h
  rw [hrec]
  exact ⟨rfl, rfl, rfl⟩

/-- An access whose bank serves it reads its row and checks it: the MU notes the bank, and nothing but the unit changes. -/
theorem rankBank_reads {s : State} {lu u r : Nat} {w : BankUser} (e : Ecc) (h : (rankBank s lu u w r).1 = true) :
    ∃ t, rankBank s lu u w r = (true, t) ∧ (t.unit u).mu.sram = (s.unit u).mu.sram ∧ OnlyUnit s (sramEcc t u r e) u ∧
      ∃ n b, ((sramEcc t u r e).unit u).mu = { (s.unit u).mu with bankCyc := n, banks := b } := by
  obtain ⟨n, b, hbank⟩ := rankBank_serves h
  refine ⟨_, hbank, ?_, onlyUnit_trans (onlyUnit_modUnit s u _) (sramEcc_booked _ u r e).only, n, b, ?_⟩
  · rw [unit_modMu_same]
  · rw [sramEcc_mu, unit_modMu_same]

/-- AG a of a unit that was x has made an access in its turn (R125). -/
def accessMade (s : State) (u a : Nat) (x : UnitSt) : State := useTurn (modAg s u a (agAdvance x a 1)) u a

theorem accessMade_mu (s : State) (u a : Nat) (x : UnitSt) :
    ∃ g l, ((accessMade s u a x).unit u).mu = { (s.unit u).mu with ags := g, used := l } := by
  rw [accessMade, useTurn, modAg, unit_modMu_same, unit_modMu_same]
  exact ⟨_, _, rfl⟩

/-! Tokens. -/

/-- A good token of the unit's generation at the head is what a pop takes (R150). -/
theorem popToken_head {s : State} {lu u p : Nat} {tok : Token} {rest : List Token} (h : HeadIs s lu u p tok rest) :
    popToken s lu u p = (some tok, dropHead s lu p) := by
  obtain ⟨hq, hgen, hpar⟩ := h
  have hu : (s.unit u).gen = tok.gen := hgen.symm
  simp only [popToken, hq, hu, beq_self_eq_true, hpar, if_true]

theorem dropHead_queue (s : State) (lu p : Nat) : ((dropHead s lu p).chan lu p).queue = (s.chan lu p).queue.tail := by
  have h (f : Chan → Chan) (z : Nat) : (noteMove (s.modChan lu p f) z).chan lu p = f (s.chan lu p) := chan_modChan_same s lu p f
  rw [dropHead, h]
  dsimp only
  split
  · rfl
  · split <;> rfl

theorem dropHead_unit (s : State) (lu p u : Nat) : (dropHead s lu p).unit u = s.unit u := rfl

theorem dropHead_head {s : State} {lu u p : Nat} {tok : Token} {rest : List Token} (h : HeadIs s lu u p tok rest) :
    ((dropHead s lu p).chan lu p).queue = rest := by
  obtain ⟨hq, -⟩ := h
  rw [dropHead_queue, hq, List.tail_cons]

/-! The end of a firing. -/

theorem markLast_sends (l : List (Nat × Nat × Row × Option Bool)) :
    (markLast l).map (fun d => (d.1, d.2.1, d.2.2.1)) = l.map fun d => (d.1, d.2.1, d.2.2.1) := by
  induction l with
  | nil => rfl
  | cons d l ih =>
    rw [markLast, List.map_cons, List.map_cons, ih]
    split <;> rfl

/-- The end of a firing gives tags to what is on its way to the ports, and changes neither rows nor cycles nor ports (R130). -/
theorem muEnd_sends (s : State) (u : Nat) :
    ((muEnd s u).unit u).mu.sends.map (fun d => (d.1, d.2.1, d.2.2.1)) = (s.unit u).mu.sends.map fun d => (d.1, d.2.1, d.2.2.1) := by
  unfold muEnd
  dsimp only
  split
  · split
    · rw [checkStranded_mu, unit_modUnit_same, markLast_sends]
    · rw [unit_modUnit_same, markLast_sends]
  · rfl

end Sys2Proof.Machine
end

section
/-! SUPPORT. SEND, SGATHER and RECV (R123, R126, R131), and O27. -/

namespace Sys2Proof.Machine

/-- An AG's row leaves for a port, two schedule cycles on; its access, after which the AG's state is adv, is made (R126). -/
def sendPut (s : State) (u a port : Nat) (row : Row) (adv : AgSt → AgSt) : State :=
  (useTurn (modAg s u a adv) u a).modMu u fun m =>
    { m with sends := m.sends ++ [((s.zone (physZone u)).sched + 2, port, row, none)], late := m.late.erase a }

/-- What is on its way to the ports once a row has left, and its firing may be over. -/
theorem sendPut_sends (s : State) (u a port : Nat) (row : Row) (adv : AgSt → AgSt) :
    ((muEnd (sendPut s u a port row adv) u).unit u).mu.sends.map (fun d => (d.1, d.2.1, d.2.2.1)) =
      (s.unit u).mu.sends.map (fun d => (d.1, d.2.1, d.2.2.1)) ++ [((s.zone (physZone u)).sched + 2, port, row)] := by
  rw [muEnd_sends, sendPut, useTurn, modAg, unit_modMu_same, unit_modMu_same, unit_modMu_same]
  exact List.map_append

theorem sendPut_sram (s : State) (u a port : Nat) (row : Row) (adv : AgSt → AgSt) :
    ((muEnd (sendPut s u a port row adv) u).unit u).mu.sram = (s.unit u).mu.sram := by
  obtain ⟨n, l, hend⟩ := muEnd_mu (sendPut s u a port row adv) u
  rw [hend, sendPut, useTurn, modAg, unit_modMu_same, unit_modMu_same, unit_modMu_same]

/-- A SEND that nothing holds reads its row, which leaves for the port of its binding (R123, R125, R126). -/
theorem sendAccess_sends {s : State} {u a k i lu : Nat} (e : Ecc) (hl : s.logical u = some lu) (hfree : AgFree s u a k false i 1)
    (hcredit : ((s.unit u).mu.sends.filter fun d => d.2.1 == agPort (s.unit u) a).length < creditsOut s lu (agPort (s.unit u) a))
    (hbank : (rankBank s lu u (.send a) (agRow (s.unit u) a i)).1 = true) :
    ∃ t adv, sendAccess s u a k e = muEnd (sendPut t u a (agPort (s.unit u) a)
        ((s.unit u).mu.sram.read (agRow (s.unit u) a i)) adv) u ∧
      OnlyUnit s t u ∧ ∃ n b, (t.unit u).mu = { (s.unit u).mu with bankCyc := n, banks := b } := by
  obtain ⟨t, hserve, hsram, honly, hmu⟩ := rankBank_reads e hbank
  obtain ⟨hrow, hheld⟩ := agFree_one hfree
  rw [agPort] at hcredit
  rw [agRow] at hserve
  refine ⟨_, fun st => completeAcc (agAdvance (s.unit u) a 1 st) st.issued, ?_, honly, hmu⟩
  simp only [sendAccess, hl, agFree_turn hfree, agFree_entry hfree, hrow, hheld, if_neg (Nat.not_le.2 hcredit), hserve, hsram,
    Bool.not_true, Bool.false_eq_true, if_false]
  rfl

/-- A RECV that nothing holds pops the head token, whose payload is to be written in the next schedule cycle (R125, R126). -/
theorem exec_recv {s : State} {u : Fin 9792} {a : Fin 4} {lu : Nat} {tok : Token} {rest : List Token} (hl : s.logical u = some lu)
    (hfree : AgFree s u a 2 true 0 1) (hhead : HeadIs s lu u (agPort (s.unit u) a) tok rest) :
    exec (.recv u a) s = .next
      ((accessMade (dropHead s lu (agPort (s.unit u) a)) u a (s.unit u)).modMu u fun m =>
        { m with recvs := m.recvs ++
            [((s.zone (physZone u)).sched + 1, a.val, (agSt (s.unit u) a).issued, agRow (s.unit u) a 0, tok.payload)] }) := by
  obtain ⟨hrow, hheld⟩ := agFree_one hfree
  have hturn : agTurn s u a agRecv = true := agFree_turn hfree
  have hpop : popToken s lu u (bPort (muBindWord (s.unit u).cfg (s.unit u).mu.ctx.toNat (curAg (s.unit u) a).bind)) = _ := popToken_head hhead
  show execRecv u a s = _
  simp only [execRecv, hl, hturn, agFree_entry hfree, hrow, hheld, hpop, Bool.not_true, Bool.false_eq_true, if_false]
  rfl

/-- Settles O27: an access that nothing holds takes the branch that makes it; the end of its firing keeps what is on its way. -/
theorem sramAccessRowsComplete : Obligations.SramAccessRowsComplete := by
  refine ⟨fun s u a e lu i c k hc hl hfree hcredit hbank => ?_, fun s u a lu tok rest hl hfree hhead => ⟨_, exec_recv hl hfree hhead, ?_, ?_⟩⟩
  · have he : exec c s = .next (sendAccess s u a k e) := by
      rcases hc with ⟨rfl, rfl⟩ | ⟨rfl, rfl⟩ <;> rfl
    obtain ⟨t, adv, hsend, honly, n, b, hmu⟩ := sendAccess_sends e hl hfree hcredit hbank
    have hzone : t.zone (physZone u) = s.zone (physZone u) := by rw [State.zone, (onlyUnit_outside honly).1, ← State.zone]
    refine ⟨_, he.trans (congrArg _ hsend), ?_, ?_⟩
    · rw [sendPut_sends, hzone, hmu]
      rfl
    · rw [sendPut_sram, hmu]
  · obtain ⟨g, l, hmade⟩ := accessMade_mu (dropHead s lu (agPort (s.unit u) a)) u a (s.unit u)
    rw [unit_modMu_same, hmade, dropHead_unit]
    rfl
  · refine (congrArg Chan.queue (chan_congr (s := dropHead s lu (agPort (s.unit u) a)) ?_ lu _)).trans (dropHead_head hhead)
    rfl

end Sys2Proof.Machine
end

section
/-! SUPPORT. FETCH, GATHER, STORE and STORE_ACK (R123 to R127, R131, R187), and O28. -/

namespace Sys2Proof.Machine

/-! Run requests. -/

theorem runLen_pos (g : Ag) (e p k : Nat) : 0 < runLen g e p k := by
  induction k with
  | zero => exact Nat.one_pos
  | succ k ih =>
    rw [runLen]
    split
    · exact Nat.succ_pos _
    · exact ih

/-- The run that AG a requests: n accesses, from its next on, with index entry i (R127). -/
def agRun (s : State) (u a i n : Nat) : StkRun :=
  let x := s.unit u
  let g := curAg x a
  let blk := readBlocks s (physZone u / 12) g.stk (agStackRow x a i)
  ⟨x.mu.nextRun, a, (agSt x a).issued, n, BitVec.ofNat 2 g.stk, agStackRow x a i, agRow x a i, blk.1, blk.2, s.tick⟩

theorem agRun_fields (s : State) (u a i n : Nat) :
    (agRun s u a i n).id = (s.unit u).mu.nextRun ∧ (agRun s u a i n).ag = a ∧ (agRun s u a i n).len = n ∧ (agRun s u a i n).since = s.tick ∧
      (agRun s u a i n).row = agStackRow (s.unit u) a i ∧ (agRun s u a i n).sram = agRow (s.unit u) a i :=
  ⟨rfl, rfl, rfl, rfl, rfl, rfl⟩

/-- An AG that nothing holds, with rows that exist, requests the whole of its run (R125, R127). -/
theorem runRequest_requests {s : State} {u a k i lu : Nat} (hl : s.logical u = some lu)
    (hfree : AgFree s u a k true i (runLen (curAg (s.unit u) a) i (agSt (s.unit u) a).pos 63))
    (hstack : ∀ j < runLen (curAg (s.unit u) a) i (agSt (s.unit u) a).pos 63,
      0 ≤ agStack (curAg (s.unit u) a) ((agSt (s.unit u) a).pos + j) i ∧
      agStack (curAg (s.unit u) a) ((agSt (s.unit u) a).pos + j) i < stackRows (curAg (s.unit u) a).stk)
    (hruns : ((s.unit u).mu.runs.filter fun r => r.ag == a).length < 16) (hland : (s.unit u).mu.landing.length < 8) :
    ((runRequest s u a k).unit u).mu.runs =
      (s.unit u).mu.runs ++ [agRun s u a i (runLen (curAg (s.unit u) a) i (agSt (s.unit u) a).pos 63)] := by
  have hrow (j : Nat) := agFree_row hfree (j := j)
  have hheld := agFree_unheld hfree
  have hpos := runLen_pos (curAg (s.unit u) a) i (agSt (s.unit u) a).pos 63
  generalize hn : runLen (curAg (s.unit u) a) i (agSt (s.unit u) a).pos 63 = n at *
  have hgood : (upto n).find? (fun j => rowBad s u (curAg (s.unit u) a) (agSram (curAg (s.unit u) a) ((agSt (s.unit u) a).pos + j) i) true ||
      decide (agStack (curAg (s.unit u) a) ((agSt (s.unit u) a).pos + j) i < 0 ∨
        (stackRows (curAg (s.unit u) a).stk : Int) ≤ agStack (curAg (s.unit u) a) ((agSt (s.unit u) a).pos + j) i)) = none := by
    refine List.find?_eq_none.2 fun j hj => ?_
    have hj : j < n := List.mem_range.1 hj
    have hrows := hstack j hj
    rw [hrow j hj, Bool.false_or, decide_eq_true_eq]
    omega
  simp only [runRequest, hl, agFree_turn hfree, agFree_entry hfree, hn, hgood, Option.getD_none, if_neg hpos.ne', hheld,
    if_neg (not_or.2 ⟨Nat.not_le.2 hruns, Nat.not_le.2 hland⟩), Bool.not_true, Bool.false_eq_true, if_false]
  rw [unit_modMu_same, useTurn, modAg, unit_modMu_same, unit_modMu_same]
  rfl

/-! Stores. -/

theorem kst_modKs_same (s : State) (k : Nat) (f : Ks → Ks) : (s.modKs k f).kst k = f (s.kst k) := sget_smod_same _ _ _ _

theorem kst_modMu (s : State) (u k : Nat) (f : Mu → Mu) : (s.modMu u f).kst k = s.kst k := rfl
theorem kst_accessMade (s : State) (u a k : Nat) (x : UnitSt) : (accessMade s u a x).kst k = s.kst k := rfl

theorem onlyUnit_kst {s t : State} {u : Nat} (h : OnlyUnit s t u) (k : Nat) : t.kst k = s.kst k := by
  rw [State.kst, (onlyUnit_outside h).2.1, ← State.kst]

theorem kst_spill {w : Nat} (s : State) (key n k : Nat) (v : BitVec w) : (s.spill key v n).kst k = s.kst k := rfl

/-- A row written to a work stack. -/
def ksPut (s : State) (k row : Nat) (x : Row) : State := s.modKs k fun m => { m with mem := m.mem.write row x }

theorem ksPut_mem (s : State) (k row : Nat) (x : Row) : ((ksPut s k row x).kst k).mem = (s.kst k).mem.write row x := by
  rw [ksPut, kst_modKs_same]

/-- Writing a list of one row is writing that row. -/
theorem modKs_write_one (s : State) (k row : Nat) (x : Row) :
    (s.modKs k fun m => { m with mem := (upto [x].length).foldl (fun m i => m.write (row + i) (nth 0 [x] i)) m.mem }) = ksPut s k row x := rfl

/-- A work stack that works writes a row whose line its code does not lose, or that is written with its whole line (R187). -/
theorem ksWrite_row {s : State} {k : Nat} (row : Nat) (x : Row) {whole : Bool} {w : ReadErr} (ht : (s.kst k).trained = true)
    (hf : (s.kst k).failed = false) (hw : w ≠ .uncorrectable ∨ whole = true) :
    ∃ t, ksWrite s k row [x] whole w = (true, t) ∧ (t.kst k).mem = (s.kst k).mem.write row x ∧ t.units = s.units := by
  cases whole with
  | true => exact ⟨ksPut s k row x, by simp [ksWrite, ht, hf, ← modKs_write_one], ksPut_mem s k row x, rfl⟩
  | false =>
    cases w with
    | clean => exact ⟨ksPut s k row x, by simp [ksWrite, ht, hf, ← modKs_write_one], ksPut_mem s k row x, rfl⟩
    | corrected n =>
      obtain ⟨-, -, hunits⟩ := ksCorrected_frame s k 1
      have hmem : ((ksCorrected s k 1).kst k).mem = (s.kst k).mem := by rw [ksCorrected, kst_modKs_same, kst_spill]
      exact ⟨ksPut (ksCorrected s k 1) k row x, by simp [ksWrite, ht, hf, ← modKs_write_one], by rw [ksPut_mem, hmem],
        by rw [ksPut, State.modKs_units, hunits]⟩
    | uncorrectable => exact absurd rfl (hw.resolve_right Bool.false_ne_true)

/-- A STORE that nothing holds, and whose work stack takes the write, writes its row and waits for the acknowledgement (R126). -/
theorem store_writes {s : State} {u : Fin 9792} {a : Fin 4} (e : Ecc) {w : ReadErr} {lu : Nat} (hl : s.logical u = some lu)
    (hfree : AgFree s u a 4 false 0 1)
    (hstack : 0 ≤ agStack (curAg (s.unit u) a) (agSt (s.unit u) a).pos 0 ∧ agStack (curAg (s.unit u) a) (agSt (s.unit u) a).pos 0 < 1500000000)
    (hbank : (rankBank s lu u .low (agRow (s.unit u) a 0)).1 = true)
    (ht : (s.kst (physZone u / 12)).trained = true) (hf : (s.kst (physZone u / 12)).failed = false)
    (hw : w ≠ .uncorrectable ∨ wholeLine (curAg (s.unit u) a) (agSt (s.unit u) a).pos = true) :
    ∃ t, exec (.store u a e w) s = .next t ∧
      (t.kst (physZone u / 12)).mem = (s.kst (physZone u / 12)).mem.write (agStackRow (s.unit u) a 0)
        ((s.unit u).mu.sram.read (agRow (s.unit u) a 0)) ∧
      (t.unit u).mu.stores = (s.unit u).mu.stores ++ [⟨a.val, (agSt (s.unit u) a).issued,
        agStackRow (s.unit u) a 0, s.tick, (s.unit u).mu.sram.read (agRow (s.unit u) a 0)⟩] := by
  obtain ⟨hrow, hheld⟩ := agFree_one hfree
  have hturn : agTurn s u a agStore = true := agFree_turn hfree
  obtain ⟨t, hserve, hsram, honly, n, b, hmu⟩ := rankBank_reads e hbank
  obtain ⟨-, -, htick⟩ := onlyUnit_outside honly
  have hks := onlyUnit_kst honly (physZone u / 12)
  obtain ⟨g, l, hmade⟩ := accessMade_mu (sramEcc t u (agRow (s.unit u) a 0) e) u a (s.unit u)
  obtain ⟨r, hwrite, hmem, hunits⟩ := ksWrite_row (s := accessMade (sramEcc t u (agRow (s.unit u) a 0) e) u a (s.unit u)) (k := physZone u / 12)
    (agStackRow (s.unit u) a 0) ((s.unit u).mu.sram.read (agRow (s.unit u) a 0))
    ((congrArg Ks.trained hks).trans ht) ((congrArg Ks.failed hks).trans hf) hw
  rw [kst_accessMade, hks] at hmem
  have hexists : decide (agStack (curAg (s.unit u) a) (agSt (s.unit u) a).pos 0 < 0 ∨
      (stackRows 2 : Int) ≤ agStack (curAg (s.unit u) a) (agSt (s.unit u) a).pos 0) = false := by
    have hrows : stackRows 2 = 1500000000 := rfl
    rw [decide_eq_false_iff_not, hrows]
    omega
  refine ⟨r.modMu u fun m => { m with stores := m.stores ++ [⟨a.val, (agSt (s.unit u) a).issued,
    agStackRow (s.unit u) a 0, s.tick, (s.unit u).mu.sram.read (agRow (s.unit u) a 0)⟩] }, ?_, ?_, ?_⟩
  · rw [agRow] at hserve htick hwrite
    rw [accessMade, agStackRow] at hwrite
    show execStore u a e w s = _
    simp only [execStore, hl, hturn, agFree_entry hfree, hrow, hexists, hheld, hserve, hsram, hwrite, Bool.or_self, Bool.not_true,
      Bool.false_eq_true, if_false]
    rw [useTurn, modAg, State.modMu_tick, State.modMu_tick, htick]
    rfl
  · rw [kst_modMu, hmem]
  · rw [unit_modMu_same, State.unit, hunits, ← State.unit, hmade, hmu]

/-- An acknowledged STORE is waited for no more. -/
theorem storeAck_stores {s : State} {u : Fin 9792} {a : Fin 4} {e : StkStore} (hfind : (s.unit u).mu.stores.find? (fun e => e.ag == a.val) = some e)
    (ht : (s.kst (physZone u / 12)).trained = true) (hf : (s.kst (physZone u / 12)).failed = false) :
    ∃ t, exec (.storeAck u a) s = .next t ∧ (t.unit u).mu.stores = (s.unit u).mu.stores.erase e := by
  let s1 := modAg (s.modMu u fun m => { m with stores := m.stores.erase e }) u a fun st => completeAcc st e.acc
  have he : exec (.storeAck u a) s = .next (muEnd s1 u) := by
    show execStoreAck u a s = _
    simp only [execStoreAck, hfind, ht, hf, Bool.not_true, Bool.or_self, Bool.false_eq_true, if_false]
    rfl
  obtain ⟨n, l, hend⟩ := muEnd_mu s1 u
  refine ⟨_, he, ?_⟩
  rw [hend]
  simp only [s1, modAg, unit_modMu_same]

/-- Settles O28: an access that nothing holds takes the branch that makes it; the work stack writes what STORE has read. -/
theorem stackRequestRowsComplete : Obligations.StackRequestRowsComplete := by
  refine ⟨fun s u a lu i c k hc hl hfree hstack hruns hland => ?_, fun s u a e w lu hl hfree hstack hbank ht hf hw =>
    store_writes e hl hfree hstack hbank ht hf hw, fun s u a e hfind ht hf => storeAck_stores hfind ht hf⟩
  · have he : exec c s = .next (runRequest s u a k) := by
      rcases hc with ⟨rfl, rfl⟩ | ⟨rfl, rfl⟩ <;> rfl
    exact ⟨_, _, he, runRequest_requests hl hfree hstack hruns hland, agRun_fields s u a i _⟩

end Sys2Proof.Machine
end

section
/-! SUPPORT. SRAM_SCRUB and CONTEXT_SWITCH (R117, R118, R135, R136, R138, R150, R163), and O30. -/

namespace Sys2Proof.Machine

/-! The scrub. -/

theorem satAdd_zero {w : Nat} (v : BitVec w) : satAdd v 0 = v := by
  rw [satAdd, Nat.add_zero, if_pos v.isLt, BitVec.ofNat_toNat, BitVec.setWidth_eq]

theorem bumpBy_ctr (s : State) (u i n : Nat) : sget 0 ((bumpBy s u i n).unit u).ctr i = satAdd (sget 0 (s.unit u).ctr i) n := by
  unfold bumpBy
  split
  · next h => rw [h, satAdd_zero]
  · rw [unit_modUnit_same, sget_smod_same]

theorem unitFault_ctr (s : State) (u : Nat) (c : BitVec 8) (d : BitVec 64) : ((unitFault s u c d).unit u).ctr = (s.unit u).ctr := by
  obtain ⟨x, h⟩ := unitFault_unit s u c d
  rw [h, if_pos rfl]

theorem sramEcc_ctr (s : State) (u r : Nat) (e : Ecc) :
    sget 0 ((sramEcc s u r e).unit u).ctr itCorr = satAdd (sget 0 (s.unit u).ctr itCorr) (min e.corrected 8) := by
  unfold sramEcc
  dsimp only
  split
  · rw [unitFault_ctr, bumpBy_ctr]
  · exact bumpBy_ctr s u itCorr _

theorem detects_sramEcc (s : State) (u r : Nat) {e : Ecc} (h : e.double.isSome = true) : Detects (sramEcc s u r e) u 3 := by
  obtain ⟨y, hy, hu, hc⟩ := unitFault_detected (bumpBy s u itCorr (min e.corrected 8)) u cSram (BitVec.ofNat 64 (r % 8192))
  rw [Detects, sramEcc, if_pos h]
  exact ⟨y, hy, hu, hc 3 (by decide)⟩

/-- A scrub that is due, of a row whose bank nothing asks for, checks the row and passes to the next (R118, R119). -/
theorem exec_sramScrub {s : State} {u : Fin 9792} (e : Ecc) (hmu : isMu u = true) (hrun : (s.zone (physZone u)).running = true)
    (hdue : (s.unit u).mu.scrubCyc + 256 ≤ (s.zone (physZone u)).sched) (hbank : (s.unit u).mu.bankCyc ≠ (s.zone (physZone u)).sched)
    (hrecv : recvClaims s u (s.unit u).mu.scrubRow = false)
    (hclaims : ∀ lu, s.logical u = some lu →
      outranked s lu u .low (s.unit u).mu.scrubRow = false ∧ storeClaims s lu u (s.unit u).mu.scrubRow = false) :
    exec (.sramScrub u e) s = .next ((sramEcc s u (s.unit u).mu.scrubRow e).modMu u fun m =>
      { m with scrubRow := (m.scrubRow + 1) % 8192, scrubCyc := (s.zone (physZone u)).sched }) := by
  show execSramScrub u e s = _
  cases hl : s.logical u with
  | none => simp [execSramScrub, hmu, hrun, hdue, hbank, hrecv, hl]
  | some lu =>
    obtain ⟨hrank, hstore⟩ := hclaims lu hl
    simp [execSramScrub, hmu, hrun, hdue, hbank, hrecv, hl, hrank, hstore]

/-! Context selects. -/

/-- The fields of a context-select token (R136): the context in the lowest bits, the others reserved. -/
theorem fld_context {w : Nat} {v : BitVec w} (h : v.toNat < 4) : fld v 0 2 = v.toNat ∧ fld v 2 510 = 0 := by
  have hhigh : v.toNat >>> 2 = 0 := by rw [Nat.shiftRight_eq_div_pow, Nat.div_eq_of_lt h]
  exact ⟨by rw [fld, BitVec.extractLsb'_toNat, Nat.shiftRight_zero, Nat.mod_eq_of_lt h],
    by rw [fld, BitVec.extractLsb'_toNat, hhigh, Nat.zero_mod]⟩

theorem toNat_ofNat_context {k : Nat} (h : k < 4) : (BitVec.ofNat 512 k).toNat = k := by
  have hwidth : 2 ^ 2 ≤ 2 ^ 512 := Nat.pow_le_pow_right (by decide) (by decide)
  rw [BitVec.toNat_ofNat, Nat.mod_eq_of_lt (h.trans_le hwidth)]

theorem ctxWaiting_head {s : State} {lu u : Nat} {tok : Token} {rest : List Token} (he : muCtxselEn (s.unit u).cfg = true)
    (hq : (s.chan lu (muCtxsel (s.unit u).cfg)).queue = tok :: rest) (hg : tok.gen = (s.unit u).gen) :
    ctxWaiting s lu (s.unit u) = true := by
  simp [ctxWaiting, he, curTokens, hq, hg]

/-- A token of bad parity is taken from the queue and is a fault; nothing of the MU changes but that (R150). -/
theorem popToken_bad {s : State} {lu u p : Nat} {tok : Token} {rest : List Token} (hq : (s.chan lu p).queue = tok :: rest)
    (hg : tok.gen = (s.unit u).gen) (hp : parOk tok = false) :
    ∃ v : Token, popToken s lu u p = (some v, ((unitFault (dropHead s lu p) u cParity 0).takeFree 513).2) := by
  simp only [popToken, hq, hg, beq_self_eq_true, hp, if_true, Bool.false_eq_true, if_false]
  exact ⟨_, rfl⟩

/-- A change of a channel that keeps its queue keeps every queue. -/
theorem modChan_queue (s : State) (l q lu p : Nat) (f : Chan → Chan) (h : ∀ c, (f c).queue = c.queue) :
    ((s.modChan l q f).chan lu p).queue = (s.chan lu p).queue := by
  by_cases hk : 16 * lu + p = 16 * l + q
  · rw [State.chan, State.chan, hk]
    exact (congrArg Chan.queue (chan_modChan_same s l q f)).trans (h _)
  · exact congrArg Chan.queue (sget_smod_other _ s.chans _ f _ hk)

/-- Closing marked channels keeps units and queues. -/
theorem closeMarked_keeps (s : State) (l lu p : Nat) :
    (closeMarked s l).units = s.units ∧ ((closeMarked s l).chan lu p).queue = (s.chan lu p).queue := by
  have h : ((closeMarked s l).units, ((closeMarked s l).chan lu p).queue) = (s.units, (s.chan lu p).queue) := by
    unfold closeMarked
    refine forEach_keeps (fun s : State => (s.units, (s.chan lu p).queue)) _ (fun s q => ?_) _ s
    split
    · split
      · rw [State.modChan_units, modChan_queue s _ _ lu p (fun c => { c with closed := true }) fun _ => rfl]
      · rfl
    · rfl
  exact Prod.mk.inj h

/-- A running MU with no firing in progress, no access made in this schedule cycle and a context-select token at the head of its port (R135). -/
structure Selects (s : State) (u : Fin 9792) (lu : Nat) (tok : Token) (rest : List Token) : Prop where
  logical : s.logical u = some lu
  mu : isMu u = true
  runs : unitRuns s u = true
  loaded : (s.unit u).loaded = true
  stopped : (s.unit u).stopped = false
  firing : (s.unit u).firing = false
  switching : (s.unit u).mu.switching = false
  used : (s.unit u).mu.used = []
  enabled : muCtxselEn (s.unit u).cfg = true
  queue : (s.chan lu (muCtxsel (s.unit u).cfg)).queue = tok :: rest
  gen : tok.gen = (s.unit u).gen

/-- The MU of state s selects context k (R135, R138). -/
def ctxSelected (s : State) (lu u k : Nat) : State :=
  (closeMarked s lu).modUnit u fun x =>
    { x with ctxSwitches := if x.mu.ctx.toNat = k then x.ctxSwitches else satInc x.ctxSwitches
             mu := { x.mu with ctx := BitVec.ofNat 2 k, ctxFirings := 0, switching := true } }

section
variable {s : State} {u : Fin 9792} {lu : Nat} {tok : Token} {rest : List Token} (h : Selects s u lu tok rest)
include h

/-- In the schedule cycle of a generation switch a context select waits (R161). -/
theorem contextSwitch_waits (hs : (s.unit u).switched = some (s.zone (physZone u)).sched) : exec (.contextSwitch u) s = .next s := by
  show execContextSwitch u s = _
  simp [execContextSwitch, h.logical, hs]

variable (hs : (s.unit u).switched ≠ some (s.zone (physZone u)).sched)
include hs

/-- The MU takes the token, and selects the context that a good one names (R135, R136, R150). -/
theorem contextSwitch_takes {v : Token} {r : State} (hpop : popToken s lu u (muCtxsel (s.unit u).cfg) = (some v, r)) :
    exec (.contextSwitch u) s = .next (if parOk tok = false then r
      else if fld v.payload 2 510 ≠ 0 ∨ muCtxValid (s.unit u).cfg (fld v.payload 0 2) = false then unitFault r u cConfig 0
      else checkStranded (ctxSelected r lu u (fld v.payload 0 2)) lu u) := by
  show execContextSwitch u s = _
  simp [execContextSwitch, ctxSelected, h.logical, h.mu, h.runs, h.loaded, h.stopped, h.firing, h.switching, h.used,
    ctxWaiting_head h.enabled h.queue h.gen, hs, hpop, badHead, h.queue]

theorem contextSwitch_bad (hp : parOk tok = false) :
    exec (.contextSwitch u) s = .next ((unitFault (dropHead s lu (muCtxsel (s.unit u).cfg)) u cParity 0).takeFree 513).2 := by
  obtain ⟨v, hpop⟩ := popToken_bad h.queue h.gen hp
  rw [contextSwitch_takes h hs hpop, if_pos hp]

theorem contextSwitch_good (hp : parOk tok = true) {k : Nat} (hk : k < 4) (ht : tok.payload = BitVec.ofNat 512 k) :
    exec (.contextSwitch u) s = .next (if muCtxValid (s.unit u).cfg k = false then unitFault (dropHead s lu (muCtxsel (s.unit u).cfg)) u cConfig 0
      else checkStranded (ctxSelected (dropHead s lu (muCtxsel (s.unit u).cfg)) lu u k) lu u) := by
  have hnat := toNat_ofNat_context hk
  obtain ⟨hctx, hzero⟩ := fld_context (v := BitVec.ofNat 512 k) (by rwa [hnat])
  rw [contextSwitch_takes h hs (popToken_head ⟨h.queue, h.gen, hp⟩), if_neg (by rw [hp]; exact Bool.false_ne_true.symm), ht, hctx, hzero, hnat]
  simp only [ne_eq, not_true_eq_false, false_or]

end

theorem Filled.ctxSwitches {s t : State} {u : Nat} (h : Filled s t u) : (t.unit u).ctxSwitches = (s.unit u).ctxSwitches :=
  (congrArg UnitSt.ctxSwitches h :)

theorem ctxSelected_unit (s : State) (lu u k : Nat) :
    (ctxSelected s lu u k).unit u = { s.unit u with
      ctxSwitches := if (s.unit u).mu.ctx.toNat = k then (s.unit u).ctxSwitches else satInc (s.unit u).ctxSwitches
      mu := { (s.unit u).mu with ctx := BitVec.ofNat 2 k, ctxFirings := 0, switching := true } } := by
  obtain ⟨hunits, -⟩ := closeMarked_keeps s lu 0 0
  rw [ctxSelected, unit_modUnit_same, State.unit, hunits, ← State.unit]

/-- What the select of a context leaves in the MU and in its queues, where it also finds a token stranded (R162). -/
theorem ctxSelected_mu (s : State) (lu u k : Nat) :
    ((checkStranded (ctxSelected s lu u k) lu u).unit u).mu = { (s.unit u).mu with ctx := BitVec.ofNat 2 k, ctxFirings := 0, switching := true } := by
  rw [checkStranded_mu, ctxSelected_unit]

theorem ctxSelected_switches (s : State) (lu u k : Nat) :
    ((checkStranded (ctxSelected s lu u k) lu u).unit u).ctxSwitches =
      if (s.unit u).mu.ctx.toNat = k then (s.unit u).ctxSwitches else satInc (s.unit u).ctxSwitches := by
  rw [(checkStranded_filled _ lu u).ctxSwitches, ctxSelected_unit]

theorem ctxSelected_queue (s : State) (lu u k p : Nat) : ((checkStranded (ctxSelected s lu u k) lu u).chan lu p).queue = (s.chan lu p).queue := by
  rw [chan_congr (checkStranded_chans _ lu u)]
  exact (closeMarked_keeps s lu lu p).2

theorem unitFault_stops (s : State) (u : Nat) (d : BitVec 64) : ((unitFault s u cConfig d).unit u).stopped = true := by
  rw [unitFault, if_pos (by decide), unit_modUnit_same]

/-- Settles O30: a scrub that is due checks its row; a select that may be taken leaves the queue, and what it names decides. -/
theorem scrubAndContextComplete : Obligations.ScrubAndContextComplete := by
  refine ⟨fun s u e hmu hrun hdue hbank hrecv hclaims => ⟨_, exec_sramScrub e hmu hrun hdue hbank hrecv hclaims, ?_⟩,
    fun s u lu k tok rest hl hmu hr hld hst hf hsw hus hen hhead hk ht => ?_, fun s u lu tok rest hl hmu hr hld hst hf hsw hus hs hen hq hg hp => ?_⟩
  · rw [unit_modMu_same]
    dsimp only
    rw [sramEcc_mu]
    exact ⟨rfl, rfl, rfl, sramEcc_ctr s u _ e, fun h => detects_sramEcc s u _ h⟩
  · obtain ⟨hq, hg, hp⟩ := hhead
    have h : Selects s u lu tok rest := ⟨hl, hmu, hr, hld, hst, hf, hsw, hus, hen, hq, hg⟩
    have hrest := dropHead_head ⟨hq, hg, hp⟩
    refine ⟨contextSwitch_waits h, fun hs => ?_⟩
    rw [contextSwitch_good h hs hp hk ht]
    cases hv : muCtxValid (s.unit u).cfg k with
    | true =>
      refine ⟨_, rfl, (ctxSelected_queue _ lu u k _).trans hrest, fun _ => ?_, fun h => absurd h Bool.false_ne_true.symm⟩
      have hmu := ctxSelected_mu (dropHead s lu (muCtxsel (s.unit u).cfg)) lu u k
      have hcount := ctxSelected_switches (dropHead s lu (muCtxsel (s.unit u).cfg)) lu u k
      rw [dropHead_unit] at hmu hcount
      rw [if_neg Bool.false_ne_true.symm, hmu]
      exact ⟨rfl, rfl, rfl, hcount, rfl⟩
    | false =>
      refine ⟨_, rfl, ?_, fun h => absurd h Bool.false_ne_true, fun _ => ⟨?_, unitFault_stops _ _ _, ?_⟩⟩
      · rw [if_pos rfl, chan_congr (unitFault_chans _ _ _ _), hrest]
      · rw [if_pos rfl, unitFault_mu, dropHead_unit]
      · obtain ⟨y, hy, hu, hc⟩ := unitFault_detected (dropHead s lu (muCtxsel (s.unit u).cfg)) u cConfig 0
        exact ⟨y, hy, hu, hc 6 (by decide)⟩
  · have h : Selects s u lu tok rest := ⟨hl, hmu, hr, hld, hst, hf, hsw, hus, hen, hq, hg⟩
    refine ⟨_, contextSwitch_bad h hs hp, ?_, ?_, ?_⟩
    · rw [chan_congr (State.takeFree_chans _ _), chan_congr (unitFault_chans _ _ _ _), dropHead_queue, hq, List.tail_cons]
    · rw [unit_takeFree, unitFault_mu, dropHead_unit]
    · obtain ⟨y, hy, hu, hc⟩ := unitFault_detected (dropHead s lu (muCtxsel (s.unit u).cfg)) u cParity 0
      exact ⟨y, hy, hu, hc 1 (by decide)⟩

end Sys2Proof.Machine
end

section
/-! SUPPORT. Arrivals and returning credits (R14, R150, R152, R153, R169), and O25. -/

namespace Sys2Proof.Machine

/-! What the filling of a ring leaves of the channel it draws from. -/

/-- A channel but for its queue and the credits that tokens taken from it free. -/
def Chan.drawn (c : Chan) : Chan := { c with queue := [], credOut := [], back := [] }

theorem onlyUnit_chans {s t : State} {u : Nat} (h : OnlyUnit s t u) : t.chans = s.chans := by
  obtain ⟨hrec, -⟩ := h
  rw [hrec]

theorem dropHead_drawn (s : State) (lu p : Nat) : Chan.drawn ((dropHead s lu p).chan lu p) = Chan.drawn (s.chan lu p) := by
  have h (f : Chan → Chan) (z : Nat) : (noteMove (s.modChan lu p f) z).chan lu p = f (s.chan lu p) := chan_modChan_same s lu p f
  rw [dropHead, h]
  dsimp only
  split
  · rfl
  · split <;> rfl

theorem popToken_drawn (s : State) (lu u p : Nat) : Chan.drawn ((popToken s lu u p).2.chan lu p) = Chan.drawn (s.chan lu p) := by
  unfold popToken
  split
  · split
    · dsimp only
      split
      · exact dropHead_drawn s lu p
      · rw [chan_congr (State.takeFree_chans _ _), chan_congr (unitFault_chans _ _ _ _), dropHead_drawn]
    · rfl
  · rfl

/-- Filling a ring takes tokens from the queue of its port, and changes nothing else of the channel. -/
theorem ringFill_drawn (lu u p : Nat) : ∀ n s, Chan.drawn ((ringFill s lu u p n).chan lu p) = Chan.drawn (s.chan lu p)
  | 0, _ => rfl
  | n + 1, s => by
    have hpop := popToken_drawn s lu u p
    rw [ringFill]
    split
    · dsimp only
      split
      · rfl
      · split
        · next t s' hs =>
          rw [hs] at hpop
          rw [ringFill_drawn lu u p n, State.modCu, chan_congr (State.modUnit_chans _ _ _),
            chan_congr (onlyUnit_chans (useBanksAt_booked s' u _ _ _).only), hpop]
        · next s' hs =>
          rw [hs] at hpop
          rw [ringFill_drawn lu u p n, hpop]
    · rfl

/-! TOKEN_ARRIVAL. -/

/-- The token that comes off a channel: an upset on the way changes one bit of it (R150). -/
def upsetToken (tok : Token) : Option (Fin 516) → Token
  | some i => flipToken tok i
  | none => tok

/-- The channel has handed its oldest token past transit over in this schedule cycle (R14). -/
def handedOver (s : State) (lu p : Nat) (rest : List Token) : State :=
  s.modChan lu p fun c => { c with landed := rest, arrived := some (s.zone (zoneOf lu)).sched }

/-- At a crossing that is not parked the oldest token arrives, but only one in a schedule cycle (R14, R308). -/
theorem exec_tokenArrival {s : State} {lu : Fin 9216} {p : Fin 9} (f : Option (Fin 516)) {u : Nat} {tok : Token} {rest : List Token}
    (hu : s.phys lu = some u) (hl : (s.chan lu p).landed = tok :: rest) (hp : chanParked s lu p = false) :
    exec (.tokenArrival lu p f) s =
      .next (if arrivedNow s lu p then s else enqueue (handedOver s lu p rest) lu u p (upsetToken tok f)) := by
  show execTokenArrival lu p f s = _
  simp only [execTokenArrival, hu, hl, hp, Bool.false_or]
  cases f <;> rfl

theorem enqueue_landed (s : State) (lu u p : Nat) (t : Token) : ((enqueue s lu u p t).chan lu p).landed = (s.chan lu p).landed := by
  have hfill (r : State) : ((ringFill r lu u p 16).chan lu p).landed = (r.chan lu p).landed :=
    (congrArg Chan.landed (ringFill_drawn lu u p 16 r) :)
  unfold enqueue
  dsimp only
  generalize (!(s.chan lu p).boreRows.isEmpty || !(s.chan lu p).spill.isEmpty || decide (16 ≤ (s.chan lu p).queue.length)) = b
  have hmod : ((s.modChan lu p fun c => if b = true then { c with spill := c.spill ++ [t] } else { c with queue := c.queue ++ [t] }).chan lu p).landed
      = (s.chan lu p).landed := by
    rw [chan_modChan_same]
    split <;> rfl
  rw [chan_congr (checkStranded_chans _ _ _), hfill]
  split
  · exact hmod
  · rw [chan_congr (unitFault_chans _ _ _ _), hmod]

/-- A token joins what is at the port at its end: the queue while nothing waits and there is room, else what waits (R169). -/
theorem enqueued_order (t : Token) (c : Chan) :
    (enqueued t c).queue ++ (enqueued t c).spill = c.queue ++ c.spill ++ [t] ∧
      ((enqueued t c).queue.length ≤ 16 ∨ (enqueued t c).queue = c.queue) := by
  by_cases h : c.boreRows = [] ∧ c.spill = [] ∧ c.queue.length < 16
  · obtain ⟨hb, hs, hl⟩ := h
    rw [enqueued_of_room hb hs hl]
    exact ⟨by simp [hs], .inl (by simpa using hl)⟩
  · rw [enqueued_of_full (by simpa only [not_and_or, not_lt] using h)]
    exact ⟨by simp, .inr rfl⟩

theorem tokenArrival_inOrder (s : State) (lu : Fin 9216) (p : Fin 9) (f : Option (Fin 516)) (u : Nat) (tok : Token) (rest : List Token)
    (hu : s.phys lu = some u) (hl : (s.chan lu p).landed = tok :: rest) (hp : chanParked s lu p = false) (hn : arrivedNow s lu p = false) :
    ∃ t, exec (.tokenArrival lu p f) s = .next t ∧ (t.chan lu p).landed = rest ∧
      (isMu u = true ∨ curBind (s.unit u) (isMu u) false p = none →
        (t.chan lu p).queue ++ (t.chan lu p).spill = (s.chan lu p).queue ++ (s.chan lu p).spill ++ [upsetToken tok f] ∧
        ((t.chan lu p).queue.length ≤ 16 ∨ (t.chan lu p).queue = (s.chan lu p).queue)) := by
  have hchan : (handedOver s lu p rest).chan lu p =
      { s.chan lu p with landed := rest, arrived := some (s.zone (zoneOf lu)).sched } := chan_modChan_same s lu p _
  refine ⟨_, by rw [exec_tokenArrival f hu hl hp, hn, if_neg Bool.false_ne_true], by rw [enqueue_landed, hchan], fun hb => ?_⟩
  obtain ⟨hjoin, -⟩ := enqueue_idle (s := handedOver s lu p rest) (upsetToken tok f) hb
  rw [chan_congr hjoin, chan_modChan_same, hchan]
  exact enqueued_order _ _

/-! CREDIT_RETURN. -/

/-- A credit past its transit reaches the producer (R152, R153). -/
theorem exec_creditReturn {s : State} {lu : Fin 9216} {p : Fin 9} (h : 0 ∈ (s.chan lu p).back) (hp : chanParked s lu p = false) :
    exec (.creditReturn lu p) s = .next (s.modChan lu p fun c => { c with back := c.back.erase 0, spent := c.spent - 1 }) := by
  show execCreditReturn lu p s = _
  simp [execCreditReturn, h, hp]

/-- Settles O25: a token that arrives joins the end of what is at its port; a credit that returns is no longer spent. -/
theorem tokensArriveInOrder : Obligations.TokensArriveInOrder := by
  refine ⟨fun s lu p f u tok rest hu hl hp => ⟨fun hn => by rw [exec_tokenArrival f hu hl hp, hn, if_pos rfl],
    tokenArrival_inOrder s lu p f u tok rest hu hl hp⟩, fun s lu p h hp => ⟨_, exec_creditReturn h hp, ?_⟩⟩
  rw [chan_modChan_same]
  exact ⟨rfl, rfl, rfl, rfl⟩

end Sys2Proof.Machine
end

section
/-! SUPPORT. Writing to a bore and reading back from it (R117, R119, R140, R141, R169), and O26. -/

namespace Sys2Proof.Machine

/-! BORE_WRITE. -/

/-- A port after the oldest waiting token, tagged, has gone to row r of its bore of n rows, in schedule cycle at_ (R169). -/
def boreTaken (r at_ n : Nat) (tok : Token) (rest : List Token) (c : Chan) : Chan :=
  { c with spill := rest, boreRows := c.boreRows ++ [(r, at_, tagBits tok)], boreNext := (c.boreNext + 1) % n }

/-- The state once the waiting token of a port stands in row r of its bore; BORE_PEAK follows the rows that hold tokens. -/
def boreWritten (s : State) (lu p u r n : Nat) (tok : Token) (rest : List Token) : State :=
  let t := (s.modMu u fun m => { m with sram := m.sram.write r tok.payload }).modChan lu p
    (boreTaken r (s.zone (physZone u)).sched n tok rest)
  let k := (t.chan lu p).boreRows.length
  noteMove (t.modUnit u fun x => { x with borePeak := if x.borePeak.toNat < k then BitVec.ofNat 16 k else x.borePeak }) (zoneOf lu)

theorem boreWritten_chan (s : State) (lu p u r n : Nat) (tok : Token) (rest : List Token) :
    (boreWritten s lu p u r n tok rest).chan lu p = boreTaken r (s.zone (physZone u)).sched n tok rest (s.chan lu p) :=
  chan_modChan_same _ lu p _

theorem boreWritten_sram (s : State) (lu p u r n : Nat) (tok : Token) (rest : List Token) :
    ((boreWritten s lu p u r n tok rest).unit u).mu.sram = (s.unit u).mu.sram.write r tok.payload := by
  rw [boreWritten, noteMove, unit_modZpage, unit_modUnit_same]
  show ((s.modMu u fun m => { m with sram := m.sram.write r tok.payload }).unit u).mu.sram = _
  rw [unit_modMu_same]

/-- A waiting token of a running MU, with room in the bore its port writes to. -/
structure BoreDue (s : State) (lu p u base rows : Nat) (tok : Token) (rest : List Token) : Prop where
  phys : s.phys lu = some u
  spill : (s.chan lu p).spill = tok :: rest
  bore : boreNow s lu u p = some (base, rows)
  room : (s.chan lu p).boreRows.length < rows
  runs : s.quarterRuns (physZone u / 12) = true
  stopped : (s.unit u).stopped = false

/-- The next row of a bore (R169). -/
def boreRow (s : State) (lu p base rows : Nat) : Nat := base + (s.chan lu p).boreNext % rows

section
variable {s : State} {lu : Fin 9216} {p : Fin 9} {u base rows : Nat} {tok : Token} {rest : List Token}

/-- A bore row in a replay window is not written: a BOUNDS fault (R141). -/
theorem exec_boreWrite_replay (h : BoreDue s lu p u base rows tok rest) (hr : inReplay (s.unit u).cfg (boreRow s lu p base rows) = true) :
    exec (.boreWrite lu p) s = .next (unitFault s u cBounds 0) := by
  rw [boreRow] at hr
  show execBoreWrite lu p s = _
  simp [execBoreWrite, h.phys, h.spill, h.bore, h.room, h.runs, h.stopped, hr]

/-- Where the bank serves it, the oldest waiting token goes to the next row of the bore (R119, R169). -/
theorem exec_boreWrite {t : State} (h : BoreDue s lu p u base rows tok rest)
    (hr : inReplay (s.unit u).cfg (boreRow s lu p base rows) = false)
    (hb : rankBank s lu u .boreWrite (boreRow s lu p base rows) = (true, t)) :
    exec (.boreWrite lu p) s = .next (boreWritten t lu p u (boreRow s lu p base rows) rows tok rest) := by
  show execBoreWrite lu p s = _
  rw [boreRow] at hr hb ⊢
  have hgo : (decide (rows ≤ (s.chan lu p).boreRows.length) || !s.quarterRuns (physZone u / 12) || (s.unit u).stopped) = false := by
    simp [h.room, h.runs, h.stopped]
  simp only [execBoreWrite, h.phys, h.spill, h.bore, hgo, hr, hb, Bool.false_eq_true, if_false]
  rfl

theorem boreWrite_writes (h : BoreDue s lu p u base rows tok rest)
    (hr : inReplay (s.unit u).cfg (boreRow s lu p base rows) = false)
    (hb : (rankBank s lu u .boreWrite (boreRow s lu p base rows)).1 = true) :
    ∃ t, exec (.boreWrite lu p) s = .next t ∧ (t.chan lu p).spill = rest ∧
      (t.chan lu p).boreRows = (s.chan lu p).boreRows ++ [(boreRow s lu p base rows, (s.zone (physZone u)).sched, tagBits tok)] ∧
      (t.unit u).mu.sram = (s.unit u).mu.sram.write (boreRow s lu p base rows) tok.payload := by
  obtain ⟨n, b, hserved⟩ := rankBank_serves hb
  refine ⟨_, exec_boreWrite h hr hserved, ?_⟩
  rw [boreWritten_chan, boreWritten_sram, unit_modMu_same]
  exact ⟨rfl, rfl, rfl⟩

theorem boreWrite_refuses (h : BoreDue s lu p u base rows tok rest)
    (hr : inReplay (s.unit u).cfg (boreRow s lu p base rows) = true) :
    ∃ t d, exec (.boreWrite lu p) s = .next t ∧ d ∈ t.flt.detected ∧ d.unit = u ∧ bit d.causes 5 = true ∧
      (t.unit u).stopped = true ∧ (t.unit u).mu.sram = (s.unit u).mu.sram := by
  obtain ⟨d, hd, hu, hc⟩ := unitFault_detected s u cBounds 0
  refine ⟨_, d, exec_boreWrite_replay h hr, hd, hu, hc 5 (by decide), ?_, by rw [unitFault_mu]⟩
  rw [unitFault, if_pos (by decide), unit_modUnit_same]

end

/-! BORE_READBACK. -/

/-- A port whose oldest bore row, with token tok, has gone back into its queue; a bore that has so drained is older no more (R169, R171). -/
def boreRead (tok : Token) (rest : List (Nat × Nat × BitVec 4)) (c : Chan) : Chan :=
  { c with queue := c.queue ++ [tok], boreRows := rest, oldBore := if rest.isEmpty then none else c.oldBore,
           boreNext := if rest.isEmpty && c.oldBore.isSome then 0 else c.boreNext }

/-- The oldest bore row goes back into a queue with room, 2 schedule cycles after it was written (R169). -/
theorem exec_boreReadback {s t : State} {lu : Fin 9216} {p : Fin 9} (e : Ecc) {u r at_ : Nat} {tag : BitVec 4}
    {rest : List (Nat × Nat × BitVec 4)} (hu : s.phys lu = some u) (hb : (s.chan lu p).boreRows = (r, at_, tag) :: rest)
    (hq : (s.chan lu p).queue.length < 16) (ha : at_ + 2 ≤ (s.zone (physZone u)).sched) (hr : s.quarterRuns (physZone u / 12) = true)
    (hserved : rankBank s lu u .boreRead r = (true, t)) :
    exec (.boreReadback lu p e) s = .next (checkStranded
      (noteMove ((sramEcc t u r e).modChan lu p (boreRead (ofTag ((t.unit u).mu.sram.read r) tag) rest)) (zoneOf lu)) lu u) := by
  have hgo : (decide (16 ≤ (s.chan lu p).queue.length) || decide ((s.zone (physZone u)).sched < at_ + 2) ||
      !s.quarterRuns (physZone u / 12)) = false := by simp [hq, ha, hr]
  show execBoreReadback lu p e s = _
  simp only [execBoreReadback, hu, hb, hgo, hserved, Bool.false_eq_true, if_false]
  rfl

theorem boreReadback_reads (s : State) (lu : Fin 9216) (p : Fin 9) (e : Ecc) (u r at_ : Nat) (tag : BitVec 4)
    (rest : List (Nat × Nat × BitVec 4)) (hu : s.phys lu = some u) (hb : (s.chan lu p).boreRows = (r, at_, tag) :: rest)
    (hq : (s.chan lu p).queue.length < 16) (ha : at_ + 2 ≤ (s.zone (physZone u)).sched) (hr : s.quarterRuns (physZone u / 12) = true)
    (hbank : (rankBank s lu u .boreRead r).1 = true) :
    ∃ t, exec (.boreReadback lu p e) s = .next t ∧ (t.chan lu p).boreRows = rest ∧
      (t.chan lu p).queue = (s.chan lu p).queue ++ [ofTag ((s.unit u).mu.sram.read r) tag] ∧
      (t.unit u).mu.sram = (s.unit u).mu.sram := by
  obtain ⟨t, hserved, hsram, honly, n, b, hmu⟩ := rankBank_reads e hbank
  have hchan : (sramEcc t u r e).chan lu p = s.chan lu p := chan_congr (onlyUnit_chans honly) lu p
  refine ⟨_, exec_boreReadback e hu hb hq ha hr hserved, ?_⟩
  rw [chan_congr (checkStranded_chans _ _ _), noteMove, chan_congr (State.modZpage_chans _ _ _), chan_modChan_same, hchan, hsram,
    checkStranded_mu, unit_modZpage]
  refine ⟨rfl, rfl, ?_⟩
  show ((sramEcc t u r e).unit u).mu.sram = _
  rw [hmu]

/-- With no row in the bore a waiting token goes straight to a queue that has room (R169). -/
theorem exec_boreReadback_straight {s : State} {lu : Fin 9216} {p : Fin 9} (e : Ecc) {u : Nat} {tok : Token} {rest : List Token}
    (hu : s.phys lu = some u) (hb : (s.chan lu p).boreRows = []) (hs : (s.chan lu p).spill = tok :: rest)
    (hq : (s.chan lu p).queue.length < 16) :
    exec (.boreReadback lu p e) s = .next (checkStranded
      (s.modChan lu p fun c => { c with queue := c.queue ++ [tok], spill := rest, oldBore := none }) lu u) := by
  show execBoreReadback lu p e s = _
  simp [execBoreReadback, hu, hb, hs, hq]

/-- Settles O26: what BORE_WRITE takes from the waiting tokens, and BORE_READBACK from the bore, is the oldest. -/
theorem boreRowsComplete : Obligations.BoreRowsComplete := by
  refine ⟨fun s lu p u base rows tok rest hu hs hb hl hr hst => ?_, boreReadback_reads, fun s lu p e u tok rest hu hb hs hq =>
    ⟨_, exec_boreReadback_straight e hu hb hs hq, ?_⟩⟩
  · have h : BoreDue s lu p u base rows tok rest := ⟨hu, hs, hb, hl, hr, hst⟩
    exact ⟨boreWrite_writes h, boreWrite_refuses h⟩
  · rw [chan_congr (checkStranded_chans _ _ _), chan_modChan_same]
    exact ⟨rfl, rfl⟩

end Sys2Proof.Machine
end

section
/-! SUPPORT. Configuration sequences taken into the shadow (R150, R158 to R162), and O31. -/

namespace Sys2Proof.Machine

/-- From s to t unit u goes on with the configuration, the generation and the firing it has. -/
def RunsOn (s t : State) (u : Nat) : Prop :=
  (t.unit u).cfg = (s.unit u).cfg ∧ (t.unit u).gen = (s.unit u).gen ∧ (t.unit u).firing = (s.unit u).firing

theorem RunsOn.trans {s t r : State} {u : Nat} (h : RunsOn s t u) (h' : RunsOn t r u) : RunsOn s r u := by
  obtain ⟨hc, hg, hf⟩ := h
  obtain ⟨hc', hg', hf'⟩ := h'
  exact ⟨hc'.trans hc, hg'.trans hg, hf'.trans hf⟩

theorem Filled.runsOn {s t : State} {u : Nat} (h : Filled s t u) : RunsOn s t u :=
  ⟨(congrArg UnitSt.cfg h :), (congrArg UnitSt.gen h :), (congrArg UnitSt.firing h :)⟩

theorem Filled.shadow {s t : State} {u : Nat} (h : Filled s t u) : (t.unit u).shadow = (s.unit u).shadow :=
  (congrArg UnitSt.shadow h :)

theorem runsOn_modUnit (s : State) (u : Nat) (f : UnitSt → UnitSt) (h : ∀ x, (f x).cfg = x.cfg ∧ (f x).gen = x.gen ∧ (f x).firing = x.firing) :
    RunsOn s (s.modUnit u f) u := by
  rw [RunsOn, unit_modUnit_same]
  exact h _

theorem runsOn_unitFault (s : State) (u : Nat) (c : BitVec 8) (d : BitVec 64) : RunsOn s (unitFault s u c d) u :=
  (unitFault_booked s u c d).filled.runsOn

/-! What a token of a sequence does to the shadow. -/

theorem portAbsorbed_shadow (s : State) (lu u p : Nat) :
    ((portAbsorbed s lu u p).unit u).shadow =
      { (s.unit u).shadow with absorbed := setBit (s.unit u).shadow.absorbed p true } := by
  rw [portAbsorbed, unit_modUnit_same]
  rfl

theorem portAbsorbed_runsOn (s : State) (lu u p : Nat) : RunsOn s (portAbsorbed s lu u p) u :=
  runsOn_modUnit (s.modChan lu p fun c => { c with absorbing := 0 }) u _ fun _ => ⟨rfl, rfl, rfl⟩

theorem carrierIn_runsOn (s : State) (lu u p : Nat) : RunsOn s (carrierIn s lu u p) u := by
  obtain ⟨x, h⟩ := carrierIn_unit s lu u p
  rw [RunsOn, h]
  exact ⟨rfl, rfl, rfl⟩

theorem carrierIn_shadow (s : State) (lu u p : Nat) :
    ((carrierIn s lu u p).unit u).shadow =
      { (s.unit u).shadow with carriers := (s.unit u).shadow.carriers + 1, carrierPort := p } := by
  obtain ⟨x, h⟩ := carrierIn_unit s lu u p
  rw [h]
  rfl

/-- Token k of a sequence has been counted at its port. -/
def sequenceCounted (s : State) (lu p k : Nat) : State := s.modChan lu p fun c => { c with absorbing := k + 1 }

/-- Token k of a carrier stands in the shadow configuration, at bytes 64 k to 64 k + 63 (R160). -/
def carrierPut (s : State) (lu u p k : Nat) (t : Token) : State :=
  (sequenceCounted s lu p k).modUnit u fun x =>
    { x with shadow := { x.shadow with cfg := setFld x.shadow.cfg (512 * k) 512 t.payload.toNat, count := k + 1 } }

theorem carrierPut_shadow (s : State) (lu u p k : Nat) (t : Token) :
    ((carrierPut s lu u p k t).unit u).shadow =
      { (s.unit u).shadow with cfg := setFld (s.unit u).shadow.cfg (512 * k) 512 t.payload.toNat, count := k + 1 } := by
  rw [carrierPut, unit_modUnit_same]
  rfl

theorem carrierPut_runsOn (s : State) (lu u p k : Nat) (t : Token) : RunsOn s (carrierPut s lu u p k t) u :=
  runsOn_modUnit (sequenceCounted s lu p k) u _ fun _ => ⟨rfl, rfl, rfl⟩

theorem carrierPut_absorbing (s : State) (lu u p k : Nat) (t : Token) : ((carrierPut s lu u p k t).chan lu p).absorbing = k + 1 := by
  rw [carrierPut, chan_congr (State.modUnit_chans _ _ _), sequenceCounted, chan_modChan_same]

/-- What token k of a port's sequence brings about: a one-token sequence ends the port's, a carrier's token goes to the shadow, and a sequence R162 forbids is a fault. -/
def sequenceTaken (s : State) (lu u p k : Nat) (t : Token) : State :=
  if k = 0 && t.last then
    if t.payload = 0 then portAbsorbed s lu u p else unitFault (portAbsorbed s lu u p) u cConfig 0
  else if 32 ≤ k then
    if t.last then portAbsorbed (unitFault (sequenceCounted s lu p k) u cConfig 0) lu u p else sequenceCounted s lu p k
  else if t.last then
    if k = 31 then carrierIn (portAbsorbed (carrierPut s lu u p k t) lu u p) lu u p
    else unitFault (portAbsorbed (carrierPut s lu u p k t) lu u p) u cConfig 0
  else carrierPut s lu u p k t

theorem sequenceTaken_runsOn (s : State) (lu u p k : Nat) (t : Token) : RunsOn s (sequenceTaken s lu u p k t) u := by
  have hport := portAbsorbed_runsOn s lu u p
  have hput := (carrierPut_runsOn s lu u p k t).trans (portAbsorbed_runsOn _ lu u p)
  have hcount : RunsOn s (sequenceCounted s lu p k) u := ⟨rfl, rfl, rfl⟩
  unfold sequenceTaken
  split
  · split
    · exact hport
    · exact hport.trans (runsOn_unitFault _ u _ _)
  · split
    · split
      · exact (hcount.trans (runsOn_unitFault _ u _ _)).trans (portAbsorbed_runsOn _ lu u p)
      · exact hcount
    · split
      · split
        · exact hput.trans (carrierIn_runsOn _ lu u p)
        · exact hput.trans (runsOn_unitFault _ u _ _)
      · exact carrierPut_runsOn s lu u p k t

theorem sequenceTaken_single {t : Token} (s : State) (lu u p : Nat) (hl : t.last = true) (hp : t.payload = 0) :
    sequenceTaken s lu u p 0 t = portAbsorbed s lu u p := by
  simp [sequenceTaken, hl, hp]

theorem sequenceTaken_next {t : Token} {k : Nat} (s : State) (lu u p : Nat) (hk : k < 31) (hl : t.last = false) :
    sequenceTaken s lu u p k t = carrierPut s lu u p k t := by
  have hk : ¬ 32 ≤ k := by omega
  simp [sequenceTaken, hl, hk]

theorem sequenceTaken_last {t : Token} (s : State) (lu u p : Nat) (hl : t.last = true) :
    sequenceTaken s lu u p 31 t = carrierIn (portAbsorbed (carrierPut s lu u p 31 t) lu u p) lu u p := by
  simp [sequenceTaken, hl]

/-! CONFIG_TOKEN_ABSORB. -/

/-- The token at the head of a port has left its queue in schedule cycle n, as the one that the port absorbs then (R160). -/
def headAbsorbed (s : State) (lu p n : Nat) : State := (dropHead s lu p).modChan lu p fun c => { c with absorbCyc := some n }

section
variable {s : State} {lu : Fin 9216} {p : Fin 9} {u : Nat} {tok : Token} {rest : List Token} (hu : s.phys lu = some u)
  (hq : (s.chan lu p).queue = tok :: rest)
include hu hq

/-- A port absorbs one token in a schedule cycle (R160). -/
theorem configTokenAbsorb_waits (hc : (s.chan lu p).absorbCyc = some (s.zone (physZone u)).sched) :
    exec (.configTokenAbsorb lu p) s = .next s := by
  show execConfigTokenAbsorb lu p s = _
  simp [execConfigTokenAbsorb, hu, hq, hc]

/-- A configuration token of even parity goes where its place in the sequence says; the queue it leaves may fill a ring (R158 to R160). -/
theorem exec_configTokenAbsorb (hh : headIsCfg (s.unit u) (s.chan lu p) p = true) (hr : unitRuns s u = true) (hp : parOk tok = true)
    (hc : (s.chan lu p).absorbCyc ≠ some (s.zone (physZone u)).sched) :
    exec (.configTokenAbsorb lu p) s = .next (checkStranded (ringFill
      (sequenceTaken (headAbsorbed s lu p (s.zone (physZone u)).sched) lu u p (s.chan lu p).absorbing tok) lu u p 16) lu u) := by
  have hgo : (!headIsCfg (s.unit u) (s.chan lu p) p || !unitRuns s u || decide ((s.chan lu p).absorbCyc = some (s.zone (physZone u)).sched)) = false := by
    simp [hh, hr, hc]
  show execConfigTokenAbsorb lu p s = _
  simp only [execConfigTokenAbsorb, hu, hq, hgo, hp, Bool.not_true, Bool.false_eq_true, if_false]
  rfl

end

/-- Settles O31: whatever the token's place in its sequence, the unit goes on with what it runs, and the place decides what the shadow takes. -/
theorem configTokensAreAbsorbed : Obligations.ConfigTokensAreAbsorbed := by
  intro s lu p u tok rest hu hq hh hr
  refine ⟨configTokenAbsorb_waits hu hq, fun hp hc => ⟨_, exec_configTokenAbsorb hu hq hh hr hp hc, ?_⟩⟩
  generalize hs1 : headAbsorbed s lu p (s.zone (physZone u)).sched = s1
  have hunit : s1.unit u = s.unit u := by rw [← hs1]; rfl
  have hfill (r : State) : Filled r (checkStranded (ringFill r lu u p 16) lu u) u :=
    (ringFill_filled lu u p 16 r).trans (checkStranded_filled _ lu u)
  have hrun : RunsOn s s1 u := by rw [RunsOn, hunit]; exact ⟨rfl, rfl, rfl⟩
  obtain ⟨hcfg, hgen, hfiring⟩ := (hrun.trans (sequenceTaken_runsOn s1 lu u p (s.chan lu p).absorbing tok)).trans (hfill _).runsOn
  refine ⟨hcfg, hgen, hfiring, fun hk hl hpay => ?_, fun hk hl => ⟨?_, ?_⟩, fun hk hl => ?_⟩
  · rw [(hfill _).shadow, hk, sequenceTaken_single s1 lu u p hl hpay, portAbsorbed_shadow, hunit]
  · rw [(hfill _).shadow, sequenceTaken_next s1 lu u p hk hl, carrierPut_shadow, hunit]
  · rw [chan_congr (checkStranded_chans _ _ _), sequenceTaken_next s1 lu u p hk hl]
    exact (congrArg Chan.absorbing (ringFill_drawn lu u p 16 _)).trans (carrierPut_absorbing s1 lu u p _ tok)
  · rw [(hfill _).shadow, hk, sequenceTaken_last s1 lu u p hl, carrierIn_shadow, portAbsorbed_shadow, carrierPut_shadow, hunit]

end Sys2Proof.Machine
end

section
/-! SUPPORT. The switch of generations (R115, R139, R159, R161, R171), and O32. -/

namespace Sys2Proof.Machine

/-! What the filling of a unit's rings leaves of clocks and configurations. -/

/-- The zones' clocks and the configurations of the logical units. -/
def State.clocksAndCfgs (s : State) : Sparse ZoneClk × Sparse UnitCfg := (s.zones, s.cfgOf)

theorem onlyUnit_clocksAndCfgs {s t : State} {u : Nat} (h : OnlyUnit s t u) : t.clocksAndCfgs = s.clocksAndCfgs := by
  obtain ⟨hrec, -⟩ := h
  rw [hrec]
  rfl

theorem popToken_clocksAndCfgs (s : State) (lu u p : Nat) : (popToken s lu u p).2.clocksAndCfgs = s.clocksAndCfgs := by
  unfold popToken
  split
  · split
    · dsimp only
      split
      · rfl
      · have hfault := onlyUnit_clocksAndCfgs (onlyUnit_unitFault (dropHead s lu p) u cParity 0)
        exact hfault
    · rfl
  · rfl

theorem ringFill_clocksAndCfgs (lu u p : Nat) : ∀ n s, (ringFill s lu u p n).clocksAndCfgs = s.clocksAndCfgs
  | 0, _ => rfl
  | n + 1, s => by
    have hpop := popToken_clocksAndCfgs s lu u p
    rw [ringFill]
    split
    · dsimp only
      split
      · rfl
      · split
        · next t s' hs =>
          rw [hs] at hpop
          rw [ringFill_clocksAndCfgs lu u p n]
          exact (onlyUnit_clocksAndCfgs (useBanksAt_booked s' u _ _ _).only).trans hpop
        · next s' hs =>
          rw [hs] at hpop
          rw [ringFill_clocksAndCfgs lu u p n, hpop]
    · rfl

theorem refill_clocksAndCfgs (s : State) (u : Nat) : (refill s u).clocksAndCfgs = s.clocksAndCfgs := by
  unfold refill
  split
  · exact forEach_keeps State.clocksAndCfgs _ (fun s p => ringFill_clocksAndCfgs _ u p 16 s) _ s
  · rfl

theorem zone_of_clocksAndCfgs {s t : State} (h : t.clocksAndCfgs = s.clocksAndCfgs) (z : Nat) : t.zone z = s.zone z := by
  have hz : t.zones = s.zones := congrArg Prod.fst h
  rw [State.zone, hz, ← State.zone]

/-! Pocket accesses of cycles still open are not counted. -/

/-- The schedule cycles whose pocket accesses of unit u are not over: the present one, and the one the unit has stepped into (R87). -/
def openCycles (s : State) (u : Nat) : List Nat := (s.zone (physZone u)).sched :: (s.unit u).cu.stepped.toList

/-- Unit u's counters read c, and it has no pocket access of a schedule cycle that is over. -/
def NothingDue (s : State) (u : Nat) (c : Sparse Word) : Prop :=
  (s.unit u).ctr = c ∧ ∀ a ∈ (s.unit u).cu.banks, a.1 ∈ openCycles s u

/-- Where every access is of an open cycle, none is deferred, and none counted. -/
theorem closeBanks_ctr_open {s : State} {u : Nat} {o : List Nat} (h : ∀ a ∈ (s.unit u).cu.banks, a.1 ∈ o) :
    ((closeBanks s u o).unit u).ctr = (s.unit u).ctr := by
  unfold closeBanks
  extract_lets c past d wait s1
  have hpast : past = [] := List.filter_eq_nil_iff.2 fun t ht => by
    obtain ⟨a, ha, rfl⟩ := List.mem_map.1 (List.mem_dedup.1 ht)
    simp [h a ha]
  have hd : d = [] := by simp only [d, hpast, List.flatMap_nil]
  have hs1 : (s1.unit u).ctr = (s.unit u).ctr := by rw [unit_modCu_same]
  rw [hd]
  exact hs1

theorem NothingDue.of_unit {s t : State} {u : Nat} {c : Sparse Word} (h : NothingDue s u c) (hz : t.zone (physZone u) = s.zone (physZone u))
    (hc : (t.unit u).ctr = (s.unit u).ctr) (hb : (t.unit u).cu.banks = (s.unit u).cu.banks)
    (hs : (t.unit u).cu.stepped = (s.unit u).cu.stepped) : NothingDue t u c := by
  obtain ⟨hctr, hopen⟩ := h
  refine ⟨hc.trans hctr, ?_⟩
  rw [openCycles, hz, hs, hb]
  exact hopen

theorem popToken_unit (s : State) (lu u p : Nat) : ∃ x, (popToken s lu u p).2.unit u = { s.unit u with stopped := x } := by
  unfold popToken
  split
  · split
    · dsimp only
      split
      · exact ⟨(s.unit u).stopped, rfl⟩
      · obtain ⟨x, hx⟩ := unitFault_unit (dropHead s lu p) u cParity 0
        exact ⟨x, by rw [unit_takeFree, hx, if_pos rfl, dropHead_unit]⟩
    · exact ⟨(s.unit u).stopped, rfl⟩
  · exact ⟨(s.unit u).stopped, rfl⟩

theorem NothingDue.popToken {s : State} {u : Nat} {c : Sparse Word} (h : NothingDue s u c) (lu p : Nat) :
    NothingDue (popToken s lu u p).2 u c := by
  obtain ⟨x, hx⟩ := popToken_unit s lu u p
  refine h.of_unit (zone_of_clocksAndCfgs (popToken_clocksAndCfgs s lu u p) _) ?_ ?_ ?_
  all_goals rw [hx]

/-- An access of the present cycle is not due yet. -/
theorem NothingDue.useBanksAt {s : State} {u : Nat} {c : Sparse Word} (h : NothingDue s u c) (rank : Nat) (bs : List Nat) :
    NothingDue (useBanksAt s u (s.zone (physZone u)).sched rank bs) u c := by
  unfold Machine.useBanksAt
  split
  · exact h
  · obtain ⟨hctr, hopen⟩ := h
    obtain ⟨d, -, hcu⟩ := closeBanks_cu s u (openCycles s u)
    have hzone : (closeBanks s u (openCycles s u)).zone (physZone u) = s.zone (physZone u) :=
      zone_of_clocksAndCfgs (onlyUnit_clocksAndCfgs (closeBanks_booked s u _).only) _
    refine ⟨?_, ?_⟩
    · rw [unit_modCu_same]
      exact (closeBanks_ctr_open hopen).trans hctr
    · have hcycles : openCycles ((closeBanks s u (openCycles s u)).modCu u fun c =>
          { c with banks := c.banks ++ [((s.zone (physZone u)).sched, rank, bs)] }) u = openCycles s u := by
        rw [openCycles, unit_modCu_same, State.modCu]
        show ((closeBanks s u (openCycles s u)).zone (physZone u)).sched :: _ = _
        rw [hzone, hcu, ← openCycles]
      intro a ha
      rw [← openCycles] at ha ⊢
      rw [hcycles]
      rw [unit_modCu_same, hcu] at ha
      rcases List.mem_append.1 ha with ha | ha
      · exact hopen a (List.mem_filter.1 ha).1
      · rw [List.mem_singleton.1 ha]
        exact List.mem_cons_self

theorem NothingDue.ringFill {u : Nat} {c : Sparse Word} (lu p : Nat) : ∀ (n : Nat) {s : State}, NothingDue s u c → NothingDue (ringFill s lu u p n) u c
  | 0, _, h => h
  | n + 1, s, h => by
    have hpop := h.popToken lu p
    rw [Machine.ringFill]
    split
    · dsimp only
      split
      · exact h
      · split
        · next t s' hs =>
          rw [hs] at hpop
          refine NothingDue.ringFill lu p n ((hpop.useBanksAt 0 _).of_unit rfl ?_ ?_ ?_)
          all_goals rw [unit_modCu_same]
        · next s' hs =>
          rw [hs] at hpop
          exact NothingDue.ringFill lu p n hpop
    · exact h

theorem nothingDue_forEach {α : Type} {u : Nat} {c : Sparse Word} {f : State → α → State}
    (hf : ∀ s a, NothingDue s u c → NothingDue (f s a) u c) : ∀ (l : List α) (s : State), NothingDue s u c → NothingDue (forEach l s f) u c
  | [], _, h => h
  | a :: l, s, h => nothingDue_forEach hf l (f s a) (hf s a h)

theorem NothingDue.refill {s : State} {u : Nat} {c : Sparse Word} (h : NothingDue s u c) : NothingDue (refill s u) u c := by
  unfold Machine.refill
  split
  · next lu _ => exact nothingDue_forEach (fun t p ht => ht.ringFill lu p 16) (upto 9) s h
  · exact h

/-! GENERATION_SWITCH. -/

/-- The ports of lu after a switch from the bores `old` to `new_`: where they differ, an old one that holds tokens drains on (R171). -/
def boresTurned (s : State) (lu : Nat) (old new_ : Nat → Option (Nat × Nat)) : State :=
  forEach (upto 9) s fun s p =>
    if old p = new_ p then s
    else s.modChan lu p fun c =>
      if c.boreRows.isEmpty then { c with boreNext := 0 }
      else { c with oldBore := if c.oldBore.isSome then c.oldBore else old p }

theorem boresTurned_keeps (s : State) (lu : Nat) (old new_ : Nat → Option (Nat × Nat)) :
    (boresTurned s lu old new_).units = s.units ∧ (boresTurned s lu old new_).zones = s.zones := by
  have h : ((boresTurned s lu old new_).units, (boresTurned s lu old new_).zones) = (s.units, s.zones) := by
    unfold boresTurned
    refine forEach_keeps (fun s : State => (s.units, s.zones)) _ (fun s p => ?_) _ s
    split
    · rfl
    · rw [State.modChan_units, State.modChan_zones]
  exact Prod.mk.inj h

/-- The ports of unit u's logical unit lu as the shadow configuration has their bores. -/
def boresSwitched (s : State) (u lu : Nat) : State :=
  boresTurned s lu (fun p => if isMu u && (s.unit u).loaded then boreOf (s.unit u).cfg p else none)
    fun p => if isMu u then boreOf (s.unit u).shadow.cfg p else none

theorem boresSwitched_keeps (s : State) (u lu : Nat) : (boresSwitched s u lu).unit u = s.unit u ∧ (boresSwitched s u lu).zones = s.zones := by
  obtain ⟨hunits, hzones⟩ := boresTurned_keeps s lu (fun p => if isMu u && (s.unit u).loaded then boreOf (s.unit u).cfg p else none)
    fun p => if isMu u then boreOf (s.unit u).shadow.cfg p else none
  exact ⟨by rw [State.unit, boresSwitched, hunits, ← State.unit], hzones⟩

/-- The accesses of the cycles before are accounted, and the unit is of the next generation. -/
def nextGenStarted (s : State) (u lu : Nat) : State :=
  (closeBanks (boresSwitched s u lu) u (openCycles s u)).modUnit u fun y =>
    { nextGen y (s.unit u).shadow.cfg with switched := some (s.zone (physZone u)).sched }

/-- Logical unit lu has the configuration cfg, of the plan entry that was due for it first. -/
def cfgPlaced (t : State) (lu : Nat) (cfg : UnitCfg) : State :=
  { t with entryOf := sset none t.entryOf lu (sget [] t.entryDue lu).head?, entryDue := sset [] t.entryDue lu (sget [] t.entryDue lu).tail,
           cfgOf := sset 0 t.cfgOf lu cfg }

theorem cfgPlaced_units (t : State) (lu : Nat) (cfg : UnitCfg) : (cfgPlaced t lu cfg).units = t.units := rfl
theorem cfgPlaced_zones (t : State) (lu : Nat) (cfg : UnitCfg) : (cfgPlaced t lu cfg).zones = t.zones := rfl
theorem cfgPlaced_cfgOf (t : State) (lu : Nat) (cfg : UnitCfg) : sget 0 (cfgPlaced t lu cfg).cfgOf lu = cfg := sget_sset_same _ _ _ _

/-- The unit's shadow has become its configuration (R161). -/
def shadowActive (s : State) (u lu : Nat) : State := cfgPlaced (nextGenStarted s u lu) lu (s.unit u).shadow.cfg

/-- The unit after the switch is the next generation of one that has but accounted its pocket accesses. -/
theorem shadowActive_unit (s : State) (u lu : Nat) :
    ∃ y : UnitSt, y.core = (s.unit u).core ∧ (∀ a ∈ y.cu.banks, a.1 ∈ openCycles s u) ∧
      (shadowActive s u lu).unit u = { nextGen y (s.unit u).shadow.cfg with switched := some (s.zone (physZone u)).sched } := by
  obtain ⟨hunit, -⟩ := boresSwitched_keeps s u lu
  have hcore : Filled (boresSwitched s u lu) (closeBanks (boresSwitched s u lu) u (openCycles s u)) u := (closeBanks_booked _ u _).filled
  obtain ⟨d, -, hcu⟩ := closeBanks_cu (boresSwitched s u lu) u (openCycles s u)
  refine ⟨(closeBanks (boresSwitched s u lu) u (openCycles s u)).unit u, by rw [hcore, hunit], fun a ha => ?_, ?_⟩
  · rw [hcu] at ha
    simpa using (List.mem_filter.1 ha).2
  · rw [State.unit, shadowActive, cfgPlaced_units, ← State.unit, nextGenStarted, unit_modUnit_same]

theorem shadowActive_zone (s : State) (u lu z : Nat) : (shadowActive s u lu).zone z = s.zone z := by
  obtain ⟨-, hbores⟩ := boresSwitched_keeps s u lu
  obtain ⟨hclose, -⟩ := onlyUnit_outside (closeBanks_booked (boresSwitched s u lu) u (openCycles s u)).only
  rw [State.zone, shadowActive, cfgPlaced_zones, nextGenStarted, State.modUnit_zones, hclose, hbores, ← State.zone]

/-- The switch starts the counters from 0, and no access of an earlier cycle is left to count in them. -/
theorem shadowActive_nothingDue (s : State) (u lu : Nat) : NothingDue (shadowActive s u lu) u [] := by
  obtain ⟨y, hcore, hopen, hunit⟩ := shadowActive_unit s u lu
  have hstep : y.cu.stepped = (s.unit u).cu.stepped := (congrArg (fun x : UnitSt => x.cu.stepped) hcore :)
  refine ⟨by rw [hunit]; rfl, ?_⟩
  rw [openCycles, shadowActive_zone, hunit]
  show ∀ a ∈ y.cu.banks, a.1 ∈ _ :: y.cu.stepped.toList
  rw [hstep]
  exact hopen

/-- A running program that binds a fenced crossing is noted at its quarter, and nothing else changes (R24). -/
theorem dueCrossing_changes (s : State) (q : Nat) : ∃ l, dueCrossing s q = { s with quarters := l } := by
  unfold dueCrossing
  split
  · split
    · exact ⟨s.quarters, rfl⟩
    · exact ⟨_, rfl⟩
  · exact ⟨s.quarters, rfl⟩

section
variable {s : State} {u : Fin 9792} {lu : Nat} (hl : s.logical u = some lu)
include hl

/-- In the schedule cycle in which its conditions come about, the switch waits (R161). -/
theorem generationSwitch_waits (hs : (s.unit u).settled = some (s.zone (physZone u)).sched) : exec (.generationSwitch u) s = .next s := by
  show execGenerationSwitch u s = _
  simp [execGenerationSwitch, hl, hs]

theorem exec_generationSwitch (hr : unitRuns s u = true) (hready : switchReady (s.unit u) (isMu u) = true)
    (hs : (s.unit u).settled ≠ some (s.zone (physZone u)).sched) :
    exec (.generationSwitch u) s = .next (dueCrossing (refill (shadowActive s u lu) u) (physZone u / 12)) := by
  have hgo : ¬ (!unitRuns s u || !switchReady (s.unit u) (isMu u) || decide ((s.unit u).settled = some (s.zone (physZone u)).sched)) = true := by
    simp [hr, hready, hs]
  show execGenerationSwitch u s = _
  unfold execGenerationSwitch
  rw [hl]
  refine congrArg Host.Outcome.next ((if_neg hgo).trans ?_)
  extract_lets cfg s1 s2 due s3
  have hgen : s2 = nextGenStarted s u lu := rfl
  rw [shadowActive, ← hgen]
  clear_value s2
  rfl

end

/-- A unit does not fire in the schedule cycle of a switch (R161). -/
theorem canFire_switched {s : State} {u : Nat} (lu : Nat) (h : (s.unit u).switched = some (s.zone (physZone u)).sched) :
    canFire s lu u = false := by
  simp [canFire, h]

/-- Settles O32: the next generation of the unit stands, and what fills its rings then counts nothing and changes nothing else of it. -/
theorem generationSwitchCompletes : Obligations.GenerationSwitchCompletes := by
  intro s u lu hl hr hready
  refine ⟨generationSwitch_waits hl, fun hs => ⟨_, exec_generationSwitch hl hr hready hs, ?_⟩⟩
  obtain ⟨l, hdue⟩ := dueCrossing_changes (refill (shadowActive s u lu) u) (physZone u / 12)
  have hrest := refill_clocksAndCfgs (shadowActive s u lu) u
  have hcfgOf : (refill (shadowActive s u lu) u).cfgOf = (shadowActive s u lu).cfgOf := congrArg Prod.snd hrest
  have hzone := zone_of_clocksAndCfgs hrest (physZone u)
  have hfill : Filled (shadowActive s u lu) (refill (shadowActive s u lu) u) u := refill_filled _ _
  obtain ⟨hctr, -⟩ := (shadowActive_nothingDue s u lu).refill
  obtain ⟨y, hcore, -, hunit⟩ := shadowActive_unit s u lu
  rw [hdue]
  rw [Filled, hunit] at hfill
  refine ⟨(congrArg UnitSt.cfg hfill :), (congrArg UnitSt.loaded hfill :), ?_, (congrArg UnitSt.firings hfill :),
    (congrArg UnitSt.shadow hfill :), fun i => ?_, (congrArg UnitSt.borePeak hfill :), (congrArg UnitSt.ctxSwitches hfill :),
    (congrArg (fun x : UnitSt => x.cu.pcs) hfill :), (congrArg (fun x : UnitSt => x.mu.ctx) hfill :), ?_, ?_, canFire_switched lu ?_⟩
  · exact (congrArg UnitSt.gen hfill :).trans (congrArg (fun x : UnitSt => x.gen + 1) hcore :)
  · show sget 0 ((refill (shadowActive s u lu) u).unit u).ctr i = 0
    rw [hctr]
    rfl
  · exact (congrArg (fun x : UnitSt => x.mu.sram) hfill :).trans (congrArg (fun x : UnitSt => x.mu.sram) hcore :)
  · show sget 0 (refill (shadowActive s u lu) u).cfgOf lu = _
    rw [hcfgOf, shadowActive, cfgPlaced_cfgOf]
  · show ((refill (shadowActive s u lu) u).unit u).switched = some ((refill (shadowActive s u lu) u).zone (physZone u)).sched
    rw [hzone, shadowActive_zone]
    exact (congrArg UnitSt.switched hfill :)

end Sys2Proof.Machine
end

section
/-! SUPPORT. What events, completions, the end of a service and a halt leave of quarters, zone pages and fault records (R308, R366 to R369, R375, R378, R379, R383). -/

namespace Sys2Proof.Machine

/-! Events and completions. -/

/-- The quarters, the zones' pages and the records of faults. -/
def State.faultParts (s : State) : Sparse Quarter × Sparse ZonePage × List FaultRec := (s.quarters, s.zpages, s.flt.recs)

theorem modQueue_faultParts (s : State) (n : Nat) (f : CmdQ → CmdQ) : (s.modQueue n f).faultParts = s.faultParts := rfl
theorem modSvc_faultParts (s : State) (l : Nat) (f : Svc → Svc) : (s.modSvc l f).faultParts = s.faultParts := rfl
theorem modSeqq_faultParts (s : State) (q : Nat) (f : SeqQ → SeqQ) : (s.modSeqq q f).faultParts = s.faultParts := rfl
theorem setSummary_faultParts (s : State) (i : Nat) : (setSummary s i).faultParts = s.faultParts := rfl
theorem lifeInc_faultParts (s : State) (w : Nat) : (lifeInc s w).faultParts = s.faultParts := rfl
theorem hostWrite_faultParts (s : State) (addr n v : Nat) : (hostWrite s addr n v).faultParts = s.faultParts := rfl
theorem localSend_faultParts (s : State) (q f : Nat) (h : Row) (d : List (Row × Bool)) : (localSend s q f h d).faultParts = s.faultParts := rfl
theorem dropHint_faultParts (s : State) (n k : Nat) : (dropHint s n k).faultParts = s.faultParts := rfl

theorem captureField_faultParts (s : State) (v : Word) (z : Nat) : (captureField s v z).faultParts = s.faultParts := by
  unfold captureField
  split <;> rfl

theorem postEvent_faultParts (s : State) (e : Event) : (postEvent s e).faultParts = s.faultParts := by
  obtain ⟨v, f, l, h⟩ := postEvent_changes s e
  rw [h]
  rfl

theorem checkMsi_faultParts (s : State) (n : Nat) : (checkMsi s n).faultParts = s.faultParts := by
  unfold checkMsi sendMsi
  dsimp only
  split
  · rw [modQueue_faultParts, hostWrite_faultParts]
  · rfl

theorem writeCompl_faultParts (s : State) (n : Nat) (c : Compl) : (writeCompl s n c).faultParts = s.faultParts := by
  unfold writeCompl
  dsimp only
  split
  · rw [checkMsi_faultParts, modQueue_faultParts, modQueue_faultParts, hostWrite_faultParts]
  · rw [modQueue_faultParts, hostWrite_faultParts]

theorem postCompl_faultParts (s : State) (n : Nat) (c : Compl) : (postCompl s n c).faultParts = s.faultParts := by
  unfold postCompl
  dsimp only
  split
  · rfl
  · split
    · exact writeCompl_faultParts s n c
    · exact modQueue_faultParts s n _

theorem completeDesc_faultParts (s : State) (n : Nat) (x : Exec) (status result : Nat) :
    (completeDesc s n x status result).faultParts = s.faultParts := by
  rw [completeDesc, postCompl_faultParts, modQueue_faultParts, dropHint_faultParts]

theorem resetDone_faultParts (s : State) (n : Nat) : (resetDone s n).faultParts = s.faultParts := by
  unfold resetDone
  dsimp only
  split
  · exact modQueue_faultParts s n _
  · rfl

theorem endBad_faultParts (s : State) (n : Nat) : (endBad s n).faultParts = s.faultParts := by
  unfold endBad
  dsimp only
  split
  · rfl
  · rw [forEach_keeps State.faultParts _ (fun s d => completeDesc_faultParts s n _ _ _), modQueue_faultParts]

theorem fetchOne_faultParts (s : State) (n : Nat) : (fetchOne s n).faultParts = s.faultParts := by
  unfold fetchOne
  dsimp only
  split
  · rfl
  · rw [modQueue_faultParts, localSend_faultParts]

/-- The end of the descriptor that holds a queue. -/
theorem finishRun_faultParts (s : State) (n status result : Nat) : (finishRun s n status result).faultParts = s.faultParts := by
  unfold finishRun
  split
  · rw [badTurn, fetchKick, fetchOne_faultParts, fetchOne_faultParts, endBad_faultParts, resetDone_faultParts, completeDesc_faultParts,
      modQueue_faultParts]
  · rfl

/-! The end of a service. -/

theorem setSvcState_faultParts (s : State) (l : Nat) (st : SvcState) : (setSvcState s l st).faultParts = s.faultParts := by
  unfold setSvcState
  split
  · rfl
  · exact postEvent_faultParts _ _

theorem svcClear_faultParts (s : State) (l : Nat) : (svcClear s l).faultParts = s.faultParts := by
  unfold svcClear
  dsimp only
  rw [modSeqq_faultParts, forEach_keeps State.faultParts _ (fun s q => modSeqq_faultParts s q _), modSvc_faultParts, setSvcState_faultParts]

theorem freeSets_faultParts (s : State) (l : Nat) (r : Req) : (freeSets s l r).faultParts = s.faultParts :=
  forEach_keeps State.faultParts _ (fun s ⟨q, p⟩ => by
    show (setFree s l q (sget [] (s.service l).free q ++ [p])).faultParts = _
    rw [setFree, modSeqq_faultParts, modSvc_faultParts]) _ s

theorem endReq_faultParts (s : State) (l : Nat) (r : Req) (status : Nat) : (endReq s l r status).faultParts = s.faultParts := by
  unfold endReq
  extract_lets s1 s2
  have h2 : s2.faultParts = s.faultParts := by
    rw [modQueue_faultParts, dropHint_faultParts, modSvc_faultParts, freeSets_faultParts]
  rw [resetDone_faultParts]
  split
  · exact h2
  · rw [reqCompl, postCompl_faultParts, h2]

theorem svcOff_faultParts (s : State) (l status : Nat) : (svcOff s l status).faultParts = s.faultParts := by
  rw [svcOff, svcClear_faultParts, forEach_keeps State.faultParts _ (fun s r => endReq_faultParts s l r status)]

/-! A halt, and its end by a reset alone. -/

theorem stopZones_faultParts (s : State) (q : Nat) : (stopZones s q).faultParts = s.faultParts := by
  obtain ⟨z, b, h⟩ := stopZones_changes s q
  rw [h]
  rfl

/-- A quarter that halts is marked so (R308, R410). -/
theorem haltQuarter_faultParts {s : State} {q : Nat} (h : (s.quarter q).halted = false) :
    (haltQuarter s q).faultParts = (s.modQuarter q fun x => { x with halted := true }).faultParts := by
  rw [haltQuarter, if_neg (by simp [h])]
  extract_lets s1 s2
  have h2 : s2.faultParts = (s.modQuarter q fun x => { x with halted := true }).faultParts := stopZones_faultParts _ q
  clear_value s2
  split
  · split
    · rw [setSvcState_faultParts, h2]
    · exact h2
  · exact h2

theorem quarter_of_faultParts {s t : State} (h : t.faultParts = s.faultParts) (q : Nat) : t.quarter q = s.quarter q := by
  have hq : t.quarters = s.quarters := congrArg Prod.fst h
  rw [State.quarter, hq, ← State.quarter]

theorem zpage_of_faultParts {s t : State} (h : t.faultParts = s.faultParts) (z : Nat) : t.zpage z = s.zpage z := by
  have hz : t.zpages = s.zpages := congrArg (fun x => x.2.1) h
  rw [State.zpage, hz, ← State.zpage]

theorem recs_of_faultParts {s t : State} (h : t.faultParts = s.faultParts) : t.flt.recs = s.flt.recs := congrArg (fun x => x.2.2) h

theorem quarter_modQuarter_same (s : State) (q : Nat) (f : Quarter → Quarter) : (s.modQuarter q f).quarter q = f (s.quarter q) :=
  sget_smod_same _ _ _ _

/-- After a halt the quarter is halted, and pages and records are as they were. -/
theorem haltQuarter_outcome (s : State) (q : Nat) :
    (haltQuarter s q).quarter q = { s.quarter q with halted := true } ∧ (∀ z, (haltQuarter s q).zpage z = s.zpage z) ∧
      (haltQuarter s q).flt.recs = s.flt.recs := by
  cases h : (s.quarter q).halted with
  | true =>
    rw [haltQuarter, if_pos h, ← h]
    exact ⟨rfl, fun _ => rfl, rfl⟩
  | false =>
    have hparts := haltQuarter_faultParts h
    exact ⟨(quarter_of_faultParts hparts q).trans (quarter_modQuarter_same s q _), fun z => (zpage_of_faultParts hparts z :),
      (recs_of_faultParts hparts :)⟩

/-- A quarter whose halt only a reset ends has no replay to come (R410). -/
theorem endQuarter_quarter (s : State) (q : Nat) :
    (endQuarter s q).quarter q = { s.quarter q with lockHalt := true, replay := none } := by
  unfold endQuarter
  extract_lets s1 s2
  have h2 : s2.faultParts = s1.faultParts := by
    simp only [s2]
    split
    · exact svcOff_faultParts _ _ _
    · rfl
  have h1 : s1.quarter q = { s.quarter q with lockHalt := true, replay := none } := quarter_modQuarter_same s q _
  rw [← h1]
  split
  · rw [quarter_of_faultParts (finishRun_faultParts _ _ _ _), quarter_of_faultParts h2]
  · exact quarter_of_faultParts h2 q

end Sys2Proof.Machine
end

section
/-! SUPPORT. DEADLOCK and FAULT_HALT of a fault whose action is RESET (R174, R175, R408 to R412), and O33. -/

namespace Sys2Proof.Machine

/-! DEADLOCK. -/

/-- The fault that a deadlock leaves for its quarter (R174). -/
def deadlockFault (z : Nat) : PendFault := ⟨z, none, .reset, 1, true⟩

/-- The record of a deadlock is a zone's, with action RESET (Tables 14-1 to 14-3). -/
structure DeadlockRec (z : Nat) (r : FaultRec) : Prop where
  kind : r.kind = 1
  zone : r.zone = BitVec.ofNat 6 z
  cause : r.cause = 1
  action : r.action = 5

/-- A deadlock's record is appended and announced; its fault waits among the quarter's, which halts. -/
theorem recordZone_deadlock (s : State) (z : Nat) (d : BitVec 64) :
    ∃ r e v, DeadlockRec z r ∧ recordZone s z 1 false d =
      haltQuarter ((captureField (lifeInc (postEvent (setSummary (addRec s r) sumZone) e) lifeZoneFaults) v z).modQuarter (z / 12) fun x =>
        { x with faults := x.faults ++ [deadlockFault z] }) (z / 12) := by
  refine ⟨_, _, _, ?_, by unfold recordZone; rfl⟩
  exact ⟨rfl, rfl, rfl, rfl⟩

/-- What a deadlock leaves: the newest record is its own, and the quarter is halted with one more fault. -/
theorem recordZone_deadlock_outcome (s : State) (z : Nat) (d : BitVec 64) :
    (∃ r, DeadlockRec z r ∧ (recordZone s z 1 false d).flt.recs.head? = some r) ∧
      (recordZone s z 1 false d).quarter (z / 12) =
        { s.quarter (z / 12) with halted := true, faults := (s.quarter (z / 12)).faults ++ [deadlockFault z] } ∧
      ∀ i, (recordZone s z 1 false d).zpage i = s.zpage i := by
  obtain ⟨r, e, v, hr, h⟩ := recordZone_deadlock s z d
  generalize hs1 : captureField (lifeInc (postEvent (setSummary (addRec s r) sumZone) e) lifeZoneFaults) v z = s1 at h
  have hparts : s1.faultParts = (addRec s r).faultParts := by
    rw [← hs1, captureField_faultParts, lifeInc_faultParts, postEvent_faultParts, setSummary_faultParts]
  obtain ⟨hquarter, hpage, hrecs⟩ := haltQuarter_outcome
    (s1.modQuarter (z / 12) fun x => { x with faults := x.faults ++ [deadlockFault z] }) (z / 12)
  rw [h]
  refine ⟨⟨{ r with seq := s.flt.seq + 1 }, ⟨hr.kind, hr.zone, hr.cause, hr.action⟩, ?_⟩, ?_, fun i => ?_⟩
  · rw [hrecs, State.modQuarter_flt, recs_of_faultParts hparts]
    rfl
  · rw [hquarter, quarter_modQuarter_same, quarter_of_faultParts hparts]
    rfl
  · exact (hpage i).trans (zpage_of_faultParts hparts i)

/-- A watch that has reached its limit trips: the stalled channels are kept and the fault is recorded (R174, R175). -/
theorem exec_deadlock {s : State} {z : Fin 48} (hc : 65536 ≤ (s.zpage z).dlwCount.toNat) (ht : (s.zpage z).tripped = false) :
    exec (.deadlock z) s = .next (recordZone
      ((s.modZpage z fun p => { p with tripped := true, recs := (stallRecs s z).take 16 }).raise (0x100824 + 0x4000 * z.val) (oneBit 31))
      z 1 false (BitVec.ofNat 64 ((stallRecs s z).take 16).length)) := by
  have hgo : (decide (65536 ≤ (s.zpage z).dlwCount.toNat) && !(s.zpage z).tripped) = true := by simp [hc, ht]
  show execDeadlock z s = _
  rw [execDeadlock]
  exact congrArg Host.Outcome.next (if_pos hgo)

theorem deadlock_halts (s : State) (z : Fin 48) (hc : 65536 ≤ (s.zpage z).dlwCount.toNat) (ht : (s.zpage z).tripped = false) :
    ∃ t r, exec (.deadlock z) s = .next t ∧ (t.zpage z).tripped = true ∧ (t.zpage z).recs = (stallRecs s z).take 16 ∧
      (t.quarter (z.val / 12)).halted = true ∧ (t.quarter (z.val / 12)).replay = (s.quarter (z.val / 12)).replay ∧
      (t.quarter (z.val / 12)).faults = (s.quarter (z.val / 12)).faults ++ [⟨z.val, none, .reset, 1, true⟩] ∧
      t.flt.recs.head? = some r ∧ r.kind = 1 ∧ r.cause = 1 ∧ r.action = 5 ∧ r.zone.toNat = z.val := by
  obtain ⟨⟨r, hr, hhead⟩, hquarter, hpage⟩ := recordZone_deadlock_outcome
    ((s.modZpage z fun p => { p with tripped := true, recs := (stallRecs s z).take 16 }).raise (0x100824 + 0x4000 * z.val) (oneBit 31))
    z (BitVec.ofNat 64 ((stallRecs s z).take 16).length)
  have hzone : r.zone.toNat = z.val := by
    rw [hr.zone, BitVec.toNat_ofNat, Nat.mod_eq_of_lt (z.isLt.trans (by decide))]
  have hown := (hpage z).trans (zpage_modZpage_same s z _)
  refine ⟨_, r, exec_deadlock hc ht, ?_⟩
  rw [hquarter, hown]
  exact ⟨rfl, rfl, rfl, rfl, rfl, hhead, hr.kind, hr.cause, hr.action, hzone⟩

/-! FAULT_HALT. -/

/-- RESET is the most severe action (R412). -/
theorem foldl_worse_reset : ∀ (l : List Action) (a : Action), a = .reset ∨ .reset ∈ l → l.foldl worse a = .reset
  | [], _, h => h.resolve_right List.not_mem_nil
  | b :: l, a, h => by
    rw [List.foldl_cons]
    refine foldl_worse_reset l _ ?_
    rcases h with rfl | h
    · exact .inl (by cases b <;> rfl)
    · rcases List.mem_cons.1 h with rfl | h
      · exact .inl (by cases a <;> rfl)
      · exact .inr h

theorem worstAction_reset {x : Quarter} {f : PendFault} (h : f ∈ x.faults) (ha : f.action = .reset) : worstAction x = .reset :=
  foldl_worse_reset _ _ (.inr (ha ▸ List.mem_map_of_mem h))

/-- A halted quarter with a fault of action RESET, all its units' faults reported, ends its work; a quiesce due follows (R410, R412). -/
theorem exec_faultHalt_reset {s : State} {q : Fin 4} {f : PendFault} (h : f ∈ (s.quarter q).faults) (ha : f.action = .reset)
    (hr : (s.quarter q).inReset = false) (hu : unreported s q = false) (hh : quarterHalted s q = true) :
    ∃ b, exec (.faultHalt q) s = .next (quiesceIfDue (endQuarter (haltQuarter
      (s.modQuarter q fun x => { x with faults := [], dataLost := b }) q) q) q) := by
  have hgo : ¬ ((s.quarter q).faults.isEmpty || (s.quarter q).inReset || unreported s q || !(atBoundary s q || quarterHalted s q)) = true := by
    simp [hr, hu, hh, List.ne_nil_of_mem h]
  have hact := worstAction_reset h ha
  refine ⟨(s.quarter q).dataLost || (s.quarter q).faults.any fun f => !f.isZone && bit f.cause 4, ?_⟩
  show execFaultHalt q s = _
  unfold execFaultHalt
  refine congrArg Host.Outcome.next ((if_neg hgo).trans ?_)
  rw [hact]
  rfl

theorem faultHalt_ends (s : State) (q : Fin 4) (f : PendFault) (h : f ∈ (s.quarter q).faults) (ha : f.action = .reset)
    (hr : (s.quarter q).inReset = false) (hu : unreported s q = false) (hh : quarterHalted s q = true) :
    ∃ t, exec (.faultHalt q) s = .next t ∧ (t.quarter q).replay = none ∧ (t.quarter q).lockHalt = true ∧ (t.quarter q).faults = [] ∧
      (t.quarter q).halted = true := by
  obtain ⟨b, hx⟩ := exec_faultHalt_reset h ha hr hu hh
  obtain ⟨hquarter, -⟩ := haltQuarter_outcome (s.modQuarter q fun x => { x with faults := [], dataLost := b }) q
  refine ⟨_, hx, ?_⟩
  rw [State.quarter, (quiesceIfDue_quieter _ q.isLt).quarters, ← State.quarter, endQuarter_quarter, hquarter, quarter_modQuarter_same]
  exact ⟨rfl, rfl, rfl, rfl⟩

/-- Settles O33: the watch that trips records a fault of action RESET, and such a fault leaves the quarter halted for good. -/
theorem deadlockHaltsTheQuarter : Obligations.DeadlockHaltsTheQuarter := ⟨deadlock_halts, faultHalt_ends⟩

end Sys2Proof.Machine
end

section
/-! SUPPORT. Writes of the streamer's control register (R10, R163, R167, R168, Tables 5-8 and 5-9), and O34. -/

namespace Sys2Proof.Machine

/-! A write that no other meets. -/

/-- An untouched register that is no word of the persistent store takes a write that is not ignored: what else the write notes is of the tick alone. -/
theorem winWrite_applies {s : State} {off : Nat} (p : WinPort) (v : Word) (hw : Writable s off) (ha : off % 4 = 0) (hwp : wpWord off = none)
    (hi : ignoredWrite s p off v = false) : (winWrite s p off v).toBody = (applyWrite s p .good off v).toBody := by
  obtain ⟨hready, hun⟩ := hw
  have hopen : ¬ ((4 : Nat) ≠ 4 ∨ off % 4 ≠ 0 ∨ (!writeOpen s off) = true) := by simp [ha, writeOpen_of_ready hready]
  rw [winWrite, winWriteEnv, if_neg hopen, hwp, fabricFirst_of_untouched hun]
  dsimp only
  rw [hi, if_neg Bool.false_ne_true, plainWrite, keepUndo_toBody, writtenValue_of_untouched hun]
  rfl

/-- Offset of CFG_CTL of quarter q (Table 15-13). -/
def cfgCtl (q : Fin 4) : Nat := 0xD000C + 0x40 * q.val

/-- CFG_CTL is an aligned word of its own, outside the persistent store, and no write of it is ignored. -/
theorem cfgCtl_plain (q : Fin 4) : cfgCtl q % 4 = 0 ∧ wpWord (cfgCtl q) = none ∧
    ∀ (s : State) (p : WinPort) (v : Word), ignoredWrite s p (cfgCtl q) v = false ∧
      applyWrite s p .good (cfgCtl q) v = writeCfg s q 0x0C v := by
  fin_cases q <;> exact ⟨rfl, rfl, fun _ _ _ => ⟨rfl, rfl⟩⟩

theorem cfgQ_of_toBody {s t : State} (h : t.toBody = s.toBody) (q : Nat) : t.cfgQ q = s.cfgQ q :=
  congrArg (fun b : Body => sget CfgQ.init b.cfgq q) h

theorem winWrite_cfgCtl {s : State} {q : Fin 4} (p : WinPort) (v : Word) (hw : Writable s (cfgCtl q)) :
    (winWrite s p (cfgCtl q) v).cfgQ q = (writeCfg s q 0x0C v).cfgQ q := by
  obtain ⟨ha, hwp, hplain⟩ := cfgCtl_plain q
  obtain ⟨hi, happly⟩ := hplain s p v
  rw [cfgQ_of_toBody (winWrite_applies p v hw ha hwp hi), happly]

/-! START. -/

/-- A streamer that firmware has started on the plan its registers name, at tick n (R168). -/
def planBegun (n : Nat) (c : CfgQ) : CfgQ :=
  { c with start := true, state := 1, error := 0, entry := 0, taken := 0, items := [], owner := none, asked := n,
           planAddr := c.planLo.toNat * 64 + c.planHi.toNat * 2 ^ 32, planSrc := c.src, planLen := c.entries.toNat }

section
variable {s : State} {q : Nat} (hs : (s.cfgQ q).start = false) (ha : (s.cfgQ q).aborted = false) (hr : (s.quarter q).inReset = false)
include hs ha hr

/-- A plan with entries begins, and the channels that it feeds are marked. -/
theorem cfgBegin_begins (he : (s.cfgQ q).entries ≠ 0) : (cfgBegin s q none).cfgQ q = planBegun s.tick (s.cfgQ q) := by
  have hn : (s.cfgQ q).entries.toNat ≠ 0 := fun h => he (BitVec.eq_of_toNat_eq h)
  unfold cfgBegin cfgBeginPlan
  simp only [hs, ha, hr, hn, Bool.or_self, Bool.false_eq_true, if_false]
  rw [cfgQ_congr (forEach_keeps (fun s : State => s.cfgq) _ (fun s i => markChans_cfgq s _ _) _ _), cfgQ_modCfg_same]
  rfl

/-- A plan of no entries stops at once with error 1 (Table 5-9). -/
theorem cfgBegin_empty (he : (s.cfgQ q).entries = 0) : (cfgBegin s q none).cfgQ q = planEnded 1 (planBegun s.tick (s.cfgQ q)) := by
  have hn : (s.cfgQ q).entries.toNat = 0 := by rw [he]; rfl
  unfold cfgBegin cfgBeginPlan
  simp only [hs, ha, hr, hn, Bool.or_self, Bool.false_eq_true, if_false, if_true]
  rw [planEnd_cfgQ 1 (by rw [cfgQ_modCfg_same]), cfgQ_modCfg_same, planBegun, hn]

end

/-! The two commands. -/

theorem exec_start {s : State} {q : Fin 4} (p : WinPort) (hw : Writable s (cfgCtl q)) :
    ∃ t, exec (.start p q) s = .next t ∧ t.cfgQ q = (cfgBegin s q none).cfgQ q := ⟨_, rfl, winWrite_cfgCtl p 1 hw⟩

theorem exec_abort {s : State} {q : Fin 4} (p : WinPort) (hw : Writable s (cfgCtl q)) :
    ∃ t, exec (.abort p q) s = .next t ∧ t.cfgQ q = (cfgAbort s q).cfgQ q := ⟨_, rfl, winWrite_cfgCtl p 2 hw⟩

/-- A plan that runs on a halted quarter is stopped (R168). -/
theorem cfgAbort_stops {s : State} {q : Nat} (hs : (s.cfgQ q).start = true) (hh : quarterHalted s q = true) :
    cfgAbort s q = planEnd s q 4 := if_pos (by rw [hs, hh]; rfl)

/-- Settles O34: a write of START or ABORT that nothing else of its tick meets begins, or stops, the plan. -/
theorem streamerControlCompletes : Obligations.StreamerControlCompletes := by
  refine ⟨fun s p q hw hs ha hr => ?_, fun s p q hw hs ho hh => ?_⟩
  · obtain ⟨t, hx, ht⟩ := exec_start p hw
    refine ⟨t, hx, fun he => ?_, fun he => ?_⟩
    · rw [ht, cfgBegin_begins hs ha hr he]
      exact ⟨rfl, rfl, rfl, rfl, rfl, rfl, rfl, rfl⟩
    · rw [ht, cfgBegin_empty hs ha hr he]
      exact ⟨rfl, rfl, rfl⟩
  · obtain ⟨t, hx, ht⟩ := exec_abort p hw
    rw [cfgAbort_stops hs hh, planEnd_cfgQ 4 ho] at ht
    refine ⟨t, hx, ?_⟩
    rw [ht]
    exact ⟨rfl, rfl, rfl, Bool.or_true _, rfl⟩

end Sys2Proof.Machine
end

section
/-! SUPPORT. Weight and work stacks: what wear, retention and refresh leave as it was (R184, R188, R189, R193 to R198, R216), and O47. -/

namespace Sys2Proof.Machine

/-! What an operation on a weight stack leaves of it. -/

/-- All of a weight stack but the state and data of its blocks, its wear record and its refresh. -/
def Ws.core (w : Ws) : Ws :=
  { w with blocks := [], mem := [], refresh := none, wearBlock := 0, wearTime := 0, wearAge := 0, wearTick := 0 }

/-- What a stack's core holds is the same where the cores are. -/
theorem Ws.eq_of_core {α : Type} (f : Ws → α) (hf : ∀ w, f w.core = f w) {w w' : Ws} {x : α} (h : w.core = w'.core) (hx : f w' = x) :
    f w = x := by
  rw [← hf w, h, hf, hx]

theorem freeBlocks_changes : ∀ (l : List Nat) (w : Ws), ∃ b, l.foldl freeBlock w = { w with blocks := b }
  | [], w => ⟨w.blocks, rfl⟩
  | _ :: l, w => by
    obtain ⟨b, hb⟩ := freeBlocks_changes l (freeBlock w _)
    exact ⟨b, hb⟩

theorem takeBlock_changes {w w' : Ws} {k n : Nat} (h : takeBlock w k = some (n, w')) : ∃ b m, w' = { w with blocks := b, mem := m } := by
  unfold takeBlock at h
  split at h
  · cases h
  · obtain ⟨b, -, hb⟩ := Option.map_eq_some_iff.1 h
    cases hb
    exact ⟨_, _, rfl⟩

theorem wst_refreshKick_other (s : State) {j k : Nat} (h : j ≠ k) : (refreshKick s k).wst j = s.wst j := wst_modWs_other s _ h

/-- A refresh that begins takes a block, and nothing else of the stack changes (R197). -/
theorem refreshKick_core (s : State) (k j : Nat) : ((refreshKick s k).wst j).core = (s.wst j).core := by
  by_cases hj : j = k
  · subst hj
    rw [refreshKick, wst_modWs_same]
    split
    · rfl
    · split
      · split
        · next h =>
          obtain ⟨b, m, rfl⟩ := takeBlock_changes h
          rfl
        · rfl
      · rfl
  · rw [wst_refreshKick_other s hj]

/-- Writing the wear table changes only the wear record and the block it goes to (R193, R196). -/
theorem wearWrite_core (s : State) (k j : Nat) : ((wearWrite s k).wst j).core = (s.wst j).core := by
  by_cases hj : j = k
  · subst hj
    rw [wearWrite, wst_modWs_same]
    rfl
  · rw [wearWrite, wst_modWs_other _ _ hj]

theorem wst_dropRefresh (s : State) (k new : Nat) : ∃ n t a i b, (dropRefresh s k new).wst k =
    { s.wst k with refresh := none, blocks := b, wearBlock := n, wearTime := t, wearAge := a, wearTick := i } := by
  rw [dropRefresh, wearWrite, wst_modWs_same, wst_modWs_same]
  exact ⟨_, _, _, _, _, rfl⟩

/-- A loop that acts on each of its stacks alone: each of them as P says, under an invariant of the state, and no other stack. -/
theorem forEach_stacks {F : State → Nat → State} {P : Nat → Ws → Ws → Prop} {I : State → Prop}
    (h : ∀ s k, I s → I (F s k) ∧ P k (s.wst k) ((F s k).wst k) ∧ ∀ j, j ≠ k → (F s k).wst j = s.wst j) :
    ∀ {l : List Nat}, l.Nodup → ∀ s, I s →
      (∀ k ∈ l, P k (s.wst k) ((forEach l s F).wst k)) ∧ ∀ k, k ∉ l → (forEach l s F).wst k = s.wst k
  | [], _, _, _ => ⟨fun _ hk => absurd hk List.not_mem_nil, fun _ _ => rfl⟩
  | a :: l, hn, s, hs => by
    obtain ⟨ha, hl⟩ := List.nodup_cons.1 hn
    obtain ⟨hI, hP, ho⟩ := h s a hs
    obtain ⟨hin, hout⟩ := forEach_stacks h hl (F s a) hI
    refine ⟨fun k hk => ?_, fun k hk => ?_⟩
    · show P k _ ((forEach l (F s a) F).wst k)
      by_cases e : k = a
      · subst e
        rwa [hout k ha]
      · rw [← ho k e]
        exact hin k ((List.mem_cons.1 hk).resolve_left e)
    · obtain ⟨hka, hkl⟩ := not_or.1 fun e => hk (List.mem_cons.2 e)
      exact (hout k hkl).trans (ho k hka)

/-! The failure of a stack (R421). -/

theorem postEvent_cmdq (s : State) (e : Event) : (postEvent s e).cmdq = s.cmdq := by
  obtain ⟨v, f, l, h⟩ := postEvent_changes s e
  rw [h]

/-- From s to t neither a queue nor a weight stack has changed. -/
def QueuesKept (s t : State) : Prop := t.cmdq = s.cmdq ∧ t.ws = s.ws

theorem QueuesKept.trans {s t r : State} (h : QueuesKept s t) (h' : QueuesKept t r) : QueuesKept s r := ⟨h'.1.trans h.1, h'.2.trans h.2⟩

theorem QueuesKept.wst {s t : State} (h : QueuesKept s t) (j : Nat) : t.wst j = s.wst j := by rw [State.wst, h.2, ← State.wst]

theorem QueuesKept.queue {s t : State} (h : QueuesKept s t) (n : Nat) : t.queue n = s.queue n := by rw [State.queue, h.1, ← State.queue]

theorem modKs_queues (s : State) (k : Nat) (f : Ks → Ks) : QueuesKept s (s.modKs k f) := ⟨rfl, rfl⟩

theorem postEvent_queues (s : State) (e : Event) : QueuesKept s (postEvent s e) := ⟨postEvent_cmdq s e, (postEvent_stacks s e).2⟩

theorem recordStack_queues (s : State) (k cause : Nat) (act : Action) : QueuesKept s (recordStack s k cause act) := by
  have h (r : FaultRec) (i : Nat) (e : Event) : QueuesKept s (postEvent (setSummary (addRec s r) i) e) :=
    .trans ⟨rfl, rfl⟩ (postEvent_queues _ _)
  unfold recordStack
  dsimp only
  split
  · exact h _ _ _
  · exact (h _ _ _).trans ⟨rfl, rfl⟩

theorem degrade_queues (s : State) (q reason : Nat) : QueuesKept s (degrade s q reason) := by
  unfold degrade event
  dsimp only
  split
  · exact ⟨rfl, rfl⟩
  · exact .trans ⟨rfl, rfl⟩ (postEvent_queues _ _)

theorem fenceStack_queues (s : State) (st : Nat) : QueuesKept s (fenceStack s st) := by
  unfold fenceStack pstWrite
  dsimp only
  split <;> exact ⟨rfl, rfl⟩

/-- The failure of a stack is of a weight stack its image state alone, of a work stack no weight stack at all (R421). -/
theorem failStack_queues (s : State) (st cause : Nat) :
    QueuesKept s (failStack s st cause) ∨ st < 8 ∧ QueuesKept (s.modWs st fun w => { w with image := 3 }) (failStack s st cause) := by
  unfold failStack
  dsimp only
  split
  · exact .inl ⟨rfl, rfl⟩
  · by_cases hst : st < 8
    · rw [if_pos hst, if_neg (Nat.not_le.2 hst)]
      exact .inr ⟨hst, (fenceStack_queues _ _).trans (recordStack_queues _ _ _ _)⟩
    · rw [if_neg hst, if_pos (Nat.not_lt.1 hst)]
      exact .inl ((((modKs_queues s _ _).trans (fenceStack_queues _ _)).trans (recordStack_queues _ _ _ _)).trans (degrade_queues _ _ _))

/-- An uncorrectable granule counts, changes the list of such blocks, and may fail the stack (R184, R193, R421). -/
theorem wst_wsUncorr (s : State) (k b : Nat) : ∃ m l i, (wsUncorr s k b).wst k =
    { s.wst k with uncorr := satInc (s.wst k).uncorr, media := m, blocks := l, image := i } := by
  unfold wsUncorr
  extract_lets s1
  obtain ⟨m, l, h1⟩ : ∃ m l, s1.wst k = { s.wst k with uncorr := satInc (s.wst k).uncorr, media := m, blocks := l } := by
    simp only [s1]
    rw [wst_modWs_same, (spill_stacks s _ _ _).wst]
    exact ⟨_, _, rfl⟩
  split
  · rcases failStack_queues s1 k 2 with h | ⟨-, h⟩
    · exact ⟨m, l, (s.wst k).image, by rw [h.wst, h1]⟩
    · exact ⟨m, l, 3, by rw [h.wst, wst_modWs_same, h1]⟩
  · exact ⟨m, l, (s.wst k).image, h1⟩

/-! The weight of an hour (R195). -/

/-- Where the 160th root of 2^m is a power of two, the search by bits finds it. -/
theorem root160_pow (e : Nat) : ∀ n k, k ≤ 2 ^ e → 2 ^ e < k + 2 ^ n → root160 (160 * e) n k = 2 ^ e
  | 0, k, hlo, hhi => by
    rw [root160]
    omega
  | n + 1, k, hlo, hhi => by
    have hstep : (k + 2 ^ n) ^ 160 ≤ 2 ^ (160 * e) ↔ k + 2 ^ n ≤ 2 ^ e := by
      rw [Nat.mul_comm, Nat.pow_mul]
      exact Nat.pow_le_pow_iff_left (by decide)
    rw [pow_succ] at hhi
    rw [root160]
    split
    · next h => exact root160_pow e n _ (hstep.1 h) (by omega)
    · next h => exact root160_pow e n _ hlo (Nat.not_le.1 fun hle => h (hstep.2 hle))

theorem hourWeight_of_root {r : BitVec 16} {m : Nat} (hlo : 720 ≤ r.toInt) (hm : 10240 - 1360 + r.toInt.toNat = m) :
    hourWeight r = root160 m 84 0 := by
  rw [hourWeight, if_neg (by omega), hm]

theorem hourWeight_85 : hourWeight 1360 = 2 ^ 64 := by
  rw [hourWeight_of_root (m := 160 * 64) (by decide) (by decide)]
  exact root160_pow 64 84 0 (Nat.zero_le _) (by decide)

theorem hourWeight_95 : hourWeight 1520 = 2 ^ 65 := by
  rw [hourWeight_of_root (m := 160 * 65) (by decide) (by decide)]
  exact root160_pow 65 84 0 (Nat.zero_le _) (by decide)

/-! AGE_UPDATE and WEAR_TABLE_WRITE. -/

/-- A stack whose blocks are older by x. -/
def Ws.aged (w : Ws) (x : Nat) : Ws := { w with ageSum := w.ageSum + x }

/-- The hour's weight is added to the age of stack k, and a due block's refresh may begin. -/
def ageStack (s : State) (k : Nat) : State :=
  refreshKick (s.modWs k fun w => w.aged (hourWeight (sget 0 s.pwr.hourMax (k / 2)))) k

theorem exec_ageUpdate {s : State} (h : s.pwr.ageTick + hourTicks ≤ s.tick) :
    exec .ageUpdate s = .next ((forEach (upto 8) s ageStack).modPwr fun p => { p with hourMax := [], ageTick := (forEach (upto 8) s ageStack).tick }) := by
  show execAgeUpdate s = _
  rw [execAgeUpdate, if_neg (Nat.not_lt.2 h)]
  rfl

theorem ageStack_core (s : State) (k : Nat) : ((ageStack s k).wst k).core = ((s.wst k).aged (hourWeight (sget 0 s.pwr.hourMax (k / 2)))).core := by
  rw [ageStack, refreshKick_core, wst_modWs_same]

/-- Every weight stack ages by the weight of its quarter's hottest reading of the hour (R195). -/
theorem forEach_ageStack (s : State) {k : Nat} (hk : k < 8) :
    (((forEach (upto 8) s ageStack).wst k)).core = ((s.wst k).aged (hourWeight (sget 0 s.pwr.hourMax (k / 2)))).core := by
  have hstep (t : State) (j : Nat) (ht : t.pwr = s.pwr) : (ageStack t j).pwr = s.pwr ∧
      ((ageStack t j).wst j).core = ((t.wst j).aged (hourWeight (sget 0 s.pwr.hourMax (j / 2)))).core ∧
      ∀ i, i ≠ j → (ageStack t j).wst i = t.wst i := by
    refine ⟨ht, by rw [ageStack_core, ht], fun i hi => ?_⟩
    rw [ageStack, wst_refreshKick_other _ hi, wst_modWs_other _ _ hi]
  exact (forEach_stacks (F := ageStack) (I := fun t => t.pwr = s.pwr)
    (P := fun j w w' => w'.core = (w.aged (hourWeight (sget 0 s.pwr.hourMax (j / 2)))).core) hstep List.nodup_range s rfl).1 k (List.mem_range.2 hk)

theorem ageUpdate_completes {s : State} (h : s.pwr.ageTick + hourTicks ≤ s.tick) :
    ∃ t, exec .ageUpdate s = .next t ∧ t.pwr = { s.pwr with hourMax := [], ageTick := s.tick } ∧
      ∀ k, k < 8 → (t.wst k).ageSum = (s.wst k).ageSum + hourWeight (sget 0 s.pwr.hourMax (k / 2)) ∧ (t.wst k).table = (s.wst k).table := by
  have hexec := exec_ageUpdate h
  have hpwr := forEach_keeps (fun s : State => s.pwr) ageStack (fun _ _ => rfl) (upto 8) s
  have htick := forEach_keeps (fun s : State => s.tick) ageStack (fun _ _ => rfl) (upto 8) s
  have hcore (k : Nat) (hk : k < 8) := forEach_ageStack s hk
  generalize forEach (upto 8) s ageStack = t at hexec hpwr htick hcore
  refine ⟨_, hexec, ?_, fun k hk => 
    ⟨Ws.eq_of_core Ws.ageSum (fun _ => rfl) (hcore k hk) rfl, Ws.eq_of_core Ws.table (fun _ => rfl) (hcore k hk) rfl⟩⟩
  rw [← hpwr, ← htick]
  rfl

theorem exec_wearTableWrite {s : State} {k : Fin 8} (h : (s.wst k).wearTick + 168 * hourTicks ≤ s.tick) :
    exec (.wearTableWrite k) s = .next (wearWrite s k) := congrArg Host.Outcome.next (if_pos h)

theorem wst_wearWrite (s : State) (k : Nat) : (wearWrite s k).wst k =
    { s.wst k with wearBlock := 3 - (s.wst k).wearBlock, wearTime := s.clk.count, wearAge := (s.wst k).ageSum, wearTick := s.tick,
                   blocks := smod .init (s.wst k).blocks (3 - (s.wst k).wearBlock) fun b =>
                     { b with programs := satInc b.programs, born := (s.wst k).ageSum } } := by
  rw [wearWrite, wst_modWs_same]
  rfl

/-- The wear table goes to the other of its two blocks, which is erased for it (R193, R196). -/
theorem wearWrite_other {s : State} {k n : Nat} (hn : 3 - (s.wst k).wearBlock = n) :
    (wearWrite s k).wst k = { s.wst k with wearBlock := n, wearTime := s.clk.count, wearAge := (s.wst k).ageSum, wearTick := s.tick,
                                           blocks := ((wearWrite s k).wst k).blocks } ∧
      (sget .init ((wearWrite s k).wst k).blocks n).programs = satInc (sget .init (s.wst k).blocks n).programs ∧
      (∀ b, b ≠ n → sget .init ((wearWrite s k).wst k).blocks b = sget .init (s.wst k).blocks b) ∧
      ∀ j, j ≠ k → (wearWrite s k).wst j = s.wst j := by
  rw [wst_wearWrite, hn]
  dsimp only
  exact ⟨rfl, by rw [sget_smod_same], fun b hb => sget_smod_other _ _ _ _ _ hb, fun j hj => wst_modWs_other s _ hj⟩

/-! REFRESH_COPY_DONE. -/

/-- The data of the old block stands in the new one. -/
def blockCopied (s : State) (k : Nat) (r : Refresh) : State :=
  s.modWs k fun w => { w with mem := copyRange w.mem (2 ^ 26 * r.old) (2 ^ 26) w.mem (2 ^ 26 * r.new) }
/-- The refresh of stack k has its copy. -/
def copyDone (s : State) (k : Nat) (r : Refresh) : State := s.modWs k fun w => { w with refresh := some { r with copied := true } }

section
variable {s : State} {k : Fin 8} {r : Refresh} (hr : (s.wst k).refresh = some r) (hc : r.copied = false) (hn : (s.wst k).commit = none)
include hr hc hn

/-- The copy is done where each granule that the own block does not give is taken from the partner's, else the refresh is abandoned (R197, R198). -/
theorem exec_refreshCopyDone {own part : List (Fin 16384 × ReadErr)} {s1 t : State} {b : Bool}
    (h1 : blockCopied (readGranules s k r.old 16384 own).2 k r = s1)
    (ht : takeGranules s1 k (sget 0 (s1.wst (partner k)).table r.page) r.new ((own.filter fun e => decide (e.2 = .uncorrectable)).map Prod.fst)
      part = (b, t)) :
    exec (.refreshCopyDone k own part) s =
      .next (if b then copyDone t k r else event (dropRefresh t k r.new) 0x0033 (some (k.val / 2)) (k + r.old * 256)) := by
  subst h1
  simp only [blockCopied] at ht
  show execRefreshCopyDone k own part s = _
  simp only [execRefreshCopyDone, hr, hc, hn, Option.isSome_none, Bool.or_self, Bool.false_eq_true, if_false]
  rw [ht]
  cases b <;> rfl

end

theorem wst_blockCopied (s : State) (k : Nat) (r : Refresh) : ∃ m, (blockCopied s k r).wst k = { s.wst k with mem := m } :=
  ⟨_, wst_modWs_same s k _⟩

theorem readGranules_lost (s : State) (k b : Nat) (g : Fin 16384) :
    (readGranules s k b 16384 [(g, .uncorrectable)]).2 = wsUncorr s k b := by
  simp only [readGranules, List.filter_cons, g.isLt, decide_true, if_true, List.filter_nil]
  rfl

/-- A granule that the own block does not give is there where the SEALED partner of the mirrored layout has the page (R198). -/
theorem takeGranules_one (s : State) (k pb new : Nat) (g : Fin 16384) (part : List (Fin 16384 × ReadErr)) :
    (partnerServes s k = false → takeGranules s k pb new [g] part = (false, s)) ∧
    (partnerServes s k = true → pb ≠ 0 → ∃ t, takeGranules s k pb new [g] [] = (true, t) ∧
      (t.wst k).table = (s.wst k).table ∧ (t.wst k).uncorr = (s.wst k).uncorr) := by
  refine ⟨fun h => ?_, fun h hb => ?_⟩
  · rw [takeGranules, h]
    rfl
  · rw [takeGranules, h, decide_eq_false hb]
    exact ⟨_, rfl, by rw [wst_modWs_same], by rw [wst_modWs_same]⟩

/-- The block is copied, with a granule that its code has lost. -/
def lostCopied (s : State) (k : Nat) (r : Refresh) : State := blockCopied (wsUncorr s k r.old) k r

theorem lostCopied_only (s : State) (k : Nat) (r : Refresh) : OnlyStack s (lostCopied s k r) k :=
  (wsUncorr_only s k r.old).trans (onlyStack_modWs _ k _ fun _ => ⟨rfl, rfl⟩)

/-- An uncorrectable granule of the old block counts, and the page table stands (R184, R198). -/
theorem wst_lostCopied (s : State) (k : Nat) (r : Refresh) :
    ((lostCopied s k r).wst k).table = (s.wst k).table ∧ ((lostCopied s k r).wst k).uncorr = satInc (s.wst k).uncorr := by
  obtain ⟨l, b, i, h⟩ := wst_wsUncorr s k r.old
  obtain ⟨m, hm⟩ := wst_blockCopied (wsUncorr s k r.old) k r
  rw [lostCopied, hm, h]
  exact ⟨rfl, rfl⟩

section
variable {s : State} {k : Fin 8} {r : Refresh} (hr : (s.wst k).refresh = some r) (hc : r.copied = false) (hn : (s.wst k).commit = none)
include hr hc hn

theorem refreshCopyDone_clean (p : List (Fin 16384 × ReadErr)) :
    ∃ t, exec (.refreshCopyDone k [] p) s = .next t ∧ t = { s with ws := t.ws } ∧
      t.wst k = { s.wst k with mem := (t.wst k).mem, refresh := some { r with copied := true } } := by
  refine ⟨copyDone (blockCopied s k r) k r, exec_refreshCopyDone hr hc hn rfl rfl, rfl, ?_⟩
  obtain ⟨m, hm⟩ := wst_blockCopied s k r
  rw [copyDone, wst_modWs_same, hm]

theorem exec_refreshCopyDone_lost {g : Fin 16384} {part : List (Fin 16384 × ReadErr)} {b : Bool} {t : State}
    (ht : takeGranules (lostCopied s k r) k (sget 0 (s.wst (partner k)).table r.page) r.new [g] part = (b, t)) :
    exec (.refreshCopyDone k [(g, .uncorrectable)] part) s =
      .next (if b then copyDone t k r else event (dropRefresh t k r.new) 0x0033 (some (k.val / 2)) (k + r.old * 256)) := by
  refine exec_refreshCopyDone hr hc hn (s1 := lostCopied s k r) (by rw [readGranules_lost, lostCopied]) ?_
  rw [(lostCopied_only s k r).other _ (partner_ne _)]
  exact ht

theorem refreshCopyDone_abandoned (g : Fin 16384) (p : List (Fin 16384 × ReadErr)) (hs : partnerServes s k = false) :
    ∃ t, exec (.refreshCopyDone k [(g, .uncorrectable)] p) s = .next t ∧ (t.wst k).refresh = none ∧
      (t.wst k).table = (s.wst k).table ∧ (t.wst k).uncorr = satInc (s.wst k).uncorr := by
  have hserves := (partnerServes_only (lostCopied_only s k r)).trans hs
  obtain ⟨htable, huncorr⟩ := wst_lostCopied s k r
  obtain ⟨_, _, _, _, _, hdrop⟩ := wst_dropRefresh (lostCopied s k r) k r.new
  refine ⟨_, exec_refreshCopyDone_lost hr hc hn ((takeGranules_one _ _ _ _ _ _).1 hserves), ?_⟩
  simp only [Bool.false_eq_true, if_false, event, (postEvent_queues _ _).wst, hdrop]
  exact ⟨trivial, htable, huncorr⟩

theorem refreshCopyDone_rescued (g : Fin 16384) (hs : partnerServes s k = true) (hp : sget 0 (s.wst (partner k)).table r.page ≠ 0) :
    ∃ t, exec (.refreshCopyDone k [(g, .uncorrectable)] []) s = .next t ∧ (t.wst k).refresh = some { r with copied := true } ∧
      (t.wst k).table = (s.wst k).table ∧ (t.wst k).uncorr = satInc (s.wst k).uncorr := by
  have hserves := (partnerServes_only (lostCopied_only s k r)).trans hs
  obtain ⟨htable, huncorr⟩ := wst_lostCopied s k r
  obtain ⟨u, htake, hu_table, hu_uncorr⟩ := (takeGranules_one (lostCopied s k r) k _ r.new g []).2 hserves hp
  refine ⟨copyDone u k r, (exec_refreshCopyDone_lost hr hc hn htake).trans (congrArg _ (if_pos rfl)), ?_⟩
  rw [copyDone, wst_modWs_same]
  exact ⟨rfl, hu_table.trans htable, hu_uncorr.trans huncorr⟩

end

/-! REFRESH_REMAP and OLD_BLOCK_RELEASE. -/

/-- The page goes to its new block, and the old one waits for its reads (R197). -/
def remapped (w : Ws) (r : Refresh) : Ws :=
  rewriteCopy { w with table := sset 0 w.table r.page r.new, refresh := none, releasing := w.releasing ++ [r.old] }

theorem setCopy_changes (w : Ws) (b : Nat) (c : ImgCopy) : ∃ x y, setCopy w b c = { w with copyA := x, copyB := y } := by
  unfold setCopy
  split <;> exact ⟨_, _, rfl⟩

theorem writeCopy_changes (w : Ws) (c : ImgCopy) : ∃ x y b, writeCopy w c = { w with copyA := x, copyB := y, blocks := b } := by
  obtain ⟨x, y, h⟩ := setCopy_changes (countProgram w (inactiveCopy w)) (inactiveCopy w) c
  exact ⟨x, y, _, h⟩

theorem rewriteCopy_changes (w : Ws) : ∃ x y b, rewriteCopy w = { w with copyA := x, copyB := y, blocks := b } := by
  unfold rewriteCopy
  dsimp only
  split
  · obtain ⟨x, y, b, h⟩ := writeCopy_changes w ⟨w.manifest, w.table, true, true⟩
    rw [h]
    split
    · exact ⟨_, _, _, rfl⟩
    · obtain ⟨x', y', h'⟩ := setCopy_changes { w with copyA := x, copyB := y, blocks := b } (activeCopy w)
        { copyAt { w with copyA := x, copyB := y, blocks := b } (activeCopy w) with check := false }
      exact ⟨_, _, _, h'⟩
  · exact ⟨_, _, _, rfl⟩

section
variable {s : State} {k : Fin 8} {r : Refresh} (hr : (s.wst k).refresh = some r)
include hr

theorem exec_refreshRemap_waits (h : atBoundary s (k.val / 2) = false ∨ (s.wst k).commit ≠ none) : exec (.refreshRemap k) s = .next s := by
  have hwaits : (!r.copied || !atBoundary s (k.val / 2) || (s.wst k).commit.isSome) = true := by
    rcases h with h | h
    · simp [h]
    · simp [Option.isSome_iff_ne_none.2 h]
  show execRefreshRemap k s = _
  simp only [execRefreshRemap, hr, hwaits, if_true]

variable (hc : r.copied = true) (hb : atBoundary s (k.val / 2) = true) (hn : (s.wst k).commit = none)
include hc hb hn

theorem exec_refreshRemap : exec (.refreshRemap k) s = .next (
    if sget 0 (s.wst k).table r.page ≠ r.old then refreshKick (dropRefresh s k r.new) k
    else refreshKick (wearWrite (s.modWs k fun w => remapped w r) k) k) := by
  show execRefreshRemap k s = _
  simp only [execRefreshRemap, hr, hc, hb, hn, Bool.not_true, Option.isSome_none, Bool.or_self, Bool.false_eq_true, if_false]
  rfl

theorem refreshRemap_moves (hm : sget 0 (s.wst k).table r.page = r.old) :
    ∃ t, exec (.refreshRemap k) s = .next t ∧
      (t.wst k).releasing = (s.wst k).releasing ++ [r.old] ∧ sget 0 (t.wst k).table r.page = r.new ∧
      ∀ p, p ≠ r.page → sget 0 (t.wst k).table p = sget 0 (s.wst k).table p := by
  refine ⟨_, exec_refreshRemap hr hc hb hn, ?_⟩
  rw [if_neg (not_not.2 hm)]
  have hcore := refreshKick_core (wearWrite (s.modWs k fun w => remapped w r) k) k k
  obtain ⟨x, y, b, hre⟩ := rewriteCopy_changes
    { s.wst k with table := sset 0 (s.wst k).table r.page r.new, refresh := none, releasing := (s.wst k).releasing ++ [r.old] }
  rw [wearWrite_core, wst_modWs_same, remapped, hre] at hcore
  have htable := Ws.eq_of_core Ws.table (fun _ => rfl) hcore rfl
  refine ⟨Ws.eq_of_core Ws.releasing (fun _ => rfl) hcore rfl, ?_, fun p hp => ?_⟩ <;> rw [htable]
  · exact sget_sset_same _ _ _ _
  · exact sget_sset_other _ _ _ _ _ hp

theorem refreshRemap_drops (hm : sget 0 (s.wst k).table r.page ≠ r.old) :
    ∃ t, exec (.refreshRemap k) s = .next t ∧ (t.wst k).releasing = (s.wst k).releasing ∧ (t.wst k).table = (s.wst k).table := by
  refine ⟨_, exec_refreshRemap hr hc hb hn, ?_⟩
  rw [if_pos hm]
  have hcore := refreshKick_core (dropRefresh s k r.new) k k
  obtain ⟨_, _, _, _, _, hdrop⟩ := wst_dropRefresh s k r.new
  rw [hdrop] at hcore
  exact ⟨Ws.eq_of_core Ws.releasing (fun _ => rfl) hcore rfl, Ws.eq_of_core Ws.table (fun _ => rfl) hcore rfl⟩

end

/-- Old blocks that no read names are free again, or retired; the others wait (R193, R197). -/
theorem oldBlockRelease_completes (s : State) (k : Fin 8) : ∃ t, exec (.oldBlockRelease k) s = .next t ∧ t = { s with ws := t.ws } ∧
    (t.wst k).releasing = (s.wst k).releasing.filter (readsOn s k) ∧ (t.wst k).table = (s.wst k).table := by
  generalize hbs : (s.wst k).releasing.filter (fun b => !readsOn s k b) = bs
  have hexec : exec (.oldBlockRelease k) s = .next (if bs.isEmpty then s else refreshKick (s.modWs k fun w =>
      bs.foldl freeBlock { w with releasing := w.releasing.filter fun b => !bs.contains b }) k) := by
    subst hbs
    rfl
  have hstays : (s.wst k).releasing.filter (fun b => !bs.contains b) = (s.wst k).releasing.filter (readsOn s k) := by
    refine List.filter_congr fun b hb => ?_
    cases hread : readsOn s k b <;> simp [← hbs, hb, hread]
  refine ⟨_, hexec, ?_⟩
  cases hempty : bs.isEmpty
  · rw [if_neg Bool.false_ne_true]
    have hcore := refreshKick_core (s.modWs k fun w => bs.foldl freeBlock { w with releasing := w.releasing.filter fun b => !bs.contains b }) k k
    obtain ⟨b, hb⟩ := freeBlocks_changes bs { s.wst k with releasing := (s.wst k).releasing.filter fun b => !bs.contains b }
    rw [wst_modWs_same, hb] at hcore
    exact ⟨rfl, Ws.eq_of_core Ws.releasing (fun _ => rfl) hcore hstays, Ws.eq_of_core Ws.table (fun _ => rfl) hcore rfl⟩
  · rw [if_pos rfl, ← hstays, List.isEmpty_iff.1 hempty]
    exact ⟨rfl, by simp, rfl⟩

/-! KS_REFRESH and KS_SCRUB. -/

theorem exec_ksRefresh {s : State} {k : Fin 4} (h : (s.kst k).trained = true) :
    exec (.ksRefresh k) s = .next (s.modKs k fun x => { x with refreshTick := s.tick }) := congrArg Host.Outcome.next (if_pos h)

theorem exec_ksScrub (s : State) (k : Fin 4) (n : Nat) : exec (.ksScrub k n) s =
    .next (if ((s.kst k).trained && decide ((s.kst k).scrubTick + 24 * hourTicks ≤ s.tick)) = true then
      ksCorrected (s.modKs k fun x => { x with scrubTick := s.tick }) k n else s) := rfl

theorem ksScrub_due {s : State} {k : Fin 4} (h : (s.kst k).trained = true) (n : Nat) (hd : (s.kst k).scrubTick + 24 * hourTicks ≤ s.tick) :
    ∃ t, exec (.ksScrub k n) s = .next t ∧ t = { s with ks := t.ks, full := t.full } ∧
      t.kst k = { s.kst k with scrubTick := s.tick, corr := satAdd (s.kst k).corr n } := by
  obtain ⟨f, hf⟩ : ∃ f, ksCorrected (s.modKs k fun x => { x with scrubTick := s.tick }) k n =
      { ((s.modKs k fun x => { x with scrubTick := s.tick }).modKs k fun x => { x with corr := satAdd x.corr n }) with full := f } := ⟨_, rfl⟩
  refine ⟨ksCorrected (s.modKs k fun x => { x with scrubTick := s.tick }) k n, ?_, by rw [hf]; rfl, ?_⟩
  · rw [exec_ksScrub, h, decide_eq_true hd]
    rfl
  · rw [ksCorrected, kst_modKs_same, kst_spill, kst_modKs_same]

theorem ksScrub_early {s : State} {k : Fin 4} (n : Nat) (hd : s.tick < (s.kst k).scrubTick + 24 * hourTicks) :
    exec (.ksScrub k n) s = .next s := by
  rw [exec_ksScrub, decide_eq_false (Nat.not_le.2 hd), Bool.and_false]
  rfl

/-- Settles O47: each row by its own lemma above; what a refresh or the wear table leaves of a stack is its core. -/
theorem stackWearAndRefresh : Obligations.StackWearAndRefresh := by
  refine ⟨hourWeight_85, hourWeight_95, fun s => ⟨fun h => congrArg Host.Outcome.next (if_pos h), ageUpdate_completes⟩,
    fun s k => ⟨fun h => congrArg Host.Outcome.next (if_neg (Nat.not_le.2 h)), fun h hb => ?_⟩, fun s k g p r hr hc hn => ?_, fun s k r hr hc => ?_,
    oldBlockRelease_completes, fun s k h => ?_⟩
  · have hn : 3 - (s.wst k).wearBlock = if (s.wst k).wearBlock = 1 then 2 else 1 := by
      rcases hb with e | e <;> rw [e] <;> rfl
    exact ⟨wearWrite s k, exec_wearTableWrite h, rfl, wearWrite_other hn⟩
  · exact ⟨refreshCopyDone_clean hr hc hn p, refreshCopyDone_abandoned hr hc hn g p, refreshCopyDone_rescued hr hc hn g⟩
  · exact ⟨exec_refreshRemap_waits hr, refreshRemap_moves hr hc, refreshRemap_drops hr hc⟩
  · exact ⟨⟨_, exec_ksRefresh h, rfl, kst_modKs_same _ _ _⟩, ksScrub_due h, ksScrub_early⟩

end Sys2Proof.Machine
end

section
/-! SUPPORT. Commits: taking a STACK_COMMIT off its queue, how a commit ends, and what that leaves of the stacks (R205, R209, R213, R366). -/

namespace Sys2Proof.Machine

/-! What waits on a queue. -/

theorem queue_modQueue_same (s : State) (n : Nat) (f : CmdQ → CmdQ) : (s.modQueue n f).queue n = f (s.queue n) := sget_smod_same _ _ _ _

theorem queue_modQueue_other (s : State) {m n : Nat} (f : CmdQ → CmdQ) (h : n ≠ m) : (s.modQueue m f).queue n = s.queue n :=
  sget_smod_other _ _ _ _ _ h

theorem queue_modWs (s : State) (k : Nat) (f : Ws → Ws) (n : Nat) : (s.modWs k f).queue n = s.queue n := rfl

/-- From s to t neither what waits on a queue nor a weight stack has changed. -/
def WaitKept (s t : State) : Prop := (∀ n, (t.queue n).ready = (s.queue n).ready) ∧ t.ws = s.ws

theorem WaitKept.refl (s : State) : WaitKept s s := ⟨fun _ => rfl, rfl⟩
theorem WaitKept.trans {s t r : State} (h : WaitKept s t) (h' : WaitKept t r) : WaitKept s r :=
  ⟨fun n => (h'.1 n).trans (h.1 n), h'.2.trans h.2⟩
theorem WaitKept.wst {s t : State} (h : WaitKept s t) (j : Nat) : t.wst j = s.wst j := by rw [State.wst, h.2, ← State.wst]
theorem QueuesKept.waitKept {s t : State} (h : QueuesKept s t) : WaitKept s t := ⟨fun n => by rw [h.queue], h.2⟩

theorem WaitKept.forEach {α : Type} {f : State → α → State} (h : ∀ s a, WaitKept s (f s a)) : ∀ (l : List α) (s : State), WaitKept s (forEach l s f)
  | [], s => .refl s
  | a :: l, s => (h s a).trans (WaitKept.forEach h l (f s a))

theorem WaitKept.modQueue {s t : State} (h : WaitKept s t) (m : Nat) {f : CmdQ → CmdQ} (hf : ∀ q, (f q).ready = q.ready) :
    WaitKept s (t.modQueue m f) := by
  refine ⟨fun n => ?_, h.2⟩
  by_cases e : n = m
  · rw [e, queue_modQueue_same, hf, h.1]
  · rw [queue_modQueue_other t f e, h.1]

theorem hostWrite_waits (s : State) (a n v : Nat) : WaitKept s (hostWrite s a n v) := ⟨fun _ => rfl, rfl⟩

theorem checkMsi_waits (s : State) (n : Nat) : WaitKept s (checkMsi s n) := by
  unfold checkMsi sendMsi
  dsimp only
  split
  · exact (hostWrite_waits s _ _ _).modQueue n fun _ => rfl
  · exact .refl s

theorem writeCompl_waits (s : State) (n : Nat) (c : Compl) : WaitKept s (writeCompl s n c) := by
  unfold writeCompl
  extract_lets q s1 s2
  have h2 : WaitKept s s2 := (hostWrite_waits s _ _ _).modQueue n fun q => by split <;> rfl
  split
  · refine WaitKept.trans (h2.modQueue n ?_) (checkMsi_waits _ n)
    exact fun _ => rfl
  · exact h2

theorem postCompl_waits (s : State) (n : Nat) (c : Compl) : WaitKept s (postCompl s n c) := by
  unfold postCompl
  dsimp only
  split
  · exact .refl s
  · split
    · exact writeCompl_waits s n c
    · exact (WaitKept.refl s).modQueue n fun _ => rfl

theorem dropHint_waits (s : State) (n k : Nat) : WaitKept s (dropHint s n k) := ⟨fun _ => rfl, rfl⟩

theorem completeDesc_waits (s : State) (n : Nat) (x : Exec) (status result : Nat) : WaitKept s (completeDesc s n x status result) := by
  refine WaitKept.trans ((dropHint_waits s n x.desc.seq).modQueue n ?_) (postCompl_waits _ n _)
  exact fun _ => rfl

theorem fetchOne_waits (s : State) (n : Nat) : WaitKept s (fetchOne s n) := by
  unfold fetchOne
  extract_lets q head tail room count f s1
  have h1 : WaitKept s s1 := ⟨fun _ => rfl, rfl⟩
  split
  · exact .refl s
  · exact h1.modQueue n fun _ => rfl

theorem fetchKick_waits (s : State) (n : Nat) : WaitKept s (fetchKick s n) := (fetchOne_waits s n).trans (fetchOne_waits _ n)

theorem commitCompl_waits (s : State) (c : Commit) (status result : Nat) : WaitKept s (commitCompl s c status result) := by
  unfold commitCompl
  split
  · refine WaitKept.trans ((WaitKept.refl s).modQueue c.queue ?_) (completeDesc_waits _ _ _ _ _)
    exact fun _ => rfl
  · exact .refl s

theorem commitEvent_waits (s : State) (st err : Nat) : WaitKept s (commitEvent s st err) := (postEvent_queues s _).waitKept

theorem commitProgress_waits (s : State) (st k : Nat) : WaitKept s (commitProgress s st k) := (postEvent_queues s _).waitKept

/-! Taking a STACK_COMMIT (R205, R366). -/

/-- A turn that has come: with a descriptor running nothing changes; else malformed descriptors end (R366, R369). -/
theorem badTurn_ready (s : State) (n : Nat) :
    ((badTurn s n).queue n).ready = if (s.queue n).run = none then turned s (s.queue n).ready else (s.queue n).ready := by
  rw [badTurn, (fetchKick_waits _ n).1, endBad]
  cases (s.queue n).run with
  | some x => simp
  | none =>
    simp only [Option.isSome_none, Bool.false_eq_true, if_false, if_true]
    rw [(WaitKept.forEach (fun s d => completeDesc_waits s n _ _ _) _ _).1, queue_modQueue_same]
    rfl

theorem badTurn_ws (s : State) (n : Nat) : (badTurn s n).ws = s.ws := by
  rw [badTurn, (fetchKick_waits _ n).2, endBad]
  split
  · rfl
  · exact (WaitKept.forEach (fun s d => completeDesc_waits s n _ _ _) _ _).2

/-- The STACK_COMMIT has left the waiting descriptors; of a queue that none holds, malformed ones behind it have had their turn (R366). -/
theorem takeCommit_ready (s : State) (n : Nat) (d : Desc) : ((takeCommit s n d).queue n).ready =
    if (s.queue n).run = none then turned s ((s.queue n).ready.erase d) else (s.queue n).ready.erase d := by
  rw [takeCommit, badTurn_ready, queue_modQueue_same]
  rfl

theorem takeCommit_wst (s : State) (n : Nat) (d : Desc) (j : Nat) : (takeCommit s n d).wst j = s.wst j := by
  rw [State.wst, takeCommit, badTurn_ws, ← State.wst]
  rfl

theorem nextCommit_lt {s : State} {st kind n : Nat} {d : Desc} (h : nextCommit s st kind = some (n, d)) : n < 64 := by
  obtain ⟨m, hm, hd⟩ := List.exists_of_findSome?_eq_some h
  split at hd
  · cases hd
  · obtain ⟨x, -, hx⟩ := Option.map_eq_some_iff.1 hd
    cases hx
    exact List.mem_range.1 hm

/-- A commit is rejected: its stack's ERROR is set, and its descriptor completes (R209, log 72). -/
def rejectCommit (s : State) (st e : Nat) (c : Commit) : State :=
  commitCompl (commitEvent (s.modWs st fun w => { w with jError := BitVec.ofNat 8 e }) st e) c stCommitFailed
    (e + (lastRecord ((s.modWs st fun w => { w with jError := BitVec.ofNat 8 e }).wst st)).k * 256)

/-- The list of pages that a descriptor of the kind names (R206). -/
def commitList (s : State) (kind : Nat) (d : Desc) : List Nat :=
  if kind = 1 then (upto (dBytes d.row 40 2)).map fun i => readNat s.host (dBytes d.row 32 8 + 2 * i) 2 else []

theorem wst_jError (s : State) (k j : Nat) (e : BitVec 8) :
    ∃ x, (s.modWs k fun w => { w with jError := e }).wst j = { s.wst j with jError := x } := by
  by_cases h : j = k
  · rw [h, wst_modWs_same]
    exact ⟨_, rfl⟩
  · rw [wst_modWs_other _ _ h]
    exact ⟨_, rfl⟩

theorem rejectCommit_waits (s : State) (st e : Nat) (c : Commit) :
    WaitKept (s.modWs st fun w => { w with jError := BitVec.ofNat 8 e }) (rejectCommit s st e c) :=
  (commitEvent_waits _ st e).trans (commitCompl_waits _ c _ _)

section
variable {s : State} {k kind n : Nat} {d : Desc} (h : nextCommit s k kind = some (n, d)) (f : State → Nat → Desc → Manifest → List Nat → State)
include h

/-- A commit that nothing stands against goes on with the action of its kind. -/
theorem beginCommit_accepted
    (he : commitError (takeCommit s n d) k kind (readManifest s (dBytes d.row 16 8)) (commitList s kind d) = 0) :
    beginCommit s k kind f = f (takeCommit s n d) n d (readManifest s (dBytes d.row 16 8)) (commitList s kind d) := by
  rw [commitList] at *
  simp only [beginCommit, h, he]

theorem beginCommit_rejected
    (he : commitError (takeCommit s n d) k kind (readManifest s (dBytes d.row 16 8)) (commitList s kind d) ≠ 0) :
    beginCommit s k kind f = rejectCommit (takeCommit s n d) k
      (commitError (takeCommit s n d) k kind (readManifest s (dBytes d.row 16 8)) (commitList s kind d))
      (commitOf n d (readManifest s (dBytes d.row 16 8)) kind (commitList s kind d) 0) := by
  obtain ⟨e, he⟩ := Nat.exists_eq_succ_of_ne_zero he
  rw [he]
  rw [commitList] at *
  simp only [beginCommit, h, he, rejectCommit]

/-- A rejected commit leaves every stack as it was but for the ERROR of its own (R209, log 72). -/
theorem beginCommit_rejected_stacks
    (he : commitError (takeCommit s n d) k kind (readManifest s (dBytes d.row 16 8)) (commitList s kind d) ≠ 0) :
    ((beginCommit s k kind f).wst k).jError =
        BitVec.ofNat 8 (commitError (takeCommit s n d) k kind (readManifest s (dBytes d.row 16 8)) (commitList s kind d)) ∧
      (∀ j, ∃ x, (beginCommit s k kind f).wst j = { s.wst j with jError := x }) ∧
      ∀ m, ((beginCommit s k kind f).queue m).ready = ((takeCommit s n d).queue m).ready := by
  rw [beginCommit_rejected h f he]
  generalize commitError (takeCommit s n d) k kind _ _ = e
  have hwait := rejectCommit_waits (takeCommit s n d) k e (commitOf n d (readManifest s (dBytes d.row 16 8)) kind (commitList s kind d) 0)
  refine ⟨?_, fun j => ?_, fun m => by rw [hwait.1, queue_modWs]⟩
  · rw [hwait.wst, wst_modWs_same]
  · rw [hwait.wst, ← takeCommit_wst s n d j]
    exact wst_jError _ _ _ _

end

/-! The stacks of a commit. -/

theorem mem_commitStacks_self (st : Nat) (l : BitVec 8) : st ∈ commitStacks st l := by
  unfold commitStacks
  split <;> simp

theorem commitStacks_nodup (st : Nat) (l : BitVec 8) : (commitStacks st l).Nodup := by
  unfold commitStacks
  split <;> simp

/-- A loop of stack updates over the stacks of a commit. -/
theorem forEach_commitStacks {F : State → Nat → State} {P : Nat → Ws → Ws → Prop}
    (h : ∀ s k, P k (s.wst k) ((F s k).wst k)) (ho : ∀ s k j, j ≠ k → (F s k).wst j = s.wst j) (st : Nat) (l : BitVec 8) (s : State) :
    (∀ k ∈ commitStacks st l, P k (s.wst k) ((forEach (commitStacks st l) s F).wst k)) ∧
      ∀ k, k ∉ commitStacks st l → (forEach (commitStacks st l) s F).wst k = s.wst k :=
  forEach_stacks (I := fun _ => True) (fun s k _ => ⟨trivial, h s k, ho s k⟩) (commitStacks_nodup st l) s trivial

/-- What a loop over the stacks of a commit makes of stack j, where f is what it does to each. -/
def onStacks (st : Nat) (l : BitVec 8) (f : Nat → Ws → Ws) (j : Nat) (w : Ws) : Ws := if j ∈ commitStacks st l then f j w else w

theorem wst_forEach_modWs (st : Nat) (l : BitVec 8) (f : Nat → Ws → Ws) (s : State) (j : Nat) :
    (forEach (commitStacks st l) s fun s k => s.modWs k (f k)).wst j = onStacks st l f j (s.wst j) := by
  obtain ⟨hin, hout⟩ := forEach_commitStacks (F := fun s k => s.modWs k (f k)) (P := fun k w w' => w' = f k w)
    (fun s k => wst_modWs_same s k _) (fun s k j hj => wst_modWs_other s _ hj) st l s
  unfold onStacks
  split
  · next h => exact hin j h
  · next h => exact hout j h

theorem leadCommit_eq_some {s : State} {st : Nat} {c : Commit} : leadCommit s st = some c ↔ (s.wst st).commit = some c ∧ c.queue < 64 := by
  unfold leadCommit
  cases (s.wst st).commit with
  | none => simp
  | some d =>
    simp only [Option.ite_none_right_eq_some, Option.some.injEq]
    constructor
    · rintro ⟨h, rfl⟩
      exact ⟨rfl, h⟩
    · rintro ⟨rfl, h⟩
      exact ⟨h, rfl⟩

/-! How a commit ends. -/

/-- A stack whose commit of the kind has failed with an error (R209, R213). -/
def commitFailed (kind : BitVec 2) (e : Nat) (w : Ws) : Ws :=
  { w with commit := none, op := 0, switchWait := false, jError := BitVec.ofNat 8 e,
           jValid := w.jValid && (kind == 1 || !(e == 1 || e == 2 || e == 3)) }
/-- A stack whose commit of the kind is done. -/
def commitOver (kind : BitVec 2) (w : Ws) : Ws :=
  { w with commit := none, op := 0, switchWait := false, jError := 0, jValid := w.jValid && kind == 1 }

/-- Stack k's part in the end of a failed commit: a delta's blocks are free again, and the wear table is written (R196, R209). -/
def failStep (kind : BitVec 2) (e : Nat) (s : State) (k : Nat) : State :=
  wearWrite (s.modWs k fun w =>
    commitFailed kind e (if kind = 1 then ((w.commit.map fun c => c.taken).getD []).foldl freeBlock w else w)) k

theorem commitFail_eq {s : State} {st : Nat} {c : Commit} (hl : leadCommit s st = some c) (e : Nat) :
    ∃ r, commitFail s st e = forEach (commitStacks st c.manifest.layout)
      (commitCompl (commitEvent (forEach (commitStacks st c.manifest.layout) s (failStep c.kind e)) st e) c stCommitFailed r) refreshKick := by
  simp only [commitFail, hl]
  exact ⟨_, rfl⟩

theorem forEach_refreshKick_core (l : List Nat) (s : State) (j : Nat) : ((forEach l s refreshKick).wst j).core = (s.wst j).core :=
  forEach_keeps (fun s : State => (s.wst j).core) _ (fun s k => refreshKick_core s k j) l s

theorem failStep_core (kind : BitVec 2) (e : Nat) (s : State) (k : Nat) :
    ((failStep kind e s k).wst k).core = (commitFailed kind e (s.wst k)).core := by
  rw [failStep, wearWrite_core, wst_modWs_same]
  split
  · obtain ⟨b, hb⟩ := freeBlocks_changes (((s.wst k).commit.map fun c => c.taken).getD []) (s.wst k)
    rw [hb]
    rfl
  · rfl

theorem failStep_other (kind : BitVec 2) (e : Nat) (s : State) (k j : Nat) (h : j ≠ k) : (failStep kind e s k).wst j = s.wst j := by
  rw [failStep, wearWrite, wst_modWs_other _ _ h, wst_modWs_other _ _ h]

/-- A commit that fails is over in each of its stacks, with the error, and no other stack's core has changed (R209, R213). -/
theorem commitFail_core {s : State} {st : Nat} {c : Commit} (hl : leadCommit s st = some c) (e j : Nat) :
    ((commitFail s st e).wst j).core = (onStacks st c.manifest.layout (fun _ => commitFailed c.kind e) j (s.wst j)).core := by
  obtain ⟨r, hr⟩ := commitFail_eq hl e
  obtain ⟨hin, hout⟩ := forEach_commitStacks (P := fun _ w w' => w'.core = (commitFailed c.kind e w).core) (failStep_core c.kind e)
    (failStep_other c.kind e) st c.manifest.layout s
  rw [hr, forEach_refreshKick_core, (commitCompl_waits _ _ _ _).wst, (commitEvent_waits _ _ _).wst]
  unfold onStacks
  split
  · next h => exact hin j h
  · next h => rw [hout j h]

theorem commitFail_ready (s : State) (st e n : Nat) : ((commitFail s st e).queue n).ready = (s.queue n).ready := by
  cases hl : leadCommit s st with
  | none => simp only [commitFail, hl]
  | some c =>
    obtain ⟨r, hr⟩ := commitFail_eq hl e
    rw [hr, forEach_keeps (fun s : State => (s.queue n).ready) refreshKick (fun _ _ => rfl), (commitCompl_waits _ _ _ _).1,
      (commitEvent_waits _ _ _).1, forEach_keeps (fun s : State => (s.queue n).ready) (failStep c.kind e) (fun _ _ => rfl)]

/-- Stack k's part in the end of a commit with success. -/
def doneStep (kind : BitVec 2) (s : State) (k : Nat) : State := wearWrite (s.modWs k (commitOver kind)) k

theorem commitDone_eq {s : State} {st : Nat} {c : Commit} (hl : leadCommit s st = some c) :
    commitDone s st = forEach (commitStacks st c.manifest.layout)
      (commitCompl (commitEvent (forEach (commitStacks st c.manifest.layout) s (doneStep c.kind)) st 0) c stOk 0) refreshKick := by
  simp only [commitDone, hl]
  rfl

/-- A commit that succeeds is over in each of its stacks, and no other stack's core has changed. -/
theorem commitDone_core {s : State} {st : Nat} {c : Commit} (hl : leadCommit s st = some c) (j : Nat) :
    ((commitDone s st).wst j).core = (onStacks st c.manifest.layout (fun _ => commitOver c.kind) j (s.wst j)).core := by
  obtain ⟨hin, hout⟩ := forEach_commitStacks (F := doneStep c.kind) (P := fun _ w w' => w'.core = (commitOver c.kind w).core)
    (fun s k => by rw [doneStep, wearWrite_core, wst_modWs_same])
    (fun s k j h => by rw [doneStep, wearWrite, wst_modWs_other _ _ h, wst_modWs_other _ _ h]) st c.manifest.layout s
  rw [commitDone_eq hl, forEach_refreshKick_core, (commitCompl_waits _ _ _ _).wst, (commitEvent_waits _ _ _).wst]
  unfold onStacks
  split
  · next h => exact hin j h
  · next h => rw [hout j h]

end Sys2Proof.Machine
end

section
/-! SUPPORT. FULL, DELTA and RESUME (R201, R205 to R214), and O48. -/

namespace Sys2Proof.Machine

/-! The commit put into its stacks. -/

/-- Stack k holds commit c of stack st, the partner without the descriptor. -/
def holdCommit (st : Nat) (c : Commit) (op : BitVec 2) (k : Nat) (w : Ws) : Ws :=
  { w with op := op, commit := some (if k = st then c else { c with queue := 64 }) }

theorem holdCommit_commit (st : Nat) (c : Commit) (op : BitVec 2) (k : Nat) (w : Ws) :
    ∃ x, (holdCommit st c op k w).commit = some x ∧ x.kind = c.kind ∧ x.pos = c.pos ∧ x.manifest = c.manifest := by
  refine ⟨_, rfl, ?_⟩
  split <;> exact ⟨rfl, rfl, rfl⟩

theorem copyAt_holdCommit (st : Nat) (c : Commit) (op : BitVec 2) (k : Nat) (w : Ws) (b : Nat) : copyAt (holdCommit st c op k w) b = copyAt w b := rfl

theorem setCommit_wst (s : State) (st : Nat) (c : Commit) (op : BitVec 2) (j : Nat) :
    (setCommit s st c op).wst j = onStacks st c.manifest.layout (holdCommit st c op) j (s.wst j) := wst_forEach_modWs _ _ _ _ _

theorem queue_forEach_modWs (l : List Nat) (f : Nat → Ws → Ws) (s : State) (n : Nat) : (forEach l s fun s k => s.modWs k (f k)).queue n = s.queue n :=
  forEach_keeps (fun s : State => s.queue n) (fun s k => s.modWs k (f k)) (fun _ _ => rfl) l s

theorem setCommit_queue (s : State) (st : Nat) (c : Commit) (op : BitVec 2) (n : Nat) : (setCommit s st c op).queue n = s.queue n :=
  queue_forEach_modWs _ (holdCommit st c op) s n

theorem leadCommit_setCommit (s : State) (st : Nat) {c : Commit} (op : BitVec 2) (h : c.queue < 64) : leadCommit (setCommit s st c op) st = some c := by
  refine leadCommit_eq_some.2 ⟨?_, h⟩
  rw [setCommit_wst, onStacks, if_pos (mem_commitStacks_self _ _), holdCommit, if_pos rfl]

/-! The copies in blocks 3 and 4. -/

theorem copyAt_congr {w w' : Ws} (hA : w'.copyA = w.copyA) (hB : w'.copyB = w.copyB) (b : Nat) : copyAt w' b = copyAt w b := by
  rw [copyAt, hA, hB, ← copyAt]

theorem activeCopy_congr {w w' : Ws} (hA : w'.copyA = w.copyA) (hB : w'.copyB = w.copyB) : activeCopy w' = activeCopy w := by
  rw [activeCopy, hA, hB, ← activeCopy]

theorem copyAt_setCopy_same (w : Ws) (b : Nat) (c : ImgCopy) : copyAt (setCopy w b c) b = c := by
  unfold copyAt setCopy
  split <;> rfl

theorem copyAt_setCopy_other (w : Ws) {a b : Nat} (c : ImgCopy) (h : b = 4 ↔ a ≠ 4) : copyAt (setCopy w b c) a = copyAt w a := by
  unfold copyAt setCopy
  by_cases ha : a = 4
  · rw [if_pos ha, if_pos ha, if_neg fun hb => h.1 hb ha]
  · rw [if_neg ha, if_neg ha, if_pos (h.2 ha)]

/-- SEALED of a copy has no part in which copy is active (R201). -/
theorem activeCopy_reseal (w : Ws) (b : Nat) (x : Bool) : activeCopy (setCopy w b { copyAt w b with sealed := x }) = activeCopy w := by
  unfold setCopy copyAt
  split <;> rfl

theorem inactiveCopy_eq_four {w : Ws} (h : activeCopy w ≠ 0) : inactiveCopy w = 4 ↔ activeCopy w ≠ 4 := by
  unfold inactiveCopy
  unfold activeCopy at *
  split at h
  · next e => simp [e]
  · next e =>
    split at h
    · next e' => simp [e']
    · exact absurd rfl h

/-- Writing the inactive copy leaves the active one as it was (R201, R208). -/
theorem copyAt_writeCopy_active {w : Ws} (c : ImgCopy) (h : activeCopy w ≠ 0) : copyAt (writeCopy w c) (activeCopy w) = copyAt w (activeCopy w) :=
  copyAt_setCopy_other _ c (inactiveCopy_eq_four h)

/-! FULL (R210). -/

/-- A full commit begins in a stack: the copy that was active is SEALED no more (R201, R210). -/
theorem beginFull_unseals {w : Ws} (m : Manifest) (h : activeCopy w ≠ 0) : (copyAt (beginFull w m) (activeCopy w)).sealed = false := by
  unfold beginFull
  extract_lets w1 w2 copy w3
  obtain ⟨b1, h1⟩ : ∃ b, w1 = { w with blocks := b } := by
    simp only [w1]
    split <;> exact ⟨_, rfl⟩
  obtain ⟨b2, h2⟩ := freeBlocks_changes (mappedBlocks w1 ++ w1.releasing) w1
  have ha : activeCopy w2 = activeCopy w := by
    simp only [w2]
    rw [h2, h1]
    exact activeCopy_congr rfl rfl
  have h3 : w3 = setCopy w2 (activeCopy w2) { copyAt w2 (activeCopy w2) with sealed := false } := if_neg (ha.trans_ne h)
  have ha3 : activeCopy w3 = activeCopy w := by rw [h3, activeCopy_reseal, ha]
  clear_value w1 w2 w3
  refine (congrArg ImgCopy.sealed (copyAt_congr (w := writeCopy w3 ⟨some m, [], false, false⟩) rfl rfl _)).trans ?_
  rw [← ha3, copyAt_writeCopy_active _ (ha3.trans_ne h), ha3, ← ha, h3, copyAt_setCopy_same]

/-- An accepted full commit begins in each of its stacks. -/
def fullBegun (st : Nat) (s : State) (n : Nat) (d : Desc) (m : Manifest) (list : List Nat) : State :=
  setCommit (forEach (commitStacks st m.layout) s fun s k => s.modWs k fun w => beginFull w m) st (commitOf n d m 0 list 0) 1

theorem exec_full (s : State) (k : Fin 8) : exec (.full k) s = .next (beginCommit s k 0 (fullBegun k)) := rfl

theorem fullBegun_wst {st j : Nat} {m : Manifest} (s : State) (n : Nat) (d : Desc) (list : List Nat) (hj : j ∈ commitStacks st m.layout) :
    (fullBegun st s n d m list).wst j = holdCommit st (commitOf n d m 0 list 0) 1 j (beginFull (s.wst j) m) := by
  rw [fullBegun, setCommit_wst, wst_forEach_modWs st m.layout (fun _ w => beginFull w m), onStacks, onStacks, if_pos hj]
  exact if_pos hj

theorem fullBegun_queue (st : Nat) (s : State) (n : Nat) (d : Desc) (m : Manifest) (list : List Nat) (i : Nat) :
    (fullBegun st s n d m list).queue i = s.queue i := by
  rw [fullBegun, setCommit_queue, queue_forEach_modWs _ (fun _ w => beginFull w m)]

theorem full_completes (s : State) (k : Fin 8) (n : Nat) (d : Desc) (h : nextCommit s k 0 = some (n, d)) :
    let m := readManifest s (dBytes d.row 16 8)
    ∃ t, exec (.full k) s = .next t ∧ (t.queue n).ready = (if (s.queue n).run = none then turned s ((s.queue n).ready.erase d) else (s.queue n).ready.erase d) ∧
      (commitError (takeCommit s n d) k 0 m [] = 0 → ∀ j ∈ commitStacks k m.layout,
        (t.wst j).image = 2 ∧ (t.wst j).table = [] ∧ (t.wst j).jValid = false ∧ (t.wst j).journal = [] ∧ (t.wst j).op = 1 ∧
        (activeCopy (s.wst j) ≠ 0 → (copyAt (t.wst j) (activeCopy (s.wst j))).sealed = false) ∧
        ∃ c, (t.wst j).commit = some c ∧ c.kind = 0 ∧ c.pos = 0 ∧ c.manifest = m) ∧
      (commitError (takeCommit s n d) k 0 m [] ≠ 0 →
        (t.wst k).jError = BitVec.ofNat 8 (commitError (takeCommit s n d) k 0 m []) ∧
        ∀ j, (t.wst j).commit = (s.wst j).commit ∧ (t.wst j).table = (s.wst j).table ∧ (t.wst j).copyA = (s.wst j).copyA ∧ (t.wst j).copyB = (s.wst j).copyB ∧
          (t.wst j).image = (s.wst j).image) := by
  intro m
  refine ⟨_, exec_full s k, ?_⟩
  rw [← takeCommit_ready]
  by_cases he : commitError (takeCommit s n d) k 0 m [] = 0
  · rw [beginCommit_accepted h _ he]
    refine ⟨by rw [fullBegun_queue], fun _ j hj => ?_, fun hne => absurd he hne⟩
    rw [fullBegun_wst _ n d _ hj, takeCommit_wst]
    obtain ⟨c, hc, hkind, hpos, hm⟩ := holdCommit_commit k (commitOf n d m 0 [] 0) 1 j (beginFull (s.wst j) m)
    exact ⟨rfl, rfl, rfl, rfl, rfl, fun ha => by rw [copyAt_holdCommit, beginFull_unseals m ha], c, hc, hkind, hpos, hm⟩
  · obtain ⟨hk, hj, hready⟩ := beginCommit_rejected_stacks h (fullBegun k) he
    refine ⟨hready n, fun h0 => absurd h0 he, fun _ => ⟨hk, fun j => ?_⟩⟩
    obtain ⟨x, hx⟩ := hj j
    rw [hx]
    exact ⟨rfl, rfl, rfl, rfl, rfl⟩

end Sys2Proof.Machine
end

section
/-! SUPPORT. What programming leaves of a stack, and DELTA and RESUME (R186, R206 to R208, R214), and O48. -/

namespace Sys2Proof.Machine

/-! The data source (R186). -/

theorem spill_queues {w : Nat} (s : State) (key : Nat) (v : BitVec w) (n : Nat) : QueuesKept s (s.spill key v n) := ⟨rfl, rfl⟩

theorem ksCorrected_queues (s : State) (k n : Nat) : QueuesKept s (ksCorrected s k n) := (spill_queues s _ _ n).trans (modKs_queues _ k _)

theorem ksUncorr_queues (s : State) (k : Nat) : QueuesKept s (ksUncorr s k) := by
  unfold ksUncorr
  extract_lets s1
  have h1 : QueuesKept s s1 := (spill_queues s _ _ _).trans (modKs_queues _ k _)
  split
  · rcases failStack_queues s1 (8 + k) 2 with h | ⟨hlt, -⟩
    · exact h1.trans h
    · omega
  · exact h1

theorem ksCount_queues (s : State) (k : Nat) (x : Reads) : QueuesKept s (ksCount s k x) := by
  unfold ksCount
  exact List.foldlRecOn (motive := QueuesKept s) _ _ (ksCorrected_queues s k x.corrected) fun t ht _ _ => ht.trans (ksUncorr_queues t k)

theorem sourceRead_queues (s : State) (q : Nat) (ks source : Bool) (x : Reads) : QueuesKept s (sourceRead s q ks source x).2 := by
  unfold sourceRead
  split
  · exact ksCount_queues s q x
  · exact ⟨rfl, rfl⟩

/-- A data source that does not answer reads nothing. -/
theorem sourceRead_silent (s : State) (q : Nat) (ks : Bool) (x : Reads) : (sourceRead s q ks false x).1 = false := by
  unfold sourceRead
  split <;> rfl

/-! What programming leaves of a stack. -/

/-- A commit without what programming changes of it. -/
def Commit.fixed (c : Commit) : Commit := { c with table := [], taken := [], hash := HashSt.start }

/-- A stack's core without its page table and what programming changes of its commit. -/
def Ws.lasting (w : Ws) : Ws := { w.core with table := [], commit := w.commit.map Commit.fixed }

theorem Ws.eq_of_lasting {α : Type} (f : Ws → α) (hf : ∀ w, f w.lasting = f w) {w w' : Ws} (h : w.lasting = w'.lasting) : f w = f w' := by
  rw [← hf w, h, hf]

theorem map_fixed {f : Commit → Commit} (hf : ∀ c, (f c).fixed = c.fixed) (c : Option Commit) : (c.map f).map Commit.fixed = c.map Commit.fixed := by
  cases c with
  | none => rfl
  | some c => exact congrArg some (hf c)

theorem Ws.lasting_programmed (w : Ws) (b : Sparse Block) (m : Memory) (t : Sparse Nat) {f : Commit → Commit} (hf : ∀ c, (f c).fixed = c.fixed) :
    ({ w with blocks := b, mem := m, table := t, commit := w.commit.map f } : Ws).lasting = w.lasting := by
  have h := map_fixed hf w.commit
  show ({ w.core with table := [], commit := (w.commit.map f).map Commit.fixed } : Ws) = _
  rw [h]
  rfl

/-- While a commit goes on in its stacks, its lead is the same but for what programming changes. -/
theorem leadCommit_of_lasting {s t : State} {st : Nat} {c : Commit} (h : (t.wst st).lasting = (s.wst st).lasting) (hl : leadCommit s st = some c) :
    ∃ c', leadCommit t st = some c' ∧ c'.kind = c.kind ∧ c'.manifest = c.manifest := by
  obtain ⟨hc, hq⟩ := leadCommit_eq_some.1 hl
  have hmap : (t.wst st).commit.map Commit.fixed = some c.fixed := by
    have hcommit := congrArg Ws.commit h
    simp only [Ws.lasting, hc] at hcommit
    exact hcommit
  obtain ⟨c', hc', hfix⟩ := Option.map_eq_some_iff.1 hmap
  exact ⟨c', leadCommit_eq_some.2 ⟨hc', (congrArg Commit.queue hfix).trans_lt hq⟩, (congrArg Commit.kind hfix :), (congrArg Commit.manifest hfix :)⟩

/-- Image state, copies, manifest and page table of a stack. -/
def Ws.imageParts (w : Ws) : BitVec 3 × ImgCopy × ImgCopy × Option Manifest × Sparse Nat := (w.image, w.copyA, w.copyB, w.manifest, w.table)

/-- A commit that fails in its stacks at a state t, where programming has brought it from s: it is over with the error in each, and no stack's image has changed (R209). -/
theorem commitFail_over {s t : State} {st : Nat} {c : Commit} (hl : leadCommit s st = some c) (h : (t.wst st).lasting = (s.wst st).lasting) (e : Nat) :
    (∀ j ∈ commitStacks st c.manifest.layout, ((commitFail t st e).wst j).commit = none ∧ ((commitFail t st e).wst j).jError = BitVec.ofNat 8 e) ∧
      ∀ j, ((commitFail t st e).wst j).imageParts = (t.wst j).imageParts := by
  obtain ⟨c', hl', -, hm⟩ := leadCommit_of_lasting h hl
  have hcore (j : Nat) := commitFail_core hl' e j
  refine ⟨fun j hj => ?_, fun j => ?_⟩
  · have hj := hcore j
    rw [onStacks, hm, if_pos ‹_›] at hj
    exact ⟨Ws.eq_of_core Ws.commit (fun _ => rfl) hj rfl, Ws.eq_of_core Ws.jError (fun _ => rfl) hj rfl⟩
  · refine Ws.eq_of_core Ws.imageParts (fun _ => rfl) (hcore j) ?_
    unfold onStacks
    split <;> rfl

/-! DELTA (R206 to R208). -/

/-- The next page of a delta in every stack of its commit, programmed and verified; none after an error. -/
def deltaStep (st : Nat) (c : Commit) (m : Manifest) (list : List Nat) (r : Nat × State) (i : Nat) : Nat × State :=
  if r.1 ≠ 0 then r
  else
    let r := (commitStacks st m.layout).foldl (fun (r : Nat × State) k =>
      if r.1 ≠ 0 then r else deltaPage r.2 k c (nth 0 list i) (c.addr + deltaBytes m list i)) (0, r.2)
    if r.1 ≠ 0 then r else (deltaVerify r.2 st c (nth 0 list i), r.2)

/-- A delta's page table in its stack's inactive copy, closed: the stack waits for its switch. -/
def deltaWaits (m : Manifest) (w : Ws) : Ws :=
  { writeCopy w ⟨some m, deltaTable w m ((w.commit.map fun c => c.table).getD []), false, true⟩ with switchWait := true }

/-- An accepted delta whose pages have been programmed with result r: it fails, or waits for its switch. -/
def deltaEnd (st : Nat) (m : Manifest) (list : List Nat) (r : Nat × State) : State :=
  let s := forEach (upto (deltaBytes m list list.length / 1000000000)) r.2 fun s i => commitProgress s st (i + 1)
  if r.1 ≠ 0 then commitFail s st r.1 else forEach (commitStacks st m.layout) s fun s k => s.modWs k (deltaWaits m)

/-- An accepted delta whose data source has been read with answer y. -/
def deltaRest (st : Nat) (c : Commit) (list : List Nat) (y : Bool × State) : State :=
  if !y.1 then commitFail y.2 st 7 else deltaEnd st c.manifest list ((upto list.length).foldl (deltaStep st c c.manifest list) (0, y.2))

/-- An accepted delta: its data source is read, its pages are programmed. -/
def deltaBegun (st : Nat) (source : Bool) (x : Reads) (s : State) (n : Nat) (d : Desc) (m : Manifest) (list : List Nat) : State :=
  let c := commitOf n d m 1 list 0
  deltaRest st c list (sourceRead (setCommit s st c 2) (st / 2) c.src source x)

theorem exec_delta (s : State) (k : Fin 8) (source : Bool) (x : Reads) :
    exec (.delta k source x) s = .next (beginCommit s k 1 (deltaBegun k source x)) := rfl

/-- Programming with result r has gone on from s. -/
structure DeltaGoing (s : State) (r : Nat × State) : Prop where
  error : r.1 = 0 ∨ r.1 = 3 ∨ r.1 = 5
  queues : r.2.cmdq = s.cmdq
  lasting : ∀ j, (r.2.wst j).lasting = (s.wst j).lasting
  table : ∀ j, (r.2.wst j).table = (s.wst j).table

theorem deltaPage_goes {s t : State} {e : Nat} (h : DeltaGoing s (e, t)) (k : Nat) (c : Commit) (p src : Nat) : DeltaGoing s (deltaPage t k c p src) := by
  unfold deltaPage
  split
  · exact ⟨.inr (.inr rfl), h.queues, h.lasting, h.table⟩
  · next b w hw =>
    obtain ⟨l, m, rfl⟩ := takeBlock_changes hw
    refine ⟨.inl rfl, h.queues, fun j => (?_ : _ = _).trans (h.lasting j), fun j => (?_ : _ = _).trans (h.table j)⟩ <;> by_cases hj : j = k
    · subst hj
      rw [wst_modWs_same]
      exact Ws.lasting_programmed (t.wst j) l _ (t.wst j).table fun _ => rfl
    · rw [wst_modWs_other _ _ hj]
    · subst hj
      rw [wst_modWs_same]
    · rw [wst_modWs_other _ _ hj]

theorem deltaStep_goes {s : State} {r : Nat × State} (h : DeltaGoing s r) (st : Nat) (c : Commit) (m : Manifest) (list : List Nat) (i : Nat) :
    DeltaGoing s (deltaStep st c m list r i) := by
  unfold deltaStep
  split
  · exact h
  · extract_lets r1
    have h1 : DeltaGoing s r1 := by
      refine List.foldlRecOn (motive := DeltaGoing s) _ _ ⟨.inl rfl, h.queues, h.lasting, h.table⟩ fun x hx k _ => ?_
      split
      · exact hx
      · exact deltaPage_goes hx k c _ _
    split
    · exact h1
    · refine ⟨?_, h1.queues, h1.lasting, h1.table⟩
      unfold deltaVerify
      dsimp only
      split
      · exact .inl rfl
      · exact .inr (.inl rfl)

theorem deltaWaits_parts (m : Manifest) (w : Ws) :
    (deltaWaits m w).switchWait = true ∧ (deltaWaits m w).op = w.op ∧ (deltaWaits m w).table = w.table ∧ (deltaWaits m w).manifest = w.manifest ∧
      (deltaWaits m w).image = w.image := by
  unfold deltaWaits
  obtain ⟨x, y, b, h⟩ := writeCopy_changes w ⟨some m, deltaTable w m ((w.commit.map fun c => c.table).getD []), false, true⟩
  rw [h]
  exact ⟨rfl, rfl, rfl, rfl, rfl⟩

/-- From s to t no page table, manifest or image state has changed, nor what waits on a queue. -/
def InForceKept (s t : State) : Prop :=
  (∀ n, (t.queue n).ready = (s.queue n).ready) ∧
    ∀ j, (t.wst j).table = (s.wst j).table ∧ (t.wst j).manifest = (s.wst j).manifest ∧ (t.wst j).image = (s.wst j).image

theorem InForceKept.trans {s t r : State} (h : InForceKept s t) (h' : InForceKept t r) : InForceKept s r := by
  refine ⟨fun n => (h'.1 n).trans (h.1 n), fun j => ?_⟩
  obtain ⟨ht, hm, hi⟩ := h.2 j
  obtain ⟨ht', hm', hi'⟩ := h'.2 j
  exact ⟨ht'.trans ht, hm'.trans hm, hi'.trans hi⟩

theorem WaitKept.inForceKept {s t : State} (h : WaitKept s t) : InForceKept s t := ⟨h.1, fun j => by rw [h.wst]; exact ⟨rfl, rfl, rfl⟩⟩

theorem DeltaGoing.inForceKept {s : State} {r : Nat × State} (h : DeltaGoing s r) : InForceKept s r.2 :=
  ⟨fun n => by rw [State.queue, h.queues, ← State.queue], fun j =>
    ⟨h.table j, Ws.eq_of_lasting Ws.manifest (fun _ => rfl) (h.lasting j), Ws.eq_of_lasting Ws.image (fun _ => rfl) (h.lasting j)⟩⟩

theorem commitFail_inForceKept {s t : State} {st : Nat} {c : Commit} (hl : leadCommit s st = some c) (h : (t.wst st).lasting = (s.wst st).lasting)
    (e : Nat) : InForceKept t (commitFail t st e) := by
  refine ⟨commitFail_ready t st e, fun j => ?_⟩
  have hj := (commitFail_over hl h e).2 j
  exact ⟨(congrArg (fun p => p.2.2.2.2) hj :), (congrArg (fun p => p.2.2.2.1) hj :), (congrArg (fun p => p.1) hj :)⟩

/-- A delta whose pages are programmed waits for its switch, or has failed with an error; what is in force stays (R208, R209). -/
theorem deltaEnd_outcome {s : State} {st : Nat} {c : Commit} (hl : leadCommit s st = some c) (hop : (s.wst st).op = 2) (list : List Nat)
    {r : Nat × State} (h : DeltaGoing s r) :
    InForceKept s (deltaEnd st c.manifest list r) ∧
      ((((deltaEnd st c.manifest list r).wst st).switchWait = true ∧ ((deltaEnd st c.manifest list r).wst st).op = 2) ∨
        (((deltaEnd st c.manifest list r).wst st).commit = none ∧ ((deltaEnd st c.manifest list r).wst st).jError ≠ 0)) := by
  have hprogress := WaitKept.forEach (fun s i => commitProgress_waits s st (i + 1)) (upto (deltaBytes c.manifest list list.length / 1000000000)) r.2
  unfold deltaEnd
  generalize forEach (upto (deltaBytes c.manifest list list.length / 1000000000)) r.2 _ = v at hprogress
  have hv : InForceKept s v := h.inForceKept.trans hprogress.inForceKept
  have hlast : (v.wst st).lasting = (s.wst st).lasting := by rw [hprogress.wst, h.lasting]
  have hself := mem_commitStacks_self st c.manifest.layout
  dsimp only
  split
  · next hne =>
    obtain ⟨hcommit, herror⟩ := (commitFail_over hl hlast r.1).1 st hself
    refine ⟨hv.trans (commitFail_inForceKept hl hlast r.1), .inr ⟨hcommit, ?_⟩⟩
    rcases h.error with e | e | e
    · exact absurd e hne
    · rw [herror, e]
      decide
    · rw [herror, e]
      decide
  · have hwst (j : Nat) := wst_forEach_modWs st c.manifest.layout (fun _ => deltaWaits c.manifest) v j
    refine ⟨hv.trans ⟨fun n => by rw [queue_forEach_modWs _ (fun _ => deltaWaits c.manifest)], fun j => ?_⟩, .inl ?_⟩
    · rw [hwst, onStacks]
      split
      · exact (deltaWaits_parts _ _).2.2
      · exact ⟨rfl, rfl, rfl⟩
    · obtain ⟨hw, ho, -⟩ := deltaWaits_parts c.manifest (v.wst st)
      rw [hwst, onStacks, if_pos hself, ho]
      exact ⟨hw, (Ws.eq_of_lasting Ws.op (fun _ => rfl) hlast).trans hop⟩

theorem setCommit_inForceKept (s : State) (st : Nat) (c : Commit) (op : BitVec 2) : InForceKept s (setCommit s st c op) := by
  refine ⟨fun n => by rw [setCommit_queue], fun j => ?_⟩
  rw [setCommit_wst, onStacks]
  split <;> exact ⟨rfl, rfl, rfl⟩

/-- A delta leaves what is in force; it waits for its switch or has failed, with error 7 where its source does not answer. -/
theorem deltaRest_outcome {s : State} {st : Nat} {c : Commit} (hl : leadCommit s st = some c) (hop : (s.wst st).op = 2) (list : List Nat)
    {y : Bool × State} (hy : QueuesKept s y.2) :
    InForceKept s (deltaRest st c list y) ∧
      ((((deltaRest st c list y).wst st).switchWait = true ∧ ((deltaRest st c list y).wst st).op = 2) ∨
        (((deltaRest st c list y).wst st).commit = none ∧ ((deltaRest st c list y).wst st).jError ≠ 0)) ∧
      (y.1 = false → ((deltaRest st c list y).wst st).commit = none ∧ ((deltaRest st c list y).wst st).jError = 7) := by
  have hlast (j : Nat) : (y.2.wst j).lasting = (s.wst j).lasting := congrArg Ws.lasting (hy.wst j)
  unfold deltaRest
  cases hok : y.1
  · obtain ⟨hcommit, herror⟩ := (commitFail_over hl (hlast st) 7).1 st (mem_commitStacks_self _ _)
    rw [Bool.not_false, if_pos rfl]
    refine ⟨hy.waitKept.inForceKept.trans (commitFail_inForceKept hl (hlast st) 7), .inr ⟨hcommit, ?_⟩, fun _ => ⟨hcommit, herror⟩⟩
    rw [herror]
    decide
  · rw [Bool.not_true, if_neg Bool.false_ne_true]
    have hgoing : DeltaGoing s ((upto list.length).foldl (deltaStep st c c.manifest list) (0, y.2)) :=
      List.foldlRecOn (motive := DeltaGoing s) _ _ ⟨.inl rfl, hy.1, hlast, fun j => congrArg Ws.table (hy.wst j)⟩
        fun r hr i _ => deltaStep_goes hr st c c.manifest list i
    obtain ⟨hkept, hout⟩ := deltaEnd_outcome hl hop list hgoing
    exact ⟨hkept, hout, fun h => absurd h (by decide)⟩

theorem deltaBegun_outcome (st : Nat) (source : Bool) (x : Reads) (s : State) {n : Nat} (d : Desc) (m : Manifest) (list : List Nat) (hn : n < 64) :
    let t := deltaBegun st source x s n d m list
    InForceKept s t ∧ (((t.wst st).switchWait = true ∧ (t.wst st).op = 2) ∨ ((t.wst st).commit = none ∧ (t.wst st).jError ≠ 0)) ∧
      (source = false → (t.wst st).commit = none ∧ (t.wst st).jError = 7) := by
  have hl : leadCommit (setCommit s st (commitOf n d m 1 list 0) 2) st = some (commitOf n d m 1 list 0) := leadCommit_setCommit s st 2 hn
  have hop : ((setCommit s st (commitOf n d m 1 list 0) 2).wst st).op = 2 := by
    rw [setCommit_wst, onStacks, if_pos (mem_commitStacks_self _ _)]
    rfl
  obtain ⟨hkept, hout, hsilent⟩ := deltaRest_outcome hl hop list (sourceRead_queues _ (st / 2) (commitOf n d m 1 list 0).src source x)
  refine ⟨(setCommit_inForceKept s st _ 2).trans hkept, hout, fun hs => hsilent ?_⟩
  rw [hs, sourceRead_silent]

theorem delta_completes (s : State) (k : Fin 8) (n : Nat) (d : Desc) (src : Bool) (x : Reads) (h : nextCommit s k 1 = some (n, d)) :
    let m := readManifest s (dBytes d.row 16 8)
    let l := (upto (dBytes d.row 40 2)).map fun i => readNat s.host (dBytes d.row 32 8 + 2 * i) 2
    ∃ t, exec (.delta k src x) s = .next t ∧ (t.queue n).ready = (if (s.queue n).run = none then turned s ((s.queue n).ready.erase d) else (s.queue n).ready.erase d) ∧
      (∀ j, (t.wst j).table = (s.wst j).table ∧ (t.wst j).manifest = (s.wst j).manifest ∧ (t.wst j).image = (s.wst j).image) ∧
      (commitError (takeCommit s n d) k 1 m l = 0 →
        ((t.wst k).switchWait = true ∧ (t.wst k).op = 2) ∨ ((t.wst k).commit = none ∧ (t.wst k).jError ≠ 0)) ∧
      (commitError (takeCommit s n d) k 1 m l = 0 → src = false → (t.wst k).commit = none ∧ (t.wst k).jError = 7) ∧
      (commitError (takeCommit s n d) k 1 m l ≠ 0 →
        (t.wst k).jError = BitVec.ofNat 8 (commitError (takeCommit s n d) k 1 m l) ∧
        ∀ j, (t.wst j).copyA = (s.wst j).copyA ∧ (t.wst j).copyB = (s.wst j).copyB ∧ (t.wst j).commit = (s.wst j).commit) := by
  intro m l
  refine ⟨_, exec_delta s k src x, ?_⟩
  rw [← takeCommit_ready]
  by_cases he : commitError (takeCommit s n d) k 1 m l = 0
  · rw [beginCommit_accepted h _ he]
    obtain ⟨⟨hready, hkept⟩, hout, hsilent⟩ := deltaBegun_outcome k src x (takeCommit s n d) d m l (nextCommit_lt h)
    refine ⟨hready n, fun j => ?_, fun _ => hout, fun _ => hsilent, fun hne => absurd he hne⟩
    rw [← takeCommit_wst s n d j]
    exact hkept j
  · obtain ⟨hk, hj, hready⟩ := beginCommit_rejected_stacks h (deltaBegun k src x) he
    refine ⟨hready n, fun j => ?_, fun h0 => absurd h0 he, fun h0 => absurd h0 he, fun _ => ⟨hk, fun j => ?_⟩⟩ <;>
      obtain ⟨y, hy⟩ := hj j <;> rw [hy] <;> exact ⟨rfl, rfl, rfl⟩

/-! RESUME (R214). -/

/-- A stack that goes on from row r of the image, in page p: later pages are dropped, and page p goes to a fresh block, with its rows below r. -/
def resumeStack (p r : Nat) (w : Ws) : Ws :=
  match takeBlock (dropLater w p) 8 with
  | none => w
  | some (b, x) =>
    let x := { x with mem := copyRange x.mem (2 ^ 26 * sget 0 w.table p) (64 * (r - 1048576 * p)) x.mem (2 ^ 26 * b), table := sset 0 x.table p b }
    if sget 0 w.table p = 0 then x else freeBlock x (sget 0 w.table p)

/-- The commit that an accepted RESUME of stack st goes on under. -/
def resumeCommit (s : State) (st n : Nat) (d : Desc) (m : Manifest) (list : List Nat) : Commit :=
  { commitOf n d m 2 list (lastRecord (s.wst st)).k with hash := (lastRecord (s.wst st)).hash }

/-- Reading the page in progress in stack k, after what the other stack has shown. -/
def resumeRead (st p n : Nat) (copy partner : List (Fin 16384 × ReadErr)) (x : Bool × State) (k : Nat) : Bool × State :=
  let y := readGranules x.2 k (sget 0 (x.2.wst k).table p) n (if k = st then copy else partner)
  (x.1 && y.1, y.2)

/-- An accepted RESUME from row r of the image, in page p, after the reading of that page with answer y. -/
def resumeRest (st p r : Nat) (ks : List Nat) (y : Bool × State) : State :=
  if !y.1 then commitFail y.2 st 8
  else if ks.any fun k => !resumeRoom (y.2.wst k) then commitFail y.2 st 5
  else forEach ks y.2 fun s k => s.modWs k (resumeStack p r)

/-- An accepted RESUME. -/
def resumeBegun (st : Nat) (copy partner : List (Fin 16384 × ReadErr)) (s : State) (n : Nat) (d : Desc) (m : Manifest) (list : List Nat) : State :=
  let r := 15625000 * (lastRecord (s.wst st)).k
  let p := r / 1048576
  resumeRest st p r (commitStacks st m.layout) (forEach (commitStacks st m.layout) (true, setCommit s st (resumeCommit s st n d m list) 1)
    (resumeRead st p ((r - 1048576 * p + 63) / 64) copy partner))

theorem exec_resume (s : State) (k : Fin 8) (copy partner : List (Fin 16384 × ReadErr)) :
    exec (.resume k copy partner) s = .next (beginCommit s k 2 (resumeBegun k copy partner)) := by
  show execResume k copy partner s = _
  unfold execResume
  refine congrArg Host.Outcome.next (congrArg (beginCommit s k 2) ?_)
  funext s n d m list
  unfold resumeBegun resumeRest resumeRead resumeCommit
  dsimp only
  generalize 15625000 * (lastRecord (s.wst k)).k = r
  generalize r / 1048576 = p
  refine if_congr Iff.rfl rfl (if_congr Iff.rfl rfl (congrArg (forEach _ _) (funext fun s => funext fun j => congrArg (s.modWs j) (funext fun w => ?_))))
  unfold resumeStack
  cases takeBlock (dropLater w p) 8 with
  | none => rfl
  | some x => rfl

theorem foldl_freeBlock_blocks : ∀ (l : List Nat) {w w' : Ws}, w'.blocks = w.blocks → (l.foldl freeBlock w').blocks = (l.foldl freeBlock w).blocks
  | [], _, _, h => h
  | b :: l, w, w', h => foldl_freeBlock_blocks l (by rw [freeBlock, h, freeBlock])

theorem dropLater_blocks {w w' : Ws} (hb : w'.blocks = w.blocks) (ht : w'.table = w.table) (p : Nat) :
    (dropLater w' p).blocks = (dropLater w p).blocks := by
  unfold dropLater
  rw [ht]
  exact foldl_freeBlock_blocks _ hb

/-- Whether a RESUME has a block left is told by the stack's blocks, page table and journal. -/
theorem resumeRoom_congr {w w' : Ws} (hb : w'.blocks = w.blocks) (ht : w'.table = w.table) (hj : w'.journal = w.journal) :
    resumeRoom w' = resumeRoom w := by
  have hlast : lastRecord w' = lastRecord w := by rw [lastRecord, hj, ← lastRecord]
  unfold resumeRoom freeBlocks
  rw [hlast, dropLater_blocks hb ht]

theorem resumeRead_clean (st p n : Nat) (s : State) (k : Nat) : resumeRead st p n [] [] (true, s) k = (true, s) := by
  simp only [resumeRead, ite_self]
  rfl

/-- A RESUME whose page in progress reads without error (R214). -/
theorem resumeBegun_clean (st : Nat) (s : State) (n : Nat) (d : Desc) (m : Manifest) (list : List Nat) :
    ∃ p r, resumeBegun st [] [] s n d m list =
      if (commitStacks st m.layout).any fun k => !resumeRoom (s.wst k) then commitFail (setCommit s st (resumeCommit s st n d m list) 1) st 5
      else forEach (commitStacks st m.layout) (setCommit s st (resumeCommit s st n d m list) 1) fun s k => s.modWs k (resumeStack p r) := by
  have hroom (k : Nat) : resumeRoom ((setCommit s st (resumeCommit s st n d m list) 1).wst k) = resumeRoom (s.wst k) := by
    rw [setCommit_wst, onStacks]
    split
    · exact resumeRoom_congr rfl rfl rfl
    · rfl
  unfold resumeBegun
  dsimp only
  generalize 15625000 * (lastRecord (s.wst st)).k = r
  generalize r / 1048576 = p
  refine ⟨p, r, ?_⟩
  have hread : forEach (commitStacks st m.layout) (true, setCommit s st (resumeCommit s st n d m list) 1)
      (resumeRead st p ((r - 1048576 * p + 63) / 64) [] []) = (true, setCommit s st (resumeCommit s st n d m list) 1) :=
    List.foldl_fixed' (resumeRead_clean st p _ _) _
  rw [hread]
  simp only [resumeRest, hroom, Bool.not_true, Bool.false_eq_true, if_false]

/-- Going on from the journal leaves the stack's operation and commit. -/
theorem resumeStack_commit (p r : Nat) (w : Ws) : (resumeStack p r w).op = w.op ∧ (resumeStack p r w).commit = w.commit := by
  unfold resumeStack dropLater
  split
  · exact ⟨rfl, rfl⟩
  · next b x h =>
    obtain ⟨l, m, rfl⟩ := takeBlock_changes h
    obtain ⟨l', hl'⟩ := freeBlocks_changes ((w.table.filter fun e => decide (p < e.1)).map Prod.snd) { w with table := w.table.filter fun e => decide (e.1 ≤ p) }
    rw [hl']
    dsimp only
    split <;> exact ⟨rfl, rfl⟩

/-- An accepted RESUME fails with SPACE where a stack has no block left for the page, else its commit goes on from the journal (R194, R214). -/
theorem resumeBegun_outcome (st : Nat) (s : State) {n : Nat} (d : Desc) (m : Manifest) (list : List Nat) (hn : n < 64) :
    let t := resumeBegun st [] [] s n d m list
    (∀ i, (t.queue i).ready = (s.queue i).ready) ∧
    ((∃ j ∈ commitStacks st m.layout, resumeRoom (s.wst j) = false) → (t.wst st).commit = none ∧ (t.wst st).jError = 5) ∧
      ((∀ j ∈ commitStacks st m.layout, resumeRoom (s.wst j) = true) →
        (t.wst st).op = 1 ∧ (t.wst st).commit = some (resumeCommit s st n d m list)) := by
  intro t
  have hl : leadCommit (setCommit s st (resumeCommit s st n d m list) 1) st = some (resumeCommit s st n d m list) := leadCommit_setCommit s st 1 hn
  have hself := mem_commitStacks_self st m.layout
  obtain ⟨p, r, ht⟩ := resumeBegun_clean st s n d m list
  simp only [t, ht]
  split
  · next hany =>
    obtain ⟨j, hj, hlacks⟩ := List.any_eq_true.1 hany
    refine ⟨fun i => by rw [commitFail_ready, setCommit_queue], fun _ => (commitFail_over hl rfl 5).1 st hself, fun hall => ?_⟩
    rw [hall j hj] at hlacks
    cases hlacks
  · next hany =>
    refine ⟨fun i => by rw [queue_forEach_modWs _ (fun _ => resumeStack p r), setCommit_queue], fun ⟨j, hj, hlacks⟩ => ?_, fun _ => ?_⟩
    · exact absurd (List.any_eq_true.2 ⟨j, hj, by rw [hlacks]; rfl⟩) hany
    · obtain ⟨hop, hcommit⟩ := resumeStack_commit p r ((setCommit s st (resumeCommit s st n d m list) 1).wst st)
      rw [wst_forEach_modWs st m.layout (fun _ => resumeStack p r), onStacks, if_pos hself, hop, hcommit]
      refine ⟨?_, (leadCommit_eq_some.1 hl).1⟩
      rw [setCommit_wst, onStacks, if_pos (mem_commitStacks_self _ _)]
      rfl

theorem resume_completes (s : State) (k : Fin 8) (n : Nat) (d : Desc) (h : nextCommit s k 2 = some (n, d)) :
    let m := readManifest s (dBytes d.row 16 8)
    ∃ t, exec (.resume k [] []) s = .next t ∧ (t.queue n).ready = (if (s.queue n).run = none then turned s ((s.queue n).ready.erase d) else (s.queue n).ready.erase d) ∧
      (commitError (takeCommit s n d) k 2 m [] = 0 → (∃ j ∈ commitStacks k m.layout, resumeRoom (s.wst j) = false) →
        (t.wst k).commit = none ∧ (t.wst k).jError = 5) ∧
      (commitError (takeCommit s n d) k 2 m [] = 0 → (∀ j ∈ commitStacks k m.layout, resumeRoom (s.wst j) = true) →
        (t.wst k).op = 1 ∧ ∃ c, (t.wst k).commit = some c ∧ c.kind = 2 ∧ c.pos = (lastRecord (s.wst k)).k ∧
          c.hash = (lastRecord (s.wst k)).hash ∧ c.manifest = m) ∧
      (commitError (takeCommit s n d) k 2 m [] ≠ 0 →
        (t.wst k).jError = BitVec.ofNat 8 (commitError (takeCommit s n d) k 2 m []) ∧
        ∀ j, (t.wst j).commit = (s.wst j).commit ∧ (t.wst j).table = (s.wst j).table ∧ (t.wst j).copyA = (s.wst j).copyA ∧ (t.wst j).copyB = (s.wst j).copyB ∧
          (t.wst j).image = (s.wst j).image) := by
  intro m
  refine ⟨_, exec_resume s k [] [], ?_⟩
  rw [← takeCommit_ready]
  by_cases he : commitError (takeCommit s n d) k 2 m [] = 0
  · rw [beginCommit_accepted h _ he]
    obtain ⟨hready, hfails, hgoes⟩ := resumeBegun_outcome k (takeCommit s n d) d m [] (nextCommit_lt h)
    simp only [takeCommit_wst] at hfails hgoes
    refine ⟨hready n, fun _ hlacks => hfails hlacks, fun _ hall => ?_, fun hne => absurd he hne⟩
    obtain ⟨hop, hcommit⟩ := hgoes hall
    refine ⟨hop, _, hcommit, rfl, ?_, ?_, rfl⟩ <;> rw [resumeCommit, takeCommit_wst]
    rfl
  · obtain ⟨hk, hj, hready⟩ := beginCommit_rejected_stacks h (resumeBegun k [] []) he
    refine ⟨hready n, fun h0 => absurd h0 he, fun h0 => absurd h0 he, fun _ => ⟨hk, fun j => ?_⟩⟩
    obtain ⟨y, hy⟩ := hj j
    rw [hy]
    exact ⟨rfl, rfl, rfl, rfl, rfl⟩

/-- Settles O48: each kind of commit by its own lemma above. -/
theorem commitsBeginAndAreRejected : Obligations.CommitsBeginAndAreRejected := ⟨full_completes, delta_completes, resume_completes⟩

end Sys2Proof.Machine
end

section
/-! SUPPORT. JOURNAL_RECORD, COMMIT_SEAL and DELTA_SWITCH (R186, R201, R208, R211 to R215), and O49. -/

namespace Sys2Proof.Machine

/-! Programming and verifying (R210, R211, R215). -/

/-- From s to t programming has gone on: of the stacks only what it changes has changed. -/
def Programmed (s t : State) : Prop := ∀ j, (t.wst j).lasting = (s.wst j).lasting

theorem Programmed.trans {s t r : State} (h : Programmed s t) (h' : Programmed t r) : Programmed s r := fun j => (h' j).trans (h j)

theorem QueuesKept.programmed {s t : State} (h : QueuesKept s t) : Programmed s t := fun j => congrArg Ws.lasting (h.wst j)

theorem programmed_modWs (s : State) (k : Nat) {f : Ws → Ws} (h : (f (s.wst k)).lasting = (s.wst k).lasting) : Programmed s (s.modWs k f) := by
  intro j
  by_cases hj : j = k
  · rw [hj, wst_modWs_same, h]
  · rw [wst_modWs_other _ _ hj]

/-- A loop that may stop keeps what each of its steps keeps. -/
theorem foldlM_programmed {f : State → Nat → Option State} (h : ∀ s a t, f s a = some t → Programmed s t) :
    ∀ (l : List Nat) (s t : State), l.foldlM f s = some t → Programmed s t
  | [], s, t, e => by
    cases e
    exact fun _ => rfl
  | a :: l, s, t, e => by
    obtain ⟨u, hu, ht⟩ := Option.bind_eq_some_iff.1 e
    exact (h s a u hu).trans (foldlM_programmed h l u t ht)

theorem programRows_programmed {s t : State} {k : Nat} {c : Commit} {a b : Nat} (h : programRows s k c a b = some t) : Programmed s t := by
  unfold programRows at h
  split at h
  · cases h
    exact fun _ => rfl
  · refine foldlM_programmed (fun s p t ht => ?_) _ _ _ h
    dsimp only at ht
    split at ht
    · obtain ⟨x, hx, hs⟩ := Option.bind_eq_some_iff.1 ht
      obtain ⟨y, hy, rfl⟩ := Option.map_eq_some_iff.1 hx
      obtain ⟨l, m, hw⟩ := takeBlock_changes hy
      cases hs
      dsimp only
      rw [hw]
      exact programmed_modWs s k rfl
    · cases ht
      exact programmed_modWs s k rfl

/-- The hash over the rows is kept in every stack's commit. -/
def hashKept (h : HashSt) (w : Ws) : Ws := { w with commit := w.commit.map fun x => { x with hash := h } }

theorem programAll_cases (s : State) (st : Nat) (c : Commit) (a b : Nat) :
    (programAll s st c a b).2 = s ∨
      ∃ t h, (commitStacks st c.manifest.layout).foldlM (fun s k => programRows s k c a b) s = some t ∧
        (programAll s st c a b).2 = forEach (commitStacks st c.manifest.layout) t fun t k => t.modWs k (hashKept h) := by
  cases ht : (commitStacks st c.manifest.layout).foldlM (fun s k => programRows s k c a b) s with
  | none => exact .inl (by simp only [programAll, ht])
  | some t => exact .inr ⟨t, _, rfl, by simp only [programAll, ht]; rfl⟩

theorem programAll_programmed (s : State) (st : Nat) (c : Commit) (a b : Nat) : Programmed s (programAll s st c a b).2 := by
  rcases programAll_cases s st c a b with h | ⟨t, r, ht, h⟩
  · rw [h]
    exact fun _ => rfl
  · rw [h]
    have hrows := foldlM_programmed (fun s k t h => programRows_programmed h) _ _ _ ht
    refine hrows.trans fun j => ?_
    rw [wst_forEach_modWs st c.manifest.layout fun _ => hashKept r]
    unfold onStacks
    split
    · exact Ws.lasting_programmed (t.wst j) (t.wst j).blocks (t.wst j).mem (t.wst j).table fun _ => rfl
    · rfl

/-! JOURNAL_RECORD (R211). -/

/-- A stack whose journal has the record of the next gigabyte. -/
def journaled (c : Commit) (w : Ws) : Ws :=
  let h := match w.commit with | some c => c.hash | none => HashSt.start
  { w with jValid := true, journal := w.journal ++ [⟨c.pos + 1, manifestDigest c.manifest, h, true⟩],
           commit := w.commit.map fun x => { x with pos := c.pos + 1 } }

/-- The end of a JOURNAL_RECORD whose programming has result r. -/
def journalEnd (st : Nat) (c : Commit) (r : Nat × State) : State :=
  if r.1 = 0 then commitProgress (forEach (commitStacks st c.manifest.layout) r.2 fun s j => s.modWs j (journaled c)) st (c.pos + 1)
  else commitFail r.2 st r.1

/-- A recorded gigabyte in a stack that programming has brought from w. -/
theorem journaled_parts {w v : Ws} (c : Commit) (h : v.lasting = w.lasting) :
    (journaled c v).jValid = true ∧ ∃ e, (journaled c v).journal = w.journal ++ [e] ∧ e.k = c.pos + 1 ∧ e.digest = manifestDigest c.manifest ∧
      e.check = true ∧ (w.commit ≠ none → ∃ d, (journaled c v).commit = some d ∧ d.pos = c.pos + 1 ∧ e.hash = d.hash) := by
  have hjournal : v.journal = w.journal := Ws.eq_of_lasting Ws.journal (fun _ => rfl) h
  have hsome : v.commit.isSome = w.commit.isSome := by
    have hmap := congrArg (fun x : Ws => x.commit.isSome) h
    simpa only [Ws.lasting, Option.isSome_map] using hmap
  refine ⟨rfl, _, congrArg (· ++ _) hjournal, rfl, rfl, rfl, fun hw => ?_⟩
  rw [Option.isSome_iff_ne_none.2 hw] at hsome
  obtain ⟨d, hd⟩ := Option.isSome_iff_exists.1 hsome
  refine ⟨{ d with pos := c.pos + 1 }, ?_, rfl, ?_⟩
  · simp only [journaled, hd, Option.map_some]
  · simp only [hd]

/-- A gigabyte that programs and verifies is recorded in each stack; else the commit is over with the error (R209, R211). -/
theorem journalEnd_outcome {s : State} {st : Nat} {c : Commit} (hl : leadCommit s st = some c) {r : Nat × State} (h : Programmed s r.2) :
    (r.1 = 0 → ∀ j ∈ commitStacks st c.manifest.layout,
      ((journalEnd st c r).wst j).jValid = true ∧ ∃ e, ((journalEnd st c r).wst j).journal = (s.wst j).journal ++ [e] ∧ e.k = c.pos + 1 ∧
        e.digest = manifestDigest c.manifest ∧ e.check = true ∧
        ((s.wst j).commit ≠ none → ∃ d, ((journalEnd st c r).wst j).commit = some d ∧ d.pos = c.pos + 1 ∧ e.hash = d.hash)) ∧
    (r.1 ≠ 0 → ∀ j ∈ commitStacks st c.manifest.layout,
      ((journalEnd st c r).wst j).commit = none ∧ ((journalEnd st c r).wst j).jError = BitVec.ofNat 8 r.1) := by
  unfold journalEnd
  refine ⟨fun h0 j hj => ?_, fun hne => ?_⟩
  · rw [if_pos h0, (commitProgress_waits _ _ _).wst, wst_forEach_modWs st c.manifest.layout fun _ => journaled c, onStacks, if_pos hj]
    exact journaled_parts c (h j)
  · rw [if_neg hne]
    exact (commitFail_over hl (h st) r.1).1

section
variable {s : State} {k : Fin 8} {c : Commit} (hl : leadCommit s k = some c) (hk : c.kind ≠ 1)
include hl hk

theorem exec_journalRecord (hr : 15625000 * (c.pos + 1) ≤ c.manifest.rows.toNat) (source : Bool) (x : Reads) :
    exec (.journalRecord k source x) s = .next (
      if (sourceRead s (k.val / 2) c.src source x).1 = true then
        journalEnd k c (programAll (sourceRead s (k.val / 2) c.src source x).2 k c (15625000 * c.pos) (15625000 * (c.pos + 1)))
      else commitFail (sourceRead s (k.val / 2) c.src source x).2 k 7) := by
  have hgo : (decide (c.kind = 1) || decide (c.manifest.rows.toNat < 15625000 * (c.pos + 1))) = false := by
    rw [decide_eq_false hk, decide_eq_false (Nat.not_lt.2 hr)]
    rfl
  show execJournalRecord k source x s = _
  simp only [execJournalRecord, hl, hgo, Bool.false_eq_true, if_false]
  generalize 15625000 * c.pos = a
  generalize 15625000 * (c.pos + 1) = b
  rcases sourceRead s (k.val / 2) c.src source x with ⟨ok, t⟩
  cases ok
  · rfl
  · dsimp only
    rcases programAll t k c a b with ⟨e, u⟩
    cases e <;> rfl

theorem journalRecord_silent (hr : 15625000 * (c.pos + 1) ≤ c.manifest.rows.toNat) (x : Reads) :
    ∃ t, exec (.journalRecord k false x) s = .next t ∧
      ∀ j ∈ commitStacks k c.manifest.layout, (t.wst j).commit = none ∧ (t.wst j).jError = 7 := by
  have hread := (sourceRead_queues s (k.val / 2) c.src false x).programmed
  refine ⟨_, exec_journalRecord hl hk hr false x, ?_⟩
  rw [sourceRead_silent, if_neg Bool.false_ne_true]
  exact (commitFail_over hl (hread k) 7).1

theorem journalRecord_answered (hr : 15625000 * (c.pos + 1) ≤ c.manifest.rows.toNat) (x : Reads)
    (ho : (sourceRead s (k.val / 2) c.src true x).1 = true) :
    let r := programAll (sourceRead s (k.val / 2) c.src true x).2 k c (15625000 * c.pos) (15625000 * (c.pos + 1))
    ∃ t, exec (.journalRecord k true x) s = .next t ∧
      (r.1 = 0 → ∀ j ∈ commitStacks k c.manifest.layout,
        (t.wst j).jValid = true ∧ ∃ e, (t.wst j).journal = (s.wst j).journal ++ [e] ∧ e.k = c.pos + 1 ∧
          e.digest = manifestDigest c.manifest ∧ e.check = true ∧
          ((s.wst j).commit ≠ none → ∃ d, (t.wst j).commit = some d ∧ d.pos = c.pos + 1 ∧ e.hash = d.hash)) ∧
      (r.1 ≠ 0 → ∀ j ∈ commitStacks k c.manifest.layout, (t.wst j).commit = none ∧ (t.wst j).jError = BitVec.ofNat 8 r.1) := by
  intro r
  have hprog : Programmed s r.2 := (sourceRead_queues s (k.val / 2) c.src true x).programmed.trans (programAll_programmed _ _ _ _ _)
  exact ⟨_, (exec_journalRecord hl hk hr true x).trans (congrArg _ (if_pos ho)), journalEnd_outcome hl hprog⟩

end

/-! COMMIT_SEAL (R201, R212). -/

/-- The manifest and page table of a stack's new image in its inactive copy, closed. -/
def closeCopy (m : Manifest) (w : Ws) : Ws := setCopy w (inactiveCopy w) ⟨some m, w.table, true, false⟩

/-- The copies of all of a commit's stacks are closed, then SEALED. -/
def sealStacks (st : Nat) (m : Manifest) (s : State) : State :=
  forEach (commitStacks st m.layout) (forEach (commitStacks st m.layout) s fun s j => s.modWs j (closeCopy m)) fun s j => s.modWs j sealCopy

theorem wst_sealStacks {st : Nat} {m : Manifest} {j : Nat} (hj : j ∈ commitStacks st m.layout) (s : State) :
    (sealStacks st m s).wst j = sealCopy (closeCopy m (s.wst j)) := by
  rw [sealStacks, wst_forEach_modWs st m.layout fun _ => sealCopy, onStacks, if_pos hj,
    wst_forEach_modWs st m.layout fun _ => closeCopy m, onStacks, if_pos hj]

/-- The end of a COMMIT_SEAL whose programming has result r. -/
def sealEnd (st : Nat) (c : Commit) (r : Nat × State) : State :=
  if r.1 = 0 then
    if !manifestVerifies r.2 c.manifest then commitFail r.2 st 1
    else commitDone (sealStacks st c.manifest r.2) st
  else commitFail r.2 st r.1

/-- A closed copy of a newer manifest is the active one (R201). -/
theorem activeCopy_closeCopy {m : Manifest} {w : Ws} (h : activeCopy w ≠ 0 → (copyAt w (activeCopy w)).seq < m.seq.toNat) :
    activeCopy (closeCopy m w) = inactiveCopy w := by
  by_cases hA : w.copyA.valid && (!w.copyB.valid || decide (w.copyB.seq ≤ w.copyA.seq))
  · have ha : activeCopy w = 3 := by rw [activeCopy, if_pos hA]
    have hseq : w.copyA.seq < m.seq.toNat := by simpa [ha, copyAt] using h
    have hi : inactiveCopy w = 4 := by rw [inactiveCopy, if_pos ha]
    have hB : ¬ (w.copyA.valid && (!true || decide (m.seq.toNat ≤ w.copyA.seq))) = true := by simp [hseq]
    rw [closeCopy, hi]
    exact (if_neg hB).trans (if_pos rfl)
  · by_cases hB : w.copyB.valid
    · have ha : activeCopy w = 4 := by rw [activeCopy, if_neg hA, if_pos hB]
      have hseq : w.copyB.seq < m.seq.toNat := by simpa [ha, copyAt] using h
      have hi : inactiveCopy w = 3 := by rw [inactiveCopy, ha]; rfl
      have hA' : (true && (!w.copyB.valid || decide (w.copyB.seq ≤ m.seq.toNat))) = true := by simp [Nat.le_of_lt hseq]
      rw [closeCopy, hi]
      exact if_pos hA'
    · have ha : activeCopy w = 0 := by rw [activeCopy, if_neg hA, if_neg hB]
      have hi : inactiveCopy w = 3 := by rw [inactiveCopy, ha]; rfl
      have hA' : (true && (!w.copyB.valid || decide (w.copyB.seq ≤ m.seq.toNat))) = true := by simp [hB]
      rw [closeCopy, hi]
      exact if_pos hA'

theorem setCopy_commit (w : Ws) (b : Nat) (c : ImgCopy) : (setCopy w b c).commit = w.commit := by
  obtain ⟨x, y, h⟩ := setCopy_changes w b c
  rw [h]

theorem sealed_commit (m : Manifest) (w : Ws) : (sealCopy (closeCopy m w)).commit = w.commit :=
  (setCopy_commit _ _ _).trans (setCopy_commit _ _ _)

/-- A stack whose closed copy is newer is SEALED under it (R212). -/
theorem sealed_parts {m : Manifest} {w : Ws} (h : activeCopy w ≠ 0 → (copyAt w (activeCopy w)).seq < m.seq.toNat) :
    (sealCopy (closeCopy m w)).image = 1 ∧ (sealCopy (closeCopy m w)).manifest = some m ∧
      (copyAt (sealCopy (closeCopy m w)) (activeCopy (sealCopy (closeCopy m w)))).sealed = true := by
  have hcopy : copyAt (closeCopy m w) (activeCopy (closeCopy m w)) = ⟨some m, w.table, true, false⟩ := by
    rw [activeCopy_closeCopy h]
    exact copyAt_setCopy_same _ _ _
  refine ⟨rfl, congrArg ImgCopy.manifest hcopy, ?_⟩
  generalize closeCopy m w = v
  have hactive : activeCopy (sealCopy v) = activeCopy v := activeCopy_reseal v (activeCopy v) true
  rw [hactive]
  exact congrArg ImgCopy.sealed (copyAt_setCopy_same v _ _)

/-- The core of a stack whose COMMIT_SEAL has gone through. -/
theorem sealEnd_core {s : State} {st : Nat} {c : Commit} (hl : leadCommit s st = some c) {r : Nat × State} (h : Programmed s r.2)
    (h0 : r.1 = 0) (hv : manifestVerifies r.2 c.manifest = true) (j : Nat) (hj : j ∈ commitStacks st c.manifest.layout) :
    ((sealEnd st c r).wst j).core = (commitOver c.kind (sealCopy (closeCopy c.manifest (r.2.wst j)))).core := by
  have hend : sealEnd st c r = commitDone (sealStacks st c.manifest r.2) st := by
    rw [sealEnd, if_pos h0, hv, Bool.not_true, if_neg Bool.false_ne_true]
  obtain ⟨c', hl', hkind, hmanifest⟩ := leadCommit_of_lasting (h st) hl
  have hlead : leadCommit (sealStacks st c.manifest r.2) st = some c' := by
    obtain ⟨hc, hq⟩ := leadCommit_eq_some.1 hl'
    refine leadCommit_eq_some.2 ⟨?_, hq⟩
    rw [wst_sealStacks (mem_commitStacks_self _ _), sealed_commit, hc]
  rw [hend, commitDone_core hlead, hmanifest, hkind, onStacks, if_pos hj, wst_sealStacks hj]

/-- A COMMIT_SEAL whose rest programs and verifies, and whose manifest verifies again, seals each of its stacks; else the commit is over with the error (R209, R212). -/
theorem sealEnd_outcome {s : State} {st : Nat} {c : Commit} (hl : leadCommit s st = some c) {r : Nat × State} (h : Programmed s r.2) :
    (∀ j ∈ commitStacks st c.manifest.layout, ((sealEnd st c r).wst j).commit = none) ∧
    (r.1 ≠ 0 → ∀ j ∈ commitStacks st c.manifest.layout, ((sealEnd st c r).wst j).jError = BitVec.ofNat 8 r.1) ∧
    (r.1 = 0 → manifestVerifies r.2 c.manifest = true →
      (∀ j ∈ commitStacks st c.manifest.layout, activeCopy (s.wst j) ≠ 0 → (copyAt (s.wst j) (activeCopy (s.wst j))).seq < c.manifest.seq.toNat) →
      ∀ j ∈ commitStacks st c.manifest.layout,
        ((sealEnd st c r).wst j).image = 1 ∧
        (copyAt ((sealEnd st c r).wst j) (activeCopy ((sealEnd st c r).wst j))).sealed = true ∧
        ((sealEnd st c r).wst j).manifest = some c.manifest ∧
        ((sealEnd st c r).wst j).op = 0 ∧ ((sealEnd st c r).wst j).jError = 0) ∧
    (r.1 = 0 → manifestVerifies r.2 c.manifest = false →
      ((sealEnd st c r).wst st).jError = 1 ∧ ((sealEnd st c r).wst st).image = (s.wst st).image ∧
        ((sealEnd st c r).wst st).copyA = (s.wst st).copyA ∧ ((sealEnd st c r).wst st).copyB = (s.wst st).copyB) := by
  have hself := mem_commitStacks_self st c.manifest.layout
  by_cases h0 : r.1 = 0
  · cases hv : manifestVerifies r.2 c.manifest with
    | false =>
      have hend : sealEnd st c r = commitFail r.2 st 1 := by rw [sealEnd, if_pos h0, hv, Bool.not_false, if_pos rfl]
      obtain ⟨hover, hparts⟩ := commitFail_over hl (h st) 1
      rw [hend]
      refine ⟨fun j hj => (hover j hj).1, fun hne => absurd h0 hne, fun _ hv' => absurd hv' (by simp), fun _ _ => ⟨(hover st hself).2, ?_⟩⟩
      have hst := hparts st
      exact ⟨(congrArg (·.1) hst).trans (Ws.eq_of_lasting Ws.image (fun _ => rfl) (h st)),
        (congrArg (·.2.1) hst).trans (Ws.eq_of_lasting Ws.copyA (fun _ => rfl) (h st)),
        (congrArg (·.2.2.1) hst).trans (Ws.eq_of_lasting Ws.copyB (fun _ => rfl) (h st))⟩
    | true =>
      have hcore := sealEnd_core hl h h0 hv
      refine ⟨fun j hj => Ws.eq_of_core Ws.commit (fun _ => rfl) (hcore j hj) rfl, fun hne => absurd h0 hne, fun _ _ hseq j hj => ?_,
        fun _ hv' => absurd hv' (by simp)⟩
      have hA : (r.2.wst j).copyA = (s.wst j).copyA := Ws.eq_of_lasting Ws.copyA (fun _ => rfl) (h j)
      have hB : (r.2.wst j).copyB = (s.wst j).copyB := Ws.eq_of_lasting Ws.copyB (fun _ => rfl) (h j)
      have hnewer : activeCopy (r.2.wst j) ≠ 0 → (copyAt (r.2.wst j) (activeCopy (r.2.wst j))).seq < c.manifest.seq.toNat := by
        rw [activeCopy_congr hA hB, copyAt_congr hA hB]
        exact hseq j hj
      obtain ⟨himage, hmanifest, hsealed⟩ := sealed_parts hnewer
      exact ⟨Ws.eq_of_core Ws.image (fun _ => rfl) (hcore j hj) himage,
        Ws.eq_of_core (fun w => (copyAt w (activeCopy w)).sealed) (fun _ => rfl) (hcore j hj) hsealed,
        Ws.eq_of_core Ws.manifest (fun _ => rfl) (hcore j hj) hmanifest,
        Ws.eq_of_core Ws.op (fun _ => rfl) (hcore j hj) rfl, Ws.eq_of_core Ws.jError (fun _ => rfl) (hcore j hj) rfl⟩
  · have hend : sealEnd st c r = commitFail r.2 st r.1 := by rw [sealEnd, if_neg h0]
    have hover := (commitFail_over hl (h st) r.1).1
    rw [hend]
    exact ⟨fun j hj => (hover j hj).1, fun _ j hj => (hover j hj).2, fun h => absurd h h0, fun h => absurd h h0⟩

section
variable {s : State} {k : Fin 8} {c : Commit} (hl : leadCommit s k = some c) (hk : c.kind ≠ 1)
include hl hk

theorem exec_commitSeal (hr : c.manifest.rows.toNat < 15625000 * (c.pos + 1)) (source : Bool) (x : Reads) :
    let y := if 15625000 * c.pos < c.manifest.rows.toNat then sourceRead s (k.val / 2) c.src source x else (true, s)
    exec (.commitSeal k source x) s = .next (
      if y.1 = true then sealEnd k c (programAll y.2 k c (15625000 * c.pos) c.manifest.rows.toNat) else commitFail y.2 k 7) := by
  have hgo : (decide (c.kind = 1) || decide (15625000 * c.pos + 15625000 ≤ c.manifest.rows.toNat)) = false := by
    rw [decide_eq_false hk, decide_eq_false (by omega)]
    rfl
  show execCommitSeal k source x s = _
  simp only [execCommitSeal, hl, hgo, Bool.false_eq_true, if_false]
  generalize 15625000 * c.pos = a
  generalize (if a < c.manifest.rows.toNat then sourceRead s (k.val / 2) c.src source x else (true, s)) = y
  rcases y with ⟨ok, t⟩
  cases ok
  · rfl
  · dsimp only
    rcases programAll t k c a c.manifest.rows.toNat with ⟨e, u⟩
    cases e <;> rfl

theorem commitSeal_outcome (hr : c.manifest.rows.toNat < 15625000 * (c.pos + 1)) (x : Reads) :
    let r0 := if 15625000 * c.pos < c.manifest.rows.toNat then sourceRead s (k.val / 2) c.src true x else (true, s)
    let r := programAll r0.2 k c (15625000 * c.pos) c.manifest.rows.toNat
    ∃ t, exec (.commitSeal k true x) s = .next t ∧ (∀ j ∈ commitStacks k c.manifest.layout, (t.wst j).commit = none) ∧
      (r0.1 = false → ∀ j ∈ commitStacks k c.manifest.layout, (t.wst j).jError = 7) ∧
      (r0.1 = true → r.1 ≠ 0 → ∀ j ∈ commitStacks k c.manifest.layout, (t.wst j).jError = BitVec.ofNat 8 r.1) ∧
      (r0.1 = true → r.1 = 0 → manifestVerifies r.2 c.manifest = true →
        (∀ j ∈ commitStacks k c.manifest.layout, activeCopy (s.wst j) ≠ 0 →
          (copyAt (s.wst j) (activeCopy (s.wst j))).seq < c.manifest.seq.toNat) →
        ∀ j ∈ commitStacks k c.manifest.layout,
          (t.wst j).image = 1 ∧ (copyAt (t.wst j) (activeCopy (t.wst j))).sealed = true ∧ (t.wst j).manifest = some c.manifest ∧
          (t.wst j).op = 0 ∧ (t.wst j).jError = 0) ∧
      (r0.1 = true → r.1 = 0 → manifestVerifies r.2 c.manifest = false →
        (t.wst k).jError = 1 ∧ (t.wst k).image = (s.wst k).image ∧ (t.wst k).copyA = (s.wst k).copyA ∧ (t.wst k).copyB = (s.wst k).copyB) := by
  have hexec := exec_commitSeal hl hk hr true x
  intro r0 r
  have hread : Programmed s r0.2 := by
    show Programmed s (if _ then _ else _ : Bool × State).2
    split
    · exact (sourceRead_queues s (k.val / 2) c.src true x).programmed
    · exact fun _ => rfl
  have hprog : Programmed s r.2 := hread.trans (programAll_programmed _ _ _ _ _)
  cases hsource : r0.1 with
  | false =>
    obtain ⟨hover, -⟩ := commitFail_over hl (hread k) 7
    exact ⟨_, hexec.trans (congrArg _ (if_neg (Bool.eq_false_iff.1 hsource))),
      fun j hj => (hover j hj).1, fun _ j hj => (hover j hj).2, fun h => absurd h Bool.false_ne_true,
      fun h => absurd h Bool.false_ne_true, fun h => absurd h Bool.false_ne_true⟩
  | true =>
    obtain ⟨hover, herror, hsealed, hbad⟩ := sealEnd_outcome hl hprog
    exact ⟨_, hexec.trans (congrArg _ (if_pos hsource)), hover,
      fun h => absurd h.symm Bool.false_ne_true, fun _ => herror, fun _ => hsealed, fun _ => hbad⟩

end

/-! DELTA_SWITCH (R208). -/

/-- The image of the inactive copy, closed, is in force in a stack, and the blocks left wait for their reads. -/
def switched (w : Ws) : Ws :=
  let new := copyAt w (inactiveCopy w)
  let gone := (w.table.filter fun e => !(new.table.contains e)).map Prod.snd
  { setCopy w (inactiveCopy w) { new with check := true } with
    table := new.table, manifest := new.manifest, releasing := w.releasing ++ gone }

theorem switched_commit (w : Ws) : (switched w).commit = w.commit := setCopy_commit _ _ _

theorem copyAt_switched (w : Ws) : copyAt (switched w) (inactiveCopy w) = { copyAt w (inactiveCopy w) with check := true } :=
  copyAt_setCopy_same _ _ _

/-- The block of an entry that the new table has not waits for its reads. -/
theorem mem_releasing_switched {w : Ws} {e : Nat × Nat} (he : e ∈ w.table) (hn : e ∉ (copyAt w (inactiveCopy w)).table) :
    e.2 ∈ (switched w).releasing :=
  List.mem_append_right _ (List.mem_map_of_mem (List.mem_filter.2 ⟨he, by simpa using hn⟩))

/-- In every stack of the commit the new image is in force. -/
def switchStacks (st : Nat) (l : BitVec 8) (s : State) : State := forEach (commitStacks st l) s fun s j => s.modWs j switched

theorem wst_switchStacks {st : Nat} {l : BitVec 8} {j : Nat} (hj : j ∈ commitStacks st l) (s : State) :
    (switchStacks st l s).wst j = switched (s.wst j) := by
  rw [switchStacks, wst_forEach_modWs st l fun _ => switched, onStacks, if_pos hj]

/-- At the step boundary a stack of a delta has its new image in force, and the commit is over. -/
theorem switchStacks_done {s : State} {st : Nat} {c : Commit} (hl : leadCommit s st = some c) {j : Nat}
    (hj : j ∈ commitStacks st c.manifest.layout) :
    ((commitDone (switchStacks st c.manifest.layout s) st).wst j).core = (commitOver c.kind (switched (s.wst j))).core := by
  obtain ⟨hc, hq⟩ := leadCommit_eq_some.1 hl
  have hlead : leadCommit (switchStacks st c.manifest.layout s) st = some c := by
    refine leadCommit_eq_some.2 ⟨?_, hq⟩
    rw [wst_switchStacks (mem_commitStacks_self _ _), switched_commit, hc]
  rw [commitDone_core hlead, onStacks, if_pos hj, wst_switchStacks hj]

section
variable {s : State} {k : Fin 8} {c : Commit} (hl : leadCommit s k = some c) (hk : c.kind = 1) (hw : (s.wst k).switchWait = true)
include hl hk hw

theorem exec_deltaSwitch :
    exec (.deltaSwitch k) s = .next (if atBoundary s (k.val / 2) = true then
      commitDone (switchStacks k c.manifest.layout s) k else s) := by
  show execDeltaSwitch k s = _
  simp only [execDeltaSwitch, hl]
  rw [hk, hw]
  cases atBoundary s (k.val / 2) <;> rfl

theorem deltaSwitch_outcome :
    (atBoundary s (k.val / 2) = false → exec (.deltaSwitch k) s = .next s) ∧
    (atBoundary s (k.val / 2) = true →
      ∃ t, exec (.deltaSwitch k) s = .next t ∧
        ∀ j ∈ commitStacks k c.manifest.layout,
          let new := copyAt (s.wst j) (inactiveCopy (s.wst j))
          (t.wst j).table = new.table ∧ (t.wst j).manifest = new.manifest ∧
          copyAt (t.wst j) (inactiveCopy (s.wst j)) = { new with check := true } ∧
          (t.wst j).commit = none ∧ (t.wst j).switchWait = false ∧
          (∀ e ∈ (s.wst j).table, e ∉ new.table → e.2 ∈ (t.wst j).releasing)) := by
  have hexec := exec_deltaSwitch hl hk hw
  refine ⟨fun hb => ?_, fun hb => ?_⟩
  · rw [hexec, hb, if_neg Bool.false_ne_true]
  · rw [if_pos hb] at hexec
    refine ⟨_, hexec, fun j hj => ?_⟩
    have hcore := switchStacks_done hl hj
    intro new
    exact ⟨Ws.eq_of_core Ws.table (fun _ => rfl) hcore rfl, Ws.eq_of_core Ws.manifest (fun _ => rfl) hcore rfl,
      Ws.eq_of_core (fun w => copyAt w (inactiveCopy (s.wst j))) (fun _ => rfl) hcore (copyAt_switched (s.wst j)),
      Ws.eq_of_core Ws.commit (fun _ => rfl) hcore rfl, Ws.eq_of_core Ws.switchWait (fun _ => rfl) hcore rfl,
      fun e he hn => (Ws.eq_of_core Ws.releasing (fun _ => rfl) hcore rfl : _ = (switched (s.wst j)).releasing) ▸ mem_releasing_switched he hn⟩

end

/-- Settles O49: programming keeps what the conclusions compare, and the end of a commit is read through the stacks' cores. -/
theorem commitsProgressSealAndSwitch : Obligations.CommitsProgressSealAndSwitch :=
  ⟨fun _ _ _ x hl hk hr => ⟨journalRecord_silent hl hk hr x, journalRecord_answered hl hk hr x⟩,
    fun _ _ _ x hl hk hr => commitSeal_outcome hl hk hr x,
    fun _ _ _ hl hk hw => deltaSwitch_outcome hl hk hw⟩

end Sys2Proof.Machine
end

section
/-! SUPPORT. Table operations of the fabric: the command that starts one and what its completion does (R10, R233, R238, R435, R442), and O9. -/

namespace Sys2Proof.Machine

/-! FAB_TBL_CMD. -/

/-- A write that no other of its tick meets is applied, noted, and kept for a ring write that may go before it. -/
theorem winWrite_plain {s : State} {off : Nat} (p : WinPort) (v : Word) (hw : Writable s off) (ha : off % 4 = 0) (hwp : wpWord off = none)
    (hi : ignoredWrite s p off v = false) : winWrite s p off v = keepUndo s p off (noteWrite (applyWrite s p .good off v) p off v) := by
  obtain ⟨hready, hun⟩ := hw
  have hopen : ¬ ((4 : Nat) ≠ 4 ∨ off % 4 ≠ 0 ∨ (!writeOpen s off) = true) := by simp [ha, writeOpen_of_ready hready]
  rw [winWrite, winWriteEnv, if_neg hopen, hwp, fabricFirst_of_untouched hun]
  dsimp only
  rw [hi, if_neg Bool.false_ne_true, plainWrite, writtenValue_of_untouched hun]

/-- The operation that the registers select (R442). -/
def tblSelected (f : Fab) (b : BitVec 3) : TblOp := ⟨f.selRouter.toNat, f.selTable.toNat, f.selVersion.toNat, f.key.toNat, f.data, b⟩

theorem tblCmd_starts {s : State} {v : Word} (h : s.fab.op = none) (hv : fld v 0 3 ≠ 0) :
    tblCmd s v = { s with fab := { s.fab with op := some (tblSelected s.fab (v.extractLsb' 0 3)) } } := by
  rw [tblCmd, if_neg (by simp [h, hv])]
  rfl

theorem tblCmd_busy {s : State} (v : Word) (h : s.fab.op.isSome = true) : tblCmd s v = s := by
  rw [tblCmd, if_pos (by simp [h])]

theorem applyWrite_tblCmd (s : State) (p : WinPort) (e : BootEnv) (v : Word) : applyWrite s p e 0x60020 v = tblCmd s v := rfl

theorem winWrite_tblCmd {s : State} (p : WinPort) {v : Word} (hw : Writable s 0x60020) (h : s.fab.op = none) (hv : fld v 0 3 ≠ 0) :
    winWrite s p 0x60020 v = keepUndo s p 0x60020
      (noteWrite { s with fab := { s.fab with op := some (tblSelected s.fab (v.extractLsb' 0 3)) } } p 0x60020 v) := by
  rw [← tblCmd_starts h hv]
  exact winWrite_plain p v hw rfl rfl rfl

/-- A ring write that goes back to before the fabric's has its own operation started, and the fabric's then finds it in progress (R435). -/
theorem writeBefore_tblCmd {t : State} {u : Undo} (hu : t.undo = some u) (ho : u.off = 0x60020) (hb : t.toBody = u.after)
    (hr : t.raisedAt 0x60020 = 0) (h : u.before.fab.op = none) {v : Word} (f : Word) (hv : fld v 0 3 ≠ 0) :
    (writeBefore t .good 0x60020 v f).fab.op = some (tblSelected u.before.fab (v.extractLsb' 0 3)) := by
  have hv' : writtenValue t 0x60020 v = v := by
    rw [writtenValue, hr]
    exact BitVec.and_allOnes
  rw [writeBefore_goesBack .good v f hu (by decide) ho hb, hv']
  extract_lets b x r
  have hx : x.fab.op = some (tblSelected u.before.fab (v.extractLsb' 0 3)) := by
    simp only [x, applyWrite_tblCmd]
    rw [tblCmd_starts (show b.fab.op = none from h) hv]
  show r.fab.op = _
  simp only [r, applyWrite_tblCmd]
  rw [tblCmd_busy _ (by rw [hx]; rfl), ite_self, hx]

/-- A ring write of FAB_TBL_CMD that comes right behind the fabric's in a tick is the one whose operation runs (R435). -/
theorem tblCmd_ringFirst {s : State} (hw : Writable s 0x60020) (h : s.fab.op = none) {v f : Word} (hv : fld v 0 3 ≠ 0) (hf : fld f 0 3 ≠ 0) :
    (winWrite (winWrite s .fabric 0x60020 f) .ring 0x60020 v).fab.op = some (tblSelected s.fab (v.extractLsb' 0 3)) := by
  generalize ht : winWrite s .fabric 0x60020 f = t
  rw [winWrite_tblCmd .fabric hw h hf, keepUndo, if_pos ⟨rfl, by decide⟩] at ht
  have hfirst : fabricFirst t .ring 0x60020 = some f := by
    rw [← ht]
    exact sget_sset_same none s.wrote (2 * 0x60020 + 1) (some f)
  have hopen : writeOpen t 0x60020 = true := by
    rw [← ht]
    exact writeOpen_of_ready hw.1 _
  have hundo : t.undo = some ⟨0x60020, s.toBody, t.toBody⟩ := by
    rw [← ht]
  have hraised : t.raisedAt 0x60020 = 0 := by
    rw [← ht]
    exact hw.2.1
  rw [winWrite, winWriteEnv, if_neg (by rw [hopen]; decide), show wpWord 0x60020 = none from rfl, hfirst]
  exact writeBefore_tblCmd hundo rfl rfl hraised h f hv

/-! The completion (R442). -/

/-- The fabric once the operation has taken effect: a write of DATA of the same tick stands against what a READ loads (R10). -/
def tblCompleted (s : State) (o : TblOp) : Fab :=
  let f := tblDo s.fab o
  { f with data := (if s.wroteTo 0x6001C then s.fab.data else f.data).extractLsb' 32 32 ++ (if s.wroteTo 0x60018 then s.fab.data else f.data).extractLsb' 0 32 }

theorem exec_tblCmdComplete {s : State} {o : TblOp} (h : s.fab.op = some o) :
    exec .tblCmdComplete s = .next { s with fab := tblCompleted s o } := by
  show execTblCmdComplete s = _
  rw [execTblCmdComplete, h]
  rfl

theorem append_halves (x : BitVec 64) : x.extractLsb' 32 32 ++ x.extractLsb' 0 32 = x := by
  ext i hi
  simp only [BitVec.getElem_append, BitVec.getElem_extractLsb', Nat.zero_add]
  split
  · exact BitVec.getLsbD_eq_getElem hi
  · next h => rw [Nat.add_sub_cancel' (Nat.le_of_not_lt h), BitVec.getLsbD_eq_getElem hi]

theorem tblCompleted_eq {s : State} {o : TblOp} {f : Fab} (h : tblDo s.fab o = f)
    (hd : f.data = s.fab.data ∨ (s.wroteTo 0x60018 = false ∧ s.wroteTo 0x6001C = false)) : tblCompleted s o = f := by
  rw [tblCompleted, h]
  rcases hd with hd | ⟨hlo, hhi⟩
  · simp only [← hd, ite_self, append_halves]
  · simp only [hlo, hhi, Bool.false_eq_true, if_false, append_halves]

/-- What the operation leaves but for the tables and the data: it is over, with a status (Table 7-20). -/
def tblEnded (f : Fab) (x : BitVec 2) : Fab := { f with op := none, status := x }

/-- A router, table, key or set of operation bits that does not exist, and a live version, are refused. -/
theorem tblDo_refused {f : Fab} {o : TblOp} (h : bit f.shadow o.version = false ∨ 51 < o.router ∨ o.table = 3 ∨ (o.table = 2 ∧ 47 < o.router) ∨
    (o.table ≠ 0 ∧ 4095 < o.key) ∨ o.bits ∉ ([1, 2, 4] : List (BitVec 3))) : tblDo f o = tblEnded f 3 := by
  unfold tblDo
  dsimp only
  split
  · rfl
  · rw [if_pos]
    · rfl
    · grind

/-- Which of WRITE and READ a legal set of operation bits holds. -/
theorem tblBits : (bit (1#3) 0 = true ∧ bit (2#3) 0 = false ∧ bit (4#3) 0 = false) ∧ bit (2#3) 1 = true ∧ bit (4#3) 1 = false := by decide

/-- The numbers of STATUS (Table 7-20). -/
theorem tblStatuses : tblOk = 0#2 ∧ tblNotFound = 1#2 ∧ tblSetFull = 2#2 ∧ tblRefused = 3#2 := ⟨rfl, rfl, rfl, rfl⟩

section
variable {f : Fab} {r k : Nat} {v : Bool} (d : BitVec 64) (hs : bit f.shadow (b2n v) = true)
include hs

/-! Endpoint entries. -/

section
variable (hr : r < 52)
include hr

theorem tblDo_endpoint_write : tblDo f ⟨r, 0, b2n v, k, d, 1⟩ =
    (let i := (2 * r + b2n v) * 2 ^ 24 + k
     if eValid d = false ∨ epRefused r d = true ∨ k = 2 ^ 24 - 1 then tblEnded f 3
     else if eValid (sget 0 f.ep i) = false ∧
         4 ≤ (f.ep.filter fun x => x.1 / 2 ^ 24 == 2 * r + b2n v && epSet r (x.1 % 2 ^ 24) == epSet r k).length then tblEnded f 2
     else { tblEnded f 0 with ep := sset 0 f.ep i d }) := by
  simp [tblDo, tblEnded, hs, tblBits, tblStatuses, Nat.not_lt.2 (Nat.le_of_lt_succ hr), or_assoc]

theorem tblDo_endpoint_read : tblDo f ⟨r, 0, b2n v, k, d, 2⟩ =
    (let e := sget 0 f.ep ((2 * r + b2n v) * 2 ^ 24 + k)
     if eValid e = false then tblEnded f 1 else { tblEnded f 0 with data := e }) := by
  simp [tblDo, tblEnded, hs, tblBits, tblStatuses, Nat.not_lt.2 (Nat.le_of_lt_succ hr)]

theorem tblDo_endpoint_delete : tblDo f ⟨r, 0, b2n v, k, d, 4⟩ =
    (let i := (2 * r + b2n v) * 2 ^ 24 + k
     if eValid (sget 0 f.ep i) = false then tblEnded f 1 else { tblEnded f 0 with ep := sset 0 f.ep i 0 }) := by
  simp [tblDo, tblEnded, hs, tblBits, tblStatuses, Nat.not_lt.2 (Nat.le_of_lt_succ hr)]

/-! Rope entries. -/

variable (hk : k < 4096)
include hk

theorem tblDo_rope_write : tblDo f ⟨r, 1, b2n v, k, d, 1⟩ =
    if eValid d = false ∨ ropeRefused r d = true then tblEnded f 3
    else { tblEnded f 0 with rope := sset 0 f.rope ((2 * r + b2n v) * 4096 + k) d } := by
  simp [tblDo, tblEnded, hs, tblBits, tblStatuses, Nat.not_lt.2 (Nat.le_of_lt_succ hr), Nat.not_lt.2 (Nat.le_of_lt_succ hk)]

theorem tblDo_rope_read : tblDo f ⟨r, 1, b2n v, k, d, 2⟩ =
    (let e := sget 0 f.rope ((2 * r + b2n v) * 4096 + k)
     if eValid e = false then tblEnded f 1 else { tblEnded f 0 with data := e }) := by
  simp [tblDo, tblEnded, hs, tblBits, tblStatuses, Nat.not_lt.2 (Nat.le_of_lt_succ hr), Nat.not_lt.2 (Nat.le_of_lt_succ hk)]

theorem tblDo_rope_delete : tblDo f ⟨r, 1, b2n v, k, d, 4⟩ =
    (let i := (2 * r + b2n v) * 4096 + k
     if eValid (sget 0 f.rope i) = false then tblEnded f 1 else { tblEnded f 0 with rope := sset 0 f.rope i 0 }) := by
  simp [tblDo, tblEnded, hs, tblBits, tblStatuses, Nat.not_lt.2 (Nat.le_of_lt_succ hr), Nat.not_lt.2 (Nat.le_of_lt_succ hk)]

end

/-! Rope lists, which zone routers alone have. -/

variable (hr : r < 48) (hk : k < 4096)
include hr hk

theorem tblDo_list_write : tblDo f ⟨r, 2, b2n v, k, d, 1⟩ =
    if fld d 8 56 ≠ 0 ∨ 11 < fld d 0 4 then tblEnded f 3
    else { tblEnded f 0 with list := sset 0 f.list ((2 * r + b2n v) * 4096 + k) (d.extractLsb' 0 8) } := by
  have hhub : ¬ 51 < r := by omega
  simp [tblDo, tblEnded, hs, tblBits, tblStatuses, Nat.not_lt.2 (Nat.le_of_lt_succ hr), hhub, Nat.not_lt.2 (Nat.le_of_lt_succ hk)]

theorem tblDo_list_read : tblDo f ⟨r, 2, b2n v, k, d, 2⟩ =
    { tblEnded f 0 with data := (sget 0 f.list ((2 * r + b2n v) * 4096 + k)).zeroExtend 64 } := by
  have hhub : ¬ 51 < r := by omega
  simp [tblDo, tblEnded, hs, tblBits, tblStatuses, Nat.not_lt.2 (Nat.le_of_lt_succ hr), hhub, Nat.not_lt.2 (Nat.le_of_lt_succ hk)]

theorem tblDo_list_delete : tblDo f ⟨r, 2, b2n v, k, d, 4⟩ =
    { tblEnded f 0 with list := sset 0 f.list ((2 * r + b2n v) * 4096 + k) 0 } := by
  have hhub : ¬ 51 < r := by omega
  simp [tblDo, tblEnded, hs, tblBits, tblStatuses, Nat.not_lt.2 (Nat.le_of_lt_succ hr), hhub, Nat.not_lt.2 (Nat.le_of_lt_succ hk)]

end

/-! What the tables hold then (R233). -/

/-- Routers, versions and numbers of a table lie at places of their own. -/
theorem tablePlace_injective {n r k r' k' : Nat} {v v' : Bool} (hk : k < n) (hk' : k' < n)
    (h : (2 * r' + b2n v') * n + k' = (2 * r + b2n v) * n + k) : (r', v', k') = (r, v, k) := by
  have hn : 0 < n := Nat.zero_lt_of_lt hk
  have hplace : ∀ a {j}, j < n → (a * n + j) / n = a := fun a j hj => by
    rw [Nat.mul_comm, Nat.mul_add_div hn, Nat.div_eq_of_lt hj, Nat.add_zero]
  have hrv : 2 * r' + b2n v' = 2 * r + b2n v := by rw [← hplace (2 * r' + b2n v') hk', h, hplace _ hk]
  rw [hrv] at h
  have hv : v' = v := by
    cases v <;> cases v' <;> simp_all [b2n] <;> omega
  subst hv
  simp only [Prod.mk.injEq, true_and]
  omega

theorem sget_sset_place {α : Type} [DecidableEq α] (m : Sparse α) (d x : α) {n r k r' k' : Nat} {v v' : Bool} (hk : k < n) (hk' : k' < n)
    (h : (r', v', k') ≠ (r, v, k)) :
    sget d (sset d m ((2 * r + b2n v) * n + k) x) ((2 * r' + b2n v') * n + k') = sget d m ((2 * r' + b2n v') * n + k') :=
  sget_sset_other _ _ _ _ _ fun he => h (tablePlace_injective hk hk' he)

theorem eValid_zero : eValid 0 = false := by decide

/-- A set that four valid entries belong to is full (R233). -/
theorem setHeld_four {s : State} {r k : Nat} {v : Bool} {ks : List Nat} (h4 : ks.length = 4) (hd : ks.Nodup)
    (hk : ∀ x ∈ ks, x < 2 ^ 24 ∧ epSet r x = epSet r k ∧ eValid (epEntry s r v x) = true) : 4 ≤ setHeld s r v k := by
  have hlisted : ks.map ((2 * r + b2n v) * 2 ^ 24 + ·) ⊆
      (s.fab.ep.filter fun x => x.1 / 2 ^ 24 == 2 * r + b2n v && epSet r (x.1 % 2 ^ 24) == epSet r k).map Prod.fst := by
    intro i hi
    obtain ⟨x, hx, rfl⟩ := List.mem_map.1 hi
    obtain ⟨hlt, hset, hvalid⟩ := hk x hx
    have hmem : ((2 * r + b2n v) * 2 ^ 24 + x, epEntry s r v x) ∈ s.fab.ep := by
      refine (sget_eq_default_or_listed 0 _ s.fab.ep).resolve_left fun h0 => ?_
      rw [epEntry, h0, eValid_zero] at hvalid
      cases hvalid
    refine List.mem_map.2 ⟨_, List.mem_filter.2 ⟨hmem, ?_⟩, rfl⟩
    have hdiv : ((2 * r + b2n v) * 2 ^ 24 + x) / 2 ^ 24 = 2 * r + b2n v := by omega
    have hmod : ((2 * r + b2n v) * 2 ^ 24 + x) % 2 ^ 24 = x := by omega
    rw [hdiv, hmod, hset]
    simp
  have hnodup : (ks.map ((2 * r + b2n v) * 2 ^ 24 + ·)).Nodup := hd.map (add_right_injective _)
  have hle := (hnodup.subperm hlisted).length_le
  rwa [List.length_map, List.length_map, h4] at hle

/-! The clauses. -/

theorem tblDo_op (f : Fab) (o : TblOp) : (tblDo f o).op = none := by
  unfold tblDo
  dsimp only
  repeat' split
  all_goals rfl

theorem tblCmdComplete_refuses (s : State) (o : TblOp) (h : s.fab.op = some o) :
    ∃ f, exec .tblCmdComplete s = .next { s with fab := f } ∧ f.op = none ∧
      (bit s.fab.shadow o.version = false → f = { s.fab with op := none, status := 3 }) ∧
      (51 < o.router ∨ o.table = 3 ∨ (o.table = 2 ∧ 47 < o.router) ∨ (o.table ≠ 0 ∧ 4095 < o.key) ∨ o.bits ∉ [1, 2, 4] →
        f = { s.fab with op := none, status := 3 }) :=
  ⟨_, exec_tblCmdComplete h, tblDo_op s.fab o, fun hv => tblCompleted_eq (tblDo_refused (.inl hv)) (.inl rfl),
    fun hx => tblCompleted_eq (tblDo_refused (.inr hx)) (.inl rfl)⟩

section
variable {s : State} {o : TblOp} {r k : Nat} {v : Bool}

/-- A READ that finds its entry loads it into the data alone. -/
theorem tblCompleted_loaded {x : BitVec 64} (h : tblDo s.fab o = { tblEnded s.fab 0 with data := x })
    (hlo : s.wroteTo 0x60018 = false) (hhi : s.wroteTo 0x6001C = false) :
    let t := { s with fab := tblCompleted s o }
    t.fab = { s.fab with op := none, status := 0, data := t.fab.data } ∧ t.fab.data = x := by
  rw [tblCompleted_eq h (.inr ⟨hlo, hhi⟩)]
  exact ⟨rfl, rfl⟩

/-- An operation that stores an endpoint entry changes it alone. -/
theorem tblCompleted_endpoint {x : BitVec 64} (h : tblDo s.fab o = { tblEnded s.fab 0 with ep := sset 0 s.fab.ep ((2 * r + b2n v) * 2 ^ 24 + k) x })
    (hk : k < 2 ^ 24) :
    let t := { s with fab := tblCompleted s o }
    t.fab = { s.fab with op := none, status := 0, ep := t.fab.ep } ∧ epEntry t r v k = x ∧
      ∀ r' v' k', k' < 2 ^ 24 → (r', v', k') ≠ (r, v, k) → epEntry t r' v' k' = epEntry s r' v' k' := by
  rw [tblCompleted_eq h (.inl rfl)]
  exact ⟨rfl, sget_sset_same _ _ _ _, fun _ _ _ hk' => sget_sset_place _ _ _ hk hk'⟩

/-- One that stores a rope entry changes it alone. -/
theorem tblCompleted_rope {x : BitVec 64} (h : tblDo s.fab o = { tblEnded s.fab 0 with rope := sset 0 s.fab.rope ((2 * r + b2n v) * 4096 + k) x })
    (hk : k < 4096) :
    let t := { s with fab := tblCompleted s o }
    t.fab = { s.fab with op := none, status := 0, rope := t.fab.rope } ∧ ropeEntry t r v k = x ∧
      ∀ r' v' k', k' < 4096 → (r', v', k') ≠ (r, v, k) → ropeEntry t r' v' k' = ropeEntry s r' v' k' := by
  rw [tblCompleted_eq h (.inl rfl)]
  exact ⟨rfl, sget_sset_same _ _ _ _, fun _ _ _ hk' => sget_sset_place _ _ _ hk hk'⟩

/-- One that stores a rope-list entry changes it alone. -/
theorem tblCompleted_list {x : BitVec 8} (h : tblDo s.fab o = { tblEnded s.fab 0 with list := sset 0 s.fab.list ((2 * r + b2n v) * 4096 + k) x })
    (hk : k < 4096) :
    let t := { s with fab := tblCompleted s o }
    t.fab = { s.fab with op := none, status := 0, list := t.fab.list } ∧ listEntry t r v k = x ∧
      ∀ r' v' k', k' < 4096 → (r', v', k') ≠ (r, v, k) → listEntry t r' v' k' = listEntry s r' v' k' := by
  rw [tblCompleted_eq h (.inl rfl)]
  exact ⟨rfl, sget_sset_same _ _ _ _, fun _ _ _ hk' => sget_sset_place _ _ _ hk hk'⟩

end

/-- Settles O9: the write that starts an operation, and for each table what its three operations do there. -/
theorem tableCommandsComplete : Obligations.TableCommandsComplete := by
  refine ⟨fun s p hw ho => ?_, fun s hw ho => ?_, tblCmdComplete_refuses, fun s r k v d b ho hr hk hs => ?_,
    fun s r k v d b ho hr hk hs => ?_, fun s r k v d b ho hr hk hs => ?_⟩
  · exact ⟨congrArg _ (winWrite_tblCmd p hw ho (v := 1) (by decide)), congrArg _ (winWrite_tblCmd p hw ho (v := 2) (by decide)),
      congrArg _ (winWrite_tblCmd p hw ho (v := 4) (by decide))⟩
  · exact ⟨_, _, rfl, rfl, tblCmd_ringFirst hw ho (v := 1) (f := 2) (by decide) (by decide)⟩
  · refine ⟨_, exec_tblCmdComplete ho, ?_, ?_, ?_, ?_, ?_, ?_⟩
    · rintro rfl hv hlo hhi
      exact tblCompleted_eq ((tblDo_endpoint_read d hs hr).trans (if_neg (Bool.ne_false_iff.2 hv))) (.inr ⟨hlo, hhi⟩)
    · rintro rfl hv
      exact tblCompleted_eq ((tblDo_endpoint_read d hs hr).trans (if_pos hv)) (.inl rfl)
    · rintro rfl hv
      exact tblCompleted_eq ((tblDo_endpoint_delete d hs hr).trans (if_pos hv)) (.inl rfl)
    · rintro rfl hv
      exact tblCompleted_endpoint ((tblDo_endpoint_delete d hs hr).trans (if_neg (Bool.ne_false_iff.2 hv))) hk
    · rintro rfl hx
      exact tblCompleted_eq ((tblDo_endpoint_write d hs hr).trans (if_pos hx)) (.inl rfl)
    · rintro rfl hd hl hself
      have hdo := (tblDo_endpoint_write (k := k) d hs hr).trans (if_neg (by simpa [hd, hl] using hself))
      refine ⟨fun hroom => ?_, fun ks hv h4 hnd hks => ?_⟩
      · refine tblCompleted_endpoint (hdo.trans (if_neg ?_)) hk
        rintro ⟨hv, hfull⟩
        exact hroom.elim (Bool.eq_false_iff.1 hv) (Nat.not_lt.2 hfull)
      · exact tblCompleted_eq (hdo.trans (if_pos ⟨hv, setHeld_four h4 hnd hks⟩)) (.inl rfl)
  · refine ⟨_, exec_tblCmdComplete ho, ?_, ?_, ?_, ?_, ?_⟩
    · rintro rfl hv hlo hhi
      exact tblCompleted_eq ((tblDo_rope_read d hs hr hk).trans (if_neg (Bool.ne_false_iff.2 hv))) (.inr ⟨hlo, hhi⟩)
    · rintro (rfl | rfl) hv
      · exact tblCompleted_eq ((tblDo_rope_read d hs hr hk).trans (if_pos hv)) (.inl rfl)
      · exact tblCompleted_eq ((tblDo_rope_delete d hs hr hk).trans (if_pos hv)) (.inl rfl)
    · rintro rfl hv
      exact tblCompleted_rope ((tblDo_rope_delete d hs hr hk).trans (if_neg (Bool.ne_false_iff.2 hv))) hk
    · rintro rfl hx
      exact tblCompleted_eq ((tblDo_rope_write d hs hr hk).trans (if_pos hx)) (.inl rfl)
    · rintro rfl hd hl
      exact tblCompleted_rope ((tblDo_rope_write d hs hr hk).trans (if_neg (by simp [hd, hl]))) hk
  · refine ⟨_, exec_tblCmdComplete ho, ?_, ?_, ?_, ?_⟩
    · rintro rfl hlo hhi
      obtain ⟨hf, he⟩ := tblCompleted_loaded (tblDo_list_read d hs hr hk) hlo hhi
      exact ⟨hf, (congrArg BitVec.toNat he).trans (BitVec.toNat_setWidth_of_le (by decide))⟩
    · rintro rfl
      obtain ⟨hf, he, -⟩ := tblCompleted_list (tblDo_list_delete d hs hr hk) hk
      exact ⟨hf, he⟩
    · rintro rfl hx
      exact tblCompleted_eq ((tblDo_list_write d hs hr hk).trans (if_pos hx)) (.inl rfl)
    · rintro rfl h0 hle
      obtain ⟨hf, he, hrest⟩ := tblCompleted_list ((tblDo_list_write d hs hr hk).trans (if_neg (by simp [h0, hle]))) hk
      exact ⟨hf, (congrArg BitVec.toNat he).trans (by simp), hrest⟩

end Sys2Proof.Machine
end

section
/-! SUPPORT. Header fields and packets: what a hop, a delivery and a discard change (R221, R223, R227, R235, R236, R240, R249). -/

namespace Sys2Proof.Machine

/-! Header fields (Table 7-3). -/

/-- Replacing a field changes its bits alone. -/
theorem getLsbD_setFld {w : Nat} (v : BitVec w) {lo len : Nat} (x i : Nat) :
    (setFld v lo len x).getLsbD i = if lo ≤ i ∧ i < lo + len then decide (i < w) && x.testBit (i - lo) else v.getLsbD i := by
  simp only [setFld, BitVec.getLsbD_or, BitVec.getLsbD_and, BitVec.getLsbD_not, BitVec.getLsbD_ofNat, Nat.testBit_mul_two_pow,
    Nat.testBit_two_pow_sub_one, Nat.testBit_mod_two_pow]
  by_cases h : lo ≤ i ∧ i < lo + len
  · have hin : i - lo < len := by omega
    simp [h, hin]
  · rw [if_neg h]
    by_cases hi : i < w
    · by_cases hlo : lo ≤ i
      · have hlen : ¬ i - lo < len := by omega
        simp [hi, hlo, hlen]
      · simp [hi, hlo]
    · simp [hi, BitVec.getLsbD_of_ge v i (Nat.le_of_not_lt hi)]

theorem extractLsb'_setFld_other {w : Nat} (v : BitVec w) {lo len lo' len' : Nat} (x : Nat) (h : lo' + len' ≤ lo ∨ lo + len ≤ lo') :
    (setFld v lo len x).extractLsb' lo' len' = v.extractLsb' lo' len' := by
  refine BitVec.eq_of_getLsbD_eq fun i hi => ?_
  rw [BitVec.getLsbD_extractLsb', BitVec.getLsbD_extractLsb', getLsbD_setFld, if_neg (by omega)]

theorem fld_setFld_other {w : Nat} (v : BitVec w) {lo len lo' len' : Nat} (x : Nat) (h : lo' + len' ≤ lo ∨ lo + len ≤ lo') :
    fld (setFld v lo len x) lo' len' = fld v lo' len' := congrArg BitVec.toNat (extractLsb'_setFld_other v x h)

theorem bit_setFld_other {w : Nat} (v : BitVec w) {lo len i : Nat} (x : Nat) (h : i < lo ∨ lo + len ≤ i) : bit (setFld v lo len x) i = bit v i := by
  rw [bit, getLsbD_setFld, if_neg (by omega), bit]

theorem fld_setFld_same {w : Nat} (v : BitVec w) {lo len : Nat} (x : Nat) (h : lo + len ≤ w) : fld (setFld v lo len x) lo len = x % 2 ^ len := by
  have hx : (setFld v lo len x).extractLsb' lo len = BitVec.ofNat len x := by
    refine BitVec.eq_of_getLsbD_eq fun i hi => ?_
    rw [BitVec.getLsbD_extractLsb', getLsbD_setFld, if_pos (by omega), BitVec.getLsbD_ofNat]
    simp [hi]
    omega
  rw [fld, hx, BitVec.toNat_ofNat]

section
variable (h : Row) {lo len : Nat} (x : Nat) (hl : 128 ≤ lo ∧ lo + len ≤ 144)
include hl

/-! A router writes HOPS and ROUTE alone, bits 128 to 143. -/

theorem hDest_setFld : hDest (setFld h lo len x) = hDest h := fld_setFld_other h x (by omega)
theorem hKind_setFld : hKind (setFld h lo len x) = hKind h := fld_setFld_other h x (by omega)
theorem hPiton_setFld : hPiton (setFld h lo len x) = hPiton h := fld_setFld_other h x (by omega)
theorem hArg_setFld : hArg (setFld h lo len x) = hArg h := fld_setFld_other h x (by omega)
theorem hInline_setFld : hInline (setFld h lo len x) = hInline h := extractLsb'_setFld_other h x (by omega)
theorem hCairn_setFld : hCairn (setFld h lo len x) = hCairn h := bit_setFld_other h x (by omega)

end

/-- The header that a router takes up, with HOPS one more (R234). -/
def hopHdr (h : Row) : Row := setFld h 128 8 (hHops h + 1)

theorem hHops_hopHdr {h : Row} (hh : hHops h < 63) : hHops (hopHdr h) = hHops h + 1 := by
  rw [hopHdr, hHops, fld_setFld_same _ _ (by decide), Nat.mod_eq_of_lt (by omega)]

theorem hSet_hopHdr (h : Row) : hSet (hopHdr h) = hSet h := bit_setFld_other h _ (by decide)

/-- The header that a hub sends on, with ROUTE clear too (R234). -/
def hubHdr (h : Row) : Row := setFld (hopHdr h) 136 8 0

theorem hHops_hubHdr {h : Row} (hh : hHops h < 63) : hHops (hubHdr h) = hHops h + 1 :=
  (fld_setFld_other (hopHdr h) 0 (by decide)).trans (hHops_hopHdr hh)

/-! Packets leave their place (R240, R249). -/

theorem findPacket_id {s : State} {pid : Nat} {p : Packet} (h : findPacket s pid = some p) : p.id = pid := by
  simpa using List.find?_some h

theorem freeBuffer_changes (s : State) (p : Packet) : ∃ l, freeBuffer s p = { s with links := l } := by
  unfold freeBuffer
  split
  · split
    · exact ⟨_, rfl⟩
    · exact ⟨s.links, rfl⟩
  · exact ⟨s.links, rfl⟩

/-- Without the packet numbered pid. -/
def Fab.without (f : Fab) (pid : Nat) : Fab := { f with pkts := f.pkts.filter fun q => q.id != pid }

theorem dropPacket_changes (s : State) (p : Packet) : ∃ l, dropPacket s p = { s with links := l, fab := s.fab.without p.id } := by
  obtain ⟨l, h⟩ := freeBuffer_changes s p
  exact ⟨l, by rw [dropPacket, h]; rfl⟩

/-- The packet as it stands at its new place. -/
def Packet.movedTo (p : Packet) (loc : Loc) (tick : Nat) : Packet := { p with loc := loc, inVc := pVc p, since := tick }

theorem movePacket_changes (s : State) (p : Packet) (loc : Loc) : ∃ l, movePacket s p loc =
    { s with links := l, fab := { s.fab.without p.id with pkts := (s.fab.without p.id).pkts ++ [p.movedTo loc s.tick] } } := by
  obtain ⟨l, h⟩ := freeBuffer_changes s p
  exact ⟨l, by rw [movePacket, h]; rfl⟩

theorem find?_without (f : Fab) (pid : Nat) : (f.without pid).pkts.find? (fun q => q.id == pid) = none := by
  simp [Fab.without]

theorem findPacket_of_without {s : State} {f : Fab} {pid : Nat} (h : s.fab.pkts = (f.without pid).pkts) : findPacket s pid = none := by
  rw [findPacket, h, find?_without]

theorem findPacket_movePacket {s : State} {p : Packet} {pid : Nat} (loc : Loc) (h : p.id = pid) :
    findPacket (movePacket s p loc) pid = some (p.movedTo loc s.tick) := by
  obtain ⟨l, hm⟩ := movePacket_changes s p loc
  rw [hm, findPacket]
  subst h
  rw [List.find?_append, find?_without]
  simp [Packet.movedTo]

theorem pitq_movePacket (s : State) (p : Packet) (loc : Loc) : (movePacket s p loc).pitq = s.pitq := by
  obtain ⟨l, hm⟩ := movePacket_changes s p loc
  rw [hm]

/-! Events and fault records on the way of a packet. -/

/-- Posting an event adds to what waits at the injectors, and changes nothing else of the fabric. -/
theorem postEvent_fab (s : State) (e : Event) : ∃ q, (postEvent s e).fab = { s.fab with localq := q } := by
  unfold postEvent evtWrite
  dsimp only
  repeat' split
  all_goals exact ⟨_, rfl⟩

theorem event_fab (s : State) (code : Nat) (q : Option Nat) (arg : Nat) (d : BitVec 128) :
    ∃ x, (event s code q arg d).fab = { s.fab with localq := x } := postEvent_fab s _

/-- A packet found unroutable is counted; the first since the last read is captured, with its reason and destination (R235). -/
theorem unroutable_fab (s : State) (h : Row) (reason : Nat) : ∃ q, (unroutable s h reason).fab =
    { s.fab with unroute := satInc s.fab.unroute, armed := false, localq := q,
                 first := if s.fab.armed then BitVec.ofNat 32 (reason * 2 ^ 29 + hDest h) else s.fab.first } := by
  unfold unroutable
  extract_lets w first t
  have hevent : ∃ q, (if first then event t 0x0010 none w.toNat else t).fab = { t.fab with localq := q } := by
    split
    · exact event_fab t _ _ _ _
    · exact ⟨t.fab.localq, rfl⟩
  exact hevent

/-- The record of a zone fault of one of the codes that halt nothing (R408, Table 14-2). -/
structure ZoneRec (z code : Nat) (r : FaultRec) : Prop where
  kind : r.kind = 1
  cause : r.cause = BitVec.ofNat 8 code
  zone : r.zone = BitVec.ofNat 6 z

theorem captureField_fab (s : State) (v : Word) (z : Nat) : (captureField s v z).fab = s.fab := by
  unfold captureField
  split <;> rfl

/-- FABRIC_ECC is counted alone, FAB_INJECT waits among the quarter's faults; either is recorded and announced. -/
theorem recordZone_eq {code : Nat} (hc : code = 6 ∨ code = 7) (s : State) (z : Nat) (d : BitVec 64) (n : Option Nat) :
    ∃ r e v, ZoneRec z code r ∧
      let t := captureField (lifeInc (postEvent (setSummary (addRec s r) sumZone) e) lifeZoneFaults) v z
      recordZone s z code false d n = t ∨ ∃ g, recordZone s z code false d n = t.modQuarter (z / 12) g := by
  rcases hc with rfl | rfl
  · exact ⟨_, _, _, ⟨rfl, rfl, rfl⟩, .inl rfl⟩
  · exact ⟨_, _, _, ⟨rfl, rfl, rfl⟩, .inr ⟨_, rfl⟩⟩

theorem recordZone_outcome {code : Nat} (hc : code = 6 ∨ code = 7) (s : State) (z : Nat) (d : BitVec 64) (n : Option Nat) :
    (∃ q, (recordZone s z code false d n).fab = { s.fab with localq := q }) ∧
      ∃ r, (recordZone s z code false d n).flt.recs.head? = some r ∧ ZoneRec z code r := by
  obtain ⟨r, e, v, hr, h⟩ := recordZone_eq hc s z d n
  generalize ht : captureField (lifeInc (postEvent (setSummary (addRec s r) sumZone) e) lifeZoneFaults) v z = t at h
  have hfab : ∃ q, t.fab = { s.fab with localq := q } := by
    obtain ⟨q, hq⟩ := postEvent_fab (setSummary (addRec s r) sumZone) e
    refine ⟨q, ?_⟩
    rw [← ht, captureField_fab]
    exact hq
  have hrecs : t.flt.recs.head? = some { r with seq := s.flt.seq + 1 } := by
    have hparts : t.faultParts = (addRec s r).faultParts := by
      rw [← ht, captureField_faultParts, lifeInc_faultParts, postEvent_faultParts, setSummary_faultParts]
    rw [recs_of_faultParts hparts]
    rfl
  have hrec : ZoneRec z code { r with seq := s.flt.seq + 1 } := ⟨hr.kind, hr.cause, hr.zone⟩
  rcases h with h | ⟨g, h⟩
  · rw [h]
    exact ⟨hfab, _, hrecs, hrec⟩
  · rw [h]
    exact ⟨hfab, _, hrecs, hrec⟩

/-! Proxies and arrivals (R226, R236). -/

/-- From s to t at most one packet has set out, which a router or handler has issued. -/
def MayIssue (s t : State) : Prop :=
  t.flt = s.flt ∧ ∃ l, t.fab.pkts = s.fab.pkts ++ l ∧ ∀ x ∈ l, x.issued = true ∧ x.id = s.fab.nextId

theorem mayIssue_of_fab {s t : State} (hf : t.flt = s.flt) (h : t.fab = s.fab) : MayIssue s t :=
  ⟨hf, [], by rw [h, List.append_nil], fun _ hx => by cases hx⟩

theorem issueArrival_mayIssue (s : State) (r i n : Nat) (proxy last : Bool) (total : Word) (by_ : Option Nat) (fq : BitVec 4) :
    MayIssue s (issueArrival s r i n proxy last total by_ fq) := by
  unfold issueArrival pitDeposit
  dsimp only
  repeat' split
  · exact mayIssue_of_fab rfl rfl
  · exact mayIssue_of_fab rfl rfl
  · exact mayIssue_of_fab rfl rfl
  · exact ⟨rfl, _, rfl, fun x hx => by rw [List.mem_singleton.1 hx]; exact ⟨rfl, rfl⟩⟩

theorem proxyHdr_mayIssue (s : State) (r : Nat) (h : Row) (by_ : Option Nat) (fq : BitVec 4) : MayIssue s (proxyHdr s r h by_ fq) := by
  unfold proxyHdr
  split
  · exact issueArrival_mayIssue _ _ _ _ _ _ _ _ _
  · exact mayIssue_of_fab rfl rfl

end Sys2Proof.Machine
end

section
/-! SUPPORT. Injection of packets at units and at the local injectors of hubs (R223 to R225, R239, R240, R245). -/

namespace Sys2Proof.Machine

/-- From s to t one packet has come in at a place, and SEEN of its version is set; the injection queues stand. -/
structure CameIn (s t : State) (hdr : Row) (data : List (Row × Bool)) (loc : Loc) (p : Packet) : Prop where
  pkts : t.fab.pkts = s.fab.pkts ++ [p]
  header : p.hdr = hdr
  payload : p.data = data
  place : p.loc = loc
  escape : p.escape = false
  seen : bit t.fab.seen (b2n (hCairn hdr)) = true
  localq : t.fab.localq = s.fab.localq
  injq : t.fab.injq = s.fab.injq
  asm : t.fab.asm = s.fab.asm

theorem b2n_lt_two (b : Bool) : b2n b < 2 := by cases b <;> decide

theorem addPacket_cameIn (s : State) (hdr : Row) (data : List (Row × Bool)) (loc : Loc) {vc : Nat} (fromLink : Bool) (by_ : Option Nat) (hv : vc ≠ 2) :
    CameIn s (addPacket s hdr data loc vc fromLink by_) hdr data loc (newPacket s hdr data loc vc fromLink by_) :=
  ⟨rfl, rfl, rfl, rfl, beq_eq_false_iff_ne.2 hv, bit_setBit_true _ (b2n_lt_two _), rfl, rfl, rfl⟩

/-- A packet that has not escaped is not on VC 2 (R230). -/
theorem pVc_ne_two {p : Packet} (h : p.escape = false) : pVc p ≠ 2 := by
  unfold pVc
  rw [h, if_neg (show ¬ false = true by decide)]
  repeat' split
  all_goals decide

theorem spill_fab {w : Nat} (s : State) (key : Nat) (v : BitVec w) (n : Nat) : (s.spill key v n).fab = s.fab := rfl

/-- A packet is injected past its bucket, on VC 3, or with what the throttle notes of it (R245). -/
theorem inject_eq (s : State) (i : Injector) (hdr : Row) (data : List (Row × Bool)) :
    ∃ (vc : Nat) (t : State), vc ≠ 2 ∧ (∃ b c, t.fab = { s.fab with buckets := b, thr := c }) ∧
      inject s i hdr data = addPacket t hdr data (.router (injRouter i) (injPort (injRouter i))) vc false (injBy i) := by
  unfold inject
  extract_lets _ r inPort p ks b rate halve b1 b2 s1 s2
  by_cases h3 : pVc p = 3
  · rw [if_pos h3]
    exact ⟨3, s, by decide, ⟨_, _, rfl⟩, rfl⟩
  · have hvc : pVc p ≠ 2 := pVc_ne_two (beq_eq_false_iff_ne.2 (by split <;> decide))
    have h1 : s1.fab = s.fab := by
      simp only [s1]
      split
      · exact spill_fab s _ _ _
      · rfl
    have h2 : s2.fab = { s.fab with buckets := s2.fab.buckets, thr := s2.fab.thr } := by
      rw [← h1]
      rfl
    rw [if_neg h3]
    exact ⟨pVc p, s2, hvc, ⟨_, _, h2⟩, rfl⟩

theorem inject_cameIn (s : State) (i : Injector) (hdr : Row) (data : List (Row × Bool)) :
    ∃ p, CameIn s (inject s i hdr data) hdr data (.router (injRouter i) (injPort (injRouter i))) p := by
  obtain ⟨vc, t, hvc, ⟨b, c, ht⟩, he⟩ := inject_eq s i hdr data
  have h := addPacket_cameIn t hdr data (.router (injRouter i) (injPort (injRouter i))) false (injBy i) hvc
  rw [← he] at h
  refine ⟨_, h.pkts.trans ?_, h.header, h.payload, h.place, h.escape, h.seen, h.localq.trans ?_, h.injq.trans ?_, h.asm.trans ?_⟩
  all_goals rw [ht]

/-! A hub's local injector. -/

/-- The packet that the bucket lets in leaves the queue and comes in stamped (R223, R239). -/
theorem exec_packetInject_hub {s : State} {q : Fin 4} {f : Fin 8} {x : Row × List (Row × Bool)}
    (hx : (sget [] s.fab.localq (8 * q.val + f.val)).find? (fun x => bucketOpen s (.hub q f) x.1) = some x) :
    ∃ t p, exec (.packetInject (.hub q f)) s = .next t ∧
      sget [] t.fab.localq (8 * q.val + f.val) = (sget [] s.fab.localq (8 * q.val + f.val)).erase x ∧
      t.fab.pkts = s.fab.pkts ++ [p] ∧ p.hdr = stampHdr x.1 s.fab.injCairn ∧ p.data = x.2 ∧ p.loc = .router (48 + q) 23 ∧
      p.escape = false ∧ bit t.fab.seen (b2n (hCairn p.hdr)) = true := by
  obtain ⟨p, h⟩ := inject_cameIn (s.modFab fun y => { y with localq := smod [] y.localq (8 * q + f) (·.erase x) }) (.hub q f)
    (stampHdr x.1 s.fab.injCairn) x.2
  refine ⟨_, p, ?_, ?_, h.pkts, h.header, h.payload, ?_, h.escape, h.header ▸ h.seen⟩
  rotate_left
  · rw [h.localq]
    exact sget_smod_same [] s.fab.localq (8 * q.val + f.val) (·.erase x)
  · rw [h.place]
    have hport : injPort (48 + q.val) = 23 := if_neg (by omega)
    show Loc.router (48 + q.val) (injPort (48 + q.val)) = _
    rw [hport]
  · show execPacketInject (.hub q f) s = _
    rw [execPacketInject, hx]

/-! A unit's packet. -/

/-- A unit's packet of which all tokens are in. -/
def Asm.whole (a : Asm) (ts : List (Bool × Token)) : Asm :=
  { a with left := 0, data := if a.drop then [] else a.data ++ (ts.take a.left).map fun t => (t.2.payload, t.2.last) }

/-- Once a packet's tokens wait in the queue, it takes them all (R224). -/
theorem takeTokens_whole {s : State} {lu : Nat} {a : Asm} {ts : List (Bool × Token)} (ha : sget none s.fab.asm lu = some a)
    (hq : sget [] s.fab.injq lu = ts) (hl : a.left ≤ ts.length) : takeTokens s lu =
      s.modFab fun f => { f with injq := sset [] f.injq lu (ts.drop a.left), asm := sset none f.asm lu (some (a.whole ts)) } := by
  unfold takeTokens
  rw [ha]
  dsimp only
  rw [hq, Nat.min_eq_left hl, Nat.sub_self]
  rfl

/-- Nothing is being taken in for the unit. -/
def asmClear (s : State) (lu : Nat) : State := s.modFab fun f => { f with asm := sset none f.asm lu none }

/-- The header leaves the queue, and the packet begins to be taken in (R224). -/
def headerTaken (s : State) (lu : Nat) (h : Row) (ts : List (Bool × Token)) : State :=
  s.modFab fun f => { f with injq := sset [] f.injq lu ts, asm := sset none f.asm lu (some ⟨h, [], hLen h, hdrBad h⟩) }

/-- The packet of header h is whole: ts have followed the header in the queue. -/
def packetTaken (s : State) (lu : Nat) (h : Row) (ts : List (Bool × Token)) : State :=
  s.modFab fun f => { f with injq := sset [] f.injq lu (ts.drop (hLen h)), asm := sset none f.asm lu (some (Asm.whole ⟨h, [], hLen h, hdrBad h⟩ ts)) }

/-- A unit's next packet begins to be taken in; a malformed header is reported (R224, R225). -/
def takeHeader (s : State) (lu : Fin 9216) : State :=
  match sget none s.fab.asm lu, sget [] s.fab.injq lu with
  | none, k :: ts =>
    let t := headerTaken s lu k.2.payload ts
    if hdrBad k.2.payload then recordZone t (zoneOf lu) 7 false 0 (some lu) else t
  | _, _ => s

/-- A packet that is whole goes in past its bucket, or is dropped with its malformed header. -/
def injectWhole (s : State) (lu : Fin 9216) : State :=
  match sget none s.fab.asm lu with
  | some a =>
    if a.left ≠ 0 then s
    else if a.drop then asmClear s lu
    else if bucketOpen s (.unit lu) a.hdr then inject (asmClear s lu) (.unit lu) a.hdr a.data
    else s
  | none => s

theorem injectUnit_eq (s : State) (lu : Fin 9216) : injectUnit s lu = injectWhole (takeTokens (takeHeader s lu) lu) lu := rfl

section
variable {s : State} {lu : Fin 9216} {k : Bool × Token} {ts : List (Bool × Token)}

/-- A fault recorded in between leaves what is being taken in where it was. -/
theorem takeTokens_headerTaken {t : State} (h : Row) (ht : ∃ q, t.fab = { (headerTaken s lu h ts).fab with localq := q }) (hl : hLen h ≤ ts.length) :
    takeTokens t lu = packetTaken t lu h ts := by
  obtain ⟨q, ht⟩ := ht
  have ha : sget none t.fab.asm lu = some ⟨h, [], hLen h, hdrBad h⟩ := by
    rw [ht]
    exact sget_sset_same none s.fab.asm lu.val (some ⟨h, [], hLen h, hdrBad h⟩)
  have hq : sget [] t.fab.injq lu = ts := by
    rw [ht]
    exact sget_sset_same [] s.fab.injq lu.val ts
  exact takeTokens_whole ha hq hl

theorem packetTaken_asm (t : State) (h : Row) :
    sget none (packetTaken t lu h ts).fab.asm lu = some (Asm.whole ⟨h, [], hLen h, hdrBad h⟩ ts) :=
  sget_sset_same none t.fab.asm lu.val (some (Asm.whole ⟨h, [], hLen h, hdrBad h⟩ ts))

theorem injectWhole_bad (t : State) {h : Row} (hb : hdrBad h = true) :
    injectWhole (packetTaken t lu h ts) lu = asmClear (packetTaken t lu h ts) lu := by
  unfold injectWhole
  rw [packetTaken_asm]
  exact (if_neg fun hn => hn rfl).trans (if_pos hb)

theorem injectWhole_good (t : State) {h : Row} (hb : hdrBad h = false) (ho : bucketOpen t (.unit lu) h = true) :
    injectWhole (packetTaken t lu h ts) lu =
      inject (asmClear (packetTaken t lu h ts) lu) (.unit lu) h ((ts.take (hLen h)).map fun x => (x.2.payload, x.2.last)) := by
  have hopen : bucketOpen (packetTaken t lu h ts) (.unit lu) h = true := ho
  unfold injectWhole
  rw [packetTaken_asm]
  dsimp only [Asm.whole]
  rw [if_neg fun hn => hn rfl, if_neg (by simp [hb]), if_pos hopen, if_neg (by simp [hb]), List.nil_append]

theorem injectWhole_injq (t : State) (h : Row) :
    sget [] (injectWhole (packetTaken t lu h ts) lu).fab.injq lu = ts.drop (hLen h) := by
  have hq : sget [] (packetTaken t lu h ts).fab.injq lu = ts.drop (hLen h) := sget_sset_same [] t.fab.injq lu.val (ts.drop (hLen h))
  unfold injectWhole
  rw [packetTaken_asm]
  dsimp only
  split_ifs with _ hd
  · exact hq
  · exact hq
  · obtain ⟨p, hin⟩ := inject_cameIn (asmClear (packetTaken t lu h ts) lu) (.unit lu) h (Asm.whole ⟨h, [], hLen h, hdrBad h⟩ ts).data
    exact (congrArg (sget [] · lu.val) hin.injq).trans hq
  · exact hq

end

/-- A unit's packet whose tokens are all in goes in, or is discarded with its malformed header (R224, R225). -/
theorem exec_packetInject_unit {s : State} {lu : Fin 9216} {k : Bool × Token} {ts : List (Bool × Token)}
    (hr : (s.quarter (zoneOf lu / 12)).inReset = false) (ha : sget none s.fab.asm lu = none) (hq : sget [] s.fab.injq lu = k :: ts)
    (hl : hLen k.2.payload ≤ ts.length) :
    exec (.packetInject (.unit lu)) s = .next (injectWhole (packetTaken (takeHeader s lu) lu k.2.payload ts) lu) ∧
      takeHeader s lu = (if hdrBad k.2.payload then recordZone (headerTaken s lu k.2.payload ts) (zoneOf lu) 7 false 0 (some lu)
        else headerTaken s lu k.2.payload ts) := by
  have hhead : takeHeader s lu = (if hdrBad k.2.payload then recordZone (headerTaken s lu k.2.payload ts) (zoneOf lu) 7 false 0 (some lu)
      else headerTaken s lu k.2.payload ts) := by
    unfold takeHeader
    rw [ha, hq]
  have hfab : ∃ q, (takeHeader s lu).fab = { (headerTaken s lu k.2.payload ts).fab with localq := q } := by
    rw [hhead]
    split
    · exact (recordZone_outcome (.inr rfl) (headerTaken s lu k.2.payload ts) (zoneOf lu) 0 (some lu.val)).1
    · exact ⟨_, rfl⟩
  refine ⟨?_, hhead⟩
  show execPacketInject (.unit lu) s = _
  unfold execPacketInject
  dsimp only
  rw [if_neg (by simp [hr]), injectUnit_eq, takeTokens_headerTaken k.2.payload hfab hl]

/-- All zones of the units are below 48. -/
theorem zoneOf_lt (lu : Fin 9216) : zoneOf lu < 48 := by
  have hlt := lu.isLt
  unfold zoneOf
  dsimp only
  omega

end Sys2Proof.Machine
end

section
/-! SUPPORT. Hops: discards, deliveries to units, and the fixed path of arrivals (R221, R227, R234 to R236). -/

namespace Sys2Proof.Machine

/-- The packet that leaves a router, with the header it takes on. -/
def Packet.routed (p : Packet) (h : Row) (fixed : Bool) : Packet := { p with hdr := h, fixed := p.fixed || fixed }

theorem findPacket_movePacket_routed {s : State} {p : Packet} {pid : Nat} (hp : findPacket s pid = some p) (h : Row) (fx : Bool) (loc : Loc) :
    findPacket (movePacket s (p.routed h fx) loc) pid = some ((p.routed h fx).movedTo loc s.tick) := findPacket_movePacket loc (findPacket_id hp :)

/-- The packet with its hop counted, as the router routes it. -/
def Packet.hopped (p : Packet) : Packet := { p with hdr := hopHdr p.hdr }

/-- The next hop of a packet at router r, and its header there. -/
def routeAt (s : State) (p : Packet) (r i : Nat) : Hop × Row :=
  if r < 48 then routeZone s p.hopped r i else routeHub s p.hopped (r - 48)

/-- A packet without a double-bit error takes its hop at router r. -/
def hopAt (s : State) (p : Packet) (r i : Nat) : State :=
  if bit s.fab.shadow (b2n (hCairn p.hdr)) && !p.issued then unroutable (dropPacket s p) p.hdr rStale
  else if 63 < hHops p.hdr + 1 then unroutable (dropPacket s p) p.hdr rHops
  else if orderAhead s p then s
  else if hRope p.hdr then
    let e := ropeEntry s r (hCairn p.hdr) (hDest p.hdr % 4096)
    if !eValid e then unroutable (dropPacket s p) p.hdr rRope
    else
      let hs := ropeHops s p.hdr r i e
      if ropeRoom s p r hs then expand s p.hopped r i hs else s
  else doHop s (p.routed (routeAt s p r i).2 (decide (48 ≤ r) && onFixed s p.hopped (r - 48))) r i (routeAt s p r i).1

theorem exec_routerHop {s : State} {pid r i : Nat} {p : Packet} (hp : findPacket s pid = some p) (hl : p.loc = .router r i) (e : FlitEcc) :
    exec (.routerHop pid e) s = .next (if e = FlitEcc.double then
        proxyHdr (recordZone (dropPacket s p) (if r < 48 then r else 12 * (r - 48)) 6 false 0) r p.hdr (packetBy p) p.fenceBy
      else hopAt s p r i) := by
  show execRouterHop pid e s = _
  unfold execRouterHop
  rw [hp]
  show Host.Outcome.next (match p.loc with
    | .router r i => if e = FlitEcc.double then
          proxyHdr (recordZone (dropPacket s p) (if r < 48 then r else 12 * (r - 48)) 6 false 0) r p.hdr (packetBy p) p.fenceBy
        else hopAt s p r i
    | _ => s) = _
  rw [hl]

/-! What a hop discards. -/

theorem dropPacket_fab (s : State) (p : Packet) : (dropPacket s p).fab = s.fab.without p.id := by
  obtain ⟨l, h⟩ := dropPacket_changes s p
  rw [h]

/-- A packet that is found unroutable is gone and counted; the first since the last read is captured (R235). -/
theorem unroutable_dropPacket {s : State} {p : Packet} {pid reason : Nat} (hp : findPacket s pid = some p) (hr : reason < 4) :
    let t := unroutable (dropPacket s p) p.hdr reason
    findPacket t pid = none ∧ t.fab.unroute = satInc s.fab.unroute ∧ t.fab.armed = false ∧
      (s.fab.armed = true → t.fab.first.toNat = reason * 2 ^ 29 + hDest p.hdr) ∧ (s.fab.armed = false → t.fab.first = s.fab.first) := by
  obtain ⟨q, hfab⟩ := unroutable_fab (dropPacket s p) p.hdr reason
  rw [dropPacket_fab, findPacket_id hp] at hfab
  dsimp only
  rw [hfab]
  refine ⟨findPacket_of_without (f := s.fab) (by rw [hfab]), rfl, rfl, fun harm => ?_, fun harm => ?_⟩
  · have hdest : hDest p.hdr < 2 ^ 24 := BitVec.isLt _
    have hif : (if (s.fab.without pid).armed = true then BitVec.ofNat 32 (reason * 2 ^ 29 + hDest p.hdr) else (s.fab.without pid).first) =
      BitVec.ofNat 32 (reason * 2 ^ 29 + hDest p.hdr) := if_pos harm
    dsimp only
    rw [hif, BitVec.toNat_ofNat, Nat.mod_eq_of_lt (by omega)]
  · exact if_neg (by simp [Fab.without, harm])

theorem hopAt_stale {s : State} {p : Packet} (r i : Nat) (hs : bit s.fab.shadow (b2n (hCairn p.hdr)) = true) (hi : p.issued = false) :
    hopAt s p r i = unroutable (dropPacket s p) p.hdr rStale := if_pos (by simp [hs, hi])

/-- A discarded packet is gone, whatever proxy sets out for it, and the fault's record stands at the head. -/
theorem gone_of_recordZone (s : State) (p : Packet) (z r : Nat) (h : Row) (by_ : Option Nat) (fq : BitVec 4) :
    let t := proxyHdr (recordZone (dropPacket s p) z 6 false 0) r h by_ fq
    Gone s t p.id ∧ ∃ x, t.flt.recs.head? = some x ∧ ZoneRec z 6 x := by
  obtain ⟨⟨q, hfab⟩, x, hx, hrec⟩ := recordZone_outcome (.inl rfl) (dropPacket s p) z 0 none
  obtain ⟨hflt, js, hpkts, hjs⟩ := proxyHdr_mayIssue (recordZone (dropPacket s p) z 6 false 0) r h by_ fq
  rw [hfab, dropPacket_fab] at hpkts hjs
  exact ⟨⟨js, hpkts, hjs⟩, x, by rw [← hx, ← hflt], hrec⟩

/-! What a hop sends on. -/

/-- A packet that its router does not discard and that keeps its order goes where the router routes it (R234). -/
theorem hopAt_routed {s : State} {p : Packet} (r i : Nat) (hs : p.issued = true ∨ bit s.fab.shadow (b2n (hCairn p.hdr)) = false)
    (hh : hHops p.hdr < 63) (ho : orderAhead s p = false) (hr : hRope p.hdr = false) :
    hopAt s p r i = doHop s (p.routed (routeAt s p r i).2 (decide (48 ≤ r) && onFixed s p.hopped (r - 48))) r i (routeAt s p r i).1 := by
  have hstale : ¬(bit s.fab.shadow (b2n (hCairn p.hdr)) && !p.issued) = true := by
    rcases hs with hs | hs <;> simp [hs]
  unfold hopAt
  rw [if_neg hstale, if_neg (by omega), if_neg (by simp [ho]), if_neg (by simp [hr])]

/-- An entry of a zone's table that names a unit sends a TOKEN there (R234). -/
theorem routeZone_unit {s : State} {p : Packet} {z i : Nat} (hk : hKind p.hdr = 0) (hset : hSet p.hdr = false)
    (hv : eValid (epEntry s z (hCairn p.hdr) (hDest p.hdr)) = true) (ho : eOut (epEntry s z (hCairn p.hdr) (hDest p.hdr)) = 0) :
    routeZone s p z i = (.unit (luAt z (eK (epEntry s z (hCairn p.hdr) (hDest p.hdr))) (eJ (epEntry s z (hCairn p.hdr) (hDest p.hdr)))), p.hdr) := by
  unfold routeZone
  dsimp only
  rw [if_neg (by simp [hk]), if_neg (by simp [hset]), if_pos (by simp [hv, ho]), if_pos (.inl hk)]

theorem doHop_unit {s : State} {lu : Nat} (p : Packet) (r i : Nat) (hb : (s.phys lu).isSome = true) :
    doHop s p r i (.unit lu) = movePacket s p (.unit lu) := by
  unfold doHop
  rw [if_neg (by simp [hopFenced, Option.isNone_eq_false_iff.2 hb])]
  exact if_neg fun h => by cases h

/-- A PITON packet to SELF is on the fixed path to its piton's hub (R227). -/
theorem onFixed_self {s : State} {p : Packet} (q : Nat) (hk : hKind p.hdr = 4) (hd : hDest p.hdr = 0xFFFFFF) : onFixed s p q = true := by
  simp [onFixed, hk, hd]

theorem routeHub_fixed {s : State} {p : Packet} {q : Nat} (hf : onFixed s p q = true) :
    routeHub s p q = (fixedHop (setFld p.hdr 136 8 0) q, setFld p.hdr 136 8 0) := if_pos hf

theorem doHop_engine {s : State} {q : Nat} (p : Packet) (r i : Nat) (hr : (s.quarter q).inReset = false) :
    doHop s p r i (.engine q) = toEngine (dropPacket s p) p i q := by
  unfold doHop
  rw [if_neg (by simp [hopFenced, hr])]
  exact if_neg fun h => by cases h

theorem doHop_hub {s : State} {h : Nat} (p : Packet) (q i : Nat) (hr : (s.quarter h).inReset = false)
    (hc : 0 < freeCredits s (48 + h) (hubPortOfHub h q) (pVc p)) :
    doHop s p (48 + q) i (.hub h) = movePacket s p (.router (48 + h) (hubPortOfHub h q)) := by
  have hinput : hopInput (48 + q) (.hub h) = some (48 + h, hubPortOfHub h q) := by
    unfold hopInput
    dsimp only
    rw [if_neg (by omega), Nat.add_sub_cancel_left]
  have hcredit : hopCredit s p (48 + q) (.hub h) = true := by
    unfold hopCredit
    rw [hinput]
    exact decide_eq_true hc
  unfold doHop
  rw [if_neg (by simp [hopFenced, hr]), if_neg (by simp [hcredit])]
  dsimp only
  rw [hinput]

theorem pitQ_modPitQ_same (s : State) (q : Nat) (f : PitQ → PitQ) : (s.modPitQ q f).pitQ q = f (s.pitQ q) := sget_smod_same _ s.pitq q f

/-- A packet that enters an engine leaves the fabric and waits in the engine's inbox. -/
theorem toEngine_dropPacket {s : State} {q : Nat} (p : Packet) (i : Nat) (hr : (s.quarter q).inReset = false) :
    ∃ m, let t := toEngine (dropPacket s p) p i q
      t.fab = s.fab.without p.id ∧ (t.pitQ q).inbox = (s.pitQ q).inbox ++ [m] ∧ m.port = i ∧ m.piton = BitVec.ofNat 17 (hPiton p.hdr) ∧
        m.op = BitVec.ofNat 4 (hArg p.hdr / 2 ^ 28) ∧ m.inl = hInline p.hdr := by
  obtain ⟨l, hdrop⟩ := dropPacket_changes s p
  rw [hdrop]
  unfold toEngine pitDeposit
  dsimp only
  have hr' : ({ s with links := l, fab := s.fab.without p.id }.quarter q).inReset = false := hr
  rw [if_neg (by rw [hr']; decide)]
  rw [pitQ_modPitQ_same]
  exact ⟨_, rfl, rfl, rfl, rfl, rfl, rfl⟩

end Sys2Proof.Machine
end

section
/-! SUPPORT. The packets of the fabric, clause by clause (R221 to R245). -/

namespace Sys2Proof.Machine

/-! Injection. -/

theorem bucketOpen_differ {s : State} {i : Injector} {h g : Row} (hc : bucketOpen s i h = false) (ho : bucketOpen s i g = true) : h ≠ g :=
  fun he => by rw [he, ho] at hc; cases hc

/-- A malformed header goes with its data tokens, and FAB_INJECT is recorded for its zone (R225). -/
theorem injectWhole_bad_outcome {s : State} {lu : Fin 9216} {h : Row} {ts : List (Bool × Token)} (hb : hdrBad h = true) :
    let t := injectWhole (packetTaken (recordZone (headerTaken s lu h ts) (zoneOf lu) 7 false 0 (some lu)) lu h ts) lu
    sget none t.fab.asm lu = none ∧ t.fab.pkts = s.fab.pkts ∧ ∃ r, t.flt.recs.head? = some r ∧ ZoneRec (zoneOf lu) 7 r := by
  obtain ⟨⟨q, hfab⟩, hrec⟩ := recordZone_outcome (.inr rfl) (headerTaken s lu h ts) (zoneOf lu) 0 (some lu.val)
  dsimp only
  generalize recordZone (headerTaken s lu h ts) (zoneOf lu) 7 false 0 (some lu.val) = u at hfab hrec ⊢
  rw [injectWhole_bad u hb]
  have hpkts : u.fab.pkts = s.fab.pkts := by
    rw [hfab]
    rfl
  exact ⟨sget_sset_same none (packetTaken u lu h ts).fab.asm lu.val none, hpkts, hrec⟩

/-- A good packet whose bucket is open comes in at its zone router (R224). -/
theorem injectWhole_good_outcome {s : State} {lu : Fin 9216} {h : Row} {ts : List (Bool × Token)} (hb : hdrBad h = false)
    (ho : bucketOpen s (.unit lu) h = true) :
    let t := injectWhole (packetTaken (headerTaken s lu h ts) lu h ts) lu
    sget none t.fab.asm lu = none ∧ ∃ p, t.fab.pkts = s.fab.pkts ++ [p] ∧ p.hdr = h ∧
      p.data = (ts.take (hLen h)).map (fun x => (x.2.payload, x.2.last)) ∧ p.loc = .router (zoneOf lu) 5 := by
  have hport : injPort (zoneOf lu) = 5 := if_pos (zoneOf_lt lu)
  have hopen : bucketOpen (headerTaken s lu h ts) (.unit lu) h = true := ho
  dsimp only
  rw [injectWhole_good _ hb hopen]
  obtain ⟨p, hin⟩ := inject_cameIn (asmClear (packetTaken (headerTaken s lu h ts) lu h ts) lu) (.unit lu) h
    ((ts.take (hLen h)).map fun x => (x.2.payload, x.2.last))
  refine ⟨?_, p, hin.pkts, hin.header, hin.payload, hin.place.trans (congrArg (Loc.router (zoneOf lu)) hport)⟩
  exact (congrArg (sget none · lu.val) hin.asm).trans (sget_sset_same none (packetTaken (headerTaken s lu h ts) lu h ts).fab.asm lu.val none)

/-! Hops. -/

theorem hPiton_hubHdr (h : Row) : hPiton (hubHdr h) = hPiton h := (hPiton_setFld _ _ (by decide)).trans (hPiton_setFld _ _ (by decide))
theorem hArg_hubHdr (h : Row) : hArg (hubHdr h) = hArg h := (hArg_setFld _ _ (by decide)).trans (hArg_setFld _ _ (by decide))
theorem hInline_hubHdr (h : Row) : hInline (hubHdr h) = hInline h := (hInline_setFld _ _ (by decide)).trans (hInline_setFld _ _ (by decide))
theorem hKind_hubHdr (h : Row) : hKind (hubHdr h) = hKind h := (hKind_setFld _ _ (by decide)).trans (hKind_setFld _ _ (by decide))

theorem pVc_piton {p : Packet} (hk : hKind p.hdr = 4) : pVc p = 3 := if_pos (.inr hk)

theorem pVc_routed_piton {p : Packet} {h : Row} (hk : hKind h = 4) (fx : Bool) : pVc (p.routed h fx) = 3 := if_pos (.inr hk)

/-- What a hub makes of a PITON packet to SELF (R227). -/
theorem routeAt_self (s : State) {p : Packet} {q : Nat} (i : Nat) (hk : hKind p.hdr = 4) (hd : hDest p.hdr = 0xFFFFFF) :
    routeAt s p (48 + q) i =
      (if pitonQuarter (hPiton p.hdr) = q then .engine q else .hub (pitonQuarter (hPiton p.hdr)), hubHdr p.hdr) := by
  have hk' : hKind p.hopped.hdr = 4 := (hKind_setFld p.hdr _ (by decide)).trans hk
  have hd' : hDest p.hopped.hdr = 0xFFFFFF := (hDest_setFld p.hdr _ (by decide)).trans hd
  unfold routeAt
  rw [if_neg (by omega), Nat.add_sub_cancel_left, routeHub_fixed (onFixed_self q hk' hd')]
  change (fixedHop (hubHdr p.hdr) q, hubHdr p.hdr) = _
  rw [fixedHop, hPiton_hubHdr]

theorem exec_routerHop_self {s : State} {pid i : Nat} {q : Fin 4} {p : Packet} (hp : findPacket s pid = some p) (hl : p.loc = .router (48 + q.val) i)
    (hk : hKind p.hdr = 4) (hd : hDest p.hdr = 0xFFFFFF) (hrope : hRope p.hdr = false) (hh : hHops p.hdr < 63) (ho : orderAhead s p = false)
    (hs : p.issued = true ∨ bit s.fab.shadow (b2n (hCairn p.hdr)) = false) :
    ∃ fx, exec (.routerHop pid .good) s = .next (doHop s (p.routed (hubHdr p.hdr) fx) (48 + q.val) i
      (if pitonQuarter (hPiton p.hdr) = q.val then .engine q else .hub (pitonQuarter (hPiton p.hdr)))) := by
  rw [exec_routerHop hp hl .good, if_neg (by decide), hopAt_routed _ i hs hh ho hrope, routeAt_self s i hk hd]
  exact ⟨_, rfl⟩

/-- The PITON packet's operation enters the engine of its piton's hub as it came (R227, R259). -/
theorem toEngine_self {s : State} {pid q : Nat} {p : Packet} (hp : findPacket s pid = some p) (fx : Bool) (i : Nat)
    (hr : (s.quarter q).inReset = false) :
    ∃ m, let t := toEngine (dropPacket s (p.routed (hubHdr p.hdr) fx)) (p.routed (hubHdr p.hdr) fx) i q
      findPacket t pid = none ∧ (t.pitQ q).inbox = (s.pitQ q).inbox ++ [m] ∧ m.port = i ∧ m.piton.toNat = hPiton p.hdr ∧
        m.op.toNat = hArg p.hdr / 2 ^ 28 ∧ m.inl = hInline p.hdr := by
  have hid := findPacket_id hp
  have hpiton : hPiton p.hdr < 2 ^ 17 := BitVec.isLt _
  have harg : hArg p.hdr < 2 ^ 32 := BitVec.isLt _
  obtain ⟨m, hfab, hinbox, hport, hpit, hop, hinl⟩ := toEngine_dropPacket (p.routed (hubHdr p.hdr) fx) i hr
  refine ⟨m, findPacket_of_without (f := s.fab) (by rw [hfab, ← hid, Packet.routed]), hinbox, hport, ?_, ?_, ?_⟩
  · rw [hpit, BitVec.toNat_ofNat, Packet.routed, hPiton_hubHdr, Nat.mod_eq_of_lt hpiton]
  · rw [hop, BitVec.toNat_ofNat, Packet.routed, hArg_hubHdr, Nat.mod_eq_of_lt (by omega)]
  · rw [hinl, Packet.routed, hInline_hubHdr]

/-- A TOKEN whose endpoint entry names a unit of its zone goes to that unit (R234). -/
theorem routeAt_unit {s : State} {p : Packet} {z : Nat} (i : Nat) (hz : z < 48) (hk : hKind p.hdr = 0) (hset : hSet p.hdr = false)
    (hv : eValid (epEntry s z (hCairn p.hdr) (hDest p.hdr)) = true) (ho : eOut (epEntry s z (hCairn p.hdr) (hDest p.hdr)) = 0) :
    routeAt s p z i =
      (.unit (luAt z (eK (epEntry s z (hCairn p.hdr) (hDest p.hdr))) (eJ (epEntry s z (hCairn p.hdr) (hDest p.hdr)))), hopHdr p.hdr) := by
  have hcairn : hCairn p.hopped.hdr = hCairn p.hdr := hCairn_setFld p.hdr _ (by decide)
  have hdest : hDest p.hopped.hdr = hDest p.hdr := hDest_setFld p.hdr _ (by decide)
  have hroute : routeZone s p.hopped z i = _ :=
    routeZone_unit ((hKind_setFld p.hdr _ (by decide)).trans hk) ((hSet_hopHdr p.hdr).trans hset) (by rw [hcairn, hdest]; exact hv)
      (by rw [hcairn, hdest]; exact ho)
  rw [hcairn, hdest] at hroute
  exact (if_pos hz).trans hroute

/-! Escape and recovery. -/

/-- The packet numbered pid goes to VC 2 (R230). -/
def escaped (pid : Nat) (q : Packet) : Packet := if q.id = pid then { q with escape := true } else q

theorem escaped_id (pid : Nat) (q : Packet) : (escaped pid q).id = q.id := by
  unfold escaped
  split <;> rfl

theorem find?_map_escaped {l : List Packet} {pid : Nat} {p : Packet} (hp : l.find? (fun q => q.id == pid) = some p) :
    (l.map (escaped pid)).find? (fun q => q.id == pid) = some { p with escape := true } := by
  have hid : p.id = pid := by simpa using List.find?_some hp
  have hsame : ((fun q : Packet => q.id == pid) ∘ escaped pid) = fun q => q.id == pid :=
    funext fun q => congrArg (· == pid) (escaped_id pid q)
  rw [List.find?_map, hsame, hp]
  exact congrArg some (if_pos hid)

/-- The bucket begins to rise at a tick (R245). -/
def Bucket.risingFrom (b : Bucket) (tick : Nat) : Bucket := { b with rising := some (tick, b.rate) }

theorem queuesLow_of_forall {s : State} {b : Bucket} (h : ∀ u ∈ b.used, s.tick < u.2.2.2 + 256 → queueFlits s u.1 u.2.1 < 32) :
    queuesLow s b = true := by
  rw [queuesLow, List.all_eq_true]
  intro u hu
  obtain ⟨hmem, hrecent⟩ := List.mem_filter.1 hu
  exact decide_eq_true (h u hmem (of_decide_eq_true hrecent))

/-- Settles O36: injection, hop, escape and recovery each do what their row says. -/
theorem packetsAreInjectedAndRouted : Obligations.PacketsAreInjectedAndRouted := by
  unfold Obligations.PacketsAreInjectedAndRouted
  refine ⟨?hub, ?unit, ?stale, ?double, ?token, ?piton, ?escape, ?recovery⟩
  case hub =>
    intro s q f h d rest hq
    refine ⟨fun ho => ?_, fun g e more hc hrest ho => ?_⟩
    · have hx : (sget [] s.fab.localq (8 * q.val + f.val)).find? (fun x => bucketOpen s (.hub q f) x.1) = some (h, d) := by
        rw [hq, List.find?_cons_of_pos (a := (h, d)) ho]
      obtain ⟨t, p, hexec, herase, hpkts, hhdr, hdata, hloc, hesc, hseen⟩ := exec_packetInject_hub hx
      rw [hq, List.erase_cons_head] at herase
      exact ⟨t, p, hexec, herase, hpkts, hhdr, hdata, hloc, hesc, hseen⟩
    · have hx : (sget [] s.fab.localq (8 * q.val + f.val)).find? (fun x => bucketOpen s (.hub q f) x.1) = some (g, e) := by
        rw [hq, hrest, List.find?_cons_of_neg (by rw [hc]; decide), List.find?_cons_of_pos (a := (g, e)) ho]
      obtain ⟨t, p, hexec, herase, hpkts, hhdr, hdata, -⟩ := exec_packetInject_hub hx
      have hne : (h, d) ≠ (g, e) := fun he => bucketOpen_differ hc ho (congrArg Prod.fst he)
      rw [hq, hrest, List.erase_cons_tail (by simpa using hne), List.erase_cons_head] at herase
      exact ⟨t, p, hexec, herase, hpkts, hhdr, hdata⟩
  case unit =>
    intro s lu k ts hr ha hq h hl
    obtain ⟨hexec, hhead⟩ := exec_packetInject_unit hr ha hq hl
    refine ⟨_, hexec, injectWhole_injq _ h, fun hb => ?_, fun hb ho => ?_⟩
    · rw [hhead, if_pos hb]
      obtain ⟨hasm, hpkts, r, hrec, hz⟩ := injectWhole_bad_outcome (s := s) (lu := lu) (ts := ts) hb
      have hzone := zoneOf_lt lu
      exact ⟨hasm, hpkts, r, hrec, hz.kind, hz.cause, by rw [hz.zone, BitVec.toNat_ofNat]; omega⟩
    · rw [hhead, if_neg (by simp [show hdrBad k.2.payload = false from hb])]
      exact injectWhole_good_outcome hb ho
  case stale =>
    intro s pid r i e p hp hl he hs hi
    refine ⟨_, exec_routerHop hp hl e, ?_⟩
    rw [if_neg he, hopAt_stale r i hs hi]
    exact unroutable_dropPacket hp (by decide)
  case double =>
    intro s pid r i p hp hl hr
    refine ⟨_, exec_routerHop hp hl .double, ?_⟩
    rw [if_pos rfl]
    obtain ⟨hgone, x, hx, hrec⟩ := gone_of_recordZone s p (if r < 48 then r else 12 * (r - 48)) r p.hdr (packetBy p) p.fenceBy
    rw [findPacket_id hp] at hgone
    refine ⟨hgone, x, hx, hrec.kind, hrec.cause, ?_⟩
    rw [hrec.zone, BitVec.toNat_ofNat]
    split <;> omega
  case token =>
    intro s pid z i p hp hl hz hk hrope hset hh hs hv ho lu hb hord
    have hexec := exec_routerHop hp hl .good
    rw [if_neg (by decide), hopAt_routed z i (.inr hs) hh hord hrope, routeAt_unit i hz hk hset hv ho, doHop_unit _ _ _ hb] at hexec
    exact ⟨_, _, hexec, findPacket_movePacket_routed hp _ _ _, rfl, rfl, hHops_hopHdr hh, hDest_setFld p.hdr _ (by decide)⟩
  case piton =>
    intro s pid i q p hp hl hk hd hrope hh hord hs hr
    obtain ⟨fx, hexec⟩ := exec_routerHop_self hp hl hk hd hrope hh hord hs
    refine ⟨fun hhere => ?_, fun haway hcr => ?_⟩
    · rw [hhere] at hr
      rw [if_pos hhere, doHop_engine _ _ _ hr] at hexec
      obtain ⟨m, hgone, hinbox, hm⟩ := toEngine_self hp fx i hr
      exact ⟨_, m, hexec, hgone, hinbox, hm⟩
    · have hcr' : 0 < freeCredits s (48 + pitonQuarter (hPiton p.hdr)) (hubPortOfHub (pitonQuarter (hPiton p.hdr)) q)
          (pVc (p.routed (hubHdr p.hdr) fx)) := by
        rwa [pVc_routed_piton ((hKind_hubHdr p.hdr).trans hk) fx, ← pVc_piton hk]
      rw [if_neg haway, doHop_hub _ _ _ hr hcr'] at hexec
      exact ⟨_, _, hexec, findPacket_movePacket_routed hp _ _ _, rfl, hHops_hubHdr hh, hPiton_hubHdr p.hdr, pitq_movePacket _ _ _⟩
  case escape =>
    intro s pid p hp hvc
    have hexec : exec (.spreadEscape pid) s = .next (if pVc p = 1 ∧ p.since + 64 ≤ s.tick ∧ !findsCredit s p then
        s.modFab fun f => { f with pkts := f.pkts.map (escaped pid) }
      else s) := by
      show execSpreadEscape pid s = _
      unfold execSpreadEscape
      rw [hp]
      rfl
    refine ⟨fun hdue hfinds => ⟨_, hexec, ?_⟩, fun hearly => ?_⟩
    · rw [if_pos ⟨hvc, hdue, by rw [hfinds]; rfl⟩]
      exact find?_map_escaped hp
    · rw [hexec, if_neg]
      rintro ⟨-, hdue, hfinds⟩
      rcases hearly with hearly | hearly
      · omega
      · rw [hearly] at hfinds
        cases hfinds
  case recovery =>
    intro s i hr hrate hlow
    have hexec : exec (.bucketRecovery i) s = .next (s.modFab fun f =>
        { f with buckets := sset Bucket.init f.buckets (injKey i) ((sget Bucket.init s.fab.buckets (injKey i)).risingFrom s.tick) }) := by
      show execBucketRecovery i s = _
      exact congrArg _ (if_pos (by simp [hr, hrate, queuesLow_of_forall hlow]))
    exact ⟨_, hexec, rfl, congrArg Bucket.rising (sget_sset_same Bucket.init s.fab.buckets (injKey i) _)⟩

end Sys2Proof.Machine
end

section
/-! SUPPORT. Edge links: what a frame, a resend, a retrain and a training leave of the link (R248 to R253, R255). -/

namespace Sys2Proof.Machine

/-! One link of the region. -/

@[simp] theorem link_modLink_same (s : State) (n : Nat) (f : Link → Link) : (s.modLink n f).link n = f (s.link n) :=
  sget_smod_same _ s.links n f

theorem link_modLink_other (s : State) {n m : Nat} (f : Link → Link) (h : m ≠ n) : (s.modLink n f).link m = s.link m :=
  sget_smod_other _ s.links n f m h

theorem link_of_links {s t : State} (h : t.links = s.links) (n : Nat) : t.link n = s.link n := congrArg (sget Link.init · n) h

theorem link_spill {w : Nat} (s : State) (key : Nat) (v : BitVec w) (k n : Nat) : (s.spill key v k).link n = s.link n := rfl

theorem event_links (s : State) (code : Nat) (q : Option Nat) (arg : Nat) (d : BitVec 128) : (event s code q arg d).links = s.links := by
  obtain ⟨v, f, l, h⟩ := postEvent_changes s ⟨BitVec.ofNat 16 code, q.map (BitVec.ofNat 2), BitVec.ofNat 32 arg, s.clk.count, d⟩
  rw [event, h]

theorem issueArrival_links (s : State) (r i n : Nat) (proxy last : Bool) (total : Word) (by_ : Option Nat) (fq : BitVec 4) :
    (issueArrival s r i n proxy last total by_ fq).links = s.links := by
  unfold issueArrival pitDeposit
  dsimp only
  repeat' split
  all_goals rfl

theorem proxyHdr_links (s : State) (r : Nat) (h : Row) (by_ : Option Nat) (fq : BitVec 4) : (proxyHdr s r h by_ fq).links = s.links := by
  unfold proxyHdr
  split
  · exact issueArrival_links _ _ _ _ _ _ _ _ _
  · rfl

theorem pstWrite_links (s : State) (w : Nat) (v : Word) : (pstWrite s w v).links = s.links := by
  unfold pstWrite
  split <;> rfl

theorem pstWrite_boot (s : State) (w : Nat) (v : Word) : (pstWrite s w v).boot = s.boot := by
  unfold pstWrite
  split <;> rfl

/-! Losing and starting a link. -/

/-- The packets whose last frame has not been acknowledged. -/
def Link.unsent (l : Link) : List Packet := l.replay.filterMap TxFrame.tail

/-- The link with what it held of packets lost, and nothing to answer (R253). -/
def Link.emptied (l : Link) : Link :=
  { l with lost := satAdd l.lost l.unsent.length, replay := [], wire := l.wire.filter (fun p => !(l.unsent.any fun g => g.id == p.id)), rx := [],
           spent := [], owed := [],
           held := smap 0 l.held (fun vc n => n - (match sget none l.rx vc with | some x => 1 + x.data.length | none => 0)),
           resends := 0, nak := false, ackOwed := false, gap := false }

theorem discardLink_link (s : State) (n : Nat) : (discardLink s n).link n = (s.link n).emptied := by
  unfold discardLink
  extract_lets l gone t
  have ht : t.link n = (s.link n).emptied := by
    simp only [t]
    rw [link_modLink_same, link_spill]
    rfl
  rw [← ht]
  refine link_of_links (forEach_keeps (fun s : State => s.links) _ (fun u e => ?_) l.rx t) n
  split
  · exact proxyHdr_links _ _ _ _ _
  · rfl

/-- The link when its training begins at a tick (R252). -/
def Link.trainedFrom (l : Link) (tick : Nat) : Link :=
  { l.emptied with state := .training, train := true, quick := false, detected := false, trainTick := tick, trains := satInc l.trains, quickFails := 0 }

theorem linkTrain_link {s : State} {n : Nat} (he : (s.link n).enable = true) (hr : (s.quarter (linkHub n)).inReset = false) :
    (linkTrain s n).link n = (s.link n).trainedFrom s.tick := by
  rw [linkTrain, if_neg (by simp [he, hr]), link_modLink_same, discardLink_link]
  rfl

/-- The link when its quick retrain begins (R251). -/
def Link.retrained (l : Link) : Link := { l with state := .retraining, quick := true, retrains := satInc l.retrains }

theorem linkQuick_link (s : State) (n : Nat) : (linkQuick s n).link n = (s.link n).retrained := by
  rw [linkQuick, link_modLink_same, link_spill]
  rfl

/-- The link when it goes DOWN (R253). -/
def Link.lostNow (l : Link) : Link := { l.emptied with state := .down, train := false, quick := false, detected := false, downed := true }

theorem linkDown_link (s : State) (n : Nat) : (linkDown s n).link n = (s.link n).lostNow := by
  have hdown : ((discardLink s n).modLink n fun l =>
      { l with state := .down, train := false, quick := false, detected := false, downed := true }).link n = (s.link n).lostNow := by
    rw [link_modLink_same, discardLink_link]
    rfl
  unfold linkDown
  dsimp only
  split
  · exact hdown
  · exact (link_of_links (event_links _ _ _ _ _) n).trans hdown

theorem linkDown_boot (s : State) (n : Nat) : (linkDown s n).boot = s.boot := by
  unfold linkDown
  dsimp only
  split
  · exact steady_boot ((modLink_steady _ _ _).trans (discardLink_steady s n))
  · refine steady_boot ((event_steady _ _ _ _ _).trans ?_)
    rw [setSummary_steady, modLink_steady, discardLink_steady]

/-- The link when its training ends well (R252). -/
def Link.upFrom (l : Link) (r : TrainResult) (tick : Nat) : Link :=
  { l with state := .up, train := false, sparesTx := r.sparesTx, sparesRx := r.sparesRx, partner := r.site, txSeq := 0, rxSeq := 0, spent := [],
           owed := [], ackTick := tick, detected := false, downed := false }

/-- The calibration words of the link go to the persistent store where they have changed (R252). -/
def keepCalib (s : State) (n : Nat) (r : TrainResult) : State :=
  if (upto 32).any fun i => nth 0 r.calib i != sget 0 s.pst.words (calWord n i) then
    forEach (upto 32) s fun s i => pstWrite s (calWord n i) (nth 0 r.calib i)
  else s

theorem keepCalib_keeps {β : Type} (g : State → β) (h : ∀ s w v, g (pstWrite s w v) = g s) (s : State) (n : Nat) (r : TrainResult) :
    g (keepCalib s n r) = g s := by
  unfold keepCalib
  split
  · exact forEach_keeps g _ (fun u i => h u _ _) _ _
  · rfl

theorem linkUpNow_eq (s : State) (n : Nat) (r : TrainResult) : ∃ t, t.boot = s.boot ∧ t.link n = (s.link n).upFrom r t.tick ∧
    (linkUpNow s n r = t ∨ linkUpNow s n r = event t 0x0013 (some (linkHub n)) n) := by
  refine ⟨(keepCalib s n r).modLink n fun l => l.upFrom r (keepCalib s n r).tick, ?_, ?_, ?_⟩
  · exact keepCalib_keeps (fun s : State => s.boot) pstWrite_boot s n r
  · rw [link_modLink_same, link_of_links (keepCalib_keeps (fun s : State => s.links) pstWrite_links s n r)]
    rfl
  · unfold linkUpNow
    extract_lets changed u post v
    by_cases hp : post = true
    · right
      rw [if_pos hp]
      rfl
    · left
      rw [if_neg hp]
      rfl

theorem linkUpNow_link (s : State) (n : Nat) (r : TrainResult) : ∃ tick, (linkUpNow s n r).link n = (s.link n).upFrom r tick := by
  obtain ⟨t, -, hl, h | h⟩ := linkUpNow_eq s n r
  · exact ⟨_, by rw [h, hl]⟩
  · exact ⟨_, by rw [h, link_of_links (event_links _ _ _ _ _), hl]⟩

theorem linkUpNow_boot (s : State) (n : Nat) (r : TrainResult) : (linkUpNow s n r).boot = s.boot := by
  obtain ⟨t, hb, -, h | h⟩ := linkUpNow_eq s n r
  · rw [h, hb]
  · rw [h, steady_boot (event_steady _ _ _ _ _), hb]

/-! LNK_CTL (R255). -/

/-- LNK_CTL of link n is an aligned word of its own, outside the persistent store, and no write of it is ignored. -/
theorem lnkCtl_plain (n : Fin 32) : (0x80000 + 0x10 * n.val) % 4 = 0 ∧ wpWord (0x80000 + 0x10 * n.val) = none ∧
    ∀ (s : State) (p : WinPort) (v : Word), ignoredWrite s p (0x80000 + 0x10 * n.val) v = false ∧
      applyWrite s p .good (0x80000 + 0x10 * n.val) v = writeLink s n v := by
  fin_cases n <;> exact ⟨rfl, rfl, fun _ _ _ => ⟨rfl, rfl⟩⟩

theorem wrRow_lnkCtl {s : State} {n : Fin 32} (p : WinPort) (v : Word) (hw : Writable s (0x80000 + 0x10 * n.val)) :
    ∃ t, wrRow s p (0x80000 + 0x10 * n.val) v = .next t ∧ t.link n = (writeLink s n v).link n := by
  obtain ⟨ha, hwp, hplain⟩ := lnkCtl_plain n
  obtain ⟨hi, happly⟩ := hplain s p v
  refine ⟨_, rfl, ?_⟩
  rw [← happly]
  exact congrArg (fun b : Body => sget Link.init b.links n.val) (winWrite_applies p v hw ha hwp hi)

theorem linkCtl_enabled {s : State} {n : Nat} (i : Nat) (he : (s.link n).enable = true) : linkCtl s n i = 1 ||| oneBit i := by
  rw [linkCtl, he]
  rfl

section
variable {s : State} {n : Nat}

/-- LNK_CTL of a link that stays enabled starts what its bits say (R255). -/
theorem writeLink_enabled {v : Word} (he : (s.link n).enable = true) (hv : bit v 0 = true) :
    ∃ t, t.link n = s.link n ∧ t.quarters = s.quarters ∧ t.tick = s.tick ∧ writeLink s n v =
      (let u := if bit v 1 then linkTrain t n else t
       if bit v 2 && (u.link n).state == .up then linkQuick u n else u) := by
  refine ⟨s.modLink n fun l => { l with enable := true }, ?_, rfl, rfl, ?_⟩
  · rw [link_modLink_same, ← he]
  · rw [writeLink, hv, he]
    simp

theorem writeLink_quick (he : (s.link n).enable = true) (hu : (s.link n).state = .up) : (writeLink s n 5).link n = (s.link n).retrained := by
  obtain ⟨t, hl, -, -, hw⟩ := writeLink_enabled (v := 5) he rfl
  have hquick : writeLink s n 5 = linkQuick t n := hw.trans (if_pos (by
    show (t.link n).state == .up
    rw [hl, hu]
    rfl))
  rw [hquick, linkQuick_link, hl]

theorem writeLink_train (he : (s.link n).enable = true) (hr : (s.quarter (linkHub n)).inReset = false) :
    (writeLink s n 3).link n = (s.link n).trainedFrom s.tick := by
  obtain ⟨t, hl, hq, htick, hw⟩ := writeLink_enabled (v := 3) he rfl
  have htrain : writeLink s n 3 = linkTrain t n := hw
  have hr' : (t.quarter (linkHub n)).inReset = false := by rwa [State.quarter, hq]
  rw [htrain, linkTrain_link (by rw [hl, he]) hr', hl, htick]

/-- ENABLE 0 (R255). -/
theorem writeLink_disable (s : State) (n : Nat) : ((writeLink s n 0).link n).enable = false ∧
    ((s.link n).enable = true → ((writeLink s n 0).link n).state = .disabled) := by
  have hdown : (linkDown (s.modLink n fun l => { l with enable := false }) n).link n = ({ s.link n with enable := false } : Link).lostNow := by
    rw [linkDown_link, link_modLink_same]
  cases he : (s.link n).enable
  · have hw : writeLink s n 0 = s.modLink n fun l => { l with enable := false } := by
      rw [writeLink, he]
      rfl
    rw [hw, link_modLink_same]
    exact ⟨rfl, fun h => by cases h⟩
  · have hw : writeLink s n 0 = (linkDown (s.modLink n fun l => { l with enable := false }) n).modLink n fun l => { l with state := .disabled } := by
      rw [writeLink, he]
      rfl
    rw [hw, link_modLink_same, hdown]
    exact ⟨rfl, fun _ => rfl⟩

/-- ENABLE 1 of a disabled link (R255, log 96). -/
theorem writeLink_enable (he : (s.link n).enable = false) (hr : (s.quarter (linkHub n)).inReset = false) :
    ((writeLink s n 1).link n).enable = true ∧ ((writeLink s n 1).link n).state = .training := by
  have hw : writeLink s n 1 = linkTrain ((s.modLink n fun l => { l with enable := true }).modLink n fun l => { l with state := .down }) n := by
    rw [writeLink, he]
    rfl
  have hen : (((s.modLink n fun l => { l with enable := true }).modLink n fun l => { l with state := .down }).link n).enable = true := by
    rw [link_modLink_same, link_modLink_same]
  rw [hw, linkTrain_link hen hr]
  exact ⟨hen, rfl⟩

end

end Sys2Proof.Machine
end

section
/-! SUPPORT. Frames of an edge link: what goes out, what comes in, and what both leave of the link (R248 to R251), and O38. -/

namespace Sys2Proof.Machine

/-! Control words (Table 7-12). -/

theorem ctl_seq {seq rx nak type marks vc n : Nat} (hr : rx < 2 ^ 12) (hk : nak < 2) (ht : type < 4) (hm : marks < 2 ^ 24) (hv : vc < 4)
    (hn : n < 2 ^ 11) :
    cSeq (BitVec.ofNat 64 (seq * 2 ^ 52 + rx * 2 ^ 40 + nak * 2 ^ 39 + type * 2 ^ 37 + marks * 2 ^ 13 + vc * 2 ^ 11 + n)) = BitVec.ofNat 12 seq := by
  refine BitVec.eq_of_toNat_eq ?_
  rw [cSeq, BitVec.extractLsb'_toNat, BitVec.toNat_ofNat, BitVec.toNat_ofNat, Nat.shiftRight_eq_div_pow]
  omega

theorem ctl_type {seq rx nak type marks vc n : Nat} (ht : type < 4) (hm : marks < 2 ^ 24) (hv : vc < 4) (hn : n < 2 ^ 11) :
    cType (BitVec.ofNat 64 (seq * 2 ^ 52 + rx * 2 ^ 40 + nak * 2 ^ 39 + type * 2 ^ 37 + marks * 2 ^ 13 + vc * 2 ^ 11 + n)) = type := by
  rw [cType, fld, BitVec.extractLsb'_toNat, BitVec.toNat_ofNat, Nat.shiftRight_eq_div_pow]
  omega

/-- A frame's CRC is over its data and its control word. -/
theorem frameCrc_mk (data : BitVec 2048) (ctl : BitVec 64) (crc : BitVec 32) : frameCrc ⟨data, ctl, crc⟩ = frameCrc ⟨data, ctl, 0⟩ := by
  simp only [frameCrc]

/-! Frames that go out. -/

/-- DATA frames of these SEQs have gone out of the link, which otherwise is as it was but for the credits and acknowledgements that they carry. -/
structure Sent (l l' : Link) (seqs : List (BitVec 12)) : Prop where
  state : l'.state = l.state
  txSeq : l'.txSeq = l.txSeq
  rxSeq : l'.rxSeq = l.rxSeq
  spent : l'.spent = l.spent
  held : l'.held = l.held
  resends : l'.resends = l.resends
  quickFails : l'.quickFails = l.quickFails
  out : ∃ fs, l'.out = l.out ++ fs ∧ fs.map (fun f => cSeq f.ctl) = seqs ∧ ∀ f ∈ fs, frameCrc f = f.crc ∧ cType f.ctl = 1

theorem Sent.refl (l : Link) : Sent l l [] := ⟨rfl, rfl, rfl, rfl, rfl, rfl, rfl, [], by simp⟩

theorem Sent.trans {l l' l'' : Link} {a b : List (BitVec 12)} (h : Sent l l' a) (k : Sent l' l'' b) : Sent l l'' (a ++ b) := by
  obtain ⟨fs, hout, hseq, hgood⟩ := h.out
  obtain ⟨gs, kout, kseq, kgood⟩ := k.out
  refine ⟨k.state.trans h.state, k.txSeq.trans h.txSeq, k.rxSeq.trans h.rxSeq, k.spent.trans h.spent, k.held.trans h.held,
    k.resends.trans h.resends, k.quickFails.trans h.quickFails, fs ++ gs, ?_, ?_, ?_⟩
  · rw [kout, hout, List.append_assoc]
  · rw [List.map_append, hseq, kseq]
  · exact fun f hf => (List.mem_append.1 hf).elim (hgood f) (kgood f)

/-- The VC of which a frame returns credits is one of the four. -/
theorem owedVc_lt (l : Link) : ((upto 4).find? fun v => decide (0 < sget 0 l.owed v)).getD 0 < 4 := by
  cases h : (upto 4).find? fun v => decide (0 < sget 0 l.owed v) with
  | none => decide
  | some v => exact List.mem_range.1 (List.mem_of_find?_eq_some h)

theorem emitFrame_sent (l : Link) (seq : BitVec 12) (data : BitVec 2048) (marks : BitVec 24) : Sent l (emitFrame l 1 seq data marks) [seq] := by
  have hv := owedVc_lt l
  unfold emitFrame
  extract_lets vc n ctl
  have hn : n < 2 ^ 11 := by
    have hle : n ≤ 2047 := Nat.min_le_left _ _
    omega
  have hseq : cSeq ctl = BitVec.ofNat 12 seq.toNat := ctl_seq l.rxSeq.isLt (b2n_lt_two l.nak) (by decide) marks.isLt hv hn
  have htype : cType ctl = 1 := ctl_type (by decide) marks.isLt hv hn
  refine ⟨rfl, rfl, rfl, rfl, rfl, rfl, rfl, _, rfl, ?_, fun f hf => ?_⟩
  · rw [List.map_singleton, hseq, BitVec.ofNat_toNat, BitVec.setWidth_eq]
  · rw [List.mem_singleton.1 hf]
    exact ⟨frameCrc_mk _ _ _, htype⟩

theorem sendFrame_sent (l : Link) (f : TxFrame) : Sent l (sendFrame l f) [f.seq] := by
  have h := emitFrame_sent l f.seq f.data f.marks
  unfold sendFrame
  dsimp only
  split
  · split
    · exact ⟨h.state, h.txSeq, h.rxSeq, h.spent, h.held, h.resends, h.quickFails, h.out⟩
    · exact h
  · exact h

theorem foldl_sendFrame_sent : ∀ (fs : List TxFrame) (l : Link), Sent l (fs.foldl sendFrame l) (fs.map TxFrame.seq)
  | [], l => Sent.refl l
  | f :: fs, l => (sendFrame_sent l f).trans (foldl_sendFrame_sent fs (sendFrame l f))

/-- Every unacknowledged frame goes out again, in order (R250). -/
theorem sendReplay_sent (l : Link) : Sent l (sendReplay l) (l.replay.map TxFrame.seq) := by
  have h := foldl_sendFrame_sent l.replay l
  exact ⟨h.state, h.txSeq, h.rxSeq, h.spent, h.held, h.resends, h.quickFails, h.out⟩

theorem sendReplay_seqs (l : Link) : (sendReplay l).replay.map TxFrame.seq = l.replay.map TxFrame.seq := by
  simp [sendReplay, Function.comp_def]

/-! Frames that come in. -/

/-- The link as far as an acknowledgement leaves it. -/
structure Keeps (l l' : Link) : Prop where
  state : l'.state = l.state
  txSeq : l'.txSeq = l.txSeq
  rxSeq : l'.rxSeq = l.rxSeq
  spent : l'.spent = l.spent
  held : l'.held = l.held

theorem resend_keeps (l : Link) (tick : Nat) : Keeps l (resend l tick) := by
  have h := sendReplay_sent l
  unfold resend
  split
  · exact ⟨rfl, rfl, rfl, rfl, rfl⟩
  · exact ⟨h.state, h.txSeq, h.rxSeq, h.spent, h.held⟩

theorem ackTo_keeps (l : Link) (ack : BitVec 12) (tick : Nat) : Keeps l (ackTo l ack tick) := by
  unfold ackTo
  split <;> exact ⟨rfl, rfl, rfl, rfl, rfl⟩

/-- The link with the credits of a frame returned (R249). -/
def Link.credited (l : Link) (c : BitVec 64) : Link := { l with spent := smod 0 l.spent (cCvc c) (· - cCredits c) }

/-- The link once it has taken a frame's ACK, credits and NAK (R249, R250). -/
def Link.answered (l : Link) (c : BitVec 64) (tick : Nat) : Link :=
  let x := (ackTo l (cAck c) tick).credited c
  if cNak c then resend x tick else x

theorem credited_spent (l : Link) (c : BitVec 64) : sget 0 (l.credited c).spent (cCvc c) = sget 0 l.spent (cCvc c) - cCredits c :=
  sget_smod_same 0 l.spent (cCvc c) (· - cCredits c)

theorem credited_keeps {l l' : Link} (h : Keeps l l') (c : BitVec 64) : Keeps (l.credited c) (l'.credited c) :=
  ⟨h.state, h.txSeq, h.rxSeq, congrArg (fun m => smod 0 m (cCvc c) (· - cCredits c)) h.spent, h.held⟩

theorem answered_keeps (l : Link) (c : BitVec 64) (tick : Nat) : Keeps (l.credited c) (l.answered c tick) := by
  have hx := credited_keeps (ackTo_keeps l (cAck c) tick) c
  unfold Link.answered
  dsimp only
  split
  · have hr := resend_keeps ((ackTo l (cAck c) tick).credited c) tick
    exact ⟨hr.state.trans hx.state, hr.txSeq.trans hx.txSeq, hr.rxSeq.trans hx.rxSeq, hr.spent.trans hx.spent, hr.held.trans hx.held⟩
  · exact hx

/-- What the flits of a DATA frame leave of the link. -/
def Link.line (l : Link) : LinkState × BitVec 12 × BitVec 12 × Bool × Bool := (l.state, l.txSeq, l.rxSeq, l.nak, l.ackOwed)

theorem line_modLink {s : State} {n : Nat} {f : Link → Link} (h : ∀ l, (f l).line = l.line) : ((s.modLink n f).link n).line = (s.link n).line := by
  rw [link_modLink_same, h]

theorem setSeen_links (s : State) (v : Bool) : (setSeen s v).links = s.links := rfl

theorem linkArrive_links (s : State) (n : Nat) (hdr : Row) (data : List (Row × Bool)) (vc : Nat) :
    (linkArrive s n hdr data vc).links = s.links := rfl

theorem takeFlit_line (s : State) (n : Nat) (m : BitVec 6) (d : Row) : ((takeFlit s n m d).link n).line = (s.link n).line := by
  unfold takeFlit
  split
  · rfl
  · extract_lets vc part
    clear_value part
    cases part with
    | none => exact line_modLink fun _ => rfl
    | some x =>
      dsimp only
      generalize ht : (setSeen s (hCairn x.hdr)).modLink n (fun l => { l with held := smod 0 l.held vc (· + 1) }) = t
      have hline : (t.link n).line = (s.link n).line := by
        rw [← ht]
        rw [← link_of_links (setSeen_links s (hCairn x.hdr)) n]
        exact line_modLink fun _ => rfl
      rw [← hline]
      split
      · rw [link_of_links (linkArrive_links _ n x.hdr x.data vc)]
        exact line_modLink fun _ => rfl
      · exact line_modLink fun _ => rfl

/-- A DATA frame is taken as the next, repeated, or left for a resend; the link stays UP and its own SEQ stands (R250). -/
theorem takeData_line (s : State) (n : Nat) (f : LinkFrame) :
    ((takeData s n f).link n).state = (s.link n).state ∧ ((takeData s n f).link n).txSeq = (s.link n).txSeq ∧
      (cSeq f.ctl = (s.link n).rxSeq → rxRoom (s.link n) f.ctl = true →
        ((takeData s n f).link n).rxSeq = (s.link n).rxSeq + 1 ∧ ((takeData s n f).link n).nak = false ∧
          ((takeData s n f).link n).ackOwed = true) := by
  unfold takeData
  extract_lets l c t
  by_cases hseq : cSeq c = l.rxSeq
  · rw [if_pos hseq]
    by_cases hroom : rxRoom l c = true
    · rw [if_neg (by simp [hroom])]
      have hline : ((forEach (upto 4) t fun s k => takeFlit s n (cMark c k) (f.data.extractLsb' (512 * k) 512)).link n).line =
          (l.state, l.txSeq, l.rxSeq + 1, false, true) :=
        (forEach_keeps (fun s : State => (s.link n).line) _ (fun s k => takeFlit_line s n _ _) _ t).trans (congrArg Link.line (link_modLink_same s n _))
      simp only [Link.line, Prod.mk.injEq] at hline
      obtain ⟨hst, htx, hrx, hnak, hack⟩ := hline
      exact ⟨hst, htx, fun _ _ => ⟨hrx, hnak, hack⟩⟩
    · rw [if_pos (by simp [hroom])]
      exact ⟨rfl, rfl, fun _ h => absurd h hroom⟩
  · rw [if_neg hseq]
    refine ⟨?_, ?_, fun h => absurd h hseq⟩
    all_goals split <;> rw [link_modLink_same]

end Sys2Proof.Machine
end

section
/-! SUPPORT. The rows of the edge links, clause by clause (R248 to R253, R255), and O38. -/

namespace Sys2Proof.Machine

theorem spill_modLink_changes {w : Nat} (s : State) (key : Nat) (v : BitVec w) (k n : Nat) (f : Link → Link) :
    let t := (s.spill key v k).modLink n f
    t = { s with links := t.links, full := t.full } := rfl

section
variable {s : State} {n : Fin 32}

/-! Frames. -/

theorem exec_frame_down {f : LinkFrame} (hu : (s.link n).state ≠ .up) : exec (.linkFrameReceive n f) s = .next s := by
  show execLinkFrameReceive n f s = _
  rw [execLinkFrameReceive, if_pos hu]

/-- The link when a frame comes with a wrong CRC (R250). -/
def Link.frameBad (l : Link) : Link := { l with crcErr := satInc l.crcErr, gap := true, nak := true }

theorem exec_frame_bad {f : LinkFrame} (hu : (s.link n).state = .up) (hc : frameCrc f ≠ f.crc) :
    exec (.linkFrameReceive n f) s = .next ((s.spill (rcKey (lnkErr n) 0) (s.link n).crcErr).modLink n Link.frameBad) := by
  show execLinkFrameReceive n f s = _
  rw [execLinkFrameReceive, if_neg (by simp [hu]), if_pos hc]
  rfl

theorem exec_frame_good {f : LinkFrame} (hu : (s.link n).state = .up) (hc : frameCrc f = f.crc) (ht : cType f.ctl = 0 ∨ cType f.ctl = 1) :
    exec (.linkFrameReceive n f) s = .next (
      let t := s.modLink n fun l => l.answered f.ctl s.tick
      if cType f.ctl = 1 then takeData t n f else t) := by
  show execLinkFrameReceive n f s = _
  rw [execLinkFrameReceive, if_neg (by simp [hu]), if_neg (by simp [hc]), if_pos ht]
  rfl

/-! Resends and retrains. -/

theorem exec_resend (hu : (s.link n).state = .up) (hne : (s.link n).replay ≠ []) (hd : (s.link n).ackTick + 1600 ≤ s.tick) :
    exec (.linkResendTimeout n) s = .next (s.modLink n fun l => resend l s.tick) := by
  show execLinkResendTimeout n s = _
  exact congrArg Host.Outcome.next (if_pos ⟨hu, hne, hd⟩)

theorem exec_resend_early (hd : s.tick < (s.link n).ackTick + 1600) : exec (.linkResendTimeout n) s = .next s := by
  show execLinkResendTimeout n s = _
  exact congrArg Host.Outcome.next (if_neg fun ⟨_, _, h⟩ => absurd h (Nat.not_le.2 hd))

theorem resend_of_ne_nil {l : Link} (tick : Nat) (hne : l.replay ≠ []) :
    resend l tick = { sendReplay l with resends := l.resends + 1, ackTick := tick } := if_neg (by simpa using hne)

/-- The link as its quick retrain ends well, before its frames go out again (R251). -/
def Link.resumed (l : Link) (tick : Nat) : Link := { l with state := .up, quick := false, quickFails := 0, resends := 0, ackTick := tick }

theorem exec_quickRetrainEnd (hs : (s.link n).state = .retraining) (ok : Bool) :
    exec (.quickRetrainEnd n ok) s = .next (if ok then s.modLink n fun l => sendReplay (l.resumed s.tick)
      else if 3 ≤ (s.link n).quickFails + 1 then linkTrain s n
      else linkQuick (s.modLink n fun l => { l with quickFails := l.quickFails + 1 }) n) := by
  show execQuickRetrainEnd n ok s = _
  exact congrArg Host.Outcome.next (if_neg (by simp [hs]))

/-! Training. -/

theorem exec_noPartner (hs : (s.link n).state = .training) (hd : (s.link n).detected = false) (hdue : (s.link n).trainTick + 4000000 ≤ s.tick)
    (hb : s.boot.phase ≠ .bringup) : exec (.noPartner n) s = .next (s.modLink n fun l => { l with state := .noPartner, train := false }) := by
  have hms : 5 * msTicks = 4000000 := by decide
  show execNoPartner n s = _
  unfold execNoPartner
  dsimp only
  rw [hms, if_pos ⟨hs, by rw [hd]; rfl, hdue⟩]
  exact congrArg Host.Outcome.next (bootGo_stopped hb)

theorem exec_trainingEnd (hs : (s.link n).state = .training) (hd : (s.link n).detected = true) (hb : s.boot.phase ≠ .bringup) (r : TrainResult) :
    exec (.trainingEnd n r) s =
      .next (if r.ok && decide (r.sparesTx.toNat ≤ 16 ∧ r.sparesRx.toNat ≤ 16) then linkUpNow s n r else linkDown s n) := by
  have hboot : (if r.ok && decide (r.sparesTx.toNat ≤ 16 ∧ r.sparesRx.toNat ≤ 16) then linkUpNow s n r else linkDown s n).boot = s.boot := by
    split
    · exact linkUpNow_boot s n r
    · exact linkDown_boot s n
  show execTrainingEnd n r s = _
  refine congrArg Host.Outcome.next ((if_pos ⟨hs, hd⟩).trans (bootGo_stopped ?_))
  rwa [hboot]

end

/-- Settles O38: each row of the edge links leaves the link as its clause says. -/
theorem linksTransferRetrainAndTrain : Obligations.LinksTransferRetrainAndTrain := by
  unfold Obligations.LinksTransferRetrainAndTrain
  refine ⟨?frame, ?resend, ?quickRetrain, ?quickEnd, ?ctl, ?enable, ?training⟩
  case frame =>
    refine fun s n f => ⟨exec_frame_down,
      fun hu hc => ⟨_, exec_frame_bad hu hc, spill_modLink_changes _ _ _ _ _ _, fun m hm => ?_, ?_⟩,
      fun hu hc ht => ⟨_, exec_frame_good hu hc ht, ?_⟩⟩
    · rw [link_modLink_other _ _ hm, link_spill]
    · rw [link_modLink_same, link_spill]
      rfl
    · have hkeep := answered_keeps (s.link n) f.ctl s.tick
      have hlink : (s.modLink n fun l => l.answered f.ctl s.tick).link n = (s.link n).answered f.ctl s.tick := link_modLink_same s n _
      have hfab : (s.modLink n fun l => l.answered f.ctl s.tick).fab = s.fab := rfl
      dsimp only
      generalize (s.modLink n fun l => l.answered f.ctl s.tick) = t at hlink hfab ⊢
      rw [← hlink] at hkeep
      rcases ht with ht | ht
      · rw [if_neg (by omega)]
        refine ⟨hkeep.state.trans hu, hkeep.txSeq, fun _ => ⟨hkeep.rxSeq, hfab, ?_⟩, fun h => by omega⟩
        rw [hkeep.spent]
        exact credited_spent (s.link n) f.ctl
      · rw [if_pos ht]
        obtain ⟨hst, htx, hnext⟩ := takeData_line t n f
        refine ⟨hst.trans (hkeep.state.trans hu), htx.trans hkeep.txSeq, fun h => by omega, fun _ hseq hroom => ?_⟩
        have hroom' : rxRoom (t.link n) f.ctl = true := by
          rw [← hroom]
          unfold rxRoom
          rw [hkeep.held]
          rfl
        obtain ⟨hrx, hnak, hack⟩ := hnext (hseq.trans hkeep.rxSeq.symm) hroom'
        exact ⟨hrx.trans (congrArg (· + 1) hkeep.rxSeq), hnak, hack⟩
  case resend =>
    refine fun s n hu hne => ⟨fun hd => ⟨_, exec_resend hu hne hd, ?_⟩, exec_resend_early⟩
    rw [link_modLink_same, resend_of_ne_nil _ hne]
    exact ⟨rfl, rfl, sendReplay_seqs _, (sendReplay_sent (s.link n)).out⟩
  case quickRetrain =>
    intro s n hu h8
    refine ⟨linkQuick s n, congrArg Host.Outcome.next (if_pos ⟨hu, h8⟩), ?_⟩
    rw [linkQuick_link]
    exact ⟨rfl, rfl, rfl⟩
  case quickEnd =>
    refine fun s n hs => ⟨⟨_, exec_quickRetrainEnd hs true, ?_⟩, ⟨_, exec_quickRetrainEnd hs false, fun hf => ?_, fun hf he hr => ?_⟩⟩
    · rw [if_pos rfl, link_modLink_same]
      have hsent := sendReplay_sent ((s.link n).resumed s.tick)
      exact ⟨hsent.state, hsent.quickFails, hsent.resends, hsent.out⟩
    · rw [if_neg (by decide), if_neg (by omega), linkQuick_link, link_modLink_same]
      exact ⟨rfl, rfl⟩
    · rw [if_neg (by decide), if_pos (by omega), linkTrain_link he hr]
      rfl
  case ctl =>
    refine fun s p n hw he => ⟨fun hu => ?_, fun hr => ?_⟩
    · obtain ⟨t, hexec, hlink⟩ := wrRow_lnkCtl p (linkCtl s n 2) hw
      rw [linkCtl_enabled 2 he, show (1 ||| oneBit 2 : Word) = 5 from rfl, writeLink_quick he hu] at hlink
      refine ⟨t, hexec, ?_⟩
      rw [hlink]
      exact ⟨rfl, rfl⟩
    · obtain ⟨t, hexec, hlink⟩ := wrRow_lnkCtl p (linkCtl s n 1) hw
      rw [linkCtl_enabled 1 he, show (1 ||| oneBit 1 : Word) = 3 from rfl, writeLink_train he hr] at hlink
      refine ⟨t, hexec, ?_⟩
      rw [hlink]
      exact ⟨rfl, rfl, rfl, rfl⟩
  case enable =>
    refine fun s p n hw => ⟨?_, fun he hr => ?_⟩
    · obtain ⟨t, hexec, hlink⟩ := wrRow_lnkCtl p 0 hw
      refine ⟨t, hexec, ?_⟩
      rw [hlink]
      exact writeLink_disable s n
    · obtain ⟨t, hexec, hlink⟩ := wrRow_lnkCtl p 1 hw
      refine ⟨t, hexec, ?_⟩
      rw [hlink]
      exact writeLink_enable he hr
  case training =>
    intro s n hs
    refine ⟨congrArg Host.Outcome.next (if_pos hs), exec_noPartner hs, fun r hd hb => ⟨_, exec_trainingEnd hs hd hb r, ?_, ?_⟩⟩
    · rintro ⟨hok, htx, hrx⟩
      rw [if_pos (by simp [hok, htx, hrx])]
      obtain ⟨tick, hl⟩ := linkUpNow_link s n r
      rw [hl]
      exact ⟨rfl, rfl, rfl, rfl, rfl, rfl⟩
    · intro hbad
      rw [if_neg (by
        rw [Bool.and_eq_true, decide_eq_true_eq]
        rintro ⟨hok, htx, hrx⟩
        rcases hbad with hbad | hbad | hbad
        · rw [hok] at hbad
          cases hbad
        · omega
        · omega), linkDown_link]
      rfl

end Sys2Proof.Machine
end

section
/-! SUPPORT. The piton engine: taking an operation, notifications, errors, chains and completion (R236, R259 to R269), and O52. -/

namespace Sys2Proof.Machine

/-! Pitons and engines by number. -/

@[simp] theorem piton_modPiton_same (s : State) (i : Nat) (f : Piton → Piton) : (s.modPiton i f).piton i = f (s.piton i) :=
  sget_smod_same _ _ _ _

theorem piton_modPiton_other (s : State) (f : Piton → Piton) {i j : Nat} (h : j ≠ i) : (s.modPiton i f).piton j = s.piton j :=
  sget_smod_other _ _ _ _ _ h

theorem piton_of_pitons {s t : State} (h : t.pitons = s.pitons) (i : Nat) : t.piton i = s.piton i := congrArg (sget Piton.init · i) h

theorem pitQ_modPitQ_other (s : State) (f : PitQ → PitQ) {q k : Nat} (h : k ≠ q) : (s.modPitQ q f).pitQ k = s.pitQ k :=
  sget_smod_other _ _ _ _ _ h

@[simp] theorem pitQ_spill {w : Nat} (s : State) (q k : Nat) (x : BitVec w) (n : Nat) : (s.spill k x n).pitQ q = s.pitQ q := rfl

/-! Taking an operation (R259, R260). -/

/-- The engine of hub q has taken an operation from its inbox. -/
def opTaken (s : State) (q : Nat) (m : PitMsg) : State := s.modPitQ q fun p => { p with inbox := p.inbox.erase m }

theorem takeOp_applies {s : State} {q op : Nat} {m : PitMsg} (f : State → Nat → PitMsg → State) (h : TakesOp s q op m) :
    takeOp s q op f = f (opTaken s q m) m.piton.toNat m := by
  obtain ⟨hfirst, hop, hgood⟩ := h
  rw [takeOp, hfirst]
  dsimp only
  rw [if_pos (by simp [hop]), hgood]
  exact if_neg Bool.false_ne_true

/-- The operation is taken and counted in BAD_OP (R259). -/
def opCounted (s : State) (q : Nat) (m : PitMsg) : State :=
  ((opTaken s q m).spill (rcKey (pitErrOff q) 2) ((opTaken s q m).pitQ q).badOp).modPitQ q fun p => { p with badOp := satInc p.badOp }

theorem opCounted_changes (s : State) (q : Nat) (m : PitMsg) : ∃ x n, opCounted s q m = { s with pitq := x, full := n } := ⟨_, _, rfl⟩

theorem pitQ_opCounted_same (s : State) (q : Nat) (m : PitMsg) :
    (opCounted s q m).pitQ q = { s.pitQ q with badOp := satInc (s.pitQ q).badOp, inbox := (s.pitQ q).inbox.erase m } := by
  have htaken : (opTaken s q m).pitQ q = { s.pitQ q with inbox := (s.pitQ q).inbox.erase m } := pitQ_modPitQ_same _ _ _
  rw [opCounted, pitQ_modPitQ_same, pitQ_spill, htaken]

theorem pitQ_opCounted_other (s : State) (m : PitMsg) {q k : Nat} (h : k ≠ q) : (opCounted s q m).pitQ k = s.pitQ k := by
  rw [opCounted, pitQ_modPitQ_other _ _ h, pitQ_spill]
  exact pitQ_modPitQ_other s _ h

/-- A malformed operation is counted, whatever the row would do with a good one (R259). -/
theorem takeOp_malformed {s : State} {q op : Nat} {m : PitMsg} (f : State → Nat → PitMsg → State)
    (hfirst : firstOp (s.pitQ q).inbox = some m) (hbad : pitBad m = true) (hop : m.op.toNat = op ∨ op = 0 ∧ 6 ≤ m.op.toNat) :
    takeOp s q op f = opCounted s q m := by
  rw [takeOp, hfirst]
  dsimp only
  rw [if_pos (by simpa using hop), if_pos hbad]
  rfl

/-- Settles O52: each row's malformed operation is counted in BAD_OP and does nothing else. -/
theorem malformedPitonOperationIsCounted : Obligations.MalformedPitonOperationIsCounted := by
  intro s q m hfirst hbad counted
  have hcounted (c : Instr) (op : Nat) (f : State → Nat → PitMsg → State) (hexec : exec c s = .next (takeOp s q op f))
      (hop : m.op.toNat = op ∨ op = 0 ∧ 6 ≤ m.op.toNat) : counted c := by
    rw [takeOp_malformed f hfirst hbad hop] at hexec
    obtain ⟨x, n, hchanges⟩ := opCounted_changes s q m
    exact ⟨_, hexec, by rw [hchanges], pitQ_opCounted_same s q m, fun k hk => pitQ_opCounted_other s m hk⟩
  refine ⟨fun h => hcounted _ 0 _ rfl ?_, fun h => hcounted _ 1 _ rfl ?_, fun h => hcounted _ 2 _ rfl ?_, fun h => hcounted _ 3 _ rfl ?_,
    fun h => hcounted _ 4 _ rfl ?_, fun h => hcounted _ 5 _ rfl ?_⟩
  · exact h.imp (fun h => by rw [h]; rfl) fun h => ⟨rfl, h⟩
  all_goals exact .inl (by rw [h]; rfl)

end Sys2Proof.Machine
end

section
/-! SUPPORT. What the piton engine sends: notifications, chained arrivals and errors, and what they leave as it was (R262, R265 to R269). -/

namespace Sys2Proof.Machine

/-! Packets at the engine's injector (R224, R267). -/

/-- The packets that wait at the injector of the engine of piton i. -/
def atInjector (s : State) (i : Nat) : List (Row × List (Row × Bool)) := sget [] s.fab.localq (8 * pitonQuarter i + 7)

theorem atInjector_localSend (s : State) (i : Nat) (h : Row) (d : List (Row × Bool)) :
    atInjector (localSend s (pitonQuarter i) 7 h d) i = atInjector s i ++ [(h, d)] :=
  sget_smod_same [] s.fab.localq _ (· ++ [(h, d)])

/-- What the front end writes to the host waits at another injector. -/
theorem atInjector_hostWrite (s : State) (i addr n v : Nat) : atInjector (hostWrite s addr n v) i = atInjector s i :=
  sget_smod_other [] s.fab.localq (8 * 0 + 1) (· ++ [_]) _ (by omega)

theorem atInjector_of_fab {s t : State} (h : t.fab = s.fab) (i : Nat) : atInjector t i = atInjector s i := by
  rw [atInjector, h, atInjector]

theorem atInjector_evtWrite (s : State) (i : Nat) (e : Event) : atInjector (evtWrite s e) i = atInjector s i := by
  unfold evtWrite
  extract_lets r t u
  have hu : atInjector u i = atInjector s i := atInjector_hostWrite s i _ _ _
  split
  · rw [atInjector_hostWrite, hu]
  · exact hu

theorem atInjector_postEvent (s : State) (i : Nat) (e : Event) : atInjector (postEvent s e) i = atInjector s i := by
  unfold postEvent
  extract_lets t
  split
  · rfl
  split
  · rfl
  · exact atInjector_evtWrite t i e

theorem atInjector_event (s : State) (i code : Nat) (q : Option Nat) (arg : Nat) (d : BitVec 128) :
    atInjector (event s code q arg d) i = atInjector s i := atInjector_postEvent s i _

theorem event_pitons (s : State) (code : Nat) (q : Option Nat) (arg : Nat) (d : BitVec 128) : (event s code q arg d).pitons = s.pitons := by
  obtain ⟨e, f, l, h⟩ := postEvent_changes s ⟨BitVec.ofNat 16 code, q.map (BitVec.ofNat 2), BitVec.ofNat 32 arg, s.clk.count, d⟩
  rw [event, h]

/-! Notifications (R267). -/

/-- From s to t the engine of piton i may have sent packets, and nothing else has changed but the count of free values. -/
def OnlySent (s t : State) : Prop := ∃ f n, t = { s with fab := f, free := n }

theorem OnlySent.trans {s t u : State} (h : OnlySent s t) (h' : OnlySent t u) : OnlySent s u := by
  obtain ⟨f, n, rfl⟩ := h
  obtain ⟨g, k, rfl⟩ := h'
  exact ⟨g, k, rfl⟩

theorem OnlySent.clk {s t : State} (h : OnlySent s t) : t.clk = s.clk := by
  obtain ⟨f, n, rfl⟩ := h
  rfl

theorem OnlySent.pitQ {s t : State} (h : OnlySent s t) (q : Nat) : t.pitQ q = s.pitQ q := by
  obtain ⟨f, n, rfl⟩ := h
  rfl

theorem OnlySent.piton {s t : State} (h : OnlySent s t) (i : Nat) : t.piton i = s.piton i := by
  obtain ⟨f, n, rfl⟩ := h
  rfl

/-- A notification tells of the piton's record and the drone time alone. -/
theorem noteOf_congr {s s' : State} {i st : Nat} {p p' : Piton} {w : Waiter} {n : Row × List (Row × Bool)} (h : NoteOf s i p st w n)
    (hc : s'.clk = s.clk) (hp : ∀ tag time, pitonRecord i p' st tag time = pitonRecord i p st tag time) : NoteOf s' i p' st w n := by
  simpa only [NoteOf, hp, hc] using h

theorem notified_congr {s s' t t' : State} {i st : Nat} {p p' : Piton} {ws : List Waiter} (h : Notified s t i p ws st)
    (hs : atInjector s' i = atInjector s i) (ht : atInjector t' i = atInjector t i) (hc : s'.clk = s.clk)
    (hp : ∀ tag time, pitonRecord i p' st tag time = pitonRecord i p st tag time) : Notified s' t' i p' ws st := by
  obtain ⟨ns, hsent, hnotes⟩ := h
  exact ⟨ns, (ht.trans hsent).trans (congrArg (· ++ ns) hs.symm), hnotes.imp fun w n hn => noteOf_congr hn hc hp⟩

theorem notified_nil (s : State) (i st : Nat) (p : Piton) : Notified s s i p [] st := ⟨[], (List.append_nil _).symm, .nil⟩

theorem notified_append {s t u : State} {i st : Nat} {p : Piton} {ws ws' : List Waiter} (hc : t.clk = s.clk)
    (h : Notified s t i p ws st) (h' : Notified t u i p ws' st) : Notified s u i p (ws ++ ws') st := by
  obtain ⟨ns, hsent, hnotes⟩ := h
  obtain ⟨ns', hsent', hnotes'⟩ := h'
  refine ⟨ns ++ ns', by rw [hsent', hsent, List.append_assoc], ?_⟩
  rw [List.filter_append]
  exact List.rel_append hnotes (hnotes'.imp fun w n hn => noteOf_congr hn hc.symm fun _ _ => rfl)

/-- One packet sent to a waiter that asks for one is its notification. -/
theorem notified_one {s t : State} {i st : Nat} {p : Piton} {w : Waiter} {n : Row × List (Row × Bool)} (hw : w.mode ≠ 3)
    (hsent : atInjector t i = atInjector s i ++ [n]) (hn : NoteOf s i p st w n) : Notified s t i p [w] st :=
  ⟨[n], hsent, by rw [List.filter_cons_of_pos (by simpa using hw)]; exact .cons hn .nil⟩

theorem sendNote_onlySent (s : State) (i : Nat) (w : Waiter) (st : Nat) : OnlySent s (sendNote s i w st) := by
  unfold sendNote
  dsimp only
  split
  · exact ⟨_, _, rfl⟩
  split
  · exact ⟨_, _, rfl⟩
  split
  · exact ⟨_, _, rfl⟩
  · exact ⟨_, _, rfl⟩

/-- A waiter is notified in the form that its mode asks for; mode 3 asks for none. -/
theorem sendNote_notified (s : State) (i : Nat) (w : Waiter) (st : Nat) : Notified s (sendNote s i w st) i (s.piton i) [w] st := by
  unfold sendNote
  dsimp only
  by_cases h0 : w.mode = 0
  · rw [if_pos h0]
    exact notified_one (by rw [h0]; decide) (atInjector_localSend s i _ _) (.inl ⟨h0, rfl⟩)
  rw [if_neg h0]
  by_cases h1 : w.mode = 1
  · rw [if_pos h1]
    exact notified_one (by rw [h1]; decide) (atInjector_localSend _ i _ _) (.inr (.inl ⟨h1, _, rfl⟩))
  rw [if_neg h1]
  by_cases h2 : w.mode = 2
  · rw [if_pos h2]
    exact notified_one (by rw [h2]; decide) (atInjector_localSend s i _ _) (.inr (.inr ⟨h2, rfl⟩))
  rw [if_neg h2]
  have h3 : w.mode = 3 := by
    revert h0 h1 h2
    generalize w.mode = m
    revert m
    decide
  exact ⟨[], (List.append_nil _).symm, by rw [List.filter_cons_of_neg (by simp [h3])]; exact .nil⟩

/-- Waiters are notified in their order. -/
theorem sendNotes_notified (i st : Nat) : ∀ (ws : List Waiter) (s : State),
    let t := forEach ws s fun s w => sendNote s i w st
    OnlySent s t ∧ Notified s t i (s.piton i) ws st
  | [], s => ⟨⟨_, _, rfl⟩, notified_nil s i st _⟩
  | w :: ws, s => by
    have hfirst := sendNote_onlySent s i w st
    obtain ⟨hrest, hnotes⟩ := sendNotes_notified i st ws (sendNote s i w st)
    rw [hfirst.piton] at hnotes
    exact ⟨hfirst.trans hrest, notified_append hfirst.clk (sendNote_notified s i w st) hnotes⟩

theorem release_changes (s : State) (i st : Nat) :
    ∃ t, OnlySent s t ∧ release s i st = t.modPiton i fun p => { p with waiters := [] } :=
  ⟨_, (sendNotes_notified i st (s.piton i).waiters s).1, rfl⟩

theorem piton_release_same (s : State) (i st : Nat) : (release s i st).piton i = { s.piton i with waiters := [] } := by
  obtain ⟨t, hsent, h⟩ := release_changes s i st
  rw [h, piton_modPiton_same, hsent.piton]

theorem piton_release_other (s : State) (st : Nat) {i j : Nat} (h : j ≠ i) : (release s i st).piton j = s.piton j := by
  obtain ⟨t, hsent, ht⟩ := release_changes s i st
  rw [ht, piton_modPiton_other _ _ h, hsent.piton]

theorem release_notified (s : State) (i st : Nat) : Notified s (release s i st) i (s.piton i) (s.piton i).waiters st :=
  (sendNotes_notified i st (s.piton i).waiters s).2

/-! Chains (R265). -/

/-- An arrival that sets out leaves pitons and injectors as they are. -/
theorem issueArrival_leaves (s : State) (r i n : Nat) (proxy last : Bool) (total : Word) (by_ : Option Nat) (fq : BitVec 4) :
    (issueArrival s r i n proxy last total by_ fq).pitons = s.pitons ∧
      (issueArrival s r i n proxy last total by_ fq).fab.localq = s.fab.localq := by
  unfold issueArrival pitDeposit
  dsimp only
  repeat' split
  all_goals exact ⟨rfl, rfl⟩

theorem piton_fireChain (s : State) (i : Nat) (by_ : Option Nat) :
    (fireChain s i by_).piton i = { s.piton i with fired := (s.piton i).chained || (s.piton i).fired } := by
  unfold fireChain
  dsimp only
  split
  case isTrue h =>
    rw [Bool.and_eq_true] at h
    rw [piton_of_pitons (issueArrival_leaves _ _ _ _ _ _ _ _ _).1, piton_modPiton_same, h.1, Bool.true_or]
  case isFalse h =>
    have hf : ((s.piton i).chained || (s.piton i).fired) = (s.piton i).fired := by
      revert h
      cases (s.piton i).chained <;> cases (s.piton i).fired <;> decide
    rw [hf]

theorem atInjector_fireChain (s : State) (i : Nat) (by_ : Option Nat) (j : Nat) : atInjector (fireChain s i by_) j = atInjector s j := by
  unfold fireChain
  dsimp only
  split
  · rw [atInjector, (issueArrival_leaves _ _ _ _ _ _ _ _ _).2]
    rfl
  · rfl

/-! Errors (R269). -/

/-- The piton in OVERRUN with a cause, before its waiters are told. -/
def Piton.inError (p : Piton) (c : BitVec 2) : Piton := { p with overrun := true, cause := c }

theorem spill_modPitQ_leaves {w : Nat} (s : State) (q : Nat) (f : PitQ → PitQ) (k : Nat) (v : BitVec w) (n : Nat) :
    ((s.spill k v n).modPitQ q f).pitons = s.pitons ∧ ((s.spill k v n).modPitQ q f).fab = s.fab := ⟨rfl, rfl⟩

/-- The engine counts the error and captures the first; that tells the host, and no waiter. -/
theorem pitError_changes {s : State} {i : Nat} (c : BitVec 2) (h : (s.piton i).overrun = false) :
    let t := release (s.modPiton i (·.inError c)) i 2
    (pitError s i c).pitons = t.pitons ∧ atInjector (pitError s i c) i = atInjector t i := by
  unfold pitError
  rw [if_neg (by rw [h]; decide)]
  extract_lets t q r first u v
  obtain ⟨hpitons, hfab⟩ : u.pitons = r.pitons ∧ u.fab = r.fab := spill_modPitQ_leaves r q _ _ _ 1
  have hv : v.pitons = t.pitons ∧ atInjector v i = atInjector t i :=
    ⟨(u.catchFirst_pitons _ _).trans hpitons, atInjector_of_fab ((u.catchFirst_fab _ _).trans hfab) i⟩
  split
  · rw [event_pitons, atInjector_event]
    exact hv
  · exact hv

theorem piton_pitError {s : State} {i : Nat} (c : BitVec 2) (h : (s.piton i).overrun = false) :
    (pitError s i c).piton i = { (s.piton i).inError c with waiters := [] } := by
  rw [piton_of_pitons (pitError_changes c h).1, piton_release_same, piton_modPiton_same]

theorem pitError_notified {s : State} {i : Nat} (c : BitVec 2) (h : (s.piton i).overrun = false) :
    Notified s (pitError s i c) i ((s.piton i).inError c) (s.piton i).waiters 2 := by
  have hnotes := release_notified (s.modPiton i (·.inError c)) i 2
  rw [piton_modPiton_same] at hnotes
  exact notified_congr hnotes rfl (pitError_changes c h).2 rfl fun _ _ => rfl

/-! Completion (R262). -/

section
variable {s : State} {i : Nat}

theorem pitCheck_open (by_ : Option Nat) (h : (s.piton i).tgtValid = false ∨ (s.piton i).count.toNat < (s.piton i).target.toNat) :
    pitCheck s i by_ = s := by
  unfold pitCheck
  dsimp only
  split
  case isFalse => rfl
  case isTrue hopen =>
    simp only [Bool.and_eq_true, Bool.not_eq_true'] at hopen
    obtain ⟨⟨hvalid, -⟩, -⟩ := hopen
    have hlt := h.resolve_left (by rw [hvalid]; decide)
    rw [if_neg (fun he => by rw [he] at hlt; omega), if_neg (by omega)]

theorem pitCheck_overrun (by_ : Option Nat) (h : (s.piton i).overrun = true) : pitCheck s i by_ = s := by
  unfold pitCheck
  dsimp only
  exact if_neg (by simp [h])

variable (hv : (s.piton i).tgtValid = true) (hd : (s.piton i).done = false) (ho : (s.piton i).overrun = false)
include hv hd ho

/-- At its target a piton is DONE, its waiters are told COMPLETE, and its chain fires. -/
theorem pitCheck_completes (by_ : Option Nat) (h : (s.piton i).count = (s.piton i).target) :
    (pitCheck s i by_).piton i =
        { s.piton i with done := true, waiters := [], fired := (s.piton i).chained || (s.piton i).fired } ∧
      Notified s (pitCheck s i by_) i { s.piton i with done := true } (s.piton i).waiters 0 := by
  have heq : pitCheck s i by_ = fireChain (release (s.modPiton i fun p => { p with done := true }) i 0) i by_ := by
    unfold pitCheck
    dsimp only
    rw [if_pos (by rw [hv, hd, ho]; rfl), if_pos h]
  rw [heq]
  constructor
  · rw [piton_fireChain, piton_release_same, piton_modPiton_same]
  · have hnotes := release_notified (s.modPiton i fun p => { p with done := true }) i 0
    rw [piton_modPiton_same] at hnotes
    exact notified_congr hnotes rfl (atInjector_fireChain _ _ _ _) rfl fun _ _ => rfl

theorem pitCheck_exceeds (by_ : Option Nat) (h : (s.piton i).target.toNat < (s.piton i).count.toNat) : pitCheck s i by_ = pitError s i 1 := by
  unfold pitCheck
  dsimp only
  rw [if_pos (by rw [hv, hd, ho]; rfl), if_neg (fun he => by rw [he] at h; omega), if_pos h]

end

end Sys2Proof.Machine
end

section
/-! SUPPORT. Arrivals and proxies at a piton (R261 to R268), and O50. -/

namespace Sys2Proof.Machine

/-! What counts (R261, R417, R422). -/

/-- The ticks kept by quarter, after an arrival of the streams of quarter by_, if of any. -/
def countedAt (c : Sparse (Option Nat)) (tick : Nat) : Option Nat → Sparse (Option Nat)
  | some q => sset none c q (some tick)
  | none => c

theorem sget_countedAt (c : Sparse (Option Nat)) (tick : Nat) (by_ : Option Nat) (k : Nat) :
    sget none (countedAt c tick by_) k = if by_ = some k then some tick else sget none c k := by
  cases by_ with
  | none => rfl
  | some q => simp only [countedAt, sget_sset, Option.some.injEq, eq_comm]

/-- What the model keeps for R417 and R422 of an arrival, or of a proxy that tells of the fences of some quarters. -/
def Piton.noted (p : Piton) (tick : Nat) (by_ : Option Nat) (fq : BitVec 4) : Piton :=
  { p with counted := countedAt p.counted tick by_, fencedBy := p.fencedBy ||| fq }

@[simp] theorem noted_fenced (p : Piton) (tick : Nat) (by_ : Option Nat) (fq : BitVec 4) : (p.noted tick by_ fq).fenced = p.fenced := rfl
@[simp] theorem noted_tgtValid (p : Piton) (tick : Nat) (by_ : Option Nat) (fq : BitVec 4) : (p.noted tick by_ fq).tgtValid = p.tgtValid := rfl
@[simp] theorem noted_done (p : Piton) (tick : Nat) (by_ : Option Nat) (fq : BitVec 4) : (p.noted tick by_ fq).done = p.done := rfl
@[simp] theorem noted_overrun (p : Piton) (tick : Nat) (by_ : Option Nat) (fq : BitVec 4) : (p.noted tick by_ fq).overrun = p.overrun := rfl

/-- An arrival tells of no fence. -/
theorem noted_zero (p : Piton) (tick : Nat) (by_ : Option Nat) : p.noted tick by_ 0 = { p with counted := countedAt p.counted tick by_ } := by
  have h : p.fencedBy ||| 0 = p.fencedBy := BitVec.or_zero
  rw [Piton.noted, h]

/-- n more counted, and the total of a LAST taken as target. -/
def Piton.gains (p : Piton) (n : Nat) (last : Bool) (total : Word) : Piton :=
  { p with count := BitVec.ofNat 32 (p.count.toNat + n), target := if last then total else p.target, tgtValid := last || p.tgtValid }

theorem count_gains {p : Piton} {n : Nat} (h : p.count.toNat + n < 2 ^ 32) (last : Bool) (total : Word) :
    (p.gains n last total).count.toNat = p.count.toNat + n := by
  rw [Piton.gains, BitVec.toNat_ofNat, Nat.mod_eq_of_lt h]

/-- The first proxy at a piton: FENCED_SEEN, FENCED to its waiters, and its chain fires (R268). -/
def firstProxy (s : State) (i : Nat) (by_ : Option Nat) : State :=
  fireChain (release (s.modPiton i fun p => { p with fenced := true }) i 1) i by_

theorem piton_firstProxy (s : State) (i : Nat) (by_ : Option Nat) : (firstProxy s i by_).piton i =
    { s.piton i with fenced := true, waiters := [], fired := (s.piton i).chained || (s.piton i).fired } := by
  rw [firstProxy, piton_fireChain, piton_release_same, piton_modPiton_same]

theorem firstProxy_notified (s : State) (i : Nat) (by_ : Option Nat) :
    Notified s (firstProxy s i by_) i { s.piton i with fenced := true } (s.piton i).waiters 1 := by
  have hnotes := release_notified (s.modPiton i fun p => { p with fenced := true }) i 1
  rw [piton_modPiton_same] at hnotes
  exact notified_congr hnotes rfl (atInjector_fireChain _ _ _ _) rfl fun _ _ => rfl

/-- Of a piton that is neither DONE nor in error: an arrival, or a first proxy, is noted, told to waiters if it is a proxy, counted, and then the piton is checked for completion. -/
theorem pitArrive_counts {s : State} {i n : Nat} {proxy last : Bool} {fq : BitVec 4} (total : Word) (by_ : Option Nat)
    (hd : (s.piton i).done = false) (ho : (s.piton i).overrun = false) (hn : (s.piton i).count.toNat + n < 2 ^ 32)
    (hp : proxy = true → (s.piton i).fenced = false) (hfq : proxy = false → fq = 0) (hl : last = true → (s.piton i).tgtValid = false) :
    ∃ b u, b.piton i = (s.piton i).noted s.tick by_ fq ∧ b.fab = s.fab ∧ b.clk = s.clk ∧
      (let d := if proxy then firstProxy b i by_ else b
       pitArrive s i n proxy last total by_ fq = pitCheck u i by_ ∧ u.piton i = (d.piton i).gains n last total ∧ u.fab = d.fab ∧ u.clk = d.clk) := by
  unfold pitArrive
  -- a and b: noted (R417, R422); d: the waiters told of a first proxy; e and f: counted; g: a LAST's total taken
  extract_lets a b p c d e f g
  have ha : a.piton i = { s.piton i with counted := countedAt (s.piton i).counted s.tick by_ } ∧ a.fab = s.fab ∧ a.clk = s.clk := by
    cases by_ with
    | none => exact ⟨rfl, rfl, rfl⟩
    | some q => exact ⟨piton_modPiton_same _ _ _, rfl, rfl⟩
  obtain ⟨hpa, hfa, hca⟩ := ha
  have hb : b.piton i = (s.piton i).noted s.tick by_ fq ∧ b.fab = s.fab ∧ b.clk = s.clk := by
    cases proxy with
    | false => exact ⟨by rw [hfq rfl, noted_zero, ← hpa]; rfl, hfa, hca⟩
    | true => exact ⟨(piton_modPiton_same a i _).trans (by rw [hpa, Piton.noted]), hfa, hca⟩
  obtain ⟨hpb, hfb, hcb⟩ := hb
  have hpn : p = (s.piton i).noted s.tick by_ fq := hpb
  clear_value a b p
  have hdb : d = if proxy then firstProxy b i by_ else b := by
    cases proxy with
    | false => rfl
    | true =>
      refine Eq.trans ?_ (if_pos rfl).symm
      exact (if_pos (by rw [hpn]; simp [hp])).trans (if_pos (by rw [hpn]; simp [hd, ho]))
  clear_value d
  have hfits : ¬ 2 ^ 32 - 1 < p.count.toNat + n := by
    have hsame : p.count = (s.piton i).count := by rw [hpn]; rfl
    rw [hsame]
    omega
  have hef : f = d.modPiton i fun q => { q with count := BitVec.ofNat 32 (q.count.toNat + n) } := by
    have he : e = d.modPiton i fun q => { q with count := BitVec.ofNat 32 (q.count.toNat + n) } := if_neg hfits
    rw [← he]
    exact if_neg (by simp [hpn, hd])
  clear_value f
  refine ⟨b, g, hpb, hfb, hcb, rfl, ?_⟩
  rw [← hdb]
  cases last with
  | false =>
    have hg : g = f := rfl
    rw [hg, hef, piton_modPiton_same]
    exact ⟨rfl, rfl, rfl⟩
  | true =>
    have hg : g = f.modPiton i fun q => { q with target := total, tgtValid := true } := by
      have hvalid : (!p.tgtValid) = true := by rw [hpn]; simp [hl]
      exact (if_pos rfl).trans (if_pos hvalid)
    rw [hg, hef, piton_modPiton_same, piton_modPiton_same]
    exact ⟨rfl, rfl, rfl⟩

/-! Arrivals (R261, R262). -/

/-- u is s with n more counted of piton i, which is neither DONE nor in error and keeps its waiters; nothing has been sent. -/
structure Counts (s u : State) (i n : Nat) : Prop where
  count : (u.piton i).count.toNat = (s.piton i).count.toNat + n
  waiters : (u.piton i).waiters = (s.piton i).waiters
  done : (u.piton i).done = false
  overrun : (u.piton i).overrun = false
  fab : u.fab = s.fab
  clk : u.clk = s.clk

/-- What is sent then is all that is sent. -/
theorem Counts.notified {s u t : State} {i n st : Nat} {p : Piton} {ws : List Waiter} (h : Counts s u i n) (hn : Notified u t i p ws st) :
    Notified s t i p ws st := notified_congr hn (atInjector_of_fab h.fab.symm i) rfl h.clk.symm fun _ _ => rfl

/-- An arrival that the engine takes is counted, and then the piton is checked for completion. -/
theorem exec_arrive {s : State} {q : Fin 4} {m : PitMsg} (h : TakesOp s q 0 m)
    (hd : (s.piton m.piton.toNat).done = false) (ho : (s.piton m.piton.toNat).overrun = false)
    (hn : (s.piton m.piton.toNat).count.toNat + fld m.inl 0 32 < 2 ^ 32)
    (hl : m.last = true → (s.piton m.piton.toNat).tgtValid = false) :
    ∃ u, exec (.arrive q) s = .next (pitCheck u m.piton.toNat m.by_) ∧ Counts s u m.piton.toNat (fld m.inl 0 32) ∧
      u.piton m.piton.toNat = ((s.piton m.piton.toNat).noted s.tick m.by_ 0).gains (fld m.inl 0 32) m.last m.total := by
  obtain ⟨b, u, hb, hbf, hbc, heq, hu, huf, huc⟩ := pitArrive_counts (s := opTaken s q m) (i := m.piton.toNat) (n := fld m.inl 0 32)
    (proxy := false) (fq := 0) m.total m.by_ hd ho hn (fun h => by cases h) (fun _ => rfl) hl
  have hp : u.piton m.piton.toNat = ((s.piton m.piton.toNat).noted s.tick m.by_ 0).gains (fld m.inl 0 32) m.last m.total :=
    hu.trans (congrArg (fun p : Piton => p.gains _ m.last m.total) hb)
  refine ⟨u, ?_, ⟨?_, ?_, ?_, ?_, huf.trans hbf, huc.trans hbc⟩, hp⟩
  · rw [← heq]
    exact congrArg Host.Outcome.next (takeOp_applies _ h)
  all_goals rw [hp]
  · exact count_gains hn m.last m.total
  · rfl
  · exact hd
  · exact ho

section
variable {u : State} {i : Nat} {by_ : Option Nat} (hd : (u.piton i).done = false) (ho : (u.piton i).overrun = false)
  (hv : (u.piton i).tgtValid = true)
include hd ho hv

/-- At its target a piton is DONE, and its waiters have been told so. -/
theorem pitCheck_atTarget (h : (u.piton i).count.toNat = (u.piton i).target.toNat) :
    let t := pitCheck u i by_
    (t.piton i).count = (u.piton i).count ∧ (t.piton i).target = (u.piton i).target ∧ (t.piton i).tgtValid = true ∧
      (t.piton i).done = true ∧ (t.piton i).waiters = [] ∧ Notified u t i (t.piton i) (u.piton i).waiters 0 := by
  obtain ⟨hp, hnotes⟩ := pitCheck_completes hv hd ho by_ (BitVec.eq_of_toNat_eq h)
  intro t
  rw [hp]
  exact ⟨rfl, rfl, hv, rfl, rfl, notified_congr hnotes rfl rfl rfl fun _ _ => rfl⟩

/-- Above its target a piton is in OVERRUN with cause 1, and its waiters have been told so. -/
theorem pitCheck_aboveTarget (h : (u.piton i).target.toNat < (u.piton i).count.toNat) :
    let t := pitCheck u i by_
    (t.piton i).count = (u.piton i).count ∧ (t.piton i).target = (u.piton i).target ∧ (t.piton i).tgtValid = true ∧
      (t.piton i).overrun = true ∧ (t.piton i).cause = 1 ∧ (t.piton i).done = false ∧ (t.piton i).waiters = [] ∧
      Notified u t i (t.piton i) (u.piton i).waiters 2 := by
  intro t
  have ht : t = pitError u i 1 := pitCheck_exceeds hv hd ho by_ h
  rw [ht, piton_pitError 1 ho]
  exact ⟨rfl, rfl, hv, rfl, rfl, hd, rfl, notified_congr (pitError_notified 1 ho) rfl rfl rfl fun _ _ => rfl⟩

end

/-- Completion leaves COUNT as it is. -/
theorem count_pitCheck {u : State} {i : Nat} (by_ : Option Nat) (hd : (u.piton i).done = false) (ho : (u.piton i).overrun = false) :
    ((pitCheck u i by_).piton i).count = (u.piton i).count := by
  cases hv : (u.piton i).tgtValid with
  | false => rw [pitCheck_open by_ (.inl hv)]
  | true =>
    rcases Nat.lt_trichotomy (u.piton i).count.toNat (u.piton i).target.toNat with hlt | heq | hgt
    · rw [pitCheck_open by_ (.inr hlt)]
    · exact (pitCheck_atTarget hd ho hv heq).1
    · exact (pitCheck_aboveTarget hd ho hv hgt).1

/-- With a target, a piton that completion finds neither DONE nor in error is DONE exactly where COUNT has reached it. -/
theorem pitCheck_done {u : State} {i : Nat} (by_ : Option Nat) (hd : (u.piton i).done = false) (ho : (u.piton i).overrun = false)
    (hv : (u.piton i).tgtValid = true) :
    let t := pitCheck u i by_
    (t.piton i).tgtValid = true ∧ (t.piton i).target = (u.piton i).target ∧
      ((t.piton i).done = true ↔ (u.piton i).count.toNat = (u.piton i).target.toNat) ∧
      ((t.piton i).done = true → Notified u t i (t.piton i) (u.piton i).waiters 0) := by
  intro t
  rcases Nat.lt_trichotomy (u.piton i).count.toNat (u.piton i).target.toNat with hlt | heq | hgt
  · have ht : t = u := pitCheck_open by_ (.inr hlt)
    rw [ht, hd]
    exact ⟨hv, rfl, iff_of_false Bool.false_ne_true (by omega), fun h => absurd h Bool.false_ne_true⟩
  · obtain ⟨-, htarget, hvalid, hdone, -, hnotes⟩ := pitCheck_atTarget (by_ := by_) hd ho hv heq
    exact ⟨hvalid, htarget, iff_of_true hdone heq, fun _ => hnotes⟩
  · obtain ⟨-, htarget, hvalid, -, -, hdone, -⟩ := pitCheck_aboveTarget (by_ := by_) hd ho hv hgt
    rw [hdone]
    exact ⟨hvalid, htarget, iff_of_false Bool.false_ne_true (by omega), fun h => absurd h Bool.false_ne_true⟩

/-- The first proxy that the engine takes tells the waiters FENCED and counts. -/
theorem exec_proxyArrive {s : State} {q : Fin 4} {m : PitMsg} (h : TakesOp s q 4 m) (hf : (s.piton m.piton.toNat).fenced = false)
    (hd : (s.piton m.piton.toNat).done = false) (ho : (s.piton m.piton.toNat).overrun = false)
    (hv : (s.piton m.piton.toNat).tgtValid = false) (hlast : m.last = false)
    (hn : (s.piton m.piton.toNat).count.toNat + fld m.inl 0 32 < 2 ^ 32) :
    ∃ u, exec (.proxyArrive q) s = .next u ∧ (u.piton m.piton.toNat).fenced = true ∧ (u.piton m.piton.toNat).waiters = [] ∧
      Notified s u m.piton.toNat { s.piton m.piton.toNat with fenced := true } (s.piton m.piton.toNat).waiters 1 ∧
      (u.piton m.piton.toNat).count.toNat = (s.piton m.piton.toNat).count.toNat + fld m.inl 0 32 := by
  obtain ⟨b, u, hb, hbf, hbc, heq, hu, huf, -⟩ := pitArrive_counts (s := opTaken s q m) (i := m.piton.toNat) (n := fld m.inl 0 32)
    (proxy := true) (last := m.last) (fq := m.fenceBy) m.total m.by_ hd ho hn (fun _ => hf) (fun h => by cases h) (fun _ => hv)
  rw [if_pos rfl] at huf
  rw [if_pos rfl, piton_firstProxy, hb, hlast] at hu
  have hopen : pitCheck u m.piton.toNat m.by_ = u := pitCheck_open m.by_ (.inl (by rw [hu]; exact hv))
  have hnotes := firstProxy_notified b m.piton.toNat m.by_
  rw [hb] at hnotes
  refine ⟨u, ?_, by rw [hu]; rfl, by rw [hu]; rfl,
    notified_congr hnotes (atInjector_of_fab hbf.symm _) (atInjector_of_fab huf _) hbc.symm fun _ _ => rfl,
    by rw [hu]; exact count_gains hn false m.total⟩
  rw [← hopen, ← heq]
  exact congrArg Host.Outcome.next (takeOp_applies _ h)

/-- Settles O50: an arrival counts, and completes, overruns or leaves open the piton; the first proxy tells its waiters FENCED. -/
theorem arrivalsCount : Obligations.ArrivalsCount := by
  refine ⟨fun s q m h hlast hd ho hn => ?arrive, fun s q m h hlast hd ho hv hn => ?last, fun s q m h hlast hf hd ho hv hn => ?proxy⟩
  case arrive =>
    obtain ⟨u, hexec, hc, hu⟩ := exec_arrive h hd ho hn fun hl => absurd (hlast.symm.trans hl) Bool.false_ne_true
    rw [hlast, noted_zero] at hu
    have htarget : (u.piton m.piton.toNat).target = (s.piton m.piton.toNat).target := by rw [hu]; rfl
    have hvalid : (u.piton m.piton.toNat).tgtValid = (s.piton m.piton.toNat).tgtValid := by rw [hu]; rfl
    rw [← hc.count, ← htarget, ← hvalid, ← hc.waiters]
    refine ⟨_, hexec, by rw [count_pitCheck _ hc.done hc.overrun], fun hopen => ?_, fun hv heq => ?_, fun hv hgt => ?_⟩
    · rw [pitCheck_open m.by_ hopen, hu]
      exact ⟨rfl, hc.fab, fun k => sget_countedAt _ _ _ _⟩
    · obtain ⟨-, -, -, hdone, hnone, hnotes⟩ := pitCheck_atTarget (by_ := m.by_) hc.done hc.overrun hv heq
      exact ⟨hdone, hnone, hc.notified hnotes⟩
    · obtain ⟨-, -, -, hover, hcause, hdone, hnone, hnotes⟩ := pitCheck_aboveTarget (by_ := m.by_) hc.done hc.overrun hv hgt
      exact ⟨hover, hcause, hdone, hnone, hc.notified hnotes⟩
  case last =>
    obtain ⟨u, hexec, hc, hu⟩ := exec_arrive h hd ho hn fun _ => hv
    rw [hlast] at hu
    have htarget : (u.piton m.piton.toNat).target = m.total := by rw [hu]; rfl
    obtain ⟨hvalid, hkept, hdone, hnotes⟩ := pitCheck_done m.by_ hc.done hc.overrun (by rw [hu]; rfl)
    rw [← hc.count, ← htarget, ← hc.waiters]
    exact ⟨_, hexec, hvalid, hkept, hdone, fun hd => hc.notified (hnotes hd)⟩
  case proxy => exact exec_proxyArrive h hf hd ho hv hlast hn

end Sys2Proof.Machine
end

section
/-! SUPPORT. SET_TARGET, WAIT, CHAIN, READ and CLEAR_ALL (R257, R261, R264, R265, R269, R270, Tables 8-2 and 8-11), and O51. -/

namespace Sys2Proof.Machine

/-! SET_TARGET (R261, R269). -/

/-- A piton restarted with a target. -/
def Piton.restarted (p : Piton) (t : Word) (remote : Bool) : Piton :=
  { p with count := 0, target := t, tgtValid := true, done := false, fenced := false, overrun := false, fencedBy := 0, cause := 0,
           fired := false, remote := remote, counted := [] }

/-- CLEAR with a target above 0 restarts the piton. -/
theorem pitSetTarget_clear (s : State) (i : Nat) {t : Word} (remote : Bool) (by_ : Option Nat) (ht : 0 < t.toNat) :
    (pitSetTarget s i t true false remote by_).piton i = (s.piton i).restarted t remote := by
  unfold pitSetTarget
  extract_lets a p u
  have hu : u.piton i = (s.piton i).restarted t remote := by
    have hclear : u = a.modPiton i _ := if_pos rfl
    rw [hclear, piton_modPiton_same, piton_modPiton_same]
    rfl
  rw [pitCheck_open by_ (.inr (by rw [hu]; exact ht)), hu]

/-- A second target that differs, without CLEAR, is an OVERRUN with cause 3. -/
theorem pitSetTarget_differs {s : State} {i : Nat} {t : Word} (noTarget remote : Bool) (by_ : Option Nat)
    (hv : (s.piton i).tgtValid = true) (ho : (s.piton i).overrun = false) (ht : t ≠ (s.piton i).target) :
    (pitSetTarget s i t false noTarget remote by_).piton i = { ({ s.piton i with remote := remote } : Piton).inError 3 with waiters := [] } := by
  unfold pitSetTarget
  extract_lets a p u
  have hp : p = { s.piton i with remote := remote } := piton_modPiton_same _ _ _
  have hpo : (a.piton i).overrun = false := by rw [show a.piton i = _ from hp]; exact ho
  have hu : u = pitError a i 3 := by
    have hsecond : (p.tgtValid && t != p.target) = true := by rw [hp]; simp [hv, ht]
    exact (if_neg Bool.false_ne_true).trans (if_pos hsecond)
  have hpu : u.piton i = { ({ s.piton i with remote := remote } : Piton).inError 3 with waiters := [] } := by
    rw [hu, piton_pitError 3 hpo, show a.piton i = _ from hp]
  rw [pitCheck_overrun by_ (by rw [hpu]; rfl), hpu]

theorem sendPitonOp_pitons (s : State) (q f src i op arg inl : Nat) : (sendPitonOp s q f src i op arg inl).pitons = s.pitons := rfl

/-- A streamer's new WAITs leave the pitons as they are. -/
theorem waitAnew_pitons (s : State) (i q : Nat) : (waitAnew s i q).pitons = s.pitons := by
  unfold waitAnew
  refine forEach_keeps (fun s : State => s.pitons) _ (fun s it => ?_) _ s
  split
  · rw [streamerWait, sendPitonOp_pitons, State.modCfg_pitons]
  · rfl

/-! WAIT (R264). -/

/-- The waiter that a WAIT registers. -/
def waiterOf (m : PitMsg) : Waiter :=
  { mode := m.arg.extractLsb' 0 2, dest := m.inl.extractLsb' 0 24, src := m.src, self := m.dest, cls := m.cls,
    tag := m.inl.extractLsb' 32 32, addr := m.inl.extractLsb' 64 64, fromLink := m.fromLink }

theorem exec_wait {s : State} {q : Fin 4} {m : PitMsg} (h : TakesOp s q 2 m) :
    exec (.wait q) s = .next (pitWait (opTaken s q m) m.piton.toNat (waiterOf m)) := congrArg Host.Outcome.next (takeOp_applies _ h)

theorem refused_opTaken (s : State) (q : Nat) (m : PitMsg) (k : Nat) : ((opTaken s q m).pitQ k).refused = (s.pitQ k).refused := by
  by_cases hk : k = q
  · rw [hk, opTaken, pitQ_modPitQ_same]
  · rw [opTaken, pitQ_modPitQ_other _ _ hk]

section
variable {s : State} {i : Nat} (w : Waiter) (hd : (s.piton i).done = false) (ho : (s.piton i).overrun = false)
  (hf : (s.piton i).fenced = false)
include hd ho hf

theorem pitWait_registers (hlen : (s.piton i).waiters.length < 4) :
    pitWait s i w = s.modPiton i fun p => { p with waiters := p.waiters ++ [w] } := by
  unfold pitWait
  extract_lets p
  rw [if_neg (by rw [ho]; decide), if_neg (by rw [hd]; decide), if_neg (by rw [hf]; decide)]
  exact if_neg (Nat.not_le.2 hlen)

/-- A fifth WAIT is answered REFUSED and counted. -/
theorem pitWait_refused (hlen : 4 ≤ (s.piton i).waiters.length) :
    (pitWait s i w).piton i = s.piton i ∧
      ((pitWait s i w).pitQ (pitonQuarter i)).refused = satInc (s.pitQ (pitonQuarter i)).refused := by
  have hsent := sendNote_onlySent s i w 3
  unfold pitWait
  extract_lets p k
  rw [if_neg (by rw [ho]; decide), if_neg (by rw [hd]; decide), if_neg (by rw [hf]; decide), if_pos hlen]
  constructor
  · exact hsent.piton i
  · rw [pitQ_modPitQ_same, pitQ_spill, hsent.pitQ k]

end

/-! CHAIN (R265, log 21). -/

theorem pitChain_removes (s : State) (i to_ : Nat) (by_ : Option Nat) : ((pitChain s i to_ 0 by_).piton i).chained = false := by
  rw [pitChain, if_pos rfl, piton_modPiton_same]

/-- A chain that is set has fired exactly where the piton is complete or fenced, and not in error. -/
theorem pitChain_sets (s : State) (i to_ : Nat) {n : Nat} (by_ : Option Nat) (hn : n ≠ 0) :
    (pitChain s i to_ n by_).piton i =
      { s.piton i with chained := true, chainPiton := BitVec.ofNat 17 to_, chainN := BitVec.ofNat 15 n,
                       fired := ((s.piton i).done || (s.piton i).fenced) && !(s.piton i).overrun } := by
  rw [pitChain, if_neg hn]
  extract_lets t p
  have hp : t.piton i = { s.piton i with chained := true, chainPiton := BitVec.ofNat 17 to_, chainN := BitVec.ofNat 15 n, fired := false } :=
    piton_modPiton_same _ _ _
  have hready : ((p.done || p.fenced) && !p.overrun) = (((s.piton i).done || (s.piton i).fenced) && !(s.piton i).overrun) := by
    rw [show p = _ from hp]
  rw [hready]
  cases ((s.piton i).done || (s.piton i).fenced) && !(s.piton i).overrun with
  | false => exact hp
  | true =>
    rw [if_pos rfl, piton_fireChain, hp]
    rfl

/-! READ (Table 8-2). -/

theorem hDest_mkHdr (f : HdrF) (hd : f.dest < 2 ^ 24) : hDest (mkHdr f) = f.dest := by
  rw [hDest, fld, mkHdr, BitVec.extractLsb'_toNat, BitVec.toNat_ofNat, Nat.shiftRight_eq_div_pow]
  omega

theorem b2n_le_one (b : Bool) : b2n b ≤ 1 := by cases b <;> decide

theorem hArg_mkHdr (f : HdrF) (ha : f.arg < 2 ^ 32) : hArg (mkHdr f) = f.arg := by
  have hlast := b2n_le_one f.last
  have hrope := b2n_le_one f.rope
  have hcls := b2n_le_one f.cls
  have hpv := b2n_le_one f.pv
  rw [hArg, fld, mkHdr, BitVec.extractLsb'_toNat, BitVec.toNat_ofNat, Nat.shiftRight_eq_div_pow]
  omega

/-! CLEAR_ALL (R257, R270). -/

theorem sget_filter {α : Type} (d : α) (f : Nat → Bool) (j : Nat) : ∀ m : Sparse α,
    sget d (m.filter fun c => f c.1) j = if f j then sget d m j else d
  | [] => (ite_self d).symm
  | (k, v) :: m => by
    have ih := sget_filter d f j m
    rw [List.filter_cons]
    by_cases hk : k = j
    · subst hk
      cases hf : f k <;> simp [sget, ih, hf]
    · cases hf : f k <;> simp [sget, ih, hk]

/-- Releasing the waiters of some pitons leaves every other as it is. -/
theorem piton_releases (st : Nat) {j : Nat} : ∀ {l : List Nat}, j ∉ l → ∀ s : State,
    (forEach l s fun s i => release s i st).piton j = s.piton j
  | [], _, _ => rfl
  | i :: l, hj, s => by
    obtain ⟨hi, hl⟩ := not_or.1 (mt List.mem_cons.2 hj)
    exact (piton_releases st hl _).trans (piton_release_other s st hi)

theorem piton_clearPitons (s : State) (q i : Nat) : (clearPitons s q).piton i = if pitonQuarter i = q then Piton.init else s.piton i := by
  unfold clearPitons
  extract_lets t
  have hfilter : ({ t with pitons := t.pitons.filter fun p => pitonQuarter p.1 != q } : State).piton i =
      if pitonQuarter i != q then t.piton i else Piton.init := sget_filter _ (fun k => pitonQuarter k != q) i t.pitons
  rw [hfilter]
  by_cases hq : pitonQuarter i = q
  · simp [hq]
  · have hother : i ∉ (s.pitons.filter fun p => pitonQuarter p.1 == q).map Prod.fst := fun h => by
      obtain ⟨c, hc, rfl⟩ := List.mem_map.1 h
      exact hq (by simpa using (List.mem_filter.1 hc).2)
    simp [hq, t, piton_releases 5 hother s]

/-- PIT_CTL of quarter q is an aligned word of its own, outside the persistent store, and no write of it is ignored. -/
theorem pitCtl_plain (q : Fin 4) : (0xA001C + 0x40 * q.val) % 4 = 0 ∧ wpWord (0xA001C + 0x40 * q.val) = none ∧
    ∀ (s : State) (p : WinPort) (v : Word), ignoredWrite s p (0xA001C + 0x40 * q.val) v = false ∧
      applyWrite s p .good (0xA001C + 0x40 * q.val) v = writePit s q 0x1C v := by
  fin_cases q <;> exact ⟨rfl, rfl, fun _ _ _ => ⟨rfl, rfl⟩⟩

theorem exec_clearAll {s : State} {q : Fin 4} (p : WinPort) (hw : Writable s (0xA001C + 0x40 * q.val)) (hh : quarterHalted s q = true) :
    ∃ t, exec (.clearAll p q) s = .next t ∧ ∀ i, t.piton i = (clearPitons s q).piton i := by
  obtain ⟨ha, hwp, hplain⟩ := pitCtl_plain q
  obtain ⟨hi, happly⟩ := hplain s p 1
  have hclear : writePit s q 0x1C 1 = clearPitons s q := if_pos (by rw [hh]; rfl)
  refine ⟨_, rfl, fun i => ?_⟩
  rw [← hclear, ← happly]
  exact congrArg (fun b : Body => sget Piton.init b.pitons i) (winWrite_applies p 1 hw ha hwp hi)

/-- Settles O51: each control operation does what its row says. -/
theorem pitonControlCompletes : Obligations.PitonControlCompletes := by
  refine ⟨fun s q m h hc hnt ht => ?clear, fun s q m h hc hv ho ht => ?second, fun s q m h hd ho hf => ?wait, fun s q m h => ?chain,
    fun s q m h => ?read, fun s p q hw hh => ?clearAll⟩
  case clear =>
    have htarget : (BitVec.ofNat 32 (opN m)).toNat = fld m.inl 0 32 := by
      rw [BitVec.toNat_ofNat]
      exact Nat.mod_eq_of_lt (BitVec.isLt _)
    have hp := pitSetTarget_clear (opTaken s q m) m.piton.toNat (bit m.arg 1) m.by_ (htarget.symm ▸ ht)
    refine ⟨_, congrArg Host.Outcome.next (takeOp_applies _ h), ?_⟩
    rw [if_pos hc, hc, hnt, piton_of_pitons (forEach_keeps (fun s : State => s.pitons) _ (fun s k => waitAnew_pitons s _ k) _ _), hp]
    exact ⟨rfl, rfl, htarget, rfl, rfl, rfl, rfl, rfl⟩
  case second =>
    have hdiffers : BitVec.ofNat 32 (opN m) ≠ (s.piton m.piton.toNat).target := fun he => ht (by
      rw [← he, BitVec.toNat_ofNat]
      exact (Nat.mod_eq_of_lt (BitVec.isLt _)).symm)
    have hp := pitSetTarget_differs (s := opTaken s q m) (bit m.arg 2) (bit m.arg 1) m.by_ hv ho hdiffers
    refine ⟨_, congrArg Host.Outcome.next (takeOp_applies _ h), ?_⟩
    rw [if_neg (by rw [hc]; decide), hc, hp]
    exact ⟨rfl, rfl, rfl⟩
  case wait =>
    refine ⟨_, exec_wait h, fun hlen => ?_, fun hlen => ?_⟩
    · rw [pitWait_registers (s := opTaken s q m) _ hd ho hf hlen, piton_modPiton_same]
      exact ⟨_, rfl, rfl, rfl, rfl⟩
    · obtain ⟨hp, hrefused⟩ := pitWait_refused (s := opTaken s q m) (waiterOf m) hd ho hf hlen
      exact ⟨hp, hrefused.trans (congrArg satInc (refused_opTaken s q m _))⟩
  case chain =>
    refine ⟨_, congrArg Host.Outcome.next (takeOp_applies _ h), fun hn => ?_, fun hn => ?_⟩
    · rw [hn]
      exact pitChain_removes _ _ _ _
    · rw [pitChain_sets _ _ _ _ (by omega)]
      exact ⟨rfl, Nat.mod_eq_of_lt (BitVec.isLt _), Nat.mod_eq_of_lt (BitVec.isLt _), rfl⟩
  case read =>
    refine ⟨_, congrArg Host.Outcome.next (takeOp_applies _ h), rfl, _, atInjector_localSend _ _ _ _, ?_, ?_, ?_⟩
    · exact hKind_mkHdr _ (by norm_num)
    · exact hDest_mkHdr _ (BitVec.isLt _)
    · exact hArg_mkHdr _ (by norm_num)
  case clearAll =>
    obtain ⟨t, hexec, ht⟩ := exec_clearAll p hw hh
    refine ⟨t, hexec, fun i hi => ?_, fun i hi => ?_⟩
    · rw [ht, piton_clearPitons, if_pos hi]
    · rw [ht, piton_clearPitons, if_neg hi]

end Sys2Proof.Machine
end
